-- ==== Sys2Proof/Word.lean ====
section
/-! DEFINITION. The word types of the Yelmin and their plainest arithmetic (spec/00_scope R3 to R5, R10). -/

namespace Sys2Proof

/-- A 64-bit register pattern (R49, R51). -/
abbrev Word := BitVec 64

/-- One byte; byte order in memory is little-endian (R4). -/
abbrev Byte := BitVec 8

/-- The 96-bit instruction word (R46). -/
abbrev InstrWord := BitVec 96

/-- One bit per lane of a warp; bit `L` belongs to lane `L` (R16). -/
abbrev LaneMask := BitVec 32

/-- `Wrap(x, n)` of R10. -/
def wrap (n : Nat) (x : Int) : BitVec n := BitVec.ofInt n x

/-- `Sat(x, lo, hi)` of R10. -/
def sat (x lo hi : Int) : Int := if x < lo then lo else if hi < x then hi else x

end Sys2Proof
end

