-- ==== Sys2Proof/Syntax.lean ====
section
/-! DEFINITION. The steps of the machine as syntax: the instruction words of XIS (spec/02_words R46 to R65 and the
class chapters) and the device's own events (spec/opcode_table.json, spec/95_what_each_step_holds.md). -/

namespace Sys2Proof

/-- A register specifier that is not reserved (R49). -/
inductive Spec where
  | win (k : Fin 32)   -- w0 to w31
  | sca (k : Fin 64)   -- s0 to s63
  | pred (k : Fin 8)   -- p0 to p7
  | grp (k : Fin 16)   -- g0 to g15
  | tl (k : Fin 16)    -- tl0 to tl15
  | cv (k : Fin 16)    -- cv0 to cv15
  | zero | lane | wslot | core | pcv | imm | immhi
  deriving DecidableEq, Repr

/-- The guard G: a predicate number, inverted when `neg` (R46, R53). -/
structure Guard where
  neg : Bool
  p : Fin 8
  deriving DecidableEq, Repr

/-- What every instruction word carries: the switch marker S, the uniform bit U, the guard G (R46). -/
structure Head where
  s : Bool
  u : Bool
  g : Guard
  deriving DecidableEq, Repr

/-- The TY values 0x0 to 0xB of R47. -/
inductive Ty where
  | i8 | n8 | i16 | n16 | i32 | n32 | i64 | n64 | f64 | f32 | h4 | b4
  deriving DecidableEq, Repr

/-- The RM values 0 to 5 of R47. -/
inductive Rm where
  | rne | rtz | rup | rdn | rna | dyn
  deriving DecidableEq, Repr

/-- The SC values 0 to 6 of R47. -/
inductive Sc where
  | thread | warp | group | cluster | die | package | system
  deriving DecidableEq, Repr

/-- The conditions of CMP (R96). -/
inductive Cc where
  | eq | ne | lt | le | gt | ge
  deriving DecidableEq, Repr

/-- The conditions of FCMP (R122). -/
inductive FCc where
  | eq | ne | lt | le | gt | ge | un | ord
  deriving DecidableEq, Repr

/-- The operations of PLOG (R101). -/
inductive PlogOp where
  | and | or | xor | andn | orn | xnor | nand | nor
  deriving DecidableEq, Repr

/-- The options of FCPS (R121). -/
inductive CpsOp where
  | copy | ncopy | xsgn
  deriving DecidableEq, Repr

/-- The options of SHFL (R171). -/
inductive ShflOp where
  | idx | up | down | xor
  deriving DecidableEq, Repr

/-- The options of VOTE (R174). -/
inductive VoteOp where
  | every | some | same
  deriving DecidableEq, Repr

/-- The operations of REDUCE and SCAN (R177, R178). -/
inductive RedOp where
  | add | min | max | and | or | xor | fadd | fmin | fmax
  deriving DecidableEq, Repr

/-- The operations of ATOM, RED and ATOMS (R278). -/
inductive AtomOp where
  | add | min | max | and | or | xor | exch | inc | dec | fadd | fmin | fmax
  deriving DecidableEq, Repr

/-- The modes of MLS, MMA and MMAS (R61): BFP mode `k` has FN `1 + k`. -/
inductive MatMode where
  | f64 | f32 | f16 | bf16
  | bfp (k : Fin 49)
  deriving DecidableEq, Repr

/-- The engines a PUSH may name (R303). -/
inductive EngineKind where
  | copy | cond | disp
  deriving DecidableEq, Repr

/-- The levels that a CANCEL names (R300). -/
inductive UnitLevel where
  | launch | graph | job
  deriving DecidableEq, Repr

/-- One step of the machine.  The first group are the XIS instruction words; the second group are the
events of the device that no instruction word encodes.  The operands of an event name the pending item it
takes up (its position in the list of the state that holds it) or are what the host sends. -/
inductive Instr where
  -- integer, logical and address class (03_integer)
  | nop (h : Head)
  | mov (h : Head) (ty : Ty) (d a : Spec) (imm : BitVec 32)
  | add (h : Head) (ty : Ty) (d a b : Spec) (imm : BitVec 32)
  | sub (h : Head) (ty : Ty) (d a b : Spec) (imm : BitVec 32)
  | addc (h : Head) (ty : Ty) (d a b : Spec) (p : Fin 8) (imm : BitVec 32)
  | subb (h : Head) (ty : Ty) (d a b : Spec) (p : Fin 8) (imm : BitVec 32)
  | mul (h : Head) (ty : Ty) (d a b : Spec) (imm : BitVec 32)
  | mulh (h : Head) (ty : Ty) (d a b : Spec) (imm : BitVec 32)
  | mad (h : Head) (ty : Ty) (d a b c : Spec) (imm : BitVec 32)
  | mulw (h : Head) (ty : Ty) (d a b : Spec) (imm : BitVec 32)
  | div (h : Head) (ty : Ty) (d a b : Spec) (imm : BitVec 32)
  | rem (h : Head) (ty : Ty) (d a b : Spec) (imm : BitVec 32)
  | min (h : Head) (ty : Ty) (d a b : Spec) (imm : BitVec 32)
  | max (h : Head) (ty : Ty) (d a b : Spec) (imm : BitVec 32)
  | clamp (h : Head) (ty : Ty) (d a b c : Spec) (imm : BitVec 32)
  | abs (h : Head) (ty : Ty) (d a : Spec) (imm : BitVec 32)
  | neg (h : Head) (ty : Ty) (d a : Spec) (imm : BitVec 32)
  | and (h : Head) (ty : Ty) (d a b : Spec) (imm : BitVec 32)
  | or (h : Head) (ty : Ty) (d a b : Spec) (imm : BitVec 32)
  | xor (h : Head) (ty : Ty) (d a b : Spec) (imm : BitVec 32)
  | andn (h : Head) (ty : Ty) (d a b : Spec) (imm : BitVec 32)
  | not (h : Head) (ty : Ty) (d a : Spec) (imm : BitVec 32)
  | shl (h : Head) (ty : Ty) (d a b : Spec) (imm : BitVec 32)
  | shr (h : Head) (ty : Ty) (d a b : Spec) (imm : BitVec 32)
  | sar (h : Head) (ty : Ty) (d a b : Spec) (imm : BitVec 32)
  | rotL (h : Head) (ty : Ty) (d a b : Spec) (imm : BitVec 32)
  | rotR (h : Head) (ty : Ty) (d a b : Spec) (imm : BitVec 32)
  | bfx (h : Head) (ty : Ty) (d a b : Spec) (imm : BitVec 32)
  | bfi (h : Head) (ty : Ty) (d a b c : Spec) (imm : BitVec 32)
  | ext (h : Head) (ty : Ty) (d a b : Spec) (imm : BitVec 32)
  | popc (h : Head) (ty : Ty) (d a : Spec) (imm : BitVec 32)
  | clz (h : Head) (ty : Ty) (d a : Spec) (imm : BitVec 32)
  | ctz (h : Head) (ty : Ty) (d a : Spec) (imm : BitVec 32)
  | brev (h : Head) (ty : Ty) (d a : Spec) (imm : BitVec 32)
  | cmp (h : Head) (cc : Cc) (ty : Ty) (d a b : Spec) (imm : BitVec 32)
  | sel (h : Head) (ty : Ty) (d a b : Spec) (p : Fin 8) (imm : BitVec 32)
  | prmt (h : Head) (d a b c : Spec) (imm : BitVec 32)
  | lea (h : Head) (d : Spec) (imm : BitVec 32)
  | hmix (h : Head) (d a b : Spec) (imm : BitVec 32)
  | plog (h : Head) (o : PlogOp) (pd pa pb : Fin 8)
  | pmovGet (h : Head) (d : Spec)
  | pmovSet (h : Head) (a : Spec) (imm : BitVec 32)
  -- floating-point class (04_float)
  | fadd (h : Head) (ty : Ty) (rm : Rm) (d a b : Spec) (imm : BitVec 32)
  | fsub (h : Head) (ty : Ty) (rm : Rm) (d a b : Spec) (imm : BitVec 32)
  | fmul (h : Head) (ty : Ty) (rm : Rm) (d a b : Spec) (imm : BitVec 32)
  | ffma (h : Head) (ty : Ty) (rm : Rm) (d a b c : Spec) (imm : BitVec 32)
  | fdiv (h : Head) (ty : Ty) (rm : Rm) (d a b : Spec) (imm : BitVec 32)
  | fsqrt (h : Head) (ty : Ty) (rm : Rm) (d a : Spec) (imm : BitVec 32)
  | fmin (h : Head) (ty : Ty) (d a b : Spec) (imm : BitVec 32)
  | fmax (h : Head) (ty : Ty) (d a b : Spec) (imm : BitVec 32)
  | fabs (h : Head) (ty : Ty) (d a : Spec) (imm : BitVec 32)
  | fneg (h : Head) (ty : Ty) (d a : Spec) (imm : BitVec 32)
  | fcps (h : Head) (o : CpsOp) (ty : Ty) (d a b : Spec) (imm : BitVec 32)
  | fcmp (h : Head) (cc : FCc) (ty : Ty) (d a b : Spec) (imm : BitVec 32)
  | fclass (h : Head) (ty : Ty) (d a : Spec) (imm : BitVec 32)
  | frcp (h : Head) (ty : Ty) (d a : Spec) (imm : BitVec 32)
  | frsq (h : Head) (ty : Ty) (d a : Spec) (imm : BitVec 32)
  | fexp2 (h : Head) (ty : Ty) (d a : Spec) (imm : BitVec 32)
  | flog2 (h : Head) (ty : Ty) (d a : Spec) (imm : BitVec 32)
  | fcvt (h : Head) (sty ty : Ty) (rm : Rm) (d a b : Spec) (imm : BitVec 32)
  | ftoi (h : Head) (sty ty : Ty) (rm : Rm) (d a : Spec) (imm : BitVec 32)
  | itof (h : Head) (sty ty : Ty) (rm : Rm) (d a : Spec) (imm : BitVec 32)
  | frnd (h : Head) (ty : Ty) (rm : Rm) (d a : Spec) (imm : BitVec 32)
  | fscl (h : Head) (ty : Ty) (rm : Rm) (d a b : Spec) (imm : BitVec 32)
  | fdot (h : Head) (ty : Ty) (rm : Rm) (d a b c : Spec) (imm : BitVec 32)
  -- control class (05_control)
  | bra (h : Head) (imm : BitVec 32)
  | brx (h : Head) (a : Spec)
  | call (h : Head) (imm : BitVec 32)
  | callx (h : Head) (a : Spec)
  | ret (h : Head)
  | exit (h : Head)
  | yield (h : Head)
  | wspill (h : Head)
  | wfill (h : Head)
  | barHold (h : Head) (b : Fin 8) (c : BitVec 6)
  | barPass (h : Head) (b : Fin 8) (c : BitVec 6)
  | cvarm (h : Head) (p : Fin 8) (k : Fin 16) (members tag : Spec) (imm : BitVec 32)
  | cvsign (h : Head) (p : Fin 8) (k : Fin 16) (tag : Spec) (imm : BitVec 32)
  | cvwait (h : Head) (d : Spec) (k : Fin 16)
  -- cross-lane class (06_lanes)
  | shfl (h : Head) (o : ShflOp) (d a b c : Spec) (imm : BitVec 32)
  | shfx (h : Head) (d : Spec) (k : Fin 32) (b : Spec) (imm : BitVec 32)
  | bcast (h : Head) (d a b : Spec) (imm : BitVec 32)
  | vote (h : Head) (o : VoteOp) (d : Spec) (pa : Fin 8)
  | ballot (h : Head) (d : Spec) (pa : Fin 8)
  | bpcnt (h : Head) (d a b : Spec) (p : Fin 8) (imm : BitVec 32)
  | reduce (h : Head) (o : RedOp) (ty : Ty) (d a : Spec) (imm : BitVec 32)
  | scan (h : Head) (o : RedOp) (ty : Ty) (d a : Spec) (imm : BitVec 32)
  | scanEx (h : Head) (o : RedOp) (ty : Ty) (d a : Spec) (imm : BitVec 32)
  -- memory class (07_memory)
  | ld (h : Head) (ty : Ty) (xs : Fin 4) (d a b : Spec) (imm : BitVec 32)
  | st (h : Head) (ty : Ty) (xs : Fin 4) (a b c : Spec) (imm : BitVec 32)
  | ldl (h : Head) (ty : Ty) (xs : Fin 4) (d a b : Spec) (imm : BitVec 32)
  | stp (h : Head) (ty : Ty) (xs : Fin 4) (a b c : Spec) (imm : BitVec 32)
  | lds (h : Head) (ty : Ty) (xs : Fin 4) (d a b : Spec) (imm : BitVec 32)
  | sts (h : Head) (ty : Ty) (xs : Fin 4) (a b c : Spec) (imm : BitVec 32)
  | ldln (h : Head) (xs : Fin 4) (k : Fin 32) (a b : Spec) (imm : BitVec 32)
  | lda (h : Head) (ty : Ty) (xs : Fin 4) (d a b : Spec) (imm : BitVec 32)
  | sta (h : Head) (ty : Ty) (xs : Fin 4) (a b c : Spec) (imm : BitVec 32)
  | cbget (h : Head) (d : Spec) (n : Fin 8)
  | cbfree (h : Head) (n : Fin 8)
  | migr (h : Head) (xs : Fin 4) (a b : Spec) (imm : BitVec 32)
  | home (h : Head) (xs : Fin 4) (d a b : Spec) (imm : BitVec 32)
  | pfl (h : Head) (xs : Fin 4) (a b : Spec) (imm : BitVec 32)
  | tsto (h : Head) (hd : Fin 8) (n : Fin 8) (a b : Spec) (k : Fin 32)
  | tlod (h : Head) (hd : Fin 8) (n : Fin 8) (k : Fin 32) (a b : Spec)
  -- ordering class (08_ordering)
  | fence (h : Head) (sc : Sc)
  | stf (h : Head) (ty : Ty) (xs : Fin 4) (a b c : Spec) (tag : BitVec 12)
  | mwait (h : Head) (ty : Ty) (xs : Fin 4) (d : Fin 32) (a b c : Spec) (imm : BitVec 32)
  | tlwait (h : Head) (k : Fin 16) (b : Spec) (imm : BitVec 32)
  | tlread (h : Head) (d : Spec) (k : Fin 16) (sel : Fin 3)
  -- atomics and spawning (10_spawn)
  | atom (h : Head) (o : AtomOp) (ty : Ty) (sc : Sc) (xs : Fin 4) (d a b c : Spec) (imm : BitVec 32)
  | cas (h : Head) (ty : Ty) (sc : Sc) (xs : Fin 4) (d a b c : Spec) (imm : BitVec 32)
  | red (h : Head) (o : AtomOp) (ty : Ty) (sc : Sc) (xs : Fin 4) (a b c : Spec) (imm : BitVec 32)
  | atoms (h : Head) (o : AtomOp) (ty : Ty) (xs : Fin 4) (d a b c : Spec) (imm : BitVec 32)
  | cass (h : Head) (ty : Ty) (xs : Fin 4) (d a b c : Spec) (imm : BitVec 32)
  | spawn (h : Head) (a b c : Spec) (imm : BitVec 32)
  | spawna (h : Head) (a b c : Spec) (imm : BitVec 32)
  | spawnd (h : Head) (b c : Spec) (imm : BitVec 32)
  | record (h : Head) (a : Spec) (k : Fin 32) (f : Bool)
  | cflush (h : Head) (a : Spec) (matchTag : Bool) (tag : BitVec 8)
  | ccwait (h : Head) (d a b c : Spec) (imm : BitVec 32)
  | cancelLaunch (h : Head) (p : Fin 8) (a : Spec)
  | cancelGraph (h : Head) (p : Fin 8) (a : Spec)
  | cancelJob (h : Head) (p : Fin 8) (a : Spec)
  -- engine class (11_engines)
  | push (h : Head) (p : Fin 8) (a : Spec) (k : Option (Fin 16)) (e : EngineKind)
  | rcfence (h : Head)
  | engq (h : Head) (d : Spec) (k : Fin 16) (b : Spec) (sel : Fin 6) (peer : Fin 16)
  -- matrix class (13_matrix)
  | mls (h : Head) (m : MatMode) (a : Spec) (imm : BitVec 32)
  | mswap (h : Head)
  | mma (h : Head) (m : MatMode) (cv : Option (Fin 16)) (act accd : Spec) (imm : BitVec 32)
  | mmas (h : Head) (m : MatMode) (k : Fin 64) (cv : Option (Fin 16)) (act accd : Spec) (imm : BitVec 32)
  | mza (h : Head) (a : Spec) (imm : BitVec 32)
  | mstat (h : Head) (d : Spec) (sel : Fin 3)
  | mcond (h : Head) (d : Spec) (k : Fin 64)
  -- launch and time class (14_launch)
  | launch (h : Head) (d a : Spec)
  | time (h : Head) (d : Spec)
  | sleep (h : Head) (a : Spec) (imm : BitVec 32)
  | budget (h : Head) (d : Spec)
  | lstat (h : Head) (d a : Spec) (sel : Fin 4)
  -- system class (09_traps)
  | trap (h : Head) (code : BitVec 32)
  | brk (h : Head) (code : BitVec 32)
  | rett (h : Head)
  | krd (h : Head) (d : Spec) (reg : BitVec 16)
  | kwr (h : Head) (a : Spec) (reg : BitVec 16)
  | tlbinv (h : Head) (sc : Sc) (a : Spec) (whole : Bool)
  | trace (h : Head) (a : Spec) (imm : BitVec 32)
  | halt (h : Head)
  | ctxsave (h : Head) (a : Spec) (imm : BitVec 32)
  | ctxrest (h : Head) (p : Fin 8) (a : Spec) (imm : BitVec 32)
  -- results, homes and waits
  | cbcfgWrite (k : Nat)
  | governedResultWrite (k : Nat)
  | decodeLoadComplete (k : Nat)
  | completionTimeReturn (k : Nat)
  | tlbWalk (k : Nat)
  | remoteRead (k : Nat)
  | remoteWrite (k : Nat)
  | leaseGrant (k : Nat)
  | atomicAtHome (k : Nat)
  | monitorRegister (k : Nat)
  | monitorWake (k : Nat)
  | monitorLoss (k : Nat)
  | mwaitTimeout (tid : Nat)
  | sleepWake (wid gang : Nat)
  | fenceRetire (wid gang : Nat)
  | tlbinvComplete (wid gang : Nat)
  -- arrival units, pools, nodes
  | nymphDepart (k : Nat)
  | nymphArrival (k : Nat)
  | combTimerExpire (k : Nat)
  | combWarpForm (k : Nat)
  | remoteNymphResend (k : Nat)
  | spawnChildDepart (k : Nat)
  | cflushArrive (k : Nat)
  | poolCombPlace (k : Nat)
  | stealStart (cluster : Nat)
  | stealRequest (k : Nat)
  | stealAnswer (k : Nat)
  | nodeRecordAppend (k : Nat)
  | nodeFlushTimer (index : Nat)
  -- front end
  | counterDoneWrite (lvl : UnitLevel) (k : Nat)
  | cancelApply (k : Nat)
  | admission (k : Nat)
  | spliceLink (k : Nat)
  | launchResult (k : Nat)
  | lstatAnswer (k : Nat)
  | launchRelease (index : Nat)
  | deadlineMiss (index : Nat)
  | overrunRaise (index : Nat)
  | overrunDeliver (wid : Nat)
  | graceExpire (index : Nat)
  | workPlacement
  | contextSave (k : Nat)
  | saveTimeout (k : Nat)
  | contextRestore (k : Nat)
  | unspliceExecute (index : Nat)
  | handlerEntry (wid frag : Nat)
  | heldEntryWrite (dom ring : Nat)
  -- engines
  | tload (core : Nat)
  | tstore (core : Nat)
  | aread (core : Nat)
  | mcast (core : Nat)
  | lcopy (core : Nat)
  | condense (core : Nat)
  | dispatch (cluster : Nat)
  | engineStep (e : EngineKind) (unit : Nat)
  | commandRetire (k : Nat)
  | mcastJoin (k : Nat)
  | mcastStreamStart (k : Nat)
  | mcastGroupClose (k : Nat)
  | matrixOpStart (k : Nat)
  | matrixOpComplete (k : Nat)
  -- host
  | ringTailWrite (port : Bool) (func dom ring : Nat) (v : BitVec 32)
  | ringHeadWrite (port : Bool) (func dom ring : Nat) (v : BitVec 32)
  | ringBaseWrite (port : Bool) (func dom ring : Nat) (v : BitVec 64)
  | ownerWrite (port : Bool) (func dom : Nat) (v : BitVec 64)
  | registerWrite (port : Bool) (func off : Nat) (v : BitVec 64)
  | bar0Unsupported (port : Bool) (func off size : Nat) (write : Bool)
  | pkgctlRun (port : Bool)
  | pkgctlReset (port : Bool)
  | pkgevtClear (port : Bool) (v : BitVec 64)
  | skewsetWrite (port : Bool) (v : BitVec 64)
  | timectlWrite (port : Bool) (v : BitVec 64)
  | fwupdWrite (port : Bool) (v : BitVec 64)
  | fwTakeover (die : Nat)
  | watchdogFailover (die : Nat)
  | firmwareBoot (die : Nat)
  | apertureRead (port : Bool) (func off size : Nat)
  | apertureWrite (port : Bool) (func off : Nat) (data : List (BitVec 8))
  | fanswer (dom : Nat)
  | panswer (dom : Nat)
  | cqUnsplice (dom : Nat)
  | cqCancel (dom : Nat)
  | cqTlbinv (dom : Nat)
  | jobopen (dom : Nat)
  | jobseal (dom : Nat)
  | traceDrain (dom : Nat)
  | timeMeasurement (off : BitVec 64) (peerOff : Nat)
  | powerAlarmAssert
  | powerAlarmDeassert
  | narrowSet
  | narrowClear
  | ucieModuleFail (link modul : Nat)
  | uePortChange (port : Nat) (up : Bool)
  | pcieFundamentalReset (port : Bool)
  | functionLevelReset (port : Bool) (func : Nat)
  | getVersion (req : Nat)
  | getCapabilities (req : Nat)
  | negotiateAlgorithms (req : Nat) (asym hash : BitVec 32)
  | getDigests (req : Nat)
  | getCertificate (req slot : Nat)
  | challenge (req slot : Nat)
  | getMeasurements (req index : Nat)
  deriving DecidableEq, Repr

end Sys2Proof
end

