-- ==== Sys2Proof/Config.lean ====
section
/-! DEFINITION. What the spec leaves open: free values, drawn with a counter of the state, and the constants of one
part.  None has a body, so nothing can be proved from a value of it. -/

namespace Sys2Proof

/-- Whose turn it is: the next thing that happens in the device, where the state does not fix it (R1, R456). -/
inductive Turn where
  | issue (core part : Nat)      -- a partition issues one gang of one warp (R16, R135, R393)
  | retry (wid gang : Nat)       -- a waiting instruction of a gang is attempted again (R133)
  | event (i : Instr)            -- an event of the device
  | tick (dt : Nat)              -- device time passes (R27)
  deriving DecidableEq, Repr, Inhabited

/-- The turn taken at the n-th step when the state holds none (R1). -/
opaque Config.turn : Nat → Turn

/-- A free choice between two outcomes that the spec allows; the argument is the draw counter. -/
opaque Config.choice : Nat → Bool

/-- A free number. -/
opaque Config.number : Nat → Nat

/-- A free 64-bit value. -/
opaque Config.value : Nat → BitVec 64

/-- A free byte string. -/
opaque Config.bytes : Nat → List (BitVec 8)

/-- How far above the slowest copy a copy of device time is drawn in an interval of 5 us, before the bounds of R27 are put to
it; the arguments are the copy (a core, 384 and above a die's front end, 2^32 and above an engine) and the interval.  With copy 400 and the step counter it
is the die whose front end acts. -/
opaque Config.skew : Nat → Nat → Nat

/-- What a thread reads ahead when a read of its is served in a step: nothing where it is even, else the line that is half of
it (R220). -/
opaque Config.ahead : Nat → Nat

/-- The approximations of R124 as functions of the operation (0 FRCP, 1 FRSQ, 2 FEXP2, 3 FLOG2), the format and the
operand; used only where they meet the bound of R124. -/
opaque Config.approx : Nat → Nat → BitVec 64 → BitVec 64

/-- FORM of this part (R34): 1 the bare package, 2 the module; other values are not issued. -/
opaque Config.isModule : Bool

/-- STEP of this part (R34). -/
opaque Config.stepping : BitVec 4

/-- VERSION, PVMIN and PVMAX of a firmware image by its identity (R449). -/
opaque Config.image : Nat → BitVec 16 × BitVec 8 × BitVec 8

/-- The certificate chain of slot 0 (R453), which one device has. -/
opaque Config.chain : List (BitVec 8)

/-- SM3-256 of a byte string (R452, R453): the spec names the hash and does not define it. -/
opaque Config.sm3 : List (BitVec 8) → BitVec 256

/-- SM3 measurements (R452): of the boot ROM at 0, of a firmware image at its identity plus 1. -/
opaque Config.measurement : Nat → BitVec 256

end Sys2Proof
end

