-- ==== Sys2Proof/Machine/Tab.lean ====
section
/-! DEFINITION. Sparse tables: lists of keys and values in one canonical form (keys strictly rising, no entry that holds
the default).  Memory, buffers, register files and the tables of the device are kept so. -/

namespace Sys2Proof

/-- A table from natural keys.  What an unlisted key holds is the default that every operation names. -/
abbrev Tab (α : Type) := List (Nat × α)

/-- The value at a key. -/
def Tab.get {α : Type} (d : α) : Tab α → Nat → α
  | [], _ => d
  | (k, v) :: t, x => if k = x then v else Tab.get d t x

/-- The table without a key. -/
def Tab.erase {α : Type} : Tab α → Nat → Tab α
  | [], _ => []
  | (k, v) :: t, x => if k = x then Tab.erase t x else (k, v) :: Tab.erase t x

/-- The table with an entry placed before the first larger key. -/
def Tab.insert {α : Type} : Tab α → Nat → α → Tab α
  | [], x, w => [(x, w)]
  | (k, v) :: t, x, w => if x < k then (x, w) :: (k, v) :: t else (k, v) :: Tab.insert t x w

/-- The table with a value written at a key; writing the default removes the entry. -/
def Tab.set {α : Type} [DecidableEq α] (d : α) (t : Tab α) (x : Nat) (w : α) : Tab α :=
  if w = d then t.erase x else (t.erase x).insert x w

/-- The table with the value at a key changed. -/
def Tab.upd {α : Type} [DecidableEq α] (d : α) (t : Tab α) (x : Nat) (f : α → α) : Tab α :=
  t.set d x (f (t.get d x))

/-- Are the keys strictly rising, all above `lo` where there is one? -/
def Tab.rising {α : Type} : Option Nat → Tab α → Bool
  | _, [] => true
  | lo, (k, _) :: t => (match lo with | none => true | some l => decide (l < k)) && Tab.rising (some k) t

/-- The canonical form: keys strictly rising, no entry equal to the default. -/
def Tab.wf {α : Type} [DecidableEq α] (d : α) (t : Tab α) : Bool :=
  Tab.rising none t && t.all (fun e => e.2 ≠ d)

/-- `n` consecutive values from a key upwards. -/
def Tab.getN {α : Type} (d : α) (t : Tab α) (x : Nat) : Nat → List α
  | 0 => []
  | n + 1 => t.get d x :: Tab.getN d t (x + 1) n

/-- Consecutive values written from a key upwards. -/
def Tab.setN {α : Type} [DecidableEq α] (d : α) : Tab α → Nat → List α → Tab α
  | t, _, [] => t
  | t, x, v :: vs => Tab.setN d (t.set d x v) (x + 1) vs

end Sys2Proof
end

