-- ==== Sys2Proof/Machine/State.lean ====
section
/-! DEFINITION. The state of the machine as plain data: all that the spec gives the package, and the model's own
bookkeeping (messages in flight, whose turn it is). -/

namespace Sys2Proof.Machine

/-! ### Threads, warps and workgroups -/

/-- STATE of a lane (R132, R133).  `entering` is the model's own: the lane belongs to a fragment whose handler entry
still waits (R251, R56); `departing` likewise: the lane waits to leave as a nymph (R197). -/
inductive LaneSt where
  | ready | waiting | parked | exited | entering | departing
  deriving DecidableEq, Repr

/-- How a wait of a lane stands (R133, R281). -/
inductive Phase where
  | hold          -- the instruction is attempted again when its condition may hold
  | sent          -- the request has left; the answer ends the wait
  | trailing      -- the trailing wait of R281
  | watching      -- a monitor registration is held (R235)
  deriving DecidableEq, Repr

/-! ### Where answers go -/

/-- A register that an answer is written to. -/
inductive Dst where
  | none
  | phys (j : Nat)      -- a physical register of the thread
  | block (j n : Nat)   -- n consecutive window registers from physical register j (LDLN, TLOD)
  | sca (k : Nat)       -- a scalar register of the warp
  | grp (k : Nat)       -- a group-shared register
  | pred (k : Nat)      -- a predicate of the thread
  deriving DecidableEq, Repr

/-- How a loaded value is put into its register (R82, R104, R188, R207). -/
inductive PutAs where
  | raw                          -- the 64-bit pattern
  | int (ty : Ty)                -- Put of R82
  | f8F32 (e5 : Bool)            -- one FP8 element decoded to F32 (R188)
  | f8B4 (e5 : Bool)             -- four FP8 elements decoded to BF16
  deriving DecidableEq, Repr

/-- Where and how the answer of a request is written (R55): the warp and the thread, the lanes that share the answer
and the register. -/
structure Ret where
  wid : Nat
  tid : Nat
  lane : Nat
  dst : Dst
  put : PutAs := .raw
  finish : Bool := false   -- the answer also ends the lane's wait
  share : LaneMask := 0    -- the guarded lanes of an instruction with U (R54), which share its flags and its wait
  others : List Nat := []  -- their threads
  serial : Nat := 0        -- the issue that produced it
  deriving DecidableEq, Repr

/-! ### Threads, warps and workgroups, continued -/

/-- A waiting instruction of a lane (R133): the instruction, its word, the issue it belongs to, the lanes that were
ready at that issue, the serial number of the issue, the deadline, and the operands as the lane read them when the
instruction issued (R9, R57). -/
structure Wait where
  instr : Instr
  word : InstrWord
  gang : Nat
  serial : Nat
  phase : Phase := .hold
  dl : Word := 0
  watch : Option (Nat × Ret) := none   -- the memory key that MWAIT or CCWAIT watches, and where its result goes
  ops : List (Spec × Word) := []
  deriving DecidableEq, Repr

/-- A barrier wait abandoned under R255: the barrier and its generation at the lane's arrival. -/
structure Abandoned where
  b : Nat
  gen : BitVec 32
  pc : Word
  deriving DecidableEq, Repr

/-- A lane of a warp: the thread it holds (R132, R140, R262). -/
structure Lane where
  tid : Nat := 0                  -- the thread's identity in the model
  st : LaneSt := .exited
  pc : Word := 0
  handler : Bool := false         -- MODE is 0
  sup : Bool := false             -- supervisor level
  defer : Bool := false
  regs : Tab Word := []           -- physical registers 0 to 63 (R76)
  preds : BitVec 7 := 0           -- p6 to p0 (R79)
  fmode : BitVec 4 := 0           -- FTZ in bit 3, RM in bits 2 to 0 (R111)
  fstat : BitVec 5 := 0           -- NV DZ OF UF NX (R112)
  wb : BitVec 6 := 0              -- window base (R76)
  resf : BitVec 2 := 1            -- resident frames (R140)
  depth : BitVec 32 := 0
  wsp : Word := 0
  cmaxp : Word := 0               -- R226
  cmaxs : Word := 0
  frag : BitVec 32 := 0           -- fragment id, 0 in user mode (R244)
  fslot : BitVec 5 := 0           -- frame slot (R245)
  marks : BitVec 8 := 0           -- barrier marks (R144)
  wake : Bool := false            -- wake pending (R204, R235)
  monitor : Bool := false         -- a monitor registration is held (R262)
  tag : BitVec 8 := 0             -- comb tag (R198)
  heldOverrun : Bool := false     -- OVERRUN held for the lane (R254)
  abandoned : Option Abandoned := none
  tlast : Word := 0               -- largest device time read (R28)
  acq : Word := 0                 -- the lane does not issue until local time exceeds this (R28, R288, R392)
  dtime : Option (BitVec 40) := none   -- DTIME of the nymph that brought the thread, until it issues (R199)
  entry : Bool := false           -- the next issue is a thread entry (R44)
  after : Nat := 0                -- it issues after the thread's results and writes before this serial (R203)
  trail : Option Sc := none       -- and after the conditions of a fence at this scope (R204)
  early : Option (Nat × List Byte) := none   -- a line read before the load that will use it (R220; log entry 87)
  wait : Option Wait := none
  deriving DecidableEq, Repr

/-- What a fragment is doing. -/
inductive FragSt where
  | pending     -- its handler entry waits (R251)
  | handler     -- its lanes run the handler
  | parked      -- parked for the host (R257)
  deriving DecidableEq, Repr

/-- A trap event: the cause and what its frame will hold (R249). -/
structure Event where
  cause : BitVec 8
  sub : BitVec 8
  addr : Word := 0
  info0 : Word := 0
  info1 : Word := 0
  kind : Nat := 0            -- of a PAGE record: 0 read, 1 write, 2 fetch (R257); 3 HALT; 4 through TLWAIT (R310)
  deriving DecidableEq, Repr

/-- A live fragment of a warp with the contents of its frame (R244, R249). -/
structure Frag where
  id : BitVec 32
  lanes : LaneMask
  sib : LaneMask
  parent : BitVec 32
  slot : BitVec 5
  st : FragSt
  ev : Event
  entry : BitVec 8 := 0
  origin : BitVec 8 := 0
  word : InstrWord := 0
  pc : Word := 0
  origpc : Word := 0
  iter : Word := 0
  time : Word := 0
  resume : Word := 0
  serial : Nat := 0        -- the issue at which it formed
  deriving DecidableEq, Repr

/-- A sign record of a convergence register (R149). -/
inductive Sign where
  | none
  | pending
  | completed (tag : BitVec 32) (gen : BitVec 8) (members : BitVec 32)
  | cancelled (tag : BitVec 32) (gen : BitVec 8)
  deriving DecidableEq, Repr

/-- A warp in a warp slot (R16, R78, R244, R261). -/
structure Warp where
  live : Bool := false
  core : Nat := 0
  part : Nat := 0
  slot : Nat := 0
  roaming : Bool := false
  dom : Nat := 0
  launch : Nat := 0
  group : Nat := 0               -- the key of its workgroup; 0 in a roaming warp
  index : Nat := 0               -- warp index in the workgroup
  sregs : Tab Word := []         -- s0 to s63
  fragctr : BitVec 32 := 0
  frags : List Frag := []        -- live fragments, oldest first
  slots : BitVec 32 := 0         -- frame slots in use
  signs : Tab Sign := []         -- cv0 to cv15
  lanes : Tab Lane := []
  barCount : Tab Nat := []       -- count field of the warp's latest BAR at each barrier (R144)
  barDue : List (Nat × Nat × Nat) := []   -- arrivals that wait for earlier accesses: barrier, count field, serial (R147)
  reports : Nat := 0             -- reports of its lanes not yet written (R256)
  lastIssue : Nat := 0           -- the serial of its latest issue (R393)
  deriving DecidableEq, Repr

/-- A named barrier (R144). -/
structure Barrier where
  arrived : Nat := 0
  expect : Nat := 0
  zero : Bool := false           -- the first arrival's count was 0: the number is evaluated again at exits (R144)
  gen : BitVec 32 := 0
  deriving DecidableEq, Repr

/-- A circular buffer (R195, R196). -/
structure CBuf where
  nslots : Nat := 0
  slotb : Nat := 0
  base : Nat := 0
  free : Nat := 0
  filled : Nat := 0
  taken : Nat := 0
  head : Nat := 0
  tail : Nat := 0
  deriving DecidableEq, Repr

/-- An error held in ERRQ (R233). -/
structure TlErr where
  n : Nat
  cause : BitVec 8
  sub : BitVec 8
  info0 : Word
  prog : Nat := 0            -- progress and SENT of the failed operation (R340)
  sent : Tab Nat := []
  deriving DecidableEq, Repr

/-- A timeline context (R233).  `retired` holds the numbers retired out of order, each with the largest completion time
of its writes. -/
structure Timeline where
  issued : Nat := 0
  done : Nat := 0
  ce : Word := 0
  errq : List TlErr := []
  retired : List (Nat × Nat) := []
  deriving DecidableEq, Repr

/-- A resident workgroup (R24, R80, R144, R192, R195, R233, R259). -/
structure Group where
  live : Bool := false
  core : Nat := 0
  part : Nat := 0
  dom : Nat := 0
  launch : Nat := 0
  g : Nat := 0                   -- workgroup index
  warps : List Nat := []         -- its warps in slot order
  gregs : Tab Word := []
  bars : Tab Barrier := []
  sbase : Nat := 0
  ssize : Nat := 0
  cbufs : Tab CBuf := []
  tls : Tab Timeline := []
  acc : Bool := false            -- ACCHELD
  deriving DecidableEq, Repr

/-! ### Messages between cores and homes -/

/-- What a request asks of the home (R185, R219, R277, R240). -/
inductive Req where
  | read (n : Nat)                                              -- a remote read, or one of a local line (R221)
  | grant (n : Nat) (cls : Nat)                                 -- a leased read that needs a grant (R222)
  | prefetch (cls : Nat)                                        -- PFL (R217)
  | write (bytes : List Byte) (tag : Option Nat)                -- a store; STF with its tag (R234)
  | atom (op : AtomOp) (ty : Ty) (v : Word) (wantFlags : Bool)  -- R278
  | cas (ty : Ty) (exp v : Word)                                -- R279
  | monitor (n : Nat) (exp : Word) (cc : Bool)                  -- MWAIT, or CCWAIT (R240, R299)
  | record (words : List Word) (flush : Bool) (fmode : BitVec 4)  -- RECORD (R294): w_k to the frame's last; R113
  deriving DecidableEq, Repr

/-- A request on its way to a home (R220).  `addr` is the physical address with the peer number above bit 52. -/
structure Msg where
  serial : Nat
  src : Nat                -- issuing core
  home : Nat               -- home core; 384 × (peer + 1) + core in a peer package
  addr : Nat
  req : Req
  ret : Option Ret := none
  wid : Nat := 0           -- issuing warp
  tid : Nat := 0           -- issuing thread
  dom : Nat := 0
  launch : Nat := 0
  lane : Nat := 0
  cmax : Word := 0         -- the writer's CMAXS, of a record (R294)
  pc : Word := 0
  word : InstrWord := 0
  issue : Nat := 0         -- the issue that sent it
  deriving DecidableEq, Repr

/-- An answer on its way to its register (R55).  `held` says that it was computed and waits to be written. -/
structure Answer where
  ret : Ret
  vals : List Word         -- the value, or the eight words of a line
  flags : BitVec 5 := 0    -- flags of an atomic (R278)
  deriving DecidableEq, Repr

/-- A completion time on its way to the thread that wrote (R224, R226). -/
structure CTime where
  wid : Nat
  tid : Nat
  c : Word
  here : Bool              -- the line is homed in this package
  deriving DecidableEq, Repr

/-- A monitor registration at a home core (R235). -/
structure Monitor where
  home : Nat
  line : Nat
  addr : Nat
  n : Nat
  ret : Ret
  cc : Bool
  dl : Word := 0           -- the deadline of the wait
  deriving DecidableEq, Repr

/-- A wake or a loss on its way to a lane (R235). -/
structure MonEvent where
  ret : Ret
  cc : Bool
  addr : Nat
  loss : Bool
  immed : Bool := false
  deriving DecidableEq, Repr

/-- A forward-tagged line (R234), oldest first in its list. -/
structure FwdTag where
  line : Nat
  launch : Nat
  deriving DecidableEq, Repr

/-! ### Translation and leases -/

/-- A leaf of the page tables as a walk read it (R181, R182). -/
structure Leaf where
  level : Nat
  entry : Word
  deriving DecidableEq, Repr

/-- A TLB entry: the core, the domain and the 64 KiB page it translates (R183). -/
structure TlbEntry where
  core : Nat
  dom : Nat
  page : Nat
  leaf : Leaf
  deriving DecidableEq, Repr

/-- A walk outstanding for a page (R183). -/
structure Walk where
  core : Nat
  dom : Nat
  page : Nat
  serial : Nat
  deriving DecidableEq, Repr

/-- A failed walk, kept until the accesses that waited for it have taken its outcome (R182). -/
structure WalkFail where
  core : Nat
  dom : Nat
  page : Nat
  sub : BitVec 8
  deriving DecidableEq, Repr

/-- A leased copy of a line (R222, R223). -/
structure Lease where
  core : Nat
  line : Nat
  bytes : List Byte
  till : Nat
  skew : Nat
  newer : List Nat := []    -- threads whose writes to the line were applied after the grant (R205, R220)
  deriving DecidableEq, Repr

/-- The bytes of a line before a write to it, and that write's completion time: until the writing thread has fenced, or
until the completion time where no thread wrote or the thread has ended, a fetch may still see them (R66). -/
structure OldLine where
  line : Nat
  bytes : List Byte
  c : Nat
  tid : Nat := 0           -- the thread that wrote, until it has fenced; 0 of none
  deriving DecidableEq, Repr

/-- A decoding load waiting for its block (R190). -/
structure DecodeLoad where
  ret : Ret
  core : Nat
  serial : Nat
  dom : Nat
  ea : Word
  ty : Ty
  deriving DecidableEq, Repr

/-! ### Nymphs, combs and pools -/

/-- A roaming thread outside a warp (R198, R285): the header's bits, the registers it carries and what the model keeps
beside them. -/
structure Nymph where
  tid : Nat
  dom : Nat
  hdr : BitVec 256
  words : List Word
  full : Word := 0              -- CMAXS of a child; of a migrant, what its writes bring after its departure (R203)
  stamped : Bool := false       -- the header holds a departure time (R198)
  batch : Nat := 0              -- of a child, the issue that spawned it (R287)
  acq : Word := 0               -- R288, R392
  entry : Bool := false         -- its first issue is a thread entry (R44)
  tlast : Word := 0             -- R28
  fresh : Bool := false         -- a created thread, with no departure time
  after : Nat := 0              -- R203
  trail : Option Sc := none     -- R204
  parent : Nat := 0             -- a child leaves only after this thread's earlier writes (R288)
  parentSerial : Nat := 0
  src : Nat := 0
  dest : Nat := 0               -- destination core
  pool : Option Nat := none     -- the donation pool it is bound for (R287)
  waitPc : Bool := false        -- resumes a waiting instruction (R204)
  registered : Bool := false    -- its monitor registration stays at the home (R204)
  remote : Bool := false        -- it came from another package (R445)
  deriving DecidableEq, Repr

/-- The key of a comb (R201). -/
structure CombKey where
  dom : Nat
  launch : Nat
  pc : Word
  tag : BitVec 8
  deriving DecidableEq, Repr

/-- A comb of an arrival unit (R201) or of a donation pool (R290). -/
structure Comb where
  key : CombKey
  nymphs : List Nymph           -- in order of entry
  due : Nat                     -- when its timer expires
  ready : Bool
  born : Nat                    -- its place in the order of opening (R291)
  order : Nat                   -- the same, and once it is ready its place in the order of becoming ready (R201)
  deriving DecidableEq, Repr

/-- The arrival unit of a core (R199 to R201). -/
structure Arrival where
  slots : List Nymph := []      -- accepted nymphs that wait for a comb
  combs : List Comb := []
  due : List Comb := []         -- ready combs that came whole and wait for a free comb and free slots (R291, R295)
  hive : List Nymph := []       -- in order; one bound for a donation pool among them (R290)
  deriving DecidableEq, Repr

/-! ### Engines -/

/-- The state of an engine command (R308). -/
inductive CmdSt where
  | queued | running | paused | finished | joined
  deriving DecidableEq, Repr

/-- An engine command (R305, R306, R338). -/
structure Cmd where
  serial : Nat                        -- order of acceptance
  bytes : List Byte
  engine : EngineKind
  core : Nat
  part : Nat
  dom : Nat
  launch : Nat
  wid : Nat
  tid : Nat
  group : Nat
  lane : Option Nat                   -- the pushing lane; none in the scalar form
  track : Option (Nat × Nat) := none  -- timeline context and number
  pc : Word := 0
  origpc : Word := 0
  origin : BitVec 8 := 0
  iter : Word := 0
  word : InstrWord := 0
  matrix : Nat := 0                   -- it starts after the partition's matrix work up to this serial (R362)
  writers : List Nat := []            -- threads whose earlier writes it starts after (R307)
  st : CmdSt := .queued
  record : List Byte := []            -- the record it uses (R315)
  esize : Nat := 0
  buf : Nat := 0                      -- the circular buffer it names (R413)
  slot : Option Nat := none           -- the circular buffer slot it fills (R320)
  prog : Nat := 0                     -- progress (R340)
  total : Nat := 0                    -- work units of the whole command
  sub : Nat := 0                      -- bytes of the token, or rows of the pass, done
  kept : Nat := 0                     -- passes kept so far (R332)
  fmt : Nat := 0                      -- the format of the tile's pages (R314)
  lines : List (Nat × List Byte) := []   -- source lines read so far (R313)
  places : List (Nat × Nat × Leaf) := []   -- where the checks found the elements of a store to blocks (R324)
  sent : Tab Nat := []                -- SENT of DISPATCH
  charged : Nat := 0
  cmax : Word := 0                    -- largest completion time of its writes
  note : Option (BitVec 8 × BitVec 8) := none   -- the error of the lowest refused token (R334)
  error : Option TlErr := none        -- the error it retires with
  cancelled : Bool := false
  wslot : Nat := 0                    -- the pushing warp's slot (R306)
  failAt : Nat := 0                   -- when its operation failed (R306)
  vals : List Nat := []               -- elements of a tile read from the buffer, for a store of whole blocks (R319)
  deriving DecidableEq, Repr

/-- A record copy of an engine's record cache (R315): the cache, the address, the bytes and when it was read. -/
structure RecCopy where
  engine : EngineKind
  unit : Nat
  dom : Nat
  va : Nat
  bytes : List Byte
  serial : Nat
  deriving DecidableEq, Repr

/-- A member of a multicast group (R330). -/
structure McMember where
  cmd : Nat                 -- serial of the member's command
  core : Nat
  missed : List (Nat × Nat) := []   -- runs of tile elements, first and end, that were streamed while it was away
  deriving DecidableEq, Repr

/-- A multicast group at its coordinator (R330). -/
structure McGroup where
  id : Nat
  home : Nat                -- the core of its coordinator: the home of the tile's first in-extent element
  dom : Nat
  cluster : Nat
  desc : List Byte          -- the record, the coordinates, DTY, MASK, MWIN and SDLY
  key : BitVec 32
  mask : BitVec 16
  members : List McMember
  failed : BitVec 16 := 0
  streamAt : Nat
  closeAt : Nat
  streaming : Bool := false
  pos : Nat := 0            -- tile elements streamed
  lines : List (Nat × List Byte) := []   -- lines read for the stream
  deriving DecidableEq, Repr

/-- A join on its way to the coordinator (R329). -/
structure McJoin where
  cmd : Nat
  core : Nat
  home : Nat                -- the core of the coordinator it goes to
  dom : Nat
  desc : List Byte
  key : BitVec 32
  deriving DecidableEq, Repr

/-! ### The matrix unit -/

/-- A weight plane (R351): its validity with its mode, and its bytes. -/
structure Plane where
  mode : Option MatMode := none
  bwCode : Nat := 0
  bytes : Tab Byte := []
  deriving DecidableEq, Repr

/-- STATE of MSTAT (R374). -/
inductive MState where
  | none | waiting | running | paused | complete | aborted
  deriving DecidableEq, Repr

/-- The operation of a matrix unit (R353, R358, R374). -/
structure MatOp where
  serial : Nat := 0
  word : InstrWord := 0
  mode : MatMode := .f64
  sparse : Bool := false
  wid : Nat := 0
  group : Nat := 0
  launch : Nat := 0
  cv : Option Nat := none       -- the convergence register of a gang
  members : BitVec 32 := 0
  stream : Nat := 0             -- the streamer's partition, and its descriptor
  streamAct : Word := 0
  tag : BitVec 32 := 0
  act : Word := 0
  accd : Word := 0
  amap : Word := 0
  wmap : Word := 0
  wd : Word := 0
  pass : Nat := 0
  row : Nat := 0
  steps : Nat := 0
  scans : Nat := 0
  skips : Nat := 0
  narrowed : Bool := false
  start : Nat := 0              -- the serial of its start, one for all members of a gang (R358)
  signed : Bool := true         -- its sign has been accepted, or it needs none (R357)
  origin : BitVec 8 := 0        -- origin and level of the issue, to which its cycles are charged (R399, R419)
  sup : Bool := false
  run : Bool := false           -- of the pass begun: it runs (R360)
  cycles : Nat := 0             -- of the pass begun: cycles of the rows run (R365)
  rows : List (List Byte) := [] -- of the pass begun: its rows, where they were read for a scan (R356)
  deriving DecidableEq, Repr

/-- The matrix unit of a partition (R355, R364, R374). -/
structure MatUnit where
  active : Plane := {}
  shadow : Plane := {}
  mflags : BitVec 5 := 0
  st : MState := .none
  op : MatOp := {}
  waiting : List MatOp := []    -- operations issued and not yet started, in issue order
  deriving DecidableEq, Repr

/-- A partition: the matrix unit; who last held the weight-buffer half (R321): 2 × workgroup key, or 2 × warp key + 1; and the
gang that issues next, as the second of a pair: its warp, its PC and its lanes (R137). -/
structure Part where
  mat : MatUnit := {}
  halfHolder : Option Nat := none
  pair : Option (Nat × Word × LaneMask) := none
  deriving DecidableEq, Repr

/-- A convergence register (R148). -/
structure CvReg where
  armed : Bool := false
  dom : Nat := 0
  launch : Nat := 0
  members : BitVec 32 := 0
  signed : BitVec 32 := 0
  tag : BitVec 32 := 0
  gen : BitVec 8 := 0
  deriving DecidableEq, Repr

/-- Steal in progress by an idle cluster (R291). -/
inductive Steal where
  | none
  | asking (victim : Nat) (tried : Nat)
  | answered (comb : Option Comb) (tried : Nat)
  deriving DecidableEq, Repr

/-- A cluster's donation pool (R290). -/
structure Pool where
  combs : List Comb := []
  steal : Steal := .none
  deriving DecidableEq, Repr

/-! ### The front end -/

/-- The launch record (R376), its fields as numbers. -/
structure Record where
  kind : Nat := 0
  acc : Bool := false
  list : Bool := false
  pfixed : Bool := false
  policy : Nat := 0
  spl : Bool := false
  frame : Nat := 0
  warps : Nat := 0
  dom : Nat := 0
  scratch : Nat := 0
  entry : Word := 0
  grid : Nat := 0
  maxlive : Nat := 0
  release : Nat := 0
  deadline : Nat := 0
  budget : Nat := 0
  period : Nat := 0
  traph : Word := 0
  suph : Word := 0
  arg : Word := 0
  save : Word := 0
  wspbase : Word := 0
  cc : Word := 0
  gcc : Word := 0
  seals : Bool := false
  clusters : BitVec 24 := 0
  cores : BitVec 16 := 0
  combt : Nat := 0
  wspstep : Nat := 0
  retained : BitVec 8 := 0
  handles : BitVec 8 := 0
  creg : Nat := 0
  first : Nat := 0
  last : Nat := 0
  feed : Nat := 0
  ok : Bool := true            -- no reserved bit set
  deriving DecidableEq, Repr

/-- The state of a launch (R389). -/
inductive LState where
  | none | admitted | running | grace | demoted | parked
  deriving DecidableEq, Repr

/-- What the splice linker knows of a fused launch (R412 to R417). -/
structure Splice where
  p : Record
  q : Record
  fb : Word := 0
  lines : Nat := 0
  loopBra : Word := 0            -- PC of the fused loop's final BRA
  offW : Nat := 0
  offS : Nat := 0
  offP : Nat := 0
  offG : Nat := 0
  offT : Nat := 0
  offB : Nat := 0
  offC : Nat := 0
  words : Nat := 0               -- n of the TSTO and the TLOD
  srcBlock : Nat := 0            -- first register of the TSTO's source block
  dstBlock : Nat := 0            -- first register of the TLOD's destination block, raised
  tlodPc : Word := 0             -- original PC of the TLOD
  tstoPc : Word := 0             -- original PC of the TSTO
  retained : Bool := false       -- the handle is retained, so the TSTO stays
  braP : Word := 0               -- original PCs of the tail BRAs and of the producer's dropped EXIT
  braQ : Word := 0
  exitP : Word := 0
  bodyQ : Word := 0              -- fused PC of the first instruction of the consumer's body
  epiQ : Word := 0               -- fused PC of the first instruction of the consumer's epilogue
  namesW0 : Bool := false        -- the consumer names w0, s0, s1, s2 (R418)
  namesS0 : Bool := false
  namesS1 : Bool := false
  namesS2 : Bool := false
  origins : List (Nat × Word) := []   -- origin (1 A, 2 B, 0 padding) and original PC of each fused slot
  chargesA : Nat := 0
  chargesB : Nat := 0
  region : Nat := 0              -- bytes of the splice region taken at fb
  after : Nat := 0               -- no thread issues until device time exceeds this (R412)
  unsplicing : Bool := false
  cvsP : BitVec 16 := 0          -- convergence registers that each kernel names
  cvsQ : BitVec 16 := 0
  deriving DecidableEq, Repr

/-- What a queued record of a node carries beside its words (R288, R294): the writer's CMAXS, the writer, the moment of
the RECORD, and the writer's FMODE. -/
structure QRec where
  cmax : Nat
  tid : Nat
  serial : Nat
  fmode : BitVec 4
  deriving DecidableEq, Repr

/-- An entry of the launch table (R376, R389, R398, R407). -/
structure Launch where
  live : Bool := false
  r : Record := {}
  st : LState := .none
  cancelled : Bool := false
  asked : Bool := false          -- a CANCEL of the launch itself has been applied (R300)
  order : Nat := 0               -- place in the order of R381
  inst : Nat := 0
  rel : Nat := 0                 -- RELEASE and DEADLINE of the current instance
  dl : Nat := 0
  budget : Nat := 0
  charges : Nat := 0
  recent : List (Nat × Nat) := []   -- charges of the last 256 cycles with their times (R406)
  grace : Nat := 0               -- charges to the grace allowance
  late : Bool := false
  forced : Bool := false
  ovr : Bool := false
  raised : Bool := false         -- OVERRUN was raised on this instance
  pendingOvr : List Nat := []    -- warps to which OVERRUN is still to be delivered
  units : Nat := 0               -- LIVE
  total : Nat := 0               -- TOTAL
  placed : Nat := 0              -- workgroups placed
  roamers : Nat := 0             -- live roaming threads (R286)
  created : Bool := false        -- its threads have been created
  endC : Nat := 0                -- largest completion time of the unit's writes (R297)
  graph : Option Nat := none     -- key of its graph
  graph2 : Option Nat := none    -- of a fused launch, the consumer's graph
  job : Option Nat := none
  ending : List Nat := []        -- threads that exited with writes still under way (R157)
  acq : Word := 0                -- R392
  acqTid : Nat := 0
  acqSerial : Nat := 0
  flushAt : Option Nat := none   -- a node's flush timer (R294)
  closed : Bool := false         -- a node's phase has closed (R296)
  queued : List QRec := []       -- a node's records in queue order
  splice : Option Splice := none
  other : Option Nat := none     -- the part that this one waits for after an unsplicing (R425)
  held : List (Nat × Nat) := []  -- the range of the splice region still taken after an unsplicing (R409)
  cvgrant : BitVec 16 := 0       -- CVGRANT of its domain at its admission (R383, R433)
  area : Nat := 0                -- Z of its save areas where it is not its record's (R425)
  ccaddr : Word := 0             -- of a node, the counter that its descriptor names (R293)
  deriving DecidableEq, Repr

/-- A graph or a job (R380). -/
structure UnitRec where
  live : Bool := false
  dom : Nat := 0
  cc : Word := 0
  sealed : Bool := false
  units : Nat := 0
  total : Nat := 0
  cancelled : Bool := false
  asked : Bool := false          -- a CANCEL of the unit itself has been applied (R300)
  endC : Nat := 0
  job : Option Nat := none
  deriving DecidableEq, Repr

/-- Where a submission came from (R381). -/
inductive Route where
  | queue (dom : Nat) (va : Word) (tag : Word)
  | thread (ret : Ret) (va : Word) (core launch : Nat) (cmax : Nat) (serial : Nat) (suph : Word) (graph job : Option Nat)
  deriving DecidableEq, Repr

/-- A record submitted and not yet tested (R381), with the code of a splice refusal (R387). -/
structure Submission where
  route : Route
  dom : Nat
  after : Nat := 0         -- not read before the device time exceeds this (R439)
  code : BitVec 8 := 0
  unpaired : Bool := false -- pairing has been decided against
  line : Option (Bool × List Byte) := none   -- the line of its record already read: the second one, and its bytes
  serial : Nat := 0
  job : Option Nat := none -- of a record of a host queue, the job open when its entry was read (R380)
  pos : Nat := 0           -- its index in the queue, or its lane's place among the active lanes of its issue (R410)
  deriving DecidableEq, Repr

/-- A result of admission on its way (R387). -/
structure LResult where
  route : Route
  value : Word
  deriving DecidableEq, Repr

/-- A pending LSTAT (R407). -/
structure LstatReq where
  ret : Ret
  dom : Nat
  index : Nat
  sel : Nat
  deriving DecidableEq, Repr

/-- A cancellation to be applied (R300). -/
structure Cancel where
  lvl : UnitLevel
  key : Nat              -- launch index, or key of the graph or job
  deriving DecidableEq, Repr

/-- A ring of a domain (R434, R435): BASE, HEAD, TAIL and the entries held. -/
structure Ring where
  base : Word := 0
  head : BitVec 32 := 0
  tail : BitVec 32 := 0
  held : List (List Byte) := []
  waits : List (List Byte) := []   -- entries of events that wait because 64 are held (R435)
  bound : Nat := 0         -- LQ, CQ: no entry is read before device time exceeds this (R439)
  deriving DecidableEq, Repr

/-- A domain: its window of host registers (R432), its rings and its trace buffer (R274). -/
structure Domain where
  root : Word := 0
  owner : Word := 0
  quota : Word := 0
  splbase : Word := 0
  splsize : BitVec 16 := 0
  aperva : Word := 0
  rsave : Word := 0
  rings : Tab Ring := []
  trace : List (List Byte) := []
  trlost : BitVec 32 := 0
  job : Option Nat := none       -- the open job
  deriving DecidableEq, Repr

/-- A saved context (R259, R263): where it was, and what the front end keeps beside the bytes in memory. -/
structure Saved where
  id : Nat
  group : Group := {}
  warps : List (Nat × Warp) := []   -- the warps with their keys; registers and lane words are read back from memory
  base : Word
  roaming : Bool
  acc : Bool := false
  unit : MatUnit := {}              -- what its matrix context cannot hold: the operations that wait
  order : Nat := 0
  pieces : List (Nat × List Byte) := []   -- lines of its area read out and not yet written, by virtual address (R396)
  since : Nat := 0                  -- when its save was asked for (R397)
  time : Word := 0                  -- device time at departure (R28)
  deriving DecidableEq, Repr

/-- A save asked for and not yet made (R396). -/
structure SaveReq where
  core : Nat
  part : Nat
  target : Nat               -- workgroup key, or warp key of a roaming warp
  roaming : Bool
  since : Nat
  unsplice : Option Nat := none
  item : Option (Nat × Nat) := none   -- the pending work that asked for it (R394)
  deriving DecidableEq, Repr

/-- Room that a pre-emption has freed, held for the pending work that asked for it (R394): warp slots of a partition, a
scratchpad range, the accumulator. -/
structure Hold where
  item : Nat × Nat
  core : Nat
  part : Nat
  slots : List Nat := []
  range : Nat × Nat := (0, 0)
  acc : Bool := false
  deriving DecidableEq, Repr

/-- A firmware complex pair of a die (R449). -/
structure Firmware where
  active : Nat := 0          -- identity of the active image
  standby : Nat := 0
  complex : Bool := false    -- ACTIVE
  st : Nat := 0              -- STATE
  pvneg : BitVec 8 := 0
  loading : Bool := false
  taking : Bool := false     -- its takeover is in progress (R450)
  deriving DecidableEq, Repr

/-- A PEERTAB entry (R444). -/
structure Peer where
  fa : Word := 0
  ctl : Word := 0
  deriving DecidableEq, Repr

/-- A response of the SPDM responder (R453). -/
structure SpdmMsg where
  req : Nat
  code : BitVec 8
  body : List Byte
  deriving DecidableEq, Repr

/-- The state of one SPDM requester's connection (R453). -/
structure SpdmConn where
  version : Bool := false
  caps : Bool := false
  algs : Bool := false
  deriving DecidableEq, Repr

/-- The registers of the host ports and what stands behind them (16_edges). -/
structure HostRegs where
  run : Bool := false
  timeinit : Word := 0
  timesrc : BitVec 4 := 0
  timedelay : BitVec 2 := 0
  timeoff : Word := 0
  skewFault : Bool := false
  peerOff : Nat := 0                -- largest peer offset last measured, in ns (R225, R447)
  epsx : BitVec 16 := 20
  ceil : BitVec 10 := 900
  hiveRemote : BitVec 32 := 0
  hiveSlots : BitVec 32 := 0
  pwr : BitVec 16 := 0
  alarmcnt : BitVec 16 := 0
  narrow : Bool := false
  alarm : Bool := false
  alarmAt : Nat := 0                -- since when the alarm has stood as it does
  narrowDue : Bool := false         -- the alarm has risen and NARROW is not yet set (R455)
  pkgevt : BitVec 6 := 0
  apersel : Tab (BitVec 8) := []    -- by 128 × port + function: ENABLE in bit 7, DOMAIN in bits 6 to 0
  fw : Tab Firmware :=              -- by die; the images that the part holds at reset
    [(0, { active := 0, standby := 4 }), (1, { active := 1, standby := 5 }), (2, { active := 2, standby := 6 }),
      (3, { active := 3, standby := 7 })]
  peers : Tab Peer := []
  uePorts : BitVec 8 := 0           -- ports that are up
  ucie : Tab (BitVec 4) := []       -- modules disabled, by link
  linkfail : Bool := false
  msix : List (Nat × Nat × Nat) := []   -- signals sent: port, function, vector; latest first
  apC : Tab Nat := []               -- by 128 × port + function: largest completion time of its aperture writes (R439)
  replies : List (List Byte) := []      -- what aperture reads returned, latest first
  unsupported : Nat := 0                -- accesses completed with Unsupported Request
  spdm : Tab SpdmConn := []
  spdmOut : List SpdmMsg := []
  activities : Bool := false            -- the internal activities are admitted (R382)
  runAt : Nat := 0
  drains : Tab Nat := []                -- runs of the trace drain made, by domain
  deriving DecidableEq, Repr

/-! ### The issue in progress -/

/-- The issue that `exec` is to perform: the warp and its place, the gang, the word, and whether it is a waiting
instruction attempted again.  It is blank between issues. -/
structure Issue where
  wid : Nat := 0
  pc : Word := 0
  a1 : LaneMask := 0
  word : InstrWord := 0
  origin : BitVec 8 := 0         -- 0 unspliced, 1 producer, 2 consumer (R422)
  origpc : Word := 0
  retry : Bool := false
  gang : Nat := 0
  serial : Nat := 0
  deriving DecidableEq, Repr

/-- The state of the whole package. -/
structure State where
  now : Nat := 0                        -- device time of the front end, in ns (R27)
  turns : List Turn := []               -- who moves next
  steps : Nat := 0                      -- steps taken
  draws : Nat := 0                      -- free values drawn
  serial : Nat := 1                     -- serial numbers given
  cur : Issue := {}
  warps : Tab Warp := []
  groups : Tab Group := []
  mem : Tab Byte := []                  -- memory at the homes; peers' memory above bit 52
  hbm : Tab Byte := []                  -- the bytes last written back (R234)
  scratch : Tab Byte := []              -- by 2^21 × core + address
  wbuf : Tab Byte := []                 -- by 2^19 × core + address
  acc : Tab Byte := []                  -- by 2^17 × (2 × core + partition) + address
  hostMem : Tab Byte := []              -- host memory by 2^64 × bus identity + address (R435)
  hostIn : List (List Byte) := []       -- what the host places next where its memory is read, oldest first (R435)
  lend : Tab Nat := []                  -- LEND by line (R224)
  tags : List FwdTag := []
  monitors : List Monitor := []         -- registrations, oldest first
  monEvents : List MonEvent := []
  net : List Msg := []                  -- requests under way, oldest first
  answers : List Answer := []
  ctimes : List CTime := []
  coreC : Tab Nat := []                 -- largest completion time among a core's writes (R226)
  coreCP : Tab Nat := []                -- the same over lines homed in the package
  tlb : List TlbEntry := []
  walks : List Walk := []
  walkFails : List WalkFail := []
  leases : List Lease := []
  olds : List OldLine := []             -- line contents that a fetch may still see (R66)
  decodes : List DecodeLoad := []
  cbWrites : List (Ret × Nat × Word) := []   -- writes of CBCFG under way (R195)
  nymphs : List Nymph := []             -- on their way to a core
  children : List Nymph := []           -- accepted for sending, still at the issuing core (R288)
  resends : List (Nymph × Nat) := []    -- nymphs refused by a peer, and when they go again (R445)
  arrival : Tab Arrival := []           -- by core
  pools : Tab Pool := []                -- by cluster
  flushes : List (Nat × Nat × Option (BitVec 8)) := []   -- CFLUSH under way: core, launch, tag
  cvs : Tab CvReg := []                 -- by 16 × cluster + k
  parts : Tab Part := []                -- by 2 × core + partition
  cmds : List Cmd := []                 -- commands of every engine, in order of acceptance
  recs : List RecCopy := []
  mjoins : List McJoin := []
  mgroups : List McGroup := []
  launches : Tab Launch := []
  graphs : Tab UnitRec := []
  jobs : Tab UnitRec := []
  subs : List Submission := []
  results : List LResult := []
  lstats : List LstatReq := []
  cancels : List Cancel := []
  domains : Tab Domain := []
  saved : List Saved := []
  saveReqs : List SaveReq := []
  holds : List Hold := []               -- room that saves have freed for pending work (R394)
  unsplices : List Nat := []            -- launches to be unspliced (R425)
  host : HostRegs := {}
  deriving DecidableEq, Repr

/-- Why the machine stops with a fault. -/
inductive Fault where
  /-- Raised by `step` when the turn names a core or a partition that the package does not have (R16).  Safe: the
  device has no such partition, so nothing it does is left out. -/
  | noSuchPartition (core part : Nat)
  deriving DecidableEq, Repr

/-- Why a step is refused. -/
inductive Refusal where
  /-- Raised by an arm of `exec` whose instruction has no meaning yet.  Safe: nothing is claimed about it. -/
  | notModelled (mnemonic : String)
  deriving DecidableEq, Repr

/-- The package right after reset: no thread, no launch, every register at its reset value (R431, R448). -/
def State.reset : State := {}

end Sys2Proof.Machine
end

