-- ==== Sys2Proof/Machine/Ops.lean ====
section
/-! DEFINITION. The named operations over registers, memory at the homes, translation, rings and reports, and the
taking of a trap: how lanes leave as a fragment, how the fragment enters its handler, how a handler returns. -/

namespace Sys2Proof.Machine

/-! ### Bits, bytes and lane masks -/

/-- Bits `hi` down to `lo` of a word, as a number. -/
def fld {n : Nat} (x : BitVec n) (hi lo : Nat) : Nat := x.toNat / 2 ^ lo % 2 ^ (hi + 1 - lo)

/-- `n` bytes of a number, little-endian (R4). -/
def leBytes : Nat → Nat → List Byte
  | 0, _ => []
  | n + 1, x => BitVec.ofNat 8 x :: leBytes n (x / 256)

/-- The number that bytes hold, little-endian (R4). -/
def leNat : List Byte → Nat
  | [] => 0
  | b :: bs => b.toNat + 256 * leNat bs

/-- The mask of one lane. -/
def laneBit (L : Nat) : LaneMask := BitVec.ofNat 32 (2 ^ L)

/-- The lanes of a mask, ascending. -/
def lanesOf (m : LaneMask) : List Nat := (List.range 32).filter (fun L => m.getLsbD L)

/-- The mask of a list of lanes. -/
def maskOf (ls : List Nat) : LaneMask := ls.foldl (fun m L => m ||| laneBit L) 0

/-- Is a in the list before any other that the relation prefers?  The element of a list that is least by a key; the
first of equals. -/
def minBy {α : Type} (key : α → Nat) : List α → Option α
  | [] => none
  | a :: t =>
    match minBy key t with
    | none => some a
    | some b => if key b < key a then some b else some a

/-- The list with the element at a position changed or removed. -/
def modifyAt {α : Type} (f : α → Option α) : List α → Nat → List α
  | [], _ => []
  | a :: t, 0 => (f a).toList ++ t
  | a :: t, n + 1 => a :: modifyAt f t n

/-- The list without the element at a position. -/
def removeAt {α : Type} (l : List α) (k : Nat) : List α := modifyAt (fun _ => none) l k

/-- `Next(pc)` of R42. -/
def nextPc (pc : Word) : Word :=
  if fld pc 2 0 < 4 then pc + 1 else BitVec.ofNat 64 (pc.toNat / 64 * 64 + 64)

/-- `RelTarget(pc, imm)` of R43. -/
def relTarget (pc : Word) (imm : BitVec 32) : Word :=
  let line := (BitVec.ofNat 64 (pc.toNat / 64 * 64)) + BitVec.ofInt 64 ((imm.extractLsb' 3 29).toInt * 64)
  line ||| BitVec.ofNat 64 (fld imm 2 0)

/-! ### Parts of the state -/

/-- A warp by its key. -/
def State.warp (s : State) (wid : Nat) : Warp := s.warps.get {} wid
/-- The state with a warp replaced. -/
def State.setWarp (s : State) (wid : Nat) (w : Warp) : State := { s with warps := s.warps.set {} wid w }
/-- The state with a warp changed. -/
def State.updWarp (s : State) (wid : Nat) (f : Warp → Warp) : State := s.setWarp wid (f (s.warp wid))
/-- A lane of a warp. -/
def Warp.lane (w : Warp) (L : Nat) : Lane := w.lanes.get {} L
/-- The lanes of a warp that a test accepts, ascending. -/
def Warp.lanesWhere (w : Warp) (p : Lane → Bool) : List Nat := (List.range 32).filter (fun L => p (w.lane L))
/-- The lanes that are not exited. -/
def Warp.liveLanes (w : Warp) : List Nat := w.lanesWhere (fun l => decide (l.st ≠ .exited))
/-- The warp with a lane replaced. -/
def Warp.setLane (w : Warp) (L : Nat) (l : Lane) : Warp := { w with lanes := w.lanes.set {} L l }
/-- A lane by its warp's key. -/
def State.lane (s : State) (wid L : Nat) : Lane := (s.warp wid).lane L
/-- The state with a lane changed. -/
def State.updLane (s : State) (wid L : Nat) (f : Lane → Lane) : State :=
  s.setWarp wid ((s.warp wid).setLane L (f (s.lane wid L)))
/-- The state with several lanes of a warp changed. -/
def State.updLanes (s : State) (wid : Nat) (ls : List Nat) (f : Lane → Lane) : State :=
  ls.foldl (fun s L => s.updLane wid L f) s
/-- A workgroup by its key. -/
def State.group (s : State) (g : Nat) : Group := s.groups.get {} g
/-- The state with a workgroup changed. -/
def State.updGroup (s : State) (g : Nat) (f : Group → Group) : State := { s with groups := s.groups.upd {} g f }
/-- A launch by its index. -/
def State.launch (s : State) (i : Nat) : Launch := s.launches.get {} i
/-- The state with a launch changed. -/
def State.updLaunch (s : State) (i : Nat) (f : Launch → Launch) : State := { s with launches := s.launches.upd {} i f }
/-- A domain. -/
def State.domain (s : State) (d : Nat) : Domain := s.domains.get {} d
/-- The state with a domain changed. -/
def State.updDomain (s : State) (d : Nat) (f : Domain → Domain) : State := { s with domains := s.domains.upd {} d f }
/-- A partition, by 2 × core + partition. -/
def State.part (s : State) (p : Nat) : Part := s.parts.get {} p
/-- The state with a partition changed. -/
def State.updPart (s : State) (p : Nat) (f : Part → Part) : State := { s with parts := s.parts.upd {} p f }
/-- A convergence register, by 16 × cluster + k. -/
def State.cv (s : State) (k : Nat) : CvReg := s.cvs.get {} k
/-- The state with a convergence register changed. -/
def State.updCv (s : State) (k : Nat) (f : CvReg → CvReg) : State := { s with cvs := s.cvs.upd {} k f }
/-- The arrival unit of a core. -/
def State.arr (s : State) (c : Nat) : Arrival := s.arrival.get {} c
/-- The state with an arrival unit changed. -/
def State.updArr (s : State) (c : Nat) (f : Arrival → Arrival) : State := { s with arrival := s.arrival.upd {} c f }
/-- The donation pool of a cluster. -/
def State.pool (s : State) (c : Nat) : Pool := s.pools.get {} c
/-- The state with a pool changed. -/
def State.updPool (s : State) (c : Nat) (f : Pool → Pool) : State := { s with pools := s.pools.upd {} c f }
/-- The state with the host registers changed. -/
def State.updHost (s : State) (f : HostRegs → HostRegs) : State := { s with host := f s.host }

/-- The warp of the issue in progress. -/
def State.cw (s : State) : Warp := s.warp s.cur.wid
/-- A lane of the warp of the issue in progress. -/
def State.cl (s : State) (L : Nat) : Lane := s.lane s.cur.wid L

/-- The number of the partition a warp stands on: 2 × core + partition. -/
def Warp.partId (w : Warp) : Nat := 2 * w.core + w.part
/-- The cluster of a core (R14). -/
def clusterOf (core : Nat) : Nat := core / 16
/-- The die of a core (R14). -/
def dieOf (core : Nat) : Nat := core / 96

/-- The state with a serial number taken. -/
def State.tick1 (s : State) : State := { s with serial := s.serial + 1 }
/-- The state with a free value drawn. -/
def State.drawn (s : State) : State := { s with draws := s.draws + 1 }

/-- How far a copy of device time stands above the slowest that its bound allows, in the k-th interval of 5 us: it moves
by at most 1 ns from one interval to the next, which is a rate within 200 ppm (R27; log entry 15). -/
def copyOffset (copy bound k : Nat) : Nat :=
  (List.range (2 * bound + 1)).foldl (fun m i =>
    Nat.max m (Config.skew copy (k + i) % (bound + 1) - (if i < bound then bound - i else i - bound))) 0

/-- A local copy of device time (R27): all start together at the release from reset, each is slewed on its own, and any
two stay within 20 ns. -/
def State.copyTime (s : State) (copy : Nat) : Nat :=
  let k := (s.now - s.host.runAt) / 5000
  if k = 0 then s.now else s.now + Nat.min k (copyOffset copy 20 (s.now / 5000))

/-- The device time by which an engine judges and reports: its own local copy (R27). -/
def State.engineTime (s : State) (e : EngineKind) (unit : Nat) : Nat :=
  s.copyTime (2 ^ 32 + 4 * unit + (match e with | .copy => 0 | .cond => 1 | .disp => 2))

/-- The local device time of a core (R27). -/
def State.localTime (s : State) (core : Nat) : Nat := s.copyTime core

/-- The device time by which a front end judges: the copy of any one of the four dies (R27, R400). -/
def State.feTime (s : State) : Nat := s.copyTime (384 + Config.skew 400 s.steps % 4)

/-- Keep a thread's reads of device time from decreasing (R28). -/
def State.timeFor (s : State) (w : Warp) (l : Lane) : Nat := Nat.max (s.localTime w.core) l.tlast.toNat

/-- All warps, with their keys. -/
def State.warpsWhere (s : State) (p : Warp → Bool) : List Nat := (s.warps.filter (fun e => p e.2)).map (·.1)

/-- The lane of a warp that holds a thread. -/
def Warp.laneOf (w : Warp) (tid : Nat) : Option Nat := (w.lanesWhere (fun l => decide (l.tid = tid))).head?

/-! ### The physical map, homes and memory (R20 to R24) -/

/-- Does a 52-bit physical address lie in a hole of the map (R21)? -/
def inHole (pa : Nat) : Bool :=
  let off := pa % 2 ^ 50
  match pa / 2 ^ 50 % 4 with
  | 0 => decide (off / 2 ^ 40 ≠ 0) || decide (off / 2 ^ 31 > 383)
  | 1 => decide (off / 2 ^ 40 ≠ 0)
  | 2 => decide (off / 2 ^ 42 ≠ 0) || decide (off / 2 ^ 40 % 2 ≠ 0) ||
      (decide (off / 2 ^ 41 = 0) && decide (off % 2 ^ 40 / 2 ^ 31 > 383))
  | _ => true

/-- Does a 1 TiB block at a physical address reach a hole, or lie in region 0b00 (R182)? -/
def blockInHole (pa : Nat) : Bool :=
  inHole pa || pa / 2 ^ 50 % 4 = 0 || (pa / 2 ^ 50 % 4 = 2 && pa / 2 ^ 41 % 2 = 0)

/-- The home core within a package of a first-tier or second-tier offset (R22). -/
def homeCore (second : Bool) (off : Nat) : Nat :=
  if second then off % 2 ^ 40 / 2 ^ 38 * 96 + off % 2 ^ 38 / 4096 % 96 else off % 2 ^ 40 / 2 ^ 31

/-- The home of a memory key (R22): a core of this package, or 384 × (peer + 1) + a core of the peer. -/
def homeOf (key : Nat) : Nat :=
  match key / 2 ^ 50 % 4 with
  | 0 => homeCore false key
  | 1 => homeCore true key
  | _ => 384 * (key / 2 ^ 52 + 1) + homeCore (key / 2 ^ 41 % 2 = 1) key

/-- Is a home a core of this package? -/
def homeHere (home : Nat) : Bool := home < 384

/-- The line of a memory key. -/
def lineOf (key : Nat) : Nat := key / 64

/-- What memory that nothing has written reads as. -/
def unwritten : Byte := 0

/-- `n` bytes of memory as they stand at the home. -/
def State.bytesAt (s : State) (key n : Nat) : List Byte := s.mem.getN unwritten key n

/-- The bytes of memory as a number. -/
def State.natAt (s : State) (key n : Nat) : Nat := leNat (s.bytesAt key n)

/-- The launch a line is tagged for (R234). -/
def State.tagOf (s : State) (line : Nat) : Option Nat := (s.tags.find? (fun t => t.line = line)).map (·.launch)

/-- The line's bytes written back to HBM (R234). -/
def State.writeBack (s : State) (line : Nat) : State :=
  { s with hbm := s.hbm.setN unwritten (64 * line) (s.bytesAt (64 * line) 64) }

/-- A tagged line dropped from the home slice: reads return the bytes last written back (R234). -/
def State.dropLine (s : State) (line : Nat) : State :=
  { s with
    mem := s.mem.setN unwritten (64 * line) (s.hbm.getN unwritten (64 * line) 64)
    tags := s.tags.filter (fun t => t.line ≠ line) }

/-- The lines tagged for a launch that has ended are dropped (R234). -/
def State.dropTagsOf (s : State) (launch : Nat) : State :=
  ((s.tags.filter (fun t => t.launch = launch)).map (·.line)).foldl State.dropLine s

/-- A line that carries no tag may be written back at any moment (R234). -/
def State.mayWriteBack (s : State) (line : Nat) : State :=
  let s' := s.drawn
  if (s.tagOf line).isNone && Config.choice s.draws then s'.writeBack line else s'

/-- A tag given to a line: it becomes the youngest of its home, whose oldest tagged line is written back beyond 4,096
(R234). -/
def State.tagLine (s : State) (line launch : Nat) : State :=
  let s := { s with tags := s.tags.filter (fun t => t.line ≠ line) ++ [⟨line, launch⟩] }
  let here : List FwdTag := s.tags.filter (fun t => homeOf (64 * t.line) = homeOf (64 * line))
  if here.length ≤ 4096 then s
  else
    match here with
    | [] => s
    | t :: _ => { s.writeBack t.line with tags := s.tags.filter (fun x => x.line ≠ t.line) }

/-- A read at the home by a thread or command of a launch (R221, R234): the bytes, and the state after. -/
def State.readHome (s : State) (key n launch : Nat) : List Byte × State :=
  let bs := s.bytesAt key n
  match s.tagOf (lineOf key) with
  | some k => if k = launch ∧ k ≠ 0 then (bs, s.dropLine (lineOf key)) else (bs, s)
  | none => (bs, s)

/-- Wakes to every lane registered on a line, whose registrations end (R235). -/
def State.wakeLine (s : State) (line : Nat) : State :=
  let hit := s.monitors.filter (fun m => m.line = line)
  { s with
    monitors := s.monitors.filter (fun m => m.line ≠ line)
    monEvents := s.monEvents ++ hit.map (fun m => ⟨m.ret, m.cc, m.addr, false, false⟩) }

/-- The device time at a home: a local copy, or a peer's, within EPSX of every copy here (R27, R225). -/
def State.homeTime (s : State) (home : Nat) : Nat :=
  if homeHere home then s.localTime home
  else
    let e := s.host.epsx.toNat
    s.now + 20 + copyOffset home (2 * e - 20) (s.now / 5000) - e

/-- Are a line's old bytes still within the reach of a fetch (R66)? -/
def OldLine.within (o : OldLine) (now : Nat) : Bool := decide (o.tid ≠ 0) || decide (now ≤ o.c)

/-- Threads have fenced at package scope or wider: fetches see what they wrote (R66). -/
def State.fenced (s : State) (tids : List Nat) : State := { s with olds := s.olds.filter (fun o => !tids.contains o.tid) }

/-- Threads have ended or left: what they wrote reaches every fetch by its completion time (R66). -/
def State.parted (s : State) (tids : List Nat) : State :=
  { s with olds := s.olds.map (fun o => if tids.contains o.tid then { o with tid := 0 } else o) }

/-- A write applied at its home (R219, R224, R234, R235): the state after, and the completion time.  `tag` is the
consumer of STF, with the writer's domain.  C is Max(t_h, LEND): the model's homes track every line, and never record the
larger C that R224 allows to one that does not (log entry 71).  The line's old bytes stay within the reach of fetches
that are not ordered after the write (R66). -/
def State.applyWrite (s : State) (key : Nat) (bytes : List Byte) (tag : Option (Nat × Nat) := none) (tid : Nat := 0) :
    State × Nat :=
  let line := lineOf key
  let home := homeOf key
  let s := (s.mayWriteBack line).drawn
  let c := Nat.max (s.homeTime home) (s.lend.get 0 line)
  let s := { s with
    mem := s.mem.setN unwritten key bytes
    olds := s.olds.filter (fun (o : OldLine) => o.within s.now) ++
      [({ line := line, bytes := s.bytesAt (64 * line) 64, c := c, tid := tid } : OldLine)] }
  let s :=
    match tag with
    | some (k, dom) =>
      if (s.launch k).live ∧ (s.launch k).r.dom = dom then s.tagLine line k
      else { s with tags := s.tags.filter (fun t => t.line ≠ line) }
    | none => { s with tags := s.tags.filter (fun t => t.line ≠ line) }
  (s.wakeLine line, c)

/-- A copy of a line in a core's lease cache is discarded (R186). -/
def State.dropLease (s : State) (core line : Nat) : State :=
  { s with leases := s.leases.filter (fun l => ¬(l.core = core ∧ l.line = line)) }

/-! ### Translation (R180 to R184) -/

/-- PEER of a leaf (R181). -/
def Leaf.peer (f : Leaf) : Nat := fld f.entry 63 56
/-- FMT (R181). -/
def Leaf.fmt (f : Leaf) : Nat := fld f.entry 55 52
/-- BLK (R181). -/
def Leaf.blk (f : Leaf) : Nat := fld f.entry 15 14
/-- DENS (R181). -/
def Leaf.dens (f : Leaf) : Nat := fld f.entry 13 11
/-- FWD (R181). -/
def Leaf.fwd (f : Leaf) : Bool := f.entry.getLsbD 10
/-- LEASE (R181). -/
def Leaf.cls (f : Leaf) : Nat := fld f.entry 9 8
/-- X, W and R (R181). -/
def Leaf.x (f : Leaf) : Bool := f.entry.getLsbD 4
/-- W (R181). -/
def Leaf.w (f : Leaf) : Bool := f.entry.getLsbD 3
/-- R (R181). -/
def Leaf.r (f : Leaf) : Bool := f.entry.getLsbD 2

/-- The physical address of a virtual address under a leaf (R182). -/
def Leaf.pa (f : Leaf) (va : Nat) : Nat :=
  let frame := fld f.entry 51 16 * 2 ^ 16
  match f.level with
  | 1 => frame / 2 ^ 40 * 2 ^ 40 + va % 2 ^ 40
  | 2 => frame / 2 ^ 28 * 2 ^ 28 + va % 2 ^ 28
  | _ => frame + va % 2 ^ 16

/-- The memory key of a virtual address: the physical address, with the peer number above it in region 0b10. -/
def Leaf.key (f : Leaf) (va : Nat) : Nat :=
  let p := f.pa va
  if p / 2 ^ 50 % 4 = 2 then f.peer * 2 ^ 52 + p else p

/-- Does the leaf lie in a peer package (region 0b10)? -/
def Leaf.remote (f : Leaf) : Bool := f.pa 0 / 2 ^ 50 % 4 = 2

/-- The base of the page, block or block of pages that the leaf maps around a virtual address. -/
def Leaf.span (f : Leaf) : Nat :=
  match f.level with
  | 1 => 2 ^ 40
  | 2 => 2 ^ 28
  | _ => 2 ^ 16

/-- The outcome of a translation. -/
inductive Walked where
  | ok (leaf : Leaf)
  | fail (sub : BitVec 8)
  deriving DecidableEq, Repr

/-- The checks of R182 on a leaf read at a level. -/
def leafCheck (level : Nat) (e : Word) : Walked :=
  let f : Leaf := ⟨level, e⟩
  let blkOk := if 3 ≤ f.fmt ∧ f.fmt ≤ 9 then decide (f.blk ≠ 3) else (10 ≤ f.fmt && f.fmt ≤ 12) || f.blk = 0
  let densOk := (10 ≤ f.fmt && f.fmt ≤ 12) || f.dens = 0
  let peerOk := f.remote || f.peer = 0
  let frameOk := if level = 1 then fld e 39 16 = 0 else if level = 2 then fld e 27 16 = 0 else True
  if fld e 7 5 ≠ 0 ∨ f.fmt ≥ 13 ∨ ¬blkOk ∨ ¬densOk ∨ ¬peerOk ∨ ¬frameOk then .fail 0x04
  else if (if level = 1 then blockInHole (f.pa 0) else inHole (f.pa 0)) then .fail 0x05
  else .ok f

/-- A walk from a level's table at a physical address (R180 to R182), reading each entry at its home.  An entry whose next
table lies in region 0b10 names no peer (its PEER bits are zero): the model reads the table in the memory of peer 0, and
asks for no reachability (log entry 72). -/
def State.walkFrom (s : State) (va : Nat) : Nat → Nat → Nat → Walked
  | 0, _, _ => .fail 0x02
  | fuel + 1, level, table =>
    let idx := va / 2 ^ (52 - 12 * level) % 4096
    let e : Word := BitVec.ofNat 64 (s.natAt (table + 8 * idx) 8)
    if ¬e.getLsbD 0 then .fail 0x01
    else if e.getLsbD 1 then (if level = 0 then .fail 0x02 else leafCheck level e)
    else if level = 3 then .fail 0x02
    else if fld e 63 52 ≠ 0 ∨ fld e 15 2 ≠ 0 then .fail 0x03
    else
      let next := fld e 51 16 * 2 ^ 16
      if inHole next then .fail 0x05 else s.walkFrom va fuel (level + 1) next

/-- The translation of a virtual address of a domain by the tables as they stand (R180).  A root in a hole of the map
fails as a table entry would (log entry 11). -/
def State.walk (s : State) (dom va : Nat) : Walked :=
  let root := (s.domain dom).root.toNat % 2 ^ 52
  if inHole root then .fail 0x05 else s.walkFrom va 4 0 root

/-- Is the peer of a leaf reachable (R444)? -/
def State.peerUp (s : State) (f : Leaf) : Bool :=
  if f.remote then
    let ctl := (s.host.peers.get {} f.peer).ctl
    ctl.getLsbD 63 && decide ((ctl.extractLsb' 32 8) &&& s.host.uePorts ≠ 0)
  else true

/-- A translation that also asks for the peer to be reachable (R444). -/
def State.translate (s : State) (dom va : Nat) : Walked :=
  match s.walk dom va with
  | .ok f => if s.peerUp f then .ok f else .fail 0x05
  | .fail c => .fail c

/-- Why the device's own write to a virtual address fails: a PAGE, a right or a format (R182, R184, R187). -/
def State.writeFault (s : State) (dom va : Nat) : Option Event :=
  match s.translate dom va with
  | .fail c => some { cause := 0x06, sub := c, addr := BitVec.ofNat 64 va, kind := 1 }
  | .ok f =>
    if ¬f.w then some { cause := 0x07, sub := 0x02, addr := BitVec.ofNat 64 va }
    else if f.fmt ≠ 0 then some { cause := 0x08, sub := 0x01, addr := BitVec.ofNat 64 va }
    else none

/-- A virtual byte string within one line written at its home by the device itself, where it translates with W on a
PLAIN page: the state after and the completion time, or why it fails. -/
def State.writeVa (s : State) (dom va : Nat) (bytes : List Byte) : Except Event (State × Nat) :=
  match s.writeFault dom va, s.translate dom va with
  | none, .ok f => .ok (s.applyWrite (f.key va) bytes)
  | some e, _ => .error e
  | none, .fail c => .error { cause := 0x06, sub := c }

/-- A virtual byte string of several lines written at its homes, every line translated and checked before any is written. -/
def State.writeVaLines (s : State) (dom va : Nat) (parts : List (List Byte)) : Except Event (State × Nat) :=
  let addrs := (List.range parts.length).map (fun i => va + 64 * i)
  match addrs.findSome? (fun a => s.writeFault dom a) with
  | some e => .error e
  | none =>
    .ok ((addrs.zip parts).foldl (fun r p =>
      match s.translate dom p.1 with
      | .ok f => let r' := r.1.applyWrite (f.key p.1) p.2; (r'.1, Nat.max r.2 r'.2)
      | .fail _ => r) (s, 0))

/-- Bytes read at a virtual address for the device itself, where it translates with R; none otherwise. -/
def State.readVa (s : State) (dom va n : Nat) : Option (List Byte) :=
  match s.translate dom va with
  | .ok f => if f.r then some (s.bytesAt (f.key va) n) else none
  | .fail _ => none

/-- The virtual address of the record of a warp of a saved context (R259, R260). -/
def Saved.recordVa (c : Saved) (w : Warp) : Nat :=
  if c.roaming then c.base.toNat else c.base.toNat + 0x1400 + 0x6000 * w.index

/-- Bytes written at a virtual address by the device; an address that no longer translates is left. -/
def State.patch (s : State) (dom va : Nat) (bytes : List Byte) : State :=
  match s.writeVa dom va bytes with
  | .ok r => r.1
  | .error _ => s

/-- Does a line read out of a saved context, and not yet written, hold an address (R396)? -/
def holdsVa (va : Nat) (p : Nat × List Byte) : Bool := decide (p.1 ≤ va) && decide (va < p.1 + p.2.length)

/-- Bytes of a line rewritten from an offset. -/
def overwrite (bs : List Byte) (k : Nat) (new : List Byte) : List Byte :=
  bs.take k ++ new ++ bs.drop (k + new.length)

/-- Bytes of a saved context's area rewritten (R263): in the lines that are still to be written, else in memory, where an
area that no longer translates is left. -/
def State.patchSaved (s : State) (c : Saved) (dom va : Nat) (bytes : List Byte) : State :=
  match s.saved.find? (fun x => x.id = c.id) with
  | some x =>
    if x.pieces.any (holdsVa va) then
      { s with saved := s.saved.map (fun y => if y.id = c.id then
          { y with pieces := y.pieces.map (fun p => if holdsVa va p then (p.1, overwrite p.2 (va - p.1) bytes) else p) }
        else y) }
    else s.patch dom va bytes
  | none => s.patch dom va bytes

/-- A word of a saved context's area read. -/
def State.peekSaved (s : State) (c : Saved) (dom va n : Nat) : Nat :=
  match ((s.saved.find? (fun x => x.id = c.id)).map (·.pieces)).bind (fun ps => ps.find? (holdsVa va)) with
  | some p => leNat ((p.2.drop (va - p.1)).take n)
  | none => leNat ((s.readVa dom va n).getD [])

/-- A list cut into pieces of `n`. -/
def chunks {α : Type} (n : Nat) : Nat → List α → List (List α)
  | 0, _ => []
  | fuel + 1, bs => if bs.isEmpty then [] else bs.take n :: chunks n fuel (bs.drop n)

/-! ### Rings of the host (R434, R435) -/

/-- Bytes of an entry of ring r (R434). -/
def entrySize (r : Nat) : Nat :=
  match r with
  | 0 | 1 => 16 | 2 | 3 => 32 | 4 => 64 | 5 => 256 | _ => 32

/-- Is a ring present (R434)? -/
def Ring.present (r : Ring) : Bool :=
  r.base ≠ 0 && decide (4 ≤ fld r.base 4 0) && decide (fld r.base 4 0 ≤ 16) && decide (fld r.base 11 5 = 0)

/-- Is a ring full (R435)? -/
def Ring.full (r : Ring) : Bool := decide ((r.tail - r.head).toNat ≥ 2 ^ fld r.base 4 0)

/-- The port that owns a domain (R432, R433). -/
def Domain.port (d : Domain) : Nat := fld d.owner 7 7
/-- The function that owns a domain (R432). -/
def Domain.func (d : Domain) : Nat := fld d.owner 6 0

/-- The bus identity of a domain's ring accesses: the port and function that own it, and PASID (R435). -/
def Domain.bus (d : Domain) : Nat := fld d.owner 7 0 * 2 ^ 20 + fld d.owner 27 8

/-- The host address of the entry with an index. -/
def Ring.entryAddr (r : Ring) (ring : Nat) (i : BitVec 32) : Nat :=
  r.base.toNat / 4096 * 4096 + i.toNat % 2 ^ fld r.base 4 0 * entrySize ring

/-- A signal of an interrupt vector; a virtual function has 16, and a signal of another goes nowhere (R429; log entry 84). -/
def State.signal (s : State) (port func vec : Nat) : State :=
  if func = 0 ∨ vec < 16 then s.updHost (fun h => { h with msix := (port, func, vec) :: h.msix }) else s

/-- The power alarm rises and is counted (R454, R455). -/
def State.alarmRise (s : State) : State :=
  if s.host.alarm then s
  else s.updHost (fun h => { h with
    alarm := true, alarmAt := s.now, narrowDue := !h.narrow
    alarmcnt := if h.alarmcnt = BitVec.allOnes 16 then h.alarmcnt else h.alarmcnt + 1 })

/-- Some bit of PKGEVT set: vector 0 of both physical functions is signalled (R431). -/
def State.pkgEvent (s : State) (b : Nat) : State :=
  ((s.updHost (fun h => { h with pkgevt := h.pkgevt ||| BitVec.ofNat 6 (2 ^ b) })).signal 0 0 0).signal 1 0 0

/-- An entry written at the tail of a device-to-host ring (R435). -/
def State.ringWrite (s : State) (dom r : Nat) (e : List Byte) : State :=
  let d := s.domain dom
  let g := d.rings.get {} r
  let s := { s with hostMem := s.hostMem.setN unwritten (d.bus * 2 ^ 64 + g.entryAddr r g.tail) e }
  let s := s.updDomain dom (fun d => { d with rings := d.rings.set {} r { g with tail := g.tail + 1 } })
  if g.tail = g.head then s.signal d.port d.func (fld d.owner 58 48) else s

/-- An entry posted to a device-to-host ring, held while the ring is absent or full; beyond 64 held entries the event that
produced it waits (R434, R435). -/
def State.post (s : State) (dom r : Nat) (e : List Byte) : State :=
  let g := (s.domain dom).rings.get {} r
  if g.held = [] ∧ g.present ∧ ¬g.full then s.ringWrite dom r e
  else
    let g := if g.held.length < 64 then { g with held := g.held ++ [e] } else { g with waits := g.waits ++ [e] }
    s.updDomain dom (fun d => { d with rings := d.rings.set {} r g })

/-- Can the front end take one more entry for a ring: else the event that would produce it waits (R435). -/
def State.roomFor (s : State) (dom r : Nat) : Bool := decide (((s.domain dom).rings.get {} r).held.length < 64)

/-- An EQ event (R438). -/
def State.postEq (s : State) (dom type status launch : Nat) (info tag : Nat) : State :=
  s.post dom 3 (leBytes 1 type ++ leBytes 1 status ++ leBytes 2 launch ++ leBytes 4 0 ++ leBytes 8 s.feTime ++
    leBytes 8 info ++ leBytes 8 tag)

/-- A record appended to a domain's trace buffer, or dropped and counted (R274).  TRACE and the front end write records; no rule
says when an engine writes one, and the model's engines write none (DESIGN CHOICE, log entry 90). -/
def State.trace (s : State) (dom : Nat) (rec : List Byte) : State :=
  s.updDomain dom (fun d =>
    if d.trace.length < 4096 then { d with trace := d.trace ++ [rec] }
    else { d with trlost := if d.trlost = BitVec.allOnes 32 then d.trlost else d.trlost + 1 })

/-! ### Completion counters (R297) -/

/-- The counter word. -/
def counterWord (done cancelled : Bool) (total live : Nat) : Nat :=
  (if done then 2 ^ 63 else 0) + (if cancelled then 2 ^ 62 else 0) + Nat.min total (2 ^ 30 - 1) * 2 ^ 32 + live % 2 ^ 32

/-- A counter written at its home by the front end; one that no longer translates is left. -/
def State.putCounter (s : State) (dom : Nat) (va : Word) (w : Nat) : State :=
  match s.writeVa dom va.toNat (leBytes 8 w) with
  | .ok r => r.1
  | .error _ => s

/-- The counters of a launch: its own, or both of a fused launch (R417); of a node also the one that its descriptor names,
where it is another (R293; log entry 82). -/
def Launch.counters (l : Launch) : List Word :=
  match l.splice with
  | some p => [p.p.cc, p.q.cc]
  | none => if l.ccaddr = 0 ∨ l.ccaddr = l.r.cc then [l.r.cc] else [l.r.cc, l.ccaddr]

/-- The counter of a launch written with its TOTAL and LIVE. -/
def State.syncCounter (s : State) (i : Nat) : State :=
  let l := s.launch i
  l.counters.foldl (fun s va => s.putCounter l.r.dom va (counterWord false false l.total l.units)) s

/-- Units added to a launch, before the instruction that made them retires (R287, R297). -/
def State.addUnits (s : State) (i n : Nat) : State :=
  (s.updLaunch i (fun l => { l with units := l.units + n, total := l.total + n })).syncCounter i

/-- A unit of a launch that has ended (R297). -/
def State.subUnits (s : State) (i n : Nat) : State :=
  (s.updLaunch i (fun l => { l with units := l.units - n })).syncCounter i

/-- Cycles charged to the current instance of a launch, or to its grace allowance (R398, R399); a fused launch also
keeps the charges of each origin (R419). -/
def State.charge (s : State) (i n : Nat) (origin : BitVec 8 := 0) (handler : Bool := false) : State :=
  s.updLaunch i (fun l =>
    let l :=
      if l.st = .grace ∧ handler then { l with grace := l.grace + n }
      else { l with
        charges := l.charges + n
        recent := l.recent.filter (fun r => decide (s.now < r.1 + 427)) ++ (if n = 0 then [] else [(s.now, n)]) }
    { l with
      splice := l.splice.map (fun p =>
        if origin = 2 then { p with chargesB := p.chargesB + n } else { p with chargesA := p.chargesA + n }) })

/-! ### Writes under way (R157, R197, R228) -/

/-- Is the message one that writes: a store, a tagged store or an atomic (R197, R277)? -/
def Msg.writes (m : Msg) : Bool :=
  match m.req with
  | .write .. | .atom .. | .cas .. => true
  | _ => false

/-- Has a thread a write, sent before a serial number, not yet applied at its home? -/
def State.writesOf (s : State) (tid before : Nat) : Bool :=
  s.net.any (fun m => m.writes && decide (m.tid = tid) && decide (m.serial < before))

/-- Has a core a write, sent before a serial number, not yet applied at its home (R228)? -/
def State.coreWrites (s : State) (core before : Nat) : Bool :=
  s.net.any (fun m => m.writes && decide (m.src = core) && decide (m.serial < before))

/-- Is a completion time of a thread still on its way? -/
def State.ctimeDue (s : State) (tid : Nat) : Bool := s.ctimes.any (fun c => c.tid = tid)

/-- A thread's end counted once its writes are applied (R157, R297). -/
def State.settle (s : State) (launch tid : Nat) : State :=
  if (s.launch launch).ending.contains tid ∧ ¬s.writesOf tid s.serial then
    (s.updLaunch launch (fun l => { l with ending := l.ending.filter (· ≠ tid) })).subUnits launch 1
  else s

/-- The threads that an answer concerns: its own, and with U those of the other guarded lanes (R54). -/
def Ret.tids (r : Ret) : List Nat := r.tid :: r.others

/-- An answer without one of the threads that it concerns; none when it concerned that thread alone. -/
def Ret.without (r : Ret) (tid lane : Nat) : Option Ret :=
  if ¬r.tids.contains tid then some r
  else
    match r.tids.filter (· ≠ tid) with
    | [] => none
    | t :: ts =>
      let m := r.share &&& ~~~(laneBit lane)
      some { r with tid := t, others := ts, share := m, lane := (lanesOf m).headD r.lane }

/-- What an instruction of a lane has under way is given up: its requests, its answers and, unless it is kept, its
registration (R204, R255).  Other lanes of the instruction keep theirs. -/
def State.forget (s : State) (tid lane serial : Nat) (keep : Bool := false) : State :=
  let cut (r : Ret) : Option Ret := if r.serial = serial then r.without tid lane else some r
  { s with
    net := s.net.filterMap (fun m => match m.ret with
      | some r => (cut r).map (fun q => { m with ret := some q })
      | none => some m)
    answers := s.answers.filterMap (fun a => (cut a.ret).map (fun q => { a with ret := q }))
    monitors := if keep then s.monitors else s.monitors.filterMap (fun m => (cut m.ret).map (fun q => { m with ret := q }))
    monEvents := if keep then s.monEvents else s.monEvents.filterMap (fun m => (cut m.ret).map (fun q => { m with ret := q }))
    decodes := s.decodes.filterMap (fun d => (cut d.ret).map (fun q => { d with ret := q }))
    lstats := s.lstats.filterMap (fun l => (cut l.ret).map (fun q => { l with ret := q })) }

/-- The registers that answers under way will write (R55). -/
def State.rets (s : State) : List Ret :=
  s.net.filterMap (·.ret) ++ s.answers.map (·.ret) ++ s.decodes.map (·.ret) ++ s.monitors.map (·.ret) ++
    s.monEvents.map (·.ret)

/-- Has a warp a governed result of an instruction issued before a serial number not yet written (R55)? -/
def State.governed (s : State) (wid before : Nat) : Bool :=
  s.rets.any (fun r => decide (r.wid = wid) && decide (r.serial < before))

/-- Has a thread a governed result of an instruction issued before a serial number not yet written? -/
def State.governedOf (s : State) (tid before : Nat) : Bool :=
  s.rets.any (fun r => r.tids.contains tid && decide (r.serial < before))

/-- Do the conditions of R228 hold at a scope for a thread on a core, for what was issued before a serial number?  `C` is
taken from the core's record of its writes and from the thread's maxima, once its completion times have returned. -/
def State.fenceReady (s : State) (sc : Sc) (core : Nat) (l : Lane) (before : Nat) : Bool :=
  let own := !s.governedOf l.tid before
  let applied := own && !s.coreWrites core before && !s.writesOf l.tid before
  let t := s.localTime core
  match sc with
  | .thread | .warp | .group => own
  | .cluster | .die => applied
  | .package => applied && !s.ctimeDue l.tid && decide (l.cmaxp.toNat < t) && decide (s.coreCP.get 0 core < t)
  | .system => applied && !s.ctimeDue l.tid && decide (l.cmaxs.toNat < t) && decide (s.coreC.get 0 core < t)

/-- Do the conditions of FENCE at a scope hold for every lane of a warp that has not exited (R147, R151)? -/
def State.warpReady (s : State) (sc : Sc) (wid before : Nat) : Bool :=
  let w := s.warp wid
  w.liveLanes.all (fun L => s.fenceReady sc w.core (w.lane L) before)

/-! ### Ending lanes, warps and workgroups (R157, R266) -/

/-- A roaming thread's end: it leaves the launch's live threads, and its unit once its writes are applied. -/
def State.endThread (s : State) (launch tid : Nat) : State :=
  let s := s.updLaunch launch (fun l => { l with ending := l.ending ++ [tid], roamers := l.roamers - 1 })
  s.settle launch tid

/-- The warps of a workgroup that hold a lane which is not exited (R144). -/
def State.liveWarps (s : State) (g : Nat) : Nat := ((s.group g).warps.filter (fun w => (s.warp w).liveLanes ≠ [])).length

/-- Lanes that wait in BAR.HOLD at a barrier go on (R144). -/
def State.barRelease (s : State) (wid b : Nat) : State :=
  (s.warp wid).liveLanes.foldl (fun s L =>
    let l := s.lane wid L
    match l.st, l.wait with
    | .waiting, some { instr := .barHold _ b' _, .. } =>
      if b'.val = b then s.updLane wid L (fun l => { l with st := .ready, pc := nextPc l.pc, wait := none }) else s
    | _, _ => s) s

/-- A barrier completed when its arrivals reach the expected count: the waiting lanes go on, the arrival count returns to
0 and the generation increases (R144). -/
def State.barComplete (s : State) (g b : Nat) : State :=
  let grp := s.group g
  let bar := grp.bars.get {} b
  if bar.arrived = 0 ∨ bar.arrived < bar.expect then s
  else
    let s := s.updGroup g (fun g => { g with bars := g.bars.set {} b { bar with arrived := 0, gen := bar.gen + 1 } })
    grp.warps.foldl (fun s wid => s.barRelease wid b) s

/-- Does a lane count as marked at a barrier: its mark is set, and it neither is parked nor stands in a handler, unless the
mark is that of a BAR.HOLD abandoned (R145, R255)?  A mark that BAR.PASS left is kept meanwhile, and counts again when the
lane is back in user mode (log entry 73). -/
def Lane.markedAt (l : Lane) (b : Nat) : Bool :=
  l.marks.getLsbD b && ((!l.handler && decide (l.st ≠ .parked) && decide (l.st ≠ .entering)) ||
    (match l.abandoned with | some a => decide (a.b = b) | none => false))

/-- A warp's arrival at a barrier, when every lane that is not exited is marked there: the marks go, and the arrival stands
with the count field of the warp's latest BAR there, to be counted once the accesses issued before it have come (R144, R145,
R147). -/
def State.barArrive (s : State) (wid b : Nat) : State :=
  let w := s.warp wid
  let live := w.liveLanes
  if live = [] ∨ ¬live.all (fun L => (w.lane L).markedAt b) then s
  else
    (s.updLanes wid live (fun l => { l with marks := l.marks &&& ~~~(BitVec.ofNat 8 (2 ^ b)) })).updWarp wid
      (fun w => { w with barDue := w.barDue ++ [(b, w.barCount.get 0 b, s.serial)] })

/-- An arrival counted: the first of a generation sets the expected count; in a roaming warp the generation completes at
once (R144, R146). -/
def State.barCounted (s : State) (wid b c : Nat) : State :=
  let w := s.warp wid
  if w.roaming then s.barRelease wid b
  else
    let n := s.liveWarps w.group
    let s := s.updGroup w.group (fun g =>
      let bar := g.bars.get {} b
      let bar := if bar.arrived = 0 then { bar with expect := if c = 0 then n else c, zero := decide (c = 0) } else bar
      { g with bars := g.bars.set {} b { bar with arrived := bar.arrived + 1 } })
    s.barComplete w.group b

/-- The arrivals of a warp before which everything that FENCE at workgroup scope would wait for has come are counted, in
their order (R147). -/
def State.barSettle (s : State) (wid : Nat) : State :=
  ((s.warp wid).barDue.filter (fun a => s.warpReady .group wid a.2.2)).foldl (fun (t : State) a =>
    (t.updWarp wid (fun w => { w with barDue := w.barDue.erase a })).barCounted wid a.1 a.2.1) s

/-- The barriers of a warp looked at again: it may now arrive, because a lane has exited or left a handler, or an arrival may
now be counted, because a result has come (R144 to R147). -/
def State.barRetest (s : State) (wid : Nat) : State :=
  ((List.range 8).foldl (fun (s : State) b => s.barArrive wid b) s).barSettle wid

/-- The expected count of a barrier whose first count was 0 evaluated again (R144). -/
def Barrier.recount (bar : Barrier) (n : Nat) : Barrier := if bar.zero then { bar with expect := n } else bar

/-- The barriers looked at again after a lane of a warp has exited (R144, R145): the warp may now arrive, and a count of
0 is evaluated again and may now be met. -/
def State.barAfterExit (s : State) (wid : Nat) : State :=
  let w := s.warp wid
  let s := s.barRetest wid
  if w.roaming then s
  else
    let n := s.liveWarps w.group
    (List.range 8).foldl (fun s b =>
      let s := s.updGroup w.group (fun g =>
        if (g.bars.get {} b).zero then { g with bars := g.bars.set {} b ((g.bars.get {} b).recount n) } else g)
      s.barComplete w.group b) s

/-- Does a command name a buffer that a save of its workgroup releases (R327)?  All do but LCOPY and a DISPATCH from
memory. -/
def Cmd.buffered (c : Cmd) : Bool :=
  let opc := c.bytes.getD 0 0
  decide (opc ≠ 5) && (decide (opc ≠ 0x20) || (c.bytes.getD 1 0).getLsbD 7)

/-- Does a command that holds its slot, tracked or naming a buffer, belong to a workgroup or a warp (R266, R306)?  One that a
save has paused holds none: it stands in the hive, in one of the 192 slots kept for such commands (R327, R396). -/
def State.busyCmds (s : State) (p : Cmd → Bool) : Bool :=
  s.cmds.any (fun c => (c.track.isSome || c.buffered) && decide (c.st ≠ .paused) && p c)

/-- The save asked for of a workgroup, or of a roaming warp, is over with it (R397). -/
def State.unsaved (s : State) (roaming : Bool) (target : Nat) : State :=
  { s with saveReqs := s.saveReqs.filter (fun r => decide (r.roaming ≠ roaming) || decide (r.target ≠ target)) }

/-- Are the reports of a warp's lanes written (R256)? -/
def State.reported (s : State) (w : Warp) : Bool := w.reports = 0 || decide (((s.domain w.dom).rings.get {} 5).held = [] ∧ ((s.domain w.dom).rings.get {} 5).waits = [])

/-- The cores of a placement set, ascending (R378). -/
def Record.set (r : Record) : List Nat :=
  (List.range 384).filter (fun c => r.clusters.getLsbD (c / 16) && r.cores.getLsbD (c % 16))

/-- Does a workgroup hold the accumulator and the weight-buffer half of a partition (R194, R321)? -/
def State.groupHolds (s : State) (p : Nat) : Bool :=
  s.groups.any (fun e => e.2.live && e.2.acc && decide (2 * e.2.core + e.2.part = p))

/-- Does a roam or node launch hold the accumulator and the weight-buffer half of a partition: one that is live, asks for
them and has the core in its set, while no workgroup still holds them (R379)? -/
def State.launchHolds (s : State) (i p : Nat) : Bool :=
  let l := s.launch i
  l.live && l.r.acc && decide (l.r.kind ≠ 0) && l.r.set.contains (p / 2) && !s.groupHolds p

/-- A warp slot, or a whole workgroup, freed once R266 permits it. -/
def State.reap (s : State) (wid : Nat) : State :=
  let w := s.warp wid
  let gone (w : Warp) : Bool := decide (w.liveLanes = []) && s.reported w
  if ¬w.live then s
  else if w.roaming then
    if gone w ∧ ¬s.busyCmds (fun c => decide (c.wid = wid)) then { s with warps := s.warps.erase wid }.unsaved true wid else s
  else
    let g := s.group w.group
    if g.warps.all (fun k => gone (s.warp k)) ∧ ¬s.busyCmds (fun c => decide (c.group = w.group)) then
      let s := { s with warps := g.warps.foldl Tab.erase s.warps, groups := s.groups.erase w.group }.unsaved false w.group
      s.subUnits g.launch 1
    else s

/-- Lanes of a warp ended: they are exited, their waits and registrations are gone, and what depended on them goes on
(R157, R256, R258, R300). -/
def State.exitLanes (s : State) (wid : Nat) (ls : List Nat) : State :=
  let w := s.warp wid
  let ls := ls.filter (fun L => (w.lane L).st ≠ .exited)
  let tids := ls.map (fun L => (w.lane L).tid)
  let s := s.updLanes wid ls (fun l => { l with st := .exited, wait := none, defer := false })
  let cut (r : Ret) : Option Ret := ls.foldl (fun (o : Option Ret) L => o.bind (fun q => q.without (w.lane L).tid L)) (some r)
  let s : State := { s with
    monitors := s.monitors.filterMap (fun m => (cut m.ret).map (fun q => { m with ret := q }))
    monEvents := s.monEvents.filterMap (fun m => (cut m.ret).map (fun q => { m with ret := q }))
    decodes := s.decodes.filterMap (fun d => (cut d.ret).map (fun q => { d with ret := q })) }
  let s := (s.parted tids).updWarp wid (fun w =>
    let m := maskOf ls
    let left := w.frags.filter (fun f => decide (f.lanes &&& ~~~m ≠ 0))
    let freed := w.frags.filter (fun f => decide (f.lanes &&& ~~~m = 0))
    { w with
      frags := left.map (fun f => { f with lanes := f.lanes &&& ~~~m })
      slots := freed.foldl (fun b f => b &&& ~~~(laneBit f.slot.toNat)) w.slots })
  let s := if w.roaming then tids.foldl (fun s t => s.endThread w.launch t) s else s
  (s.barAfterExit wid).reap wid

/-! ### Trap frames and reports (R245, R249, R256, R257) -/

/-- Z of R259: the bytes of one workgroup's save area. -/
def Record.areaSize (r : Record) : Nat :=
  let extra := if r.acc then 131072 + 196736 else 0
  (0x1400 + 0x6000 * r.warps + r.scratch + extra + 127) / 128 * 128

/-- The virtual address of the save area of workgroup g of a launch (R259, R425). -/
def Launch.areaVa (l : Launch) (g : Nat) : Nat := l.r.save.toNat + (if l.area = 0 then l.r.areaSize else l.area) * g

/-- The virtual address of a warp's record: in its workgroup's save area (R259), or in its domain's roaming save region
(R260). -/
def State.recordVa (s : State) (wid : Nat) : Nat :=
  let w := s.warp wid
  if w.roaming then (s.domain w.dom).rsave.toNat + 0x6000 * (64 * w.core + 32 * w.part + w.slot)
  else (s.launch w.launch).areaVa (s.group w.group).g + 0x1400 + 0x6000 * w.index

/-- The virtual address of a frame slot (R245). -/
def State.frameVa (s : State) (wid slot : Nat) : Nat := (s.recordVa wid + 128 * slot) % 2 ^ 64

/-- WHERE of a frame (R249). -/
def Warp.place (w : Warp) : Nat := w.dom * 2 ^ 15 + w.slot * 2 ^ 10 + w.part * 2 ^ 9 + w.core

/-- The 128 bytes of a trap frame (R249). -/
def frameBytes (w : Warp) (f : Frag) : List Byte :=
  leBytes 1 f.ev.cause.toNat ++ leBytes 1 f.ev.sub.toNat ++ leBytes 1 f.entry.toNat ++ leBytes 1 f.origin.toNat ++
  leBytes 4 f.id.toNat ++ leBytes 4 f.parent.toNat ++ leBytes 4 f.lanes.toNat ++ leBytes 4 f.sib.toNat ++
  leBytes 4 w.place ++ leBytes 8 f.ev.addr.toNat ++ leBytes 12 f.word.toNat ++ leBytes 2 w.launch ++ leBytes 2 0 ++
  leBytes 8 f.pc.toNat ++ leBytes 8 f.origpc.toNat ++ leBytes 8 f.iter.toNat ++ leBytes 8 f.time.toNat ++
  leBytes 8 f.resume.toNat ++ leBytes 8 f.ev.info0.toNat ++ leBytes 8 f.ev.info1.toNat ++ leBytes 24 0

/-- A frame written to its slot, two lines, or why it cannot be (R249, R260). -/
def State.writeFrame (s : State) (wid : Nat) (f : Frag) : Except Event State :=
  let w := s.warp wid
  let va := s.frameVa wid f.slot.toNat
  if w.roaming ∧ (s.domain w.dom).rsave = 0 then .error { cause := 0, sub := 0 }
  else
    match s.writeVaLines w.dom va (chunks 64 2 (frameBytes w f)) with
    | .error e => .error e
    | .ok (s, c) =>
      .ok (s.updLanes wid (lanesOf f.lanes) (fun l =>
        { l with cmaxp := BitVec.ofNat 64 (Nat.max l.cmaxp.toNat c), cmaxs := BitVec.ofNat 64 (Nat.max l.cmaxs.toNat c) }))

/-- The fragment a lane belongs to. -/
def Warp.fragOf (w : Warp) (l : Lane) : Option Frag :=
  if l.frag = 0 then none else w.frags.find? (fun f => f.id = l.frag)

/-- A DOUBLE_FAULT ends its lanes and posts a report of 256 bytes: the frame of the fragment that was in a handler as it
stands in memory (as it was written, where its page is no longer mapped), or zeros, and the frame of the failing event,
whose cause and sub-cause INFO1 carries (R249, R256).  Of the fields of the inner frame that R256 does not name, LANES
holds the lanes that end, FRAGID, PARENT and SIBLINGS are those of the fragment handed over (zero for an event in a
handler, which forms none), RESUME is the event's PC in original terms, ITER its cursor and INFO0 the event's own (log
entry 74). -/
def State.doubleFault (s : State) (wid : Nat) (ls : List Nat) (sub : BitVec 8) (outer : Option Frag) (inner : Frag)
    (failing : Event) : State :=
  let w := s.warp wid
  let out : List Byte :=
    match outer with
    | some f =>
      let va := s.frameVa wid f.slot.toNat
      match s.walk w.dom va with
      | .ok leaf => s.bytesAt (leaf.key va) 128
      | .fail _ => frameBytes w f
    | none => List.replicate 128 0
  let carried : Word := if sub.toNat = 4 ∨ sub.toNat = 5 then 0
    else BitVec.ofNat 64 (failing.cause.toNat * 256 + failing.sub.toNat)
  let inn := { inner with
    entry := 2, lanes := maskOf ls,
    ev := { inner.ev with cause := 0x11, sub := sub, info1 := carried } }
  let s := s.updWarp wid (fun w => { w with reports := w.reports + 1 })
  let s := s.post w.dom 5 (out ++ frameBytes w inn)
  s.exitLanes wid ls

/-- A host record posted to the fault queue (R257). -/
def State.postFault (s : State) (wid : Nat) (f : Frag) : State :=
  let w := s.warp wid
  let info := f.lanes.toNat * 2 ^ 32 + w.dom * 2 ^ 25 + w.launch * 2 ^ 13 + f.ev.kind * 2 ^ 10 + f.ev.sub.toNat
  s.post w.dom 4 (leBytes 8 f.ev.addr.toNat ++ leBytes 8 (s.frameVa wid f.slot.toNat) ++ leBytes 8 f.pc.toNat ++
    leBytes 8 f.time.toNat ++ leBytes 8 info ++ leBytes 4 w.place ++ leBytes 20 0)

/-! ### Taking a trap (R244 to R253, R257) -/

/-- The first id after FRAGCTR, past 0xFFFF_FFFF round to 1, that no live fragment holds (R244). -/
def freshId (ids : List (BitVec 32)) : Nat → BitVec 32 → BitVec 32
  | 0, c => c
  | fuel + 1, c =>
    let n := if c = BitVec.allOnes 32 then 1 else c + 1
    if ids.contains n then freshId ids fuel n else n

/-- The lowest free frame slot (R245). -/
def freeSlot (used : BitVec 32) : BitVec 5 :=
  BitVec.ofNat 5 (((List.range 32).find? (fun k => ¬used.getLsbD k)).getD 0)

/-- The iteration cursor of a lane of a fused launch (R414). -/
def Lane.cursor (l : Lane) : Word := l.regs.get 0 63

/-- Do two failing lanes of one issue belong to one fragment (R244)? -/
def Event.same (a b : Event) : Bool :=
  decide (a.cause = b.cause) && decide (a.sub = b.sub) &&
    (decide (a.cause ≠ 0x06) || decide (a.addr.toNat / 65536 = b.addr.toNat / 65536))

/-- The lanes that trap in one issue, in ascending order, gathered into fragments (R244). -/
def gather : List (Nat × Event) → Nat → List (Event × List Nat)
  | _, 0 => []
  | [], _ => []
  | (L, e) :: t, fuel + 1 =>
    (e, L :: (t.filter (fun x => e.same x.2)).map (·.1)) :: gather (t.filter (fun x => ¬e.same x.2)) fuel

/-- A new fragment of a warp: its id, its frame slot, its lanes held until it enters its handler or parked (R244,
R245). -/
def State.newFrag (s : State) (wid : Nat) (ls : List Nat) (sib : LaneMask) (parent : BitVec 32) (st : FragSt)
    (f : Frag) : State × Frag :=
  let w := s.warp wid
  let id := freshId (w.frags.map (·.id)) 33 w.fragctr
  let slot := freeSlot w.slots
  let f := { f with id := id, lanes := maskOf ls, sib := sib, parent := parent, slot := slot, st := st }
  let s := s.updWarp wid (fun w =>
    { w with fragctr := id, frags := w.frags ++ [f], slots := w.slots ||| laneBit slot.toNat })
  let lst := match st with | .parked => LaneSt.parked | _ => LaneSt.entering
  (s.updLanes wid ls (fun l => { l with st := lst, frag := id, fslot := slot, wait := none }), f)

/-- The frame contents common to the traps of the issue in progress (R249, R250, R422). -/
def State.issueFrag (s : State) (ev : Event) (L : Nat) : Frag :=
  let l := s.cl L
  let resume := if ev.cause = 0x0D then nextPc s.cur.origpc else s.cur.origpc
  { id := 0, lanes := 0, sib := 0, parent := 0, slot := 0, st := .pending, ev := ev, origin := s.cur.origin,
    word := s.cur.word, pc := s.cur.pc, origpc := s.cur.origpc,
    iter := if s.cur.origin = 0 then 0 else l.cursor,
    time := BitVec.ofNat 64 (s.localTime s.cw.core), resume := resume, serial := s.cur.serial }

/-- A fragment whose frame cannot be written, or whose handler cannot be entered: ADDR and TIME are those of that failing event
(R256). -/
def State.failed (s : State) (wid : Nat) (f : Frag) (addr : Word) : Frag :=
  { f with ev := { f.ev with addr := addr }, time := BitVec.ofNat 64 (s.localTime (s.warp wid).core) }

/-- A fragment parked for the host: the frame with ENTRY 3 and the record (R257).  A frame that cannot be written is a
DOUBLE_FAULT 0x03. -/
def State.parkFrag (s : State) (wid : Nat) (f : Frag) : State :=
  match s.writeFrame wid f with
  | .ok s => s.postFault wid f
  | .error e => s.doubleFault wid (lanesOf f.lanes) 0x03 none (s.failed wid f e.addr) e

/-- TAKING A TRAP: lanes of the issue in progress, in ascending order, with the event of each (R244 to R253).  Lanes in
user mode leave as fragments, one for each cause, sub-cause and page of a PAGE; a PAGE or a HALT parks its fragment for
the host, and every other fragment awaits its handler entry (`State.enterHandler`).  Lanes in handler mode end in a
DOUBLE_FAULT 0x01 (R252).  The PC of every lane stays at the instruction. -/
def State.raise (s : State) (fails : List (Nat × Event)) : State :=
  let user := fails.filter (fun x => ¬(s.cl x.1).handler)
  let hand := fails.filter (fun x => (s.cl x.1).handler)
  let wid := s.cur.wid
  let gs := gather user 32
  let all := maskOf (user.map (·.1))
  let s1 := gs.foldl (fun st g =>
    let L := (g.2.head?).getD 0
    let parked := decide (g.1.cause = 0x06) && decide (g.1.kind < 3)
    let f := { s.issueFrag g.1 L with entry := if parked then 3 else 0 }
    let (st, f) := st.newFrag wid g.2 (all &&& ~~~(maskOf g.2)) 0 (if parked then .parked else .pending) f
    if parked then st.parkFrag wid f else st) s
  let frags := ((hand.map (fun x => (s.cl x.1).frag)).eraseDups)
  frags.foldl (fun st id =>
    let mine := hand.filter (fun x => (s.cl x.1).frag = id)
    match mine with
    | [] => st
    | (L, e) :: _ =>
      st.doubleFault wid (mine.map (·.1)) 0x01 (s.cw.frags.find? (fun f => f.id = id)) (s.issueFrag e L) e) s1

/-- The handler a fragment enters (R251, R423): the trap handler, or for OVERRUN the supervisor handler, of its
origin. -/
def Launch.handlerOf (l : Launch) (f : Frag) : Word :=
  let r := match l.splice with
    | some p => if f.origin = 2 then p.q else p.p
    | none => l.r
  if f.ev.cause = 0x0E then r.suph else r.traph

/-- ENTRY INTO A HANDLER (R251), once the fragment has waited as R56 states: the frame is written, every lane takes MODE
0 and the handler's level, and its PC becomes the handler entry; a fragment of the consumer of a fused launch slides its
window (R423).  A null handler ends the lanes with a report (R253); a frame that cannot be written is a DOUBLE_FAULT
0x03.  `target` is the failing transfer check at the handler's PC, if one fails: a DOUBLE_FAULT 0x02 (R44). -/
def State.enterHandler (s : State) (wid : Nat) (f : Frag) (target : Option Event) : State :=
  let l := s.launch (s.warp wid).launch
  let h := l.handlerOf f
  let sup := decide (f.ev.cause = 0x0E)
  let f := { f with entry := if h = 0 then 2 else if sup then 1 else 0 }
  let s := s.updWarp wid (fun w => { w with frags := w.frags.map (fun g => if g.id = f.id then { f with st := .handler } else g) })
  match s.writeFrame wid f with
  | .error e => s.doubleFault wid (lanesOf f.lanes) 0x03 none (s.failed wid f e.addr) e
  | .ok s =>
    if h = 0 then s.doubleFault wid (lanesOf f.lanes) 0x01 none f f.ev
    else
      match target with
      | some e => s.doubleFault wid (lanesOf f.lanes) 0x02 none (s.failed wid f h) e
      | none =>
        let shift : BitVec 6 := match l.splice with
          | some p => if f.origin = 2 then BitVec.ofNat 6 p.offW else 0
          | none => 0
        s.updLanes wid (lanesOf f.lanes) (fun l =>
        { l with st := .ready, handler := true, sup := sup, pc := h, wb := l.wb + shift, entry := false })

/-- RETURN FROM A HANDLER (R270): the lanes take MODE 1, lose their level and their fragment, and stand at the RESUME of
the frame; a frame slot is freed with the last lane.  A lane that goes to another PC than its abandoned BAR.HOLD drops
that wait (R255), and the warp's barriers are looked at again (R145). -/
def State.returnTo (s : State) (wid : Nat) (ls : List Nat) (f : Frag) (target : Word) : State :=
  let shift : BitVec 6 := match (s.launch (s.warp wid).launch).splice with
    | some p => if f.origin = 2 then BitVec.ofNat 6 p.offW else 0
    | none => 0
  let s := s.updLanes wid ls (fun l =>
    { l with handler := false, sup := false, frag := 0, fslot := 0, pc := target, st := .ready, wb := l.wb - shift,
             abandoned := l.abandoned.filter (fun a => decide (a.pc = target)) })
  let s := s.updWarp wid (fun w =>
    let m := maskOf ls
    let rest := f.lanes &&& ~~~m
    { w with
      frags := if rest = 0 then w.frags.filter (fun g => g.id ≠ f.id)
        else w.frags.map (fun g => if g.id = f.id then { g with lanes := g.lanes &&& ~~~m } else g)
      slots := if rest = 0 then w.slots &&& ~~~(laneBit f.slot.toNat) else w.slots })
  s.barRetest wid

end Sys2Proof.Machine
end

