-- ==== Sys2Proof/Machine/Operands.lean ====
section
/-! DEFINITION. Operand forms: specifiers read and written for a lane, guards, predicates, memory operands, and the
shared shape of an instruction that computes lane by lane or once on the scalar ALU (R9, R49 to R54, R76 to R82, R206,
R423). -/

namespace Sys2Proof

/-! ### Integers (R82) -/

/-- The operating width of an integer type. -/
def Ty.width : Ty → Nat
  | .i8 | .n8 => 8 | .i16 | .n16 => 16 | .i32 | .n32 => 32 | .i64 | .n64 => 64
  | .f64 => 64 | .f32 => 32 | .h4 | .b4 => 64

/-- Is the type signed? -/
def Ty.signed : Ty → Bool
  | .i8 | .i16 | .i32 | .i64 => true
  | _ => false

/-- The low `n` bits of a word as a natural number: `ZeroExtend(v, n)`. -/
def zx (n : Nat) (v : Word) : Nat := v.toNat % 2 ^ n

/-- `SignExtend(v, n)`. -/
def sx (n : Nat) (v : Word) : Int := if 2 * zx n v < 2 ^ n then zx n v else (zx n v : Int) - 2 ^ n

/-- `Src` of R82 on a pattern. -/
def Ty.src (ty : Ty) (v : Word) : Int := if ty.signed then sx ty.width v else zx ty.width v

/-- `Put` of R82: the pattern written for a result of width n. -/
def extend (n : Nat) (signed : Bool) (x : Int) : Word :=
  let v := BitVec.ofInt 64 (x % 2 ^ n)
  if signed then BitVec.ofInt 64 (sx n v) else v

/-- `Put` of R82 under a type. -/
def Ty.put (ty : Ty) (x : Int) : Word := extend ty.width ty.signed x

/-- The access size of R207. -/
def Ty.size : Ty → Nat
  | .i8 | .n8 => 1 | .i16 | .n16 => 2 | .i32 | .n32 | .f32 => 4 | _ => 8

end Sys2Proof

namespace Sys2Proof.Machine

/-- What the device adds to the numbers that the handler of a fused launch's consumer names (R423). -/
structure Offs where
  s : Nat := 0
  p : Nat := 0
  g : Nat := 0
  t : Nat := 0
  b : Nat := 0
  c : Nat := 0
  deriving DecidableEq, Repr

/-- The offsets of the consumer of a fused launch (R413). -/
def Splice.offs (p : Splice) : Offs := ⟨p.offS, p.offP, p.offG, p.offT, p.offB, p.offC⟩

/-- The offsets that apply to a lane: those of the consumer while the lane runs its handler (R423). -/
def State.offsOf (s : State) (w : Warp) (l : Lane) : Offs :=
  if l.handler then
    match w.fragOf l, (s.launch w.launch).splice with
    | some f, some p => if f.origin = 2 then p.offs else {}
    | _, _ => {}
  else {}

/-- The physical register of window register `k` (R76). -/
def Lane.phys (l : Lane) (k : Nat) : Nat := (l.wb.toNat + k) % 64

/-- The value of window register `k`. -/
def Lane.win (l : Lane) (k : Nat) : Word := l.regs.get 0 (l.phys k)

/-- The lane with a window register written. -/
def Lane.setWin (l : Lane) (k : Nat) (v : Word) : Lane := { l with regs := l.regs.set 0 (l.phys k) v }

/-- The predicate `p` of a lane; p7 reads as 1 (R49). -/
def Lane.pred (l : Lane) (o : Offs) (p : Fin 8) : Bool := if p.val = 7 then true else l.preds.getLsbD (p.val + o.p)

/-- The lane with a predicate written; a write to p7 is discarded (R49). -/
def Lane.setPred (l : Lane) (o : Offs) (p : Fin 8) (b : Bool) : Lane :=
  if p.val = 7 then l
  else
    let m : BitVec 7 := BitVec.ofNat 7 (2 ^ (p.val + o.p))
    { l with preds := if b then l.preds ||| m else l.preds &&& ~~~m }

/-- CORE of R15. -/
def Warp.coreWord (w : Warp) : Word := BitVec.ofNat 64 (w.part * 2 ^ 9 + w.core)

/-- A scalar register as a lane names it: s63 of a lane in handler mode is its fragment's frame pointer (R245). -/
def State.sreg (s : State) (L k : Nat) : Word :=
  let l := s.cl L
  if l.handler ∧ k = 63 then BitVec.ofNat 64 (s.frameVa s.cur.wid l.fslot.toNat)
  else s.cw.sregs.get 0 (k + (s.offsOf s.cw l).s)

/-- The value of a specifier in a lane of the issue in progress (R49, R206). -/
def State.opnd (s : State) (L : Nat) (x : Spec) (imm : BitVec 32) : Word :=
  let w := s.cw
  let l := s.cl L
  let o := s.offsOf w l
  match x with
  | .win k => l.win k.val
  | .sca k => s.sreg L k.val
  | .grp k => (s.group w.group).gregs.get 0 (k.val + o.g)
  | .tl k => BitVec.ofNat 64 (((s.group w.group).tls.get {} (k.val + o.t)).done)
  | .lane => BitVec.ofNat 64 L
  | .wslot => BitVec.ofNat 64 w.slot
  | .core => w.coreWord
  | .pcv => s.cur.pc
  | .imm => imm.signExtend 64
  | .immhi => imm ++ (0#32)
  | .zero | .pred _ | .cv _ => 0

/-- A specifier written in a lane of the issue in progress (R49); ZERO discards the result, and so does s63 in handler
mode (R245). -/
def State.setDest (s : State) (L : Nat) (x : Spec) (v : Word) : State :=
  let w := s.cw
  let l := s.cl L
  let o := s.offsOf w l
  match x with
  | .win k => s.updLane s.cur.wid L (fun l => l.setWin k.val v)
  | .sca k =>
    if l.handler ∧ k.val = 63 then s
    else s.updWarp s.cur.wid (fun w => { w with sregs := w.sregs.set 0 (k.val + o.s) v })
  | .grp k => s.updGroup w.group (fun g => { g with gregs := g.gregs.set 0 (k.val + o.g) v })
  | _ => s

/-- A predicate of a lane read. -/
def State.predOf (s : State) (L : Nat) (p : Fin 8) : Bool := (s.cl L).pred (s.offsOf s.cw (s.cl L)) p

/-- A predicate of a lane written. -/
def State.setPredOf (s : State) (L : Nat) (p : Fin 8) (b : Bool) : State :=
  s.updLane s.cur.wid L (fun l => l.setPred (s.offsOf s.cw (s.cl L)) p b)

/-- Is the guard true in a lane (R53)?  A waiting instruction attempted again was issued for its lanes already. -/
def State.guardOf (s : State) (L : Nat) (g : Guard) : Bool :=
  s.cur.retry || (s.predOf L g.p != g.neg)

/-- The lanes that the issue executes (A1 of R135), ascending. -/
def State.gang (s : State) : List Nat := lanesOf s.cur.a1

/-- The active lanes of R9: the lanes of the gang whose guard is true, ascending. -/
def State.active (s : State) (h : Head) : List Nat := s.gang.filter (fun L => s.guardOf L h.g)

/-- Lanes moved to `Next(pc)` (R53). -/
def State.advance (s : State) (ls : List Nat) : State :=
  s.updLanes s.cur.wid ls (fun l => { l with pc := nextPc l.pc, st := .ready, wait := none })

/-- The lanes of the gang that are not active move on (R53). -/
def State.skipIdle (s : State) (h : Head) : State := s.advance (s.gang.filter (fun L => ¬s.guardOf L h.g))

/-- What one lane's execution of an instruction leaves: a value for D, predicate bits, sticky flags. -/
structure Eff where
  d : Option Word := none
  preds : List (Fin 8 × Bool) := []
  flags : BitVec 5 := 0
  deriving DecidableEq, Repr

/-- Flags ORed into the lane's FSTAT (R112). -/
def State.orFlags (s : State) (L : Nat) (f : BitVec 5) : State :=
  s.updLane s.cur.wid L (fun l => { l with fstat := l.fstat ||| f })

/-- The effect written in one lane. -/
def State.putEff (s : State) (d : Spec) (L : Nat) (e : Eff) : State :=
  let s := match e.d with | some v => s.setDest L d v | none => s
  let s := e.preds.foldl (fun s p => s.setPredOf L p.1 p.2) s
  if e.flags = 0 then s else s.orFlags L e.flags

/-- An instruction whose effect is per lane (R9) or, with U, once on the scalar ALU (R54, R81, R115): the effect of a
lane is computed from the state before the instruction, the lanes write in ascending order, and the whole gang moves on.
With U the lowest guarded lane supplies predicate sources and FMODE, D is written once, and predicates and flags in every
guarded lane. -/
def State.runAlu (s : State) (h : Head) (d : Spec) (eff : Nat → Eff) : State :=
  let act := s.active h
  let s' :=
    if h.u then
      match act with
      | [] => s
      | L :: _ =>
        let e := eff L
        let s1 := match e.d with | some v => s.setDest L d v | none => s
        act.foldl (fun t L => t.putEff .zero L { e with d := none }) s1
    else act.foldl (fun t L => t.putEff d L (eff L)) s
  s'.advance s.gang

/-- The result of an instruction that acts once per issue of its gang (R153): written in every guarded lane for a window
destination, once otherwise. -/
def State.putOnce (s : State) (d : Spec) (act : List Nat) (v : Word) : State :=
  match d with
  | .win _ => act.foldl (fun t L => t.setDest L d v) s
  | _ => match act with | [] => s | L :: _ => s.setDest L d v

/-- A predicate result of an instruction that acts once per issue: the bit in every guarded lane (R153). -/
def State.putPredOnce (s : State) (p : Fin 8) (act : List Nat) (b : Bool) : State :=
  act.foldl (fun t L => t.setPredOf L p b) s

/-- Lanes of the gang made waiting in the instruction (R133); `ops` are the operands that it keeps as it read them. -/
def State.waitIn (s : State) (ls : List Nat) (i : Instr) (phase : Phase) (dl : Nat → Word := fun _ => 0)
    (ops : Nat → List (Spec × Word) := fun _ => []) : State :=
  ls.foldl (fun t L => t.updLane s.cur.wid L (fun l =>
    { l with st := .waiting,
             wait := some { instr := i, word := s.cur.word, gang := s.cur.gang, serial := s.cur.serial,
                            phase := phase, dl := dl L, ops := ops L } })) s

/-- An operand of an instruction that may wait after it has issued (R9, R57): attempted again, it has the value that it
read when it issued. -/
def State.heldOpnd (s : State) (L : Nat) (x : Spec) (imm : BitVec 32) : Word :=
  if s.cur.retry then
    match (s.cl L).wait.bind (fun w => w.ops.find? (fun p => p.1 = x)) with
    | some p => p.2
    | none => s.opnd L x imm
  else s.opnd L x imm

/-- The operands that an instruction keeps while it waits (R9, R57). -/
def State.keep (s : State) (xs : List Spec) (imm : BitVec 32) (L : Nat) : List (Spec × Word) :=
  xs.map (fun x => (x, s.heldOpnd L x imm))

/-- How a load of raw bytes puts its value (R207). -/
def putAsOf (ty : Ty) : PutAs :=
  match ty with
  | .i8 | .n8 | .i16 | .n16 | .i32 | .n32 | .i64 | .n64 => .int ty
  | _ => .raw

/-- EA of a memory operand (R206). -/
def State.ea (s : State) (L : Nat) (a b : Spec) (xs : Fin 4) (imm : BitVec 32) : Word :=
  s.opnd L a imm + (s.opnd L b imm <<< xs.val) + imm.signExtend 64

/-- The same of an instruction that may wait after it has issued. -/
def State.heldEa (s : State) (L : Nat) (a b : Spec) (xs : Fin 4) (imm : BitVec 32) : Word :=
  s.heldOpnd L a imm + (s.heldOpnd L b imm <<< xs.val) + imm.signExtend 64

/-- The frame size F of a roaming thread's kernel; 32 for an anchored one (R24, R52). -/
def State.frameSize (s : State) (w : Warp) : Nat := if w.roaming then (s.launch w.launch).r.frame else 32

/-- The scratchpad range that an instruction of the issue sees: the workgroup's allocation, or in a fused launch the part
of its origin (R192, R413).  A roaming warp has none. -/
def State.scratchRange (s : State) (w : Warp) (origin : BitVec 8) : Nat × Nat :=
  if w.roaming then (0, 0)
  else
    let g := s.group w.group
    match (s.launch w.launch).splice with
    | none => (g.sbase, g.ssize)
    | some p => if origin = 2 then (g.sbase + p.p.scratch, p.q.scratch) else (g.sbase, p.p.scratch)

end Sys2Proof.Machine
end

