-- ==== Sys2Proof/Machine/Flags.lean ====
section
/-! DEFINITION. The flag computations: carries and borrows through a predicate (R86), comparisons (R96), the sticky flags
of FSTAT (R112) and FMODE (R111). -/

namespace Sys2Proof.Machine

/-- The sum of ADDC and its unsigned carry out of bit n − 1 (R86). -/
def addCarry (n : Nat) (a b : Word) (c : Bool) : Int × Bool :=
  let x := zx n a + zx n b + c.toNat
  (x, decide (2 ^ n ≤ x))

/-- The difference of SUBB and its unsigned borrow (R86). -/
def subBorrow (n : Nat) (a b : Word) (c : Bool) : Int × Bool :=
  let x : Int := (zx n a : Int) - zx n b - c.toNat
  (x, decide (x < 0))

/-- The conditions of CMP (R96). -/
def ccHolds (cc : Cc) (x y : Int) : Bool :=
  match cc with
  | .eq => x == y | .ne => x != y
  | .lt => decide (x < y) | .le => decide (x ≤ y) | .gt => decide (y < x) | .ge => decide (y ≤ x)

/-- NV of FSTAT (R112). -/
def fNV : BitVec 5 := 16
/-- DZ (R112). -/
def fDZ : BitVec 5 := 8
/-- OF (R112). -/
def fOF : BitVec 5 := 4
/-- UF (R112). -/
def fUF : BitVec 5 := 2
/-- NX (R112). -/
def fNX : BitVec 5 := 1

/-- FTZ of FMODE (R111). -/
def ftzOf (fmode : BitVec 4) : Bool := fmode.getLsbD 3

/-- The rounding field of FMODE (R111). -/
def dynRm (fmode : BitVec 4) : Rm :=
  match fmode.toNat % 8 with
  | 1 => .rtz | 2 => .rup | 3 => .rdn | 4 => .rna | _ => .rne

/-- The rounding mode of an instruction in a lane (R47, R107). -/
def resolveRm (rm : Rm) (fmode : BitVec 4) : Rm :=
  match rm with
  | .dyn => dynRm fmode
  | r => r

/-- What a write of FMODE stores (R111). -/
def fmodeWrite (v : Word) : BitVec 4 :=
  let rm := v.extractLsb' 0 3
  v.extractLsb' 3 1 ++ (if rm.toNat ≤ 4 then rm else 0#3)

end Sys2Proof.Machine
end

