-- ==== Sys2Proof/Machine/Float.lean ====
section
/-! DEFINITION. The arithmetic of the four floating-point formats on bit patterns: decoding, rounding with its flags,
NaN rules, conversions and the approximations (spec/04_float R103 to R110, R114, R124 to R126). -/

namespace Sys2Proof.Machine

/-- A binary format: exponent bits and fraction bits (R103). -/
structure Fmt where
  eb : Nat
  fb : Nat
  deriving DecidableEq, Repr

/-- FP64 (R103). -/
def fp64 : Fmt := ⟨11, 52⟩
/-- FP32 (R103). -/
def fp32 : Fmt := ⟨8, 23⟩
/-- FP16 (R103). -/
def fp16 : Fmt := ⟨5, 10⟩
/-- BF16 (R103). -/
def bf16 : Fmt := ⟨8, 7⟩

/-- Width in bits. -/
def Fmt.width (F : Fmt) : Nat := 1 + F.eb + F.fb
/-- Bias (R103). -/
def Fmt.bias (F : Fmt) : Int := 2 ^ (F.eb - 1) - 1
/-- emin (R103). -/
def Fmt.emin (F : Fmt) : Int := 1 - F.bias
/-- The exponent of the last bit of a subnormal. -/
def Fmt.qmin (F : Fmt) : Int := F.emin - F.fb
/-- The sign bit set or clear, as a number to be added. -/
def Fmt.sign (F : Fmt) (neg : Bool) : Nat := if neg then 2 ^ (F.eb + F.fb) else 0
/-- Infinity's pattern without its sign. -/
def Fmt.infBits (F : Fmt) : Nat := (2 ^ F.eb - 1) * 2 ^ F.fb
/-- The pattern of an infinity. -/
def Fmt.inf (F : Fmt) (neg : Bool) : Nat := F.infBits + F.sign neg
/-- The default NaN (R104). -/
def Fmt.nan (F : Fmt) : Nat := F.infBits + 2 ^ (F.fb - 1)
/-- The pattern with the fraction's top bit set. -/
def Fmt.quiet (F : Fmt) (b : Nat) : Nat := b ||| 2 ^ (F.fb - 1)

/-- What a pattern holds: a NaN with its pattern, an infinity, or the exact value `(−1)^neg × m × 2^e`. -/
inductive FVal where
  | nan (bits : Nat)
  | inf (neg : Bool)
  | fin (neg : Bool) (m : Nat) (e : Int)
  deriving DecidableEq, Repr

/-- The sign bit of a pattern. -/
def Fmt.neg (F : Fmt) (b : Nat) : Bool := decide (b / 2 ^ (F.eb + F.fb) % 2 = 1)
/-- The exponent field. -/
def Fmt.expField (F : Fmt) (b : Nat) : Nat := b / 2 ^ F.fb % 2 ^ F.eb
/-- The fraction field. -/
def Fmt.frac (F : Fmt) (b : Nat) : Nat := b % 2 ^ F.fb

/-- A pattern decoded (R103). -/
def Fmt.value (F : Fmt) (b : Nat) : FVal :=
  let e := F.expField b
  let f := F.frac b
  if e = 2 ^ F.eb - 1 then (if f = 0 then .inf (F.neg b) else .nan b)
  else if e = 0 then .fin (F.neg b) f F.qmin
  else .fin (F.neg b) (2 ^ F.fb + f) (F.qmin + (e - 1 : Nat))

/-- Is the value a signalling NaN (R103)? -/
def Fmt.signalling (F : Fmt) : FVal → Bool
  | .nan b => decide (F.frac b / 2 ^ (F.fb - 1) = 0)
  | _ => false

/-- A result of one element with the flags it raises. -/
structure FRes where
  bits : Nat
  flags : BitVec 5 := 0
  deriving DecidableEq, Repr

/-! ### Rounding (R107 to R109) -/

/-- Does the rounding of magnitude `q + r / 2^k` step away from zero (R107)? -/
def roundsUp (rm : Rm) (neg : Bool) (q r k : Nat) : Bool :=
  match rm with
  | .rne | .dyn => decide (2 ^ k < 2 * r) || (decide (2 * r = 2 ^ k) && decide (q % 2 = 1))
  | .rna => decide (2 ^ k ≤ 2 * r)
  | .rtz => false
  | .rup => !neg && decide (r ≠ 0)
  | .rdn => neg && decide (r ≠ 0)

/-- `m / 2^k` rounded to an integer. -/
def roundShift (rm : Rm) (neg : Bool) (m k : Nat) : Nat :=
  let q := m / 2 ^ k
  if roundsUp rm neg q (m % 2 ^ k) k then q + 1 else q

/-- A rounded result: the pattern, its flags, and whether it is tiny (R109). -/
structure Rounded where
  res : FRes
  tiny : Bool := false
  deriving DecidableEq, Repr

/-- The result of an overflow (R108). -/
def Fmt.overflow (F : Fmt) (rm : Rm) (neg : Bool) : FRes :=
  let toInf := match rm with
    | .rne | .rna | .dyn => true
    | .rtz => false
    | .rup => !neg
    | .rdn => neg
  { bits := F.sign neg + (if toInf then F.infBits else F.infBits - 1), flags := fOF ||| fNX }

/-- Is the nonzero value `m × 2^e` tiny: rounded to the precision with an unbounded exponent, below 2^emin (R109)? -/
def Fmt.tinyVal (F : Fmt) (rm : Rm) (neg : Bool) (m : Nat) (e : Int) : Bool :=
  let E : Int := e + m.log2
  if F.emin ≤ E then false
  else if E < F.emin - 1 then true
  else if m.log2 ≤ F.fb then true
  else decide (roundShift rm neg m (m.log2 - F.fb) < 2 ^ (F.fb + 1))

/-- `Round` of R10 for a nonzero exact value (R107 to R109). -/
def Fmt.round (F : Fmt) (rm : Rm) (neg : Bool) (m : Nat) (e : Int) : Rounded :=
  let E : Int := e + m.log2
  if F.bias < E then { res := F.overflow rm neg }
  else
    let q : Int := max (E - F.fb) F.qmin
    let k := (q - e).toNat
    let sig := if q ≤ e then m * 2 ^ (e - q).toNat else roundShift rm neg m k
    let inexact := decide (e < q) && decide (m % 2 ^ k ≠ 0)
    let bits := sig + (q - F.qmin).toNat * 2 ^ F.fb
    if F.infBits ≤ bits then { res := F.overflow rm neg }
    else
      let tiny := F.tinyVal rm neg m e
      { res := { bits := bits + F.sign neg,
                 flags := (if inexact then fNX else 0) ||| (if inexact && tiny then fUF else 0) }
        tiny := tiny }

/-- `FlushOut` (R114): a tiny F32 result becomes a zero of its sign, with UF and NX. -/
def Fmt.flushOut (F : Fmt) (ftz neg : Bool) (r : Rounded) : FRes :=
  if ftz ∧ F = fp32 ∧ r.tiny then { bits := F.sign neg, flags := fUF ||| fNX } else r.res

/-- `FlushIn` (R114): an F32 subnormal becomes a zero of its sign. -/
def Fmt.flushIn (F : Fmt) (ftz : Bool) (b : Nat) : Nat :=
  if ftz ∧ F = fp32 ∧ F.expField b = 0 then F.sign (F.neg b) else b

/-- An exact value rounded and flushed; zero keeps its sign. -/
def Fmt.deliver (F : Fmt) (rm : Rm) (ftz neg : Bool) (m : Nat) (e : Int) : FRes :=
  if m = 0 then { bits := F.sign neg } else F.flushOut ftz neg (F.round rm neg m e)

/-! ### NaNs (R105, R106) -/

/-- NV when any of the operands is a signalling NaN. -/
def Fmt.snan (F : Fmt) (vs : List FVal) : BitVec 5 := if vs.any F.signalling then fNV else 0

/-- The first NaN among operands, quieted (R105 rule 1). -/
def Fmt.firstNan (F : Fmt) : List FVal → Option Nat
  | [] => none
  | .nan b :: _ => some (F.quiet b)
  | _ :: t => F.firstNan t

/-- The default NaN with NV (R106). -/
def Fmt.invalid (F : Fmt) : FRes := { bits := F.nan, flags := fNV }

/-- The exact product of two values, none of them a NaN; none for 0 × ∞ (R106). -/
def FVal.mul : FVal → FVal → Option FVal
  | .fin n m e, .fin n' m' e' => some (.fin (n != n') (m * m') (e + e'))
  | .inf n, .inf n' => some (.inf (n != n'))
  | .inf n, .fin n' m _ => if m = 0 then none else some (.inf (n != n'))
  | .fin n m _, .inf n' => if m = 0 then none else some (.inf (n != n'))
  | _, _ => none

/-- The value with its sign inverted; a NaN is left (R118). -/
def FVal.negate : FVal → FVal
  | .nan b => .nan b
  | .inf n => .inf !n
  | .fin n m e => .fin (!n) m e

/-- Is there an infinity of a sign among terms? -/
def hasInf (neg : Bool) (ts : List FVal) : Bool := ts.contains (.inf neg)

/-- The least exponent of the nonzero terms. -/
def minExp (ts : List FVal) : Int :=
  ts.foldl (fun x t => match t with | .fin _ m e => if m = 0 then x else min x e | _ => x) 100000

/-- The exact sum of finite terms, at an exponent. -/
def sumAt (x : Int) (ts : List FVal) : Int :=
  ts.foldl (fun a t => match t with
    | .fin n m e => if m = 0 then a else a + (if n then -1 else 1) * (m * 2 ^ (e - x).toNat : Nat)
    | _ => a) 0

/-- The sign of an exact zero sum (R110). -/
def zeroSign (rm : Rm) (ts : List FVal) : Bool :=
  if ts.all (fun t => match t with | .fin n m _ => n && decide (m = 0) | _ => false) then true
  else if ts.all (fun t => match t with | .fin n m _ => !n && decide (m = 0) | _ => false) then false
  else decide (rm = .rdn)

/-- The sum of terms, none of them a NaN, rounded once (R106, R110, R118, R131). -/
def Fmt.sum (F : Fmt) (rm : Rm) (ftz : Bool) (ts : List FVal) : FRes :=
  match hasInf false ts, hasInf true ts with
  | true, true => F.invalid
  | true, false => { bits := F.inf false }
  | false, true => { bits := F.inf true }
  | false, false =>
    let x := minExp ts
    let v := sumAt x ts
    if v = 0 then { bits := F.sign (zeroSign rm ts) } else F.deliver rm ftz (decide (v < 0)) v.natAbs x

/-- FADD on patterns (R118). -/
def Fmt.add (F : Fmt) (rm : Rm) (ftz : Bool) (a b : Nat) : FRes :=
  let x := F.value (F.flushIn ftz a)
  let y := F.value (F.flushIn ftz b)
  match F.firstNan [x, y] with
  | some n => { bits := n, flags := F.snan [x, y] }
  | none => F.sum rm ftz [x, y]

/-- FSUB on patterns (R118): y's sign is inverted first, unless it is a NaN. -/
def Fmt.sub (F : Fmt) (rm : Rm) (ftz : Bool) (a b : Nat) : FRes :=
  let x := F.value (F.flushIn ftz a)
  let y := (F.value (F.flushIn ftz b)).negate
  match F.firstNan [x, y] with
  | some n => { bits := n, flags := F.snan [x, y] }
  | none => F.sum rm ftz [x, y]

/-- FMUL on patterns (R118). -/
def Fmt.mul (F : Fmt) (rm : Rm) (ftz : Bool) (a b : Nat) : FRes :=
  let x := F.value (F.flushIn ftz a)
  let y := F.value (F.flushIn ftz b)
  match F.firstNan [x, y] with
  | some n => { bits := n, flags := F.snan [x, y] }
  | none => match x.mul y with | none => F.invalid | some t => F.sum rm ftz [t]

/-- FFMA on patterns (R106, R118): 0 × ∞ raises NV even when a NaN addend supplies the result. -/
def Fmt.fma (F : Fmt) (rm : Rm) (ftz : Bool) (a b c : Nat) : FRes :=
  let x := F.value (F.flushIn ftz a)
  let y := F.value (F.flushIn ftz b)
  let z := F.value (F.flushIn ftz c)
  match F.firstNan [x, y, z] with
  | some n =>
    let inv := decide (F.firstNan [x, y] = none) && decide (x.mul y = none)
    { bits := n, flags := F.snan [x, y, z] ||| (if inv then fNV else 0) }
  | none => match x.mul y with | none => F.invalid | some t => F.sum rm ftz [t, z]

/-! ### Division and square root (R119) -/

/-- The nonzero quotient of two magnitudes with a sticky last bit: `(m, e)` with `m × 2^e` on the same side of every
rounding boundary as `m₁ 2^e₁ ÷ (m₂ 2^e₂)`. -/
def quotient (m1 : Nat) (e1 : Int) (m2 : Nat) (e2 : Int) (bits : Nat) : Nat × Int :=
  let k := bits + m2.log2 + 2
  let n := m1 * 2 ^ k
  let q := n / m2
  (2 * q + (if n % m2 = 0 then 0 else 1), e1 - e2 - k - 1)

/-- FDIV on patterns (R119). -/
def Fmt.div (F : Fmt) (rm : Rm) (ftz : Bool) (a b : Nat) : FRes :=
  let x := F.value (F.flushIn ftz a)
  let y := F.value (F.flushIn ftz b)
  match F.firstNan [x, y] with
  | some n => { bits := n, flags := F.snan [x, y] }
  | none =>
    match x, y with
    | .inf _, .inf _ => F.invalid
    | .inf n, .fin n' _ _ => { bits := F.inf (n != n') }
    | .fin n _ _, .inf n' => { bits := F.sign (n != n') }
    | .fin n m e, .fin n' m' e' =>
      if m' = 0 then (if m = 0 then F.invalid else { bits := F.inf (n != n'), flags := fDZ })
      else if m = 0 then { bits := F.sign (n != n') }
      else
        let q := quotient m e m' e' (F.fb + 4)
        F.deliver rm ftz (n != n') q.1 q.2
    | _, _ => F.invalid

/-- Newton's iteration for the integer square root, from above. -/
def isqrtFrom : Nat → Nat → Nat → Nat
  | 0, _, x => x
  | fuel + 1, n, x =>
    let y := (x + n / x) / 2
    if y < x then isqrtFrom fuel n y else x

/-- The integer square root. -/
def isqrt (n : Nat) : Nat := if n = 0 then 0 else isqrtFrom (n.log2 + 2) n (2 ^ (n.log2 / 2 + 1))

/-- The nonzero square root of `m × 2^e` with a sticky last bit. -/
def root (m : Nat) (e : Int) (bits : Nat) : Nat × Int :=
  let m := if e % 2 = 0 then m else 2 * m
  let e := if e % 2 = 0 then e else e - 1
  let n := m * 2 ^ (2 * bits)
  let r := isqrt n
  (2 * r + (if r * r = n then 0 else 1), e / 2 - bits - 1)

/-- FSQRT on patterns (R119). -/
def Fmt.sqrt (F : Fmt) (rm : Rm) (ftz : Bool) (a : Nat) : FRes :=
  let x := F.value (F.flushIn ftz a)
  match x with
  | .nan b => { bits := F.quiet b, flags := F.snan [x] }
  | .inf n => if n then F.invalid else { bits := F.inf false }
  | .fin n m e =>
    if m = 0 then { bits := F.sign n }
    else if n then F.invalid
    else
      let r := root m e (F.fb + 4)
      F.deliver rm ftz false r.1 r.2

/-! ### Comparison, minimum and maximum (R120, R122) -/

/-- Is x less than y, of two values neither of which is a NaN; −0 equal to +0? -/
def FVal.lt (x y : FVal) : Bool :=
  match x, y with
  | .inf n, .inf n' => n && !n'
  | .inf n, .fin _ _ _ => n
  | .fin _ _ _, .inf n' => !n'
  | .fin n m e, .fin n' m' e' =>
    let k := min e e'
    decide (sumAt k [.fin n m e] < sumAt k [.fin n' m' e'])
  | _, _ => false

/-- Is the value a NaN? -/
def FVal.isNan : FVal → Bool
  | .nan _ => true
  | _ => false

/-- The sign of a value. -/
def FVal.sign : FVal → Bool
  | .nan _ => false
  | .inf n => n
  | .fin n _ _ => n

/-- Does x come before y in the order of R120, where −0 is less than +0? -/
def FVal.before (x y : FVal) : Bool := x.lt y || (!y.lt x && x.sign && !y.sign)

/-- FMIN and FMAX on patterns (R120). -/
def Fmt.minmax (F : Fmt) (wantMax : Bool) (ftz : Bool) (a b : Nat) : FRes :=
  let a := F.flushIn ftz a
  let b := F.flushIn ftz b
  let x := F.value a
  let y := F.value b
  let fl := F.snan [x, y]
  match x.isNan, y.isNan with
  | true, true => { bits := F.quiet a, flags := fl }
  | true, false => { bits := b, flags := fl }
  | false, true => { bits := a, flags := fl }
  | false, false => { bits := if wantMax then (if x.before y then b else a) else (if y.before x then b else a) }

/-- FCMP on patterns: the outcome and NV (R122). -/
def Fmt.cmp (F : Fmt) (cc : FCc) (ftz : Bool) (a b : Nat) : Bool × BitVec 5 :=
  let x := F.value (F.flushIn ftz a)
  let y := F.value (F.flushIn ftz b)
  let un := x.isNan || y.isNan
  let s := F.snan [x, y]
  let q : BitVec 5 := if un then fNV else 0
  match cc with
  | .eq => (!un && !x.lt y && !y.lt x, s)
  | .ne => (un || x.lt y || y.lt x, s)
  | .lt => (!un && x.lt y, q)
  | .le => (!un && !y.lt x, q)
  | .gt => (!un && y.lt x, q)
  | .ge => (!un && !x.lt y, q)
  | .un => (un, s)
  | .ord => (!un, s)

/-- The class value of R123. -/
def Fmt.classOf (F : Fmt) (b : Nat) : Nat :=
  let neg := F.neg b
  let pick (n p : Nat) : Nat := 2 ^ (if neg then n else p)
  match F.value b with
  | .nan x => 2 ^ (if F.signalling (.nan x) then 8 else 9)
  | .inf _ => pick 0 7
  | .fin _ m _ =>
    if m = 0 then pick 3 4 else if F.expField b = 0 then pick 2 5 else pick 1 6

/-! ### Conversions (R126 to R130) -/

/-- A NaN carried into another format (R126). -/
def carryNan (F G : Fmt) (b : Nat) : Nat :=
  let f := F.frac b
  let f := if F.fb ≤ G.fb then f * 2 ^ (G.fb - F.fb) else f / 2 ^ (F.fb - G.fb)
  G.quiet (G.infBits + f + G.sign (F.neg b))

/-- FCVT of one element from format F to G (R126). -/
def cvt (F G : Fmt) (rm : Rm) (ftz : Bool) (a : Nat) : FRes :=
  let x := F.value (F.flushIn ftz a)
  match x with
  | .nan b => { bits := carryNan F G b, flags := F.snan [x] }
  | .inf n => { bits := G.inf n }
  | .fin n m e => G.deliver rm ftz n m e

/-- The magnitude rounded to an integer, and whether it differs (R107, R127). -/
def integral (rm : Rm) (neg : Bool) (m : Nat) (e : Int) : Nat × Bool :=
  if 0 ≤ e then (m * 2 ^ e.toNat, false)
  else
    let k := (-e).toNat
    (roundShift rm neg m k, decide (m % 2 ^ k ≠ 0))

/-- FTOI on a pattern: the integer and the flags (R127). -/
def Fmt.toInt (F : Fmt) (ty : Ty) (rm : Rm) (ftz : Bool) (a : Nat) : Int × BitVec 5 :=
  let lo : Int := if ty.signed then -(2 ^ (ty.width - 1)) else 0
  let hi : Int := if ty.signed then 2 ^ (ty.width - 1) - 1 else 2 ^ ty.width - 1
  match F.value (F.flushIn ftz a) with
  | .nan _ => (0, fNV)
  | .inf n => (if n then lo else hi, fNV)
  | .fin n m e =>
    let r := integral rm n m e
    let i : Int := if n then -r.1 else r.1
    if i < lo then (lo, fNV) else if hi < i then (hi, fNV) else (i, if r.2 then fNX else 0)

/-- ITOF of an integer (R128). -/
def Fmt.ofInt (F : Fmt) (rm : Rm) (ftz : Bool) (i : Int) : FRes := F.deliver rm ftz (decide (i < 0)) i.natAbs 0

/-- FRND on a pattern (R129). -/
def Fmt.rint (F : Fmt) (rm : Rm) (ftz : Bool) (a : Nat) : FRes :=
  let a := F.flushIn ftz a
  let x := F.value a
  match x with
  | .nan b => { bits := F.quiet b, flags := F.snan [x] }
  | .inf _ => { bits := a }
  | .fin n m e =>
    if m = 0 ∨ 0 ≤ e then { bits := a }
    else
      let r := integral rm n m e
      { bits := (F.deliver rm false n r.1 0).bits, flags := if r.2 then fNX else 0 }

/-- FSCL on a pattern; a factor beyond 2^±5000 rounds as that one does (R130). -/
def Fmt.scale (F : Fmt) (rm : Rm) (ftz : Bool) (a : Nat) (j : Int) : FRes :=
  let a := F.flushIn ftz a
  let x := F.value a
  match x with
  | .nan b => { bits := F.quiet b, flags := F.snan [x] }
  | .inf _ => { bits := a }
  | .fin n m e => F.deliver rm ftz n m (e + sat j (-5000) 5000)

/-! ### FDOT (R131) -/

/-- The products of two lists of values that involve no NaN, with the pairs that are 0 × ∞ as none. -/
def products : List FVal → List FVal → List (Option FVal)
  | x :: xs, y :: ys => (if x.isNan || y.isNan then [] else [x.mul y]) ++ products xs ys
  | _, _ => []

/-- Values interleaved in the order of R131. -/
def interleave : List FVal → List FVal → List FVal
  | x :: xs, y :: ys => x :: y :: interleave xs ys
  | _, _ => []

/-- FDOT on the elements of a and b and the addend's pattern (R131). -/
def Fmt.dot (F : Fmt) (rm : Rm) (ftz : Bool) (as bs : List Nat) (c : Nat) : FRes :=
  let z := fp32.value (fp32.flushIn ftz c)
  let xs := as.map F.value
  let ys := bs.map F.value
  let ps := products xs ys
  let ts := ps.filterMap id ++ (if z.isNan then [] else [z])
  let inv := ps.contains none || (hasInf false ts && hasInf true ts)
  let els := interleave xs ys
  let nv := F.snan els ||| fp32.snan [z] ||| (if inv then fNV else 0)
  match els.find? FVal.isNan, z with
  | some (.nan b), _ => { bits := carryNan F fp32 b, flags := nv }
  | _, .nan b => { bits := fp32.quiet b, flags := nv }
  | _, _ => if inv then fp32.invalid else fp32.sum rm ftz ts

/-! ### Approximations (R124, R125) -/

/-- Fraction bits of the fixed-point evaluation of 2^x and log2 x. -/
def apxQ : Nat := 128

/-- The exponent of the unit in the last place of a value whose floor of log2 is `l` (R124). -/
def Fmt.ulpExp (F : Fmt) (l : Int) : Int := if l < F.emin then F.qmin else l - F.fb

/-- A value as a multiple of 2^x, where it is one. -/
def FVal.at (v : FVal) (x : Int) : Int := sumAt x [v]

/-- Is 2^a × i at most 2^b × j in size, for i and j not negative? -/
def leScaled (i : Nat) (a : Int) (j : Nat) (b : Int) : Bool :=
  decide (i * 2 ^ (a - min a b).toNat ≤ j * 2 ^ (b - min a b).toNat)

/-- Does a finite pattern certainly lie within 2^u × n of a value known to within `slack × 2^x` of `v × 2^x` (R124)? -/
def Fmt.near (F : Fmt) (r : Nat) (v : Int) (x : Int) (n : Nat) (u : Int) (slack : Nat) : Bool :=
  match F.value r with
  | .fin s m e =>
    let k := min (min e x) u
    let d := (sumAt k [.fin s m e] - v * 2 ^ (x - k).toNat).natAbs
    decide (d + slack * 2 ^ (x - k).toNat ≤ n * 2 ^ (u - k).toNat)
  | _ => false

/-- The result chosen among those within the bound: the device's own where it meets it, else the nearest (R124). -/
def Fmt.pick (F : Fmt) (op code a : Nat) (ok : Nat → Bool) (nearest : Nat) : Nat :=
  let r := (Config.approx op code (BitVec.ofNat 64 a)).toNat % 2 ^ F.width
  if ok r then r else nearest

/-- The number by which the approximations tell the formats apart. -/
def Fmt.code (F : Fmt) : Nat := F.fb

/-- An exact result of an approximation: no flag but what FTZ adds (R125). -/
def Fmt.exactOr (F : Fmt) (ftz neg : Bool) (m : Nat) (e : Int) (other : FRes) : FRes :=
  let r := F.round .rne neg m e
  if r.res.flags = 0 then F.flushOut ftz neg r else other

/-- A finite approximation r of a value v that is not exact, near `m × 2^e`: OF, UF and NX, then FTZ (R125). -/
def Fmt.apxFlags (F : Fmt) (ftz neg : Bool) (m : Nat) (e : Int) (r : Nat) : FRes :=
  let tiny := F.tinyVal .rne neg m e
  F.flushOut ftz neg { res := { bits := r, flags := fNX ||| (if tiny then fUF else 0) }, tiny := tiny }

/-- The odd part of a number and the exponent of two taken out, by halving. -/
def oddPart : Nat → Nat → Int → Nat × Int
  | 0, m, e => (m, e)
  | fuel + 1, m, e => if m % 2 = 0 then oddPart fuel (m / 2) (e + 1) else (m, e)

/-- FRCP on an F64 or F32 pattern (R124, R125). -/
def Fmt.frcp (F : Fmt) (ftz : Bool) (a : Nat) : FRes :=
  let a := F.flushIn ftz a
  let x := F.value a
  match x with
  | .nan b => { bits := F.quiet b, flags := F.snan [x] }
  | .inf n => { bits := F.sign n }
  | .fin n m e =>
    if m = 0 then { bits := F.inf n, flags := fDZ }
    else
      let o := oddPart 64 m e
      let q := quotient 1 0 m e (F.fb + 4)
      let near := F.round .rne n q.1 q.2
      if near.res.flags &&& fOF ≠ 0 then { bits := F.inf n, flags := fOF ||| fNX }
      else
        -- |r − v| ≤ ulp(v), multiplied by m × 2^e
        let l : Int := -e - (if o.1 = 1 then (m.log2 : Int) else m.log2 + 1)
        let u := F.ulpExp l
        let ok (r : Nat) : Bool :=
          match F.value r with
          | .fin s mr er =>
            let k := min (min (er + e) 0) (u + e)
            let d := (sumAt k [.fin s (mr * m) (er + e)] - (if n then -1 else 1) * (2 ^ (0 - k).toNat : Nat)).natAbs
            decide (d ≤ m * 2 ^ (u + e - k).toNat)
          | _ => false
        let r := F.apxFlags ftz n q.1 q.2 (F.pick 0 F.code a ok near.res.bits)
        if o.1 = 1 then F.exactOr ftz n 1 (-o.2) r else r

/-- FRSQ on an F64 or F32 pattern (R124, R125). -/
def Fmt.frsq (F : Fmt) (ftz : Bool) (a : Nat) : FRes :=
  let a := F.flushIn ftz a
  let x := F.value a
  match x with
  | .nan b => { bits := F.quiet b, flags := F.snan [x] }
  | .inf n => if n then F.invalid else { bits := F.sign false }
  | .fin n m e =>
    if m = 0 then { bits := F.inf n, flags := fDZ }
    else if n then F.invalid
    else
      let o := oddPart 64 m e
      if o.1 = 1 ∧ o.2 % 2 = 0 then F.deliver .rne ftz false 1 (-(o.2 / 2))
      else
        let m' := if e % 2 = 0 then m else 2 * m
        let e' := if e % 2 = 0 then e else e - 1
        let n2 := 2 * (F.fb + m'.log2 + 8)
        let v := 2 * isqrt (2 ^ n2 / m') + 1
        let ve : Int := -(e' / 2) - (n2 / 2 : Nat) - 1
        let l : Int := -((e + m.log2) / 2) - 1
        let u := F.ulpExp l
        let ok (r : Nat) : Bool :=
          match F.value r with
          | .fin false mr er =>
            let k := min er u
            let t := mr * 2 ^ (er - k).toNat
            let d := 2 ^ (u - k).toNat
            -- (t + d) 2^k is at least 1/√x and (t − d) 2^k at most
            leScaled 1 0 ((t + d) * (t + d) * m) (2 * k + e) && leScaled ((t - d) * (t - d) * m) (2 * k + e) 1 0
          | _ => false
        F.apxFlags ftz false v ve (F.pick 1 F.code a ok (F.round .rne false v ve).res.bits)

/-- The product of the 2^(2^−i) for the ones of the fraction's top bits, to `w` bits: `root` is 2^(2^−i) for the next
bit. -/
def expBits : Nat → Nat → Nat → Nat → Nat → Nat
  | 0, _, _, _, acc => acc
  | n + 1, w, f, rt, acc =>
    expBits n w f (isqrt (rt * 2 ^ w)) (if f / 2 ^ n % 2 = 1 then acc * rt / 2 ^ w else acc)

/-- FEXP2 on an F64 or F32 pattern (R124, R125). -/
def Fmt.fexp2 (F : Fmt) (ftz : Bool) (a : Nat) : FRes :=
  let a := F.flushIn ftz a
  let x := F.value a
  match x with
  | .nan b => { bits := F.quiet b, flags := F.snan [x] }
  | .inf n => { bits := if n then F.sign false else F.inf false }
  | .fin n m e =>
    if m = 0 then { bits := (F.round .rne false 1 0).res.bits }
    else
      let lim : Int := if F = fp64 then -1075 else -150
      let k := min e 0
      let v := sumAt k [.fin n m e]
      let one : Int := 2 ^ (0 - k).toNat
      if (F.bias + 1) * one ≤ v then { bits := F.inf false, flags := fOF ||| fNX }
      else if v < lim * one then { bits := F.sign false, flags := fUF ||| fNX }
      else
        let i := v / one
        let f := ((v - i * one) * 2 ^ apxQ / one).toNat
        let w := apxQ + 64
        let y := expBits apxQ w f (isqrt (2 ^ (2 * w + 1))) (2 ^ w)
        let near := (F.round .rne false (2 * y + 1) (i - w - 1)).res.bits
        let u := F.ulpExp i
        let ok (r : Nat) : Bool := F.near r y (i - w) 2 u (2 ^ 72)
        let r := F.apxFlags ftz false (2 * y + 1) (i - w - 1) (F.pick 2 F.code a ok near)
        if v = i * one then F.exactOr ftz false 1 i r else r

/-- The first bits of log2 of `y × 2^−w`, which lies in [1, 2), by squaring. -/
def logBits : Nat → Nat → Nat → Nat → Nat
  | 0, _, _, acc => acc
  | n + 1, w, y, acc =>
    let z := y * y / 2 ^ w
    if 2 ^ (w + 1) ≤ z then logBits n w (z / 2) (2 * acc + 1) else logBits n w z (2 * acc)

/-- FLOG2 on an F64 or F32 pattern (R124, R125). -/
def Fmt.flog2 (F : Fmt) (ftz : Bool) (a : Nat) : FRes :=
  let a := F.flushIn ftz a
  let x := F.value a
  match x with
  | .nan b => { bits := F.quiet b, flags := F.snan [x] }
  | .inf n => if n then F.invalid else { bits := F.inf false }
  | .fin n m e =>
    if m = 0 then { bits := F.inf true, flags := fDZ }
    else if n then F.invalid
    else
      let o := oddPart 64 m e
      if o.1 = 1 then F.deliver .rne ftz (decide (o.2 < 0)) o.2.natAbs 0
      else
        let w := 2 * apxQ + 64
        let i : Int := e + m.log2
        let v : Int := i * 2 ^ apxQ + logBits apxQ w (m * 2 ^ (w - m.log2)) 0
        let l : Int := ((v.natAbs + 4).log2 : Int) - apxQ
        let u := max (F.ulpExp l) (-(F.fb : Int) - 2)
        let near := (F.round .rne (decide (v < 0)) (2 * v + 1).natAbs (-(apxQ : Int) - 1)).res.bits
        let ok (r : Nat) : Bool := F.near r v (-(apxQ : Int)) 2 u 4
        F.apxFlags ftz (decide (v < 0)) v.natAbs (-(apxQ : Int)) (F.pick 3 F.code a ok near)

end Sys2Proof.Machine
end

