-- ==== Sys2Proof/Machine/Integer.lean ====
section
/-! DEFINITION. The integer, logical and address class (spec/03_integer). -/

namespace Sys2Proof.Machine

/-- An instruction of the class that writes D from the operands of a lane (R82, R84). -/
def State.runInt (s : State) (h : Head) (d : Spec) (f : Nat → Word) : State :=
  s.runAlu h d (fun L => { d := some (f L) })

/-- NOP (R64): no effect; the PC moves on. -/
def execNop (_h : Head) (s : State) : Host.Outcome State Fault Refusal :=
  .next (s.advance s.gang)

/-- MOV (R85). -/
def execMov (h : Head) (ty : Ty) (d a : Spec) (imm : BitVec 32) (s : State) : Host.Outcome State Fault Refusal :=
  .next (s.runInt h d fun L => ty.put (ty.src (s.opnd L a imm)))

/-- ADD (R85). -/
def execAdd (h : Head) (ty : Ty) (d a b : Spec) (imm : BitVec 32) (s : State) : Host.Outcome State Fault Refusal :=
  .next (s.runInt h d fun L => ty.put (ty.src (s.opnd L a imm) + ty.src (s.opnd L b imm)))

/-- SUB (R85). -/
def execSub (h : Head) (ty : Ty) (d a b : Spec) (imm : BitVec 32) (s : State) : Host.Outcome State Fault Refusal :=
  .next (s.runInt h d fun L => ty.put (ty.src (s.opnd L a imm) - ty.src (s.opnd L b imm)))

/-- ADDC (R86). -/
def execAddc (h : Head) (ty : Ty) (d a b : Spec) (p : Fin 8) (imm : BitVec 32) (s : State) :
    Host.Outcome State Fault Refusal :=
  .next (s.runAlu h d fun L =>
    let r := addCarry ty.width (s.opnd L a imm) (s.opnd L b imm) (s.predOf L p)
    { d := some (ty.put r.1), preds := [(p, r.2)] })

/-- SUBB (R86). -/
def execSubb (h : Head) (ty : Ty) (d a b : Spec) (p : Fin 8) (imm : BitVec 32) (s : State) :
    Host.Outcome State Fault Refusal :=
  .next (s.runAlu h d fun L =>
    let r := subBorrow ty.width (s.opnd L a imm) (s.opnd L b imm) (s.predOf L p)
    { d := some (ty.put r.1), preds := [(p, r.2)] })

/-- MUL (R89). -/
def execMul (h : Head) (ty : Ty) (d a b : Spec) (imm : BitVec 32) (s : State) : Host.Outcome State Fault Refusal :=
  .next (s.runInt h d fun L => ty.put (ty.src (s.opnd L a imm) * ty.src (s.opnd L b imm)))

/-- MULH (R89): the high n bits of the exact product. -/
def execMulh (h : Head) (ty : Ty) (d a b : Spec) (imm : BitVec 32) (s : State) : Host.Outcome State Fault Refusal :=
  .next (s.runInt h d fun L =>
    ty.put ((ty.src (s.opnd L a imm) * ty.src (s.opnd L b imm)) / (2 ^ ty.width : Nat)))

/-- MAD (R89). -/
def execMad (h : Head) (ty : Ty) (d a b c : Spec) (imm : BitVec 32) (s : State) : Host.Outcome State Fault Refusal :=
  .next (s.runInt h d fun L =>
    ty.put (ty.src (s.opnd L a imm) * ty.src (s.opnd L b imm) + ty.src (s.opnd L c imm)))

/-- MULW (R89): the exact product, of width 2n. -/
def execMulw (h : Head) (ty : Ty) (d a b : Spec) (imm : BitVec 32) (s : State) : Host.Outcome State Fault Refusal :=
  .next (s.runInt h d fun L =>
    extend (2 * ty.width) ty.signed (ty.src (s.opnd L a imm) * ty.src (s.opnd L b imm)))

/-- The quotient of R90, rounded towards zero. -/
def divQ (n : Nat) (x y : Int) : Int := if y = 0 then 2 ^ n - 1 else x.tdiv y

/-- The remainder of R90. -/
def divM (x y : Int) : Int := if y = 0 then x else x - y * x.tdiv y

/-- DIV (R90). -/
def execDiv (h : Head) (ty : Ty) (d a b : Spec) (imm : BitVec 32) (s : State) : Host.Outcome State Fault Refusal :=
  .next (s.runInt h d fun L => ty.put (divQ ty.width (ty.src (s.opnd L a imm)) (ty.src (s.opnd L b imm))))

/-- REM (R90). -/
def execRem (h : Head) (ty : Ty) (d a b : Spec) (imm : BitVec 32) (s : State) : Host.Outcome State Fault Refusal :=
  .next (s.runInt h d fun L => ty.put (divM (ty.src (s.opnd L a imm)) (ty.src (s.opnd L b imm))))

/-- MIN (R87). -/
def execMin (h : Head) (ty : Ty) (d a b : Spec) (imm : BitVec 32) (s : State) : Host.Outcome State Fault Refusal :=
  .next (s.runInt h d fun L => ty.put (min (ty.src (s.opnd L a imm)) (ty.src (s.opnd L b imm))))

/-- MAX (R87). -/
def execMax (h : Head) (ty : Ty) (d a b : Spec) (imm : BitVec 32) (s : State) : Host.Outcome State Fault Refusal :=
  .next (s.runInt h d fun L => ty.put (max (ty.src (s.opnd L a imm)) (ty.src (s.opnd L b imm))))

/-- CLAMP (R87). -/
def execClamp (h : Head) (ty : Ty) (d a b c : Spec) (imm : BitVec 32) (s : State) :
    Host.Outcome State Fault Refusal :=
  .next (s.runInt h d fun L =>
    ty.put (min (max (ty.src (s.opnd L a imm)) (ty.src (s.opnd L b imm))) (ty.src (s.opnd L c imm))))

/-- ABS (R88). -/
def execAbs (h : Head) (ty : Ty) (d a : Spec) (imm : BitVec 32) (s : State) : Host.Outcome State Fault Refusal :=
  .next (s.runInt h d fun L => ty.put (ty.src (s.opnd L a imm)).natAbs)

/-- NEG (R88). -/
def execNeg (h : Head) (ty : Ty) (d a : Spec) (imm : BitVec 32) (s : State) : Host.Outcome State Fault Refusal :=
  .next (s.runInt h d fun L => ty.put (-(ty.src (s.opnd L a imm))))

/-- A pattern of width n extended by a type (R82, R91). -/
def putBits (ty : Ty) (v : Word) : Word := ty.put (zx ty.width v)

/-- AND (R91). -/
def execAnd (h : Head) (ty : Ty) (d a b : Spec) (imm : BitVec 32) (s : State) : Host.Outcome State Fault Refusal :=
  .next (s.runInt h d fun L => putBits ty (s.opnd L a imm &&& s.opnd L b imm))

/-- OR (R91). -/
def execOr (h : Head) (ty : Ty) (d a b : Spec) (imm : BitVec 32) (s : State) : Host.Outcome State Fault Refusal :=
  .next (s.runInt h d fun L => putBits ty (s.opnd L a imm ||| s.opnd L b imm))

/-- XOR (R91). -/
def execXor (h : Head) (ty : Ty) (d a b : Spec) (imm : BitVec 32) (s : State) : Host.Outcome State Fault Refusal :=
  .next (s.runInt h d fun L => putBits ty (s.opnd L a imm ^^^ s.opnd L b imm))

/-- ANDN (R91). -/
def execAndn (h : Head) (ty : Ty) (d a b : Spec) (imm : BitVec 32) (s : State) : Host.Outcome State Fault Refusal :=
  .next (s.runInt h d fun L => putBits ty (s.opnd L a imm &&& ~~~(s.opnd L b imm)))

/-- NOT (R91). -/
def execNot (h : Head) (ty : Ty) (d a : Spec) (imm : BitVec 32) (s : State) : Host.Outcome State Fault Refusal :=
  .next (s.runInt h d fun L => putBits ty (~~~(s.opnd L a imm)))

/-- SHL of R92: a count of n or more gives 0. -/
def shlBits (n : Nat) (v c : Word) : Nat := if n ≤ c.toNat then 0 else zx n v * 2 ^ c.toNat % 2 ^ n

/-- SHR of R92. -/
def shrBits (n : Nat) (v c : Word) : Nat := if n ≤ c.toNat then 0 else zx n v / 2 ^ c.toNat

/-- SAR of R92: bit n − 1 is replicated whatever the type. -/
def sarBits (n : Nat) (v c : Word) : Int := sx n v / (2 ^ Nat.min c.toNat (n - 1) : Nat)

/-- SHL (R92). -/
def execShl (h : Head) (ty : Ty) (d a b : Spec) (imm : BitVec 32) (s : State) : Host.Outcome State Fault Refusal :=
  .next (s.runInt h d fun L => ty.put (shlBits ty.width (s.opnd L a imm) (s.opnd L b imm)))

/-- SHR (R92). -/
def execShr (h : Head) (ty : Ty) (d a b : Spec) (imm : BitVec 32) (s : State) : Host.Outcome State Fault Refusal :=
  .next (s.runInt h d fun L => ty.put (shrBits ty.width (s.opnd L a imm) (s.opnd L b imm)))

/-- SAR (R92). -/
def execSar (h : Head) (ty : Ty) (d a b : Spec) (imm : BitVec 32) (s : State) : Host.Outcome State Fault Refusal :=
  .next (s.runInt h d fun L => ty.put (sarBits ty.width (s.opnd L a imm) (s.opnd L b imm)))

/-- Rotation towards the most significant bit by `c` positions (R93). -/
def rotBits (n : Nat) (v : Word) (c : Nat) : Nat :=
  let x := zx n v
  let k := c % n
  x * 2 ^ k % 2 ^ n + x / 2 ^ (n - k)

/-- ROT.L (R93). -/
def execRotL (h : Head) (ty : Ty) (d a b : Spec) (imm : BitVec 32) (s : State) : Host.Outcome State Fault Refusal :=
  .next (s.runInt h d fun L => ty.put (rotBits ty.width (s.opnd L a imm) (s.opnd L b imm).toNat))

/-- ROT.R (R93). -/
def execRotR (h : Head) (ty : Ty) (d a b : Spec) (imm : BitVec 32) (s : State) : Host.Outcome State Fault Refusal :=
  .next (s.runInt h d fun L =>
    ty.put (rotBits ty.width (s.opnd L a imm) (ty.width - (s.opnd L b imm).toNat % ty.width)))

/-- pos of R94. -/
def ctlPos (n : Nat) (k : Word) : Nat := Nat.min (fld k 6 0) n
/-- len of R94. -/
def ctlLen (n : Nat) (k : Word) : Nat := Nat.min (fld k 14 8) (n - ctlPos n k)

/-- A field of `len` bits as a number under the signedness of a type (R94). -/
def fieldVal (signed : Bool) (len : Nat) (v : Nat) : Int :=
  if len = 0 then 0
  else if signed ∧ 2 * (v % 2 ^ len) ≥ 2 ^ len then (v % 2 ^ len : Nat) - 2 ^ len else (v % 2 ^ len : Nat)

/-- BFX (R94). -/
def execBfx (h : Head) (ty : Ty) (d a b : Spec) (imm : BitVec 32) (s : State) : Host.Outcome State Fault Refusal :=
  .next (s.runInt h d fun L =>
    let k := s.opnd L b imm
    ty.put (fieldVal ty.signed (ctlLen ty.width k) ((s.opnd L a imm).toNat / 2 ^ ctlPos ty.width k)))

/-- BFI of R94 on patterns. -/
def bfiBits (n : Nat) (a base k : Word) : Nat :=
  let m := (2 ^ ctlLen n k - 1) * 2 ^ ctlPos n k
  (zx n base &&& (2 ^ n - 1 - m)) ||| ((a.toNat * 2 ^ ctlPos n k) &&& m)

/-- BFI (R94). -/
def execBfi (h : Head) (ty : Ty) (d a b c : Spec) (imm : BitVec 32) (s : State) : Host.Outcome State Fault Refusal :=
  .next (s.runInt h d fun L => ty.put (bfiBits ty.width (s.opnd L a imm) (s.opnd L b imm) (s.opnd L c imm)))

/-- EXT (R94). -/
def execExt (h : Head) (ty : Ty) (d a b : Spec) (imm : BitVec 32) (s : State) : Host.Outcome State Fault Refusal :=
  .next (s.runInt h d fun L =>
    ty.put (fieldVal ty.signed (Nat.min (s.opnd L b imm).toNat (ty.width - 1) + 1) (s.opnd L a imm).toNat))

/-- The number of ones in the low n bits (R95). -/
def popc (n : Nat) (v : Word) : Nat := ((List.range n).filter (fun i => v.getLsbD i)).length

/-- The number of zeros above the highest one of the low n bits; n when there is none (R95). -/
def clz (n : Nat) (v : Word) : Nat :=
  match (List.range n).find? (fun i => v.getLsbD (n - 1 - i)) with
  | some i => i
  | none => n

/-- The number of zeros below the lowest one of the low n bits; n when there is none (R95). -/
def ctz (n : Nat) (v : Word) : Nat :=
  match (List.range n).find? (fun i => v.getLsbD i) with
  | some i => i
  | none => n

/-- The low n bits in reverse order (R95). -/
def brev (n : Nat) (v : Word) : Nat :=
  (List.range n).foldl (fun r i => 2 * r + (v.getLsbD i).toNat) 0

/-- POPC (R95). -/
def execPopc (h : Head) (ty : Ty) (d a : Spec) (imm : BitVec 32) (s : State) : Host.Outcome State Fault Refusal :=
  .next (s.runInt h d fun L => ty.put (popc ty.width (s.opnd L a imm)))

/-- CLZ (R95). -/
def execClz (h : Head) (ty : Ty) (d a : Spec) (imm : BitVec 32) (s : State) : Host.Outcome State Fault Refusal :=
  .next (s.runInt h d fun L => ty.put (clz ty.width (s.opnd L a imm)))

/-- CTZ (R95). -/
def execCtz (h : Head) (ty : Ty) (d a : Spec) (imm : BitVec 32) (s : State) : Host.Outcome State Fault Refusal :=
  .next (s.runInt h d fun L => ty.put (ctz ty.width (s.opnd L a imm)))

/-- BREV (R95). -/
def execBrev (h : Head) (ty : Ty) (d a : Spec) (imm : BitVec 32) (s : State) : Host.Outcome State Fault Refusal :=
  .next (s.runInt h d fun L => ty.put (brev ty.width (s.opnd L a imm)))

/-- The outcome of a comparison written to D, a predicate or a register (R96, R122). -/
def outcomeEff (d : Spec) (t : Bool) (flags : BitVec 5 := 0) : Eff :=
  match d with
  | .pred p => { preds := [(p, t)], flags := flags }
  | _ => { d := some (if t then 1 else 0), flags := flags }

/-- CMP (R96). -/
def execCmp (h : Head) (cc : Cc) (ty : Ty) (d a b : Spec) (imm : BitVec 32) (s : State) :
    Host.Outcome State Fault Refusal :=
  .next (s.runAlu h d fun L =>
    outcomeEff d (ccHolds cc (ty.src (s.opnd L a imm)) (ty.src (s.opnd L b imm))))

/-- SEL (R97). -/
def execSel (h : Head) (ty : Ty) (d a b : Spec) (p : Fin 8) (imm : BitVec 32) (s : State) :
    Host.Outcome State Fault Refusal :=
  .next (s.runInt h d fun L => ty.put (ty.src (s.opnd L (if s.predOf L p then a else b) imm)))

/-- The permutation of R98. -/
def prmt (a b sel : Word) : Word :=
  let pool : BitVec 128 := b ++ a
  (List.range 8).foldl (fun r i =>
    let j := fld sel (4 * i + 3) (4 * i)
    r ||| ((pool.extractLsb' (8 * j) 8).setWidth 64 <<< (8 * i))) 0

/-- PRMT (R98). -/
def execPrmt (h : Head) (d a b c : Spec) (imm : BitVec 32) (s : State) : Host.Outcome State Fault Refusal :=
  .next (s.runInt h d fun L => prmt (s.opnd L a imm) (s.opnd L b imm) (s.opnd L c imm))

/-- LEA (R99): relative to the line of its own PC. -/
def execLea (h : Head) (d : Spec) (imm : BitVec 32) (s : State) : Host.Outcome State Fault Refusal :=
  .next (s.runInt h d fun _ => (s.cur.pc &&& ~~~(0x3F#64)) + imm.signExtend 64)

/-- The hash mix of R100. -/
def hmix (a b : BitVec 32) : BitVec 32 :=
  let x := a ^^^ b
  let x := x ^^^ (x >>> 16)
  let x := x * 0xB4E39A6D#32
  let x := x ^^^ (x >>> 15)
  let x := x * 0x6C8E2F53#32
  x ^^^ (x >>> 16)

/-- HMIX (R100). -/
def execHmix (h : Head) (d a b : Spec) (imm : BitVec 32) (s : State) : Host.Outcome State Fault Refusal :=
  .next (s.runInt h d fun L =>
    (hmix ((s.opnd L a imm).setWidth 32) ((s.opnd L b imm).setWidth 32)).setWidth 64)

/-- The operations of PLOG (R101). -/
def plogVal (o : PlogOp) (a b : Bool) : Bool :=
  match o with
  | .and => a && b | .or => a || b | .xor => a != b | .andn => a && !b | .orn => a || !b | .xnor => a == b
  | .nand => !(a && b) | .nor => !(a || b)

/-- PLOG (R101). -/
def execPlog (h : Head) (o : PlogOp) (pd pa pb : Fin 8) (s : State) : Host.Outcome State Fault Refusal :=
  .next (s.runAlu h .zero fun L => { preds := [(pd, plogVal o (s.predOf L pa) (s.predOf L pb))] })

/-- The predicates that PMOV names in an instruction of the issue: in a lane that runs the consumer's handler, and in an
instruction of the consumer in a fused launch, the raised ones (R413, R423). -/
def State.pmovOff (s : State) (L : Nat) : Nat :=
  if (s.cl L).handler then (s.offsOf s.cw (s.cl L)).p
  else match (s.launch s.cw.launch).splice with
    | some p => if s.cur.origin = 2 then p.offP else 0
    | none => 0

/-- PMOV.GET (R102, R423). -/
def execPmovGet (h : Head) (d : Spec) (s : State) : Host.Outcome State Fault Refusal :=
  .next (s.runInt h d fun L => (((s.cl L).preds >>> s.pmovOff L).setWidth 64) ||| 0x80#64)

/-- PMOV.SET (R102, R423). -/
def execPmovSet (h : Head) (a : Spec) (imm : BitVec 32) (s : State) : Host.Outcome State Fault Refusal :=
  let act := s.active h
  let v (L : Nat) : BitVec 7 :=
    (s.opnd (if h.u then act.headD L else L) a imm).setWidth 7 <<< s.pmovOff L
  let m (L : Nat) : BitVec 7 := BitVec.allOnes 7 <<< s.pmovOff L
  let s' := act.foldl (fun t L =>
    t.updLane s.cur.wid L (fun l => { l with preds := (l.preds &&& ~~~(m L)) ||| v L })) s
  .next (s'.advance s.gang)

end Sys2Proof.Machine
end

