-- ==== Sys2Proof/Machine/FloatOps.lean ====
section
/-! DEFINITION. The floating-point class (spec/04_float). -/

namespace Sys2Proof.Machine

/-- The element format of a TY (R104). -/
def fmtOf (ty : Ty) : Fmt :=
  match ty with
  | .f32 => fp32
  | .h4 => fp16
  | .b4 => bf16
  | _ => fp64

/-- Does the TY hold four elements (R104)? -/
def packedTy (ty : Ty) : Bool := decide (ty = .h4) || decide (ty = .b4)

/-- `Elem(v, k)` (R104). -/
def elemOf (ty : Ty) (v : Word) (k : Nat) : Nat := v.toNat / 2 ^ ((fmtOf ty).width * k) % 2 ^ (fmtOf ty).width

/-- The effect of an instruction whose result is computed element by element; the flags are ORed (R104, R112). -/
def elemEff (ty : Ty) (f : Nat → FRes) : Eff :=
  if packedTy ty then
    let r0 := f 0
    let r1 := f 1
    let r2 := f 2
    let r3 := f 3
    { d := some (BitVec.ofNat 64 (r0.bits + 2 ^ 16 * r1.bits + 2 ^ 32 * r2.bits + 2 ^ 48 * r3.bits))
      flags := r0.flags ||| r1.flags ||| r2.flags ||| r3.flags }
  else
    let r := f 0
    { d := some (BitVec.ofNat 64 r.bits), flags := r.flags }

/-- The rounding mode of an instruction in a lane (R107). -/
def State.rmOf (s : State) (L : Nat) (rm : Rm) : Rm := resolveRm rm (s.cl L).fmode

/-- FTZ of a lane (R111). -/
def State.ftz (s : State) (L : Nat) : Bool := ftzOf (s.cl L).fmode

/-- An instruction of one operand, element by element; the function takes the mode and FTZ (R116). -/
def State.runF1 (s : State) (h : Head) (ty : Ty) (rm : Rm) (d a : Spec) (imm : BitVec 32)
    (f : Rm → Bool → Nat → FRes) : State :=
  s.runAlu h d fun L => elemEff ty fun k => f (s.rmOf L rm) (s.ftz L) (elemOf ty (s.opnd L a imm) k)

/-- An instruction of two operands, element by element (R116). -/
def State.runF2 (s : State) (h : Head) (ty : Ty) (rm : Rm) (d a b : Spec) (imm : BitVec 32)
    (f : Rm → Bool → Nat → Nat → FRes) : State :=
  s.runAlu h d fun L => elemEff ty fun k =>
    f (s.rmOf L rm) (s.ftz L) (elemOf ty (s.opnd L a imm) k) (elemOf ty (s.opnd L b imm) k)

/-- FADD (R118). -/
def execFadd (h : Head) (ty : Ty) (rm : Rm) (d a b : Spec) (imm : BitVec 32) (s : State) :
    Host.Outcome State Fault Refusal :=
  .next (s.runF2 h ty rm d a b imm (fmtOf ty).add)

/-- FSUB (R118). -/
def execFsub (h : Head) (ty : Ty) (rm : Rm) (d a b : Spec) (imm : BitVec 32) (s : State) :
    Host.Outcome State Fault Refusal :=
  .next (s.runF2 h ty rm d a b imm (fmtOf ty).sub)

/-- FMUL (R118). -/
def execFmul (h : Head) (ty : Ty) (rm : Rm) (d a b : Spec) (imm : BitVec 32) (s : State) :
    Host.Outcome State Fault Refusal :=
  .next (s.runF2 h ty rm d a b imm (fmtOf ty).mul)

/-- FFMA (R118). -/
def execFfma (h : Head) (ty : Ty) (rm : Rm) (d a b c : Spec) (imm : BitVec 32) (s : State) :
    Host.Outcome State Fault Refusal :=
  .next (s.runAlu h d fun L => elemEff ty fun k =>
    (fmtOf ty).fma (s.rmOf L rm) (s.ftz L) (elemOf ty (s.opnd L a imm) k) (elemOf ty (s.opnd L b imm) k)
      (elemOf ty (s.opnd L c imm) k))

/-- FDIV (R119). -/
def execFdiv (h : Head) (ty : Ty) (rm : Rm) (d a b : Spec) (imm : BitVec 32) (s : State) :
    Host.Outcome State Fault Refusal :=
  .next (s.runF2 h ty rm d a b imm (fmtOf ty).div)

/-- FSQRT (R119). -/
def execFsqrt (h : Head) (ty : Ty) (rm : Rm) (d a : Spec) (imm : BitVec 32) (s : State) :
    Host.Outcome State Fault Refusal :=
  .next (s.runF1 h ty rm d a imm (fmtOf ty).sqrt)

/-- FMIN (R120). -/
def execFmin (h : Head) (ty : Ty) (d a b : Spec) (imm : BitVec 32) (s : State) : Host.Outcome State Fault Refusal :=
  .next (s.runF2 h ty .rne d a b imm fun _ => (fmtOf ty).minmax false)

/-- FMAX (R120). -/
def execFmax (h : Head) (ty : Ty) (d a b : Spec) (imm : BitVec 32) (s : State) : Host.Outcome State Fault Refusal :=
  .next (s.runF2 h ty .rne d a b imm fun _ => (fmtOf ty).minmax true)

/-- The pattern with its sign bit replaced (R121). -/
def Fmt.withSign (F : Fmt) (a : Nat) (neg : Bool) : FRes := { bits := a % 2 ^ (F.eb + F.fb) + F.sign neg }

/-- FABS (R121). -/
def execFabs (h : Head) (ty : Ty) (d a : Spec) (imm : BitVec 32) (s : State) : Host.Outcome State Fault Refusal :=
  .next (s.runF1 h ty .rne d a imm fun _ _ x => (fmtOf ty).withSign x false)

/-- FNEG (R121). -/
def execFneg (h : Head) (ty : Ty) (d a : Spec) (imm : BitVec 32) (s : State) : Host.Outcome State Fault Refusal :=
  .next (s.runF1 h ty .rne d a imm fun _ _ x => (fmtOf ty).withSign x !(fmtOf ty).neg x)

/-- The sign that FCPS gives (R121). -/
def cpsSign (o : CpsOp) (sa sb : Bool) : Bool :=
  match o with
  | .copy => sb
  | .ncopy => !sb
  | .xsgn => sa != sb

/-- FCPS (R121). -/
def execFcps (h : Head) (o : CpsOp) (ty : Ty) (d a b : Spec) (imm : BitVec 32) (s : State) :
    Host.Outcome State Fault Refusal :=
  .next (s.runF2 h ty .rne d a b imm fun _ _ x y =>
    (fmtOf ty).withSign x (cpsSign o ((fmtOf ty).neg x) ((fmtOf ty).neg y)))

/-- FCMP (R122): a predicate or 1 and 0 for one element, masks for four. -/
def execFcmp (h : Head) (cc : FCc) (ty : Ty) (d a b : Spec) (imm : BitVec 32) (s : State) :
    Host.Outcome State Fault Refusal :=
  let F := fmtOf ty
  let t (L k : Nat) : Bool × BitVec 5 :=
    F.cmp cc (s.ftz L) (elemOf ty (s.opnd L a imm) k) (elemOf ty (s.opnd L b imm) k)
  .next (s.runAlu h d fun L =>
    if packedTy ty then elemEff ty fun k => { bits := if (t L k).1 then 0xFFFF else 0, flags := (t L k).2 }
    else outcomeEff d (t L 0).1 (t L 0).2)

/-- FCLASS (R123). -/
def execFclass (h : Head) (ty : Ty) (d a : Spec) (imm : BitVec 32) (s : State) : Host.Outcome State Fault Refusal :=
  .next (s.runF1 h ty .rne d a imm fun _ _ x => { bits := (fmtOf ty).classOf x })

/-- An approximation: of an F64 or F32 element itself, of a 16-bit element through F32 (R124).  The flags of the two
steps are ORed (DEDUCED). -/
def approxElem (ty : Ty) (f : Fmt → Bool → Nat → FRes) (ftz : Bool) (a : Nat) : FRes :=
  let F := fmtOf ty
  if packedTy ty then
    let w := cvt F fp32 .rne false a
    let r := f fp32 false w.bits
    let n := cvt fp32 F .rne false r.bits
    { bits := n.bits, flags := w.flags ||| r.flags ||| n.flags }
  else f F ftz a

/-- FRCP (R124, R125). -/
def execFrcp (h : Head) (ty : Ty) (d a : Spec) (imm : BitVec 32) (s : State) : Host.Outcome State Fault Refusal :=
  .next (s.runF1 h ty .rne d a imm fun _ => approxElem ty Fmt.frcp)

/-- FRSQ (R124, R125). -/
def execFrsq (h : Head) (ty : Ty) (d a : Spec) (imm : BitVec 32) (s : State) : Host.Outcome State Fault Refusal :=
  .next (s.runF1 h ty .rne d a imm fun _ => approxElem ty Fmt.frsq)

/-- FEXP2 (R124, R125). -/
def execFexp2 (h : Head) (ty : Ty) (d a : Spec) (imm : BitVec 32) (s : State) : Host.Outcome State Fault Refusal :=
  .next (s.runF1 h ty .rne d a imm fun _ => approxElem ty Fmt.fexp2)

/-- FLOG2 (R124, R125). -/
def execFlog2 (h : Head) (ty : Ty) (d a : Spec) (imm : BitVec 32) (s : State) : Host.Outcome State Fault Refusal :=
  .next (s.runF1 h ty .rne d a imm fun _ => approxElem ty Fmt.flog2)

/-- FCVT (R126): between scalars or packed words of one size, of a scalar into one element, or of one element into a
scalar. -/
def execFcvt (h : Head) (sty ty : Ty) (rm : Rm) (d a b : Spec) (imm : BitVec 32) (s : State) :
    Host.Outcome State Fault Refusal :=
  let k := fld imm 1 0
  .next (s.runAlu h d fun L =>
    let c (x : Nat) : FRes := cvt (fmtOf sty) (fmtOf ty) (s.rmOf L rm) (s.ftz L) x
    let va := s.opnd L a imm
    match packedTy sty, packedTy ty with
    | false, true =>
      let r := c (elemOf sty va 0)
      let base := s.opnd L b imm
      elemEff ty fun j => if j = k then r else { bits := elemOf ty base j }
    | true, false =>
      let r := c (elemOf sty va k)
      { d := some (BitVec.ofNat 64 r.bits), flags := r.flags }
    | _, _ => elemEff ty fun j => c (elemOf sty va j))

/-- FTOI (R127). -/
def execFtoi (h : Head) (sty ty : Ty) (rm : Rm) (d a : Spec) (imm : BitVec 32) (s : State) :
    Host.Outcome State Fault Refusal :=
  .next (s.runAlu h d fun L =>
    let r := (fmtOf sty).toInt ty (s.rmOf L rm) (s.ftz L) (elemOf sty (s.opnd L a imm) 0)
    { d := some (ty.put r.1), flags := r.2 })

/-- ITOF (R128). -/
def execItof (h : Head) (sty ty : Ty) (rm : Rm) (d a : Spec) (imm : BitVec 32) (s : State) :
    Host.Outcome State Fault Refusal :=
  .next (s.runAlu h d fun L =>
    elemEff ty fun _ => (fmtOf ty).ofInt (s.rmOf L rm) (s.ftz L) (sty.src (s.opnd L a imm)))

/-- FRND (R129). -/
def execFrnd (h : Head) (ty : Ty) (rm : Rm) (d a : Spec) (imm : BitVec 32) (s : State) :
    Host.Outcome State Fault Refusal :=
  .next (s.runF1 h ty rm d a imm (fmtOf ty).rint)

/-- FSCL (R130). -/
def execFscl (h : Head) (ty : Ty) (rm : Rm) (d a b : Spec) (imm : BitVec 32) (s : State) :
    Host.Outcome State Fault Refusal :=
  .next (s.runAlu h d fun L => elemEff ty fun k =>
    (fmtOf ty).scale (s.rmOf L rm) (s.ftz L) (elemOf ty (s.opnd L a imm) k) (s.opnd L b imm).toInt)

/-- FDOT (R131). -/
def execFdot (h : Head) (ty : Ty) (rm : Rm) (d a b c : Spec) (imm : BitVec 32) (s : State) :
    Host.Outcome State Fault Refusal :=
  .next (s.runAlu h d fun L =>
    let els (x : Spec) : List Nat := (List.range 4).map (elemOf ty (s.opnd L x imm))
    elemEff .f32 fun _ => (fmtOf ty).dot (s.rmOf L rm) (s.ftz L) (els a) (els b) (elemOf .f32 (s.opnd L c imm) 0))

end Sys2Proof.Machine
end

