-- ==== Sys2Proof/Machine/Access.lean ====
section
/-! DEFINITION. How an instruction reaches memory: translation through the core's TLB, rights, formats and alignment, the
choice between a local access, a remote request, a leased copy and a migration, and the messages that go to the homes
(spec/07_memory R183 to R190, R206, R207; spec/08_ordering R219 to R223). -/

namespace Sys2Proof.Machine

/-! ### Translation at a core -/

/-- The 64 KiB page of a virtual address (R183). -/
def pageOf (va : Nat) : Nat := va / 65536

/-- The leaf a TLB holds for an address (R183). -/
def State.tlbHit (s : State) (core dom va : Nat) : Option Leaf :=
  (s.tlb.find? (fun t => t.core = core && t.dom = dom && t.page = pageOf va)).map (·.leaf)

/-- A virtual address translated for a core (R182, R183): through its TLB; by the outcome of a walk that failed; else by
the walk that the TLB has not made. -/
def State.xlateAny (s : State) (core dom va : Nat) : Walked :=
  match s.tlbHit core dom va with
  | some f => .ok f
  | none =>
    match s.walkFails.find? (fun f => f.core = core && f.dom = dom && f.page = pageOf va) with
    | some f => .fail f.sub
    | none => s.walk dom va

/-- The same for an access, which fails where the leaf's peer package cannot be reached (R444). -/
def State.xlate (s : State) (core dom va : Nat) : Walked :=
  match s.xlateAny core dom va with
  | .ok f => if s.peerUp f then .ok f else .fail 0x05
  | .fail c => .fail c

/-- A translation by the issuing warp that is no access: of a target or an address of which only the home is asked (R216,
R286, R289). -/
def State.trAny (s : State) (va : Word) : Walked := s.xlateAny s.cw.core s.cw.dom va.toNat

/-- A translation at the core and in the domain of the issue in progress. -/
def State.tr (s : State) (va : Word) : Walked := s.xlate s.cw.core s.cw.dom va.toNat

/-- A PAGE event (R182, R257): kind 0 on a read, 1 on a write, 2 on a fetch. -/
def pageEvent (sub : BitVec 8) (va : Word) (kind : Nat) : Event := { cause := 0x06, sub := sub, addr := va, kind := kind }
/-- A PROTECTION event (R184). -/
def protEvent (sub : BitVec 8) (va : Word) : Event := { cause := 0x07, sub := sub, addr := va }
/-- A FORMAT_ACCESS event (R187). -/
def formatEvent (sub : BitVec 8) (va : Word) : Event := { cause := 0x08, sub := sub, addr := va }
/-- An ALIGN event (R207). -/
def alignEvent (sub : BitVec 8) (va : Word) : Event := { cause := 0x05, sub := sub, addr := va }
/-- A SCRATCH_BOUNDS event (R194). -/
def scratchEvent (sub : BitVec 8) (va : Word) : Event := { cause := 0x04, sub := sub, addr := va }

/-- Is the line of an address local to a core (R185)? -/
def isLocal (core : Nat) (f : Leaf) (va : Word) : Bool := !f.remote && decide (homeOf (f.key va.toNat) = core)

/-- Does the access follow the roaming column of R185? -/
def State.roams (s : State) (h : Head) (L : Nat) : Bool := s.cw.roaming && !(s.cl L).handler && !h.u

/-! ### Formats (R187 to R190, R207) -/

/-- The size of a load of a TY on a page of a format; none when the page does not permit it (R187, R207). -/
def loadSize (fmt : Nat) (ty : Ty) : Option Nat :=
  if fmt = 0 then some ty.size
  else if fmt ≤ 2 then
    match ty with
    | .i8 | .n8 | .f32 => some 1
    | .b4 => some 4
    | _ => none
  else if fmt ≤ 9 then (if ty = .f32 then some 4 else none)
  else if fmt = 10 then (if ty = .b4 then some 8 else none)
  else if fmt = 11 then (if ty = .h4 then some 8 else none)
  else if fmt = 12 then (if ty = .f32 then some 4 else none)
  else none

/-- The size of a store of a TY on a page of a format (R187, R207). -/
def storeSize (fmt : Nat) (ty : Ty) : Option Nat := if fmt ≤ 2 then loadSize fmt ty else none

/-- An FP8 byte decoded into a wider format (R188). -/
def fp8Decode (e5 : Bool) (G : Fmt) (b : Nat) : Nat :=
  let neg := decide (b / 128 % 2 = 1)
  let fb : Nat := if e5 then 2 else 3
  let e := b % 128 / 2 ^ fb
  let m := b % 2 ^ fb
  let q : Int := if e5 then -16 else -9
  if e5 ∧ e = 31 ∧ m = 0 then G.inf neg
  else if (if e5 then e = 31 else b % 128 = 127) then G.quiet (G.infBits + m * 2 ^ (G.fb - fb) + G.sign neg)
  else if e = 0 then (G.deliver .rne false neg m q).bits
  else (G.deliver .rne false neg (2 ^ fb + m) (q + (e - 1 : Nat))).bits

/-- A value encoded into an FP8 byte in RNE, saturating (R188). -/
def fp8Encode (e5 : Bool) (F : Fmt) (a : Nat) : Nat :=
  let fb : Nat := if e5 then 2 else 3
  let qmin : Int := if e5 then -16 else -9
  let top : Nat := if e5 then 0x7B else 0x7E
  match F.value a with
  | .nan _ => (if e5 then 0x7E else 0x7F) + (if F.neg a then 128 else 0)
  | .inf n => (if e5 then 0x7C else 0x7E) + (if n then 128 else 0)
  | .fin n m e =>
    let q : Int := max (e + m.log2 - fb) qmin
    let sig := if q ≤ e then m * 2 ^ (e - q).toNat else roundShift .rne n m (q - e).toNat
    Nat.min top (sig + (q - qmin).toNat * 2 ^ fb) + (if n then 128 else 0)

/-- The bytes that a store of a value writes on a page of a format (R188, R207). -/
def storeBytes (fmt : Nat) (ty : Ty) (v : Word) : List Byte :=
  let e5 := decide (fmt = 2)
  if fmt = 0 then leBytes ty.size v.toNat
  else
    match ty with
    | .f32 => [BitVec.ofNat 8 (fp8Encode e5 fp32 (v.toNat % 2 ^ 32))]
    | .b4 => (List.range 4).map (fun k => BitVec.ofNat 8 (fp8Encode e5 bf16 (elemOf .b4 v k)))
    | _ => leBytes 1 v.toNat

/-- How a load's bytes are put into its register (R82, R188, R207). -/
def loadPut (fmt : Nat) (ty : Ty) : PutAs :=
  if fmt = 0 then putAsOf ty
  else
    match ty with
    | .f32 => if fmt ≤ 2 then .f8F32 (fmt = 2) else .raw
    | .b4 => if fmt ≤ 2 then .f8B4 (fmt = 2) else .raw
    | .h4 => .raw
    | _ => .int ty

/-- The value that a register takes from loaded bytes. -/
def PutAs.apply (p : PutAs) (v : Word) : Word :=
  match p with
  | .raw => v
  | .int ty => ty.put (ty.src v)
  | .f8F32 e5 => BitVec.ofNat 64 (fp8Decode e5 fp32 (v.toNat % 256))
  | .f8B4 e5 =>
    (List.range 4).foldl (fun r k =>
      r ||| (BitVec.ofNat 64 (fp8Decode e5 bf16 (v.toNat / 2 ^ (8 * k) % 256)) <<< (16 * k))) 0

/-- Elements of a block of a BFP or BMV page (R181). -/
def Leaf.blkElems (f : Leaf) : Nat := if f.fmt ≤ 9 then 16 * 2 ^ f.blk else 64 * 2 ^ f.blk
/-- Bytes of a value of a BMV page (R187). -/
def bmvBytes (fmt : Nat) : Nat := if fmt = 12 then 4 else 2
/-- Mantissa bits of a BFP page (R181). -/
def Leaf.mant (f : Leaf) : Nat := f.fmt - 1
/-- V of a BMV page (R189). -/
def Leaf.bmvV (f : Leaf) : Nat := (f.dens + 1) * f.blkElems / 8
/-- Bytes of a block's slot (R189). -/
def Leaf.slotBytes (f : Leaf) : Nat :=
  if f.fmt ≤ 9 then 8 + f.blkElems * f.mant / 8 else 8 + f.blkElems / 8 + f.bmvV * bmvBytes f.fmt
/-- L of R187 for a BFP or BMV page. -/
def elemBytes (fmt : Nat) : Nat := if fmt ≤ 9 then 4 else bmvBytes fmt
/-- The element a decoding load names, by its address (R190). -/
def elemIndex (f : Leaf) (va : Nat) : Nat := va % 65536 / elemBytes f.fmt
/-- The virtual address of the block that holds the element (R190). -/
def blockVa (f : Leaf) (va : Nat) : Nat := va / 65536 * 65536 + elemIndex f va / f.blkElems * f.slotBytes

/-! ### Accesses of an issue -/

/-- What becomes of one lane's access. -/
inductive Acc where
  | trap (e : Event)
  | migrate (home : Nat)    -- R197
  | go (f : Leaf)
  deriving DecidableEq, Repr

/-- A write right and format check on a leaf (R184, R187). -/
def storeCheck (f : Leaf) (ty : Ty) (va : Word) : Option Event :=
  if ¬f.w then some (protEvent 0x02 va)
  else
    match storeSize f.fmt ty with
    | none => some (formatEvent 0x01 va)
    | some n => if va.toNat % n ≠ 0 then some (alignEvent 0x01 va) else none

/-- A read right and format check on a leaf, with the bounds of a block (R184, R187, R190, R207). -/
def loadCheck (f : Leaf) (ty : Ty) (va : Word) : Option Event :=
  if ¬f.r then some (protEvent 0x01 va)
  else
    match loadSize f.fmt ty with
    | none => some (formatEvent 0x01 va)
    | some n =>
      if va.toNat % n ≠ 0 then some (alignEvent 0x01 va)
      else if 3 ≤ f.fmt ∧ 65536 / f.slotBytes ≤ elemIndex f va.toNat / f.blkElems then some (formatEvent 0x02 va)
      else none

/-- An access by load: its checks in order, then where it is served (R185, R209).  `mig` says that the W = 1 rows of LD
apply; a decoding load migrates to the home of its block's first line. -/
def State.loadAcc (s : State) (h : Head) (L : Nat) (ty : Ty) (va : Word) (mig : Bool) : Acc :=
  match s.tr va with
  | .fail c => .trap (pageEvent c va 0)
  | .ok f =>
    match loadCheck f ty va with
    | some e => .trap e
    | none =>
      let at' : Word := if 3 ≤ f.fmt then BitVec.ofNat 64 (blockVa f va.toNat) else va
      if mig ∧ s.roams h L ∧ f.w ∧ ¬isLocal s.cw.core f at' then .migrate (homeOf (f.key at'.toNat)) else .go f

/-- An access by store (R185, R209). -/
def State.storeAcc (s : State) (h : Head) (L : Nat) (ty : Ty) (va : Word) (mig : Bool) : Acc :=
  match s.tr va with
  | .fail c => .trap (pageEvent c va 1)
  | .ok f =>
    match storeCheck f ty va with
    | some e => .trap e
    | none =>
      if mig ∧ s.roams h L ∧ ¬isLocal s.cw.core f va then .migrate (homeOf (f.key va.toNat)) else .go f

/-- An access to a PLAIN page with given rights, by an instruction that never migrates: R and W as asked, then the
format, then the alignment (R184, R187, R207, R277). -/
def State.plainAcc (s : State) (va : Word) (size kind : Nat) (r w : Bool) : Acc :=
  match s.tr va with
  | .fail c => .trap (pageEvent c va kind)
  | .ok f =>
    if r ∧ ¬f.r then .trap (protEvent 0x01 va)
    else if w ∧ ¬f.w then .trap (protEvent 0x02 va)
    else if f.fmt ≠ 0 then .trap (formatEvent 0x01 va)
    else if va.toNat % size ≠ 0 then .trap (alignEvent 0x01 va)
    else .go f

/-- Where a register specifier's result will be written (R49, R55, R76, R245). -/
def State.dstOf (s : State) (L : Nat) (d : Spec) : Dst :=
  let l := s.cl L
  let o := s.offsOf s.cw l
  match d with
  | .win k => .phys (l.phys k.val)
  | .sca k => if l.handler ∧ k.val = 63 then .none else .sca (k.val + o.s)
  | .grp k => .grp (k.val + o.g)
  | .pred p => if p.val = 7 then .none else .pred (p.val + o.p)
  | _ => .none

/-- The same for a lane of several that share a scalar or group-shared destination: the highest lane writes it (R9,
R54). -/
def State.dstOfLast (s : State) (L : Nat) (last : Bool) (d : Spec) : Dst :=
  match d with
  | .sca _ | .grp _ => if last then s.dstOf L d else .none
  | _ => s.dstOf L d

/-- Where a lane's governed result goes (R55). -/
def State.retFor (s : State) (L : Nat) (dst : Dst) (put : PutAs) (finish : Bool := false) : Ret :=
  { wid := s.cur.wid, tid := (s.cl L).tid, lane := L, dst := dst, put := put, finish := finish, serial := s.cur.serial }

/-- The lanes that share the one result of an instruction with U (R54, R115). -/
def sharers (h : Head) (act : List Nat) : List Nat := if h.u then act else []

/-- The answer of an instruction with U concerns every guarded lane (R54, R115). -/
def Ret.shared (r : Ret) (s : State) (ls : List Nat) : Ret :=
  if ls = [] then r else { r with share := maskOf ls, others := ls.map (fun L => (s.cl L).tid) }

/-- A request of a lane to the home of a memory key (R220). -/
def State.request (s : State) (L : Nat) (key : Nat) (req : Req) (ret : Option Ret) : State :=
  let w := s.cw
  let l := s.cl L
  let m : Msg :=
    { serial := s.serial, src := w.core, home := homeOf key, addr := key, req := req, ret := ret, wid := s.cur.wid,
      tid := l.tid, dom := w.dom, launch := w.launch, lane := L, cmax := l.cmaxs, pc := s.cur.pc, word := s.cur.word,
      issue := s.cur.serial }
  let s := { s with net := s.net ++ [m], serial := s.serial + 1 }
  if m.writes then s.dropLease w.core (lineOf key) else s

/-- An answer that is already at the core. -/
def State.answer (s : State) (ret : Ret) (vals : List Word) (flags : BitVec 5 := 0) : State :=
  { s with answers := s.answers ++ [{ ret := ret, vals := vals, flags := flags }] }

/-- The valid copy of a line that a core's lease cache holds for a thread (R186, R223): none while a write of the core to
the line is under way, and none that the thread has written over since it was granted (R205, R220). -/
def State.leaseHit (s : State) (core line : Nat) (tid : Nat := 0) : Option Lease :=
  if s.net.any (fun m => m.writes && decide (m.src = core) && decide (lineOf m.addr = line)) then none
  else s.leases.find? (fun l =>
    l.core = core && l.line = line && decide (s.localTime core + l.skew < l.till) && !l.newer.contains tid)

/-- Is a leased read of a leaf served by a grant, and not as a remote read (R185, R225)? -/
def State.leasable (s : State) (f : Leaf) : Bool := f.cls ≠ 0 && !(f.remote && s.host.skewFault)

/-- The words that bytes hold, eight bytes a word. -/
def wordsOf (bs : List Byte) : List Word := (chunks 8 (bs.length + 1) bs).map (fun c => BitVec.ofNat 64 (leNat c))

/-- A read of `n` bytes sent on its way (R185): a local line and a remote read to the home, a leased read from a valid
copy or by a grant. -/
def State.readFor (s : State) (L : Nat) (f : Leaf) (va : Word) (n : Nat) (leased : Bool) (ret : Ret) : State :=
  let key := f.key va.toNat
  let core := s.cw.core
  if leased ∧ s.leasable f ∧ ¬isLocal core f va then
    match s.leaseHit core (lineOf key) (s.cl L).tid with
    | some c => s.answer ret (wordsOf ((c.bytes.drop (key % 64)).take n))
    | none => s.request L key (.grant n f.cls) (some ret)
  else s.request L key (.read n) (some ret)

/-- A lane that stops to migrate (R197 step 1): its departure follows. -/
def State.migrateLane (s : State) (i : Instr) (L home : Nat) : State :=
  s.updLane s.cur.wid L (fun l =>
    { l with st := .departing,
             wait := some { instr := i, word := s.cur.word, gang := s.cur.gang, serial := s.cur.serial,
                            dl := BitVec.ofNat 64 home } })

/-- The lanes that an instruction executes for: the active lanes, or with U the lowest of them (R54, R81). -/
def execFor (h : Head) (act : List Nat) : List Nat := if h.u then act.take 1 else act

/-- The lanes that share the fate of a lane: with U, every guarded lane (R54). -/
def fateOf (h : Head) (act : List Nat) (L : Nat) : List Nat := if h.u then act else [L]

/-- The lanes that trap with their events. -/
def failsOf (h : Head) (act : List Nat) (acc : Nat → Acc) : List (Nat × Event) :=
  (execFor h act).flatMap (fun L => match acc L with
    | .trap e => (fateOf h act L).map (fun K => (K, e))
    | _ => [])

/-- The lanes whose access goes on, with their leaves. -/
def goesOf (h : Head) (act : List Nat) (acc : Nat → Acc) : List (Nat × Leaf) :=
  (execFor h act).filterMap (fun L => match acc L with | .go f => some (L, f) | _ => none)

/-- The lanes that migrate, with their destinations. -/
def migrantsOf (h : Head) (act : List Nat) (acc : Nat → Acc) : List (Nat × Nat) :=
  (execFor h act).filterMap (fun L => match acc L with | .migrate k => some (L, k) | _ => none)

/-- AN INSTRUCTION THAT ACCESSES MEMORY LANE BY LANE (R9, R11): each lane's access is judged alone; those that go on have
the effect, in ascending lane order, and move on; those that migrate stop; those that fail trap. -/
def State.runAccess (s : State) (h : Head) (i : Instr) (acc : Nat → Acc) (eff : State → Nat → Leaf → Bool → State) :
    State :=
  let act := s.active h
  let goes := goesOf h act acc
  let last := goes.getLast?.map (·.1)
  let s1 := goes.foldl (fun t g => eff t g.1 g.2 (last == some g.1)) s
  let s2 := (s1.skipIdle h).advance (goes.flatMap (fun g => fateOf h act g.1))
  let s3 := (migrantsOf h act acc).foldl (fun t m => t.migrateLane i m.1 m.2) s2
  s3.raise (failsOf h act acc)

/-- The same for one whose lanes wait after the effect (R133). -/
def State.runAccessWait (s : State) (h : Head) (i : Instr) (acc : Nat → Acc) (phase : Phase) (dl : Nat → Word)
    (eff : State → Nat → Leaf → Bool → State) : State :=
  let act := s.active h
  let goes := goesOf h act acc
  let last := goes.getLast?.map (·.1)
  let s1 := goes.foldl (fun t g => eff t g.1 g.2 (last == some g.1)) s
  let s2 := (s1.skipIdle h).waitIn (goes.flatMap (fun g => fateOf h act g.1)) i phase dl
  let s3 := (migrantsOf h act acc).foldl (fun t m => t.migrateLane i m.1 m.2) s2
  s3.raise (failsOf h act acc)

/-- All of a lane's accesses to consecutive words of its spill area, in ascending order: the first failing one decides
(R143, R159). -/
def State.spillAcc (s : State) (va : Nat → Word) (kind : Nat) (r w : Bool) : Option Event :=
  (List.range 24).findSome? (fun j => match s.plainAcc (va j) 8 kind r w with | .trap e => some e | _ => none)

end Sys2Proof.Machine
end

