-- ==== Sys2Proof/Machine/Fetch.lean ====
section
/-! DEFINITION. Instruction lines as the device reads them: the checks of a line and of a transfer target (spec/02_words
R35 to R45, R62, R66). -/

namespace Sys2Proof.Machine

/-- The exclusive OR of bytes. -/
def xorBytes (bs : List Byte) : Byte := bs.foldl (· ^^^ ·) 0

/-- Does the line's PARITY match (R37)? -/
def parityOk (line : List Byte) : Bool := xorBytes (line.take 63) == line.getD 63 0

/-- The line word (R36). -/
def lineWord (line : List Byte) : Nat := leNat (line.drop 60)

/-- The instruction word of a slot (R35, R46). -/
def slotWord (line : List Byte) (slot : Nat) : InstrWord := BitVec.ofNat 96 (leNat ((line.drop (12 * slot)).take 12))

/-- The line address of a PC (R42). -/
def lineAddr (pc : Word) : Word := BitVec.ofNat 64 (pc.toNat / 64 * 64)

/-- The older contents of a line that a fetch may still see (R66). -/
def State.oldBytes (s : State) (line : Nat) : List (List Byte) :=
  (s.olds.filter (fun o => decide (o.line = line) && o.within s.now)).map (·.bytes)

/-- The bytes of a line as a fetch that is not ordered after the latest writes to it may find them: each byte an old one or
the new one (R66). -/
def State.mixed (s : State) (line : Nat) (bytes : List Byte) : List Byte :=
  match s.oldBytes line with
  | [] => bytes
  | olds => (List.range 64).map (fun i =>
      ((bytes :: olds).getD (Config.number (s.draws + i) % (olds.length + 1)) bytes).getD i 0)

/-- The bytes of a line as a core fetches them: of a valid leased copy, or those at the home; while writes to the line are
recent, a mixture with older ones (R66). -/
def State.lineBytes (s : State) (core : Nat) (f : Leaf) (va : Word) : List Byte :=
  let key := f.key (lineAddr va).toNat
  let leased := s.leasable f && !isLocal core f va
  s.mixed (lineOf key) (match (if leased then s.leaseHit core (lineOf key) else none) with
    | some c => c.bytes
    | none => s.bytesAt key 64)

/-- The free values of a fetch taken. -/
def State.fetchDrawn (s : State) (line : Nat) : State :=
  if s.oldBytes line = [] then s else { s with draws := s.draws + 64 }

/-- A line read for execution, or why it cannot be. -/
inductive Line where
  | bad (e : Event)
  | ok (f : Leaf) (bytes : List Byte)
  deriving DecidableEq, Repr

/-- Checks 1 to 3 of R62 on the line of a PC.  `addr` is the faulting address of a refused line, `par` that of a parity
error. -/
def State.lineCheck (s : State) (core dom : Nat) (pc addr par : Word) : Line :=
  match s.xlate core dom (lineAddr pc).toNat with
  | .fail c => .bad (pageEvent c addr 2)
  | .ok f =>
    if ¬f.x then .bad (protEvent 0x03 addr)
    else
      let line := s.lineBytes core f pc
      if ¬parityOk line then .bad { cause := 0x03, sub := 0, addr := par }
      else if lineWord line % 2 ^ 13 ≠ 0 then .bad { cause := 0x01, sub := 0x01, addr := addr }
      else .ok f line

/-- The checks of R44 on the target of a transfer; none when it passes. -/
def State.targetCheck (s : State) (core dom : Nat) (t : Word) : Option Event :=
  if fld t 2 0 > 4 then some { cause := 0x02, sub := 0x01, addr := t }
  else if fld t 5 3 ≠ 0 then some { cause := 0x02, sub := 0x02, addr := t }
  else
    match s.lineCheck core dom t t t with
    | .bad e => some e
    | .ok _ line =>
      if (lineWord line / 2 ^ (15 + fld t 2 0)) % 2 = 0 then some { cause := 0x02, sub := 0x03, addr := t } else none

/-- Is a PC one that a restore accepts (R45)? -/
def pcValid (pc : Word) : Bool := decide (fld pc 2 0 ≤ 4) && decide (fld pc 5 3 = 0)

/-! ### The place of an instruction and the issue it belongs to (R42, R422) -/

/-- The number of a slot of a fused loop that begins at a line (R412). -/
def slotIndex (fb pc : Word) : Nat := (pc.toNat - fb.toNat) / 64 * 5 + fld pc 2 0

/-- The origin of a slot, or of the last slot before it that is not padding (R412, R419). -/
def originBack (os : List (Nat × Word)) : Nat → Nat
  | 0 => (os.headD (0, 0)).1
  | n + 1 => let o := (os.getD (n + 1) (0, 0)).1; if o = 0 then originBack os n else o

/-- The origin and the original PC of an instruction (R422): outside a fused loop, 0 and the PC itself; padding, which has no
original, has the origin of what precedes it (R419) and its own PC (log entry 25). -/
def State.originAt (s : State) (launch : Nat) (pc : Word) : BitVec 8 × Word :=
  match (s.launch launch).splice with
  | none => (0, pc)
  | some p =>
    if p.fb.toNat ≤ pc.toNat ∧ pc.toNat < p.fb.toNat + 64 * p.lines then
      let i := slotIndex p.fb pc
      let o := p.origins.getD i (0, pc)
      (BitVec.ofNat 8 (originBack p.origins i), if o.1 = 0 then pc else o.2)
    else (0, pc)

/-- The same for an issue of a lane; what runs in a handler of a fused launch is of the origin of its fragment (R419, R422,
R423). -/
def State.issueOrigin (s : State) (w : Warp) (L : Nat) (pc : Word) : BitVec 8 × Word :=
  let o := s.originAt w.launch pc
  if o.1 = 0 ∧ (w.lane L).handler ∧ (s.launch w.launch).splice.isSome then (((w.fragOf (w.lane L)).map (·.origin)).getD 0, pc)
  else o

/-- The issue of a waiting instruction taken up again for some of its lanes (R133). -/
def State.resume (s : State) (wid : Nat) (ls : List Nat) : State :=
  match ls with
  | [] => s
  | L :: _ =>
    let l := s.lane wid L
    match l.wait with
    | none => s
    | some w =>
      let o := s.issueOrigin (s.warp wid) L l.pc
      { s with cur :=
          { wid := wid, pc := l.pc, a1 := maskOf ls, word := w.word, origin := o.1, origpc := o.2, retry := true,
            gang := w.gang, serial := w.serial } }

/-- No issue in progress. -/
def State.blank (s : State) : State := { s with cur := {} }

/-- The lanes of a warp that wait in the instruction of a gang, ascending. -/
def State.waiters (s : State) (wid gang : Nat) : List Nat :=
  (List.range 32).filter (fun L =>
    let l := s.lane wid L
    decide (l.st = .waiting) && (match l.wait with | some w => decide (w.gang = gang) | none => false))

/-- Lanes whose waiting instruction completes: they move on (R133). -/
def State.finishWait (s : State) (wid : Nat) (ls : List Nat) : State := ((s.resume wid ls).advance ls).blank

/-- Lanes whose waiting instruction traps. -/
def State.trapWait (s : State) (wid : Nat) (fails : List (Nat × Event)) : State :=
  ((s.resume wid (fails.map (·.1))).raise fails).blank

end Sys2Proof.Machine
end

