-- ==== Sys2Proof/Machine/Control.lean ====
section
/-! DEFINITION. The control class (spec/05_control): transfers, calls, barriers and convergence registers. -/

namespace Sys2Proof.Machine

/-! ### Transfers, calls and returns (R155 to R159) -/

/-- How a lane transfers: by branch, by call, or not at all. -/
inductive Xfer where
  | jump (t : Word)
  | call (t : Word)
  deriving DecidableEq, Repr

/-- The checks of a transfer in a lane (R155). -/
def State.xferFault (s : State) (L : Nat) (x : Xfer) : Option Event :=
  let l := s.cl L
  let check (t : Word) : Option Event := s.targetCheck s.cw.core s.cw.dom t
  match x with
  | .jump t => check t
  | .call t =>
    if l.resf = 2 then some { cause := 0x0B, sub := 0x01, addr := t }
    else if l.depth = BitVec.allOnes 32 then some { cause := 0x0B, sub := 0x02, addr := t }
    else check t

/-- A lane that transfers: a call slides the window and leaves the link in w7 of the new frame (R141, R155). -/
def Lane.transfer (l : Lane) (x : Xfer) (link : Word) : Lane :=
  match x with
  | .jump t => { l with pc := t }
  | .call t => { ({ l with wb := l.wb + 24, resf := 2, depth := l.depth + 1 } : Lane).setWin 7 link with pc := t }

/-- A transfer of the active lanes (R155). -/
def State.runXfer (s : State) (h : Head) (x : Nat → Xfer) : State :=
  let act := s.active h
  let fails := act.filterMap (fun L => (s.xferFault L (x L)).map (fun e => (L, e)))
  let go := act.filter (fun L => (s.xferFault L (x L)).isNone)
  let link := nextPc s.cur.pc
  let s1 := (s.skipIdle h)
  let s2 := go.foldl (fun t L => t.updLane s.cur.wid L (fun l => l.transfer (x L) link)) s1
  s2.raise fails

/-- The final BRA of a fused loop advances the iteration cursor of every lane that issues it, whatever its guard, and
does not trap (R10, R414). -/
def State.cursorStep (s : State) (h : Head) (t : Word) : State :=
  match (s.launch s.cw.launch).splice with
  | some p =>
    if s.cur.pc = p.loopBra then
      let act := s.active h
      let ls := s.gang.filter (fun L => ¬(act.contains L && (s.xferFault L (.jump t)).isSome))
      s.updLanes s.cur.wid ls (fun l => { l with regs := l.regs.set 0 63 (l.cursor + 1) })
    else s
  | none => s

/-- BRA (R155, R414). -/
def execBra (h : Head) (imm : BitVec 32) (s : State) : Host.Outcome State Fault Refusal :=
  let t := relTarget s.cur.pc imm
  .next ((s.cursorStep h t).runXfer h (fun _ => .jump t))

/-- BRX (R155). -/
def execBrx (h : Head) (a : Spec) (s : State) : Host.Outcome State Fault Refusal :=
  .next (s.runXfer h (fun L => .jump (s.opnd L a 0)))

/-- CALL (R155). -/
def execCall (h : Head) (imm : BitVec 32) (s : State) : Host.Outcome State Fault Refusal :=
  .next (s.runXfer h (fun _ => .call (relTarget s.cur.pc imm)))

/-- CALLX (R155). -/
def execCallx (h : Head) (a : Spec) (s : State) : Host.Outcome State Fault Refusal :=
  .next (s.runXfer h (fun L => .call (s.opnd L a 0)))

/-- The checks of RET in a lane with a caller (R156). -/
def State.retFault (s : State) (L : Nat) : Option Event :=
  let l := s.cl L
  if l.resf = 1 then some { cause := 0x0C, sub := 0x01 }
  else s.targetCheck s.cw.core s.cw.dom (l.win 7)

/-- RET (R156): at depth 0 it acts as EXIT. -/
def execRet (h : Head) (s : State) : Host.Outcome State Fault Refusal :=
  let act := s.active h
  let out := act.filter (fun L => (s.cl L).depth = 0)
  let back := act.filter (fun L => (s.cl L).depth ≠ 0)
  let go := back.filter (fun L => (s.retFault L).isNone)
  let fails := back.filterMap (fun L => (s.retFault L).map (fun e => (L, e)))
  let s1 := s.skipIdle h
  let s2 := s1.updLanes s.cur.wid go (fun l =>
    { l with pc := l.win 7, wb := l.wb - 24, resf := 1, depth := l.depth - 1 })
  let s3 := s2.raise fails
  .next (if out = [] then s3 else s3.exitLanes s.cur.wid out)

/-- EXIT (R157). -/
def execExit (h : Head) (s : State) : Host.Outcome State Fault Refusal :=
  let s1 := s.skipIdle h
  .next (if s.active h = [] then s1 else s1.exitLanes s.cur.wid (s.active h))

/-- YIELD (R138, R158). -/
def execYield (h : Head) (s : State) : Host.Outcome State Fault Refusal :=
  .next ((s.updLanes s.cur.wid (s.active h) (fun l => { l with defer := true })).advance s.gang)

/-- The physical register of word `j` of the frame below (R159). -/
def Lane.callerReg (l : Lane) (j : Nat) : Nat := (l.wb.toNat + 40 + j) % 64

/-- The access of a lane to its spill area: the first failing word decides; a roaming thread in user mode migrates to the
home of the lowest word (R142, R159; DEDUCED). -/
def State.frameAcc (s : State) (h : Head) (L : Nat) (base : Word) (kind : Nat) (r w : Bool) : Acc :=
  match s.spillAcc (fun j => base + BitVec.ofNat 64 (8 * j)) kind r w with
  | some e => .trap e
  | none =>
    match s.tr base with
    | .ok f =>
      if s.roams h L ∧ f.w ∧ ¬isLocal s.cw.core f base then .migrate (homeOf (f.key base.toNat)) else .go f
    | .fail c => .trap (pageEvent c base kind)

/-- The stores of a spill: 24 words of the frame below, at a base address (R143, R159). -/
def State.spillStores (s : State) (L : Nat) (base : Word) : State :=
  let l := s.cl L
  (List.range 24).foldl (fun t j =>
    let va := base + BitVec.ofNat 64 (8 * j)
    match s.tr va with
    | .ok f => t.request L (f.key va.toNat) (.write (leBytes 8 (l.regs.get 0 (l.callerReg j)).toNat) none) none
    | .fail _ => t) s

/-- WSPILL (R159). -/
def execWspill (h : Head) (s : State) : Host.Outcome State Fault Refusal :=
  let act := s.active h
  let idle := act.filter (fun L => (s.cl L).resf ≠ 2)
  let base (L : Nat) : Word := (s.cl L).wsp - 192
  let acc (L : Nat) : Acc := if idle.contains L then .go ⟨3, 0⟩ else s.frameAcc h L (base L) 1 false true
  .next (s.runAccess h (.wspill h) acc (fun t L _ _ =>
    if idle.contains L then t
    else (t.spillStores L (base L)).updLane s.cur.wid L (fun l => { l with wsp := l.wsp - 192, resf := 1 })))

/-- The loads of a fill (R159): the lane waits until all are written. -/
def State.fillLoads (s : State) (L : Nat) : State :=
  let l := s.cl L
  (List.range 24).foldl (fun t j =>
    let va := l.wsp + BitVec.ofNat 64 (8 * j)
    match s.tr va with
    | .ok f => t.readFor L f va 8 (!f.w) (s.retFor L (.phys (l.callerReg j)) .raw true)
    | .fail _ => t) s

/-- WFILL (R154, R159): it retires when its loads are written, and only then do WSP and RESF change. -/
def execWfill (h : Head) (s : State) : Host.Outcome State Fault Refusal :=
  let act := s.active h
  let idle := act.filter (fun L => ¬((s.cl L).resf = 1 ∧ (s.cl L).depth ≠ 0))
  let busy := act.filter (fun L => ¬idle.contains L)
  let acc (L : Nat) : Acc := s.frameAcc h L (s.cl L).wsp 0 true false
  let goes := goesOf h busy acc
  let s1 := goes.foldl (fun t g => t.fillLoads g.1) s
  let s2 := ((s1.skipIdle h).advance idle).waitIn (goes.map (·.1)) (.wfill h) .sent
  let s3 := (migrantsOf h busy acc).foldl (fun t m => t.migrateLane (.wfill h) m.1 m.2) s2
  .next (s3.raise (failsOf h busy acc))

/-! ### Barriers (R144 to R147, R160) -/

/-- Has the generation of a barrier wait that the lane abandoned completed since (R255)?  In a roaming warp the mark is
gone then, and no arrival waits to be counted. -/
def State.abandonedDone (s : State) (w : Warp) (l : Lane) (a : Abandoned) : Bool :=
  if w.roaming then !l.marks.getLsbD a.b && !w.barDue.any (fun x => decide (x.1 = a.b)) else decide (((s.group w.group).bars.get {} a.b).gen ≠ a.gen)

/-- A lane's return to a BAR.HOLD that it abandoned, if it stands there (R255). -/
def State.abandonedAt (s : State) (L b : Nat) : Option Abandoned :=
  match (s.cl L).abandoned with
  | some a => if a.b = b ∧ a.pc = s.cur.pc then some a else none
  | none => none

/-- BAR (R144, R160): user-mode lanes are marked, then wait or move on; lanes in handler mode only move on. -/
def State.runBar (s : State) (h : Head) (i : Instr) (b c : Nat) (hold : Bool) : State :=
  let wid := s.cur.wid
  let act := (s.active h).filter (fun L => ¬(s.cl L).handler)
  let rest := s.gang.filter (fun L => ¬act.contains L)
  let ret (L : Nat) : Option Abandoned := if hold then s.abandonedAt L b else none
  let over' := act.filter (fun L => match ret L with | some a => s.abandonedDone s.cw (s.cl L) a | none => false)
  let again := act.filter (fun L => (ret L).isSome && !over'.contains L)
  let fresh := act.filter (fun L => (ret L).isNone)
  let s1 := s.updLanes wid act (fun l => { l with abandoned := none })
  let s2 := s1.updLanes wid fresh (fun l => { l with marks := l.marks ||| BitVec.ofNat 8 (2 ^ b) })
  let s3 := if fresh = [] then s2 else s2.updWarp wid (fun w =>
    { w with barCount := w.barCount.set 0 b c })
  let s4 := s3.advance (rest ++ over' ++ (if hold then [] else fresh))
  let s5 := if hold then s4.waitIn (again ++ fresh) i .watching else s4
  if fresh = [] then s5 else (s5.barArrive wid b).barSettle wid

/-- BAR.HOLD (R160). -/
def execBarHold (h : Head) (b : Fin 8) (c : BitVec 6) (s : State) : Host.Outcome State Fault Refusal :=
  .next (s.runBar h (.barHold h b c) b.val c.toNat true)

/-- BAR.PASS (R160). -/
def execBarPass (h : Head) (b : Fin 8) (c : BitVec 6) (s : State) : Host.Outcome State Fault Refusal :=
  .next (s.runBar h (.barPass h b c) b.val c.toNat false)

/-! ### Convergence registers (R148 to R151, R161 to R163) -/

/-- The number of a partition within its cluster (R148). -/
def Warp.clusterPart (w : Warp) : Nat := 2 * (w.core % 16) + w.part

/-- The number of a convergence register of a cluster. -/
def cvIndex (cluster k : Nat) : Nat := 16 * cluster + k

/-- Sign records of a register that are pending take a new state, in every warp of the cluster, saved ones included
(R149, R150). -/
def State.settleSigns (s : State) (cluster k : Nat) (r : Sign) : State :=
  let hit (w : Warp) : Bool := decide (clusterOf w.core = cluster) && decide (w.signs.get .none k = .pending)
  let f (w : Warp) : Warp := if hit w then { w with signs := w.signs.set .none k r } else w
  let code : Nat := match r with | .none => 0 | .pending => 1 | .completed .. => 2 | .cancelled .. => 3
  let s1 := s.saved.foldl (fun (t : State) c =>
    (c.warps.filter (fun e => hit e.2)).foldl (fun (t : State) e =>
      let at' := c.recordVa e.2 + 0x1A08
      let x := t.peekSaved c e.2.dom at' 4
      t.patchSaved c e.2.dom at' (leBytes 4 (x - x / 4 ^ k % 4 * 4 ^ k + code * 4 ^ k))) t) s
  { s1 with
    warps := s1.warps.map (fun e => (e.1, f e.2))
    saved := s1.saved.map (fun c => { c with warps := c.warps.map (fun e => (e.1, f e.2)) }) }

/-- Completion of a set once SIGNED equals MEMBERS (R150). -/
def State.cvComplete (s : State) (cluster k : Nat) : State :=
  let c := s.cv (cvIndex cluster k)
  if c.armed ∧ c.signed = c.members then
    let s := s.updCv (cvIndex cluster k) (fun c => { c with armed := false, signed := 0, gen := c.gen + 1 })
    s.settleSigns cluster k (.completed c.tag (c.gen + 1) c.members)
  else s

/-- Disarm (R150). -/
def State.cvDisarm (s : State) (cluster k : Nat) : State :=
  let c := s.cv (cvIndex cluster k)
  if c.armed then
    let s := s.updCv (cvIndex cluster k) (fun c => { c with armed := false, signed := 0 })
    s.settleSigns cluster k (.cancelled c.tag c.gen)
  else s

/-- Is a sign by a warp with a tag accepted (R150)? -/
def CvReg.accepts (c : CvReg) (w : Warp) (tag : BitVec 32) : Bool :=
  c.armed && decide (c.dom = w.dom) && decide (c.tag = tag) && c.members.getLsbD w.clusterPart

/-- A sign by a warp (R150, R162): the register's bit, the warp's record, and completion. -/
def State.cvSign (s : State) (wid k : Nat) : State :=
  let w := s.warp wid
  let n := cvIndex (clusterOf w.core) k
  let s := s.updCv n (fun c => { c with signed := c.signed ||| laneBit w.clusterPart })
  let s := s.updWarp wid (fun w => { w with signs := w.signs.set .none k .pending })
  s.cvComplete (clusterOf w.core) k

/-- Does the domain hold a grant of cvk (R161, R383)? -/
def State.cvGranted (s : State) (launch k : Nat) : Bool := (s.launch launch).cvgrant.getLsbD k

/-- Every active lane of an issue that traps together. -/
def State.raiseAll (s : State) (h : Head) (e : Event) : State :=
  (s.skipIdle h).raise ((s.active h).map (fun L => (L, e)))

/-- CVARM (R150, R161). -/
def execCvarm (h : Head) (p : Fin 8) (k : Fin 16) (members tag : Spec) (imm : BitVec 32) (s : State) :
    Host.Outcome State Fault Refusal :=
  let act := s.active h
  match act with
  | [] => .next (s.advance s.gang)
  | L :: _ =>
    if ¬s.cvGranted s.cw.launch k.val then .next (s.raiseAll h { cause := 0x07, sub := 0x07 })
    else
      let m := (s.opnd L members imm).setWidth 32
      let t := (s.opnd L tag imm).setWidth 32
      let n := cvIndex (clusterOf s.cw.core) k.val
      let refused := (s.cv n).armed || m == 0
      let s1 := if refused then s else s.updCv n (fun c =>
        { c with armed := true, dom := s.cw.dom, launch := s.cw.launch, members := m, signed := 0, tag := t })
      .next ((s1.putPredOnce p act refused).advance s.gang)

/-- CVSIGN (R151, R162): it waits while the register is not armed, and, as a release at cluster scope, until what FENCE at
that scope would wait for has come for every lane of the warp. -/
def execCvsign (h : Head) (p : Fin 8) (k : Fin 16) (tag : Spec) (imm : BitVec 32) (s : State) :
    Host.Outcome State Fault Refusal :=
  let act := s.active h
  match act with
  | [] => .next (s.advance s.gang)
  | L :: _ =>
    if ¬s.cvGranted s.cw.launch k.val then .next (s.raiseAll h { cause := 0x07, sub := 0x07 })
    else
      let c := s.cv (cvIndex (clusterOf s.cw.core) k.val)
      if ¬c.armed ∨ ¬s.warpReady .cluster s.cur.wid s.cur.serial then
        .next ((s.skipIdle h).waitIn act (.cvsign h p k tag imm) .hold (fun _ => 0) (s.keep [tag] imm))
      else
        let ok := c.accepts s.cw ((s.heldOpnd L tag imm).setWidth 32)
        let s1 := (s.putPredOnce p act (!ok)).advance s.gang
        .next (if ok then s1.cvSign s.cur.wid k.val else s1)

/-- The value that CVWAIT writes (R163); none while the record is pending. -/
def Sign.outcome : Sign → Option Word
  | .none => some 2
  | .pending => Option.none
  | .completed tag gen _ => some (tag ++ gen ++ 0#24)
  | .cancelled tag gen => some (tag ++ gen ++ 1#24)

/-- CVWAIT (R163). -/
def execCvwait (h : Head) (d : Spec) (k : Fin 16) (s : State) : Host.Outcome State Fault Refusal :=
  let act := s.active h
  match act with
  | [] => .next (s.advance s.gang)
  | _ =>
    match (s.cw.signs.get .none k.val).outcome with
    | none => .next ((s.skipIdle h).waitIn act (.cvwait h d k) .hold)
    | some v =>
      let s1 := s.updWarp s.cur.wid (fun w => { w with signs := w.signs.set .none k.val .none })
      .next ((s1.putOnce d act v).advance s.gang)

end Sys2Proof.Machine
end

