-- ==== Sys2Proof/Machine/MemoryOps.lean ====
section
/-! DEFINITION. The memory class but for its ordering instructions (spec/07_memory R206 to R218): loads and stores of
memory, of the scratchpad and of the accumulator, circular buffers, MIGR, HOME, PFL and the tile moves. -/

namespace Sys2Proof.Machine

/-! ### Loads and stores of memory (R209, R211) -/

/-- LD and LDL: lanes whose page is decoded block by block wait for their block (R190); the others retire at issue.  A
scalar or group-shared destination is the highest lane's of those that complete (R9, R11): a lane whose block is still to
be checked keeps its claim on it over the lanes below, and `execDecodeLoadComplete` settles whose it is. -/
def State.runLoad (s : State) (h : Head) (i : Instr) (ty : Ty) (d : Spec) (ea : Nat → Word) (acc : Nat → Acc)
    (leased : Leaf → Bool) : State :=
  let act := s.active h
  let goes := goesOf h act acc
  let blocks := goes.filter (fun g => decide (3 ≤ g.2.fmt))
  let plain := goes.filter (fun g => decide (g.2.fmt < 3))
  let top (L : Nat) : Bool := plain.all (fun g => decide (g.1 ≤ L))
  let ret (g : Nat × Leaf) : Ret :=
    (s.retFor g.1 (s.dstOfLast g.1 (top g.1) d) (loadPut g.2.fmt ty)).shared s (sharers h act)
  let s1 := plain.foldl (fun (t : State) g =>
    t.readFor g.1 g.2 (ea g.1) ((loadSize g.2.fmt ty).getD 1) (leased g.2) (ret g)) s
  let s2 : State := { s1 with decodes := s1.decodes ++ blocks.map (fun (g : Nat × Leaf) =>
    { ret := ret g, core := s.cw.core, serial := s.cur.serial, dom := s.cw.dom, ea := ea g.1, ty := ty }) }
  let s3 := (s2.skipIdle h).advance (plain.flatMap (fun g => fateOf h act g.1))
  let s4 := s3.waitIn (blocks.flatMap (fun g => fateOf h act g.1)) i .sent
  let s5 := (migrantsOf h act acc).foldl (fun t m => t.migrateLane i m.1 m.2) s4
  s5.raise (failsOf h act acc)

/-- LD (R209): leased only on a page without W. -/
def execLd (h : Head) (ty : Ty) (xs : Fin 4) (d a b : Spec) (imm : BitVec 32) (s : State) :
    Host.Outcome State Fault Refusal :=
  let ea (L : Nat) : Word := s.ea L a b xs imm
  .next (s.runLoad h (.ld h ty xs d a b imm) ty d ea (fun L => s.loadAcc h L ty (ea L) true) (fun f => !f.w))

/-- The checks of a load that only a PLAIN page permits (R187): right, format, alignment. -/
def State.plainLoad (s : State) (va : Word) (size : Nat) : Acc := s.plainAcc va size 0 true false

/-- LDL (R209): the line is leased. -/
def execLdl (h : Head) (ty : Ty) (xs : Fin 4) (d a b : Spec) (imm : BitVec 32) (s : State) :
    Host.Outcome State Fault Refusal :=
  let ea (L : Nat) : Word := s.ea L a b xs imm
  .next (s.runLoad h (.ldl h ty xs d a b imm) ty d ea (fun L => s.plainLoad (ea L) ty.size) (fun _ => true))

/-- A store of a lane sent to its home (R185, R209). -/
def State.storeFor (s : State) (L : Nat) (f : Leaf) (va : Word) (bytes : List Byte) (tag : Option Nat := none) : State :=
  s.request L (f.key va.toNat) (.write bytes tag) none

/-- ST (R209). -/
def execSt (h : Head) (ty : Ty) (xs : Fin 4) (a b c : Spec) (imm : BitVec 32) (s : State) :
    Host.Outcome State Fault Refusal :=
  let ea (L : Nat) : Word := s.ea L a b xs imm
  .next (s.runAccess h (.st h ty xs a b c imm) (fun L => s.storeAcc h L ty (ea L) true)
    (fun t L f _ => t.storeFor L f (ea L) (storeBytes f.fmt ty (s.opnd L c imm))))

/-- STP (R209): never migrates; only a PLAIN page permits it (R187). -/
def execStp (h : Head) (ty : Ty) (xs : Fin 4) (a b c : Spec) (imm : BitVec 32) (s : State) :
    Host.Outcome State Fault Refusal :=
  let ea (L : Nat) : Word := s.ea L a b xs imm
  .next (s.runAccess h (.stp h ty xs a b c imm) (fun L => s.plainAcc (ea L) ty.size 1 false true)
    (fun t L f _ => t.storeFor L f (ea L) (leBytes ty.size (s.opnd L c imm).toNat)))

/-- LDLN (R211): the whole line into eight registers. -/
def execLdln (h : Head) (xs : Fin 4) (k : Fin 32) (a b : Spec) (imm : BitVec 32) (s : State) :
    Host.Outcome State Fault Refusal :=
  let ea (L : Nat) : Word := s.ea L a b xs imm
  .next (s.runAccess h (.ldln h xs k a b imm) (fun L => s.plainLoad (ea L) 64)
    (fun t L f _ => t.readFor L f (ea L) 64 true (s.retFor L (.block ((s.cl L).phys k.val) 8) .raw)))

/-! ### Scratchpad and accumulator (R194, R210, R212) -/

/-- The origin whose resources a lane sees: of its instruction, or of its fragment while it runs a handler (R413,
R423). -/
def State.originOf (s : State) (L : Nat) : BitVec 8 :=
  let l := s.cl L
  if l.handler then (match s.cw.fragOf l with | some f => f.origin | none => 0) else s.cur.origin

/-- Checks made all-or-nothing (R11, R194): the first check that any lane fails decides, with the lanes that fail it. -/
def allOrNothing (act : List Nat) : List (Nat → Option Event) → List (Nat × Event)
  | [] => []
  | c :: cs =>
    match act.filterMap (fun L => (c L).map (fun e => (L, e))) with
    | [] => allOrNothing act cs
    | fs => fs

/-- Checks 1 to 3 of R194 on a scratchpad access. -/
def State.scratchChecks (s : State) (ea : Nat → Word) (size : Nat) : List (Nat → Option Event) :=
  let bad (p : Nat → Bool) (e : BitVec 8) : Nat → Option Event :=
    fun L => if p L then some (scratchEvent e (ea L)) else none
  [ fun L => if (ea L).toNat % size ≠ 0 then some (alignEvent 0x01 (ea L)) else none,
    bad (fun L => decide (1572864 < (ea L).toNat + size)) 0x02,
    bad (fun L =>
      let r := s.scratchRange s.cw (s.originOf L)
      !(decide (r.1 ≤ (ea L).toNat) && decide ((ea L).toNat + size ≤ r.1 + r.2))) 0x01 ]

/-- Checks 1 and 4 of R194 on an accumulator access. -/
def State.accChecks (s : State) (ea : Nat → Word) (size : Nat) : List (Nat → Option Event) :=
  [ fun L => if (ea L).toNat % size ≠ 0 then some (alignEvent 0x01 (ea L)) else none,
    fun L =>
      if !s.cw.roaming && (s.group s.cw.group).acc && decide ((ea L).toNat + size ≤ 131072) then none
      else some (scratchEvent 0x04 (ea L)) ]

/-- An instruction checked all-or-nothing: its effect lane by lane in ascending order, or the traps. -/
def State.runWhole (s : State) (h : Head) (checks : List (Nat → Option Event)) (eff : State → Nat → Bool → State) :
    State :=
  let act := s.active h
  let run := execFor h act
  match allOrNothing run checks with
  | [] => (run.foldl (fun t L => eff t L (run.getLast? == some L)) s).advance s.gang
  | fs => (s.skipIdle h).raise (fs.flatMap (fun f => (fateOf h act f.1).map (fun L => (L, f.2))))

/-- A governed result that is at the core already (R55): it is written later, before an instruction with S issues. -/
def State.governedPut (s : State) (L : Nat) (last : Bool) (d : Spec) (put : PutAs) (v : Word) (share : List Nat := []) :
    State :=
  s.answer ((s.retFor L (s.dstOfLast L last d) put).shared s share) [v]

/-- A governed result of an instruction that acts once per issue (R55, R153). -/
def State.governedOnce (s : State) (d : Spec) (act : List Nat) (v : Word) : State :=
  match d with
  | .win _ => act.foldl (fun t L => t.governedPut L true d .raw v) s
  | _ => match act with | [] => s | L :: _ => s.governedPut L true d .raw v act

/-- The key of a scratchpad byte. -/
def scratchKey (core addr : Nat) : Nat := core * 2 ^ 21 + addr
/-- The key of a weight-buffer byte. -/
def weightKey (core addr : Nat) : Nat := core * 2 ^ 19 + addr
/-- The key of an accumulator byte. -/
def accKey (part addr : Nat) : Nat := part * 2 ^ 17 + addr

/-- A number of `n` bytes in a core's scratchpad. -/
def State.scratchNat (s : State) (core addr n : Nat) : Nat := leNat (s.scratch.getN unwritten (scratchKey core addr) n)
/-- Bytes written in a core's scratchpad. -/
def State.putScratch (s : State) (core addr : Nat) (bs : List Byte) : State :=
  { s with scratch := s.scratch.setN unwritten (scratchKey core addr) bs }
/-- A number of `n` bytes in a partition's accumulator. -/
def State.accNat (s : State) (part addr n : Nat) : Nat := leNat (s.acc.getN unwritten (accKey part addr) n)
/-- Bytes written in a partition's accumulator. -/
def State.putAcc (s : State) (part addr : Nat) (bs : List Byte) : State :=
  { s with acc := s.acc.setN unwritten (accKey part addr) bs }

/-- LDS (R210). -/
def execLds (h : Head) (ty : Ty) (xs : Fin 4) (d a b : Spec) (imm : BitVec 32) (s : State) :
    Host.Outcome State Fault Refusal :=
  let ea (L : Nat) : Word := s.ea L a b xs imm
  .next (s.runWhole h (s.scratchChecks ea ty.size) fun t L last =>
    t.governedPut L last d (putAsOf ty) (BitVec.ofNat 64 (s.scratchNat s.cw.core (ea L).toNat ty.size))
      (sharers h (s.active h)))

/-- STS (R210). -/
def execSts (h : Head) (ty : Ty) (xs : Fin 4) (a b c : Spec) (imm : BitVec 32) (s : State) :
    Host.Outcome State Fault Refusal :=
  let ea (L : Nat) : Word := s.ea L a b xs imm
  .next (s.runWhole h (s.scratchChecks ea ty.size) fun t L _ =>
    t.putScratch s.cw.core (ea L).toNat (leBytes ty.size (s.opnd L c imm).toNat))

/-- LDA (R212). -/
def execLda (h : Head) (ty : Ty) (xs : Fin 4) (d a b : Spec) (imm : BitVec 32) (s : State) :
    Host.Outcome State Fault Refusal :=
  let ea (L : Nat) : Word := s.ea L a b xs imm
  .next (s.runWhole h (s.accChecks ea ty.size) fun t L _ =>
    t.setDest L d ((putAsOf ty).apply (BitVec.ofNat 64 (s.accNat s.cw.partId (ea L).toNat ty.size))))

/-- STA (R212). -/
def execSta (h : Head) (ty : Ty) (xs : Fin 4) (a b c : Spec) (imm : BitVec 32) (s : State) :
    Host.Outcome State Fault Refusal :=
  let ea (L : Nat) : Word := s.ea L a b xs imm
  .next (s.runWhole h (s.accChecks ea ty.size) fun t L _ =>
    t.putAcc s.cw.partId (ea L).toNat (leBytes ty.size (s.opnd L c imm).toNat))

/-! ### Circular buffers (R195, R213, R214) -/

/-- A circular buffer of the issue's workgroup, as a lane numbers it (R423). -/
def State.cbNumber (s : State) (L : Nat) (n : Nat) : Nat := n + (s.offsOf s.cw (s.cl L)).c

/-- A circular buffer of a workgroup; a roaming warp has none. -/
def State.cbuf (s : State) (w : Warp) (n : Nat) : CBuf := if w.roaming then {} else (s.group w.group).cbufs.get {} n

/-- The state with a circular buffer replaced. -/
def State.setCbuf (s : State) (g n : Nat) (b : CBuf) : State :=
  s.updGroup g (fun g => { g with cbufs := g.cbufs.set {} n b })

/-- CBGET (R213). -/
def execCbget (h : Head) (d : Spec) (n : Fin 8) (s : State) : Host.Outcome State Fault Refusal :=
  let act := s.active h
  match act with
  | [] => .next (s.advance s.gang)
  | L :: _ =>
    let k := s.cbNumber L n.val
    let b := s.cbuf s.cw k
    if b.nslots = 0 then .next (s.raiseAll h (scratchEvent 0x03 0))
    else if b.filled = 0 then .next ((s.skipIdle h).waitIn act (.cbget h d n) .hold)
    else
      let s1 := s.setCbuf s.cw.group k
        { b with head := (b.head + 1) % b.nslots, filled := b.filled - 1, taken := b.taken + 1 }
      .next ((s1.governedOnce d act (BitVec.ofNat 64 (b.base + b.head * b.slotb))).advance s.gang)

/-- CBFREE (R214). -/
def execCbfree (h : Head) (n : Fin 8) (s : State) : Host.Outcome State Fault Refusal :=
  match s.active h with
  | [] => .next (s.advance s.gang)
  | L :: _ =>
    let k := s.cbNumber L n.val
    let b := s.cbuf s.cw k
    if b.nslots = 0 then .next (s.raiseAll h (scratchEvent 0x03 0))
    else
      let s1 := if b.taken = 0 then s
        else s.setCbuf s.cw.group k { b with taken := b.taken - 1, free := b.free + 1 }
      .next (s1.advance s.gang)

/-! ### Migration, homes and prefetch (R215 to R217) -/

/-- MIGR (R215). -/
def execMigr (h : Head) (xs : Fin 4) (a b : Spec) (imm : BitVec 32) (s : State) : Host.Outcome State Fault Refusal :=
  let acc (L : Nat) : Acc :=
    let va := s.ea L a b xs imm
    match s.tr va with
    | .fail c => .trap (pageEvent c va 0)
    | .ok f => if s.roams h L ∧ ¬isLocal s.cw.core f va then .migrate (homeOf (f.key va.toNat)) else .go f
  .next (s.runAccess h (.migr h xs a b imm) acc (fun t _ _ _ => t))

/-- The value of HOME (R216). -/
def homeWord (core : Nat) (f : Leaf) (va : Word) : Word :=
  let b (x : Bool) (k : Nat) : Nat := if x then 2 ^ k else 0
  BitVec.ofNat 64 (f.peer * 2 ^ 56 + f.fmt * 2 ^ 52 + b (isLocal core f va) 23 + b f.fwd 22 + b f.w 21 + b f.r 20 +
    f.cls * 2 ^ 18 + f.key va.toNat / 2 ^ 50 % 4 * 2 ^ 16 + homeOf (f.key va.toNat) % 384)

/-- HOME (R216). -/
def execHome (h : Head) (xs : Fin 4) (d a b : Spec) (imm : BitVec 32) (s : State) : Host.Outcome State Fault Refusal :=
  let acc (L : Nat) : Acc :=
    let va := s.ea L a b xs imm
    match s.trAny va with
    | .fail c => .trap (pageEvent c va 0)
    | .ok f => .go f
  .next (s.runAccess h (.home h xs d a b imm) acc (fun t L f last =>
    t.governedPut L last d .raw (homeWord s.cw.core f (s.ea L a b xs imm)) (sharers h (s.active h))))

/-- PFL (R217). -/
def execPfl (h : Head) (xs : Fin 4) (a b : Spec) (imm : BitVec 32) (s : State) : Host.Outcome State Fault Refusal :=
  let core := s.cw.core
  let s' := (s.active h).foldl (fun t L =>
    let va := s.ea L a b xs imm
    match s.tr va with
    | .fail _ => t
    | .ok f =>
      let key := f.key va.toNat
      if f.r ∧ s.leasable f ∧ f.fmt = 0 ∧ ¬isLocal core f va ∧ (t.leaseHit core (lineOf key) (s.cl L).tid).isNone then
        t.request L key (.prefetch f.cls) none
      else t) s
  .next (s'.advance s.gang)

/-! ### Tile moves (R218) -/

/-- The access of a tile move: R or W, PLAIN, alignment, then migration as LD and ST (R185, R207, R218). -/
def State.tileAcc (s : State) (h : Head) (L : Nat) (va : Word) (n : Nat) (write : Bool) : Acc :=
  match s.plainAcc va 8 (if write then 1 else 0) (!write) write with
  | .go f =>
    if 64 < va.toNat % 64 + 8 * n then .trap (alignEvent 0x02 va)
    else if s.roams h L ∧ f.w ∧ ¬isLocal s.cw.core f va then .migrate (homeOf (f.key va.toNat))
    else .go f
  | r => r

/-- EA of a tile move (R206). -/
def State.tileEa (s : State) (L : Nat) (a b : Spec) : Word := s.opnd L a 0 + s.opnd L b 0

/-- TSTO (R218): n − 1 is held in `n`. -/
def execTsto (h : Head) (hd : Fin 8) (n : Fin 8) (a b : Spec) (k : Fin 32) (s : State) :
    Host.Outcome State Fault Refusal :=
  let ea (L : Nat) : Word := s.tileEa L a b
  .next (s.runAccess h (.tsto h hd n a b k) (fun L => s.tileAcc h L (ea L) (n.val + 1) true)
    (fun t L f _ => (List.range (n.val + 1)).foldl (fun t i =>
      t.storeFor L f (ea L + BitVec.ofNat 64 (8 * i)) (leBytes 8 ((s.cl L).win (k.val + i)).toNat)) t))

/-- TLOD (R218): n − 1 is held in `n`.  The n words are read in one request, so no other write falls between them (log
entry 77). -/
def execTlod (h : Head) (hd : Fin 8) (n : Fin 8) (k : Fin 32) (a b : Spec) (s : State) :
    Host.Outcome State Fault Refusal :=
  let ea (L : Nat) : Word := s.tileEa L a b
  .next (s.runAccess h (.tlod h hd n k a b) (fun L => s.tileAcc h L (ea L) (n.val + 1) false)
    (fun t L f _ => t.readFor L f (ea L) (8 * (n.val + 1)) (!f.w)
      (s.retFor L (.block ((s.cl L).phys k.val) (n.val + 1)) .raw)))

end Sys2Proof.Machine
end

