-- ==== Sys2Proof/Machine/Ordering.lean ====
section
/-! DEFINITION. The ordering instructions (spec/08_ordering R227 to R242): FENCE, STF, MWAIT, TLWAIT, TLREAD. -/

namespace Sys2Proof.Machine

/-- Is a scope package or system? -/
def scWide (sc : Sc) : Bool := decide (sc = .package) || decide (sc = .system)

/-- Threads have waited as FENCE waits at a scope: at package scope or wider, fetches see what they wrote (R66). -/
def State.fencedAt (s : State) (sc : Sc) (tids : List Nat) : State := if scWide sc then s.fenced tids else s

/-- FENCE (R228, R238): it retires at issue when its conditions are met already. -/
def execFence (h : Head) (sc : Sc) (s : State) : Host.Outcome State Fault Refusal :=
  let act := s.active h
  if act.all (fun L => s.fenceReady sc s.cw.core (s.cl L) s.cur.serial) then .next ((s.fencedAt sc (act.map (fun L => (s.cl L).tid))).advance s.gang)
  else .next ((s.skipIdle h).waitIn act (.fence h sc) .sent)

/-- STF (R239): alignment, translation, W and FWD, format; a posted write with its tag, never a migration. -/
def execStf (h : Head) (ty : Ty) (xs : Fin 4) (a b c : Spec) (tag : BitVec 12) (s : State) :
    Host.Outcome State Fault Refusal :=
  let ea (L : Nat) : Word := s.ea L a b xs 0
  let acc (L : Nat) : Acc :=
    let va := ea L
    if va.toNat % ty.size ≠ 0 then .trap (alignEvent 0x01 va)
    else
      match s.tr va with
      | .fail e => .trap (pageEvent e va 1)
      | .ok f =>
        if ¬f.w ∨ ¬f.fwd then .trap (protEvent 0x04 va)
        else if f.fmt ≠ 0 then .trap (formatEvent 0x01 va)
        else .go f
  .next (s.runAccess h (.stf h ty xs a b c tag) acc (fun t L f _ =>
    t.storeFor L f (ea L) (leBytes ty.size (s.opnd L c 0).toNat) (some tag.toNat)))

/-- The checks of an instruction that registers at a home: alignment, translation, R, format (R240, R299). -/
def State.monitorAcc (s : State) (va : Word) (size : Nat) : Acc :=
  if va.toNat % size ≠ 0 then .trap (alignEvent 0x01 va) else s.plainAcc va size 0 true false

/-- What waiting lanes of the issue watch, and where the result goes, kept with their waits: a lane and those that share
its wait. -/
def State.watchKeys (s : State) (ks : List (Ret × Nat)) : State :=
  ks.foldl (fun t p => t.updLanes s.cur.wid (if p.1.share = 0 then [p.1.lane] else lanesOf p.1.share)
    (fun l => { l with wait := l.wait.map (fun w => { w with watch := some (p.2, p.1) }) })) s

/-- MWAIT (R204, R240): the request goes to the home, and the lane waits; a lane that holds a wake completes at once.  The
memory key is kept with the wait. -/
def execMwait (h : Head) (ty : Ty) (xs : Fin 4) (d : Fin 32) (a b c : Spec) (imm : BitVec 32) (s : State) :
    Host.Outcome State Fault Refusal :=
  let i : Instr := .mwait h ty xs d a b c imm
  let ea (L : Nat) : Word := s.ea L a b xs imm
  let acc (L : Nat) : Acc := s.monitorAcc (ea L) ty.size
  let act := s.active h
  let goes := goesOf h act acc
  let woken := goes.filter (fun g => (s.cl g.1).wake)
  let rest := goes.filter (fun g => !(s.cl g.1).wake)
  let s1 := woken.foldl (fun (t : State) g =>
    (t.governedPut g.1 true (.win d) .raw 0).updLane s.cur.wid g.1 (fun l => { l with wake := false })) s
  let ret (L : Nat) : Ret := s.retFor L (.phys ((s.cl L).phys d.val)) .raw true
  let s2 := rest.foldl (fun (t : State) g =>
    t.request g.1 (g.2.key (ea g.1).toNat)
      (.monitor ty.size (BitVec.ofNat 64 (zx ty.width ((s.cl g.1).win d.val))) false) (some (ret g.1))) s1
  let s3 := ((s2.skipIdle h).advance (woken.map (·.1))).waitIn (rest.map (·.1)) i .sent (fun L => s.opnd L c imm)
  .next ((s3.watchKeys (rest.map (fun g => (ret g.1, g.2.key (ea g.1).toNat)))).raise (failsOf h act acc))

/-- A timeline context of the issue's workgroup, as a lane numbers it (R423). -/
def State.tlNumber (s : State) (L k : Nat) : Nat := k + (s.offsOf s.cw (s.cl L)).t

/-- A timeline context of a workgroup. -/
def State.timeline (s : State) (g k : Nat) : Timeline := (s.group g).tls.get {} k

/-- The state with a timeline context replaced. -/
def State.setTimeline (s : State) (g k : Nat) (t : Timeline) : State :=
  s.updGroup g (fun g => { g with tls := g.tls.set {} k t })

/-- The lowest-numbered error held, with number at most n (R241). -/
def Timeline.lowest (t : Timeline) (n : Nat) : Option TlErr := minBy (·.n) (t.errq.filter (fun e => decide (e.n ≤ n)))

/-- TLWAIT (R241, R310): n is read once, when it issues; an error reaches the trap handler whatever its cause. -/
def execTlwait (h : Head) (k : Fin 16) (b : Spec) (imm : BitVec 32) (s : State) : Host.Outcome State Fault Refusal :=
  let act := s.active h
  match act with
  | [] => .next (s.advance s.gang)
  | L :: _ =>
    let j := s.tlNumber L k.val
    let tl := s.timeline s.cw.group j
    let n := (s.heldOpnd L b imm).toNat
    if tl.done < n then
      .next ((s.skipIdle h).waitIn act (.tlwait h k b imm) .hold (fun _ => 0) (fun _ => s.keep [b] imm L))
    else
      match tl.lowest n with
      | some e =>
        let s1 := s.setTimeline s.cw.group j { tl with errq := tl.errq.filter (fun x => x.n ≠ e.n) }
        .next (s1.raiseAll h
          { cause := e.cause, sub := e.sub, addr := BitVec.ofNat 64 e.n, info0 := e.info0, kind := 4 })
      | none =>
        let ce := tl.ce.toNat
        let s1 := s.updLanes s.cur.wid act (fun l =>
          { l with cmaxp := BitVec.ofNat 64 (Nat.max l.cmaxp.toNat ce), cmaxs := BitVec.ofNat 64 (Nat.max l.cmaxs.toNat ce) })
        .next (s1.advance s.gang)

/-- The value of TLREAD (R242). -/
def Timeline.read (t : Timeline) (sel : Nat) : Word :=
  match sel with
  | 0 => BitVec.ofNat 64 t.done
  | 1 => BitVec.ofNat 64 t.issued
  | _ => match minBy (·.n) t.errq with | some e => BitVec.ofNat 64 e.n | none => 0

/-- TLREAD (R242). -/
def execTlread (h : Head) (d : Spec) (k : Fin 16) (sel : Fin 3) (s : State) : Host.Outcome State Fault Refusal :=
  .next (s.runInt h d fun L => (s.timeline s.cw.group (s.tlNumber L k.val)).read sel.val)

end Sys2Proof.Machine
end

