-- ==== Sys2Proof/Machine/Atomics.lean ====
section
/-! DEFINITION. Atomics at the home and in the scratchpad, and the wait on a completion counter (spec/10_spawn R277 to
R283, R299). -/

namespace Sys2Proof.Machine

/-- The new value of an atomic and the flags it raises (R278): floating-point options round RNE without FTZ. -/
def atomNew (op : AtomOp) (ty : Ty) (old v : Word) : Nat × BitVec 5 :=
  let n := ty.width
  let a := zx n old
  let b := zx n v
  let F := fmtOf ty
  match op with
  | .add => ((a + b) % 2 ^ n, 0)
  | .min => (if ty.src v < ty.src old then b else a, 0)
  | .max => (if ty.src old < ty.src v then b else a, 0)
  | .and => (a &&& b, 0)
  | .or => (a ||| b, 0)
  | .xor => (a ^^^ b, 0)
  | .exch => (b, 0)
  | .inc => (if b ≤ a then 0 else a + 1, 0)
  | .dec => (if a = 0 ∨ b < a then b else a - 1, 0)
  | .fadd => let r := F.add .rne false (zx F.width old) (zx F.width v); (r.bits, r.flags)
  | .fmin => let r := F.minmax false false (zx F.width old) (zx F.width v); (r.bits, r.flags)
  | .fmax => let r := F.minmax true false (zx F.width old) (zx F.width v); (r.bits, r.flags)

/-- The access of an atomic (R277): alignment, translation, R and W, PLAIN.  It never migrates. -/
def State.atomAcc (s : State) (va : Word) (size : Nat) : Acc :=
  if va.toNat % size ≠ 0 then .trap (alignEvent 0x01 va) else s.plainAcc va size 1 true true

/-- Do the lanes still wait for the conditions of FENCE before an atomic of a scope (R281)? -/
def State.mustLead (s : State) (sc : Sc) (act : List Nat) : Bool :=
  decide (sc ≠ .thread) && !act.all (fun L => s.fenceReady sc s.cw.core (s.cl L) s.cur.serial)

/-- An atomic sent to the homes (R277, R281): with a scope wider than thread the gang waits first, and the lanes of an
instruction with a result wait afterwards until FENCE would retire.  The address and the data are those that it read when it
issued (`ops`; R9, R57). -/
def State.runAtomic (s : State) (h : Head) (i : Instr) (sc : Sc) (acc : Nat → Acc) (trail : Bool)
    (req : Nat → Req) (va : Nat → Word) (ret : Nat → Bool → Option Ret) (ops : Nat → List (Spec × Word)) : State :=
  let act := s.active h
  if s.mustLead sc act then (s.skipIdle h).waitIn act i .hold (fun _ => 0) ops
  else
    let s0 := s.fencedAt sc (act.map (fun L => (s.cl L).tid))
    let s1 := s0.runAccess h i acc (fun t L f last => t.request L (f.key (va L).toNat) (req L)
      ((ret L last).map (fun r => r.shared s (sharers h act))))
    if trail ∧ sc ≠ .thread then
      let ls := (goesOf h act acc).flatMap (fun g => fateOf h act g.1)
      ls.foldl (fun t L => t.updLane s.cur.wid L (fun l =>
        { l with st := .waiting, pc := s.cur.pc,
                 wait := some { instr := i, word := s.cur.word, gang := s.cur.gang, serial := t.serial,
                                phase := .trailing } })) s1
    else s1

/-- ATOM (R277, R278, R280 to R282). -/
def execAtom (h : Head) (o : AtomOp) (ty : Ty) (sc : Sc) (xs : Fin 4) (d a b c : Spec) (imm : BitVec 32) (s : State) :
    Host.Outcome State Fault Refusal :=
  let ea (L : Nat) : Word := s.heldEa L a b xs imm
  .next (s.runAtomic h (.atom h o ty sc xs d a b c imm) sc (fun L => s.atomAcc (ea L) ty.size) true
    (fun L => .atom o ty (s.heldOpnd L c imm) true) ea
    (fun L last => some (s.retFor L (s.dstOfLast L last d) (putAsOf ty))) (s.keep [a, b, c] imm))

/-- CAS (R279 to R282). -/
def execCas (h : Head) (ty : Ty) (sc : Sc) (xs : Fin 4) (d a b c : Spec) (imm : BitVec 32) (s : State) :
    Host.Outcome State Fault Refusal :=
  let ea (L : Nat) : Word := s.heldEa L a b xs imm
  .next (s.runAtomic h (.cas h ty sc xs d a b c imm) sc (fun L => s.atomAcc (ea L) ty.size) true
    (fun L => .cas ty (s.heldOpnd L d imm) (s.heldOpnd L c imm)) ea
    (fun L last => some (s.retFor L (s.dstOfLast L last d) (putAsOf ty))) (s.keep [a, b, c, d] imm))

/-- RED (R278, R280 to R282). -/
def execRed (h : Head) (o : AtomOp) (ty : Ty) (sc : Sc) (xs : Fin 4) (a b c : Spec) (imm : BitVec 32) (s : State) :
    Host.Outcome State Fault Refusal :=
  let ea (L : Nat) : Word := s.heldEa L a b xs imm
  .next (s.runAtomic h (.red h o ty sc xs a b c imm) sc (fun L => s.atomAcc (ea L) ty.size) false
    (fun L => .atom o ty (s.heldOpnd L c imm) false) ea (fun _ _ => none) (s.keep [a, b, c] imm))

/-- ATOMS (R283): the flags go with the governed result (R278). -/
def execAtoms (h : Head) (o : AtomOp) (ty : Ty) (xs : Fin 4) (d a b c : Spec) (imm : BitVec 32) (s : State) :
    Host.Outcome State Fault Refusal :=
  let ea (L : Nat) : Word := s.ea L a b xs imm
  .next (s.runWhole h (s.scratchChecks ea ty.size) fun t L last =>
    let old := BitVec.ofNat 64 (t.scratchNat s.cw.core (ea L).toNat ty.size)
    let r := atomNew o ty old (s.opnd L c imm)
    (t.putScratch s.cw.core (ea L).toNat (leBytes ty.size r.1)).answer
      ((s.retFor L (s.dstOfLast L last d) (putAsOf ty)).shared s (sharers h (s.active h))) [old] r.2)

/-- CASS (R283). -/
def execCass (h : Head) (ty : Ty) (xs : Fin 4) (d a b c : Spec) (imm : BitVec 32) (s : State) :
    Host.Outcome State Fault Refusal :=
  let ea (L : Nat) : Word := s.ea L a b xs imm
  .next (s.runWhole h (s.scratchChecks ea ty.size) fun t L last =>
    let old := t.scratchNat s.cw.core (ea L).toNat ty.size
    let t1 := if old = zx ty.width (s.opnd L d imm)
      then t.putScratch s.cw.core (ea L).toNat (leBytes ty.size (s.opnd L c imm).toNat) else t
    t1.governedPut L last d (putAsOf ty) (BitVec.ofNat 64 old) (sharers h (s.active h)))

/-- CCWAIT (R299): the request goes to the counter's home, and the lane waits. -/
def execCcwait (h : Head) (d a b c : Spec) (imm : BitVec 32) (s : State) : Host.Outcome State Fault Refusal :=
  let ea (L : Nat) : Word := s.ea L a b 0 imm
  let acc (L : Nat) : Acc := s.monitorAcc (ea L) 8
  let act := s.active h
  let goes := goesOf h act acc
  let ret (L : Nat) (last : Bool) : Ret := (s.retFor L (s.dstOfLast L last d) .raw true).shared s (sharers h act)
  let s1 := s.runAccessWait h (.ccwait h d a b c imm) acc .sent (fun L => s.opnd L c imm) (fun t L f last =>
    t.request L (f.key (ea L).toNat) (.monitor 8 0 true) (some (ret L last)))
  .next (s1.watchKeys (goes.map (fun g => (ret g.1 (goes.getLast?.map (·.1) == some g.1), g.2.key (ea g.1).toNat))))

end Sys2Proof.Machine
end

