-- ==== Sys2Proof/Machine/Spawn.lean ====
section
/-! DEFINITION. Spawning roaming threads, records of work-graph nodes, flushes and cancellation (spec/10_spawn R284 to
R300; the nymph header of spec/07_memory R198). -/

namespace Sys2Proof.Machine

/-! ### The nymph header (R198) -/

/-- The fields of a nymph's header. -/
structure NymphHdr where
  depth : BitVec 32 := 0
  tag : BitVec 8 := 0
  launch : Nat := 0
  cdelta : Nat := 0
  dtime : Nat := 0
  fm1 : Nat := 0
  pred : BitVec 7 := 0
  fmode : BitVec 4 := 0
  fstat : BitVec 5 := 0
  wake : Bool := false
  wsp : Word := 0
  pc : Word := 0
  deriving DecidableEq, Repr

/-- A PC of 64 bits in 61: its line and its slot (R198). -/
def packPc (pc : Word) : BitVec 61 := pc.extractLsb' 6 58 ++ pc.extractLsb' 0 3
/-- The PC that 61 bits stand for. -/
def unpackPc (x : BitVec 61) : Word := x.extractLsb' 3 58 ++ (0#3) ++ x.extractLsb' 0 3

/-- The 256 bits of a header (R198). -/
def NymphHdr.pack (h : NymphHdr) : BitVec 256 :=
  h.depth ++ h.tag ++ BitVec.ofNat 12 h.launch ++ BitVec.ofNat 20 h.cdelta ++ BitVec.ofNat 40 h.dtime ++
    BitVec.ofNat 5 h.fm1 ++ h.pred ++ h.fmode ++ h.fstat ++ BitVec.ofBool h.wake ++ h.wsp.extractLsb' 3 61 ++ packPc h.pc

/-- The fields that 256 bits stand for (R198). -/
def NymphHdr.unpack (x : BitVec 256) : NymphHdr :=
  { depth := x.extractLsb' 224 32, tag := x.extractLsb' 216 8, launch := fld x 215 204, cdelta := fld x 203 184,
    dtime := fld x 183 144, fm1 := fld x 143 139, pred := x.extractLsb' 132 7, fmode := x.extractLsb' 128 4,
    fstat := x.extractLsb' 123 5, wake := x.getLsbD 122, wsp := x.extractLsb' 61 61 ++ (0#3),
    pc := unpackPc (x.extractLsb' 0 61) }

/-- The header of a nymph. -/
def Nymph.fields (n : Nymph) : NymphHdr := .unpack n.hdr

/-! ### Spawning (R284 to R288) -/

/-- NREG of a control word (R284). -/
def ctlNreg (c : Word) : Nat := fld c 3 0
/-- TAG of a control word (R284). -/
def ctlTag (c : Word) : BitVec 8 := c.extractLsb' 8 8
/-- COUNT of a control word (R284). -/
def ctlCount (c : Word) : Nat := fld c 21 16

/-- A SPAWN_REFUSED event (R286). -/
def spawnEvent (sub : BitVec 8) (va : Word := 0) : Event := { cause := 0x10, sub := sub, addr := va }

/-- Checks 1 and 2 of R286; `extra` is the number of registers that SPAWNA fills first. -/
def State.spawnShape (s : State) (b : Spec) (c : Word) (extra : Nat) : Option Event :=
  let F := (s.launch s.cw.launch).r.frame
  let n := ctlNreg c
  let off := match b with | .win k => k.val | _ => 0
  if 8 < n ∨ 32 < off + n ∨ F < n + extra then some (spawnEvent 0x07)
  else if F < 4 then some (spawnEvent 0x02)
  else none

/-- The argument block of a lane (R284). -/
def State.spawnBlock (s : State) (L : Nat) (b : Spec) (n : Nat) : List Word :=
  match b with
  | .win k => (List.range n).map (fun i => (s.cl L).win (k.val + i))
  | _ => List.replicate n 0

/-- The largest completion time of a thread's writes that are applied and on their way back to it (R224). -/
def State.ctimeMax (s : State) (tid : Nat) : Nat :=
  (s.ctimes.filter (fun c => c.tid = tid)).foldl (fun m c => Nat.max m c.c.toNat) 0

/-- A child of a lane (R285, R288): it waits at the issuing core for its issuer's earlier writes. -/
def State.addChild (s : State) (L : Nat) (t : Word) (c : Word) (dest : Nat) (pool : Option Nat) (words : List Word) :
    State :=
  let w := s.cw
  let l := s.cl L
  let F := (s.launch w.launch).r.frame
  let hdr : NymphHdr := { tag := ctlTag c, launch := w.launch, fm1 := F - 1, fmode := l.fmode, pc := t }
  let n : Nymph :=
    { tid := s.serial, dom := w.dom, hdr := hdr.pack, words := (words ++ List.replicate F 0).take F,
      full := BitVec.ofNat 64 (Nat.max l.cmaxs.toNat (s.ctimeMax l.tid)), entry := true, fresh := true, parent := l.tid,
      parentSerial := s.serial, batch := s.cur.serial, src := w.core, dest := dest, pool := pool }
  { s with children := s.children ++ [n], serial := s.serial + 1 }

/-- A lane's children (R286 check 6, R287): each with its destination and its first registers. -/
def State.spawnLane (s : State) (L : Nat) (t : Word) (b : Spec) (c : Word) (pool : Option Nat)
    (kids : List (Nat × List Word)) : Except Event State :=
  let k := s.cw.launch
  if (s.launch k).r.maxlive < (s.launch k).roamers + kids.length then .error (spawnEvent 0x01)
  else
    let block := s.spawnBlock L b (ctlNreg c)
    let s1 := kids.foldl (fun st kid => st.addChild L t c kid.1 pool (kid.2 ++ block)) s
    let s2 := s1.updLaunch k (fun l => { l with roamers := l.roamers + kids.length })
    .ok (if kids = [] then s2 else s2.addUnits k kids.length)

/-- A spawn (R284, R286): lane by lane in ascending order; `plan` gives a lane's children or its failing check, and the
state after what it read. -/
def State.runSpawn (s : State) (h : Head) (b c : Spec) (imm : BitVec 32) (pool : Option Nat)
    (plan : State → Nat → Word → Except Event (List (Nat × List Word)) × State) : State :=
  let act := s.active h
  let t := relTarget s.cur.pc imm
  let r : State × List (Nat × Event) := act.foldl (fun r L =>
    let cw := s.opnd L c 0
    let p := plan r.1 L cw
    match p.1 with
    | .error e => (p.2, r.2 ++ [(L, e)])
    | .ok kids =>
      match p.2.spawnLane L t b cw pool kids with
      | .error e => (p.2, r.2 ++ [(L, e)])
      | .ok s' => (s', r.2)) (s, [])
  let bad := r.2.map (·.1)
  ((r.1.advance (s.gang.filter (fun L => ¬bad.contains L))).raise r.2)

/-- A target address of a spawn (R286 checks 4 and 5): its home core. -/
def State.spawnHome (s : State) (va : Word) : Except Event Nat :=
  match s.trAny va with
  | .fail e => .error (pageEvent e va 0)
  | .ok f => if f.remote then .error (spawnEvent 0x03 va) else .ok (homeOf (f.key va.toNat))

/-- SPAWN (R284 to R288). -/
def execSpawn (h : Head) (a b c : Spec) (imm : BitVec 32) (s : State) : Host.Outcome State Fault Refusal :=
  .next (s.runSpawn h b c imm none fun t L cw =>
    (match s.spawnShape b cw 0 with
    | some e => .error e
    | none => (s.spawnHome (s.opnd L a 0)).map (fun home => [(home, [])]), t))

/-- The entries of SPAWNA's list: alignment, R on a PLAIN page (R286 check 4), then each read at its home, which of a line
tagged for the launch is the consumer's first read (R234). -/
def State.spawnList (s t : State) (va : Word) (n : Nat) : Except Event (List Word) × State :=
  if n = 0 then (.ok [], t)
  else if va.toNat % 8 ≠ 0 then (.error (alignEvent 0x01 va), t)
  else
    let at' (i : Nat) : Word := va + BitVec.ofNat 64 (8 * i)
    match (List.range n).findSome? (fun i => match s.plainAcc (at' i) 8 0 true false with | .trap e => some e | _ => none) with
    | some e => (.error e, t)
    | none =>
      let r := (List.range n).foldl (fun (r : List Word × State) i =>
        match s.plainAcc (at' i) 8 0 true false with
        | .go f => let x := r.2.readHome (f.key (at' i).toNat) 8 s.cw.launch; (r.1 ++ [BitVec.ofNat 64 (leNat x.1)], x.2)
        | _ => r) ([], t)
      (.ok r.1, r.2)

/-- SPAWNA (R284 to R288): every entry translates before any is refused for its region. -/
def execSpawna (h : Head) (a b c : Spec) (imm : BitVec 32) (s : State) : Host.Outcome State Fault Refusal :=
  .next (s.runSpawn h b c imm none fun t L cw =>
    match s.spawnShape b cw 2 with
    | some e => (.error e, t)
    | none =>
      if 32 < ctlCount cw then (.error (spawnEvent 0x06), t)
      else
        match s.spawnList t (s.opnd L a 0) (ctlCount cw) with
        | (.error e, t) => (.error e, t)
        | (.ok ws, t) =>
          (match ws.findSome? (fun va => match s.trAny va with | .fail e => some (pageEvent e va 0) | .ok _ => none) with
          | some e => .error e
          | none =>
            ((List.range ws.length).zip ws).foldl (fun r p =>
              match r, s.spawnHome p.2 with
              | .error e, _ => .error e
              | _, .error e => .error e
              | .ok ks, .ok home => .ok (ks ++ [(home, [p.2, BitVec.ofNat 64 p.1])])) (.ok []), t))

/-- SPAWND (R284 to R288, R290): into the donation pool of the issuing core's cluster. -/
def execSpawnd (h : Head) (b c : Spec) (imm : BitVec 32) (s : State) : Host.Outcome State Fault Refusal :=
  .next (s.runSpawn h b c imm (some (clusterOf s.cw.core)) fun t _ cw =>
    (match s.spawnShape b cw 0 with
    | some e => .error e
    | none => .ok [(s.cw.core, [])], t))

/-! ### Records, flushes and cancellation -/

/-- RECORD (R294): check 1 at the core; the registers from w_k to the last of the frame go to the node's home with the
issuer's FMODE (R113); the other checks are made there, and the lane waits for their outcome. -/
def execRecord (h : Head) (a : Spec) (k : Fin 32) (f : Bool) (s : State) : Host.Outcome State Fault Refusal :=
  let ea (L : Nat) : Word := s.opnd L a 0
  let acc (L : Nat) : Acc :=
    let va := ea L
    if va.toNat % 64 ≠ 0 then .trap (alignEvent 0x01 va)
    else
      match s.tr va with
      | .fail e => .trap (pageEvent e va 0)
      | .ok g => if ¬g.r then .trap (protEvent 0x01 va) else if ¬g.w then .trap (protEvent 0x02 va) else .go g
  .next (s.runAccessWait h (.record h a k f) acc .sent (fun _ => 0) (fun t L g _ =>
    t.request L (g.key (ea L).toNat)
      (.record ((List.range (Nat.min 32 (s.frameSize s.cw) - k.val)).map (fun i => (s.cl L).win (k.val + i))) f
        (s.cl L).fmode) none))

/-- CFLUSH (R289): a flush to the home core of the address; it is not ordered against nymphs. -/
def execCflush (h : Head) (a : Spec) (matchTag : Bool) (tag : BitVec 8) (s : State) :
    Host.Outcome State Fault Refusal :=
  let acc (L : Nat) : Acc :=
    match s.trAny (s.opnd L a 0) with
    | .fail e => .trap (pageEvent e (s.opnd L a 0) 0)
    | .ok f => .go f
  .next (s.runAccess h (.cflush h a matchTag tag) acc (fun t L f _ =>
    { t with flushes := t.flushes ++
        [(homeOf (f.key (s.opnd L a 0).toNat), s.cw.launch, if matchTag then some tag else none)] }))

/-- The live unit of a level, in a domain, whose completion counter lies at an address (R300, R417). -/
def State.unitAt (s : State) (lvl : UnitLevel) (dom : Nat) (va : Word) : Option Nat :=
  match lvl with
  | .launch =>
    (s.launches.find? (fun e => e.2.live && decide (e.2.r.dom = dom) && e.2.counters.contains va)).map (·.1)
  | .graph => (s.graphs.find? (fun e => e.2.live && decide (e.2.dom = dom) && decide (e.2.cc = va))).map (·.1)
  | .job => (s.jobs.find? (fun e => e.2.live && decide (e.2.dom = dom) && decide (e.2.cc = va))).map (·.1)

/-- Has a CANCEL of this very unit been accepted before (R300)?  One of the graph or the job to which it belongs is none. -/
def State.unitCancelled (s : State) (lvl : UnitLevel) (k : Nat) : Bool :=
  s.cancels.any (fun c => decide (c.lvl = lvl) && decide (c.key = k)) ||
  match lvl with
  | .launch => (s.launch k).asked
  | .graph => (s.graphs.get {} k).asked
  | .job => (s.jobs.get {} k).asked

/-- CANCEL of a unit by a domain (R300): the cancellation is handed to the front end; answers whether it was refused. -/
def State.cancelUnit (s : State) (lvl : UnitLevel) (dom : Nat) (va : Word) : State × Bool :=
  match s.unitAt lvl dom va with
  | none => (s, true)
  | some k => if s.unitCancelled lvl k then (s, true) else ({ s with cancels := s.cancels ++ [⟨lvl, k⟩] }, false)

/-- CANCEL of a level (R300): lane by lane; with U once, and the predicate in every guarded lane. -/
def State.runCancel (s : State) (h : Head) (lvl : UnitLevel) (p : Fin 8) (a : Spec) : State :=
  let act := s.active h
  let s1 := (execFor h act).foldl (fun (t : State) L =>
    let r := t.cancelUnit lvl s.cw.dom (s.opnd L a 0)
    (fateOf h act L).foldl (fun t K => t.setPredOf K p r.2) r.1) s
  s1.advance s.gang

/-- CANCEL.LAUNCH (R300). -/
def execCancelLaunch (h : Head) (p : Fin 8) (a : Spec) (s : State) : Host.Outcome State Fault Refusal :=
  .next (s.runCancel h .launch p a)

/-- CANCEL.GRAPH (R300). -/
def execCancelGraph (h : Head) (p : Fin 8) (a : Spec) (s : State) : Host.Outcome State Fault Refusal :=
  .next (s.runCancel h .graph p a)

/-- CANCEL.JOB (R300). -/
def execCancelJob (h : Head) (p : Fin 8) (a : Spec) (s : State) : Host.Outcome State Fault Refusal :=
  .next (s.runCancel h .job p a)

end Sys2Proof.Machine
end

