-- ==== Sys2Proof/Machine/EngineOps.lean ====
section
/-! DEFINITION. The engine instructions (spec/11_engines R303, R306, R338 to R340): PUSH, RCFENCE, ENGQ. -/

namespace Sys2Proof.Machine

/-- Entries of an engine's queue (R303). -/
def queueEntries (e : EngineKind) : Nat :=
  match e with
  | .copy => 32 | .cond => 8 | .disp => 64

/-- The number of an engine: its core, or for a dispatch engine its cluster (R303). -/
def engineUnit (e : EngineKind) (core : Nat) : Nat :=
  match e with
  | .disp => clusterOf core
  | _ => core

/-- The number of the engine that holds a command. -/
def Cmd.unit (c : Cmd) : Nat := engineUnit c.engine c.core

/-- The queue entries in use: commands accepted that have neither retired nor been paused (R304, R327). -/
def State.queueUsed (s : State) (e : EngineKind) (unit : Nat) : Nat :=
  (s.cmds.filter (fun c => decide (c.engine = e) && decide (c.unit = unit) && decide (c.st ≠ .paused))).length

/-- The commands of a timeline context that have not retired. -/
def State.unretired (s : State) (g k : Nat) : List Cmd :=
  s.cmds.filter (fun c => decide (c.group = g) && (match c.track with | some (j, _) => decide (j = k) | none => false))

/-- Is a PUSH refused: its queue full, or its context at the limit of R248? -/
def State.pushRefused (s : State) (e : EngineKind) (core g : Nat) (k : Option Nat) : Bool :=
  decide (queueEntries e ≤ s.queueUsed e (engineUnit e core)) ||
  match k with
  | none => false
  | some j => decide (16 ≤ (s.unretired g j).length + (s.timeline g j).errq.length)

/-- The buffer number of a command (R316). -/
def cmdBuf (words : List Word) : Nat := match words with | w :: _ => fld w 10 8 | [] => 0

/-- The offsets of the origin that a lane pushes for (R413, R423). -/
def State.pushOffs (s : State) (L : Nat) : Offs :=
  match (s.launch s.cw.launch).splice with
  | some p => if s.originOf L = 2 then p.offs else {}
  | none => {}

/-- One command of a PUSH (R338): refused without a trace, or accepted with its number. -/
def State.pushOne (s : State) (e : EngineKind) (L : Nat) (lane : Option Nat) (k : Option Nat) (words : List Word)
    (writers : List Nat) : State × Bool :=
  let w := s.cw
  if s.pushRefused e w.core w.group k then (s, true)
  else
    let tl := s.timeline w.group (k.getD 0)
    let s1 := match k with
      | some j => s.setTimeline w.group j { tl with issued := tl.issued + 1 }
      | none => s.addUnits w.launch 1
    let f := s.issueFrag { cause := 0, sub := 0 } L
    let c : Cmd :=
      { serial := s1.serial, bytes := words.flatMap (fun v => leBytes 8 v.toNat), engine := e, core := w.core,
        part := w.part, dom := w.dom, launch := w.launch, wid := s.cur.wid, tid := (s.cl L).tid, group := w.group,
        lane := lane, track := k.map (fun j => (j, tl.issued + 1)), pc := s.cur.pc, origpc := f.origpc,
        origin := s.originOf L, buf := cmdBuf words + (s.pushOffs L).c, iter := f.iter, word := s.cur.word, matrix := s.cur.serial, writers := writers,
        wslot := w.slot }
    ({ s1 with cmds := s1.cmds ++ [c], serial := s1.serial + 1 }, false)

/-- A governed predicate result (R55). -/
def State.answerPred (s : State) (L : Nat) (p : Fin 8) (b : Bool) : State :=
  s.answer (s.retFor L (s.dstOf L (.pred p)) .raw) [if b then 1 else 0]

/-- PUSH (R338): one command for each active lane with a window block, one for the issue with a scalar block. -/
def execPush (h : Head) (p : Fin 8) (a : Spec) (k : Option (Fin 16)) (e : EngineKind) (s : State) :
    Host.Outcome State Fault Refusal :=
  let act := s.active h
  let tids := act.map (fun L => (s.cl L).tid)
  let ctx (L : Nat) : Option Nat := k.map (fun j => s.tlNumber L j.val)
  let s1 :=
    match a with
    | .win i =>
      act.foldl (fun (t : State) L =>
        let words := (List.range 8).map (fun j => (s.cl L).win (i.val + j))
        let r := t.pushOne e L (some L) (ctx L) words [(s.cl L).tid]
        r.1.answerPred L p r.2) s
    | .sca i =>
      match act with
      | [] => s
      | L :: _ =>
        let words := (List.range 8).map (fun j => s.sreg L (i.val + j))
        let r := s.pushOne e L none (ctx L) words tids
        act.foldl (fun (t : State) L => t.answerPred L p r.2) r.1
    | _ => s
  .next (s1.advance s.gang)

/-- The record copies of a domain dropped at a core and at its cluster's dispatch engine (R339). -/
def State.dropRecords (s : State) (core dom : Nat) : State :=
  { s with recs := s.recs.filter (fun r => ¬(r.dom = dom ∧ r.unit = engineUnit r.engine core)) }

/-- RCFENCE (R339): it waits for the earlier writes of its guarded lanes. -/
def execRcfence (h : Head) (s : State) : Host.Outcome State Fault Refusal :=
  let act := s.active h
  match act with
  | [] => .next (s.advance s.gang)
  | _ =>
    if act.any (fun L => s.writesOf (s.cl L).tid s.cur.serial) then .next ((s.skipIdle h).waitIn act (.rcfence h) .hold)
    else .next ((s.dropRecords s.cw.core s.cw.dom).advance s.gang)

/-- The status of operation n of a context (R340). -/
def State.opStatus (s : State) (g k n : Nat) : Nat :=
  let tl := s.timeline g k
  if n = 0 ∨ tl.issued < n then 0
  else
    match (s.unretired g k).find? (fun c => c.track = some (k, n)) with
    | some c => (match c.st with | .queued => 1 | .paused => 3 | _ => 2)
    | none => if tl.errq.any (fun e => e.n = n) then 4 else 5

/-- The progress and the SENT counts of operation n of a context (R340): zero in states 0 and 5. -/
def State.opProgress (s : State) (g k n : Nat) : Nat × Tab Nat :=
  match (s.unretired g k).find? (fun c => c.track = some (k, n)) with
  | some c => (c.prog, c.sent)
  | none =>
    match (s.timeline g k).errq.find? (fun e => e.n = n) with
    | some e => (e.prog, e.sent)
    | none => (0, [])

/-- The value of ENGQ (R340). -/
def State.engq (s : State) (core g k n sel peer : Nat) : Word :=
  let left (e : EngineKind) : Nat := queueEntries e - s.queueUsed e (engineUnit e core)
  BitVec.ofNat 64 (match sel with
    | 0 => s.opStatus g k n
    | 1 => (s.opProgress g k n).1
    | 2 => (s.opProgress g k n).2.get 0 peer
    | 3 => left .copy
    | 4 => left .cond
    | _ => left .disp)

/-- ENGQ (R340): a governed result. -/
def execEngq (h : Head) (d : Spec) (k : Fin 16) (b : Spec) (sel : Fin 6) (peer : Fin 16) (s : State) :
    Host.Outcome State Fault Refusal :=
  let run := execFor h (s.active h)
  let last := run.getLast?
  let s1 := run.foldl (fun t L =>
    t.answer ((s.retFor L (s.dstOfLast L (last == some L) d) .raw).shared s (sharers h (s.active h)))
      [s.engq s.cw.core s.cw.group (s.tlNumber L k.val) (s.opnd L b 0).toNat sel.val peer.val]) s
  .next (s1.advance s.gang)

end Sys2Proof.Machine
end

