-- ==== Sys2Proof/Machine/Blocks.lean ====
section
/-! DEFINITION. Block formats decoded and encoded (spec/07_memory R189, R190; spec/11_engines R322, R323), and the
condensing of an operand (R331, R332). -/

namespace Sys2Proof.Machine

/-! ### Decoding (R189, R190) -/

/-- The value of an element of a BFP block with scale `s` and `m`-bit mantissas (R190). -/
def bfpValue (m : Nat) (slot : List Byte) (i : Nat) : FVal :=
  let s : Int := sx 8 (BitVec.ofNat 64 (leNat (slot.take 1)))
  if s = -128 then .fin false 0 0
  else
    let v := leNat (slot.drop 8) / 2 ^ (m * i) % 2 ^ m
    let x : Int := if 2 * v < 2 ^ m then v else (v : Int) - 2 ^ m
    .fin (decide (x < 0)) x.natAbs (s - m + 1)

/-- The F32 pattern of an element of a BFP block; every element is exact in F32 (R190). -/
def bfpBits (m : Nat) (slot : List Byte) (i : Nat) : Nat :=
  match bfpValue m slot i with
  | .fin n x e => if x = 0 then 0 else (fp32.deliver .rne false n x e).bits
  | _ => 0

/-- NNZ of a BMV header (R189). -/
def bmvNnz (slot : List Byte) : Nat := leNat (slot.take 8) % 2 ^ 10
/-- TYPE of a BMV header (R189). -/
def bmvType (slot : List Byte) : Nat := leNat (slot.take 8) / 2 ^ 10 % 4
/-- MASK of a BMV block (R189). -/
def bmvMask (slot : List Byte) (B : Nat) : Nat := leNat ((slot.drop 8).take (B / 8))

/-- The number of set bits below a position. -/
def popBelow (mask n : Nat) : Nat := ((List.range n).filter (fun i => mask / 2 ^ i % 2 = 1)).length

/-- TYPE that matches a format (R189). -/
def bmvTypeOf (fmt : Nat) : Nat := fmt - 10

/-- Does a block of a leaf's format pass the checks of R190? -/
def Leaf.blockOk (f : Leaf) (slot : List Byte) : Bool :=
  decide (f.fmt ≤ 9) ||
    (decide (bmvNnz slot ≤ f.bmvV) && decide (bmvNnz slot = popBelow (bmvMask slot f.blkElems) f.blkElems) &&
      decide (bmvType slot = bmvTypeOf f.fmt))

/-- The encoding of an element of a block of a leaf's format (R190). -/
def Leaf.element (f : Leaf) (slot : List Byte) (i : Nat) : Nat :=
  if f.fmt ≤ 9 then bfpBits f.mant slot i
  else
    let mask := bmvMask slot f.blkElems
    if mask / 2 ^ i % 2 = 0 then 0
    else
      let t := bmvBytes f.fmt
      leNat ((slot.drop (8 + f.blkElems / 8 + popBelow mask i * t)).take t)

/-- The result of a decoding load (R190): one element, or four of a packed type. -/
def Leaf.decodeLoad (f : Leaf) (slot : List Byte) (ty : Ty) (i : Nat) : Word :=
  match ty with
  | .h4 | .b4 => (List.range 4).foldl (fun w k => w ||| BitVec.ofNat 64 (f.element slot (i + k) * 2 ^ (16 * k))) 0
  | _ => BitVec.ofNat 64 (f.element slot i)

/-! ### Encoding (R322, R323) -/

/-- Floor(log2) of a nonzero finite value. -/
def FVal.log2 : FVal → Int
  | .fin _ m e => m.log2 + e
  | _ => 0

/-- Is the value a zero? -/
def FVal.isZero : FVal → Bool
  | .fin _ m _ => decide (m = 0)
  | _ => false

/-- Is the value an infinity? -/
def FVal.isInf : FVal → Bool
  | .inf _ => true
  | _ => false

/-- The scale of a BFP block (R322). -/
def bfpScale (xs : List FVal) : Int :=
  if xs.all (fun x => x.isZero || x.isNan) then -128
  else if xs.any FVal.isInf then 127
  else
    let logs := (xs.filter (fun x => !(x.isZero || x.isNan))).map FVal.log2
    sat ((logs.foldl max (logs.headD 0)) + 1) (-127) 127

/-- A mantissa of a BFP block (R322). -/
def bfpMant (m : Nat) (s : Int) (x : FVal) : Int :=
  let top : Int := 2 ^ (m - 1) - 1
  if s = -128 then 0
  else
    match x with
    | .nan _ => 0
    | .inf n => if n then -top else top
    | .fin n v e =>
      let sh := e - (s - m + 1)
      let r : Nat := if 0 ≤ sh then v * 2 ^ sh.toNat else roundShift .rne n v (-sh).toNat
      sat (if n then -(r : Int) else r) (-top - 1) top

/-- The bytes of a BFP block (R189, R322). -/
def bfpEncode (m : Nat) (xs : List FVal) : List Byte :=
  let s := bfpScale xs
  let bits := ((List.range xs.length).zip xs).foldl (fun a p => a + (bfpMant m s p.2 % 2 ^ m).toNat * 2 ^ (m * p.1)) 0
  leBytes 1 (s % 256).toNat ++ leBytes 7 0 ++ leBytes (xs.length * m / 8) bits

/-- The format of the values of a BMV page (R187). -/
def bmvFmt (fmt : Nat) : Fmt := match fmt with | 10 => bf16 | 11 => fp16 | _ => fp32

/-- Is an encoding one of zero (R323, R332)? -/
def Fmt.zeroEnc (F : Fmt) (b : Nat) : Bool := decide (b % 2 ^ (F.eb + F.fb) = 0)
/-- Is an encoding that of an infinity or a NaN? -/
def Fmt.special (F : Fmt) (b : Nat) : Bool := decide (F.expField b = 2 ^ F.eb - 1)

/-- The bytes of a BMV block of a leaf's format (R189, R323). -/
def Leaf.bmvEncode (f : Leaf) (es : List Nat) : List Byte :=
  let F := bmvFmt f.fmt
  let t := bmvBytes f.fmt
  let ix := (List.range es.length).zip es
  let nz := ix.filter (fun p => !F.zeroEnc p.2)
  let mask := nz.foldl (fun a p => a + 2 ^ p.1) 0
  let segs := (List.range 8).filter (fun g => (ix.any (fun p => decide (p.1 / 64 = g) && F.special p.2)))
  let nf := segs.foldl (fun a g => a + 2 ^ g) 0
  leBytes 8 (nf * 2 ^ 16 + bmvTypeOf f.fmt * 2 ^ 10 + nz.length) ++ leBytes (es.length / 8) mask ++
    nz.flatMap (fun p => leBytes t p.2) ++ leBytes ((f.bmvV - nz.length) * t) 0

/-- The count of nonzero elements of a block (R324). -/
def Leaf.nonzero (f : Leaf) (es : List Nat) : Nat := (es.filter (fun e => !(bmvFmt f.fmt).zeroEnc e)).length

/-! ### Condensing (R331, R332) -/

/-- A CONDENSE command (R331). -/
structure Condense where
  fmt : Fmt
  src : Nat
  spitch : Nat
  rows : Nat
  p : Nat
  npass : Nat
  dst : Nat
  mout : Nat
  keep : Nat

/-- Bytes of an element. -/
def Fmt.size (F : Fmt) : Nat := F.width / 8

/-- A field of a command: `n` bytes at an offset, as a number. -/
def cmdField (bytes : List Byte) (off n : Nat) : Nat := leNat ((bytes.drop off).take n)

/-- Bytes of one pass of one row. -/
def Condense.seg (c : Condense) : Nat := c.p * c.fmt.size
/-- Bytes from the first to the last source byte. -/
def Condense.srcLen (c : Condense) : Nat := (c.rows - 1) * c.spitch + c.npass * c.seg
/-- The largest extent of the output. -/
def Condense.dstLen (c : Condense) : Nat := c.npass * c.rows * c.seg

/-- Do two byte ranges overlap? -/
def overlap (a n b m : Nat) : Bool := decide (a < b + m) && decide (b < a + n) && decide (0 < n) && decide (0 < m)

/-- The checks of R309 on a CONDENSE command: none where it is refused.  The gaps that SPITCH leaves between source rows count
as source for the overlap of R331 (DESIGN CHOICE, log entry 92). -/
def parseCondense (bytes : List Byte) : Option Condense :=
  let dty := cmdField bytes 2 1
  let c : Condense :=
    { fmt := (match dty with | 8 => fp64 | 9 => fp32 | 10 => fp16 | _ => bf16), src := cmdField bytes 8 4,
      spitch := cmdField bytes 0x0C 4, rows := cmdField bytes 0x10 2, p := cmdField bytes 0x12 2,
      npass := cmdField bytes 0x14 1, dst := cmdField bytes 0x18 4, mout := cmdField bytes 0x1C 4,
      keep := cmdField bytes 0x20 8 }
  if cmdField bytes 0 1 ≠ 0x10 ∨ cmdField bytes 1 1 ≠ 0 ∨ dty < 8 ∨ 11 < dty ∨ cmdField bytes 3 5 ≠ 0 ∨
      c.spitch % 8 ≠ 0 ∨ c.rows = 0 ∨ 512 < c.rows ∨ c.p = 0 ∨ 512 < c.p ∨ c.npass = 0 ∨ 64 < c.npass ∨
      cmdField bytes 0x15 3 ≠ 0 ∨ c.dst % 8 ≠ 0 ∨ c.mout % 8 ≠ 0 ∨ cmdField bytes 0x28 24 ≠ 0 ∨
      overlap c.src c.srcLen c.dst c.dstLen ∨ overlap c.src c.srcLen c.mout 8 then none
  else some c

/-- Does every range of a CONDENSE command lie in an allocation (R331)? -/
def Condense.inside (c : Condense) (r : Nat × Nat) : Bool :=
  let ok (a n : Nat) : Bool := decide (r.1 ≤ a) && decide (a + n ≤ r.1 + r.2)
  decide (0 < r.2) && ok c.src c.srcLen && ok c.dst c.dstLen && ok c.mout 8

/-- The bytes of pass j of a row. -/
def State.condSeg (s : State) (core : Nat) (c : Condense) (j r : Nat) : List Byte :=
  s.scratch.getN unwritten (scratchKey core (c.src + r * c.spitch + j * c.seg)) c.seg

/-- Does pass j of a row hold a nonzero element (R332)? -/
def State.condNonzero (s : State) (core : Nat) (c : Condense) (j r : Nat) : Bool :=
  (chunks c.fmt.size c.p (s.condSeg core c j r)).any (fun e => !c.fmt.zeroEnc (leNat e))

/-- The passes kept (R332), ascending. -/
def State.condKept (s : State) (core : Nat) (c : Condense) : List Nat :=
  (List.range c.npass).filter (fun j => decide (c.keep / 2 ^ j % 2 = 1) || (List.range c.rows).any (s.condNonzero core c j))

/-- The pass map of kept passes. -/
def condMask (kept : List Nat) : Nat := kept.foldl (fun a j => a + 2 ^ j) 0

/-- One row of the q-th kept pass packed (R332). -/
def State.condPack (s : State) (core : Nat) (c : Condense) (q j r : Nat) : State :=
  s.putScratch core (c.dst + (q * c.rows + r) * c.seg) (s.condSeg core c j r)

/-- The charge of a CONDENSE command (R328). -/
def Condense.charge (c : Condense) (kept : Nat) : Nat :=
  16 + (c.rows * c.npass * c.seg + 255) / 256 + (kept * c.rows * c.seg + 255) / 256

/-- A CONDENSE run to its end (R332): the map and the packed output.  Where the output range covers the word at MOUT, the
spec gives no order between the two, and a free choice decides. -/
def State.condRun (s : State) (core : Nat) (c : Condense) : State × List Nat :=
  let kept := s.condKept core c
  let put (t : State) : State := t.putScratch core c.mout (leBytes 8 (condMask kept))
  let pack (t : State) : State :=
    ((List.range kept.length).zip kept).foldl (fun t p => (List.range c.rows).foldl (fun t r => t.condPack core c p.1 p.2 r) t) t
  let first := Config.choice s.draws
  ((if first then pack (put s.drawn) else put (pack s.drawn)), kept)

/-- Does a lane wait in an MCOND (R375)? -/
def Warp.inMcond (w : Warp) (L : Nat) : Bool :=
  match (w.lane L).wait with
  | some { instr := .mcond .., .. } => decide ((w.lane L).st = .waiting)
  | _ => false

/-- The bytes of the command that the MCOND of a wait runs (R375). -/
def Wait.condBytes (k : Wait) : List Byte := k.ops.flatMap (fun p => leBytes 8 p.2.toNat)

/-- Old or new, freely for each byte of a range (R368). -/
def State.tear (s new : State) (bits core a n : Nat) : State :=
  s.putScratch core a (((List.range n).zip ((s.scratch.getN unwritten (scratchKey core a) n).zip
    (new.scratch.getN unwritten (scratchKey core a) n))).map (fun x => if bits.testBit x.1 then x.2.2 else x.2.1))

/-- An MCOND part-way: each byte of its output range holds its old or its new value (R368). -/
def State.condPart (s : State) (core : Nat) (k : Wait) : State :=
  match parseCondense k.condBytes with
  | none => s
  | some c =>
    let r := s.condRun core c
    let t := s.drawn.drawn
    (t.tear r.1 (Config.number (s.draws + 1)) core c.mout 8).tear r.1 (Config.number (s.draws + 1) / 256) core c.dst
      (r.2.length * c.rows * c.seg)

/-- The MCONDs that wait in some warps, part-way. -/
def State.condTorn (s : State) (mine : Nat × Warp → Bool) : State :=
  (s.warps.filter mine).foldl (fun (t : State) x =>
    match x.2.liveLanes.find? x.2.inMcond with
    | some L => (match (x.2.lane L).wait with | some k => t.condPart x.2.core k | none => t)
    | none => t) s

end Sys2Proof.Machine
end

