-- ==== Sys2Proof/Machine/Matrix.lean ====
section
/-! DEFINITION. The matrix class (spec/13_matrix R348 to R375): modes, descriptors, the pass, the instructions, and the
start and the rows of an operation. -/

namespace Sys2Proof

open Machine

/-! ### Modes (R348, R349, R61) -/

/-- Activation bits of a BFP mode (R61). -/
def bfpA (k : Fin 49) : Nat := 2 + k.val / 7
/-- Weight bits of a BFP mode (R61). -/
def bfpW (k : Fin 49) : Nat := 2 + k.val % 7

/-- Is the mode a BFP mode? -/
def MatMode.isBfp : MatMode → Bool
  | .bfp _ => true
  | _ => false

/-- DSIZE of a floating-point mode (R348). -/
def MatMode.dsize : MatMode → Nat
  | .f64 => 8 | .f32 => 4 | .f16 | .bf16 => 2 | .bfp _ => 0

/-- The operand format of a floating-point mode. -/
def MatMode.fmt : MatMode → Fmt
  | .f64 => fp64 | .f32 => fp32 | .f16 => fp16 | _ => Machine.bf16

/-- The accumulator type (R348). -/
def MatMode.facc : MatMode → Fmt
  | .f64 => fp64 | _ => fp32

/-- ASIZE (R348). -/
def MatMode.asize : MatMode → Nat
  | .f64 => 8 | _ => 4

/-- The pass depth K (R348, R349). -/
def MatMode.K : MatMode → Nat
  | .f64 => 16 | .f32 => 32 | .f16 | .bf16 => 128
  | .bfp k => 2 ^ (8192 / (bfpA k * bfpW k)).log2

/-- The plane width N (R348). -/
def MatMode.N : MatMode → Nat
  | .f64 => 32 | _ => 64

/-- The block size of a code of R353. -/
def blockOf (code : Nat) : Nat := 16 * 2 ^ code

/-- Row bytes RB (R348, R349), with the code of the activation blocks. -/
def MatMode.rb (m : MatMode) (code : Nat) : Nat :=
  match m with
  | .bfp k => m.K / blockOf code * (8 + blockOf code * bfpA k / 8)
  | _ => m.K * m.dsize

/-- Plane bytes PB (R348, R349), with the code of the weight blocks. -/
def MatMode.pb (m : MatMode) (code : Nat) : Nat :=
  match m with
  | .bfp k => 64 * (m.K / blockOf code) * (8 + blockOf code * bfpW k / 8)
  | _ => m.K * m.N * m.dsize

/-- The mode codes of MSTAT (R374). -/
def MatMode.code : MatMode → Nat
  | .f64 => 8 | .f32 => 9 | .f16 => 10 | .bf16 => 11 | .bfp k => 0x11 + k.val

/-- Values of a run of elements: encodings back to back, or BFP blocks of B elements of m bits. -/
def blockValues (m B : Nat) (n : Nat) (bytes : List Byte) : List FVal :=
  (chunks (8 + B * m / 8) (n / B) bytes).flatMap (fun slot => (List.range B).map (bfpValue m slot))

/-- The K activations of a row (R350). -/
def MatMode.rowValues (m : MatMode) (code : Nat) (bytes : List Byte) : List FVal :=
  match m with
  | .bfp k => blockValues (bfpA k) (blockOf code) m.K bytes
  | _ => (chunks m.dsize m.K bytes).map (fun b => m.fmt.value (leNat b))

/-- The K weights of a column (R351). -/
def MatMode.colValues (m : MatMode) (code : Nat) (bytes : List Byte) : List FVal :=
  match m with
  | .bfp k => blockValues (bfpW k) (blockOf code) m.K bytes
  | _ => (chunks m.dsize m.K bytes).map (fun b => m.fmt.value (leNat b))

/-- Column n of a plane held at a place that answers bytes (R351). -/
def MatMode.column (m : MatMode) (code : Nat) (bytes : Nat → Nat → List Byte) (n : Nat) : List FVal :=
  let len := m.pb code / m.N
  m.colValues code (bytes (n * len) len)

/-- Is a block code one that a mode permits? -/
def MatMode.codeOk (m : MatMode) (code : Nat) : Bool := if m.isBfp then decide (code ≤ 2) else decide (code = 0)

end Sys2Proof

namespace Sys2Proof.Machine

/-! ### The pass (R354) -/

/-- One pass of one row and one column into an accumulator element of format F, operands of format G (R354). -/
def pass (F G : Fmt) (c : Nat) (xs ys : List FVal) : FRes :=
  let ps := products xs ys
  let ts := ps.filterMap id
  let els := xs ++ ys
  let inv := ps.contains none || (hasInf false ts && hasInf true ts)
  if els.any FVal.isNan || inv then
    { bits := F.nan, flags := G.snan els ||| (if inv then fNV else 0) }
  else
    let cv := F.value c
    let infs := ts.filter FVal.isInf
    let e := minExp ts
    let v := sumAt e ts
    if infs = [] ∧ v = 0 then { bits := c }
    else if cv.isNan then { bits := F.quiet c, flags := F.snan [cv] }
    else
      match infs, cv with
      | .inf n :: _, .inf n' => if n = n' then { bits := F.inf n } else F.invalid
      | .inf n :: _, _ => { bits := F.inf n }
      | _, .inf _ => { bits := c }
      | _, _ => F.sum .rne false [cv, .fin (decide (v < 0)) v.natAbs e]

/-! ### Descriptors (R353) -/

/-- M of ACT. -/
def actM (a : Word) : Nat := fld a 60 52 + 1
/-- APITCH of ACT. -/
def actPitch (a : Word) : Nat := fld a 51 32
/-- ABB of ACT. -/
def actAbb (a : Word) : Nat := fld a 31 30
/-- SADDR of ACT. -/
def actAddr (a : Word) : Nat := fld a 20 0
/-- AADDR of ACCD. -/
def accAddr (a : Word) : Nat := fld a 16 0
/-- TAG of ACCD. -/
def accTag (a : Word) : BitVec 32 := a.extractLsb' 32 32
/-- NPASS of WD. -/
def wdPasses (w : Word) : Nat := fld w 30 24 + 1
/-- WBB of WD. -/
def wdWbb (w : Word) : Nat := fld w 23 22
/-- WADDR of WD. -/
def wdAddr (w : Word) : Nat := fld w 18 0

/-- Is ACT within its limits? -/
def actOk (m : MatMode) (a : Word) : Bool :=
  fld a 63 61 = 0 && fld a 29 21 = 0 && m.codeOk (actAbb a) && actPitch a % 8 = 0 &&
    decide (m.rb (actAbb a) ≤ actPitch a) && actAddr a % 8 = 0

/-- Is ACCD within its limits, but for the end of the slice? -/
def accdOk (a : Word) : Bool := fld a 31 17 = 0 && accAddr a % 8 = 0

/-- Is WD within its limits? -/
def wdOk (m : MatMode) (sparse : Bool) (w : Word) : Bool :=
  fld w 63 31 = 0 && fld w 21 19 = 0 && m.codeOk (wdWbb w) && wdAddr w % 64 = 0 &&
    (if sparse then decide (wdPasses w ≤ 64) else fld w 30 24 = 0)

/-- Bits of a map from NPASS upwards are zero (R360). -/
def mapOk (x : Word) (n : Nat) : Bool := decide (x.toNat / 2 ^ n = 0)

/-! ### Events and shared checks (R357, R367) -/

/-- A MATRIX_SHAPE event (R367). -/
def shapeEvent (sub : BitVec 8) : Event := { cause := 0x0F, sub := sub }

/-- The first of checks that fails. -/
def firstFail (cs : List (Bool × Event)) : Option Event := (cs.find? (fun c => c.1)).map (·.2)

/-- Checks 1 and 2 of R357. -/
def State.matHeld (s : State) (w : Warp) : List (Bool × Event) :=
  [ (w.roaming, shapeEvent 0x01), (!(s.group w.group).acc, scratchEvent 0x04 0) ]

/-- Does a weight-buffer range lie in the half of a partition (R321)? -/
def inHalf (part addr n : Nat) : Bool :=
  let base := 262144 * (part % 2)
  decide (base ≤ addr) && decide (addr + n ≤ base + 262144)

/-- An instruction of the class that acts once per issue (R366): the checks trap every guarded lane. -/
def State.runOnce (s : State) (h : Head) (checks : Nat → List (Bool × Event)) (eff : Nat → State) : State :=
  match s.active h with
  | [] => s.advance s.gang
  | L :: _ =>
    match firstFail (checks L) with
    | some e => s.raiseAll h e
    | none => (eff L).advance s.gang

/-- The state with the matrix unit of a partition changed. -/
def State.updMat (s : State) (p : Nat) (f : MatUnit → MatUnit) : State :=
  s.updPart p (fun q => { q with mat := f q.mat })

/-! ### MLS, MSWAP, MZA, MSTAT, MCOND (R369, R370, R373 to R375) -/

/-- MLS (R369): the plane is copied into the shadow. -/
def execMls (h : Head) (m : MatMode) (a : Spec) (imm : BitVec 32) (s : State) : Host.Outcome State Fault Refusal :=
  let w := s.cw
  .next (s.runOnce h
    (fun L =>
      let wd := s.opnd L a imm
      s.matHeld w ++ [ (!wdOk m false wd, shapeEvent 0x02),
        (!inHalf w.part (wdAddr wd) (m.pb (wdWbb wd)), scratchEvent 0x05 0) ])
    (fun L =>
      let wd := s.opnd L a imm
      let bytes := s.wbuf.getN unwritten (weightKey w.core (wdAddr wd)) (m.pb (wdWbb wd))
      let s1 := s.updMat w.partId (fun u =>
        { u with shadow := { mode := some m, bwCode := wdWbb wd, bytes := Tab.setN unwritten [] 0 bytes } })
      s1.charge w.launch ((m.pb (wdWbb wd) + 511) / 512) s.cur.origin (s.cl L).sup))

/-- MSWAP (R370). -/
def execMswap (h : Head) (s : State) : Host.Outcome State Fault Refusal :=
  .next (s.runOnce h (fun _ => s.matHeld s.cw)
    (fun _ => s.updMat s.cw.partId (fun u => { u with active := u.shadow, shadow := u.active })))

/-- LEN of MZA's operand (R373). -/
def mzaLen (r : Word) : Nat := fld r 49 32

/-- MZA (R373). -/
def execMza (h : Head) (a : Spec) (imm : BitVec 32) (s : State) : Host.Outcome State Fault Refusal :=
  let w := s.cw
  .next (s.runOnce h
    (fun L =>
      let r := s.opnd L a imm
      let bad := fld r 63 50 ≠ 0 || fld r 31 17 ≠ 0 || mzaLen r % 8 ≠ 0 || mzaLen r = 0 || accAddr r % 8 ≠ 0 ||
        decide (131072 < accAddr r + mzaLen r)
      s.matHeld w ++ [ (bad, shapeEvent 0x02) ])
    (fun L =>
      let r := s.opnd L a imm
      let s1 := s.putAcc w.partId (accAddr r) (List.replicate (mzaLen r) 0)
      (s1.updMat w.partId (fun u => { u with mflags := 0 })).charge w.launch ((mzaLen r + 255) / 256) s.cur.origin
        (s.cl L).sup))

/-- The operation that MSTAT describes, with its STATE (R374): the one in progress, the next that waits, or the last to
end. -/
def MatUnit.described (u : MatUnit) : MState × MatOp :=
  match u.st, u.waiting with
  | .running, _ => (.running, u.op)
  | .paused, _ => (.paused, u.op)
  | _, o :: _ => (.waiting, o)
  | st, [] => (st, u.op)

/-- The code of STATE (R374). -/
def MState.code : MState → Nat
  | .none => 0 | .waiting => 1 | .running => 2 | .paused => 3 | .complete => 4 | .aborted => 5

/-- The mode code of a plane (R374). -/
def Plane.code (p : Plane) : Nat := match p.mode with | some m => m.code | none => 0

/-- A word of the unit's state (R374). -/
def MatUnit.word (u : MatUnit) (narrow : Bool) (sel : Nat) : Word :=
  let d := u.described
  let o := d.2
  BitVec.ofNat 64 (match sel with
    | 0 => o.steps * 2 ^ 56 + o.scans * 2 ^ 48 + o.skips * 2 ^ 40 + u.mflags.toNat * 2 ^ 24 + u.shadow.code * 2 ^ 16 +
        u.active.code * 2 ^ 8 + narrow.toNat * 2 ^ 7 + o.narrowed.toNat * 2 ^ 6 + d.1.code
    | 1 => (if o.sparse then o.pass else 0) * 2 ^ 16 + o.row
    | _ => if o.cv.isSome then o.tag.toNat * 2 ^ 32 + o.members.toNat else 0)

/-- The value of MSTAT (R374): a workgroup that does not hold the unit reads zero but for NARROW. -/
def State.mstat (s : State) (w : Warp) (sel : Nat) : Word :=
  if !w.roaming && (s.group w.group).acc then (s.part w.partId).mat.word s.host.narrow sel
  else if sel = 0 then BitVec.ofNat 64 (s.host.narrow.toNat * 2 ^ 7) else 0

/-- MSTAT (R374). -/
def execMstat (h : Head) (d : Spec) (sel : Fin 3) (s : State) : Host.Outcome State Fault Refusal :=
  .next ((s.putOnce d (s.active h) (s.mstat s.cw sel.val)).advance s.gang)

/-- The words of the command of an MCOND, as they were when it issued (R57, R375). -/
def State.condWords (s : State) (k : Fin 64) (L : Nat) : List (Spec × Word) :=
  s.keep ((List.range 8).map (fun i => .sca (Fin.ofNat 64 (k.val + i)))) 0 L

/-- MCOND (R375): checked when it issues; its guarded lanes wait for the condensing unit, and attempted again it runs and
gives its result. -/
def execMcond (h : Head) (d : Spec) (k : Fin 64) (s : State) : Host.Outcome State Fault Refusal :=
  let w := s.cw
  match s.active h with
  | [] => .next (s.advance s.gang)
  | L :: _ =>
    match parseCondense ((s.condWords k L).flatMap (fun p => leBytes 8 p.2.toNat)) with
    | none => .next (s.raiseAll h { cause := 0x01, sub := 0x0A })
    | some c =>
      if !c.inside (s.scratchRange w (s.originOf L)) then .next (s.raiseAll h (scratchEvent 0x01 0))
      else if ¬s.cur.retry then .next ((s.skipIdle h).waitIn (s.active h) (.mcond h d k) .hold (fun _ => 0) (s.condWords k))
      else
        let r := s.condRun w.core c
        let s1 := r.1.charge w.launch (c.charge r.2.length) s.cur.origin (s.cl L).sup
        .next ((s1.putOnce d (s.active h) (BitVec.ofNat 64 (condMask r.2))).advance s.gang)

/-! ### MMA and MMAS (R357 to R360) -/

/-- Bytes of scratchpad that the activations of an operation span (R357, R360). -/
def MatOp.actLen (o : MatOp) : Nat :=
  let rb := o.mode.rb (actAbb o.act)
  if o.sparse then popBelow o.amap.toNat 64 * actM o.act * rb else (actM o.act - 1) * actPitch o.act + rb

/-- Bytes of the accumulator slice (R352). -/
def MatOp.slice (o : MatOp) : Nat := actM o.act * o.mode.N * o.mode.asize

/-- Checks 1 to 9 of R357.  An empty range of activations lies anywhere; WADDR must lie in the half that is held even where WMAP
is 0 (R360; DESIGN CHOICE, log entry 97). -/
def State.matChecks (s : State) (L : Nat) (o : MatOp) : List (Bool × Event) :=
  let w := s.cw
  let r := s.scratchRange w (s.originOf L)
  let n := wdPasses o.wd
  let shape := !actOk o.mode o.act || !accdOk o.accd ||
    (o.sparse && (!wdOk o.mode true o.wd || !mapOk o.amap n || !mapOk o.wmap n))
  let plane := (s.part w.partId).mat.active
  s.matHeld w ++
  [ (shape, shapeEvent 0x02),
    (o.sparse && (o.mode.isBfp || decide (actPitch o.act ≠ o.mode.rb 0)), shapeEvent 0x06),
    (!o.sparse && decide (plane.mode ≠ some o.mode), shapeEvent 0x07),
    (decide (131072 < accAddr o.accd + o.slice), scratchEvent 0x04 0),
    (decide (0 < o.actLen) && !(decide (r.1 ≤ actAddr o.act) && decide (actAddr o.act + o.actLen ≤ r.1 + r.2)),
      scratchEvent 0x01 0),
    (o.sparse && !inHalf w.part (wdAddr o.wd) (popBelow o.wmap.toNat 64 * o.mode.pb 0), scratchEvent 0x05 0),
    (match o.cv with | some k => !s.cvGranted w.launch k | none => false, { cause := 0x07, sub := 0x07 }) ]

/-- An operation that has passed its checks waits for its start, in the order of issue (R357, R362): the gang's guarded lanes
wait. -/
def State.matWait (s : State) (h : Head) (i : Instr) (o : MatOp) (phase : Phase) : State :=
  let s1 := (s.skipIdle h).waitIn (s.active h) i phase
  let mine (x : MatOp) : Bool := decide (x.serial = o.serial)
  s1.updMat s.cw.partId (fun u =>
    { u with waiting := (if u.waiting.any mine then u.waiting.map (fun x => if mine x then o else x) else u.waiting ++ [o]) })

/-- A waiting operation removed from its unit. -/
def State.unwait (s : State) (p serial : Nat) : State :=
  s.updMat p (fun u => { u with waiting := u.waiting.filter (fun o => o.serial ≠ serial) })

/-- The operation that waits at the issuing warp's partition since an issue; none where it has not issued yet. -/
def State.matHeldOp (s : State) : Option MatOp :=
  if s.cur.retry then (s.part s.cw.partId).mat.waiting.find? (fun x => decide (x.serial = s.cur.serial)) else none

/-- MMA and MMAS (R357, R371, R372).  Checks 1 to 9 are made when it issues, on the operands it reads then; check 10, the sign,
waits as CVSIGN waits, while its register is not armed (R162) and until what a release at cluster scope waits for has come
(R359). -/
def State.runMat (s : State) (h : Head) (i : Instr) (o : MatOp) : State :=
  match s.active h with
  | [] => s.advance s.gang
  | L :: _ =>
    let o := s.matHeldOp.getD { o with sup := (s.cl L).sup }
    match (if s.matHeldOp.isSome then none else firstFail (s.matChecks L o)) with
    | some e => s.raiseAll h e
    | none =>
      match o.cv with
      | none => s.matWait h i o .sent
      | some k =>
        let c := s.cv (cvIndex (clusterOf s.cw.core) k)
        if ¬c.armed ∨ ¬s.warpReady .cluster s.cur.wid s.cur.serial then s.matWait h i { o with signed := false } .hold
        else if ¬c.accepts s.cw (accTag o.accd) then (s.unwait s.cw.partId o.serial).raiseAll h (shapeEvent 0x03)
        else (s.matWait h i { o with signed := true } .sent).cvSign s.cur.wid k

/-- The operation that an issue describes. -/
def State.matOp (s : State) (m : MatMode) (sparse : Bool) (cv : Option (Fin 16)) (act accd : Word) : MatOp :=
  { serial := s.cur.serial, word := s.cur.word, mode := m, sparse := sparse, wid := s.cur.wid, group := s.cw.group,
    launch := s.cw.launch, cv := cv.map (·.val), act := act, accd := accd,
    tag := (if cv.isSome then accTag accd else 0), origin := s.cur.origin }

/-- MMA (R371). -/
def execMma (h : Head) (m : MatMode) (cv : Option (Fin 16)) (act accd : Spec) (imm : BitVec 32) (s : State) :
    Host.Outcome State Fault Refusal :=
  let L := ((s.active h).head?).getD 0
  .next (s.runMat h (.mma h m cv act accd imm) (s.matOp m false cv (s.opnd L act imm) (s.opnd L accd imm)))

/-- MMAS (R360, R372). -/
def execMmas (h : Head) (m : MatMode) (k : Fin 64) (cv : Option (Fin 16)) (act accd : Spec) (imm : BitVec 32)
    (s : State) : Host.Outcome State Fault Refusal :=
  let L := ((s.active h).head?).getD 0
  let o := s.matOp m true cv (s.opnd L act imm) (s.opnd L accd imm)
  .next (s.runMat h (.mmas h m k cv act accd imm)
    { o with amap := s.sreg L k.val, wmap := s.sreg L (k.val + 1), wd := s.sreg L (k.val + 2) })

/-! ### The start of an operation (R358) -/

/-- The partitions named by MEMBERS in a cluster, ascending (R356). -/
def membersOf (cluster : Nat) (m : BitVec 32) : List Nat := (lanesOf m).map (fun j => 32 * cluster + j)

/-- The operation with a sign record that waits first at a partition. -/
def State.waitingFor (s : State) (p k : Nat) (r : Sign) : Option MatOp :=
  (s.part p).mat.waiting.find? (fun o => o.signed && decide (o.cv = some k) && decide ((s.warp o.wid).signs.get .none k = r) &&
    !(s.waiters o.wid o.serial).isEmpty)

/-- Do two members agree (R358)? -/
def MatOp.agrees (a b : MatOp) : Bool :=
  decide (a.sparse = b.sparse) && decide (a.mode = b.mode) && decide (actM a.act = actM b.act) &&
    decide (actAbb a.act = actAbb b.act) &&
    (!a.sparse || (decide (wdPasses a.wd = wdPasses b.wd) && decide (a.amap = b.amap)))

/-- Is the matrix unit of a partition free for its next operation? -/
def MatUnit.free (u : MatUnit) : Bool := decide (u.st ≠ .running) && decide (u.st ≠ .paused)

/-- Lanes of a waiting operation trap (R358). -/
def State.matTrap (s : State) (p : Nat) (o : MatOp) (e : Event) : State :=
  (s.unwait p o.serial).trapWait o.wid ((s.waiters o.wid o.serial).map (fun L => (L, e)))

/-- An operation starts at its partition, at a moment that a serial number names: the instruction retires, its sign record
becomes none (R358). -/
def State.matBegin (s : State) (start p : Nat) (o : MatOp) (stream : Nat × Word) (members : BitVec 32) : State :=
  let s := s.unwait p o.serial
  let s := s.updMat p (fun u =>
    { u with st := .running, op := { o with stream := stream.1, streamAct := stream.2, members := members, start := start } })
  let s := match o.cv with
    | some k => s.updWarp o.wid (fun w => { w with signs := w.signs.set .none k .none })
    | none => s
  let s := s.charge o.launch 8 o.origin o.sup
  s.finishWait o.wid (s.waiters o.wid o.serial)

/-- Is a partition's operation first in its unit's order and its unit free? -/
def State.matReady (s : State) (p : Nat) (o : MatOp) : Bool :=
  (s.part p).mat.free && ((s.part p).mat.waiting.head?).map (·.serial) == some o.serial

/-- Is an operation with a sign record held in a saved context (R358: its workgroup is not resident)? -/
def State.signSaved (s : State) (p k : Nat) (r : Sign) : Bool :=
  s.saved.any (fun c => c.warps.any (fun w => decide (w.2.partId = p) && decide (w.2.signs.get .none k = r)))

/-- THE START OF AN OPERATION at a partition (R358): a solo operation when its unit is free; a gang's when every member
has signed, is resident and has a free unit, after the members are compared. -/
def State.matStart (s : State) (p : Nat) : State :=
  match (s.part p).mat.waiting with
  | [] => s
  | o :: _ =>
    if (s.waiters o.wid o.serial).isEmpty then s.unwait p o.serial
    else
    match (if o.signed then o.cv else none) with
    | none => if !o.signed then s else if (s.part p).mat.free then { s with serial := s.serial + 1 }.matBegin s.serial p o (p, o.act) 0 else s
    | some k =>
      match (s.warp o.wid).signs.get .none k with
      | .cancelled _ _ => s.matTrap p o (shapeEvent 0x08)
      | .completed tag gen members =>
        let r : Sign := .completed tag gen members
        let ps := membersOf (p / 32) members
        let found := ps.filterMap (fun q => (s.waitingFor q k r).map (fun x => (q, x)))
        if ps.any (fun q => (s.waitingFor q k r).isNone && s.signSaved q k r) then s
        else
          let lead := ((found.head?).map (·.2)).getD o
          if found.length ≠ ps.length ∨ ¬found.all (fun x => x.2.agrees lead) then
            found.foldl (fun t x => t.matTrap x.1 x.2 (shapeEvent 0x04)) s
          else if 1024 < o.mode.N * ps.length then found.foldl (fun t x => t.matTrap x.1 x.2 (shapeEvent 0x05)) s
          else if found.all (fun x => s.matReady x.1 x.2) then
            found.foldl (fun t x => t.matBegin s.serial x.1 x.2 ((ps.head?).getD p, lead.act) members)
              { s with serial := s.serial + 1 }
          else s
      | _ => s

/-! ### Rows and passes (R360, R371) -/

/-- The bytes of activation row m of a present pass q as they stand in the streamer's scratchpad (R350, R359).  The row is read
whole: of the old and new words that R362 allows a store not ordered with it, the model shows all old or all new (DESIGN CHOICE,
log entry 98). -/
def State.actBytes (s : State) (o : MatOp) (q m : Nat) : List Byte :=
  let rb := o.mode.rb (actAbb o.streamAct)
  let at' := actAddr o.streamAct + q * actM o.streamAct * rb + m * actPitch o.streamAct
  s.scratch.getN unwritten (scratchKey (o.stream / 2) at') rb

/-- The values of a row (R350). -/
def MatOp.rowOf (o : MatOp) (bytes : List Byte) : List FVal := o.mode.rowValues (actAbb o.streamAct) bytes

/-- One row met with every column of a plane: the slice's row in the accumulator, and MFLAGS (R354, R355). -/
def State.matRow (s : State) (p : Nat) (o : MatOp) (m : Nat) (xs : List FVal) (col : Nat → List FVal) : State :=
  let F := o.mode.facc
  let G := o.mode.fmt
  (List.range o.mode.N).foldl (fun t n =>
    let at' := accAddr o.accd + (m * o.mode.N + n) * o.mode.asize
    let r := pass F G (t.accNat p at' o.mode.asize) xs (col n)
    (t.putAcc p at' (leBytes o.mode.asize r.bits)).updMat p (fun u => { u with mflags := u.mflags ||| r.flags })) s

/-- Cycles of a row (R32, R365). -/
def State.rowCycles (s : State) : Nat := if s.host.narrow then 2 else 1

/-- The operation with a row done. -/
def MatOp.rowDone (o : MatOp) (narrow : Bool) : MatOp := { o with row := o.row + 1, narrowed := o.narrowed || narrow }

/-- The members of the operation that runs at a partition. -/
def MatOp.parts (o : MatOp) (p : Nat) : List Nat := if o.cv.isSome then membersOf (p / 32) o.members else [p]

/-- The partitions, among the members of an operation, whose units have it and have not ended it (R363). -/
def State.mates (s : State) (o : MatOp) (p : Nat) : List Nat :=
  (o.parts p).filter (fun q => !(s.part q).mat.free && decide ((s.part q).mat.op.start = o.start))

/-- Row m of an MMA at one member (R371). -/
def State.mmaRow (s : State) (xs : List FVal) (p : Nat) : State :=
  let u := (s.part p).mat
  let o := u.op
  let col := o.mode.column u.active.bwCode (fun a n => u.active.bytes.getN unwritten a n)
  let s := (s.matRow p o o.row xs col).charge o.launch s.rowCycles o.origin o.sup
  s.updMat p (fun u =>
    let o := u.op.rowDone s.host.narrow
    { u with op := o, st := if o.row = actM o.act then .complete else .running })

/-- Does a value name an infinity or a NaN? -/
def FVal.special (x : FVal) : Bool := x.isInf || x.isNan

/-- The operation moved to its next pass; the last one completes it and leaves both planes invalid (R360). -/
def MatUnit.nextPass (u : MatUnit) (f : MatOp → MatOp) : MatUnit :=
  let o := f { u.op with pass := u.op.pass + 1, row := 0, run := false, cycles := 0, rows := [] }
  if o.pass = wdPasses o.wd then
    { u with op := o, st := .complete, active := { u.active with mode := none }, shadow := { u.shadow with mode := none } }
  else { u with op := o }

/-- A present plane of an MMAS loaded from the weight buffer through the shadow and swapped in (R360). -/
def State.mmasLoad (s : State) (p : Nat) : State :=
  let o := (s.part p).mat.op
  if !o.wmap.getLsbD o.pass then s
  else
    let pb := o.mode.pb 0
    let bytes := s.wbuf.getN unwritten (weightKey (p / 2) (wdAddr o.wd + popBelow o.wmap.toNat o.pass * pb)) pb
    s.updMat p (fun u => { u with shadow := u.active, active := { mode := some o.mode, bytes := Tab.setN unwritten [] 0 bytes } })

/-- What becomes of the pass of an MMAS that its cursor names (R360): whether it runs, and what its scan costs; `rows` are
the activation rows where they are scanned. -/
def MatUnit.judge (u : MatUnit) (rows : List (List Byte)) : Bool × Nat :=
  let o := u.op
  match o.amap.getLsbD o.pass, o.wmap.getLsbD o.pass with
  | true, true => (true, 0)
  | true, false => (rows.any (fun r => (o.rowOf r).any FVal.special), (actM o.act * o.mode.rb 0 + 1535) / 1536)
  | false, true =>
    ((List.range o.mode.N).any (fun n =>
      (o.mode.column 0 (fun a k => u.active.bytes.getN unwritten a k) n).any FVal.special), (o.mode.pb 0 + 511) / 512)
  | false, false => (false, 0)

/-- A pass begun at one member: its plane is loaded, and its scan decides whether it runs (R360, R365). -/
def State.mmasEnter (s : State) (rows : List (List Byte)) (p : Nat) : State :=
  let s1 := s.mmasLoad p
  let u := (s1.part p).mat
  let o := u.op
  let judged := u.judge rows
  let scanned := if o.amap.getLsbD o.pass = o.wmap.getLsbD o.pass then 0 else 1
  (s1.charge o.launch judged.2 o.origin o.sup).updMat p (fun u => { u with
    op := { u.op with scans := u.op.scans + scanned, run := judged.1, rows := rows, cycles := 0 } })

/-- A pass over at one member without having run (R360, R365). -/
def State.mmasSkip (s : State) (p : Nat) : State :=
  let o := (s.part p).mat.op
  (s.charge o.launch 1 o.origin o.sup).updMat p (fun u => u.nextPass (fun o => { o with skips := o.skips + 1 }))

/-- One row of a pass at one member; the last row ends the pass, which costs at least the loading of its plane (R360, R365).  A
member whose pass does not run keeps step with the others, since one cursor is that of every member (R363). -/
def State.mmasRow (s : State) (xs : List FVal) (p : Nat) : State :=
  let u := (s.part p).mat
  let o := u.op
  let last := decide (o.row + 1 = actM o.act)
  if !o.run then
    if last then s.mmasSkip p else s.updMat p (fun u => { u with op := { u.op with row := u.op.row + 1 } })
  else
    let col (n : Nat) : List FVal :=
      if o.wmap.getLsbD o.pass then o.mode.column 0 (fun a k => u.active.bytes.getN unwritten a k) n
      else List.replicate o.mode.K (.fin false 0 0)
    let s1 := (s.matRow p o o.row xs col).charge o.launch s.rowCycles o.origin o.sup
    let s2 := s1.updMat p (fun u => { u with
      op := { u.op.rowDone s.host.narrow with cycles := u.op.cycles + s.rowCycles } })
    if last then
      (s2.charge o.launch ((o.mode.pb 0 + 511) / 512 - (o.cycles + s.rowCycles)) o.origin o.sup).updMat p (fun u =>
        u.nextPass (fun o => { o with steps := o.steps + 1 }))
    else s2

/-- One step of an MMAS at some members that share a cursor (R356, R360): at its first row a pass is begun, its activation
rows read once where a member scans them; then the row is run, or the pass is skipped where no member runs it. -/
def State.mmasStep (s : State) (o : MatOp) (ps : List Nat) : State :=
  let q := popBelow o.amap.toNat o.pass
  let present := o.amap.getLsbD o.pass
  let scans := present && ps.any (fun p => !(s.part p).mat.op.wmap.getLsbD o.pass)
  let rows := if scans then (List.range (actM o.act)).map (s.actBytes o q) else []
  let s1 := if o.row = 0 then ps.foldl (State.mmasEnter · rows ·) s else s
  if o.row = 0 ∧ !ps.any (fun p => (s1.part p).mat.op.run) then ps.foldl State.mmasSkip s1
  else
    let held := ((ps.head?).map (fun p => (s1.part p).mat.op.rows)).getD []
    let bytes := if held = [] then s1.actBytes o q o.row else held.getD o.row []
    let xs : List FVal := if present then o.rowOf bytes else List.replicate o.mode.K (.fin false 0 0)
    ps.foldl (State.mmasRow · xs ·) s1

/-- One step of the operation that runs at a partition, at every member together: each row is read once, from the
streamer's scratchpad (R356, R360, R363, R371). -/
def State.matStep (s : State) (p : Nat) : State :=
  let u := (s.part p).mat
  let ps := s.mates u.op p
  if u.st ≠ .running then s
  else if u.op.sparse then s.mmasStep u.op ps
  else ps.foldl (State.mmaRow · (u.op.rowOf (s.actBytes u.op 0 u.op.row)) ·) s

/-- Some steps of an operation. -/
def State.matAdvance : Nat → State → Nat → State
  | 0, s, _ => s
  | n + 1, s, p => (s.matStep p).matAdvance n p

end Sys2Proof.Machine
end

