-- ==== Sys2Proof/Machine/TimeOps.lean ====
section
/-! DEFINITION. The launch and time class (spec/14_launch R403 to R407): LAUNCH, TIME, SLEEP, BUDGET, LSTAT. -/

namespace Sys2Proof.Machine

/-- The supervisor handler that a launch made by a thread inherits (R251, R403, R422). -/
def Launch.suphOf (l : Launch) (origin : BitVec 8) : Word :=
  match l.splice with
  | some p => if origin = 2 then p.q.suph else p.p.suph
  | none => l.r.suph

/-- LAUNCH (R403): the record's lines must be readable; it goes to the front end, and the lane waits for the result. -/
def execLaunch (h : Head) (d a : Spec) (s : State) : Host.Outcome State Fault Refusal :=
  let w := s.cw
  let va (L : Nat) : Word := s.opnd L a 0
  let acc (L : Nat) : Acc :=
    if (va L).toNat % 128 ≠ 0 then .trap (alignEvent 0x01 (va L))
    else
      match s.plainAcc (va L) 1 0 true false with
      | .go _ => s.plainAcc (va L + 64) 1 0 true false
      | r => r
  let lau := s.launch w.launch
  .next (s.runAccessWait h (.launch h d a) acc .sent (fun _ => 0) (fun t L _ last =>
    let l := s.cl L
    let route : Route := .thread ((s.retFor L (s.dstOfLast L last d) .raw true).shared s (sharers h (s.active h))) (va L) w.core
      w.launch (Nat.max l.cmaxs.toNat (s.ctimeMax l.tid)) t.serial (lau.suphOf (s.originOf L))
      (if s.originOf L = 2 then lau.graph2 else lau.graph) lau.job
    let pos := ((s.active h).filter (fun K => decide (K < L))).length
    { t with subs := t.subs ++ [{ route := route, dom := w.dom, serial := t.serial, pos := pos }], serial := t.serial + 1 }))

/-- TIME (R28, R404): one value for the gang, never below what one of its threads has read. -/
def execTime (h : Head) (d : Spec) (s : State) : Host.Outcome State Fault Refusal :=
  let act := s.active h
  let v := act.foldl (fun m L => Nat.max m (s.cl L).tlast.toNat) (s.localTime s.cw.core)
  let s1 := s.updLanes s.cur.wid act (fun l => { l with tlast := BitVec.ofNat 64 v })
  .next ((s1.runAlu h d (fun _ => { d := some (BitVec.ofNat 64 v) })).drawn)

/-- SLEEP (R405). -/
def execSleep (h : Head) (a : Spec) (imm : BitVec 32) (s : State) : Host.Outcome State Fault Refusal :=
  let act := s.active h
  let late := act.filter (fun L => decide ((s.opnd L a imm).toNat ≤ s.localTime s.cw.core))
  let early := act.filter (fun L => !late.contains L)
  .next ((((s.skipIdle h).advance late).waitIn early (.sleep h a imm) .sent (fun L => s.opnd L a imm)).drawn)

/-- The charges that a read of the budget counts (R406): each charge of the last 256 cycles may be left out. -/
def Launch.counted (l : Launch) (now : Nat) (pick : Nat → Bool) : Nat :=
  let new := l.recent.filter (fun r => decide (now < r.1 + 427))
  let out := ((List.range new.length).zip new).foldl (fun n p => if pick p.1 then n + p.2.2 else n) 0
  l.charges - out

/-- BUDGET (R406); 0 in a demoted launch. -/
def execBudget (h : Head) (d : Spec) (s : State) : Host.Outcome State Fault Refusal :=
  let l := s.launch s.cw.launch
  let n := l.recent.length
  let used := l.counted s.now (fun i => Config.choice (s.draws + i))
  let v : Nat := if l.st = .demoted then 0 else l.budget - used
  let s1 := s.runAlu h d (fun _ => { d := some (BitVec.ofNat 64 v) })
  .next { s1 with draws := s1.draws + n + 1 }

/-- LSTAT (R407): the front end answers, and the lane waits. -/
def execLstat (h : Head) (d a : Spec) (sel : Fin 4) (s : State) : Host.Outcome State Fault Refusal :=
  let act := s.active h
  let run := execFor h act
  let s1 := run.foldl (fun (t : State) L =>
    let ret := (s.retFor L (s.dstOfLast L (run.getLast? == some L) d) .raw true).shared s (sharers h act)
    { t with lstats := t.lstats ++ [{ ret := ret, dom := s.cw.dom, index := fld (s.opnd L a 0) 11 0, sel := sel.val }] }) s
  .next ((s1.skipIdle h).waitIn act (.lstat h d a sel) .sent)

end Sys2Proof.Machine
end

