-- ==== Sys2Proof/Machine/Context.lean ====
section
/-! DEFINITION. Save records: warp records and lane blocks written as bytes, read back and checked (spec/09_traps R259
to R265, R275, R276). -/

namespace Sys2Proof.Machine

/-- The number of a Boolean. -/
def b2n (b : Bool) : Nat := if b then 1 else 0

/-- WSTAT of a lane (R140). -/
def Lane.wstat (l : Lane) : Word :=
  BitVec.ofNat 64 (l.depth.toNat * 2 ^ 32 + b2n l.defer * 2 ^ 12 + b2n (!l.handler) * 2 ^ 11 + l.resf.toNat * 2 ^ 8 +
    l.wb.toNat)

/-- The code of STATE in a lane block (R262): a lane whose handler entry or departure waits counts as ready. -/
def LaneSt.code : LaneSt → Nat
  | .ready | .entering | .departing => 0
  | .waiting => 1
  | .parked => 2
  | .exited => 3

/-- Does a wait have a deadline (R240, R299, R405)? -/
def Wait.timed (w : Wait) : Bool :=
  match w.instr with
  | .mwait .. | .ccwait .. | .sleep .. => true
  | _ => false

/-- Does a lane wait in an instruction that has a deadline? -/
def Lane.timed (l : Lane) : Bool := match l.wait with | some w => w.timed | none => false

/-- The deadline word of a lane block (R262): the deadline of the waiting instruction, where it has one; else the
abandoned BAR.HOLD, where there is one.  The word cannot hold both (log entry 89). -/
def Lane.deadlineWord (l : Lane) : Word :=
  if l.timed then (match l.wait with | some w => w.dl | none => 0)
  else
    match l.abandoned with
    | some a => BitVec.ofNat 64 (2 ^ 63 + a.b * 2 ^ 32 + a.gen.toNat)
    | none => 0

/-- STATE of a lane as a lane block shows it: every lane of a parked launch that has not exited is parked (R399). -/
def Lane.stateCode (l : Lane) (parked : Bool) : Nat := if parked ∧ l.st ≠ .exited then 2 else l.st.code

/-- The 64 bytes of a lane block (R262); `parked` says that the launch is parked. -/
def Lane.block (l : Lane) (parked : Bool := false) : List Byte :=
  leBytes 8 l.pc.toNat ++ leBytes 8 l.wsp.toNat ++ leBytes 8 l.cmaxp.toNat ++ leBytes 8 l.cmaxs.toNat ++
  leBytes 8 l.wstat.toNat ++
  leBytes 4 (l.fslot.toNat * 2 ^ 13 + l.marks.toNat * 2 ^ 5 + b2n l.sup * 2 ^ 4 + b2n l.monitor * 2 ^ 3 +
    b2n l.wake * 2 ^ 2 + l.stateCode parked) ++
  leBytes 4 l.frag.toNat ++ leBytes 1 l.preds.toNat ++ leBytes 1 l.fmode.toNat ++ leBytes 1 l.fstat.toNat ++
  leBytes 5 0 ++ leBytes 8 l.deadlineWord.toNat

/-- The code of a sign record (R261). -/
def Sign.code : Sign → Nat
  | .none => 0 | .pending => 1 | .completed .. => 2 | .cancelled .. => 3

/-- Bytes 0x1000 to 0x5FFF of the warp record of a warp (R261). -/
def Warp.record (w : Warp) (pending : Nat) (parked : Bool := false) : List Byte :=
  let signs := (List.range 16).foldl (fun a k => a + (w.signs.get .none k).code * 2 ^ (2 * k)) 0
  (List.range 32).flatMap (fun L => (w.lane L).block parked) ++
  (List.range 64).flatMap (fun k => leBytes 8 (w.sregs.get 0 k).toNat) ++
  leBytes 8 (pending * 2 ^ 36 + w.dom * 2 ^ 29 + w.launch * 2 ^ 17 + w.index * 2 ^ 12 + b2n w.roaming * 2 ^ 11) ++
  leBytes 8 (w.fragctr.toNat * 2 ^ 32 + signs) ++ leBytes 8 w.slots.toNat ++ leBytes 1512 0 ++
  (List.range 32).flatMap (fun L => (List.range 64).flatMap (fun j => leBytes 8 ((w.lane L).regs.get 0 j).toNat))

/-- A number of `n` bytes at an offset of a warp record read back; offsets count from the record's start. -/
def recField (rec : List Byte) (off n : Nat) : Nat := leNat ((rec.drop (off - 0x1000)).take n)

/-- Are the reserved bits of a lane block zero (R262)? -/
def blockReserved (rec : List Byte) (L : Nat) : Bool :=
  let at' := 0x1000 + 64 * L
  let ws := recField rec (at' + 0x20) 8
  decide (recField rec (at' + 0x28) 4 / 2 ^ 18 = 0) && decide (recField rec (at' + 0x30) 1 < 2 ^ 7) &&
    decide (recField rec (at' + 0x31) 1 < 2 ^ 4) && decide (recField rec (at' + 0x32) 1 < 2 ^ 5) &&
    decide (recField rec (at' + 0x33) 5 = 0) && decide (ws / 2 ^ 13 % 2 ^ 19 = 0) && decide (ws / 2 ^ 10 % 2 = 0) &&
    decide (ws / 2 ^ 6 % 4 = 0)

/-- The checks of R265 that concern the warp: its domain and launch, and the record's reserved bits. -/
def recordOk (rec : List Byte) (dom launch : Nat) : Bool :=
  let k := recField rec 0x1A00 8
  decide (k / 2 ^ 44 = 0) && decide (k % 2 ^ 11 = 0) && decide (k / 2 ^ 29 % 2 ^ 7 = dom) &&
    decide (k / 2 ^ 17 % 2 ^ 12 = launch) && decide (recField rec 0x1A10 8 / 2 ^ 32 = 0) &&
    decide (recField rec 0x1A18 1512 = 0)

/-- The checks of R265 on a lane. -/
def laneOk (rec : List Byte) (L : Nat) : Bool :=
  let at' := 0x1000 + 64 * L
  let ws := recField rec (at' + 0x20) 8
  let resf := ws / 2 ^ 8 % 4
  let slot := recField rec (at' + 0x28) 4 / 2 ^ 13 % 32
  pcValid (BitVec.ofNat 64 (recField rec at' 8)) && decide (ws % 2 ^ 6 % 8 = 0) && (resf = 1 || resf = 2) &&
    (decide (recField rec (at' + 0x2C) 4 = 0) || decide (recField rec 0x1A10 8 / 2 ^ slot % 2 = 1)) &&
    blockReserved rec L

/-- PENDING of a record (R261). -/
def recPending (rec : List Byte) : Nat := recField rec 0x1A00 8 / 2 ^ 36 % 2 ^ 8

/-- A lane as its record holds it, over the lane as it is; `parked` keeps waiting and parked lanes so. -/
def laneFrom (rec : List Byte) (L : Nat) (l : Lane) (keep : Bool) : Lane :=
  let at' := 0x1000 + 64 * L
  let ws := recField rec (at' + 0x20) 8
  let st := recField rec (at' + 0x28) 4
  let w (off : Nat) : Word := BitVec.ofNat 64 (recField rec (at' + off) 8)
  let dl := recField rec (at' + 0x38) 8
  let lst : LaneSt := match st % 4 with
    | 0 => .ready | 1 => (if keep then .waiting else .ready) | 2 => (if keep then .parked else .ready) | _ => .exited
  { l with
    st := lst, pc := w 0, wsp := w 8, cmaxp := w 0x10, cmaxs := w 0x18, depth := BitVec.ofNat 32 (ws / 2 ^ 32),
    defer := decide (ws / 2 ^ 12 % 2 = 1), handler := decide (ws / 2 ^ 11 % 2 = 0), resf := BitVec.ofNat 2 (ws / 2 ^ 8),
    wb := BitVec.ofNat 6 ws, fslot := BitVec.ofNat 5 (st / 2 ^ 13), marks := BitVec.ofNat 8 (st / 2 ^ 5),
    sup := decide (st / 2 ^ 4 % 2 = 1), monitor := decide (st / 2 ^ 3 % 2 = 1), wake := decide (st / 2 ^ 2 % 2 = 1),
    frag := BitVec.ofNat 32 (recField rec (at' + 0x2C) 4), preds := BitVec.ofNat 7 (recField rec (at' + 0x30) 1),
    fmode := BitVec.ofNat 4 (recField rec (at' + 0x31) 1), fstat := BitVec.ofNat 5 (recField rec (at' + 0x32) 1),
    abandoned := (if l.timed then l.abandoned
      else if dl / 2 ^ 63 = 1 then
        some { b := dl / 2 ^ 32 % 8, gen := BitVec.ofNat 32 dl, pc := (match l.abandoned with | some a => a.pc | none => w 0) }
      else none),
    regs := (List.range 64).foldl (fun r j =>
      r.set 0 j (BitVec.ofNat 64 (recField rec (0x2000 + 512 * L + 8 * j) 8))) [] }

/-- A lane that takes from a record what CTXREST takes and nothing else (R276): PC, registers, predicates, FMODE, FSTAT,
WSP, the completion maxima, the window, the mode, the level and the fragment.  It is ready then (log entry 88). -/
def laneTake (rec : List Byte) (L : Nat) (l : Lane) : Lane :=
  let r := laneFrom rec L l false
  { l with
    st := r.st, pc := r.pc, regs := r.regs, preds := r.preds, fmode := r.fmode, fstat := r.fstat, wsp := r.wsp,
    cmaxp := r.cmaxp, cmaxs := r.cmaxs, wb := r.wb, resf := r.resf, depth := r.depth, handler := r.handler, sup := r.sup,
    frag := r.frag, fslot := r.fslot, wait := none, monitor := false }

/-- A sign record as its two bits give it, over the record that is held; the tag and the generation that two bits cannot
carry are the register's. -/
def signFrom (code : Nat) (held : Sign) (c : CvReg) : Sign :=
  if held.code = code then held
  else
    match code with
    | 0 => .none
    | 1 => .pending
    | 2 => .completed c.tag c.gen c.members
    | _ => .cancelled c.tag c.gen

/-- The warp's own fields as its record holds them. -/
def warpFrom (rec : List Byte) (w : Warp) (cvs : Nat → CvReg) : Warp :=
  let fs := recField rec 0x1A08 8
  { w with
    sregs := (List.range 64).foldl (fun r k => r.set 0 k (BitVec.ofNat 64 (recField rec (0x1800 + 8 * k) 8))) [],
    fragctr := BitVec.ofNat 32 (fs / 2 ^ 32), slots := BitVec.ofNat 32 (recField rec 0x1A10 8),
    signs := (List.range 16).foldl (fun t k =>
      t.set .none k (signFrom (fs / 2 ^ (2 * k) % 4) (w.signs.get .none k) (cvs k))) [] }

/-- The fragments that the lanes of a warp name: those it holds with their lanes as they now are, and for an id that it
does not hold a fragment in a handler.  The record carries no order of formation (R165, R276): fragments not held count as the
youngest, by their lowest lane ascending (DESIGN CHOICE, log entry 91). -/
def Warp.refrag (w : Warp) : Warp :=
  let live := w.lanesWhere (fun l => decide (l.st ≠ .exited) && decide (l.frag ≠ 0))
  let mask (id : BitVec 32) : LaneMask := maskOf (live.filter (fun L => (w.lane L).frag = id))
  let kept := (w.frags.filter (fun f => decide (mask f.id ≠ 0))).map (fun f => { f with lanes := mask f.id })
  let new := ((live.filter (fun L => !(kept.any (fun f => f.id = (w.lane L).frag)))).map (fun L => ((w.lane L).frag, (w.lane L).fslot))).eraseDups
  { w with frags := kept ++ new.map (fun n =>
      { id := n.1, lanes := mask n.1, sib := 0, parent := 0, slot := n.2, st := .handler, ev := { cause := 0, sub := 0 } }) }

end Sys2Proof.Machine
end

