-- ==== Sys2Proof/Machine/System.lean ====
section
/-! DEFINITION. The system class (spec/09_traps R267 to R276; spec/15_splice R424, R425): TRAP, BRK, RETT, KRD, KWR, TLBINV,
TRACE, HALT, CTXSAVE, CTXREST. -/

namespace Sys2Proof.Machine

/-! ### TRAP and BRK (R269) -/

/-- SOFTWARE in the active lanes (R269). -/
def State.software (s : State) (h : Head) (sub : BitVec 8) (code : BitVec 32) : State :=
  s.raiseAll h { cause := 0x0D, sub := sub, info0 := code.setWidth 64 }

/-- TRAP (R269). -/
def execTrap (h : Head) (code : BitVec 32) (s : State) : Host.Outcome State Fault Refusal := .next (s.software h 0x01 code)

/-- BRK (R269). -/
def execBrk (h : Head) (code : BitVec 32) (s : State) : Host.Outcome State Fault Refusal := .next (s.software h 0x02 code)

/-! ### RETT (R254, R270, R424, R425) -/

/-- The fused PC of the first copied instruction of an origin that a test accepts. -/
def Splice.findFused (p : Splice) (org : Nat) (ok : Word → Bool) : Option Word :=
  ((List.range p.origins.length).find? (fun i =>
    match p.origins[i]? with | some o => decide (o.1 = org) && ok o.2 | none => false)).map
    (fun i => p.fb + BitVec.ofNat 64 (i / 5 * 64 + i % 5))

/-- Where a RESUME in original terms resumes in fused code (R424); a fragment that formed at padding, `at'`, resumes there when
RESUME is unchanged (R250, R254; log entry 25). -/
def Splice.resumeAt (p : Splice) (org : BitVec 8) (at' t : Word) : Option Word :=
  let o := org.toNat
  if o = 1 ∧ t = p.braP then some p.bodyQ
  else if o = 2 ∧ t = p.braQ then some p.loopBra
  else if o = 1 ∧ t = p.exitP then some p.epiQ
  else
    match p.findFused o (fun x => decide (x = t)) with
    | some x => some x
    | none =>
      if (o = 1 ∧ t = p.tstoPc) ∨ (o = 2 ∧ t = p.tlodPc) then p.findFused o (fun x => decide (t.toNat < x.toNat))
      else if t = at' ∧ p.fb.toNat ≤ t.toNat ∧ t.toNat < p.fb.toNat + 64 * p.lines ∧ (p.origins.getD (slotIndex p.fb t) (1, 0)).1 = 0 then
        some t
      else none

/-- The lowest free launch index (R385). -/
def State.freeIndex (s : State) : Option Nat :=
  ((List.range 4092).map (· + 4)).find? (fun i => !(s.launch i).live)

/-- A request to unsplice a fused launch (R425): without effect where the rule says so. -/
def State.requestUnsplice (s : State) (k : Nat) : State :=
  match (s.launch k).splice with
  | some p =>
    if p.retained ∧ ¬p.unsplicing ∧ s.freeIndex.isSome ∧ ¬s.unsplices.contains k then
      { s.updLaunch k (fun l => { l with splice := some { p with unsplicing := true } }) with unsplices := s.unsplices ++ [k] }
    else s
  | none => s

/-- The OVERRUN event of a launch (R249, R399). -/
def Launch.overrunEvent (l : Launch) : Event :=
  { cause := 0x0E, sub := 0x01, info0 := BitVec.ofNat 64 l.charges, info1 := BitVec.ofNat 64 l.budget }

/-- RETT for the active lanes of one fragment (R270). -/
def State.rettFrag (s : State) (ls : List Nat) (f : Frag) : State :=
  let wid := s.cur.wid
  let L := (ls.head?).getD 0
  let frame := s.frameVa wid f.slot.toNat
  match s.tr (BitVec.ofNat 64 (frame + 0x50)) with
  | .fail c => s.raise (ls.map (fun K => (K, pageEvent c (BitVec.ofNat 64 (frame + 0x50)) 0)))
  | .ok leaf =>
    let t : Word := BitVec.ofNat 64 (s.natAt (leaf.key (frame + 0x50)) 8)
    let lau := s.launch s.cw.launch
    let target := match lau.splice with
      | some p => if f.origin = 0 then some t else p.resumeAt f.origin f.pc t
      | none => some t
    match (if pcValid t then target else none) with
    | none =>
      s.doubleFault wid ls 0x05 (some f) (s.issueFrag { cause := 0, sub := 0, addr := t } L) { cause := 0, sub := 0 }
    | some x =>
      let held := ls.filter (fun K => (s.cl K).heldOverrun)
      let sup := (s.cl L).sup
      let asked := sup && decide (s.natAt (leaf.key (frame + 3)) 1 = 3)
      let s1 := s.returnTo wid ls f x
      let s2 := if asked then s1.requestUnsplice s.cw.launch else s1
      if held = [] then s2
      else
        let g : Frag := { s.issueFrag lau.overrunEvent L with
          origin := f.origin, iter := (if f.origin = 0 then 0 else (s.cl ((held.head?).getD L)).cursor), resume := t }
        ((s2.updLanes wid held (fun l => { l with heldOverrun := false })).newFrag wid held 0 f.id .pending g).1

/-- RETT (R270): lanes in user mode trap; the others return fragment by fragment. -/
def execRett (h : Head) (s : State) : Host.Outcome State Fault Refusal :=
  let act := s.active h
  let user := act.filter (fun L => !(s.cl L).handler)
  let hand := act.filter (fun L => (s.cl L).handler)
  let s1 := (s.skipIdle h).raise (user.map (fun L => (L, { cause := 0x07, sub := 0x05 })))
  let ids := (hand.map (fun L => (s.cl L).frag)).eraseDups
  .next (ids.foldl (fun (t : State) id =>
    match s.cw.frags.find? (fun f => f.id = id) with
    | some f => t.rettFrag (hand.filter (fun L => (s.cl L).frag = id)) f
    | none => t) s1)

/-! ### KRD and KWR (R272) -/

/-- DEVIDENT (R34). -/
def devident : Word :=
  BitVec.ofNat 64 (0xF1E6 * 2 ^ 48 + 0x0384 * 2 ^ 32 + (if Config.isModule then 2 else 1) * 2 ^ 28 +
    Config.stepping.toNat * 2 ^ 24 + 4 * 2 ^ 20 + 0x400 * 2 ^ 8)

/-- CBCFG of a buffer (R195). -/
def CBuf.cfg (b : CBuf) : Word := BitVec.ofNat 64 (b.nslots * 2 ^ 52 + b.slotb * 2 ^ 32 + b.base)
/-- CBSTAT of a buffer (R195). -/
def CBuf.stat (b : CBuf) : Word :=
  BitVec.ofNat 64 (b.free * 2 ^ 48 + b.filled * 2 ^ 36 + b.taken * 2 ^ 24 + b.head * 2 ^ 12 + b.tail)
/-- SCRATCH (R192). -/
def scratchWord (r : Nat × Nat) : Word := BitVec.ofNat 64 (r.2 * 2 ^ 32 + r.1)
/-- SKEW (R225). -/
def HostRegs.skewWord (h : HostRegs) : Word := BitVec.ofNat 64 (b2n h.skewFault * 2 ^ 63 + h.epsx.toNat)

/-- The value of a register of R272 in a lane; none for a number not in the table. -/
def State.kreg (s : State) (L n : Nat) : Option Word :=
  let l := s.cl L
  let w := s.cw
  if n = 0x0001 then some devident
  else if n = 0x0002 then some (BitVec.ofNat 64 (w.dom * 2 ^ 12 + w.launch))
  else if n = 0x0010 then some (l.fmode.setWidth 64)
  else if n = 0x0011 then some (l.fstat.setWidth 64)
  else if n = 0x0012 then some l.wsp
  else if n = 0x0013 then some l.wstat
  else if n = 0x0014 then some (scratchWord (s.scratchRange w (s.originOf L)))
  else if 0x0020 ≤ n ∧ n ≤ 0x0027 then some (s.cbuf w (s.cbNumber L (n - 0x20))).cfg
  else if 0x0028 ≤ n ∧ n ≤ 0x002F then some (s.cbuf w (s.cbNumber L (n - 0x28))).stat
  else if n = 0x0030 then some s.host.skewWord
  else if n = 0x0031 then some l.cmaxs
  else if n = 0x0040 then some ((s.domain w.dom).trlost.setWidth 64)
  else none

/-- Why a lane may not reach a register (R272). -/
def State.kregFault (s : State) (L n : Nat) : Option Event :=
  match s.kreg L n with
  | none => some { cause := 0x01, sub := 0x09 }
  | some _ => if n = 0x0001 ∧ ¬(s.cl L).sup then some { cause := 0x07, sub := 0x06 } else none

/-- The lanes that fail a per-lane check, with those that share their fate. -/
def failLanes (h : Head) (act : List Nat) (f : Nat → Option Event) : List (Nat × Event) :=
  (execFor h act).flatMap (fun L => match f L with
    | some e => (fateOf h act L).map (fun K => (K, e))
    | none => [])

/-- KRD (R272): a governed result. -/
def execKrd (h : Head) (d : Spec) (reg : BitVec 16) (s : State) : Host.Outcome State Fault Refusal :=
  let act := s.active h
  let fails := failLanes h act (fun L => s.kregFault L reg.toNat)
  let run := (execFor h act).filter (fun L => (s.kregFault L reg.toNat).isNone)
  let s1 := run.foldl (fun t L =>
    t.governedPut L (run.getLast? == some L) d .raw ((s.kreg L reg.toNat).getD 0) (sharers h act)) s
  .next (((s1.skipIdle h).advance (run.flatMap (fateOf h act))).raise fails)

/-- A lane's own registers as KWR writes them (R111, R112, R140). -/
def Lane.kwr (l : Lane) (n : Nat) (v : Word) : Lane :=
  if n = 0x0010 then { l with fmode := fmodeWrite v }
  else if n = 0x0011 then { l with fstat := v.extractLsb' 0 5 }
  else if n = 0x0012 then { l with wsp := v }
  else l

/-- KWR (R272): a write of a circular buffer's configuration leaves, and its lanes wait for its outcome (R195). -/
def execKwr (h : Head) (a : Spec) (reg : BitVec 16) (s : State) : Host.Outcome State Fault Refusal :=
  let act := s.active h
  let n := reg.toNat
  let fails := failLanes h act (fun L => s.kregFault L n)
  let run := (execFor h act).filter (fun L => (s.kregFault L n).isNone)
  let all := run.flatMap (fateOf h act)
  if 0x0020 ≤ n ∧ n ≤ 0x0027 then
    let new := run.map (fun L =>
      ((s.retFor L .none .raw true).shared s (sharers h act), s.cbNumber L (n - 0x20), s.opnd L a 0))
    let s1 : State := { s with cbWrites := s.cbWrites ++ new }
    .next (((s1.skipIdle h).waitIn all (.kwr h a reg) .sent).raise fails)
  else
    let s1 := run.foldl (fun t L => t.updLanes s.cur.wid (fateOf h act L) (fun l => l.kwr n (s.opnd L a 0))) s
    .next (((s1.skipIdle h).advance all).raise fails)

/-! ### TLBINV and TRACE (R271, R274) -/

/-- The active lanes at supervisor level do what an instruction does, and the others raise PROTECTION 0x06 (R271, R275,
R276). -/
def State.supervised (s : State) (h : Head) (eff : List Nat → State) : State :=
  let act := s.active h
  let sup := act.filter (fun L => (s.cl L).sup)
  let low := act.filter (fun L => !(s.cl L).sup)
  (if sup = [] then s.skipIdle h else eff sup).raise (low.map (fun L => (L, { cause := 0x07, sub := 0x06 })))

/-- TLBINV (R271): its lanes wait until the invalidation is complete. -/
def execTlbinv (h : Head) (sc : Sc) (a : Spec) (whole : Bool) (s : State) : Host.Outcome State Fault Refusal :=
  .next (s.supervised h fun sup =>
    (s.skipIdle h).waitIn sup (.tlbinv h sc a whole) .sent (fun L => s.opnd L a 0))

/-- A trace record (R274). -/
def traceBytes (time pc val : Nat) (act : LaneMask) (launch core part slot : Nat) (user : Bool) (src : Nat) : List Byte :=
  leBytes 8 time ++ leBytes 8 pc ++ leBytes 8 val ++
    leBytes 8 (act.toNat * 2 ^ 32 + launch * 2 ^ 20 + core * 2 ^ 11 + part * 2 ^ 10 + slot * 2 ^ 5 + b2n user * 2 ^ 4 + src)

/-- TRACE (R274). -/
def execTrace (h : Head) (a : Spec) (imm : BitVec 32) (s : State) : Host.Outcome State Fault Refusal :=
  let act := s.active h
  let w := s.cw
  match act with
  | [] => .next (s.advance s.gang)
  | L :: _ =>
    let rec' := traceBytes (s.localTime w.core) s.cur.pc.toNat (s.opnd L a imm).toNat (maskOf act) w.launch w.core w.part
      w.slot (!(s.cl L).handler) 0
    .next ((s.trace w.dom rec').advance s.gang)

/-! ### HALT (R257, R273) -/

/-- HALT (R273): user lanes leave as a parked fragment; handler lanes park in the fragment they are in. -/
def execHalt (h : Head) (s : State) : Host.Outcome State Fault Refusal :=
  let act := s.active h
  let wid := s.cur.wid
  let user := act.filter (fun L => !(s.cl L).handler)
  let hand := act.filter (fun L => (s.cl L).handler)
  let s0 := s.skipIdle h
  let s1 :=
    match user with
    | [] => s0
    | L :: _ =>
      let f := { s.issueFrag { cause := 0, sub := 0, kind := 3 } L with entry := 3, resume := nextPc s.cur.origpc }
      let r := s0.newFrag wid user 0 0 .parked f
      r.1.parkFrag wid r.2
  let ids := (hand.map (fun L => (s.cl L).frag)).eraseDups
  .next (ids.foldl (fun (t : State) id =>
    match s.cw.frags.find? (fun f => f.id = id) with
    | some f =>
      let ls := hand.filter (fun L => (s.cl L).frag = id)
      (t.updLanes wid ls (fun l => { l with st := .parked })).postFault wid
        { f with lanes := maskOf ls, pc := s.cur.pc, time := BitVec.ofNat 64 (s.localTime s.cw.core),
                 ev := { f.ev with sub := 0, kind := 3 } }
    | none => t) s1)

/-! ### CTXSAVE and CTXREST (R275, R276) -/

/-- The first line of a warp record that an access may not reach. -/
def State.recordFault (s : State) (x : Word) (kind : Nat) (r w : Bool) : Option Event :=
  (List.range 320).findSome? (fun i =>
    match s.plainAcc (x + BitVec.ofNat 64 (0x1000 + 64 * i)) 64 kind r w with | .trap e => some e | _ => none)

/-- CTXSAVE (R275): bytes 0x1000 to 0x5FFF of the record as plain stores, the issuing lanes at Next(pc). -/
def execCtxsave (h : Head) (a : Spec) (imm : BitVec 32) (s : State) : Host.Outcome State Fault Refusal :=
  .next (s.supervised h fun sup =>
    let L := (sup.head?).getD 0
    let x := s.opnd L a imm
    let all (e : Event) : State := (s.skipIdle h).raise (sup.map (fun K => (K, e)))
    if x.toNat % 64 ≠ 0 then all (alignEvent 0x01 x)
    else
      match s.recordFault x 1 false true with
      | some e => all e
      | none =>
        let s1 := (s.skipIdle h).advance sup
        let lines := chunks 64 320 (s1.cw.record 0)
        ((List.range lines.length).zip lines).foldl (fun (t : State) p =>
          let va := x + BitVec.ofNat 64 (0x1000 + 64 * p.1)
          match s.tr va with
          | .ok f => t.storeFor L f va p.2
          | .fail _ => t) s1)

/-- The bytes 0x1000 to 0x5FFF of a record as they stand at their homes. -/
def State.recordBytes (s : State) (x : Word) : List Byte :=
  (List.range 320).flatMap (fun i =>
    let va := x + BitVec.ofNat 64 (0x1000 + 64 * i)
    match s.tr va with
    | .ok f => s.bytesAt (f.key va.toNat) 64
    | .fail _ => List.replicate 64 0)

/-- The warp of the issue takes a record (R276): every lane that is not exited, and the warp's own fields. -/
def State.takeRecord (s : State) (rec : List Byte) : State :=
  let wid := s.cur.wid
  let w := s.cw
  let live := (List.range 32).filter (fun L => (w.lane L).st ≠ .exited)
  let gone := live.filter (fun L => (laneFrom rec L (w.lane L) false).st = .exited)
  let stay := live.filter (fun L => !gone.contains L)
  let s1 := s.updWarp wid (fun w =>
    warpFrom rec w (fun k => s.cv (cvIndex (clusterOf w.core) k)))
  let s2 := stay.foldl (fun t L =>
    (match (w.lane L).wait with
      | some k => t.forget (w.lane L).tid L k.serial
      | none => t).updLane wid L (laneTake rec L)) s1
  ((s2.updWarp wid Warp.refrag).exitLanes wid gone)

/-- CTXREST (R276). -/
def execCtxrest (h : Head) (p : Fin 8) (a : Spec) (imm : BitVec 32) (s : State) : Host.Outcome State Fault Refusal :=
  .next (s.supervised h fun sup =>
    let L := (sup.head?).getD 0
    let x := s.opnd L a imm
    let all (e : Event) : State := (s.skipIdle h).raise (sup.map (fun K => (K, e)))
    if x.toNat % 64 ≠ 0 then all (alignEvent 0x01 x)
    else
      match s.recordFault x 0 true false with
      | some e => all e
      | none =>
        let rec' := s.recordBytes x
        let ok := recordOk rec' s.cw.dom s.cw.launch && decide (recPending rec' = 0) &&
          (List.range 32).all (laneOk rec')
        if ok then
          ((s.skipIdle h).takeRecord rec').putPredOnce p sup false
        else ((s.skipIdle h).putPredOnce p sup true).advance sup)

end Sys2Proof.Machine
end

