-- ==== Sys2Proof/Machine/Homes.lean ====
section
/-! DEFINITION. What happens at the homes and on the way back: requests served in home order, answers written to their
registers, completion times, page walks, and the ends of waits (spec/07_memory R182, R183, R190, R195; spec/08_ordering
R219 to R240; spec/09_traps R263, R271; spec/10_spawn R277 to R281, R299; spec/14_launch R405). -/

namespace Sys2Proof.Machine

/-! ### Where a thread stands -/

/-- The place of a resident thread that has not ended: its warp and lane. -/
def State.findLane (s : State) (wid tid : Nat) : Option (Nat × Nat) :=
  let at' (k : Nat) (w : Warp) : Option (Nat × Nat) :=
    (w.liveLanes.find? (fun L => decide ((w.lane L).tid = tid))).map (fun L => (k, L))
  match at' wid (s.warp wid) with
  | some x => some x
  | none => s.warps.findSome? (fun e => at' e.1 e.2)

/-- A saved warp that a test accepts, with its context. -/
def State.findSaved (s : State) (p : Nat → Warp → Bool) : Option (Saved × Nat × Warp) :=
  s.saved.findSome? (fun c => (c.warps.find? (fun e => p e.1 e.2)).map (fun e => (c, e.1, e.2)))

/-! ### Results written to their registers (R55, R203, R263) -/

/-- A value written to the register of a resident thread. -/
def State.putVals (s : State) (wid L : Nat) (dst : Dst) (put : PutAs) (vals : List Word) : State :=
  let v := put.apply (vals.headD 0)
  match dst with
  | .none => s
  | .phys j => s.updLane wid L (fun l => { l with regs := l.regs.set 0 j v })
  | .block j n => s.updLane wid L (fun l =>
      { l with regs := (List.range n).foldl (fun r i => r.set 0 ((j + i) % 64) (vals.getD i 0)) l.regs })
  | .sca k => s.updWarp wid (fun w => { w with sregs := w.sregs.set 0 k v })
  | .grp k => s.updGroup (s.warp wid).group (fun g => { g with gregs := g.gregs.set 0 k v })
  | .pred k => s.updLane wid L (fun l =>
      let m : BitVec 7 := BitVec.ofNat 7 (2 ^ k)
      { l with preds := if v = 0 then l.preds &&& ~~~m else l.preds ||| m })

/-- The same in the record of a saved warp (R263). -/
def State.patchVals (s : State) (c : Saved) (w : Warp) (L : Nat) (dst : Dst) (put : PutAs) (vals : List Word) : State :=
  let x := c.recordVa w
  let v := put.apply (vals.headD 0)
  let reg (t : State) (j : Nat) (v : Word) : State := t.patchSaved c w.dom (x + 0x2000 + 512 * L + 8 * j) (leBytes 8 v.toNat)
  match dst with
  | .none => s
  | .phys j => reg s j v
  | .block j n => (List.range n).foldl (fun t i => reg t ((j + i) % 64) (vals.getD i 0)) s
  | .sca k => s.patchSaved c w.dom (x + 0x1800 + 8 * k) (leBytes 8 v.toNat)
  | .grp k => s.patchSaved c w.dom (c.base.toNat + 8 * k) (leBytes 8 v.toNat)
  | .pred k =>
    let at' := x + 0x1000 + 64 * L + 0x30
    let b := s.peekSaved c w.dom at' 1
    let b' := if v = 0 then b - b / 2 ^ k % 2 * 2 ^ k else if b / 2 ^ k % 2 = 1 then b else b + 2 ^ k
    s.patchSaved c w.dom at' (leBytes 1 b')

/-- The same in a nymph held in a hive (R203): the registers lie where the thread's depth places its window (R199). -/
def Nymph.putVals (n : Nymph) (dst : Dst) (put : PutAs) (vals : List Word) : Nymph :=
  let v := put.apply (vals.headD 0)
  let wb := 24 * n.fields.depth.toNat % 64
  let reg (n : Nymph) (j : Nat) (v : Word) : Nymph := { n with words := n.words.set ((j + 64 - wb) % 64) v }
  match dst with
  | .phys j => reg n j v
  | .block j k => (List.range k).foldl (fun n i => reg n ((j + i) % 64) (vals.getD i 0)) n
  | .pred k =>
    let f := n.fields
    let m : BitVec 7 := BitVec.ofNat 7 (2 ^ k)
    { n with hdr := { f with pred := if v = 0 then f.pred &&& ~~~m else f.pred ||| m : NymphHdr }.pack }
  | _ => n

/-- A nymph changed wherever an arrival unit or a pool holds it. -/
def State.updNymph (s : State) (tid : Nat) (f : Nymph → Nymph) : State :=
  let g (n : Nymph) : Nymph := if n.tid = tid then f n else n
  let gc (c : Comb) : Comb := { c with nymphs := c.nymphs.map g }
  { s with
    arrival := s.arrival.map (fun e => (e.1, { e.2 with
      slots := e.2.slots.map g, combs := e.2.combs.map gc, due := e.2.due.map gc, hive := e.2.hive.map g }))
    pools := s.pools.map (fun e => (e.1, { e.2 with combs := e.2.combs.map gc }))
    nymphs := s.nymphs.map g }

/-- Instructions of a warp with governed results outstanding, but for those whose lanes wait at a home (R261, R263). -/
def State.outstanding (s : State) (wid : Nat) : Nat :=
  let sent := s.net.filterMap (fun m => match m.req with | .monitor .. => none | _ => m.ret)
  (((sent ++ s.answers.map (·.ret)).filter (fun r => r.wid = wid)).map (·.serial)).eraseDups.length

/-- PENDING of a saved warp's record brought up to date (R263). -/
def State.syncPending (s : State) (c : Saved) (wid : Nat) (w : Warp) : State :=
  let at' := c.recordVa w + 0x1A00
  s.patchSaved c w.dom at' (leBytes 8 (s.peekSaved c w.dom at' 8 % 2 ^ 36 + s.outstanding wid % 2 ^ 8 * 2 ^ 36))

/-- A waiting lane of a saved warp that its answer ends: its block is rewritten (R402), and it is kept as ready; one that
was parked with its launch stays so (R399).  An abandoned BAR.HOLD stays in the word at 0x38, or comes into it where the wait
had a deadline (R262). -/
def State.patchReady (s : State) (c : Saved) (w : Warp) (L : Nat) : State :=
  let at' := c.recordVa w + 0x1000 + 64 * L
  let pc : Word := BitVec.ofNat 64 (s.peekSaved c w.dom at' 8)
  let st := s.peekSaved c w.dom (at' + 0x28) 1
  let l := w.lane L
  let s0 := (s.patchSaved c w.dom at' (leBytes 8 (nextPc pc).toNat)).patchSaved c w.dom (at' + 0x28)
    (leBytes 1 (if st % 4 = 1 then st - 1 else st))
  let s1 := if l.timed then s0.patchSaved c w.dom (at' + 0x38) (leBytes 8 ({ l with wait := none } : Lane).deadlineWord.toNat) else s0
  { s1 with saved := s1.saved.map (fun x => if x.id ≠ c.id then x else
      { x with warps := x.warps.map (fun e => if e.2.index = w.index ∧ e.2.slot = w.slot then
          (e.1, e.2.setLane L { e.2.lane L with st := .ready, wait := none }) else e) }) }

/-- The lanes that an answer concerns: its own, or those that share it (R54). -/
def Ret.lanes (r : Ret) : List Nat := if r.share = 0 then [r.lane] else lanesOf r.share

/-- Are other answers of the same instruction and thread still to come? -/
def State.more (s : State) (r : Ret) : Bool :=
  s.rets.any (fun q => q.finish && decide (q.tid = r.tid) && decide (q.serial = r.serial))

/-- The end of a wait by its answer: WFILL then takes the filled frame (R159). -/
def State.endWait (s : State) (wid : Nat) (r : Ret) : State :=
  let ls := r.lanes.filter (fun L =>
    let l := s.lane wid L
    decide (l.st = .waiting) && (match l.wait with | some w => decide (w.serial = r.serial) | none => false))
  let fill := ls.filter (fun L => match (s.lane wid L).wait with | some { instr := .wfill _, .. } => true | _ => false)
  let s := s.updLanes wid fill (fun l => { l with wsp := l.wsp + 192, resf := 2 })
  s.finishWait wid (ls)

/-- Flags of an answer taken by a thread, wherever it stands (R54, R278). -/
def State.flagThread (s : State) (wid tid : Nat) (flags : BitVec 5) : State :=
  match s.findLane wid tid with
  | some (k, L) => s.updLane k L (fun l => { l with fstat := l.fstat ||| flags })
  | none => s.updNymph tid (fun n => { n with hdr := { n.fields with fstat := n.fields.fstat ||| flags : NymphHdr }.pack })

/-- Flags of an answer taken by every thread that it concerns. -/
def State.flagThreads (s : State) (r : Ret) (flags : BitVec 5) : State :=
  if flags = 0 then s else r.tids.foldl (fun t tid => t.flagThread r.wid tid flags) s

/-- AN ANSWER REACHES ITS REGISTER (R55): wherever the thread now stands, and with U wherever the first of its threads that
still lives stands (R54).  The answer for threads that have ended is discarded (R157).  The warp's barriers are looked at
again (R147). -/
def State.deliver (s : State) (a : Answer) : State :=
  let r := a.ret
  match r.tids.findSome? (s.findLane r.wid) with
  | some (wid, L) =>
    let s1 := (s.putVals wid L r.dst r.put a.vals).flagThreads r a.flags
    (if r.finish ∧ ¬s.more r then s1.endWait wid r else s1).barRetest wid
  | none =>
    match s.findSaved (fun k w => decide (k = r.wid) && r.tids.any (fun t => (w.laneOf t).isSome)) with
    | some (c, wid, w) =>
      let s1 := s.patchVals c w r.lane r.dst r.put a.vals
      let s2 := if a.flags = 0 then s1 else
        r.lanes.foldl (fun t L =>
          let at' := c.recordVa w + 0x1000 + 64 * L + 0x32
          t.patchSaved c w.dom at' (leBytes 1 ((BitVec.ofNat 5 (t.peekSaved c w.dom at' 1) ||| a.flags).toNat))) s1
      let s3 := if r.finish ∧ ¬s.more r then r.lanes.foldl (fun t L => t.patchReady c w L) s2 else s2
      s3.syncPending c wid w
    | none => (s.updNymph r.tid (fun n => n.putVals r.dst r.put a.vals)).flagThreads r a.flags

/-- Does an answer for a scalar or group-shared register still wait for a higher lane of its instruction, whose block is
not yet checked (R9, R11, R190)? -/
def State.outbid (s : State) (r : Ret) : Bool :=
  match r.dst with
  | .sca _ | .grp _ =>
    s.decodes.any (fun d => decide (d.ret.wid = r.wid) && decide (d.serial = r.serial) && decide (r.lane < d.ret.lane))
  | _ => false

/-- GOVERNED_RESULT_WRITE: the k-th answer under way is written (R55, R203, R263, R402). -/
def execGovernedResultWrite (k : Nat) (s : State) : Host.Outcome State Fault Refusal :=
  .next (match s.answers[k]? with
    | none => s
    | some a => if s.outbid a.ret then s else ({ s with answers := removeAt s.answers k } : State).deliver a)

/-! ### Completion times (R224, R226) -/

/-- A completion time taken into the maxima of its thread. -/
def State.takeC (s : State) (c : CTime) : State :=
  match s.findLane c.wid c.tid with
  | some (wid, L) => s.updLane wid L (fun l => { l with
      cmaxp := if c.here then BitVec.ofNat 64 (Nat.max l.cmaxp.toNat c.c.toNat) else l.cmaxp,
      cmaxs := BitVec.ofNat 64 (Nat.max l.cmaxs.toNat c.c.toNat) })
  | none =>
    match s.findSaved (fun k w => decide (k = c.wid) && (w.laneOf c.tid).isSome) with
    | some (sv, _, w) =>
      let at' := sv.recordVa w + 0x1000 + 64 * ((w.laneOf c.tid).getD 0)
      let up (t : State) (off : Nat) : State :=
        t.patchSaved sv w.dom (at' + off) (leBytes 8 (Nat.max (t.peekSaved sv w.dom (at' + off) 8) c.c.toNat))
      let s := if c.here then up s 0x10 else s
      up s 0x18
    | none => s.updNymph c.tid (fun n => { n with full := BitVec.ofNat 64 (Nat.max n.full.toNat c.c.toNat) })

/-- COMPLETION_TIME_RETURN: the k-th completion time under way reaches its thread (R224). -/
def execCompletionTimeReturn (k : Nat) (s : State) : Host.Outcome State Fault Refusal :=
  .next (match s.ctimes[k]? with
    | none => s
    | some c => ({ s with ctimes := removeAt s.ctimes k } : State).takeC c)

/-! ### Requests served at their homes (R219 to R224) -/

/-- The k-th request, when no earlier one from its core to its home is under way (R220). -/
def State.frontMsg (s : State) (k : Nat) : Option Msg :=
  match s.net[k]? with
  | none => none
  | some m => if (s.net.take k).any (fun x => decide (x.src = m.src) && decide (x.home = m.home)) then none else some m

/-- A request taken from the network. -/
def State.take (s : State) (k : Nat) : State := { s with net := removeAt s.net k }

/-- A completion time noted in what waits for a thread's writes before a serial number: its children, its records and
its launches (R288, R294, R392, R403). -/
def State.noteC (s : State) (tid serial c : Nat) : State :=
  let up (x : Word) : Word := BitVec.ofNat 64 (Nat.max x.toNat c)
  let kid (n : Nymph) : Nymph := if n.parent = tid ∧ serial < n.parentSerial then { n with full := up n.full } else n
  { s with
    children := s.children.map kid
    arrival := s.arrival.map (fun e => (e.1, { e.2 with
      combs := e.2.combs.map (fun c => { c with nymphs := c.nymphs.map kid }),
      due := e.2.due.map (fun c => { c with nymphs := c.nymphs.map kid }) }))
    net := s.net.map (fun m =>
      match m.req with
      | .record .. => if m.tid = tid ∧ serial < m.serial then { m with cmax := up m.cmax } else m
      | _ => m)
    launches := s.launches.map (fun e =>
      let q := e.2.queued.map (fun r => if r.tid = tid ∧ serial < r.serial then { r with cmax := Nat.max r.cmax c } else r)
      let l := { e.2 with queued := q }
      (e.1, if l.acqTid = tid ∧ serial < l.acqSerial then { l with acq := up l.acq } else l))
    subs := s.subs.map (fun x =>
      match x.route with
      | .thread r va core k m sr sh g j =>
        if r.tid = tid ∧ serial < sr then { x with route := .thread r va core k (Nat.max m c) sr sh g j } else x
      | _ => x) }

/-- What follows a write applied at its home: the core's record of its writes, the writer's completion time, and the end
of threads that waited for it (R186, R224, R226, R157); copies of the line granted before serve the writer no more (R205,
R220). -/
def State.applied (s : State) (m : Msg) (c : Nat) : State :=
  let s := s.dropLease m.src (lineOf m.addr)
  let s := { s with
    leases := s.leases.map (fun (l : Lease) => if l.line = lineOf m.addr then { l with newer := m.tid :: l.newer } else l)
    coreC := s.coreC.upd 0 m.src (Nat.max c)
    coreCP := if homeHere m.home then s.coreCP.upd 0 m.src (Nat.max c) else s.coreCP
    ctimes := s.ctimes ++ [({ wid := m.wid, tid := m.tid, c := BitVec.ofNat 64 c, here := homeHere m.home } : CTime)] }
  let s := s.updLaunch m.launch (fun l => { l with endC := Nat.max l.endC c })
  (s.noteC m.tid m.serial c).settle m.launch m.tid

/-- The words of an answer to a read. -/
def State.answerMsg (s : State) (m : Msg) (vals : List Word) (flags : BitVec 5 := 0) : State :=
  match m.ret with
  | some r => s.answer r vals flags
  | none => s

/-- A read served at the home (R221, R234). -/
def State.serveRead (s : State) (m : Msg) (n : Nat) : State :=
  let r := s.readHome m.addr n m.launch
  r.2.answerMsg m (wordsOf r.1)

/-- The line that a thread has read ahead, where it is a request's and the core holds no copy of it (R220). -/
def State.earlyFor (s : State) (m : Msg) : Option (List Byte) :=
  match s.findLane m.wid m.tid with
  | none => none
  | some (wid, L) =>
    match (s.lane wid L).early with
    | none => none
    | some (line, bytes) =>
      if line = lineOf m.addr ∧ ¬s.leases.any (fun l => decide (l.core = m.src) && decide (l.line = line)) then some bytes else none

/-- May a thread read a line of this package ahead: one that is not tagged, with no access of the thread's to it under way
(R220, R234)? -/
def State.mayLookAhead (s : State) (tid line : Nat) : Bool :=
  homeHere (homeOf (64 * line)) && !inHole (64 * line) && (s.tagOf line).isNone &&
    !s.net.any (fun m => decide (m.tid = tid) && decide (lineOf m.addr = line))

/-- With a read of a thread, a read of another line by it may be performed, for a load that it issues later: accesses to
different lines are performed in any order (R220; log entry 87).  No read is served in the first step from reset. -/
def State.lookAhead (s : State) (m : Msg) : State :=
  if s.steps = 0 then s
  else
    let n := Config.ahead s.steps
    match s.findLane m.wid m.tid with
    | none => s
    | some (wid, L) =>
      let l := s.lane wid L
      let kept := l.early.filter (fun e => decide (e.1 ≠ lineOf m.addr))
      let seen := if n % 2 = 1 ∧ s.mayLookAhead m.tid (n / 2) then some (n / 2, s.bytesAt (64 * (n / 2)) 64) else kept
      s.updLane wid L (fun l => { l with early := seen })

/-- REMOTE_READ: the k-th request, a read, is served (R221), or was performed before (R220). -/
def execRemoteRead (k : Nat) (s : State) : Host.Outcome State Fault Refusal :=
  .next (match s.frontMsg k with
    | none => s
    | some m =>
      match m.req with
      | .read n =>
        (match s.earlyFor m with
        | some bytes => (s.take k).answerMsg m (wordsOf ((bytes.drop (m.addr % 64)).take n))
        | none => (s.take k).serveRead m n).lookAhead m
      | _ => s)

/-- REMOTE_WRITE: the k-th request, a write, is applied (R219, R224, R234). -/
def execRemoteWrite (k : Nat) (s : State) : Host.Outcome State Fault Refusal :=
  .next (match s.frontMsg k with
    | none => s
    | some m =>
      match m.req with
      | .write bytes tag =>
        let r := (s.take k).applyWrite m.addr bytes (tag.map (fun t => (t, m.dom))) m.tid
        r.1.applied m r.2
      | _ => s)

/-- The lease length of a class in ns (R222). -/
def leaseTime (cls : Nat) : Nat := match cls with | 1 => 1000 | 2 => 8000 | _ => 64000

/-- Copies of a lease cache: 512 KiB hold 8,192 lines (R17); beyond that the oldest copies of the core are dropped, as
R223 lets a cache do at any time (log entry 85). -/
def capLeases (ls : List Lease) (core : Nat) : List Lease :=
  let over' := (ls.filter (fun l => l.core = core)).length - 8192
  (ls.foldl (fun (r : List Lease × Nat) l =>
    if l.core = core ∧ 0 < r.2 then (r.1, r.2 - 1) else (r.1 ++ [l], r.2)) ([], over')).1

/-- A grant of a line to a core (R222, R224). -/
def State.grantLine (s : State) (core key cls : Nat) : State :=
  let line := lineOf key
  let home := homeOf key
  let eps := if homeHere home then 20 else s.host.epsx.toNat
  let till := s.homeTime home + leaseTime cls
  let copy : Lease := { core := core, line := line, bytes := s.bytesAt (64 * line) 64, till := till, skew := eps }
  ({ s.dropLease core line with
     leases := capLeases ((s.dropLease core line).leases ++ [copy]) core
     lend := s.lend.upd 0 line (Nat.max (till + eps)) } : State).drawn

/-- Is a line one that may be granted to this package's cores (R222, R225)? -/
def State.grantable (s : State) (key : Nat) : Bool :=
  (s.tagOf (lineOf key)).isNone && (homeHere (homeOf key) || !s.host.skewFault)

/-- LEASE_GRANT: the k-th request, a leased read or a prefetch, is granted; a tagged line is served as a remote read
(R222). -/
def execLeaseGrant (k : Nat) (s : State) : Host.Outcome State Fault Refusal :=
  .next (match s.frontMsg k with
    | none => s
    | some m =>
      match m.req with
      | .grant n cls =>
        if s.grantable m.addr then
          ((s.take k).grantLine m.src m.addr cls).answerMsg m (wordsOf (s.bytesAt m.addr n))
        else (s.take k).serveRead m n
      | .prefetch cls => if s.grantable m.addr then (s.take k).grantLine m.src m.addr cls else s.take k
      | _ => s)

/-- One atomic at its home (R277 to R279): a CAS that fails writes nothing. -/
def State.serveAtomic (s : State) (m : Msg) : State :=
  match m.req with
  | .atom op ty v wantFlags =>
    let old := BitVec.ofNat 64 (s.natAt m.addr ty.size)
    let new := atomNew op ty old v
    let r := s.applyWrite m.addr (leBytes ty.size new.1) none m.tid
    (r.1.applied m r.2).answerMsg m [old] (if wantFlags then new.2 else 0)
  | .cas ty exp v =>
    let old := s.natAt m.addr ty.size
    if old = zx ty.width exp then
      let r := s.applyWrite m.addr (leBytes ty.size v.toNat) none m.tid
      (r.1.applied m r.2).answerMsg m [BitVec.ofNat 64 old]
    else
      let s := { s with tags := s.tags.filter (fun t => t.line ≠ lineOf m.addr) }
      (s.answerMsg m [BitVec.ofNat 64 old]).settle m.launch m.tid
  | _ => s

/-- Is a request an atomic of the same issue, to the same line, as another (R277)? -/
def Msg.sameAtomic (m x : Msg) : Bool :=
  decide (x.issue = m.issue) && decide (x.src = m.src) && decide (x.wid = m.wid) &&
    decide (lineOf x.addr = lineOf m.addr) &&
    (match x.req with | .atom .. | .cas .. => true | _ => false)

/-- ATOMIC_AT_HOME: the k-th request, an atomic, with the others of its issue to the same line, in ascending lane order
(R277). -/
def execAtomicAtHome (k : Nat) (s : State) : Host.Outcome State Fault Refusal :=
  .next (match s.frontMsg k with
    | none => s
    | some m =>
      if m.sameAtomic m then
        let all := s.net.filter m.sameAtomic
        let s1 : State := { s with net := s.net.filter (fun x => !m.sameAtomic x) }
        all.foldl State.serveAtomic s1
      else s)

/-! ### Monitors (R235, R240, R299) -/

/-- Where a registration's lane waits: its warp and lane, when it still waits in that instruction. -/
def State.watcher (s : State) (r : Ret) : Option (Nat × Nat) :=
  match s.findLane r.wid r.tid with
  | some (wid, L) =>
    (match (s.lane wid L).wait with
    | some w => if w.serial = r.serial ∧ (s.lane wid L).st = .waiting then some (wid, L) else none
    | none => none)
  | none => none

/-- Lanes that share a wait take a new phase, and hold a registration or not. -/
def State.phaseOf (s : State) (wid : Nat) (ls : List Nat) (p : Phase) (mon : Bool) : State :=
  s.updLanes wid ls (fun l => { l with monitor := mon, wait := l.wait.map (fun w => { w with phase := p }) })

/-- The deadline of a registration's wait, of a resident lane or a saved one. -/
def State.deadlineOf (s : State) (r : Ret) : Word :=
  let of (l : Lane) : Word := (l.wait.map (·.dl)).getD 0
  match s.watcher r with
  | some (wid, L) => of (s.lane wid L)
  | none =>
    match s.findSaved (fun k w => decide (k = r.wid) && (w.laneOf r.tid).isSome) with
    | some (_, _, w) => of (w.lane r.lane)
    | none => 0

/-- A bit of a saved lane's state word set or cleared. -/
def State.patchBit (s : State) (c : Saved) (w : Warp) (L bit : Nat) (on : Bool) : State :=
  let at' := c.recordVa w + 0x1000 + 64 * L + 0x28
  let b := s.peekSaved c w.dom at' 1
  let low := b - b / 2 ^ bit % 2 * 2 ^ bit
  s.patchSaved c w.dom at' (leBytes 1 (if on then low + 2 ^ bit else low))

/-- A registration entered at its home; a full table evicts the oldest of the home (R235). -/
def State.register (s : State) (m : Msg) (r : Ret) (n : Nat) (cc : Bool) : State :=
  let new : Monitor := { home := m.home, line := lineOf m.addr, addr := m.addr, n := n, ret := r, cc := cc, dl := s.deadlineOf r }
  let here := s.monitors.filter (fun x => x.home = m.home)
  let s1 : State :=
    match here with
    | old :: _ =>
      if 1024 ≤ here.length then
        { s with
          monitors := s.monitors.filter (fun x => x ≠ old)
          monEvents := s.monEvents ++ [⟨old.ret, old.cc, old.addr, true, false⟩] }
      else s
    | [] => s
  let s2 : State := { s1 with monitors := s1.monitors ++ [new] }
  match s.watcher r with
  | some (wid, _) => s2.phaseOf wid r.lanes .watching true
  | none =>
    match s.findSaved (fun k w => decide (k = r.wid) && (w.laneOf r.tid).isSome) with
    | some (c, _, w) => r.lanes.foldl (fun t L => t.patchBit c w L 3 true) s2
    | none => s

/-- The lanes of a wait hold no registration and no wake. -/
def State.clearWatch (s : State) (r : Ret) : State :=
  match s.watcher r with
  | some (wid, _) => s.updLanes wid r.lanes (fun l => { l with monitor := false, wake := false })
  | none => s

/-- Has a wake come for a lane that waits in MWAIT, from a registration that it left at the home when it went to the hive
(R204)? -/
def State.wokenIn (s : State) (r : Ret) : Bool :=
  match s.watcher r with
  | some (wid, L) => (s.lane wid L).wake
  | none => false

/-- Registrations that a thread made for an earlier issue of its instruction end: it registers anew (R204). -/
def State.dropOlder (s : State) (r : Ret) : State :=
  { s with monitors := s.monitors.filter (fun x => decide (x.ret.tid ≠ r.tid) || decide (x.ret.serial = r.serial)) }

/-- MONITOR_REGISTER: the k-th request, of MWAIT or CCWAIT, compares at the home and registers, or is answered at once
(R204, R235, R240, R299).  The compare is a read at the home: of a line tagged for the reader's launch it is the
consumer's first read (log entry 78). -/
def execMonitorRegister (k : Nat) (s : State) : Host.Outcome State Fault Refusal :=
  .next (match s.frontMsg k with
    | none => s
    | some m =>
      match m.req, m.ret with
      | .monitor n exp cc, some r =>
        let rd := ((s.take k).dropOlder r).readHome m.addr n m.launch
        let v := BitVec.ofNat 64 (leNat rd.1)
        if cc then (if v.getLsbD 63 then (rd.2.clearWatch r).answer r [v] else rd.2.register m r n cc)
        else if v ≠ exp then (rd.2.clearWatch r).answer r [4]
        else if s.wokenIn r then (rd.2.clearWatch r).answer r [0]
        else rd.2.register m r n cc
      | _, _ => s)

/-- A wait at a home ends with a reason: the result is governed and written in its turn (R55, R240). -/
def State.endWatch (s : State) (r : Ret) (v : Word) : State :=
  match s.watcher r with
  | some (wid, _) =>
    let s1 := s.updLanes wid r.lanes (fun l => { l with monitor := false })
    (s1.answer { r with finish := false } [v]).finishWait wid r.lanes
  | none => s

/-- A counter read again and registered anew (R299). -/
def State.askAgain (s : State) (r : Ret) (addr : Nat) (req : Req) : State :=
  match s.watcher r with
  | some (wid, L) =>
    let w := s.warp wid
    let l := s.lane wid L
    let m : Msg :=
      { serial := s.serial, src := w.core, home := homeOf addr, addr := addr, req := req, ret := some r, wid := wid,
        tid := l.tid, dom := w.dom, launch := w.launch, lane := L, pc := l.pc, issue := r.serial }
    ({ s with net := s.net ++ [m], serial := s.serial + 1 } : State).phaseOf wid r.lanes .sent false
  | none => s

/-- A wake or a loss for a lane that does not wait on the registration: it is kept in the lane that issues its MWAIT again,
in the save record, or in the nymph (R204, R235). -/
def State.awayEvent (s : State) (e : MonEvent) : State :=
  match s.findLane e.ret.wid e.ret.tid with
  | some (wid, L) =>
    if (s.lane wid L).monitor then s.updLane wid L (fun l => { l with monitor := false, wake := !e.loss }) else s
  | none =>
  match s.findSaved (fun k w => decide (k = e.ret.wid) && (w.laneOf e.ret.tid).isSome) with
  | some (c, _, w) =>
    e.ret.lanes.foldl (fun t L => if e.loss then t.patchBit c w L 3 false else (t.patchBit c w L 2 true).patchBit c w L 3 false) s
  | none =>
    if e.loss then s.updNymph e.ret.tid (fun n => { n with registered := false })
    else s.updNymph e.ret.tid (fun n =>
      if n.registered then { n with registered := false, hdr := { n.fields with wake := true : NymphHdr }.pack } else n)

/-- The k-th wake or loss reaches its lane. -/
def State.monEvent (s : State) (k : Nat) (loss : Bool) : State :=
  match s.monEvents[k]? with
  | none => s
  | some e =>
    if e.loss ≠ loss then s
    else
      let s1 : State := { s with monEvents := removeAt s.monEvents k }
      match s.watcher e.ret with
      | none => s1.awayEvent e
      | some _ =>
        if e.cc then s1.askAgain e.ret e.addr (.monitor 8 0 true) else s1.endWatch e.ret (if loss then 2 else 0)

/-- MONITOR_WAKE (R235, R240, R299). -/
def execMonitorWake (k : Nat) (s : State) : Host.Outcome State Fault Refusal := .next (s.monEvent k false)

/-- MONITOR_LOSS (R235, R240, R299). -/
def execMonitorLoss (k : Nat) (s : State) : Host.Outcome State Fault Refusal := .next (s.monEvent k true)

/-- Has the deadline of a registration passed: by the copy of device time where its lane waits, or at the home for a lane
that is not resident (R240)? -/
def State.watchOver (s : State) (m : Monitor) : Bool :=
  match s.watcher m.ret with
  | some (wid, _) => decide (m.dl.toNat ≤ s.localTime (s.warp wid).core)
  | none => decide (m.dl.toNat ≤ s.homeTime m.home)

/-- Has the deadline of a resident lane passed whose wake or loss is still on its way (R240)? -/
def State.eventOver (s : State) (e : MonEvent) : Bool :=
  match s.watcher e.ret with
  | some (wid, _) => decide ((s.deadlineOf e.ret).toNat ≤ s.localTime (s.warp wid).core)
  | none => false

/-- A wait at a home that its deadline ends; CCWAIT returns the counter word as read at the home (R240, R299). -/
def State.timeUp (s : State) (r : Ret) (cc : Bool) (addr : Nat) : State :=
  if cc then s.askAgain r addr (.read 8) else s.endWatch r 1

/-- MWAIT_TIMEOUT: the deadline of a thread's MWAIT or CCWAIT has passed, while its registration stands or its wake or loss is
on its way, which is then discarded (R204, R240, R299); for a thread that is not resident the registration is removed and
nothing recorded. -/
def execMwaitTimeout (tid : Nat) (s : State) : Host.Outcome State Fault Refusal :=
  .next (match s.monitors.find? (fun m => decide (m.ret.tid = tid) && s.watchOver m) with
    | none =>
      (match s.monEvents.find? (fun e => decide (e.ret.tid = tid) && s.eventOver e) with
      | none => s
      | some e => ({ s with monEvents := s.monEvents.filter (fun x => x ≠ e) } : State).timeUp e.ret e.cc e.addr)
    | some m =>
      let s1 : State := { s with monitors := s.monitors.filter (fun x => x ≠ m) }
      match s.watcher m.ret with
      | some _ => s1.timeUp m.ret m.cc m.addr
      | none =>
        match s.findLane m.ret.wid tid with
        | some (wid, L) => s1.updLane wid L (fun l => { l with monitor := false })
        | none =>
          match s.findSaved (fun k w => decide (k = m.ret.wid) && (w.laneOf tid).isSome) with
          | some (c, _, w) => m.ret.lanes.foldl (fun (t : State) L => t.patchBit c w L 3 false) s1
          | none => s1.updNymph tid (fun n => { n with registered := false }))

/-! ### Page walks (R182, R183) -/

/-- TLB_WALK: the k-th walk completes: the TLB takes the leaf, or the accesses that wait for the page take its failure
(R182, R183). -/
def execTlbWalk (k : Nat) (s : State) : Host.Outcome State Fault Refusal :=
  .next (match s.walks[k]? with
    | none => s
    | some w =>
      let s1 : State := { s with walks := removeAt s.walks k }
      let mine (e : TlbEntry) : Bool := decide (e.core = w.core)
      match s.walk w.dom (65536 * w.page) with
      | .ok f =>
        let tlb := s1.tlb.filter (fun e => !(mine e && decide (e.dom = w.dom) && decide (e.page = w.page))) ++
          [⟨w.core, w.dom, w.page, f⟩]
        let over' := (tlb.filter mine).length - 2048
        { s1 with tlb := (tlb.foldl (fun (r : List TlbEntry × Nat) e =>
            if mine e ∧ 0 < r.2 then (r.1, r.2 - 1) else (r.1 ++ [e], r.2)) ([], over')).1 }
      | .fail c =>
        { s1 with walkFails := s1.walkFails.filter (fun f =>
            ¬(f.core = w.core ∧ f.dom = w.dom ∧ f.page = w.page)) ++ [⟨w.core, w.dom, w.page, c⟩] })

/-- The cores that an invalidation from a core reaches (R271). -/
def scopeCores (sc : Sc) (core x : Nat) : Bool :=
  match sc with
  | .thread | .warp | .group => decide (x = core)
  | .cluster => decide (clusterOf x = clusterOf core)
  | .die => decide (dieOf x = dieOf core)
  | .package | .system => true

/-- Does an entry map a page, as a page or as a part of its block (R271)? -/
def TlbEntry.maps (e : TlbEntry) (va : Nat) : Bool := decide (va / e.leaf.span = 65536 * e.page / e.leaf.span)

/-- Entries of a domain dropped in the reached TLBs: those that map a page of a list, or all (R271). -/
def State.invalidate (s : State) (dom : Nat) (reach : Nat → Bool) (pages : Option (List Nat)) : State :=
  let hit (e : TlbEntry) : Bool := match pages with | none => true | some vs => vs.any e.maps
  { s with
    tlb := s.tlb.filter (fun e => !(decide (e.dom = dom) && reach e.core && hit e))
    walkFails := s.walkFails.filter (fun f => !(decide (f.dom = dom) && reach f.core)) }

/-- Does a walk run at a walker that an invalidation from a core reaches?  A walker serves its cluster's cores (R183, R271). -/
def walkerReached (sc : Sc) (core x : Nat) : Bool := decide (clusterOf x = clusterOf core) || scopeCores sc core x

/-- TLBINV_COMPLETE: the walks at the reached walkers that started before the TLBINV of a gang have ended; the entries are
dropped and the lanes move on (R271). -/
def execTlbinvComplete (wid gang : Nat) (s : State) : Host.Outcome State Fault Refusal :=
  let ls := s.waiters wid gang
  .next (match (ls.head?).bind (fun L => (s.lane wid L).wait) with
    | some { instr := .tlbinv _ sc _ whole, serial := n, .. } =>
      let w := s.warp wid
      let reach := scopeCores sc w.core
      if s.walks.any (fun k => walkerReached sc w.core k.core && decide (k.serial < n)) then s
      else
        let pages := ls.map (fun L => (((s.lane wid L).wait.map Wait.dl).getD 0).toNat)
        (s.invalidate w.dom reach (if whole then none else some pages)).finishWait wid ls
    | _ => s)

/-! ### Decoding loads (R190) -/

/-- A line of a page as a load of a core is served it (R185): through a copy where it is leased. -/
def State.readLine (s : State) (core launch : Nat) (f : Leaf) (va : Word) (leased : Bool) (tid : Nat := 0) :
    List Byte × State :=
  let key := f.key (lineAddr va).toNat
  if leased ∧ s.leasable f ∧ ¬isLocal core f va then
    match s.leaseHit core (lineOf key) tid with
    | some c => (c.bytes, s)
    | none => if s.grantable key then (s.bytesAt key 64, s.grantLine core key f.cls) else s.readHome key 64 launch
  else s.readHome key 64 launch

/-- A line read for execution: what the read leaves at the home and in the lease cache (R66); nothing where the line may
not be executed. -/
def State.lineRead (s : State) (core dom launch : Nat) (pc : Word) : State :=
  match s.xlate core dom (lineAddr pc).toNat with
  | .ok f =>
    if f.x ∧ pcValid pc then
      ((s.readLine core launch f (lineAddr pc) true).2).fetchDrawn (lineOf (f.key (lineAddr pc).toNat))
    else s
  | .fail _ => s

/-- The lines of a slot that hold some bytes of it, by their numbers within it. -/
def slotLines (va : Nat) (spans : List (Nat × Nat)) : List Nat :=
  (spans.flatMap (fun p =>
    let first := (va + p.1) / 64 - va / 64
    (List.range ((va % 64 + p.1 + p.2 + 63) / 64 - first)).map (first + ·))).eraseDups

/-- Bytes of a block's slot read line by line: those of the lines that hold the named spans; the others are not read and
stand as they were given. -/
def State.readSlot (s : State) (d : DecodeLoad) (launch : Nat) (f : Leaf) (va n : Nat) (had : List Byte)
    (spans : List (Nat × Nat)) : List Byte × State :=
  (slotLines va spans).foldl (fun (r : List Byte × State) i =>
    let x := r.2.readLine d.core launch f (BitVec.ofNat 64 (64 * (va / 64 + i))) (!f.w) d.ret.tid
    ((List.range n).map (fun j => if (va % 64 + j) / 64 = i then x.1.getD ((va % 64 + j) % 64) 0 else r.1.getD j 0), x.2))
    (had, s)

/-- Elements that a decoding load takes: four of a packed type, else one (R190). -/
def loadElems (ty : Ty) : Nat := match ty with | .h4 | .b4 => 4 | _ => 1

/-- The part of a slot that every load of the block needs: the scale, or the header and the mask (R189, R190). -/
def Leaf.headSpan (f : Leaf) : Nat × Nat := (0, if f.fmt ≤ 9 then 8 else 8 + f.blkElems / 8)

/-- The part of a slot that holds the elements loaded: their mantissas, none where the scale −128 makes every element +0, or
the values of those that are not zero (R190). -/
def Leaf.dataSpan (f : Leaf) (slot : List Byte) (ty : Ty) (i : Nat) : Nat × Nat :=
  let k := loadElems ty
  if f.fmt ≤ 9 ∧ leNat (slot.take 1) = 128 then (0, 0)
  else if f.fmt ≤ 9 then
    let a := f.mant * i / 8
    (8 + a, (f.mant * (i + k) + 7) / 8 - a)
  else
    let mask := bmvMask slot f.blkElems
    let a := popBelow mask i
    (8 + f.blkElems / 8 + a * bmvBytes f.fmt, (popBelow mask (i + k) - a) * bmvBytes f.fmt)

/-- One decoding load: the lines that it needs read, its block checked and the elements decoded (R190). -/
def State.decodeOne (s : State) (d : DecodeLoad) : Except Event Word × State :=
  let launch := (s.warp d.ret.wid).launch
  match s.xlate d.core d.dom d.ea.toNat with
  | .fail c => (.error (pageEvent c d.ea 0), s)
  | .ok f =>
    match loadCheck f d.ty d.ea with
    | some e => (.error e, s)
    | none =>
      let va := blockVa f d.ea.toNat
      let i := elemIndex f d.ea.toNat % f.blkElems
      let r := s.readSlot d launch f va f.slotBytes (List.replicate f.slotBytes 0) [f.headSpan]
      if ¬f.blockOk r.1 then (.error (formatEvent 0x03 d.ea), r.2)
      else
        let span := f.dataSpan r.1 d.ty i
        let new := slotLines va (if span.2 = 0 then [] else [span])
        let more := new.filter (fun j => !(slotLines va [f.headSpan]).contains j)
        let r2 := r.2.readSlot d launch f va f.slotBytes r.1 (more.map (fun j => (64 * j - va % 64, 1)))
        (.ok (f.decodeLoad r2.1 d.ty i), r2.2)

/-- The claim of a decoding load's lanes on a scalar or group-shared register settled: it is the highest lane's of those
whose block passes, and the lanes below lose theirs (R9, R11). -/
def State.settleClaim (s : State) (wid serial top : Nat) : State :=
  let lose (r : Ret) : Ret :=
    match r.dst with
    | .sca _ | .grp _ => if r.wid = wid ∧ r.serial = serial ∧ r.lane < top then { r with dst := .none } else r
    | _ => r
  { s with
    net := s.net.map (fun m => { m with ret := m.ret.map lose })
    answers := s.answers.map (fun a => { a with ret := lose a.ret }) }

/-- DECODE_LOAD_COMPLETE: the blocks of the decoding load to which the k-th entry belongs arrive: it retires for the
lanes whose block passes and traps for the others (R190). -/
def execDecodeLoadComplete (k : Nat) (s : State) : Host.Outcome State Fault Refusal :=
  .next (match s.decodes[k]? with
    | none => s
    | some d =>
      let mine (x : DecodeLoad) : Bool := decide (x.serial = d.serial) && decide (x.ret.wid = d.ret.wid)
      let all := s.decodes.filter mine
      if all.any (fun x => s.writesOf x.ret.tid x.serial) then s
      else
        let wid := d.ret.wid
        let s1 : State := { s with decodes := s.decodes.filter (fun x => !mine x) }
        let r := all.foldl (fun (r : State × List Ret × List (Nat × Event)) x =>
          let o := r.1.decodeOne x
          match o.1 with
          | .ok v => (o.2.answer x.ret [v], r.2.1 ++ [x.ret], r.2.2)
          | .error e => (o.2, r.2.1, r.2.2 ++ x.ret.lanes.map (fun L => (L, e)))) (s1, [], [])
        let s2 := match (r.2.1.filter (fun q => q.dst ≠ .none)).getLast? with
          | some q => r.1.settleClaim wid d.serial q.lane
          | none => r.1
        let ls := (r.2.1.flatMap Ret.lanes).filter (fun L => (s.lane wid L).st = .waiting)
        let fs := r.2.2.filter (fun x => (s.lane wid x.1).st = .waiting)
        (s2.finishWait wid ls).trapWait wid fs)

/-! ### Other waits -/

/-- SLEEP_WAKE: the sleeping lanes of a gang whose time has come move on (R405). -/
def execSleepWake (wid gang : Nat) (s : State) : Host.Outcome State Fault Refusal :=
  let t := s.localTime (s.warp wid).core
  let ls := (s.waiters wid gang).filter (fun L =>
    match (s.lane wid L).wait with
    | some { instr := .sleep .., dl := d, .. } => decide (d.toNat ≤ t)
    | _ => false)
  .next (s.finishWait wid ls)

/-- The scope whose conditions a lane still waits for, in a FENCE or after an atomic (R228, R281). -/
def Lane.fenceScope (l : Lane) : Option (Sc × Nat) :=
  match l.wait with
  | some { instr := .fence _ sc, serial := n, .. } => some (sc, n)
  | some { instr := .atom _ _ _ sc _ _ _ _ _ _, phase := .trailing, serial := n, .. } => some (sc, n)
  | some { instr := .cas _ _ sc _ _ _ _ _ _, phase := .trailing, serial := n, .. } => some (sc, n)
  | _ => none

/-- Is the wait of a lane in FENCE itself, whose gang waits together (R238)? -/
def Lane.inFence (l : Lane) : Bool := match l.wait with | some { instr := .fence .., .. } => true | _ => false

/-- Lanes whose fence has retired move on; at package scope or wider, fetches see what their threads wrote (R66). -/
def State.leaveFence (s : State) (wid : Nat) (ls : List Nat) : State :=
  let t := s.fenced ((ls.filter (fun L => match (s.lane wid L).fenceScope with | some (sc, _) => scWide sc | none => false)).map
    (fun L => (s.lane wid L).tid))
  t.finishWait wid ls

/-- FENCE_RETIRE: the lanes of a gang that wait in FENCE move on together once the conditions hold for each of them
(R228, R238); after an atomic, each lane moves on once they hold for it (R281). -/
def execFenceRetire (wid gang : Nat) (s : State) : Host.Outcome State Fault Refusal :=
  let core := (s.warp wid).core
  let all := s.waiters wid gang
  let ls := all.filter (fun L =>
    let l := s.lane wid L
    match l.fenceScope with
    | some (sc, n) => s.fenceReady sc core l n
    | none => false)
  .next (if all.any (fun L => (s.lane wid L).inFence) ∧ ls ≠ all then s else s.leaveFence wid ls)

/-! ### Circular buffers (R195) -/

/-- Does a command name a circular buffer (R316)? -/
def Cmd.names (c : Cmd) (n : Nat) : Bool :=
  (c.bytes.getD 0 0 = 1 || c.bytes.getD 0 0 = 4) && decide (c.engine = .copy) && (c.bytes.getD 1 0).getLsbD 7 &&
    decide (c.buf = n)

/-- The lanes of a warp that wait in CBGET on a buffer, by gang. -/
def State.cbWaiters (s : State) (wid n : Nat) : List (Nat × Nat) :=
  (List.range 32).filterMap (fun L =>
    let l := s.lane wid L
    match l.st, l.wait with
    | .waiting, some { instr := .cbget _ _ k, gang := g, .. } =>
      if k.val + (s.offsOf (s.warp wid) l).c = n then some (g, L) else none
    | _, _ => none)

/-- Lanes that wait in CBGET on a buffer that is now disabled end their wait and trap (R195, R213). -/
def State.trapCbget (s : State) (g n : Nat) : State :=
  (s.group g).warps.foldl (fun (t : State) wid =>
    let ws := t.cbWaiters wid n
    ((ws.map (·.1)).eraseDups).foldl (fun (t : State) gang =>
      t.trapWait wid ((ws.filter (fun x => x.1 = gang)).map (fun x => (x.2, scratchEvent 0x03 0)))) t) s

/-- The scratchpad allocation that a lane's KWR checks a buffer against (R195, R413). -/
def State.allocOf (s : State) (wid L : Nat) : Nat × Nat :=
  let w := s.warp wid
  let l := s.lane wid L
  let org := if l.handler then (match w.fragOf l with | some f => f.origin | none => 0) else (s.originAt w.launch l.pc).1
  s.scratchRange w org

/-- CBCFG_WRITE: the k-th write of a buffer's configuration under way takes effect, or is refused (R195). -/
def execCbcfgWrite (k : Nat) (s : State) : Host.Outcome State Fault Refusal :=
  .next (match s.cbWrites[k]? with
    | none => s
    | some (r, n, v) =>
      if (s.cbWrites.take k).any (fun x => x.1.wid = r.wid) then s
      else
        let s1 : State := { s with cbWrites := removeAt s.cbWrites k }
        let w := s.warp r.wid
        let new : CBuf := { nslots := fld v 63 52, slotb := fld v 51 32, base := fld v 20 0, free := fld v 63 52 }
        let a := s.allocOf r.wid r.lane
        let inside := decide (a.1 ≤ new.base) && decide (new.base + new.nslots * new.slotb ≤ a.1 + a.2)
        let busy := s.cmds.any (fun c => decide (c.group = w.group) && !w.roaming && c.names n)
        if (s.lane r.wid r.lane).tid ≠ r.tid ∨ (s.lane r.wid r.lane).st ≠ .waiting then s1
        else if (new.nslots ≠ 0 && !inside) || busy then
          s1.trapWait r.wid (r.lanes.map (fun L => (L, scratchEvent 0x01 0)))
        else if w.roaming then s1.finishWait r.wid r.lanes
        else
          let s2 := (s1.setCbuf w.group n new).finishWait r.wid r.lanes
          if new.nslots = 0 then s2.trapCbget w.group n else s2)

end Sys2Proof.Machine
end

