-- ==== Sys2Proof/Machine/Arrive.lean ====
section
/-! DEFINITION. Nymphs between cores: departure, arrival units, hives and combs, children, flushes, donation pools and
steals, and the queues of work-graph nodes (spec/01_machine R25, R28; spec/05_control R143; spec/07_memory R197 to R204;
spec/10_spawn R284 to R296; spec/14_launch R377, R378; spec/16_edges R445). -/

namespace Sys2Proof.Machine

/-! ### Launches as the cores know them -/

/-- The comb time of a launch in ns (R377). -/
def Record.combTime (r : Record) : Nat := (r.combt + 1) * 250

/-- Does a nymph's launch name a live launch of its domain (R199)?  One that is cancelled does not. -/
def State.launchLives (s : State) (dom k : Nat) : Bool :=
  let l := s.launch k
  l.live && decide (l.r.dom = dom) && !l.cancelled

/-! ### Departure (R143, R197, R198) -/

/-- The lanes that have stopped to migrate. -/
def State.departing (s : State) : List (Nat × Nat) :=
  s.warps.flatMap (fun e => (e.2.lanesWhere (fun l => decide (l.st = .departing))).map (fun L => (e.1, L)))

/-- A thread packed into a nymph (R198): register k is the window's w_k.  CDELTA holds the whole difference, since a thread
leaves only while it is below 2^20 ns (R197, R203). -/
def State.packLane (s : State) (w : Warp) (l : Lane) (pc : Word) (dest : Nat) : Nymph :=
  let t := Nat.max (s.localTime w.core) l.tlast.toNat
  let F := s.frameSize w
  let c := l.cmaxs.toNat
  let hdr : NymphHdr :=
    { depth := l.depth, tag := l.tag, launch := w.launch, cdelta := Nat.min (c - t) (2 ^ 20 - 1), dtime := t % 2 ^ 40,
      fm1 := F - 1, pred := l.preds, fmode := l.fmode, fstat := l.fstat, wake := l.wake, wsp := l.wsp, pc := pc }
  { tid := l.tid, dom := w.dom, hdr := hdr.pack, words := (List.range F).map l.win, stamped := true,
    tlast := BitVec.ofNat 64 t, src := w.core, dest := dest }

/-- A lane whose thread has left: it is exited in its warp, and what depended on it goes on (R197 step 6). -/
def State.leaveLane (s : State) (wid L : Nat) : State :=
  let s := (s.parted [(s.lane wid L).tid]).updLane wid L (fun l => { l with st := .exited, wait := none, defer := false, tid := 0 })
  (s.barAfterExit wid).reap wid

/-- The first stage of a departure: the waits of R56, then the spill of R143, whose failing write traps the lane. -/
def State.departSpill (s : State) (wid L : Nat) (w : Wait) : State :=
  let l := s.lane wid L
  let next (t : State) : State := t.updLane wid L (fun l =>
    { l with wait := some { w with phase := .sent, serial := t.serial } })
  if s.governed wid s.serial then s
  else if l.resf ≠ 2 then next s
  else
    let s1 := s.resume wid [L]
    let base := l.wsp - 192
    let at' (j : Nat) : Word := base + BitVec.ofNat 64 (8 * j)
    match s1.spillAcc at' 1 false true with
    | some e => (s1.raise [(L, e)]).blank
    | none => next (((s1.spillStores L base).updLane wid L (fun l => { l with wsp := l.wsp - 192, resf := 1 })).blank)

/-- The second stage: the thread's writes are applied and its completion times known and near; it leaves, after lower
lanes of its gang bound for the same core (R197, R201). -/
def State.departLeave (s : State) (wid L : Nat) (w : Wait) : State :=
  let wp := s.warp wid
  let l := wp.lane L
  let lower := (wp.lanesWhere (fun l => decide (l.st = .departing))).any (fun K => decide (K < L) &&
    (match (wp.lane K).wait with | some x => decide (x.gang = w.gang) && decide (x.dl = w.dl) | none => false))
  if s.writesOf l.tid s.serial ∨ s.ctimeDue l.tid ∨ lower ∨ ¬l.cmaxs.toNat < s.localTime wp.core + 2 ^ 20 then s
  else
    let n := s.packLane wp l l.pc w.dl.toNat
    ({ s with nymphs := s.nymphs ++ [n] } : State).leaveLane wid L

/-- NYMPH_DEPART: the k-th lane that has stopped to migrate goes on with its departure, unless its launch is parked (R143,
R197, R399). -/
def execNymphDepart (k : Nat) (s : State) : Host.Outcome State Fault Refusal :=
  .next (match s.departing[k]? with
    | none => s
    | some (wid, L) =>
      match (s.lane wid L).wait with
      | none => s
      | some w =>
        if (s.launch (s.warp wid).launch).st = .parked then s else if w.phase = .hold then s.departSpill wid L w else s.departLeave wid L w)

/-! ### Arrival units, hives and combs (R199 to R201) -/

/-- The comb key of a nymph (R201). -/
def Nymph.key (n : Nymph) : CombKey := { dom := n.dom, launch := n.fields.launch, pc := n.fields.pc, tag := n.fields.tag }

/-- A comb that becomes ready. -/
def State.markReady (s : State) (c : Comb) : State × Comb :=
  ({ s with serial := s.serial + 1 }, { c with ready := true, order := s.serial })

/-- A nymph placed in a comb of a list: an open comb of its key, or a new one where one is free.  None when it must
wait. -/
def State.enterComb (s : State) (cs : List Comb) (limit : Nat) (n : Nymph) (now : Nat) : Option (State × List Comb) :=
  let open' (c : Comb) : Bool := !c.ready && decide (c.key = n.key)
  if cs.any open' then
    let r := cs.foldl (fun (r : State × List Comb) c =>
      if open' c then
        let c1 := { c with nymphs := c.nymphs ++ [n] }
        if c1.nymphs.length = 32 then let m := r.1.markReady c1; (m.1, r.2 ++ [m.2]) else (r.1, r.2 ++ [c1])
      else (r.1, r.2 ++ [c])) (s, [])
    some r
  else if cs.length < limit then
    some ({ s with serial := s.serial + 1 },
      cs ++ [{ key := n.key, nymphs := [n], due := now + (s.launch n.fields.launch).r.combTime, ready := false,
               born := s.serial, order := s.serial }])
  else none

/-- Arrival slots in use (R199, R201). -/
def Arrival.used (a : Arrival) : Nat := a.slots.length + (a.combs.map (fun c => c.nymphs.length)).foldl (· + ·) 0

/-- Nymphs in a pool (R290). -/
def Pool.used (p : Pool) : Nat := (p.combs.map (fun c => c.nymphs.length)).foldl (· + ·) 0

/-- A nymph enters a donation pool, if the pool has room for it (R290). -/
def State.enterPool (s : State) (cluster : Nat) (n : Nymph) : Option State :=
  let p := s.pool cluster
  if 1024 ≤ p.used then none
  else (s.enterComb p.combs (p.combs.length + 1) n (s.localTime (16 * cluster))).map (fun x =>
    x.1.updPool cluster (fun p => { p with combs := x.2 }))

/-- The hive's nymphs moved out in order while there is room: into free arrival slots, or, of one that found its donation
pool full, back into the pool (R200, R290).  A head that has no room holds back those behind it, wherever they are bound
(DESIGN CHOICE, log entry 67). -/
def State.drainHive (s : State) (core : Nat) : Nat → State
  | 0 => s
  | fuel + 1 =>
    let a := s.arr core
    match a.hive with
    | [] => s
    | n :: t =>
      let rest (s : State) : State := s.updArr core (fun a => { a with hive := t })
      match n.pool with
      | none =>
        if a.used < 1024 then
          State.drainHive ((rest s).updArr core (fun a => { a with slots := a.slots ++ [n] })) core fuel
        else s
      | some c =>
        match s.enterPool c n with
        | some s1 => State.drainHive (rest s1) core fuel
        | none => s

/-- Combs that came whole enter in order, each once a comb and the slots of its nymphs are free (R17, R291, R295). -/
def State.enterDue (s : State) (core : Nat) : State :=
  s.updArr core (fun a => a.due.foldl (fun (a : Arrival) c =>
    if a.due = [] ∧ a.combs.length < 64 ∧ a.used + c.nymphs.length ≤ 1024 then { a with combs := a.combs ++ [c] }
    else { a with due := a.due ++ [c] }) { a with due := [] })

/-- Waiting nymphs placed in combs in order of acceptance (R201). -/
def State.fillCombs (s : State) (core : Nat) : State :=
  let a := s.arr core
  let r := a.slots.foldl (fun (r : State × List Comb × List Nymph) n =>
    match r.1.enterComb r.2.1 64 n (s.localTime core) with
    | some x => (x.1, x.2, r.2.2)
    | none => (r.1, r.2.1, r.2.2 ++ [n])) (s, a.combs, [])
  r.1.updArr core (fun a => { a with combs := r.2.1, slots := r.2.2 })

/-- An arrival unit brought to rest: combs that came whole enter, the hive drains and combs fill (R200, R201). -/
def State.settleArr (s : State) (core : Nat) : State :=
  let s := s.enterDue core
  (s.drainHive core (s.arr core).hive.length).fillCombs core

/-- The arrival units of a cluster brought to rest after its pool has given up nymphs: those that found it full return to
it (R290), core by core in ascending order. -/
def State.settlePool (s : State) (cluster : Nat) : State :=
  (List.range 16).foldl (fun t i => if (t.arr (16 * cluster + i)).hive = [] then t else t.settleArr (16 * cluster + i)) s

/-- A ready comb comes whole to a core (R291, R295). -/
def State.comeWhole (s : State) (core : Nat) (c : Comb) : State :=
  (s.updArr core (fun a => { a with due := a.due ++ [c] })).settleArr core

/-- A nymph accepted at a core, into a slot or the hive (R199, R200). -/
def State.accept (s : State) (core : Nat) (n : Nymph) : State :=
  let s := s.updArr core (fun a =>
    if a.hive = [] ∧ a.used < 1024 then { a with slots := a.slots ++ [n] } else { a with hive := a.hive ++ [n] })
  s.settleArr core

/-- A nymph accepted into a donation pool; one that finds the pool full goes to the hive of the core that issued it, behind
those that went there before (R290). -/
def State.donate (s : State) (cluster : Nat) (n : Nymph) : State :=
  let behind := (s.arr n.src).hive.any (fun x => x.pool = some cluster)
  match (if behind then none else s.enterPool cluster n) with
  | some t => t
  | none => (s.updArr n.src (fun a => { a with hive := a.hive ++ [n] })).settleArr n.src

/-- A nymph discarded, and its thread no longer counted (R199, R300). -/
def State.discard (s : State) (n : Nymph) : State := s.endThread n.fields.launch n.tid

/-- A nymph that a peer package sends (R441, R445): what it carries and the core it is bound for are free (log entry 86); its
frame is that of the launch it names, and its domain that launch's (R198). -/
def State.peerNymph (s : State) : Nymph :=
  let bs := Config.bytes s.draws ++ List.replicate 288 0
  let h : NymphHdr := .unpack (BitVec.ofNat 256 (leNat (bs.take 32)))
  let l := s.launch h.launch
  { tid := s.serial, dom := l.r.dom, hdr := ({ h with fm1 := l.r.frame - 1 } : NymphHdr).pack,
    words := (List.range l.r.frame).map (fun i => BitVec.ofNat 64 (leNat ((bs.drop (32 + 8 * i)).take 8))),
    stamped := true, src := 384, dest := Config.number s.draws % 384, remote := true }

/-- A nymph of a peer package arrives: discarded where no launch of roaming threads lives under its index or its PC is none
(R45; log entry 86), refused where it would go to the hive and the REMOTE slots are taken (R199, R200, R445). -/
def State.peerArrival (s : State) : State :=
  let n := s.peerNymph
  let s1 : State := { s.drawn with serial := s.serial + 1 }
  let a := s.arr n.dest
  if ¬(s.launchLives n.dom n.fields.launch ∧ (s.launch n.fields.launch).r.kind ≠ 0 ∧ pcValid n.fields.pc) then s1
  else if (a.hive ≠ [] ∨ 1024 ≤ a.used) ∧ s.host.hiveRemote.toNat ≤ (a.hive.filter (·.remote)).length then s1
  else s1.accept n.dest n

/-- NYMPH_ARRIVAL: the k-th nymph under way reaches its core, and is discarded where its launch no longer lives or its PC is
none (R45, R199, R200).  One bound for a core of a peer package leaves
this package, or is refused there and kept for 2 µs (R445); a number past those under way is the arrival of a nymph from a
peer package. -/
def execNymphArrival (k : Nat) (s : State) : Host.Outcome State Fault Refusal :=
  .next (match s.nymphs[k]? with
    | none => s.peerArrival
    | some n =>
      if (s.nymphs.take k).any (fun x => decide (x.src = n.src) && decide (x.dest = n.dest)) then s
      else
        let s1 : State := { s with nymphs := removeAt s.nymphs k }
        if ¬homeHere n.dest then
          (if Config.choice s.draws then s1 else { s1 with resends := s1.resends ++ [(n, s.localTime n.src + 2000)] }).drawn
        else if ¬s.launchLives n.dom n.fields.launch ∨ ¬pcValid n.fields.pc then s1.discard n
        else
          match n.pool with
          | some c => s1.donate c n
          | none => s1.accept n.dest n)

/-- REMOTE_NYMPH_RESEND: the k-th nymph that a peer refused is sent again once 2 µs have passed (R445). -/
def execRemoteNymphResend (k : Nat) (s : State) : Host.Outcome State Fault Refusal :=
  .next (match s.resends[k]? with
    | none => s
    | some (n, t) =>
      if s.localTime n.src < t then s.drawn
      else ({ s with resends := removeAt s.resends k, nymphs := s.nymphs ++ [n] } : State).drawn)

/-- SPAWN_CHILD_DEPART: the k-th child leaves once its issuer's earlier writes are applied; it carries the issuer's
largest completion time (R288).  The children of one instruction of a lane leave in order (R287), and so do those that go
from one core to another (R201). -/
def execSpawnChildDepart (k : Nat) (s : State) : Host.Outcome State Fault Refusal :=
  .next (match s.children[k]? with
    | none => s
    | some n =>
      if s.writesOf n.parent n.parentSerial ∨
          (s.children.take k).any (fun x => (decide (x.src = n.src) && decide (x.dest = n.dest)) ||
            (decide (x.parent = n.parent) && decide (x.batch = n.batch))) then s
      else
        let t := s.localTime n.src
        let c := n.full.toNat
        let hdr := { n.fields with dtime := t % 2 ^ 40, cdelta := Nat.min (c - t) (2 ^ 20 - 1) : NymphHdr }
        let n' := { n with hdr := hdr.pack, stamped := true, acq := BitVec.ofNat 64 (Nat.max c t) }
        { s with children := removeAt s.children k, nymphs := s.nymphs ++ [n'] })

/-- CFLUSH_ARRIVE: the k-th flush reaches its core: the matching combs of its launch become ready (R289). -/
def execCflushArrive (k : Nat) (s : State) : Host.Outcome State Fault Refusal :=
  .next (match s.flushes[k]? with
    | none => s
    | some (core, launch, tag) =>
      let s1 : State := { s with flushes := removeAt s.flushes k }
      if ¬homeHere core then s1
      else
        let hit (c : Comb) : Bool := !c.ready && decide (c.key.launch = launch) &&
          (match tag with | none => true | some g => decide (c.key.tag = g))
        let r := (s1.arr core).combs.foldl (fun (r : State × List Comb) c =>
          if hit c then let m := r.1.markReady c; (m.1, r.2 ++ [m.2]) else (r.1, r.2 ++ [c])) (s1, [])
        r.1.updArr core (fun a => { a with combs := r.2 }))

/-- The combs that run a timer, with the place of each: an arrival unit's core, or a pool's cluster. -/
def State.timers (s : State) : List (Bool × Nat × Comb) :=
  (s.arrival.flatMap (fun e => (e.2.combs.filter (fun c => !c.ready)).map (fun c => (false, e.1, c)))) ++
    (s.pools.flatMap (fun e => (e.2.combs.filter (fun c => !c.ready)).map (fun c => (true, e.1, c))))

/-- COMB_TIMER_EXPIRE: the k-th timer has run out, and its comb becomes ready (R201, R290). -/
def execCombTimerExpire (k : Nat) (s : State) : Host.Outcome State Fault Refusal :=
  .next (match s.timers[k]? with
    | none => s
    | some (pool, n, c) =>
      let core := if pool then 16 * n else n
      if s.localTime core < c.due then s.drawn
      else
        let m := s.markReady c
        let put (cs : List Comb) : List Comb := cs.map (fun x => if x = c then m.2 else x)
        (if pool then m.1.updPool n (fun p => { p with combs := put p.combs })
          else m.1.updArr n (fun a => { a with combs := put a.combs })).drawn)

/-! ### Warps of roaming threads (R25, R199, R285) -/

/-- The full device time whose low 40 bits are DTIME and which lies nearest a local device time (R199). -/
def fullTime (dtime now : Nat) : Nat :=
  let base := now / 2 ^ 40 * 2 ^ 40 + dtime
  let dist (x : Nat) : Nat := if x < now then now - x else x - now
  (minBy dist ([base, base + 2 ^ 40] ++ (if 2 ^ 40 ≤ base then [base - 2 ^ 40] else []))).getD base

/-- The lane that a nymph becomes at a core (R199, R226): one that migrated holds D + CDELTA, or what its writes have brought
since (R203); a created thread or a child holds no completion time (R285). -/
def Nymph.lane (n : Nymph) (now : Nat) : Lane :=
  let f := n.fields
  let wb := 24 * f.depth.toNat % 64
  let c : Word := if n.fresh then 0 else BitVec.ofNat 64 (Nat.max (fullTime f.dtime now + f.cdelta) n.full.toNat)
  let regs := ((List.range n.words.length).zip n.words).foldl (fun (r : Tab Word) p => r.set 0 ((wb + p.1) % 64) p.2) []
  { tid := n.tid, st := .ready, pc := f.pc, regs := regs, preds := f.pred, fmode := f.fmode, fstat := f.fstat,
    wb := BitVec.ofNat 6 wb, resf := 1, depth := f.depth, wsp := f.wsp, cmaxp := c, cmaxs := c, tag := f.tag,
    wake := f.wake, monitor := n.registered, tlast := n.tlast,
    acq := (if n.fresh then BitVec.ofNat 64 (Nat.max n.acq.toNat n.full.toNat) else n.acq),
    dtime := (if n.stamped then some (BitVec.ofNat 40 f.dtime) else none),
    entry := n.entry, after := n.after, trail := n.trail }

/-- A warp that comes to a launch in its grace is due its OVERRUN too (R254). -/
def State.meetGrace (s : State) (wid : Nat) : State :=
  let k := (s.warp wid).launch
  if (s.launch k).st = .grace then s.updLaunch k (fun l => { l with pendingOvr := l.pendingOvr ++ [wid] }) else s

/-- A warp formed of a comb's nymphs in a warp slot: lanes in order of entry, scalar registers zero (R25, R78, R201). -/
def State.formWarp (s : State) (core part slot : Nat) (c : Comb) : State :=
  let lanes : Tab Lane := ((List.range c.nymphs.length).zip c.nymphs).map (fun p => (p.1, p.2.lane (s.localTime core)))
  let w : Warp :=
    { live := true, core := core, part := part, slot := slot, roaming := true, dom := c.key.dom, launch := c.key.launch,
      lanes := lanes }
  ({ s with warps := s.warps.set {} s.serial w, serial := s.serial + 1 } : State).meetGrace s.serial

/-! ### Stealing (R291) -/

/-- The order in which an idle cluster asks others: its die's after it, wrapping, then die by die along the ring
0, 1, 3, 2 (R13, R291). -/
def stealOrder (cluster : Nat) : List Nat :=
  let die := cluster / 6
  let ring := match die with | 0 => [1, 3, 2] | 1 => [3, 2, 0] | 3 => [2, 0, 1] | _ => [0, 1, 3]
  (List.range 5).map (fun i => 6 * die + (cluster % 6 + 1 + i) % 6) ++
    ring.flatMap (fun d => (List.range 6).map (fun i => 6 * d + i))

/-- Warp slots of a partition that no live warp holds, and that no roaming warp of a domain is kept from by a record
which holds a saved warp (R260). -/
def State.freeSlots (s : State) (core part : Nat) (dom : Option Nat) : List Nat :=
  let here (w : Warp) : Bool := decide (w.core = core) && decide (w.part = part)
  (List.range 32).filter (fun k =>
    !(s.warps.any (fun e => e.2.live && here e.2 && decide (e.2.slot = k))) &&
    !(s.saved.any (fun c => c.roaming && c.warps.any (fun e => here e.2 && decide (e.2.slot = k) && decide (dom = some e.2.dom)))))

/-- Free warp slots of a core. -/
def State.freeOf (s : State) (core : Nat) (dom : Option Nat) : Nat :=
  (s.freeSlots core 0 dom).length + (s.freeSlots core 1 dom).length

/-- The core of a cluster with the most free warp slots, the lowest number breaking ties (R290, R291). -/
def State.roomiest (s : State) (cluster : Nat) (dom : Option Nat) : Nat :=
  let cores := (List.range 16).map (16 * cluster + ·)
  let best := cores.foldl (fun m c => Nat.max m (s.freeOf c dom)) 0
  (cores.find? (fun c => s.freeOf c dom = best)).getD (16 * cluster)

/-- Is a cluster idle (R291)? -/
def State.idle (s : State) (cluster : Nat) : Bool :=
  let cores := (List.range 16).map (16 * cluster + ·)
  let p := s.pool cluster
  p.combs == [] &&
    cores.all (fun c => (s.arr c).slots == [] && (s.arr c).combs == [] && (s.arr c).due == [] && (s.arr c).hive == []) &&
    cores.any (fun c => decide (4 ≤ (s.freeSlots c 0 none).length) || decide (4 ≤ (s.freeSlots c 1 none).length))

/-- STEAL_START: an idle cluster asks the first of the others (R291). -/
def execStealStart (cluster : Nat) (s : State) : Host.Outcome State Fault Refusal :=
  .next (if (s.pool cluster).steal = .none ∧ s.idle cluster then
      s.updPool cluster (fun p => { p with steal := .asking ((stealOrder cluster).headD 0) 0 })
    else s)

/-- STEAL_REQUEST: the victim that cluster k asks gives its oldest comb of a launch whose placement set reaches the
thief's cluster, or answers that it has none (R291). -/
def execStealRequest (k : Nat) (s : State) : Host.Outcome State Fault Refusal :=
  .next (match (s.pool k).steal with
    | .asking v tried =>
      let able := (s.pool v).combs.filter (fun c => (s.launch c.key.launch).r.set.any (fun x => clusterOf x = k))
      match minBy (·.born) able with
      | some c =>
        let s1 := (s.updPool v (fun p => { p with combs := p.combs.filter (fun x => x ≠ c) })).updPool k
          (fun p => { p with steal := .answered (some c) tried })
        s1.settlePool v
      | none => s.updPool k (fun p => { p with steal := .answered none tried })
    | _ => s)

/-- STEAL_ANSWER: stolen nymphs reach cluster k and form a comb that is ready at once; after an empty answer the thief
asks the next (R199, R291). -/
def execStealAnswer (k : Nat) (s : State) : Host.Outcome State Fault Refusal :=
  .next (match (s.pool k).steal with
    | .answered (some c) _ =>
      let s1 := s.updPool k (fun p => { p with steal := .none })
      if s.launchLives c.key.dom c.key.launch then
        let m := s1.markReady c
        m.1.comeWhole (s.roomiest k (some c.key.dom)) m.2
      else c.nymphs.foldl State.discard s1
    | .answered none tried =>
      let next := (stealOrder k)[tried + 1]?
      s.updPool k (fun p => { p with steal := match next with | some v => .asking v (tried + 1) | none => .none })
    | _ => s)

/-! ### Nodes (R293 to R296) -/

/-- The descriptor of a node as it stands in memory (R293): its key, RECW, TILE, QCAP, TAIL, HEAD, OPEN, QCOUNT, FLUSH,
the launch index, CCADDR and QBASE. -/
structure NodeDesc where
  qbase : Nat
  recw : Nat
  tile : Nat
  qcap : Nat
  tail : Nat
  head : Nat
  opens : Nat
  count : Nat
  flush : Nat
  index : Nat
  ccaddr : Word
  deriving DecidableEq, Repr

/-- A node descriptor parsed from its bytes; FLUSH has ten bits, and 0 stands for 1,024 (R293). -/
def parseNode (bs : List Byte) : NodeDesc :=
  let w (i : Nat) : Nat := leNat ((bs.drop (8 * i)).take 8)
  let fl := w 4 / 2 ^ 32 % 2 ^ 10
  { qbase := w 0, recw := w 1 / 2 ^ 40 % 256, tile := w 1 / 2 ^ 32 % 256, qcap := w 1 % 2 ^ 32, tail := w 2 / 2 ^ 32,
    head := w 2 % 2 ^ 32, opens := w 3 / 2 ^ 32, count := w 3 % 2 ^ 32, flush := if fl = 0 then 1024 else fl, index := w 4 % 2 ^ 12,
    ccaddr := BitVec.ofNat 64 (w 5) }

/-- The descriptor at an address of a domain. -/
def State.nodeAt (s : State) (dom va : Nat) : Option NodeDesc := (s.readVa dom va 64).map parseNode

/-- Bytes written over several lines at their homes. -/
def State.writeSpan (s : State) (dom : Nat) : Nat → Nat → List Byte → State
  | 0, _, _ => s
  | fuel + 1, va, bs =>
    if bs = [] then s
    else
      let n := 64 - va % 64
      State.writeSpan (s.patch dom va (bs.take n)) dom fuel (va + n) (bs.drop n)

/-- Bytes read over several lines at their homes. -/
def State.readSpan (s : State) (dom : Nat) : Nat → Nat → Nat → List Byte
  | 0, _, _ => []
  | fuel + 1, va, n =>
    if n = 0 then []
    else
      let k := Nat.min n (64 - va % 64)
      (s.readVa dom va k).getD (List.replicate k 0) ++ s.readSpan dom fuel (va + k) (n - k)

/-- The nymph that a record becomes (R285, R294, R295). -/
def State.recordNymph (s : State) (k tid : Nat) (words : List Word) (q : QRec) : Nymph :=
  let r := (s.launch k).r
  let hdr : NymphHdr := { launch := k, fm1 := r.frame - 1, fmode := q.fmode, pc := r.entry, dtime := s.feTime % 2 ^ 40 }
  { tid := tid, dom := r.dom, hdr := hdr.pack, words := (words ++ List.replicate r.frame 0).take r.frame,
    full := BitVec.ofNat 64 q.cmax, entry := true, fresh := true, parent := q.tid, parentSerial := q.serial }

/-- A group formed of the n records at HEAD: a comb that is ready at once at the node's home core (R295). -/
def State.formGroup (s : State) (k n : Nat) : State :=
  let l := s.launch k
  let va := l.r.arg.toNat
  match s.nodeAt l.r.dom va with
  | none => s
  | some d =>
    let recs := (List.range n).map (fun i =>
      wordsOf (s.readSpan l.r.dom 8 (d.qbase + 8 * d.recw * ((d.head + i) % d.qcap)) (8 * d.recw)))
    let ns := ((List.range n).zip (recs.zip (l.queued ++ List.replicate n ⟨0, 0, 0, 0⟩))).map (fun p =>
      s.recordNymph k (s.serial + p.1) p.2.1 p.2.2)
    let comb : Comb := { key := { dom := l.r.dom, launch := k, pc := l.r.entry, tag := 0 }, nymphs := ns, due := 0,
                         ready := true, born := s.serial + n, order := s.serial + n }
    let s1 : State := { s with serial := s.serial + n + 1 }
    let s2 := (s1.patch l.r.dom (va + 0x10) (leBytes 4 ((d.head + n) % d.qcap))).patch l.r.dom (va + 0x18)
      (leBytes 4 (d.count - n))
    let s3 := s2.updLaunch k (fun l =>
      { l with queued := l.queued.drop n, roamers := l.roamers + n,
               flushAt := if d.count = n then none else some (s.feTime + d.flush * 250) })
    match s.translate l.r.dom va with
    | .ok f => s3.comeWhole (homeOf (f.key va) % 384) comb
    | .fail _ => s3

/-- Groups formed while records remain, at most TILE a group (R295). -/
def State.formAll (s : State) (k : Nat) : Nat → State
  | 0 => s
  | fuel + 1 =>
    match s.nodeAt (s.launch k).r.dom (s.launch k).r.arg.toNat with
    | none => s
    | some d => if d.count = 0 then s else State.formAll (s.formGroup k (Nat.min d.count d.tile)) k fuel

/-- Checks 2 to 5 of R294 on a record that has reached its node.  A node launch that is cancelled and not yet DONE counts as
not live: the record is refused with 0x08 (log entry 79).  `room` is the number of registers from w_k to the last of the
issuer's frame. -/
def State.recordFail (s : State) (m : Msg) (d : NodeDesc) (room : Nat) : Option Event :=
  let l := s.launch d.index
  if ¬(s.launchLives m.dom d.index ∧ l.r.kind = 2) then some (spawnEvent 0x08)
  else if room < d.recw then some (spawnEvent 0x07)
  else if d.opens = 0 then some (spawnEvent 0x05)
  else if d.qcap ≤ d.count then some (spawnEvent 0x04)
  else none

/-- One record appended, or the check that it fails (R294, R295). -/
def State.appendOne (s : State) (m : Msg) : State × Option Event :=
  match m.req with
  | .record words flush fmode =>
    let d := parseNode (s.bytesAt m.addr 64)
    match s.recordFail m d words.length with
    | some e => (s, some e)
    | none =>
      let s1 := s.writeSpan m.dom 8 (d.qbase + 8 * d.recw * (d.tail % d.qcap))
        ((words.take d.recw).flatMap (fun w => leBytes 8 w.toNat))
      let s2 := (s1.applyWrite (m.addr + 0x14) (leBytes 4 ((d.tail + 1) % d.qcap))).1
      let s3 := (s2.applyWrite (m.addr + 0x18) (leBytes 4 (d.count + 1))).1
      let s4 := (s3.addUnits d.index 1).updLaunch d.index (fun l =>
        { l with queued := l.queued ++ [{ cmax := m.cmax.toNat, tid := m.tid, serial := m.serial, fmode := fmode }],
                 flushAt := if d.count = 0 then some (s.feTime + d.flush * 250) else l.flushAt })
      let n := d.count + 1
      if flush then (s4.formAll d.index (n + 1), none)
      else if d.tile ≤ n then (s4.formGroup d.index d.tile, none)
      else (s4, none)
  | _ => (s, none)

/-- NODE_RECORD_APPEND: the k-th request, a record, with the others of its issue to the same home, in ascending lane
order: each is checked and appended, and its lane moves on or traps (R294). -/
def execNodeRecordAppend (k : Nat) (s : State) : Host.Outcome State Fault Refusal :=
  let isRec (m : Msg) : Bool := match m.req with | .record .. => true | _ => false
  .next (match s.frontMsg k with
    | none => s
    | some m =>
      if isRec m then
        let mine (x : Msg) : Bool := isRec x && decide (x.issue = m.issue) && decide (x.wid = m.wid) && decide (x.home = m.home)
        let all := s.net.filter mine
        let s1 : State := { s with net := s.net.filter (fun x => !mine x) }
        let r := all.foldl (fun (r : State × List Nat × List (Nat × Event)) x =>
          let o := r.1.appendOne x
          match o.2 with
          | none => (o.1, r.2.1 ++ [x.lane], r.2.2)
          | some e => (o.1, r.2.1, r.2.2 ++ [(x.lane, e)])) (s1, [], [])
        let here (L : Nat) : Bool := (s.waiters m.wid m.issue).contains L
        (r.1.finishWait m.wid (r.2.1.filter here)).trapWait m.wid (r.2.2.filter (fun x => here x.1))
      else s)

/-- NODE_FLUSH_TIMER: a node's flush timer has run out: its records form groups (R295). -/
def execNodeFlushTimer (index : Nat) (s : State) : Host.Outcome State Fault Refusal :=
  let l := s.launch index
  .next (match l.flushAt with
    | none => s
    | some t =>
      if s.feTime < t ∨ ¬l.live then s
      else
        match s.nodeAt l.r.dom l.r.arg.toNat with
        | none => s
        | some d => s.formAll index (d.count + 1))

end Sys2Proof.Machine
end

