-- ==== Sys2Proof/Decode.lean ====
section
/-! DEFINITION. The instruction word: its fields, the opcode map and operand tables as one row per instruction, the
checks of R63 in their order, the decoder and the encoder (spec/02_words R46 to R65 and the encoding section of each
class chapter). -/

namespace Sys2Proof

/-- The fields of an instruction word (R46, R47). -/
structure Fields where
  s : Bool
  u : Bool
  g : BitVec 4
  op : BitVec 8
  fn : BitVec 6
  d : BitVec 8
  a : BitVec 8
  b : BitVec 8
  c : BitVec 8
  ty : BitVec 4
  rm : BitVec 3
  sc : BitVec 3
  xs : BitVec 2
  imm : BitVec 32
  deriving DecidableEq, Repr

/-- The fields of a 96-bit word, at the bit positions of R46 and R47. -/
def unpack (w : InstrWord) : Fields where
  s := w.getLsbD 95
  u := w.getLsbD 94
  g := w.extractLsb' 90 4
  op := w.extractLsb' 82 8
  fn := w.extractLsb' 76 6
  d := w.extractLsb' 68 8
  a := w.extractLsb' 60 8
  b := w.extractLsb' 52 8
  c := w.extractLsb' 44 8
  ty := w.extractLsb' 40 4
  rm := w.extractLsb' 37 3
  sc := w.extractLsb' 34 3
  xs := w.extractLsb' 32 2
  imm := w.extractLsb' 0 32

/-- The word of given fields (R46, R47). -/
def pack (f : Fields) : InstrWord :=
  BitVec.ofBool f.s ++ BitVec.ofBool f.u ++ f.g ++ f.op ++ f.fn ++ f.d ++ f.a ++ f.b ++ f.c ++ f.ty ++ f.rm ++ f.sc ++
    f.xs ++ f.imm

/-! ### Specifiers and small fields -/

/-- The specifier a field names, none when it is reserved (R49). -/
def specOf (x : BitVec 8) : Option Spec :=
  let v := x.toNat
  if h : v < 0x20 then some (.win ⟨v, h⟩)
  else if v < 0x40 then none
  else if h : v < 0x80 then some (.sca ⟨v - 0x40, by omega⟩)
  else if h : v < 0x88 then some (.pred ⟨v - 0x80, by omega⟩)
  else if h : v < 0x98 then some (.grp ⟨v - 0x88, by omega⟩)
  else if h : v < 0xA8 then some (.tl ⟨v - 0x98, by omega⟩)
  else if h : v < 0xB8 then some (.cv ⟨v - 0xA8, by omega⟩)
  else if v = 0xF0 then some .zero
  else if v = 0xF1 then some .lane
  else if v = 0xF2 then some .wslot
  else if v = 0xF3 then some .core
  else if v = 0xF4 then some .pcv
  else if v = 0xFE then some .imm
  else if v = 0xFF then some .immhi
  else none

/-- The field that names a specifier (R49). -/
def specBits : Spec → BitVec 8
  | .win k => BitVec.ofNat 8 k.val
  | .sca k => BitVec.ofNat 8 (0x40 + k.val)
  | .pred k => BitVec.ofNat 8 (0x80 + k.val)
  | .grp k => BitVec.ofNat 8 (0x88 + k.val)
  | .tl k => BitVec.ofNat 8 (0x98 + k.val)
  | .cv k => BitVec.ofNat 8 (0xA8 + k.val)
  | .zero => 0xF0#8
  | .lane => 0xF1#8
  | .wslot => 0xF2#8
  | .core => 0xF3#8
  | .pcv => 0xF4#8
  | .imm => 0xFE#8
  | .immhi => 0xFF#8

/-- TY (R47): 0xC to 0xF are illegal. -/
def tyOf (x : BitVec 4) : Option Ty :=
  match x.toNat with
  | 0 => some .i8 | 1 => some .n8 | 2 => some .i16 | 3 => some .n16 | 4 => some .i32 | 5 => some .n32
  | 6 => some .i64 | 7 => some .n64 | 8 => some .f64 | 9 => some .f32 | 10 => some .h4 | 11 => some .b4
  | _ => none

/-- The code of a type (R47). -/
def tyCode : Ty → Nat
  | .i8 => 0 | .n8 => 1 | .i16 => 2 | .n16 => 3 | .i32 => 4 | .n32 => 5
  | .i64 => 6 | .n64 => 7 | .f64 => 8 | .f32 => 9 | .h4 => 10 | .b4 => 11

/-- RM (R47): 6 and 7 are illegal. -/
def rmOf (x : BitVec 3) : Option Rm :=
  match x.toNat with
  | 0 => some .rne | 1 => some .rtz | 2 => some .rup | 3 => some .rdn | 4 => some .rna | 5 => some .dyn
  | _ => none

/-- The code of a rounding field (R47). -/
def rmCode : Rm → Nat
  | .rne => 0 | .rtz => 1 | .rup => 2 | .rdn => 3 | .rna => 4 | .dyn => 5

/-- SC (R47): 7 is illegal. -/
def scOf (x : BitVec 3) : Option Sc :=
  match x.toNat with
  | 0 => some .thread | 1 => some .warp | 2 => some .group | 3 => some .cluster | 4 => some .die
  | 5 => some .package | 6 => some .system
  | _ => none

/-- The code of a scope (R47). -/
def scCode : Sc → Nat
  | .thread => 0 | .warp => 1 | .group => 2 | .cluster => 3 | .die => 4 | .package => 5 | .system => 6

/-- FN of CMP (R59, R96). -/
def ccOf (x : BitVec 6) : Option Cc :=
  match x.toNat with
  | 0 => some .eq | 1 => some .ne | 2 => some .lt | 3 => some .le | 4 => some .gt | 5 => some .ge | _ => none

/-- FN of a condition of CMP. -/
def ccCode : Cc → Nat
  | .eq => 0 | .ne => 1 | .lt => 2 | .le => 3 | .gt => 4 | .ge => 5

/-- FN of FCMP (R59, R122). -/
def fccOf (x : BitVec 6) : Option FCc :=
  match x.toNat with
  | 0 => some .eq | 1 => some .ne | 2 => some .lt | 3 => some .le | 4 => some .gt | 5 => some .ge
  | 6 => some .un | 7 => some .ord | _ => none

/-- FN of a condition of FCMP. -/
def fccCode : FCc → Nat
  | .eq => 0 | .ne => 1 | .lt => 2 | .le => 3 | .gt => 4 | .ge => 5 | .un => 6 | .ord => 7

/-- FN of PLOG (R59, R101). -/
def plogOf (x : BitVec 6) : Option PlogOp :=
  match x.toNat with
  | 0 => some .and | 1 => some .or | 2 => some .xor | 3 => some .andn | 4 => some .orn | 5 => some .xnor
  | 6 => some .nand | 7 => some .nor | _ => none

/-- FN of an operation of PLOG. -/
def plogCode : PlogOp → Nat
  | .and => 0 | .or => 1 | .xor => 2 | .andn => 3 | .orn => 4 | .xnor => 5 | .nand => 6 | .nor => 7

/-- FN of FCPS (R59, R121). -/
def cpsOf (x : BitVec 6) : Option CpsOp :=
  match x.toNat with
  | 0 => some .copy | 1 => some .ncopy | 2 => some .xsgn | _ => none

/-- FN of an option of FCPS. -/
def cpsCode : CpsOp → Nat
  | .copy => 0 | .ncopy => 1 | .xsgn => 2

/-- FN of SHFL (R59, R171). -/
def shflOf (x : BitVec 6) : Option ShflOp :=
  match x.toNat with
  | 0 => some .idx | 1 => some .up | 2 => some .down | 3 => some .xor | _ => none

/-- FN of an option of SHFL. -/
def shflCode : ShflOp → Nat
  | .idx => 0 | .up => 1 | .down => 2 | .xor => 3

/-- FN of VOTE (R59, R174). -/
def voteOf (x : BitVec 6) : Option VoteOp :=
  match x.toNat with
  | 0 => some .every | 1 => some .some | 2 => some .same | _ => none

/-- FN of an option of VOTE. -/
def voteCode : VoteOp → Nat
  | .every => 0 | .some => 1 | .same => 2

/-- The operation of REDUCE and SCAN with code `n` (R59). -/
def redOf (n : Nat) : Option RedOp :=
  match n with
  | 0 => some .add | 1 => some .min | 2 => some .max | 3 => some .and | 4 => some .or | 5 => some .xor
  | 6 => some .fadd | 7 => some .fmin | 8 => some .fmax | _ => none

/-- The code of an operation of REDUCE and SCAN. -/
def redCode : RedOp → Nat
  | .add => 0 | .min => 1 | .max => 2 | .and => 3 | .or => 4 | .xor => 5 | .fadd => 6 | .fmin => 7 | .fmax => 8

/-- FN of ATOM, RED and ATOMS (R59, R278). -/
def atomOf (x : BitVec 6) : Option AtomOp :=
  match x.toNat with
  | 0 => some .add | 1 => some .min | 2 => some .max | 3 => some .and | 4 => some .or | 5 => some .xor
  | 6 => some .exch | 7 => some .inc | 8 => some .dec | 9 => some .fadd | 10 => some .fmin | 11 => some .fmax
  | _ => none

/-- FN of an atomic operation. -/
def atomCode : AtomOp → Nat
  | .add => 0 | .min => 1 | .max => 2 | .and => 3 | .or => 4 | .xor => 5 | .exch => 6 | .inc => 7 | .dec => 8
  | .fadd => 9 | .fmin => 10 | .fmax => 11

/-- The mode of a matrix instruction by FN and TY (R61). -/
def modeOf (fn : BitVec 6) (ty : BitVec 4) : Option MatMode :=
  if fn = 0 then
    match ty.toNat with
    | 8 => some .f64 | 9 => some .f32 | 10 => some .f16 | 11 => some .bf16 | _ => none
  else if h : fn.toNat < 50 then
    if ty = 0 then some (.bfp ⟨fn.toNat - 1, by omega⟩) else none
  else none

/-- FN of a mode (R61). -/
def modeFn : MatMode → BitVec 6
  | .bfp k => BitVec.ofNat 6 (1 + k.val)
  | _ => 0

/-- TY of a mode (R61). -/
def modeTy : MatMode → BitVec 4
  | .f64 => 8 | .f32 => 9 | .f16 => 10 | .bf16 => 11 | .bfp _ => 0

/-- The engine that IMM[1:0] of PUSH names (R336). -/
def engineOf (n : Nat) : Option EngineKind :=
  match n with
  | 0 => some .copy | 1 => some .cond | 2 => some .disp | _ => none

/-- The number of an engine in PUSH (R303). -/
def engineCode : EngineKind → Nat
  | .copy => 0 | .cond => 1 | .disp => 2

/-! ### The operand tables -/

/-- What a specifier position accepts (R50, R83 and the codes of the class chapters). -/
inductive Kind where
  | none            -- unused: must be zero
  | v               -- value specifier
  | vec             -- value specifier of a cross-lane source, read in every participant (R168)
  | w               -- writable destination
  | p               -- predicate
  | wp              -- either
  | wU              -- cross-lane destination (R168)
  | wpU             -- cross-lane destination of VOTE
  | r               -- window or scalar register
  | rz              -- window or scalar register, or ZERO
  | sCtl            -- scalar register, ZERO, IMM, IMMHI
  | sOrd            -- scalar register, g0 to g15, ZERO, IMM, IMMHI
  | sLane           -- any specifier alike in every lane (R169)
  | cv | cvz        -- convergence register, or that or ZERO
  | tl | tlz        -- timeline counter, or that or ZERO
  | win (max : Nat) -- window register up to `max`
  | winz            -- window register or ZERO
  | sblk (max : Nat)-- scalar register up to `max` that heads a block
  | push            -- block head of PUSH (R336)
  deriving DecidableEq, Repr

/-- How IMM is used: not at all, as the value of IMM and IMMHI sources, or in a role of its own whose limits hold
or do not hold. -/
inductive ImmRole where
  | unused
  | source
  | own (ok : Bool)
  deriving DecidableEq, Repr

/-- One row of the opcode map with its operand table (R59, R83 and the encoding sections of the class chapters). -/
structure Row where
  fn : Bool            -- FN is assigned
  ty : Bool            -- TY is accepted
  rm : Bool            -- RM is used
  sc : Bool            -- SC is used
  xs : Bool            -- XS is used
  d : Kind
  a : Kind
  b : Kind
  c : Kind
  imm : ImmRole
  u : Bool             -- U may be set
  cross : Bool := false -- the cross-lane class (R54)
  deriving DecidableEq, Repr

/-- INT of R59. -/
def tyInt (x : BitVec 4) : Bool := x.toNat < 8
/-- FLT of R59. -/
def tyFlt (x : BitVec 4) : Bool := decide (8 ≤ x.toNat) && decide (x.toNat ≤ 11)
/-- Types 0x0 to 0xB. -/
def tyAny (x : BitVec 4) : Bool := x.toNat ≤ 11

/-- A row of the integer class (R83). -/
def rowInt (fn ty : Bool) (d a b c : Kind) (u : Bool := true) : Row :=
  ⟨fn, ty, false, false, false, d, a, b, c, .source, u, false⟩

/-- A row of the floating-point class (R116). -/
def rowFlt (fn ty rm : Bool) (d a b c : Kind) (imm : ImmRole := .source) : Row :=
  ⟨fn, ty, rm, false, false, d, a, b, c, imm, true, false⟩

/-- A row of the control class (R152). -/
def rowCtl (fn : Bool) (ty0 : Bool) (d a b c : Kind) (imm : ImmRole) : Row :=
  ⟨fn, ty0, false, false, false, d, a, b, c, imm, false, false⟩

/-- A row with a memory operand in A and B (R206, R236, R301). -/
def rowMem (fn ty sc : Bool) (d c : Kind) (u : Bool) (imm : ImmRole := .own true) : Row :=
  ⟨fn, ty, false, sc, true, d, .r, .rz, c, imm, u, false⟩

/-- The row of a word's OP, FN and TY; none for a reserved major opcode (R59, R60). -/
def rowOf (f : Fields) : Option Row :=
  let fn0 := f.fn == 0
  let ty0 := f.ty == 0
  let int := tyInt f.ty
  let flt := tyFlt f.ty
  let redTy := if f.fn.toNat % 16 ≤ 5 then int else (f.ty == 8 || f.ty == 9)
  let atomTy := if f.fn.toNat ≤ 8 then int else (f.ty == 8 || f.ty == 9)
  let imm := f.imm.toNat
  match f.op.toNat with
  | 0x00 => some ⟨fn0, ty0, false, false, false, .none, .none, .none, .none, .unused, false, false⟩
  | 0x01 => some (rowInt fn0 int .w .v .none .none)
  | 0x02 => some (rowInt fn0 int .w .v .v .none)
  | 0x03 => some (rowInt fn0 int .w .v .v .none)
  | 0x04 => some (rowInt fn0 int .w .v .v .p)
  | 0x05 => some (rowInt fn0 int .w .v .v .p)
  | 0x06 => some (rowInt fn0 int .w .v .v .none)
  | 0x07 => some (rowInt fn0 int .w .v .v .none)
  | 0x08 => some (rowInt fn0 int .w .v .v .v)
  | 0x09 => some (rowInt fn0 int .w .v .v .none)
  | 0x0A => some (rowInt fn0 int .w .v .v .none)
  | 0x0B => some (rowInt fn0 int .w .v .v .none)
  | 0x0C => some (rowInt fn0 int .w .v .v .none)
  | 0x0D => some (rowInt fn0 int .w .v .none .none)
  | 0x0E => some (rowInt fn0 int .w .v .none .none)
  | 0x0F => some (rowInt fn0 int .w .v .v .none)
  | 0x10 => some (rowInt fn0 int .w .v .v .none)
  | 0x11 => some (rowInt fn0 int .w .v .v .none)
  | 0x12 => some (rowInt fn0 int .w .v .v .none)
  | 0x13 => some (rowInt fn0 int .w .v .none .none)
  | 0x14 => some (rowInt fn0 int .w .v .v .none)
  | 0x15 => some (rowInt fn0 int .w .v .v .none)
  | 0x16 => some (rowInt fn0 int .w .v .v .none)
  | 0x17 => some (rowInt (f.fn.toNat < 2) int .w .v .v .none)
  | 0x18 => some (rowInt fn0 int .w .v .v .none)
  | 0x19 => some (rowInt fn0 int .w .v .v .v)
  | 0x1A => some (rowInt fn0 int .w .v .none .none)
  | 0x1B => some (rowInt fn0 int .w .v .none .none)
  | 0x1C => some (rowInt fn0 int .w .v .none .none)
  | 0x1D => some (rowInt fn0 int .w .v .none .none)
  | 0x1E => some (rowInt (f.fn.toNat < 6) int .wp .v .v .none)
  | 0x1F => some (rowInt fn0 int .w .v .v .p)
  | 0x20 => some { rowInt fn0 ty0 .w .none .none .none with imm := .own true }
  | 0x21 => some (rowInt fn0 int .w .v .v .none)
  | 0x22 => some (rowInt fn0 int .w .v .v .v)
  | 0x23 => some (rowInt fn0 (f.ty.toNat < 6) .w .v .v .none)
  | 0x24 => some (rowInt fn0 ty0 .w .v .v .v)
  | 0x25 => some (rowInt fn0 (f.ty == 5) .w .v .v .none)
  | 0x26 => some { rowInt (f.fn.toNat < 8) ty0 .p .p .p .none false with imm := .unused }
  | 0x27 =>
    if fn0 then some { rowInt true ty0 .w .none .none .none with imm := .unused }
    else some (rowInt (f.fn == 1) ty0 .none .v .none .none)
  | 0x28 => some (rowFlt fn0 flt true .w .v .v .none)
  | 0x29 => some (rowFlt fn0 flt true .w .v .v .none)
  | 0x2A => some (rowFlt fn0 flt true .w .v .v .none)
  | 0x2B => some (rowFlt fn0 flt true .w .v .v .v)
  | 0x2C => some (rowFlt fn0 flt false .w .v .v .none)
  | 0x2D => some (rowFlt fn0 flt false .w .v .v .none)
  | 0x2E => some (rowFlt fn0 flt false .w .v .none .none)
  | 0x2F => some (rowFlt fn0 flt false .w .v .none .none)
  | 0x30 => some (rowFlt (f.fn.toNat < 8) flt false (if f.ty.toNat < 10 then .wp else .w) .v .v .none)
  | 0x31 => some (rowFlt fn0 flt false .w .v .none .none)
  | 0x32 => some (rowFlt fn0 flt true .w .v .v .none)
  | 0x33 => some (rowFlt fn0 flt true .w .v .none .none)
  | 0x34 => some (rowFlt fn0 flt false .w .v .none .none)
  | 0x35 => some (rowFlt fn0 flt false .w .v .none .none)
  | 0x36 => some (rowFlt fn0 flt false .w .v .none .none)
  | 0x37 => some (rowFlt fn0 flt false .w .v .none .none)
  | 0x38 =>
    let fnOk := decide (8 ≤ f.fn.toNat) && decide (f.fn.toNat ≤ 11)
    let tyOk := flt && f.fn.toNat != f.ty.toNat
    let srcPacked := decide (10 ≤ f.fn.toNat)
    let dstPacked := decide (10 ≤ f.ty.toNat)
    some (rowFlt fnOk tyOk true .w .v (if dstPacked && !srcPacked then .v else .none) .none
      (if srcPacked == dstPacked then .source else .own (decide (imm < 4))))
  | 0x39 => some (rowFlt (f.fn == 8 || f.fn == 9) int true .w .v .none .none)
  | 0x3A => some (rowFlt (f.fn.toNat < 8) (f.ty == 8 || f.ty == 9) true .w .v .none .none)
  | 0x3B => some (rowFlt fn0 flt true .w .v .none .none)
  | 0x3C => some (rowFlt fn0 flt true .w .v .v .none)
  | 0x3D => some (rowFlt fn0 (f.ty == 10 || f.ty == 11) true .w .v .v .v)
  | 0x3E => some (rowFlt (f.fn.toNat < 3) flt false .w .v .v .none)
  | 0x48 => some (rowCtl fn0 ty0 .none .none .none .none (.own true))
  | 0x49 => some (rowCtl fn0 ty0 .none .r .none .none .unused)
  | 0x4A => some (rowCtl fn0 ty0 .none .none .none .none (.own true))
  | 0x4B => some (rowCtl fn0 ty0 .none .r .none .none .unused)
  | 0x4C => some (rowCtl fn0 ty0 .none .none .none .none .unused)
  | 0x4D => some (rowCtl fn0 ty0 .none .none .none .none .unused)
  | 0x4E => some (rowCtl (f.fn.toNat < 2) ty0 .none .none .none .none (.own (decide (imm / 8 ≤ 32))))
  | 0x4F => some (rowCtl fn0 ty0 .p .cv .sCtl .sCtl .source)
  | 0x50 => some (rowCtl fn0 ty0 .p .cv .sCtl .none .source)
  | 0x51 => some (rowCtl fn0 ty0 .w .cv .none .none .unused)
  | 0x52 => some (rowCtl fn0 ty0 .none .none .none .none .unused)
  | 0x53 => some (rowCtl fn0 ty0 .none .none .none .none .unused)
  | 0x54 => some (rowCtl fn0 ty0 .none .none .none .none .unused)
  | 0x58 => some { rowInt (f.fn.toNat < 4) ty0 .w .v .v .v false with cross := true }
  | 0x59 => some { rowInt fn0 ty0 .w (.win 24) .v .none false with cross := true }
  | 0x5A => some { rowInt fn0 ty0 .wU .vec .sLane .none with cross := true }
  | 0x5B => some { rowInt (f.fn.toNat < 3) ty0 .wpU .p .none .none with cross := true, imm := .unused }
  | 0x5C => some { rowInt fn0 ty0 .wU .p .none .none with cross := true, imm := .unused }
  | 0x5D => some { rowInt fn0 ty0 .wU .vec .sLane .p with cross := true }
  | 0x5E => some { rowInt (f.fn.toNat ≤ 8) redTy .wU .vec .none .none with cross := true }
  | 0x5F => some { rowInt (decide (f.fn.toNat ≤ 8) || (decide (16 ≤ f.fn.toNat) && decide (f.fn.toNat ≤ 24))) redTy
      .w .v .none .none false with cross := true }
  | 0x60 => some (rowMem fn0 (tyAny f.ty) false .w .none true)
  | 0x61 => some (rowMem fn0 (tyAny f.ty) false .none .v true)
  | 0x62 => some (rowMem fn0 (tyAny f.ty) false .w .none true)
  | 0x63 => some (rowMem fn0 (tyAny f.ty) false .none .v true)
  | 0x64 => some (rowMem fn0 (tyAny f.ty) false .w .none true)
  | 0x65 => some (rowMem fn0 (tyAny f.ty) false .none .v true)
  | 0x66 => some (rowMem fn0 ty0 false (.win 24) .none false)
  | 0x67 => some (rowMem fn0 (decide (4 ≤ f.ty.toNat) && decide (f.ty.toNat ≤ 9)) false .w .none false)
  | 0x68 => some (rowMem fn0 (decide (4 ≤ f.ty.toNat) && decide (f.ty.toNat ≤ 9)) false .none .v false)
  | 0x69 => some ⟨fn0, ty0, false, false, false, .w, .none, .none, .none, .own (decide (imm < 8)), true, false⟩
  | 0x6A => some ⟨fn0, ty0, false, false, false, .none, .none, .none, .none, .own (decide (imm < 8)), true, false⟩
  | 0x6B => some (rowMem fn0 ty0 false .none .none false)
  | 0x6C => some (rowMem fn0 ty0 false .w .none true)
  | 0x6D => some (rowMem fn0 ty0 false .none .none false)
  | 0x6E => some ⟨fn0, ty0, false, true, false, .none, .none, .none, .none, .unused, false, false⟩
  | 0x6F => some (rowMem fn0 (tyAny f.ty) false .none .v false (.own (decide (imm < 4096))))
  | 0x70 => some (rowMem fn0 int false (.win 31) .v false)
  | 0x71 => some ⟨fn0, ty0, false, false, false, .none, .tl, .sOrd, .none, .source, false, false⟩
  | 0x72 => some ⟨fn0, ty0, false, false, false, .w, .tl, .none, .none, .own (decide (imm < 3)), true, false⟩
  | 0x73 => some ⟨fn0, ty0, false, false, false, .none, .r, .rz, .win (31 - (imm / 8) % 8), .own (decide (imm < 64)), false,
      false⟩
  | 0x74 => some ⟨fn0, ty0, false, false, false, .win (31 - (imm / 8) % 8), .r, .rz, .none, .own (decide (imm < 64)), false,
      false⟩
  | 0x78 => some (rowMem (f.fn.toNat < 12) atomTy true .w .v true)
  | 0x79 => some (rowMem fn0 (decide (4 ≤ f.ty.toNat) && decide (f.ty.toNat ≤ 7)) true .r .v true)
  | 0x7A => some (rowMem (f.fn.toNat < 12) atomTy true .none .v true)
  | 0x7B => some (rowMem (f.fn.toNat < 12) atomTy false .w .v true)
  | 0x7C => some (rowMem fn0 (decide (4 ≤ f.ty.toNat) && decide (f.ty.toNat ≤ 7)) false .r .v true)
  | 0x7D => some ⟨fn0, ty0, false, false, false, .none, .r, .winz, .rz, .own true, false, false⟩
  | 0x7E => some ⟨fn0, ty0, false, false, false, .none, .r, .winz, .rz, .own true, false, false⟩
  | 0x7F => some ⟨fn0, ty0, false, false, false, .none, .none, .winz, .rz, .own true, false, false⟩
  | 0x80 => some ⟨fn0, ty0, false, false, false, .none, .r, .win 31, .none, .own (decide (imm < 2)), false, false⟩
  | 0x81 => some ⟨fn0, ty0, false, false, false, .none, .r, .none, .none, .own (decide (imm < 512)), true, false⟩
  | 0x82 => some { rowMem fn0 ty0 false .w .v true with xs := false }
  | 0x83 => some ⟨decide (f.fn.toNat < 3), ty0, false, false, false, .p, .r, .none, .none, .unused, true, false⟩
  | 0x88 => some ⟨fn0, ty0, false, false, false, .p, .push, .tlz, .none, .own (decide (imm < 3)), true, false⟩
  | 0x89 => some ⟨fn0, ty0, false, false, false, .none, .none, .none, .none, .unused, false, false⟩
  | 0x8A =>
    let low := decide (imm % 8 < 3)
    some ⟨fn0, ty0, false, false, false, .w, if low then .tl else .none, if low then .v else .none, .none,
      .own (decide (imm < 256) && decide (imm % 16 < 6)), true, false⟩
  | 0x90 => some ⟨decide (f.fn.toNat < 50), if fn0 then flt else ty0, false, false, false, .none, .sCtl, .none, .none, .source, true, false⟩
  | 0x91 => some ⟨fn0, ty0, false, false, false, .none, .none, .none, .none, .unused, true, false⟩
  | 0x92 => some ⟨decide (f.fn.toNat < 50), if fn0 then flt else ty0, false, false, false, .none, .cvz, .sCtl, .sCtl, .source, true, false⟩
  | 0x93 => some ⟨decide (f.fn.toNat < 50), if fn0 then flt else ty0, false, false, false, .sblk 61, .cvz, .sCtl, .sCtl, .source, true, false⟩
  | 0x94 => some ⟨fn0, ty0, false, false, false, .none, .sCtl, .none, .none, .source, true, false⟩
  | 0x95 => some ⟨fn0, ty0, false, false, false, .w, .none, .none, .none, .own (decide (imm < 3)), true, false⟩
  | 0x96 => some ⟨fn0, ty0, false, false, false, .w, .sblk 56, .none, .none, .unused, true, false⟩
  | 0xA0 => some ⟨fn0, ty0, false, false, false, .w, .r, .none, .none, .unused, true, false⟩
  | 0xA1 => some ⟨fn0, ty0, false, false, false, .w, .none, .none, .none, .unused, true, false⟩
  | 0xA2 => some ⟨fn0, ty0, false, false, false, .none, .v, .none, .none, .source, true, false⟩
  | 0xA3 => some ⟨fn0, ty0, false, false, false, .w, .none, .none, .none, .unused, true, false⟩
  | 0xA4 => some ⟨fn0, ty0, false, false, false, .w, .v, .none, .none, .own (decide (imm < 4)), true, false⟩
  | 0xB0 => some ⟨fn0, ty0, false, false, false, .none, .none, .none, .none, .own true, false, false⟩
  | 0xB1 => some ⟨fn0, ty0, false, false, false, .none, .none, .none, .none, .unused, false, false⟩
  | 0xB2 => some ⟨fn0, ty0, false, false, false, .w, .none, .none, .none, .own (decide (imm < 65536)), true, false⟩
  | 0xB3 => some ⟨fn0, ty0, false, false, false, .none, .v, .none, .none, .own (decide (imm < 65536)), true, false⟩
  | 0xB4 => some ⟨fn0, ty0, false, true, false, .none, .r, .none, .none, .own (decide (imm < 2)), true, false⟩
  | 0xB5 => some ⟨fn0, ty0, false, false, false, .none, .none, .none, .none, .own true, false, false⟩
  | 0xB6 => some ⟨fn0, ty0, false, false, false, .none, .v, .none, .none, .source, true, false⟩
  | 0xB7 => some ⟨fn0, ty0, false, false, false, .none, .none, .none, .none, .unused, false, false⟩
  | 0xB8 => some ⟨fn0, ty0, false, false, false, .none, .sCtl, .none, .none, .source, true, false⟩
  | 0xB9 => some ⟨fn0, ty0, false, false, false, .p, .sCtl, .none, .none, .source, true, false⟩
  | _ => none

/-- Does the position accept the specifier?  `u` is U of an instruction that permits it, `src` says that IMM is a
source value (R50, R54, R81, R168). -/
def Kind.accepts (k : Kind) (u src : Bool) (x : Spec) : Bool :=
  match k with
  | .none => true
  | .v =>
    match x with
    | .win _ | .sca _ | .grp _ | .tl _ | .zero | .wslot | .core => true
    | .lane | .pcv => !u
    | .imm | .immhi => src
    | _ => false
  | .vec =>
    match x with
    | .win _ | .sca _ | .grp _ | .tl _ | .zero | .wslot | .core => true
    | .lane | .pcv => !u
    | .imm | .immhi => src
    | _ => false
  | .w => match x with | .win _ | .sca _ | .grp _ | .zero => true | _ => false
  | .p => match x with | .pred _ => true | _ => false
  | .wp => match x with | .win _ | .sca _ | .grp _ | .zero | .pred _ => true | _ => false
  | .wU => match x with | .win _ => !u | .sca _ | .grp _ | .zero => true | _ => false
  | .wpU => match x with | .win _ => !u | .sca _ | .grp _ | .zero | .pred _ => true | _ => false
  | .r => match x with | .win _ | .sca _ => true | _ => false
  | .rz => match x with | .win _ | .sca _ | .zero => true | _ => false
  | .sCtl => match x with | .sca _ | .zero => true | .imm | .immhi => src | _ => false
  | .sOrd => match x with | .sca _ | .grp _ | .zero => true | .imm | .immhi => src | _ => false
  | .sLane =>
    match x with | .sca _ | .grp _ | .tl _ | .zero | .wslot | .core => true | .imm | .immhi => src | _ => false
  | .cv => match x with | .cv _ => true | _ => false
  | .cvz => match x with | .cv _ | .zero => true | _ => false
  | .tl => match x with | .tl _ => true | _ => false
  | .tlz => match x with | .tl _ | .zero => true | _ => false
  | .win m => match x with | .win k => decide (k.val ≤ m) | _ => false
  | .winz => match x with | .win _ | .zero => true | _ => false
  | .sblk m => match x with | .sca k => decide (k.val ≤ m) | _ => false
  | .push =>
    match x with
    | .win k => !u && decide (k.val ≤ 24)
    | .sca k => u && decide (k.val ≤ 56)
    | _ => false

/-- Is the position's field a legal specifier there?  With U = 1, in an instruction that permits U and is not of the
cross-lane class, a window register is not (R54). -/
def posOk (row : Row) (u : Bool) (k : Kind) (x : BitVec 8) : Bool :=
  match k with
  | .none => true
  | k =>
    match specOf x with
    | none => false
    | some s =>
      k.accepts u (row.imm == .source) s &&
        !(u && !row.cross && (match s with | .win _ => true | _ => false))

/-- Does the field name IMM or IMMHI? -/
def namesImm (k : Kind) (x : BitVec 8) : Bool := k != .none && (x == 0xFE#8 || x == 0xFF#8)

/-- The limits of IMM (R48, R83). -/
def immOk (row : Row) (f : Fields) : Bool :=
  match row.imm with
  | .unused => f.imm == 0
  | .source => namesImm row.a f.a || namesImm row.b f.b || namesImm row.c f.c || f.imm == 0
  | .own ok => ok

/-- The first of the sub-causes 0x02 to 0x06 of ILLEGAL that applies to a word's fields; none when the word is
legal (R63). -/
def illegalSub (f : Fields) : Option (BitVec 8) :=
  match rowOf f with
  | none => some 0x02#8
  | some r =>
    let u := f.u && r.u
    if !r.fn then some 0x03#8
    else if !(r.ty && (r.rm && decide (f.rm.toNat ≤ 5) || !r.rm && f.rm == 0)
        && (r.sc && decide (f.sc.toNat ≤ 6) || !r.sc && f.sc == 0) && (r.xs || f.xs == 0)) then some 0x04#8
    else if !(posOk r u r.d f.d && posOk r u r.a f.a && posOk r u r.b f.b && posOk r u r.c f.c) then some 0x05#8
    else if !((r.d != .none || f.d == 0) && (r.a != .none || f.a == 0) && (r.b != .none || f.b == 0)
        && (r.c != .none || f.c == 0) && immOk r f && (r.u || !f.u)) then some 0x06#8
    else none

/-! ### From fields to an instruction and back -/

/-- The head of a word. -/
def headOf (f : Fields) : Head :=
  ⟨f.s, f.u, ⟨f.g.getLsbD 3, ⟨f.g.toNat % 8, Nat.mod_lt _ (by decide)⟩⟩⟩

/-- G as four bits (R46). -/
def guardBits (g : Guard) : BitVec 4 := BitVec.ofNat 4 ((if g.neg then 8 else 0) + g.p.val)

/-- The number of a predicate position. -/
def predOf (x : BitVec 8) : Option (Fin 8) := match specOf x with | some (.pred k) => some k | _ => none
/-- The number of a window position. -/
def winOf (x : BitVec 8) : Option (Fin 32) := match specOf x with | some (.win k) => some k | _ => none
/-- The number of a scalar position. -/
def scaOf (x : BitVec 8) : Option (Fin 64) := match specOf x with | some (.sca k) => some k | _ => none
/-- The number of a convergence register position. -/
def cvOf (x : BitVec 8) : Option (Fin 16) := match specOf x with | some (.cv k) => some k | _ => none
/-- The number of a timeline position. -/
def tlOf (x : BitVec 8) : Option (Fin 16) := match specOf x with | some (.tl k) => some k | _ => none
/-- A convergence register or ZERO. -/
def cvzOf (x : BitVec 8) : Option (Option (Fin 16)) :=
  match specOf x with | some (.cv k) => some (some k) | some .zero => some none | _ => none
/-- A timeline counter or ZERO. -/
def tlzOf (x : BitVec 8) : Option (Option (Fin 16)) :=
  match specOf x with | some (.tl k) => some (some k) | some .zero => some none | _ => none

/-- A bit field of IMM as a bounded number. -/
def immFin (imm : BitVec 32) (lo n : Nat) (h : 0 < n) : Fin n := ⟨(imm.toNat / 2 ^ lo) % n, Nat.mod_lt _ h⟩

/-- An instruction with type and D, A. -/
def mk1 (f : Fields) (k : Head → Ty → Spec → Spec → BitVec 32 → Instr) : Option Instr :=
  match tyOf f.ty, specOf f.d, specOf f.a with
  | some t, some d, some a => some (k (headOf f) t d a f.imm)
  | _, _, _ => none
/-- An instruction with type and D, A, B. -/
def mk2 (f : Fields) (k : Head → Ty → Spec → Spec → Spec → BitVec 32 → Instr) : Option Instr :=
  match tyOf f.ty, specOf f.d, specOf f.a, specOf f.b with
  | some t, some d, some a, some b => some (k (headOf f) t d a b f.imm)
  | _, _, _, _ => none
/-- An instruction with type and D, A, B, C. -/
def mk3 (f : Fields) (k : Head → Ty → Spec → Spec → Spec → Spec → BitVec 32 → Instr) : Option Instr :=
  match tyOf f.ty, specOf f.d, specOf f.a, specOf f.b, specOf f.c with
  | some t, some d, some a, some b, some c => some (k (headOf f) t d a b c f.imm)
  | _, _, _, _, _ => none
/-- An instruction with type and D, A, B and a predicate in C. -/
def mk2p (f : Fields) (k : Head → Ty → Spec → Spec → Spec → Fin 8 → BitVec 32 → Instr) : Option Instr :=
  match tyOf f.ty, specOf f.d, specOf f.a, specOf f.b, predOf f.c with
  | some t, some d, some a, some b, some p => some (k (headOf f) t d a b p f.imm)
  | _, _, _, _, _ => none
/-- A floating-point instruction with D, A. -/
def mkf1 (f : Fields) (k : Head → Ty → Rm → Spec → Spec → BitVec 32 → Instr) : Option Instr :=
  match rmOf f.rm with
  | some r => mk1 f fun h t => k h t r
  | none => none
/-- A floating-point instruction with D, A, B. -/
def mkf2 (f : Fields) (k : Head → Ty → Rm → Spec → Spec → Spec → BitVec 32 → Instr) : Option Instr :=
  match rmOf f.rm with
  | some r => mk2 f fun h t => k h t r
  | none => none
/-- A floating-point instruction with D, A, B, C. -/
def mkf3 (f : Fields) (k : Head → Ty → Rm → Spec → Spec → Spec → Spec → BitVec 32 → Instr) : Option Instr :=
  match rmOf f.rm with
  | some r => mk3 f fun h t => k h t r
  | none => none
/-- XS as a number (R47). -/
def xsOf (f : Fields) : Fin 4 := f.xs.toFin
/-- A load: D and the memory operand. -/
def mkLd (f : Fields) (k : Head → Ty → Fin 4 → Spec → Spec → Spec → BitVec 32 → Instr) : Option Instr :=
  mk2 f fun h t => k h t (xsOf f)
/-- A store: the memory operand and C. -/
def mkSt (f : Fields) (k : Head → Ty → Fin 4 → Spec → Spec → Spec → BitVec 32 → Instr) : Option Instr :=
  match tyOf f.ty, specOf f.a, specOf f.b, specOf f.c with
  | some t, some a, some b, some c => some (k (headOf f) t (xsOf f) a b c f.imm)
  | _, _, _, _ => none
/-- The memory operand alone. -/
def mkM (f : Fields) (k : Head → Fin 4 → Spec → Spec → BitVec 32 → Instr) : Option Instr :=
  match specOf f.a, specOf f.b with
  | some a, some b => some (k (headOf f) (xsOf f) a b f.imm)
  | _, _ => none

/-- The instruction of legal fields (R59 and the encoding sections of the class chapters). -/
def build (f : Fields) : Option Instr :=
  let h := headOf f
  match f.op.toNat with
  | 0x00 => some (.nop h)
  | 0x01 => mk1 f .mov
  | 0x02 => mk2 f .add
  | 0x03 => mk2 f .sub
  | 0x04 => mk2p f .addc
  | 0x05 => mk2p f .subb
  | 0x06 => mk2 f .mul
  | 0x07 => mk2 f .mulh
  | 0x08 => mk3 f .mad
  | 0x09 => mk2 f .div
  | 0x0A => mk2 f .rem
  | 0x0B => mk2 f .min
  | 0x0C => mk2 f .max
  | 0x0D => mk1 f .abs
  | 0x0E => mk1 f .neg
  | 0x0F => mk2 f .and
  | 0x10 => mk2 f .or
  | 0x11 => mk2 f .xor
  | 0x12 => mk2 f .andn
  | 0x13 => mk1 f .not
  | 0x14 => mk2 f .shl
  | 0x15 => mk2 f .shr
  | 0x16 => mk2 f .sar
  | 0x17 => if f.fn = 0 then mk2 f .rotL else mk2 f .rotR
  | 0x18 => mk2 f .bfx
  | 0x19 => mk3 f .bfi
  | 0x1A => mk1 f .popc
  | 0x1B => mk1 f .clz
  | 0x1C => mk1 f .ctz
  | 0x1D => mk1 f .brev
  | 0x1E => match ccOf f.fn with | some cc => mk2 f fun h => .cmp h cc | none => none
  | 0x1F => mk2p f .sel
  | 0x20 => match specOf f.d with | some d => some (.lea h d f.imm) | none => none
  | 0x21 => mk2 f .ext
  | 0x22 => mk3 f .clamp
  | 0x23 => mk2 f .mulw
  | 0x24 => mk3 f fun h _ => .prmt h
  | 0x25 => mk2 f fun h _ => .hmix h
  | 0x26 =>
    match plogOf f.fn, predOf f.d, predOf f.a, predOf f.b with
    | some o, some d, some a, some b => some (.plog h o d a b)
    | _, _, _, _ => none
  | 0x27 =>
    if f.fn = 0 then (match specOf f.d with | some d => some (.pmovGet h d) | none => none)
    else (match specOf f.a with | some a => some (.pmovSet h a f.imm) | none => none)
  | 0x28 => mkf2 f .fadd
  | 0x29 => mkf2 f .fsub
  | 0x2A => mkf2 f .fmul
  | 0x2B => mkf3 f .ffma
  | 0x2C => mk2 f .fmin
  | 0x2D => mk2 f .fmax
  | 0x2E => mk1 f .fabs
  | 0x2F => mk1 f .fneg
  | 0x30 => match fccOf f.fn with | some cc => mk2 f fun h => .fcmp h cc | none => none
  | 0x31 => mk1 f .fclass
  | 0x32 => mkf2 f .fdiv
  | 0x33 => mkf1 f .fsqrt
  | 0x34 => mk1 f .frcp
  | 0x35 => mk1 f .frsq
  | 0x36 => mk1 f .fexp2
  | 0x37 => mk1 f .flog2
  | 0x38 =>
    match tyOf (f.fn.setWidth 4) with
    | some sty =>
      if f.ty.toNat ≥ 10 ∧ f.fn.toNat < 10 then mkf2 f fun h t r d a b i => .fcvt h sty t r d a b i
      else mkf1 f fun h t r d a i => .fcvt h sty t r d a .zero i
    | none => none
  | 0x39 => match tyOf (f.fn.setWidth 4) with | some sty => mkf1 f fun h t => .ftoi h sty t | none => none
  | 0x3A => match tyOf (f.fn.setWidth 4) with | some sty => mkf1 f fun h t => .itof h sty t | none => none
  | 0x3B => mkf1 f .frnd
  | 0x3C => mkf2 f .fscl
  | 0x3D => mkf3 f .fdot
  | 0x3E => match cpsOf f.fn with | some o => mk2 f fun h => .fcps h o | none => none
  | 0x48 => some (.bra h f.imm)
  | 0x49 => match specOf f.a with | some a => some (.brx h a) | none => none
  | 0x4A => some (.call h f.imm)
  | 0x4B => match specOf f.a with | some a => some (.callx h a) | none => none
  | 0x4C => some (.ret h)
  | 0x4D => some (.exit h)
  | 0x4E =>
    if f.fn = 0 then some (.barHold h (immFin f.imm 0 8 (by decide)) (f.imm.extractLsb' 3 6))
    else some (.barPass h (immFin f.imm 0 8 (by decide)) (f.imm.extractLsb' 3 6))
  | 0x4F =>
    match predOf f.d, cvOf f.a, specOf f.b, specOf f.c with
    | some p, some k, some m, some t => some (.cvarm h p k m t f.imm)
    | _, _, _, _ => none
  | 0x50 =>
    match predOf f.d, cvOf f.a, specOf f.b with
    | some p, some k, some t => some (.cvsign h p k t f.imm)
    | _, _, _ => none
  | 0x51 =>
    match specOf f.d, cvOf f.a with
    | some d, some k => some (.cvwait h d k)
    | _, _ => none
  | 0x52 => some (.yield h)
  | 0x53 => some (.wspill h)
  | 0x54 => some (.wfill h)
  | 0x58 => match shflOf f.fn with | some o => mk3 f fun h _ => .shfl h o | none => none
  | 0x59 =>
    match specOf f.d, winOf f.a, specOf f.b with
    | some d, some k, some b => some (.shfx h d k b f.imm)
    | _, _, _ => none
  | 0x5A => mk2 f fun h _ => .bcast h
  | 0x5B =>
    match voteOf f.fn, specOf f.d, predOf f.a with
    | some o, some d, some p => some (.vote h o d p)
    | _, _, _ => none
  | 0x5C => match specOf f.d, predOf f.a with | some d, some p => some (.ballot h d p) | _, _ => none
  | 0x5D => mk2p f fun h _ => .bpcnt h
  | 0x5E => match redOf f.fn.toNat with | some o => mk1 f fun h => .reduce h o | none => none
  | 0x5F =>
    match redOf (f.fn.toNat % 16) with
    | some o => if f.fn.toNat < 16 then mk1 f fun h => .scan h o else mk1 f fun h => .scanEx h o
    | none => none
  | 0x60 => mkLd f .ld
  | 0x61 => mkSt f .st
  | 0x62 => mkLd f .ldl
  | 0x63 => mkSt f .stp
  | 0x64 => mkLd f .lds
  | 0x65 => mkSt f .sts
  | 0x66 => match winOf f.d with | some k => mkM f fun h x => .ldln h x k | none => none
  | 0x67 => mkLd f .lda
  | 0x68 => mkSt f .sta
  | 0x69 => match specOf f.d with | some d => some (.cbget h d (immFin f.imm 0 8 (by decide))) | none => none
  | 0x6A => some (.cbfree h (immFin f.imm 0 8 (by decide)))
  | 0x6B => mkM f .migr
  | 0x6C => match specOf f.d with | some d => mkM f fun h x => .home h x d | none => none
  | 0x6D => mkM f .pfl
  | 0x6E => match scOf f.sc with | some sc => some (.fence h sc) | none => none
  | 0x6F => mkSt f fun h t x a b c i => .stf h t x a b c (i.setWidth 12)
  | 0x70 =>
    match winOf f.d with
    | some d => mkSt f fun h t x => .mwait h t x d
    | none => none
  | 0x71 => match tlOf f.a, specOf f.b with | some k, some b => some (.tlwait h k b f.imm) | _, _ => none
  | 0x72 => match specOf f.d, tlOf f.a with | some d, some k => some (.tlread h d k (immFin f.imm 0 3 (by decide))) | _, _ => none
  | 0x73 =>
    match specOf f.a, specOf f.b, winOf f.c with
    | some a, some b, some k => some (.tsto h (immFin f.imm 0 8 (by decide)) (immFin f.imm 3 8 (by decide)) a b k)
    | _, _, _ => none
  | 0x74 =>
    match winOf f.d, specOf f.a, specOf f.b with
    | some k, some a, some b => some (.tlod h (immFin f.imm 0 8 (by decide)) (immFin f.imm 3 8 (by decide)) k a b)
    | _, _, _ => none
  | 0x78 => match atomOf f.fn, scOf f.sc with | some o, some sc => mk3 f fun h t => .atom h o t sc (xsOf f) | _, _ => none
  | 0x79 => match scOf f.sc with | some sc => mk3 f fun h t => .cas h t sc (xsOf f) | none => none
  | 0x7A => match atomOf f.fn, scOf f.sc with | some o, some sc => mkSt f fun h t x => .red h o t sc x | _, _ => none
  | 0x7B => match atomOf f.fn with | some o => mk3 f fun h t => .atoms h o t (xsOf f) | none => none
  | 0x7C => mk3 f fun h t => .cass h t (xsOf f)
  | 0x7D =>
    match specOf f.a, specOf f.b, specOf f.c with
    | some a, some b, some c => some (.spawn h a b c f.imm)
    | _, _, _ => none
  | 0x7E =>
    match specOf f.a, specOf f.b, specOf f.c with
    | some a, some b, some c => some (.spawna h a b c f.imm)
    | _, _, _ => none
  | 0x7F => match specOf f.b, specOf f.c with | some b, some c => some (.spawnd h b c f.imm) | _, _ => none
  | 0x80 => match specOf f.a, winOf f.b with | some a, some k => some (.record h a k (f.imm.getLsbD 0)) | _, _ => none
  | 0x81 => match specOf f.a with | some a => some (.cflush h a (f.imm.getLsbD 8) (f.imm.setWidth 8)) | none => none
  | 0x82 => mk3 f fun h _ => .ccwait h
  | 0x83 =>
    match predOf f.d, specOf f.a with
    | some p, some a =>
      match f.fn.toNat with
      | 0 => some (.cancelLaunch h p a)
      | 1 => some (.cancelGraph h p a)
      | _ => some (.cancelJob h p a)
    | _, _ => none
  | 0x88 =>
    match predOf f.d, specOf f.a, tlzOf f.b, engineOf f.imm.toNat with
    | some p, some a, some k, some e => some (.push h p a k e)
    | _, _, _, _ => none
  | 0x89 => some (.rcfence h)
  | 0x8A =>
    let sel := immFin f.imm 0 16 (by decide)
    let peer := immFin f.imm 4 16 (by decide)
    if hs : sel.val < 6 then
      if sel.val < 3 then
        match specOf f.d, tlOf f.a, specOf f.b with
        | some d, some k, some b => some (.engq h d k b ⟨sel.val, hs⟩ peer)
        | _, _, _ => none
      else
        match specOf f.d with
        | some d => some (.engq h d 0 .zero ⟨sel.val, hs⟩ peer)
        | none => none
    else none
  | 0x90 => match modeOf f.fn f.ty, specOf f.a with | some m, some a => some (.mls h m a f.imm) | _, _ => none
  | 0x91 => some (.mswap h)
  | 0x92 =>
    match modeOf f.fn f.ty, cvzOf f.a, specOf f.b, specOf f.c with
    | some m, some cv, some b, some c => some (.mma h m cv b c f.imm)
    | _, _, _, _ => none
  | 0x93 =>
    match modeOf f.fn f.ty, scaOf f.d, cvzOf f.a, specOf f.b, specOf f.c with
    | some m, some k, some cv, some b, some c => some (.mmas h m k cv b c f.imm)
    | _, _, _, _, _ => none
  | 0x94 => match specOf f.a with | some a => some (.mza h a f.imm) | none => none
  | 0x95 => match specOf f.d with | some d => some (.mstat h d (immFin f.imm 0 3 (by decide))) | none => none
  | 0x96 => match specOf f.d, scaOf f.a with | some d, some k => some (.mcond h d k) | _, _ => none
  | 0xA0 => match specOf f.d, specOf f.a with | some d, some a => some (.launch h d a) | _, _ => none
  | 0xA1 => match specOf f.d with | some d => some (.time h d) | none => none
  | 0xA2 => match specOf f.a with | some a => some (.sleep h a f.imm) | none => none
  | 0xA3 => match specOf f.d with | some d => some (.budget h d) | none => none
  | 0xA4 =>
    match specOf f.d, specOf f.a with
    | some d, some a => some (.lstat h d a (immFin f.imm 0 4 (by decide)))
    | _, _ => none
  | 0xB0 => some (.trap h f.imm)
  | 0xB1 => some (.rett h)
  | 0xB2 => match specOf f.d with | some d => some (.krd h d (f.imm.setWidth 16)) | none => none
  | 0xB3 => match specOf f.a with | some a => some (.kwr h a (f.imm.setWidth 16)) | none => none
  | 0xB4 => match scOf f.sc, specOf f.a with | some sc, some a => some (.tlbinv h sc a (f.imm.getLsbD 0)) | _, _ => none
  | 0xB5 => some (.brk h f.imm)
  | 0xB6 => match specOf f.a with | some a => some (.trace h a f.imm) | none => none
  | 0xB7 => some (.halt h)
  | 0xB8 => match specOf f.a with | some a => some (.ctxsave h a f.imm) | none => none
  | 0xB9 => match predOf f.d, specOf f.a with | some p, some a => some (.ctxrest h p a f.imm) | _, _ => none
  | _ => none

/-- What the decoder answers: an instruction, or the sub-cause of ILLEGAL (R62 checks 4 to 6, R63). -/
inductive Decoded where
  | instr (i : Instr)
  | illegal (sub : BitVec 8)
  deriving DecidableEq, Repr

/-- The decoder, total on every word: the all-ones word is BRK (R65), the all-zero word is NOP with guard p0 (R64). -/
def decode (w : InstrWord) : Decoded :=
  if w = BitVec.allOnes 96 then .instr (.brk ⟨true, false, ⟨false, 7⟩⟩ 0xFFFFFFFF#32)
  else
    match illegalSub (unpack w) with
    | some sub => .illegal sub
    | none =>
      match build (unpack w) with
      | some i => .instr i
      | none => .illegal 0x05#8

/-- Fields with everything zero but the head and OP. -/
def fieldsBase (h : Head) (op : Nat) : Fields :=
  { s := h.s, u := h.u, g := guardBits h.g, op := BitVec.ofNat 8 op, fn := 0, d := 0, a := 0, b := 0, c := 0, ty := 0,
    rm := 0, sc := 0, xs := 0, imm := 0 }

/-- A specifier of D, A. -/
def fields1 (h : Head) (op : Nat) (ty : Ty) (d a : Spec) (imm : BitVec 32) : Fields :=
  { fieldsBase h op with ty := BitVec.ofNat 4 (tyCode ty), d := specBits d, a := specBits a, imm := imm }
/-- Specifiers of D, A, B. -/
def fields2 (h : Head) (op : Nat) (ty : Ty) (d a b : Spec) (imm : BitVec 32) : Fields :=
  { fields1 h op ty d a imm with b := specBits b }
/-- Specifiers of D, A, B, C. -/
def fields3 (h : Head) (op : Nat) (ty : Ty) (d a b c : Spec) (imm : BitVec 32) : Fields :=
  { fields2 h op ty d a b imm with c := specBits c }
/-- Add a rounding field. -/
def Fields.withRm (f : Fields) (r : Rm) : Fields := { f with rm := BitVec.ofNat 3 (rmCode r) }
/-- Set FN. -/
def Fields.withFn (f : Fields) (n : Nat) : Fields := { f with fn := BitVec.ofNat 6 n }
/-- Set XS. -/
def Fields.withXs (f : Fields) (x : Fin 4) : Fields := { f with xs := BitVec.ofNat 2 x.val }
/-- Set SC. -/
def Fields.withSc (f : Fields) (x : Sc) : Fields := { f with sc := BitVec.ofNat 3 (scCode x) }
/-- The fields of a memory operand with a type. -/
def fieldsM (h : Head) (op : Nat) (ty : Ty) (xs : Fin 4) (a b : Spec) (imm : BitVec 32) : Fields :=
  { fieldsBase h op with
    ty := BitVec.ofNat 4 (tyCode ty), a := specBits a, b := specBits b, imm := imm, xs := BitVec.ofNat 2 xs.val }
/-- The field of a predicate. -/
def predBits (p : Fin 8) : BitVec 8 := specBits (.pred p)
/-- The field of a convergence register or ZERO. -/
def cvzBits : Option (Fin 16) → BitVec 8
  | some k => specBits (.cv k)
  | none => specBits .zero
/-- The field of a timeline counter or ZERO. -/
def tlzBits : Option (Fin 16) → BitVec 8
  | some k => specBits (.tl k)
  | none => specBits .zero

/-- The fields of an instruction word; none for an event, which no word encodes. -/
def fieldsOf : Instr → Option Fields
  | .nop h => some (fieldsBase h 0x00)
  | .mov h ty d a i => some (fields1 h 0x01 ty d a i)
  | .add h ty d a b i => some (fields2 h 0x02 ty d a b i)
  | .sub h ty d a b i => some (fields2 h 0x03 ty d a b i)
  | .addc h ty d a b p i => some { fields2 h 0x04 ty d a b i with c := predBits p }
  | .subb h ty d a b p i => some { fields2 h 0x05 ty d a b i with c := predBits p }
  | .mul h ty d a b i => some (fields2 h 0x06 ty d a b i)
  | .mulh h ty d a b i => some (fields2 h 0x07 ty d a b i)
  | .mad h ty d a b c i => some (fields3 h 0x08 ty d a b c i)
  | .div h ty d a b i => some (fields2 h 0x09 ty d a b i)
  | .rem h ty d a b i => some (fields2 h 0x0A ty d a b i)
  | .min h ty d a b i => some (fields2 h 0x0B ty d a b i)
  | .max h ty d a b i => some (fields2 h 0x0C ty d a b i)
  | .abs h ty d a i => some (fields1 h 0x0D ty d a i)
  | .neg h ty d a i => some (fields1 h 0x0E ty d a i)
  | .and h ty d a b i => some (fields2 h 0x0F ty d a b i)
  | .or h ty d a b i => some (fields2 h 0x10 ty d a b i)
  | .xor h ty d a b i => some (fields2 h 0x11 ty d a b i)
  | .andn h ty d a b i => some (fields2 h 0x12 ty d a b i)
  | .not h ty d a i => some (fields1 h 0x13 ty d a i)
  | .shl h ty d a b i => some (fields2 h 0x14 ty d a b i)
  | .shr h ty d a b i => some (fields2 h 0x15 ty d a b i)
  | .sar h ty d a b i => some (fields2 h 0x16 ty d a b i)
  | .rotL h ty d a b i => some (fields2 h 0x17 ty d a b i)
  | .rotR h ty d a b i => some ((fields2 h 0x17 ty d a b i).withFn 1)
  | .bfx h ty d a b i => some (fields2 h 0x18 ty d a b i)
  | .bfi h ty d a b c i => some (fields3 h 0x19 ty d a b c i)
  | .popc h ty d a i => some (fields1 h 0x1A ty d a i)
  | .clz h ty d a i => some (fields1 h 0x1B ty d a i)
  | .ctz h ty d a i => some (fields1 h 0x1C ty d a i)
  | .brev h ty d a i => some (fields1 h 0x1D ty d a i)
  | .cmp h cc ty d a b i => some ((fields2 h 0x1E ty d a b i).withFn (ccCode cc))
  | .sel h ty d a b p i => some { fields2 h 0x1F ty d a b i with c := predBits p }
  | .lea h d i => some { fieldsBase h 0x20 with d := specBits d, imm := i }
  | .ext h ty d a b i => some (fields2 h 0x21 ty d a b i)
  | .clamp h ty d a b c i => some (fields3 h 0x22 ty d a b c i)
  | .mulw h ty d a b i => some (fields2 h 0x23 ty d a b i)
  | .prmt h d a b c i => some (fields3 h 0x24 .i8 d a b c i)
  | .hmix h d a b i => some (fields2 h 0x25 .n32 d a b i)
  | .plog h o d a b =>
    some { (fieldsBase h 0x26).withFn (plogCode o) with d := predBits d, a := predBits a, b := predBits b }
  | .pmovGet h d => some { fieldsBase h 0x27 with d := specBits d }
  | .pmovSet h a i => some { (fieldsBase h 0x27).withFn 1 with a := specBits a, imm := i }
  | .fadd h ty r d a b i => some ((fields2 h 0x28 ty d a b i).withRm r)
  | .fsub h ty r d a b i => some ((fields2 h 0x29 ty d a b i).withRm r)
  | .fmul h ty r d a b i => some ((fields2 h 0x2A ty d a b i).withRm r)
  | .ffma h ty r d a b c i => some ((fields3 h 0x2B ty d a b c i).withRm r)
  | .fmin h ty d a b i => some (fields2 h 0x2C ty d a b i)
  | .fmax h ty d a b i => some (fields2 h 0x2D ty d a b i)
  | .fabs h ty d a i => some (fields1 h 0x2E ty d a i)
  | .fneg h ty d a i => some (fields1 h 0x2F ty d a i)
  | .fcmp h cc ty d a b i => some ((fields2 h 0x30 ty d a b i).withFn (fccCode cc))
  | .fclass h ty d a i => some (fields1 h 0x31 ty d a i)
  | .fdiv h ty r d a b i => some ((fields2 h 0x32 ty d a b i).withRm r)
  | .fsqrt h ty r d a i => some ((fields1 h 0x33 ty d a i).withRm r)
  | .frcp h ty d a i => some (fields1 h 0x34 ty d a i)
  | .frsq h ty d a i => some (fields1 h 0x35 ty d a i)
  | .fexp2 h ty d a i => some (fields1 h 0x36 ty d a i)
  | .flog2 h ty d a i => some (fields1 h 0x37 ty d a i)
  | .fcvt h sty ty r d a b i =>
    let f := ((fields1 h 0x38 ty d a i).withRm r).withFn (tyCode sty)
    some (if tyCode ty ≥ 10 ∧ tyCode sty < 10 then { f with b := specBits b } else f)
  | .ftoi h sty ty r d a i => some (((fields1 h 0x39 ty d a i).withRm r).withFn (tyCode sty))
  | .itof h sty ty r d a i => some (((fields1 h 0x3A ty d a i).withRm r).withFn (tyCode sty))
  | .frnd h ty r d a i => some ((fields1 h 0x3B ty d a i).withRm r)
  | .fscl h ty r d a b i => some ((fields2 h 0x3C ty d a b i).withRm r)
  | .fdot h ty r d a b c i => some ((fields3 h 0x3D ty d a b c i).withRm r)
  | .fcps h o ty d a b i => some ((fields2 h 0x3E ty d a b i).withFn (cpsCode o))
  | .bra h i => some { fieldsBase h 0x48 with imm := i }
  | .brx h a => some { fieldsBase h 0x49 with a := specBits a }
  | .call h i => some { fieldsBase h 0x4A with imm := i }
  | .callx h a => some { fieldsBase h 0x4B with a := specBits a }
  | .ret h => some (fieldsBase h 0x4C)
  | .exit h => some (fieldsBase h 0x4D)
  | .barHold h b c => some { fieldsBase h 0x4E with imm := BitVec.ofNat 32 (c.toNat * 8 + b.val) }
  | .barPass h b c => some { (fieldsBase h 0x4E).withFn 1 with imm := BitVec.ofNat 32 (c.toNat * 8 + b.val) }
  | .cvarm h p k m t i =>
    some { fieldsBase h 0x4F with d := predBits p, a := specBits (.cv k), b := specBits m, c := specBits t, imm := i }
  | .cvsign h p k t i =>
    some { fieldsBase h 0x50 with d := predBits p, a := specBits (.cv k), b := specBits t, imm := i }
  | .cvwait h d k => some { fieldsBase h 0x51 with d := specBits d, a := specBits (.cv k) }
  | .yield h => some (fieldsBase h 0x52)
  | .wspill h => some (fieldsBase h 0x53)
  | .wfill h => some (fieldsBase h 0x54)
  | .shfl h o d a b c i => some ((fields3 h 0x58 .i8 d a b c i).withFn (shflCode o))
  | .shfx h d k b i =>
    some { fieldsBase h 0x59 with d := specBits d, a := specBits (.win k), b := specBits b, imm := i }
  | .bcast h d a b i => some (fields2 h 0x5A .i8 d a b i)
  | .vote h o d p => some { (fieldsBase h 0x5B).withFn (voteCode o) with d := specBits d, a := predBits p }
  | .ballot h d p => some { fieldsBase h 0x5C with d := specBits d, a := predBits p }
  | .bpcnt h d a b p i => some { fields2 h 0x5D .i8 d a b i with c := predBits p }
  | .reduce h o ty d a i => some ((fields1 h 0x5E ty d a i).withFn (redCode o))
  | .scan h o ty d a i => some ((fields1 h 0x5F ty d a i).withFn (redCode o))
  | .scanEx h o ty d a i => some ((fields1 h 0x5F ty d a i).withFn (redCode o + 16))
  | .ld h ty x d a b i => some { fieldsM h 0x60 ty x a b i with d := specBits d }
  | .st h ty x a b c i => some { fieldsM h 0x61 ty x a b i with c := specBits c }
  | .ldl h ty x d a b i => some { fieldsM h 0x62 ty x a b i with d := specBits d }
  | .stp h ty x a b c i => some { fieldsM h 0x63 ty x a b i with c := specBits c }
  | .lds h ty x d a b i => some { fieldsM h 0x64 ty x a b i with d := specBits d }
  | .sts h ty x a b c i => some { fieldsM h 0x65 ty x a b i with c := specBits c }
  | .ldln h x k a b i => some { fieldsM h 0x66 .i8 x a b i with d := specBits (.win k) }
  | .lda h ty x d a b i => some { fieldsM h 0x67 ty x a b i with d := specBits d }
  | .sta h ty x a b c i => some { fieldsM h 0x68 ty x a b i with c := specBits c }
  | .cbget h d n => some { fieldsBase h 0x69 with d := specBits d, imm := BitVec.ofNat 32 n.val }
  | .cbfree h n => some { fieldsBase h 0x6A with imm := BitVec.ofNat 32 n.val }
  | .migr h x a b i => some (fieldsM h 0x6B .i8 x a b i)
  | .home h x d a b i => some { fieldsM h 0x6C .i8 x a b i with d := specBits d }
  | .pfl h x a b i => some (fieldsM h 0x6D .i8 x a b i)
  | .tsto h hd n a b k =>
    some { fieldsM h 0x73 .i8 0 a b (BitVec.ofNat 32 (n.val * 8 + hd.val)) with c := specBits (.win k) }
  | .tlod h hd n k a b =>
    some { fieldsM h 0x74 .i8 0 a b (BitVec.ofNat 32 (n.val * 8 + hd.val)) with d := specBits (.win k) }
  | .fence h sc => some ((fieldsBase h 0x6E).withSc sc)
  | .stf h ty x a b c t => some { fieldsM h 0x6F ty x a b (t.setWidth 32) with c := specBits c }
  | .mwait h ty x d a b c i => some { fieldsM h 0x70 ty x a b i with d := specBits (.win d), c := specBits c }
  | .tlwait h k b i => some { fieldsBase h 0x71 with a := specBits (.tl k), b := specBits b, imm := i }
  | .tlread h d k s =>
    some { fieldsBase h 0x72 with d := specBits d, a := specBits (.tl k), imm := BitVec.ofNat 32 s.val }
  | .atom h o ty sc x d a b c i =>
    some (({ fieldsM h 0x78 ty x a b i with d := specBits d, c := specBits c }).withFn (atomCode o) |>.withSc sc)
  | .cas h ty sc x d a b c i =>
    some (({ fieldsM h 0x79 ty x a b i with d := specBits d, c := specBits c }).withSc sc)
  | .red h o ty sc x a b c i =>
    some (({ fieldsM h 0x7A ty x a b i with c := specBits c }).withFn (atomCode o) |>.withSc sc)
  | .atoms h o ty x d a b c i =>
    some (({ fieldsM h 0x7B ty x a b i with d := specBits d, c := specBits c }).withFn (atomCode o))
  | .cass h ty x d a b c i => some { fieldsM h 0x7C ty x a b i with d := specBits d, c := specBits c }
  | .spawn h a b c i =>
    some { fieldsBase h 0x7D with a := specBits a, b := specBits b, c := specBits c, imm := i }
  | .spawna h a b c i =>
    some { fieldsBase h 0x7E with a := specBits a, b := specBits b, c := specBits c, imm := i }
  | .spawnd h b c i => some { fieldsBase h 0x7F with b := specBits b, c := specBits c, imm := i }
  | .record h a k f =>
    some { fieldsBase h 0x80 with a := specBits a, b := specBits (.win k), imm := if f then 1 else 0 }
  | .cflush h a m t =>
    some { fieldsBase h 0x81 with a := specBits a, imm := BitVec.ofNat 32 ((if m then 256 else 0) + t.toNat) }
  | .ccwait h d a b c i => some { fieldsM h 0x82 .i8 0 a b i with d := specBits d, c := specBits c }
  | .cancelLaunch h p a => some { fieldsBase h 0x83 with d := predBits p, a := specBits a }
  | .cancelGraph h p a => some { (fieldsBase h 0x83).withFn 1 with d := predBits p, a := specBits a }
  | .cancelJob h p a => some { (fieldsBase h 0x83).withFn 2 with d := predBits p, a := specBits a }
  | .push h p a k e =>
    some { fieldsBase h 0x88 with
      d := predBits p, a := specBits a, b := tlzBits k, imm := BitVec.ofNat 32 (engineCode e) }
  | .rcfence h => some (fieldsBase h 0x89)
  | .engq h d k b s p =>
    let f := { fieldsBase h 0x8A with d := specBits d, imm := BitVec.ofNat 32 (p.val * 16 + s.val) }
    some (if s.val < 3 then { f with a := specBits (.tl k), b := specBits b } else f)
  | .mls h m a i => some { fieldsBase h 0x90 with fn := modeFn m, ty := modeTy m, a := specBits a, imm := i }
  | .mswap h => some (fieldsBase h 0x91)
  | .mma h m cv b c i =>
    some { fieldsBase h 0x92 with
      fn := modeFn m, ty := modeTy m, a := cvzBits cv, b := specBits b, c := specBits c, imm := i }
  | .mmas h m k cv b c i =>
    some { fieldsBase h 0x93 with
      fn := modeFn m, ty := modeTy m, d := specBits (.sca k), a := cvzBits cv, b := specBits b, c := specBits c, imm := i }
  | .mza h a i => some { fieldsBase h 0x94 with a := specBits a, imm := i }
  | .mstat h d s => some { fieldsBase h 0x95 with d := specBits d, imm := BitVec.ofNat 32 s.val }
  | .mcond h d k => some { fieldsBase h 0x96 with d := specBits d, a := specBits (.sca k) }
  | .launch h d a => some { fieldsBase h 0xA0 with d := specBits d, a := specBits a }
  | .time h d => some { fieldsBase h 0xA1 with d := specBits d }
  | .sleep h a i => some { fieldsBase h 0xA2 with a := specBits a, imm := i }
  | .budget h d => some { fieldsBase h 0xA3 with d := specBits d }
  | .lstat h d a s => some { fieldsBase h 0xA4 with d := specBits d, a := specBits a, imm := BitVec.ofNat 32 s.val }
  | .trap h c => some { fieldsBase h 0xB0 with imm := c }
  | .rett h => some (fieldsBase h 0xB1)
  | .krd h d r => some { fieldsBase h 0xB2 with d := specBits d, imm := r.setWidth 32 }
  | .kwr h a r => some { fieldsBase h 0xB3 with a := specBits a, imm := r.setWidth 32 }
  | .tlbinv h sc a w => some { (fieldsBase h 0xB4).withSc sc with a := specBits a, imm := if w then 1 else 0 }
  | .brk h c => some { fieldsBase h 0xB5 with imm := c }
  | .trace h a i => some { fieldsBase h 0xB6 with a := specBits a, imm := i }
  | .halt h => some (fieldsBase h 0xB7)
  | .ctxsave h a i => some { fieldsBase h 0xB8 with a := specBits a, imm := i }
  | .ctxrest h p a i => some { fieldsBase h 0xB9 with d := predBits p, a := specBits a, imm := i }
  | _ => none

/-- The word of an instruction (R46); none for an event. -/
def encode (i : Instr) : Option InstrWord := (fieldsOf i).map pack

/-- Is the step one that an instruction word encodes? -/
def Instr.isWord (i : Instr) : Bool := (fieldsOf i).isSome

/-- The instruction that the decoder reads from the first 96 bits `w` of an instruction (bits above `nbits` are zero);
a window of the word whose bits do not fit is no instruction word. -/
def decodeTableWord (nbits w : Nat) : Option Instr :=
  match decode (BitVec.ofNat 96 (w % 2 ^ nbits)) with
  | .instr i => some i
  | .illegal _ => none

end Sys2Proof
end

