-- ==== Sys2Proof/Machine/Issue.lean ====
section
/-! DEFINITION. How a partition issues: the choice of the warp, the gang, the fetch of the line and the checks of the
word, the waits before issue and the charge (spec/02_words R44, R45, R52, R55, R56, R62, R66; spec/05_control R134, R135;
spec/06_lanes R165; spec/07_memory R183; spec/14_launch R393, R398; spec/15_splice R423). -/

namespace Sys2Proof

/-! ### Operands as the word names them -/

/-- The fields of a position with its kind. -/
def positions (f : Fields) : List (Kind × BitVec 8) :=
  match rowOf f with
  | some r => [(r.d, f.d), (r.a, f.a), (r.b, f.b), (r.c, f.c)]
  | none => []

/-- The specifiers that an instruction names. -/
def Instr.specs (i : Instr) : List Spec :=
  match fieldsOf i with
  | some f => (positions f).filterMap (fun p => if p.1 = .none then none else specOf p.2)
  | none => []

/-- The head of an instruction word. -/
def Instr.head (i : Instr) : Head :=
  match fieldsOf i with
  | some f => headOf f
  | none => ⟨false, false, ⟨false, 7⟩⟩

/-- The highest window register that an instruction names, blocks with all their registers (R52, R206). -/
def Instr.windowTop (i : Instr) : Option Nat :=
  let named := i.specs.filterMap (fun x => match x with | .win k => some k.val | _ => none)
  let block : List Nat := match i with
    | .shfx _ _ k _ _ => [k.val + 7]
    | .ldln _ _ k _ _ _ => [k.val + 7]
    | .tsto _ _ n _ _ k => [k.val + n.val]
    | .tlod _ _ n k _ _ => [k.val + n.val]
    | .push _ _ (.win k) _ _ => [k.val + 7]
    | .call .. | .callx .. => [31]
    | _ => []
  (named ++ block).foldl (fun m k => match m with | none => some k | some x => some (Nat.max x k)) none

/-- The scalar registers that an instruction names, blocks with all their registers. -/
def Instr.scalars (i : Instr) : List Nat :=
  let named := i.specs.filterMap (fun x => match x with | .sca k => some k.val | _ => none)
  let block (k n : Nat) : List Nat := (List.range n).map (k + ·)
  named ++ (match i with
    | .push _ _ (.sca k) _ _ => block k.val 8
    | .mmas _ _ k _ _ _ _ => block k.val 3
    | .mcond _ _ k => block k.val 8
    | _ => [])

/-- The specifiers that an instruction names as destinations: D, where it is one (in CAS and CASS too, R279), and the
predicate that ADDC, SUBB and BPCNT write through C (R86, R176). -/
def Instr.destSpecs (i : Instr) : List Spec :=
  match fieldsOf i with
  | none => []
  | some f =>
    match rowOf f with
    | none => []
    | some r =>
      let d := if r.d = .w ∨ r.d = .p ∨ r.d = .wp ∨ r.d = .wU ∨ r.d = .wpU then (specOf f.d).toList else []
      match i with
      | .cas .. | .cass .. => (specOf f.d).toList
      | .addc .. | .subb .. | .bpcnt .. => d ++ (specOf f.c).toList
      | _ => d

/-- Is a type F64? -/
def Ty.isF64 (ty : Ty) : Bool := decide (ty = .f64)

end Sys2Proof

namespace Sys2Proof.Machine

/-- The checks of R63 on a roaming thread with a frame of F registers (R52). -/
def roamingFault (i : Instr) (frame : Nat) : Option (BitVec 8) :=
  if (match i.windowTop with | some k => decide (frame ≤ k) | none => false) then some 0x07
  else if i.specs.any (fun x => match x with | .grp _ | .tl _ => true | _ => false) then some 0x08
  else none

/-- Numbers that a handler of a fused launch's consumer cannot reach (R423). -/
def handlerFault (i : Instr) (o : Offs) : Bool :=
  let pred (k : Nat) : Bool := k ≠ 7 && decide (6 < k + o.p)
  let buf (n : Nat) : Bool := decide (7 < n + o.c)
  i.scalars.any (fun k => k ≠ 63 && decide (62 < k + o.s)) || pred i.head.g.p.val ||
  i.specs.any (fun x => match x with
    | .pred k => pred k.val
    | .grp k => decide (15 < k.val + o.g)
    | .tl k => decide (15 < k.val + o.t)
    | _ => false) ||
  (match i with
    | .barHold _ b _ | .barPass _ b _ => decide (7 < b.val + o.b)
    | .cbget _ _ n | .cbfree _ n => buf n.val
    | .krd _ _ r | .kwr _ _ r =>
      let n := r.toNat
      (decide (0x20 ≤ n) && decide (n ≤ 0x27) && buf (n - 0x20)) || (decide (0x28 ≤ n) && decide (n ≤ 0x2F) && buf (n - 0x28))
    | _ => false)

/-! ### Issue rates (R7, R84, R117, R154, R170, R208, R237, R268, R302, R337, R368, R402) -/

/-- The largest number of scratchpad words that fall in one bank (R193). -/
def bankLoad (words : List Nat) : Nat :=
  words.foldl (fun m x => Nat.max m ((words.filter (fun y => y % 192 = x % 192)).length)) 1

/-- Scratchpad words that the lanes of an issue address. -/
def State.scratchWords (s : State) (h : Head) (a b : Spec) (xs : Fin 4) (imm : BitVec 32) : List Nat :=
  (execFor h (s.active h)).map (fun L => (s.ea L a b xs imm).toNat / 8)

/-- The issue rate of an instruction in cycles. -/
def State.issueRate (s : State) (i : Instr) : Nat :=
  match i with
  | .mul _ ty .. | .mulh _ ty .. | .mad _ ty .. => if ty.width = 64 then 2 else 1
  | .div _ ty .. | .rem _ ty .. => if ty.width = 64 then 16 else 8
  | .frcp _ ty .. | .frsq _ ty .. | .fexp2 _ ty .. | .flog2 _ ty .. => if ty.isF64 then 4 else 2
  | .fdiv _ ty .. | .fsqrt _ ty .. => if ty.isF64 then 16 else 8
  | .shfx .. => 2
  | .reduce _ _ ty .. | .scan _ _ ty .. | .scanEx _ _ ty .. =>
    (match ty with | .f64 => 4 | .f32 => 2 | _ => 1)
  | .wspill .. | .wfill .. => 12
  | .tsto _ _ n .. | .tlod _ _ n .. => n.val + 1
  | .ldln .. => 2
  | .lds h _ xs _ a b imm | .sts h _ xs a b _ imm => bankLoad (s.scratchWords h a b xs imm).eraseDups
  | .atoms h _ _ xs _ a b _ imm | .cass h _ xs _ a b _ imm => 2 * bankLoad (s.scratchWords h a b xs imm)
  | .push h _ (.win _) _ _ => Nat.max 1 (((s.active h).length + 3) / 4)
  | _ => 1

/-! ### Pages touched -/

/-- The virtual addresses whose pages an instruction needs translated before it issues. -/
def State.touches (s : State) (i : Instr) : List Word :=
  let run (h : Head) (f : Nat → Word) : List Word := (execFor h (s.active h)).map f
  match i with
  | .ld h _ xs _ a b imm | .st h _ xs a b _ imm | .ldl h _ xs _ a b imm | .stp h _ xs a b _ imm =>
    run h (fun L => s.ea L a b xs imm)
  | .ldln h xs _ a b imm | .migr h xs a b imm | .home h xs _ a b imm | .pfl h xs a b imm =>
    run h (fun L => s.ea L a b xs imm)
  | .atom h _ _ _ xs _ a b _ imm | .cas h _ _ xs _ a b _ imm | .red h _ _ _ xs a b _ imm =>
    run h (fun L => s.heldEa L a b xs imm)
  | .mwait h _ xs _ a b _ imm => run h (fun L => s.ea L a b xs imm)
  | .stf h _ xs a b _ _ => run h (fun L => s.ea L a b xs 0)
  | .ccwait h _ a b _ imm => run h (fun L => s.ea L a b 0 imm)
  | .tsto h _ _ a b _ | .tlod h _ _ _ a b => run h (fun L => s.tileEa L a b)
  | .record h a _ _ | .cflush h a _ _ | .launch h _ a | .spawn h a _ _ _ | .spawna h a _ _ _ =>
    run h (fun L => s.opnd L a 0)
  | .wspill h => run h (fun L => (s.cl L).wsp - 192)
  | .wfill h => run h (fun L => (s.cl L).wsp)
  | .bra h imm | .call h imm => if s.active h = [] then [] else [relTarget s.cur.pc imm]
  | .brx h a | .callx h a => run h (fun L => s.opnd L a 0)
  | .ret h => run h (fun L => (s.cl L).win 7)
  | .rett h => run h (fun L => BitVec.ofNat 64 (s.frameVa s.cur.wid (s.cl L).fslot.toNat))
  | .ctxsave h a imm | .ctxrest h _ a imm => run h (fun L => s.opnd L a imm + 0x1000)
  | _ => []

/-- The targets whose lines a transfer reads to check them (R44, R155). -/
def State.targets (s : State) (i : Instr) : List Word :=
  match i with
  | .bra .. | .call .. | .brx .. | .callx .. | .ret .. => (s.touches i).eraseDups
  | _ => []

/-- The pages of addresses, once each. -/
def pagesOf (vs : List Word) : List Nat := (vs.map (fun v => pageOf v.toNat)).eraseDups

/-- Pages that the core's TLB does not hold and for which no failed walk waits (R183). -/
def State.missing (s : State) (core dom : Nat) (pages : List Nat) : List Nat :=
  pages.filter (fun p => (s.tlbHit core dom (65536 * p)).isNone &&
    !(s.walkFails.any (fun f => decide (f.core = core) && decide (f.dom = dom) && decide (f.page = p))))

/-- Walks started for pages, as far as the cluster's walker has room; a page already walked for is joined (R183). -/
def State.startWalks (s : State) (core dom : Nat) (pages : List Nat) : State :=
  pages.foldl (fun (t : State) p =>
    if t.walks.any (fun k => decide (k.core = core) && decide (k.dom = dom) && decide (k.page = p)) then t
    else if 64 ≤ (t.walks.filter (fun k => clusterOf k.core = clusterOf core)).length then t
    else { t with walks := t.walks ++ [⟨core, dom, p, t.serial⟩], serial := t.serial + 1 }) s

/-- Failed walks whose outcome has been taken. -/
def State.consume (s : State) (core dom : Nat) (pages : List Nat) : State :=
  { s with walkFails := s.walkFails.filter (fun f =>
      !(decide (f.core = core) && decide (f.dom = dom) && pages.contains f.page)) }

/-! ### Waits before issue -/

/-- The instructions that wait as an S bit does (R56).  CTXREST, which rewrites what results would be written to, is
treated like CTXSAVE. -/
def waitsLikeS (i : Instr) : Bool :=
  match i with
  | .call .. | .callx .. | .ret .. | .wspill .. | .wfill .. | .ctxsave .. | .ctxrest .. | .halt .. => true
  | _ => false

/-- The instructions across which a load may have been performed: loads, and those that access no memory and order nothing
(R220, R229, R230; log entry 87). -/
def passesReads (i : Instr) : Bool :=
  match i with
  | .ld .. | .mwait .. | .nop .. | .mov .. | .add .. | .sub .. | .mul .. | .mad .. | .and .. | .or .. | .xor .. | .shl .. | .shr ..
  | .cmp .. | .sel .. | .lea .. | .plog .. | .bra .. | .brx .. => true
  | _ => false

/-- The instructions that have a governed result (R55). -/
def governs (i : Instr) : Bool :=
  match i with
  | .ld .. | .ldl .. | .lds .. | .ldln .. | .cbget .. | .home .. | .mwait .. | .tlod .. | .atom .. | .cas .. | .atoms ..
  | .cass .. | .ccwait .. | .engq .. | .push .. | .krd .. => true
  | _ => false

/-- Instructions of a warp whose governed results are not yet written (R263). -/
def State.resultsDue (s : State) (wid : Nat) : Nat :=
  ((s.rets.filter (fun r => r.wid = wid)).map (·.serial)).eraseDups.length

/-- Are flags of an atomic of a thread still on their way to its FSTAT (R113, R278)? -/
def State.flagsDue (s : State) (tid : Nat) : Bool :=
  s.net.any (fun m => (match m.req with | .atom _ _ _ on => on | _ => false) &&
    (match m.ret with | some r => r.tids.contains tid | none => false)) ||
  s.answers.any (fun a => decide (a.flags ≠ 0) && a.ret.tids.contains tid)

/-- The operations of a partition's matrix unit that have not ended, in issue order; one that waits for its sign or its start
is one of them while its lanes wait (R362). -/
def State.matPending (s : State) (p : Nat) : List MatOp :=
  let u := (s.part p).mat
  (if u.free then [] else [u.op]) ++ u.waiting.filter (fun o => !(s.waiters o.wid o.serial).isEmpty)

/-- Does an operation write accumulator bytes of a range? -/
def MatOp.hits (o : MatOp) (a n : Nat) : Bool := overlap (accAddr o.accd) o.slice a n

/-- The scratchpad bytes that an operation of its streamer has still to read (R362). -/
def MatOp.unread (o : MatOp) (running : Bool) : Nat × Nat :=
  let base := actAddr o.act
  let rb := o.mode.rb (actAbb o.act)
  let done :=
    if !running then 0
    else if o.sparse then popBelow o.amap.toNat o.pass * actM o.act * rb +
      (if o.amap.getLsbD o.pass then o.row * rb else 0)
    else o.row * actPitch o.act
  (base + done, o.actLen - done)

/-- The scalar and shared registers that an MCOND of a warp has still to write (R58, R375). -/
def State.condDue (s : State) (wid : Nat) : List Spec :=
  ((s.warp wid).liveLanes).filterMap (fun L =>
    match (s.lane wid L).wait with
    | some { instr := .mcond _ (.sca k) _, .. } => some (.sca k)
    | some { instr := .mcond _ (.grp k) _, .. } => some (.grp k)
    | _ => none)

/-- Does a BAR at a barrier wait for an earlier arrival of its warp there to be counted, so that its marks are those of the
next (R144, R147; log entry 26)? -/
def State.barWaits (s : State) (h : Head) (b : Nat) : Bool :=
  (s.active h).any (fun L => !(s.cl L).handler) && s.cw.barDue.any (fun a => decide (a.1 = b))

/-- Would a write of the warp reach scratchpad bytes that an MCOND of it has still to read (R362, R375)? -/
def State.condHit (s : State) (a n : Nat) : Bool :=
  let w := s.cw
  w.liveLanes.any (fun L => w.inMcond L &&
    (match (w.lane L).wait.bind (fun k => parseCondense k.condBytes) with
    | some c => overlap c.src c.srcLen a n
    | none => false))

/-- Does the scoreboard, or an order between a thread's own accesses and flags, hold an instruction back (R58, R113, R194,
R220, R362, R369, R370, R373)? -/
def State.mustWait (s : State) (i : Instr) : Bool :=
  let w := s.cw
  let u := (s.part w.partId).mat
  let ops := s.matPending w.partId
  let busy := !u.free
  let accHit (h : Head) (ty : Ty) (a b : Spec) (xs : Fin 4) (imm : BitVec 32) : Bool :=
    (execFor h (s.active h)).any (fun L => ops.any (fun o => o.hits (s.ea L a b xs imm).toNat ty.size))
  let rowHit (h : Head) (ty : Ty) (a b : Spec) (xs : Fin 4) (imm : BitVec 32) : Bool :=
    (execFor h (s.active h)).any (fun L => ops.any (fun o =>
      let running := busy && decide (o.serial = u.op.serial)
      let r := o.unread running
      decide (o.wid = s.cur.wid) && (!running || decide (o.stream = w.partId)) &&
        overlap r.1 r.2 (s.ea L a b xs imm).toNat ty.size) || s.condHit (s.ea L a b xs imm).toNat ty.size)
  let own := s.gang.any (fun L => s.writesOf (s.cl L).tid s.serial)
  (s.condDue s.cur.wid).any (fun x =>
    i.specs.contains x || (match x with | .sca k => i.scalars.contains k.val | _ => false)) ||
  match i with
  | .lda h ty xs _ a b imm | .sta h ty xs a b _ imm => accHit h ty a b xs imm
  | .sts h ty xs a b _ imm | .atoms h _ ty xs _ a b _ imm | .cass h ty xs _ a b _ imm => rowHit h ty a b xs imm
  | .mls .. => ops.any (·.sparse)
  | .mswap .. => ops != []
  | .mma .. => ops.any (·.sparse)
  | .mza h a imm =>
    (execFor h (s.active h)).any (fun L => ops.any (fun o => o.hits (accAddr (s.opnd L a imm)) (mzaLen (s.opnd L a imm))))
  | .krd h _ r | .kwr h _ r => decide (r.toNat = 0x11) && (s.active h).any (fun L => s.flagsDue (s.cl L).tid)
  | .spawna .. | .ctxrest .. => own
  | .rett .. => s.net.any (fun m => m.writes && decide (m.wid = s.cur.wid))
  | .barHold h b _ | .barPass h b _ => s.barWaits h b.val
  | _ => false

/-! ### The gang (R134, R135, R165) -/

/-- The issue key (R134): handler mode before user mode, then the PC. -/
def Lane.key (l : Lane) : Nat := (if l.handler then 0 else 2 ^ 64) + l.pc.toNat

/-- Has a thread that came to the core a recorded result, sent before a serial number, still to be written (R203, R204)?
A registration that it left at a home is none. -/
def State.owed (s : State) (tid before : Nat) : Bool :=
  let route (r : Route) : List Ret := match r with | .thread ret .. => [ret] | .queue .. => []
  let rets := s.net.filterMap (fun m => match m.req with | .monitor .. => none | _ => m.ret) ++ s.answers.map (·.ret) ++
    s.subs.flatMap (fun x => route x.route) ++ s.results.flatMap (fun x => route x.route)
  rets.any (fun r => r.tids.contains tid && decide (r.serial < before))

/-- Does device time at a core lie after the departure time that a nymph carried: R199's test on the low 40 bits? -/
def afterDeparture (dtime : BitVec 40) (now : Nat) : Bool :=
  decide (2 ^ 20 ≤ (dtime.toNat + 2 ^ 40 - now % 2 ^ 40) % 2 ^ 40)

/-- May a ready lane be chosen?  A thread that has just come to the core, or has been restored there, waits for what it
must see (R28, R199, R203, R204, R288, R392).  A lane that may not be chosen yet is left out of E of R135, so that lanes
at the same or at later keys issue before it (log entry 75). -/
def State.eligible (s : State) (w : Warp) (l : Lane) : Bool :=
  decide (l.st = .ready) && (l.handler || !l.heldOverrun) && (l.acq == 0 || decide (l.acq.toNat < s.localTime w.core)) &&
    (match l.dtime with | none => true | some d => afterDeparture d (s.localTime w.core)) &&
    (l.after == 0 || (!s.owed l.tid l.after && !s.writesOf l.tid l.after)) &&
    (match l.trail with | none => true | some sc => s.fenceReady sc w.core l l.after)

/-- Is the instruction of a lane's word one of the cross-lane class, which in a handler keeps to one fragment (R165)? -/
def isCross (i : Instr) : Bool :=
  match i with
  | .shfl .. | .shfx .. | .bcast .. | .vote .. | .ballot .. | .bpcnt .. | .reduce .. | .scan .. | .scanEx .. => true
  | _ => false

/-- N of R135: the lanes to choose from, and whether every DEFER bit of the warp is cleared. -/
def State.undeferred (s : State) (wid : Nat) : List Nat × Bool :=
  let w := s.warp wid
  let E := (List.range 32).filter (fun L => s.eligible w (w.lane L))
  let all := E.all (fun L => (w.lane L).defer)
  (if all then E else E.filter (fun L => !(w.lane L).defer), all)

/-- The lanes at the lowest key among some lanes of a warp, with their PC. -/
def Warp.lowest (w : Warp) (N : List Nat) : Option (Word × List Nat) :=
  (minBy (fun L => (w.lane L).key) N).map (fun L => ((w.lane L).pc, N.filter (fun K => (w.lane K).key = (w.lane L).key)))

/-- The gang that R135 selects: the PC and the lanes, and whether every DEFER bit of the warp is cleared. -/
def State.select (s : State) (wid : Nat) : Option (Word × List Nat × Bool) :=
  let N := s.undeferred wid
  ((s.warp wid).lowest N.1).map (fun g => (g.1, g.2, N.2))

/-- The lanes at a key that belong to the oldest fragment present there (R165). -/
def Warp.oldest (w : Warp) (ls : List Nat) : List Nat :=
  match w.frags.find? (fun f => ls.any (fun L => (w.lane L).frag = f.id)) with
  | some f => ls.filter (fun L => (w.lane L).frag = f.id)
  | none => ls

/-! ### One attempt of a warp -/

/-- What comes of a warp's attempt to issue: it cannot, it starts page walks or traps on its fetch, or it executes an
instruction. -/
inductive Attempt where
  | blocked
  | went (s : State)
  | go (i : Instr) (s : State)

/-- Is a warp held back whole: its launch parked, its OVERRUN due (R254), a save asked of it (R396), or its fused code
not yet to be fetched (R412, R425)? -/
def State.heldBack (s : State) (wid : Nat) : Bool :=
  let w := s.warp wid
  let l := s.launch w.launch
  !w.live || decide (l.st = .parked) || l.pendingOvr.contains wid ||
    s.saveReqs.any (fun r => decide (r.target = if r.roaming then wid else w.group) && (r.roaming == w.roaming)) ||
    (match l.splice with | some p => decide (s.localTime w.core ≤ p.after) | none => false) ||
    !(l.acqSerial == 0 || (!s.writesOf l.acqTid l.acqSerial && decide (l.acq.toNat < s.localTime w.core)))

/-- The failing checks of R44 and R62 for the lanes at a PC, and the word as fetched; `entry` are the lanes at their
first instruction.  INSTR of the frame of a lane whose line could not be read is 0, and ADDR of a PAGE or PROTECTION is the
lane's PC (log entry 76). -/
def State.fetchFault (s : State) (w : Warp) (pc : Word) (ls : List Nat) (entry : Nat → Bool) :
    List (Nat × Event) × InstrWord :=
  let all (e : Event) : List (Nat × Event) := ls.map (fun L => (L, e))
  if fld pc 2 0 > 4 then (all { cause := 0x02, sub := 0x01, addr := pc }, 0)
  else if fld pc 5 3 ≠ 0 then (all { cause := 0x02, sub := 0x02, addr := pc }, 0)
  else
    match s.lineCheck w.core w.dom pc pc (lineAddr pc) with
    | .bad e =>
      let word : InstrWord := match s.xlate w.core w.dom (lineAddr pc).toNat with
        | .ok f => if f.x then slotWord (s.lineBytes w.core f pc) (fld pc 2 0) else 0
        | .fail _ => 0
      (ls.map (fun L => (L, if e.cause = 0x03 ∧ entry L then { e with addr := pc } else e)), word)
    | .ok _ line =>
      let word := slotWord line (fld pc 2 0)
      if (lineWord line / 2 ^ (15 + fld pc 2 0)) % 2 = 0 then
        ((ls.filter entry).map (fun L => (L, { cause := 0x02, sub := 0x03, addr := pc })), word)
      else ([], word)

/-- The failing checks of R52 and R423 on a decoded instruction, by lane. -/
def State.kindFault (s : State) (w : Warp) (i : Instr) (ls : List Nat) : List (Nat × Event) :=
  match (if w.roaming then roamingFault i (s.launch w.launch).r.frame else none) with
  | some sub => ls.map (fun L => (L, { cause := 0x01, sub := sub }))
  | none =>
    (ls.filter (fun L => handlerFault i (s.offsOf w (w.lane L)))).map (fun L => (L, { cause := 0x01, sub := 0x05 }))

/-- The issue in progress set for the lanes at a PC. -/
def State.setIssue (s : State) (wid : Nat) (pc : Word) (ls : List Nat) (word : InstrWord) : State :=
  let o := s.issueOrigin (s.warp wid) ((ls.head?).getD 0) pc
  { s with
    cur := { wid := wid, pc := pc, a1 := maskOf ls, word := word, origin := o.1, origpc := o.2, gang := s.serial,
             serial := s.serial }
    serial := s.serial + 1 }

/-- SelectGang clears every DEFER bit of the warp when all its ready lanes are deferred (R135, R138). -/
def State.undefer (s : State) (wid : Nat) (all : Bool) : State :=
  if all then s.updLanes wid (List.range 32) (fun l => { l with defer := false }) else s

/-- An issue that is made: the charge, which the second gang of a pair does not add to (R398), the round robin, the entry
marks and the DEFER bits. -/
def State.issued (s : State) (wid : Nat) (ls : List Nat) (undefer second : Bool) (i : Instr) : State :=
  let w := s.warp wid
  let sup := ls.any (fun L => (w.lane L).sup)
  let s1 := if second then s else s.charge w.launch (s.issueRate i) s.cur.origin sup
  let s2 := s1.updWarp wid (fun w => { w with lastIssue := s.cur.serial })
  (s2.undefer wid undefer).updLanes wid ls (fun l => { l with
    entry := false, acq := 0, dtime := none, after := 0, trail := none, early := if passesReads i then l.early else none })

/-- Lanes that trap on their fetch. -/
def State.fetchTrap (s : State) (wid : Nat) (pc : Word) (ls : List Nat) (undefer : Bool) (word : InstrWord)
    (fails : List (Nat × Event)) : Attempt :=
  let w := s.warp wid
  let t := (s.lineRead w.core w.dom w.launch pc).undefer wid undefer
  .went ((((t.setIssue wid pc ls word).raise fails).blank).consume w.core w.dom [pageOf pc.toNat])

/-- A decoded instruction that its gang is to execute, after its waits. -/
def State.tryInstr (s : State) (wid : Nat) (pc : Word) (ls : List Nat) (undefer second : Bool) (word : InstrWord)
    (i : Instr) : Attempt :=
  let w := s.warp wid
  let ls := if isCross i && (ls.any (fun L => (w.lane L).handler)) then w.oldest ls else ls
  match s.kindFault w i ls with
  | e :: es => s.fetchTrap wid pc ls undefer word (e :: es)
  | [] =>
    let s1 := s.setIssue wid pc ls word
    if (i.head.s || waitsLikeS i) && s.governed wid s.serial then .blocked
    else if s1.mustWait i || (governs i && decide (16 ≤ s.resultsDue wid)) then .blocked
    else
      let miss := s1.missing w.core w.dom (pagesOf (s1.touches i))
      if miss = [] then .go i ((s1.lineRead w.core w.dom w.launch pc).issued wid ls undefer second i)
      else
        let s2 := s.startWalks w.core w.dom miss
        if s2.serial = s.serial then .blocked else .went (s2.undefer wid undefer)

/-- The attempt of a gang of a warp to issue. -/
def State.attemptAt (s : State) (wid : Nat) (pc : Word) (ls : List Nat) (undefer second : Bool) : Attempt :=
  let w := s.warp wid
  let miss := s.missing w.core w.dom [pageOf pc.toNat]
  if miss ≠ [] then
    let s1 := s.startWalks w.core w.dom miss
    if s1.serial = s.serial then .blocked else .went (s1.undefer wid undefer)
  else
    match s.fetchFault w pc ls (fun L => (w.lane L).entry) with
    | (e :: es, word) => s.fetchTrap wid pc ls undefer word (e :: es)
    | ([], word) =>
      if word = 0 then s.tryInstr wid pc ls undefer second word (.nop ⟨false, false, ⟨false, 7⟩⟩)
      else
        match decode word with
        | .illegal sub => s.fetchTrap wid pc ls undefer word (ls.map (fun L => (L, { cause := 0x01, sub := sub })))
        | .instr i => s.tryInstr wid pc ls undefer second word i

/-- A warp's attempt to issue. -/
def State.attempt (s : State) (wid : Nat) : Attempt :=
  if s.heldBack wid then .blocked
  else
    match s.select wid with
    | none => .blocked
    | some (pc, ls, undefer) => s.attemptAt wid pc ls undefer false

/-! ### Paired gangs (R137) -/

/-- May an instruction be one of a pair: conditions 4 and 5 of R137, but for the second's S? -/
def pairable (i : Instr) : Bool :=
  let op := match fieldsOf i with | some f => f.op.toNat | none => 0x88
  !i.head.u && (decide (op < 0x48) || (decide (0x60 ≤ op) && decide (op < 0x88))) &&
    i.destSpecs.all (fun x => match x with | .sca _ | .grp _ => false | _ => true)

/-- The slices that hold some lanes (R16). -/
def slicesOf (ls : List Nat) : List Nat := (ls.map (· / 4)).eraseDups

/-- The gang that may issue as the second of a pair beside lanes that issue an instruction at a PC (R137): its PC and its
lanes. -/
def State.secondGang (s : State) (wid : Nat) (pc : Word) (ls : List Nat) (i : Instr) : Option (Word × List Nat) :=
  let w := s.warp wid
  match w.lowest ((s.undeferred wid).1.filter (fun L => !ls.contains L)) with
  | none => none
  | some g =>
    let mode (ls : List Nat) : Bool := ls.any (fun L => (w.lane L).handler)
    if mode g.2 ≠ mode ls ∨ g.1 ≠ pc + 1 ∨ 3 < fld pc 2 0 ∨ (slicesOf g.2).any (slicesOf ls).contains ∨ !pairable i then none
    else
      match s.lineCheck w.core w.dom pc pc (lineAddr pc) with
      | .bad _ => none
      | .ok _ line =>
        if lineWord line / 2 ^ (20 + fld pc 2 0) % 2 = 0 then none
        else
          match decode (slotWord line (fld g.1 2 0)) with
          | .instr j => if pairable j && !j.head.s then some g else none
          | .illegal _ => none

/-- The device may issue the second gang of a pair in the same cycle (R137): the free choice is made as the first issues. -/
def State.notePair (s t : State) (i : Instr) : State :=
  let x := t.cur
  match s.secondGang x.wid x.pc (lanesOf x.a1) i with
  | none => t
  | some g =>
    if Config.choice t.draws then
      t.drawn.updPart (s.warp x.wid).partId (fun p => { p with pair := some (x.wid, g.1, maskOf g.2) })
    else t.drawn

/-- The second gang of a pair goes, where its lanes still stand there and can issue. -/
def State.pickSecond (s : State) (wid : Nat) (pc : Word) (m : LaneMask) : Attempt :=
  let ls := (s.undeferred wid).1.filter (fun L => m.getLsbD L && decide ((s.lane wid L).pc = pc))
  if s.heldBack wid ∨ ls = [] then .blocked else s.attemptAt wid pc ls false true

/-! ### The choice among warps (R393) -/

/-- The first two keys of R393 as one number, the smaller first: demoted launches last, then the deadline, then the
launch's age. -/
def Launch.rank (l : Launch) : Nat := (if l.st = .demoted then 2 ^ 192 else 0) + l.dl * 2 ^ 96 + l.order

/-- The choice of R393 among warps of a partition that can issue; the round robin goes by the issues of the tied warps
themselves, and starts at slot 0 where none of them has issued. -/
def State.choose (s : State) (able : List (Nat × Attempt)) : Option Attempt :=
  let rank (e : Nat × Attempt) : Nat := (s.launch (s.warp e.1).launch).rank
  match minBy rank able with
  | none => none
  | some best =>
    let tied := able.filter (fun e => rank e = rank best)
    let last (e : Nat × Attempt) : Nat := (s.warp e.1).lastIssue
    let newest := tied.foldl (fun m e => Nat.max m (last e)) 0
    let start := match tied.find? (fun e => decide (0 < newest) && decide (last e = newest)) with
      | some e => (s.warp e.1).slot + 1
      | none => 0
    (minBy (fun e => ((s.warp e.1).slot + 32 - start) % 32) tied).map (·.2)

/-- One issue slot of a partition: what the chosen warp does, if one can issue; the second gang of a pair goes before any
other (R137). -/
def State.pick (s : State) (core part : Nat) : Option Attempt :=
  match (s.part (2 * core + part)).pair with
  | some (wid, pc, m) =>
    let s1 := s.updPart (2 * core + part) (fun p => { p with pair := none })
    (match s1.pickSecond wid pc m with
    | .blocked => some (.went s1)
    | a => some a)
  | none =>
    let wids := s.warpsWhere (fun w => w.live && decide (w.core = core) && decide (w.part = part))
    let able := (wids.map (fun k => (k, s.attempt k))).filter (fun e => match e.2 with | .blocked => false | _ => true)
    match s.choose able with
    | some (.go i t) => some (.go i (s.notePair t i))
    | x => x

/-- The state after an instruction executed in the state `was`: the lines of its targets have been read, no issue is in
progress, and the failed walks it met are taken. -/
def State.issueDone (was : State) (i : Instr) (s : State) : State :=
  let w := was.cw
  let read := (was.targets i).foldl (fun (t : State) pc => t.lineRead w.core w.dom w.launch pc) s
  read.blank.consume w.core w.dom (pagesOf (was.touches i))

/-! ### Waiting instructions attempted again, device time, a program placed -/

/-- The instruction that the lanes of a gang hold and wait to attempt again, with the issue set for them (R133); none while
their launch is parked (R399). -/
def State.retryOf (s : State) (wid gang : Nat) : Option (Instr × State) :=
  let ls := (s.waiters wid gang).filter (fun L =>
    match (s.lane wid L).wait with | some w => decide (w.phase = .hold) | none => false)
  if (s.launch (s.warp wid).launch).st = .parked then none
  else ((ls.head?).bind (fun L => (s.lane wid L).wait)).map (fun w => (w.instr, s.resume wid ls))

/-- Device time passes, once the package runs (R27, R448); the power average that PWRSTAT shows is free (R454), and on the
module an average above 2,000 W raises the alarm (R455). -/
def State.elapse (s : State) (dt : Nat) : State :=
  let p := s.drawn.updHost (fun h => { h with pwr := BitVec.ofNat 16 (Config.number s.draws) })
  let q := if s.host.run then { p with now := p.now + dt } else p
  if Config.isModule && decide (2000 < q.host.pwr.toNat) then q.alarmRise else q

/-- The 64 bytes of a line with a word in slot 0, its TMASK bit and its parity (R35 to R37). -/
def lineWith (w : InstrWord) : List Byte :=
  let body := leBytes 12 w.toNat ++ leBytes 48 0 ++ leBytes 3 (2 ^ 15)
  body ++ [xorBytes body]

/-- A program of one line placed for the next step: the line in core 0's first-tier memory, its page in the TLB, a launch
that runs, a workgroup of one warp with one thread at slot 0 of the line, and the turn. -/
def State.placed (s : State) (w : InstrWord) : State :=
  let va : Nat := 0x10000
  let lane : Lane := { tid := s.serial, st := .ready, pc := BitVec.ofNat 64 va, depth := 0 }
  let warp : Warp :=
    { live := true, core := 0, part := 0, slot := 0, dom := 0, launch := 4, group := s.serial, index := 0, lanes := [(0, lane)] }
  let group : Group := { live := true, core := 0, part := 0, dom := 0, launch := 4, warps := [s.serial], sbase := 0, ssize := 4096 }
  let launch : Launch :=
    { live := true, st := .running, units := 1, total := 1, placed := 1, created := true, dl := 2 ^ 63, budget := 2 ^ 32,
      r := { kind := 0, warps := 1, scratch := 4096, frame := 32, entry := BitVec.ofNat 64 va, grid := 1 } }
  { s with
    turns := [.issue 0 0]
    serial := s.serial + 1
    mem := s.mem.setN unwritten va (lineWith w)
    tlb := ⟨0, 0, 1, ⟨3, BitVec.ofNat 64 (va + 0x1F)⟩⟩ :: s.tlb
    warps := s.warps.set {} s.serial warp
    groups := s.groups.set {} s.serial group
    launches := s.launches.set {} 4 launch
    parts := s.parts.upd {} 0 (fun p => { p with pair := none }) }

end Sys2Proof.Machine
end

