-- ==== Sys2Proof/Machine/Engines.lean ====
section
/-! DEFINITION. The engines (spec/11_engines R303 to R335): how a command is chosen, started, stepped and retired; tiles,
linear copies, condensing, dispatch and multicast groups; the start and the rows of matrix operations (spec/13_matrix R358
to R363). -/

namespace Sys2Proof.Machine

/-! ### Types of tiles (R314, R318) -/

/-- The format of a floating-point type code (R314). -/
def etyFmt (t : Nat) : Option Fmt :=
  match t with
  | 8 => some fp64 | 9 => some fp32 | 10 => some fp16 | 11 => some bf16 | _ => none

/-- The size of a type code; 0 for a code that names no type (R314). -/
def etySize (t : Nat) : Nat :=
  match t with
  | 1 => 1 | 3 => 2 | 5 => 4 | 7 => 8 | 8 => 8 | 9 => 4 | 10 => 2 | 11 => 2 | _ => 0

/-- An engine's own refusal of a command (R309). -/
def badCommand : Event := { cause := 0x01, sub := 0x0A }

/-- A field of a command. -/
def Cmd.f (c : Cmd) (off n : Nat) : Nat := cmdField c.bytes off n
/-- OPC (R305). -/
def Cmd.opc (c : Cmd) : Nat := c.f 0 1
/-- CB of a tile command (R316). -/
def Cmd.cb (c : Cmd) : Bool := decide (c.f 1 1 / 128 = 1)
/-- WB of a tile command (R316). -/
def Cmd.wb (c : Cmd) : Bool := decide (c.f 1 1 / 64 % 2 = 1)
/-- DTY (R316). -/
def Cmd.dty (c : Cmd) : Nat := c.f 2 1
/-- Does the command write memory from a buffer (TSTORE, AREAD)? -/
def Cmd.stores (c : Cmd) : Bool := decide (c.opc = 2) || decide (c.opc = 3)
/-- A field of the command's shape record (R314). -/
def Cmd.r (c : Cmd) (off n : Nat) : Nat := cmdField c.record off n
/-- T0 and T1 (R314). -/
def Cmd.t0 (c : Cmd) : Nat := c.r 0x30 2
/-- T1. -/
def Cmd.t1 (c : Cmd) : Nat := c.r 0x32 2
/-- ETY. -/
def Cmd.ety (c : Cmd) : Nat := c.r 0x34 1
/-- DSIZE (R316). -/
def Cmd.dsize (c : Cmd) : Nat := etySize c.dty
/-- BPITCH (R316). -/
def Cmd.bpitch (c : Cmd) : Nat := c.f 0x24 4
/-- The tile's footprint in the buffer (R316). -/
def Cmd.footprint (c : Cmd) : Nat := c.bpitch * (c.t1 - 1) + c.t0 * c.dsize

/-- The checks of R309 and R316 on the bytes of a tile command. -/
def Cmd.tileBad (c : Cmd) : Bool :=
  let m := decide (c.opc = 4)
  let flags := c.f 1 1
  let mwin := c.f 0x2E 2
  (if c.stores then decide (flags / 8 ≠ 0) else decide (flags / 8 % 8 ≠ 0) || (c.cb && c.wb)) ||
  decide (c.dsize = 0) || (decide (c.opc = 3) && !(decide (c.dty = 8) || decide (c.dty = 9))) ||
  decide (c.f 3 5 ≠ 0) || decide (c.bpitch % 8 ≠ 0) || decide (c.f 0x32 14 ≠ 0) ||
  (if m then decide (mwin = 0) || decide (1023 < mwin) || decide (mwin < c.f 0x30 2) ||
      decide (c.f 0x2C 2 / 2 ^ (c.core % 16) % 2 = 0)
    else decide (c.f 0x28 10 ≠ 0))

/-- The checks of R309 and R314 on the shape record, with the limits of R316 that name it. -/
def Cmd.recordBad (c : Cmd) : Bool :=
  decide (c.t0 = 0) || decide (4096 < c.t0) || decide (c.t1 = 0) || decide (4096 < c.t1) ||
  decide (etySize c.ety = 0) || decide (c.r 0x35 11 ≠ 0) ||
  (decide (1 < c.t1) && decide (c.bpitch < c.t0 * c.dsize)) || decide (1572864 < c.footprint)

/-- Elements of the tile. -/
def Cmd.elems (c : Cmd) : Nat := c.t0 * c.t1

/-- Coordinate k of tile element i (R317). -/
def Cmd.coord (c : Cmd) (i k : Nat) : Nat :=
  c.f (0x10 + 4 * k) 4 + (match k with | 0 => i % c.t0 | 1 => i / c.t0 | _ => 0)

/-- Is tile element i in extent (R314)? -/
def Cmd.inExtent (c : Cmd) (i : Nat) : Bool := (List.range 4).all (fun k => decide (c.coord i k < c.r (0x08 + 4 * k) 4))

/-- The virtual address of tile element i with an element size (R314). -/
def Cmd.elemVa (c : Cmd) (esize i : Nat) : Nat :=
  (c.r 0 8 + c.coord i 0 * esize + c.coord i 1 * c.r 0x18 8 + c.coord i 2 * c.r 0x20 8 + c.coord i 3 * c.r 0x28 8) % 2 ^ 64

/-! ### An engine at work -/

/-- The state as an engine's step changes it, with the command. -/
structure Work where
  s : State
  c : Cmd
  err : Option Event := none

/-- The translation of an address for a command. -/
def State.engLeaf (s : State) (c : Cmd) (va : Nat) : Walked :=
  match s.tlbHit c.core c.dom va with
  | some f => if s.peerUp f then .ok f else .fail 0x05
  | none => s.translate c.dom va

/-- A line of a command's source: read once at its home (R313). -/
def Work.line (w : Work) (key : Nat) : List Byte × Work :=
  match w.c.lines.find? (fun l => l.1 = lineOf key) with
  | some l => (l.2, w)
  | none =>
    let r := w.s.readHome (64 * lineOf key) 64 w.c.launch
    (r.1, { w with s := r.2, c := { w.c with lines := w.c.lines ++ [(lineOf key, r.1)] } })

/-- Bytes of a leaf's page, line by line. -/
def Work.bytes (w : Work) (f : Leaf) (va n : Nat) : List Byte × Work :=
  let first := va / 64
  let r := (List.range ((va + n + 63) / 64 - first)).foldl (fun (r : List Byte × Work) i =>
    let x := r.2.line (f.key (64 * (first + i)))
    (r.1 ++ x.1, x.2)) ([], w)
  ((r.1.drop (va % 64)).take n, r.2)

/-- Bytes written at their homes, line by line (R313, R233). -/
def Work.put (w : Work) (f : Leaf) : Nat → Nat → List Byte → Work
  | 0, _, _ => w
  | fuel + 1, va, bs =>
    if bs = [] then w
    else
      let n := 64 - va % 64
      let r := w.s.applyWrite (f.key va) (bs.take n)
      Work.put { w with s := r.1, c := { w.c with cmax := BitVec.ofNat 64 (Nat.max w.c.cmax.toNat r.2) } } f fuel (va + n)
        (bs.drop n)

/-- One of several errors, freely chosen where the spec gives no order. -/
def State.oneOf (s : State) (es : List Event) : Option Event :=
  match es with
  | [] => none
  | _ => es[Config.number s.draws % es.length]?

/-! ### Starting a command (R307, R309, R314, R315) -/

/-- Why a range of memory cannot be read by a command: a translation, R, or a format that is not PLAIN. -/
def State.engReadErr (s : State) (c : Cmd) (va : Nat) : Option Event :=
  match s.engLeaf c va with
  | .fail e => some (pageEvent e (BitVec.ofNat 64 va) 0)
  | .ok f =>
    if ¬f.r then some (protEvent 0x01 0)
    else if f.fmt ≠ 0 then some (formatEvent 0x01 0)
    else none

/-- The record of a command: a copy of the cache where it may serve, or read at its home; the copy may be kept, and any
copy may be dropped (R315).  Copies that an RCFENCE dropped are no longer held. -/
def State.fetchRecord (s : State) (c : Cmd) (va : Nat) : List Byte × State :=
  let mine (r : RecCopy) : Bool :=
    decide (r.engine = c.engine) && decide (r.unit = c.unit) && decide (r.dom = c.dom) && decide (r.va = va)
  match s.recs.find? mine, Config.choice s.draws with
  | some r, true => (r.bytes, s.drawn)
  | _, _ =>
    let f : Leaf := match s.engLeaf c va with | .ok f => f | .fail _ => ⟨3, 0⟩
    let r := s.drawn.readHome (f.key va) 64 c.launch
    let others := r.2.recs.filter (fun x => !mine x)
    let ours := others.filter (fun x => decide (x.engine = c.engine) && decide (x.unit = c.unit))
    let kept := if 64 ≤ ours.length then others.filter (fun x => some x ≠ ours.head?) else others
    (r.1, { r.2 with
      recs := kept ++ [{ engine := c.engine, unit := c.unit, dom := c.dom, va := va, bytes := r.1, serial := s.serial }] })

/-- The key by which a command's warp holds a half of the weight buffer (R321). -/
def Cmd.holder (c : Cmd) : Nat := if c.group = 0 then 2 * c.wid + 1 else 2 * c.group

/-- Does a command's warp hold the accumulator and the weight-buffer half of its partition (R194, R321, R379)? -/
def State.cmdHolds (s : State) (c : Cmd) : Bool :=
  if c.group = 0 then s.launchHolds c.launch (2 * c.core + c.part) else (s.group c.group).acc

/-- A weight-buffer half passes to a holder: it is zeroed where the holder is new (R321). -/
def State.takeHalf (s : State) (p key : Nat) : State :=
  if (s.part p).halfHolder = some key then s
  else
    let base := weightKey (p / 2) (262144 * (p % 2))
    { s with
      wbuf := s.wbuf.filter (fun e => ¬(base ≤ e.1 ∧ e.1 < base + 262144))
      parts := s.parts.upd {} p (fun q => { q with halfHolder := some key }) }

/-- The circular buffer that a command names. -/
def State.cmdCb (s : State) (c : Cmd) : CBuf := if c.group = 0 then {} else (s.group c.group).cbufs.get {} c.buf

/-- Errors of the buffer side of a tile command (R311, R317, R320, R321). -/
def State.bufferErr (s : State) (c : Cmd) : List Event :=
  let a := c.f 0x20 4
  let n := c.footprint
  if c.opc = 3 then (if s.cmdHolds c ∧ a + n ≤ 131072 then [] else [scratchEvent 0x04 0])
  else if c.wb then (if s.cmdHolds c ∧ inHalf c.part a n then [] else [scratchEvent 0x05 0])
  else if c.cb then
    let b := s.cmdCb c
    if b.nslots = 0 ∨ b.slotb < n then [scratchEvent 0x01 0] else []
  else
    let r := s.scratchRange (s.warp c.wid) c.origin
    if r.1 ≤ a ∧ a + n ≤ r.1 + r.2 then [] else [scratchEvent 0x01 0]

/-- May a page of a format be reached with the command's types (R318, R319)? -/
def Cmd.typesOk (c : Cmd) (fmt : Nat) : Bool :=
  if fmt = 0 then ((etyFmt c.dty).isSome && (etyFmt c.ety).isSome) || decide (c.dty = c.ety)
  else if 10 ≤ fmt ∧ c.stores then decide (c.dty = (match fmt with | 10 => 11 | 11 => 10 | _ => 9))
  else (etyFmt c.dty).isSome

/-- The element size and the format of a tile, from the page of its origin (R314). -/
def State.originOfTile (s : State) (c : Cmd) : Except Event (Nat × Nat) :=
  let va := c.elemVa (etySize c.ety) 0
  match s.engLeaf c va with
  | .fail e => .error (pageEvent e 0 (b2n c.stores))
  | .ok f =>
    if ¬c.typesOk f.fmt then .error (formatEvent 0x01 0)
    else .ok (if f.fmt = 0 then etySize c.ety else if f.fmt ≤ 2 then 1 else elemBytes f.fmt, f.fmt)

/-- The start of a tile command: its checks, its record, the origin and the buffer.  The command with what it has
learned, or its error. -/
def State.startTile (s : State) (c : Cmd) : State × Except Event Cmd :=
  let va := c.f 8 8
  if c.tileBad then (s, .error badCommand)
  else if va % 64 ≠ 0 then (s, .error (alignEvent 0x01 0))
  else
    match s.engReadErr c va with
    | some e => (s, .error e)
    | none =>
      let r := s.fetchRecord c va
      let c := { c with record := r.1 }
      if c.recordBad then (r.2, .error badCommand)
      else
        let c := { c with total := c.elems }
        let buf := r.2.bufferErr c
        if ¬c.inExtent 0 then (r.2.drawn, match buf with | e :: _ => .error e | [] => .ok { c with esize := 1 })
        else
          match r.2.originOfTile c, buf with
          | .error e, _ :: _ =>
            (r.2.drawn, if c.opc = 4 then .error e else .error ((r.2.oneOf (e :: buf)).getD e))
          | .error e, [] => (r.2, .error e)
          | .ok _, e :: _ => (r.2, .error e)
          | .ok o, [] => (r.2, .ok { c with esize := o.1, fmt := o.2 })

/-- The checks of R309 on an LCOPY (R325). -/
def Cmd.lcopyBad (c : Cmd) : Bool :=
  decide (c.f 1 7 ≠ 0) || decide (c.f 8 8 % 8 ≠ 0) || decide (c.f 0x10 8 % 8 ≠ 0) || decide (c.f 0x18 4 % 8 ≠ 0) ||
  decide (c.f 0x18 4 = 0) || decide (2 ^ 30 < c.f 0x18 4) || decide (c.f 0x1C 36 ≠ 0)

/-- The checks of R309 on a DISPATCH (R333). -/
def Cmd.dispatchBad (c : Cmd) : Bool :=
  decide (c.f 1 1 % 128 ≠ 0) || decide (c.f 2 6 ≠ 0) || (decide (c.f 1 1 = 128) && decide (2 ^ 21 ≤ c.f 8 8)) ||
  decide (c.f 0x10 8 % 8 ≠ 0) || decide (c.f 0x18 8 % 64 ≠ 0) || decide (c.f 0x20 4 = 0) || decide (2 ^ 24 < c.f 0x20 4) ||
  decide (c.f 0x24 4 % 8 ≠ 0) || decide (c.f 0x24 4 = 0) || decide (65536 < c.f 0x24 4) || decide (c.f 0x28 4 % 8 ≠ 0) ||
  decide (c.f 0x2C 20 ≠ 0)

/-- Is an opcode one of the engine's (R305)? -/
def Cmd.belongs (c : Cmd) : Bool :=
  match c.engine with
  | .copy => decide (1 ≤ c.opc) && decide (c.opc ≤ 5)
  | .cond => decide (c.opc = 0x10)
  | .disp => decide (c.opc = 0x20)

/-- The checks made when a command starts (R309). -/
def State.startCheck (s : State) (c : Cmd) : State × Except Event Cmd :=
  if ¬c.belongs then (s, .error badCommand)
  else if c.opc ≤ 4 then s.startTile c
  else if c.opc = 5 then (s, if c.lcopyBad then .error badCommand else .ok { c with total := c.f 0x18 4 })
  else if c.opc = 0x10 then
    (s, match parseCondense c.bytes with
      | none => .error badCommand
      | some x =>
        if x.inside (s.scratchRange (s.warp c.wid) c.origin) then .ok { c with total := x.npass }
        else .error (scratchEvent 0x01 0))
  else (s, if c.dispatchBad then .error badCommand else .ok { c with total := c.f 0x20 4 })

/-! ### Commands replaced, charged and finished -/

/-- A command replaced by its new self. -/
def State.putCmd (s : State) (c : Cmd) : State := { s with cmds := s.cmds.map (fun x => if x.serial = c.serial then c else x) }

/-- The whole charge of a command (R328). -/
def Cmd.fullCharge (c : Cmd) : Nat :=
  if c.opc ≤ 4 then
    16 + (c.elems * c.dsize + 127) / 128 + (if c.stores ∧ 3 ≤ c.fmt then (c.elems + 31) / 32 else 0)
  else if c.opc = 5 then 16 + (c.f 0x18 4 + 127) / 128
  else if c.opc = 0x20 then 16 + c.f 0x20 4 + (c.f 0x20 4 * c.f 0x24 4 + 127) / 128
  else
    match parseCondense c.bytes with
    | some x => x.charge (popBelow c.kept 64)
    | none => 0

/-- The charge for the progress a command has reached, in proportion; repeated work adds nothing (R328). -/
def State.chargeCmd (s : State) (c : Cmd) : State × Cmd :=
  let due := if c.total = 0 then 0 else c.fullCharge * c.prog / c.total
  (s.charge c.launch (due - c.charged) c.origin, { c with charged := Nat.max due c.charged })

/-- A command that has ended, with its error if it failed; it retires in its turn (R308).  A failing command's lines and
slot are let go of; a slot it began stays being filled. -/
def State.finishCmd (s : State) (c : Cmd) (e : Option Event) : State :=
  let n := (c.track.map (·.2)).getD 0
  let x := s.chargeCmd c
  x.1.putCmd { x.2 with
    st := .finished, lines := [], vals := [], failAt := s.engineTime c.engine c.unit,
    error := e.map (fun e =>
      { n := n, cause := e.cause, sub := e.sub, info0 := e.info0, prog := c.prog, sent := c.sent }) }

/-- A command that has done all its work: its slot is filled, and it retires with the error noted, if any (R196, R320,
R334). -/
def State.completeCmd (s : State) (c : Cmd) : State :=
  let s :=
    match c.slot with
    | some _ => s.updGroup c.group (fun g =>
        { g with cbufs := g.cbufs.upd {} c.buf (fun b => { b with filled := b.filled + 1 }) })
    | none => s
  s.finishCmd { c with slot := none } (c.note.map (fun n => { cause := n.1, sub := n.2 }))

/-! ### Tiles (R317 to R324) -/

/-- Where the buffer side of a tile begins (R317). -/
def State.tileBase (s : State) (c : Cmd) : Nat :=
  match c.slot with
  | some k => let b := s.cmdCb c; b.base + k * b.slotb
  | none => c.f 0x20 4

/-- The buffer address of tile element i (R317). -/
def State.bufAddr (s : State) (c : Cmd) (i : Nat) : Nat := s.tileBase c + i / c.t0 * c.bpitch + i % c.t0 * c.dsize

/-- Bytes written to a command's buffer. -/
def State.putBuf (s : State) (c : Cmd) (addr : Nat) (bs : List Byte) : State :=
  if c.wb then { s with wbuf := s.wbuf.setN unwritten (weightKey c.core addr) bs } else s.putScratch c.core addr bs

/-- The value of tile element i in the buffer. -/
def State.bufNat (s : State) (c : Cmd) (i : Nat) : Nat :=
  let a := s.bufAddr c i
  if c.opc = 3 then s.accNat (2 * c.core + c.part) a c.dsize else s.scratchNat c.core a c.dsize

/-- A value converted between types (R318): integers and equal types are copied. -/
def convertTo (F G : Option Fmt) (v : Nat) : Nat :=
  match F, G with
  | some f, some g => if f = g then v else (cvt f g .rne false v).bits
  | _, _ => v

/-- The format that a page's elements decode to, or are encoded from (R188, R190, R319). -/
def Cmd.pageFmt (c : Cmd) : Option Fmt :=
  if c.fmt = 0 then etyFmt c.ety else if c.fmt ≤ 9 then some fp32 else some (bmvFmt c.fmt)

/-- The address and the leaf of an in-extent element, or why it cannot be reached (R311, R314, R319). -/
def State.elemLeaf (s : State) (c : Cmd) (i : Nat) : Except Event (Nat × Leaf) :=
  let va := c.elemVa c.esize i
  match s.engLeaf c va with
  | .fail e => .error (pageEvent e 0 (b2n c.stores))
  | .ok f =>
    if c.stores ∧ ¬f.w then .error (protEvent 0x02 0)
    else if ¬c.stores ∧ ¬f.r then .error (protEvent 0x01 0)
    else if f.fmt ≠ c.fmt then .error (formatEvent 0x01 0)
    else if va % c.esize ≠ 0 then .error (alignEvent 0x01 0)
    else if 3 ≤ f.fmt ∧ 65536 / f.slotBytes ≤ elemIndex f va / f.blkElems then .error (formatEvent 0x02 0)
    else .ok (va, f)

/-- An in-extent element read from memory and converted (R188, R190, R317). -/
def Work.loadElem (w : Work) (i : Nat) : Work × Option Nat :=
  match w.s.elemLeaf w.c i with
  | .error e => ({ w with err := some e }, none)
  | .ok (va, f) =>
    let conv (v : Nat) : Nat := convertTo w.c.pageFmt (etyFmt w.c.dty) v
    if f.fmt ≤ 2 then
      let r := w.bytes f va w.c.esize
      let v := leNat r.1
      (r.2, some (conv (if f.fmt = 0 then v else fp8Decode (f.fmt = 2) fp32 v)))
    else
      let r := w.bytes f (blockVa f va) f.slotBytes
      if f.blockOk r.1 then (r.2, some (conv (f.element r.1 (elemIndex f va % f.blkElems))))
      else ({ r.2 with err := some (formatEvent 0x03 0) }, none)

/-- Tile element i loaded into the buffer, or zeros out of extent (R317). -/
def Work.load (w : Work) (i : Nat) : Work :=
  if w.c.inExtent i then
    match w.loadElem i with
    | (w, some v) => { w with s := w.s.putBuf w.c (w.s.bufAddr w.c i) (leBytes w.c.dsize v) }
    | (w, none) => w
  else { w with s := w.s.putBuf w.c (w.s.bufAddr w.c i) (List.replicate w.c.dsize 0) }

/-- Tile element i stored to a PLAIN or FP8 page (R188, R317 to R319). -/
def Work.store (w : Work) (i : Nat) : Work :=
  if w.c.inExtent i then
    match w.s.elemLeaf w.c i with
    | .error e => { w with err := some e }
    | .ok (va, f) =>
      let v := w.s.bufNat w.c i
      let D := etyFmt w.c.dty
      let bytes : List Byte :=
        if f.fmt = 0 then leBytes w.c.esize (convertTo D (etyFmt w.c.ety) v)
        else [BitVec.ofNat 8 (fp8Encode (f.fmt = 2) (D.getD fp32) v)]
      w.put f 2 va bytes
  else w

/-- Does tile element i begin an 8-byte word of the buffer that the element before it does not touch, so that a step may end
before it (R313; log entry 93)? -/
def State.wordEnd (s : State) (c : Cmd) (i : Nat) : Bool :=
  decide (i = 0) || decide ((s.bufAddr c (i - 1) + c.dsize - 1) / 8 < s.bufAddr c i / 8)

/-- How many elements a step asks for: with those to the end of its last buffer word, up to 4,096 bytes of the buffer side
(R326). -/
def askedElems (dsize free : Nat) : Nat := free % (4088 / dsize + 1) + 1

/-- Elements of a tile while none fails: as many as are asked for, and on to the end of a buffer word, up to a limit (R313,
R326). -/
def Work.elements (w : Work) (f : Work → Nat → Work) (asked : Nat) : Nat → Work
  | 0 => w
  | n + 1 =>
    if w.err.isSome ∨ w.c.total ≤ w.c.prog ∨ (asked = 0 ∧ w.s.wordEnd w.c w.c.prog) then w
    else
      let x := f w w.c.prog
      Work.elements (if x.err.isSome then x else { x with c := { x.c with prog := x.c.prog + 1 } }) f (asked - 1) n

/-- Elements of a tile read from the buffer, likewise. -/
def Work.gather (w : Work) (asked : Nat) : Nat → Work
  | 0 => w
  | n + 1 =>
    let i := w.c.vals.length
    if w.c.elems ≤ i ∨ (asked = 0 ∧ w.s.wordEnd w.c i) then w
    else Work.gather { w with c := { w.c with vals := w.c.vals ++ [w.s.bufNat w.c i] } } (asked - 1) n

/-- The in-extent elements of a tile with their addresses and leaves; the errors of those that fail. -/
def State.tilePlaces (s : State) (c : Cmd) : List (Nat × Nat × Leaf) × List Event :=
  (List.range c.elems).foldl (fun (r : List (Nat × Nat × Leaf) × List Event) i =>
    if c.inExtent i then
      match s.elemLeaf c i with
      | .ok p => (r.1 ++ [(i, p.1, p.2)], r.2)
      | .error e => (r.1, r.2 ++ [e])
    else r) ([], [])

/-- The blocks of a tile in order of their first element: the block's address, its leaf, and for each of its elements the
tile element that supplies it. -/
def blocksOf (ps : List (Nat × Nat × Leaf)) : List (Nat × Leaf × List (Nat × Nat)) :=
  ps.foldl (fun bs p =>
    let b := blockVa p.2.2 p.2.1
    let e := (elemIndex p.2.2 p.2.1 % p.2.2.blkElems, p.1)
    if bs.any (fun x => x.1 = b) then
      bs.map (fun x => if x.1 = b then (x.1, x.2.1, x.2.2.filter (fun y => y.1 ≠ e.1) ++ [e]) else x)
    else bs ++ [(b, p.2.2, [e])]) []

/-- The values of a block's elements as read from the buffer, as encodings of a format (R322, R323). -/
def Cmd.blockElems (c : Cmd) (F : Fmt) (B : Nat) (es : List (Nat × Nat)) : List Nat :=
  (List.range B).map (fun k =>
    match es.find? (fun e => e.1 = k) with
    | some e => convertTo (etyFmt c.dty) (some F) (c.vals.getD e.2 0)
    | none => 0)

/-- The values of a block's elements as the buffer held them, unrounded (R322). -/
def Cmd.blockVals (c : Cmd) (B : Nat) (es : List (Nat × Nat)) : List FVal :=
  (List.range B).map (fun k =>
    match es.find? (fun e => e.1 = k), etyFmt c.dty with
    | some e, some D => D.value (c.vals.getD e.2 0)
    | _, _ => .fin false 0 0)

/-- The bytes of a block (R322, R323). -/
def Cmd.encodeBlock (c : Cmd) (f : Leaf) (es : List (Nat × Nat)) : List Byte :=
  if f.fmt ≤ 9 then bfpEncode f.mant (c.blockVals f.blkElems es)
  else f.bmvEncode (c.blockElems (bmvFmt f.fmt) f.blkElems es)

/-- The checks of a store to BFP or BMV pages, all of them before any write (R319, R322 to R324). -/
def Work.blockChecks (w : Work) (ps : List (Nat × Nat × Leaf) × List Event) (bs : List (Nat × Leaf × List (Nat × Nat))) : Work :=
  match w.s.oneOf ps.2 with
  | some e => { w with s := w.s.drawn, err := some e }
  | none =>
    if bs.any (fun b => decide (b.2.2.length ≠ b.2.1.blkElems)) then { w with err := some (formatEvent 0x04 0) }
    else
      let nnz (b : Nat × Leaf × List (Nat × Nat)) : Nat :=
        if b.2.1.fmt ≤ 9 then 0 else b.2.1.nonzero (w.c.blockElems (bmvFmt b.2.1.fmt) b.2.1.blkElems b.2.2)
      let cap (b : Nat × Leaf × List (Nat × Nat)) : Nat := if b.2.1.fmt ≤ 9 then 0 else b.2.1.bmvV
      match ((List.range bs.length).zip bs).find? (fun p => decide (cap p.2 < nnz p.2)) with
      | some p =>
        { w with err := some { cause := 0x09, sub := 0x01, info0 := BitVec.ofNat 64 (p.1 * 2 ^ 32 + nnz p.2) } }
      | none => w

/-- The next block written where its elements still lie, or the error of one of them that has since become unreachable (R311,
R322, R323); the last block ends the command. -/
def Work.putBlock (w : Work) (count : Nat) (b : Nat × Leaf × List (Nat × Nat)) : Work :=
  let now : Except Event (Nat × Leaf) := match b.2.2 with
    | e :: _ => w.s.elemLeaf w.c e.2
    | [] => .ok (b.1, b.2.1)
  match w.err, now with
  | some _, _ => w
  | none, .error e => { w with err := some e }
  | none, .ok p =>
    let bytes := w.c.encodeBlock b.2.1 b.2.2
    let y := w.put p.2 (bytes.length / 64 + 2) b.1 bytes
    { y with c := { y.c with
        kept := y.c.kept + 1, prog := if y.c.kept + 1 = count then y.c.total else y.c.prog + b.2.2.length } }

/-- A store of a tile to BFP or BMV pages (R319, R322 to R324, R326): step by step the elements are read from the buffer;
then come the checks, which find the places of the blocks, and then the blocks are written, `kept` counting them, up to 4,096
buffer bytes a step. -/
def Work.storeBlocks (w : Work) (n : Nat) : Work :=
  if w.c.vals.length < w.c.elems then w.gather n w.c.elems
  else
    let ps := if w.c.kept = 0 then w.s.tilePlaces w.c else (w.c.places, [])
    let bs := blocksOf ps.1
    let x := if w.c.kept = 0 then w.blockChecks ps bs else w
    if x.err.isSome then x
    else if bs = [] then { x with c := { x.c with prog := x.c.total } }
    else
      let some' := Nat.max 1 (n / Nat.max 1 (((bs.head?).map (fun b => b.2.1.blkElems)).getD 1))
      ((bs.drop x.c.kept).take some').foldl (fun (x : Work) b => x.putBlock bs.length b)
        { x with c := { x.c with places := ps.1 } }

/-- A source line of the tile read ahead: lines are read at independent moments (R313). -/
def Work.readAhead (w : Work) (i : Nat) : Work :=
  if ¬w.c.inExtent i then w
  else
    match w.s.elemLeaf w.c i with
    | .ok (va, f) =>
      if f.fmt ≤ 2 then (w.bytes f va w.c.esize).2 else (w.bytes f (blockVa f va) f.slotBytes).2
    | .error _ => w

/-- A step of a tile command: up to 4,096 bytes of the buffer side (R326); an element that fails ends the command with
the error of one of its elements. -/
def Work.tileStep (w : Work) : Work :=
  let n := askedElems w.c.dsize (Config.number w.s.draws)
  let ahead := Config.number (w.s.draws + 1)
  let w := { w with s := w.s.drawn.drawn }
  let x :=
    if w.c.stores then
      (if 3 ≤ w.c.fmt then w.storeBlocks n else w.elements Work.store n w.c.elems)
    else
      (if ahead % 2 = 0 then w else w.readAhead (ahead / 2 % w.c.elems)).elements Work.load n w.c.elems
  match x.err with
  | none => x
  | some _ =>
    match x.s.oneOf (x.s.tilePlaces x.c).2 with
    | some e => { x with s := x.s.drawn, err := some e }
    | none => x

/-! ### LCOPY (R325) -/

/-- A step of LCOPY: a free number of 8-byte words, up to 4,096 bytes. -/
def Work.copyWords (w : Work) : Nat → Work
  | 0 => w
  | n + 1 =>
    if w.err.isSome ∨ w.c.total ≤ w.c.prog then w
    else
      let src := (w.c.f 8 8 + w.c.prog) % 2 ^ 64
      let dst := (w.c.f 0x10 8 + w.c.prog) % 2 ^ 64
      match w.s.engReadErr w.c src, w.s.engLeaf w.c src, w.s.engLeaf w.c dst with
      | some e, _, _ => { w with err := some e }
      | none, .ok f, .ok g =>
        if ¬g.w then { w with err := some (protEvent 0x02 0) }
        else if g.fmt ≠ 0 then { w with err := some (formatEvent 0x01 0) }
        else
          let r := w.bytes f src 8
          let x := r.2.put g 2 dst r.1
          Work.copyWords { x with c := { x.c with prog := x.c.prog + 8 } } n
      | _, .fail e, _ => { w with err := some (pageEvent e 0 0) }
      | _, _, .fail e => { w with err := some (pageEvent e 0 1) }

/-- A step of LCOPY, with a source line read ahead at will (R313, R326). -/
def Work.copyStep (w : Work) : Work :=
  let n := Config.number w.s.draws % 512 + 1
  let ahead := Config.number (w.s.draws + 1)
  let w := { w with s := w.s.drawn.drawn }
  let src := (w.c.f 8 8 + ahead / 2 % w.c.total) % 2 ^ 64
  let w := if ahead % 2 = 0 then w else
    match w.s.engReadErr w.c src, w.s.engLeaf w.c src with
    | none, .ok f => (w.line (f.key src)).2
    | _, _ => w
  w.copyWords n

/-! ### CONDENSE (R331, R332) -/

/-- A step of CONDENSE: one row of one pass scanned or packed; the map is written with the last pass (R326, R332). -/
def Work.condStep (w : Work) : Work :=
  match parseCondense w.c.bytes with
  | none => { w with err := some badCommand }
  | some x =>
    let j := w.c.prog
    let core := w.c.core
    let last (w : Work) : Work :=
      let c := { w.c with prog := j + 1, sub := 0 }
      if c.prog = c.total then { w with s := w.s.putScratch core x.mout (leBytes 8 c.kept), c := c } else { w with c := c }
    if w.c.sub < x.rows then
      let hit := decide (x.keep / 2 ^ j % 2 = 1) || w.s.condNonzero core x j w.c.sub
      if hit then { w with c := { w.c with kept := w.c.kept + 2 ^ j, sub := x.rows } }
      else if w.c.sub + 1 = x.rows then last w
      else { w with c := { w.c with sub := w.c.sub + 1 } }
    else
      let row := w.c.sub - x.rows
      let w := { w with s := w.s.condPack core x (popBelow w.c.kept j) j row }
      if row + 1 = x.rows then last w else { w with c := { w.c with sub := w.c.sub + 1 } }

/-! ### DISPATCH (R333 to R335) -/

/-- Eight or sixteen bytes of a table of a DISPATCH. -/
def Work.table (w : Work) (va n : Nat) : List Byte × Work :=
  match w.s.engReadErr w.c va, w.s.engLeaf w.c va with
  | none, .ok f => w.bytes f va n
  | some e, _ => ([], { w with err := some e })
  | none, .fail e => ([], { w with err := some (pageEvent e 0 0) })

/-- The token at NEXT passed over, with the error noted for the lowest such token (R334). -/
def Work.skipToken (w : Work) (note : Option (BitVec 8 × BitVec 8)) : Work :=
  { w with c := { w.c with
      prog := w.c.prog + 1, sub := 0, note := match w.c.note with | some n => some n | none => note } }

/-- Part of a token written: up to the end of a line at both sides.  A scratchpad source of a roaming warp, which R333 does not
allow, fails with SCRATCH_BOUNDS 0x01 at the first piece that it is to send (DESIGN CHOICE, log entry 94). -/
def Work.tokenPiece (w : Work) (base stride slot : Nat) : Work :=
  let tb := w.c.f 0x24 4
  let scratch := decide (w.c.f 1 1 = 128)
  let src := w.c.f 8 8 + w.c.prog * w.c.f 0x28 4 + w.c.sub
  let dst := (base + slot * stride + w.c.sub) % 2 ^ 64
  let n := Nat.min (tb - w.c.sub) (Nat.min (64 - src % 64) (64 - dst % 64))
  let r : List Byte × Work :=
    if scratch then
      let a := w.s.scratchRange (w.s.warp w.c.wid) w.c.origin
      if a.1 ≤ src ∧ src + n ≤ a.1 + a.2 then (w.s.scratch.getN unwritten (scratchKey w.c.core src) n, w)
      else ([], { w with err := some (scratchEvent 0x01 0) })
    else w.table (src % 2 ^ 64) n
  if r.2.err.isSome then r.2
  else
    match r.2.s.engLeaf w.c dst with
    | .fail e => { r.2 with err := some (pageEvent e 0 1) }
    | .ok g =>
      if ¬g.w then { r.2 with err := some (protEvent 0x02 0) }
      else if g.fmt ≠ 0 then { r.2 with err := some (formatEvent 0x01 0) }
      else
        let x := r.2.put g 2 dst r.1
        { x with c := { x.c with sub := x.c.sub + n } }

/-- One move of a DISPATCH on the token at NEXT: its route and peer read, and it is skipped, or a piece of it sent. -/
def Work.tokenMove (w : Work) : Work :=
  let e := w.table ((w.c.f 0x10 8 + 8 * w.c.prog) % 2 ^ 64) 8
  if e.2.err.isSome then e.2
  else
    let x := leNat e.1
    let p := x % 256
    if p = 255 then e.2.skipToken none
    else if x / 2 ^ 40 ≠ 0 ∨ 15 < p then e.2.skipToken (some (0x01, 0x0A))
    else
      let t := e.2.table ((w.c.f 0x18 8 + 16 * p) % 2 ^ 64) 16
      if t.2.err.isSome then t.2
      else
        let slot := x / 2 ^ 8 % 2 ^ 32
        if cmdField t.1 12 4 ≤ slot then t.2.skipToken (some (0x07, 0x08))
        else
          let y := t.2.tokenPiece (cmdField t.1 0 8) (cmdField t.1 8 4) slot
          if y.err.isSome ∨ y.c.sub < y.c.f 0x24 4 then y
          else { y with c := { y.c with
                    prog := y.c.prog + 1, sub := 0, sent := y.c.sent.upd 0 p (· + y.c.f 0x24 4) } }

/-- A free number of moves of a DISPATCH, within one token and below a byte of it 4,096 bytes on (R326). -/
def Work.dispatchStep (w : Work) (stop : Nat) : Nat → Work
  | 0 => w
  | n + 1 =>
    if w.err.isSome ∨ w.c.total ≤ w.c.prog ∨ stop < w.c.sub + 64 then w
    else
      let x := w.tokenMove
      if x.c.prog ≠ w.c.prog then x else x.dispatchStep stop n

/-! ### One step of an engine (R304, R326) -/

/-- Does an MCOND of the partition, issued before a command was pushed, still wait to read its source (R362, R375)? -/
def State.condAhead (s : State) (c : Cmd) : Bool :=
  s.warps.any (fun x => decide (x.2.partId = 2 * c.core + c.part) && x.2.liveLanes.any (fun L => x.2.inMcond L &&
    (match (x.2.lane L).wait with | some k => decide (k.serial ≤ c.matrix) | none => false)))

/-- Are the FENCE conditions of R307 met for a queued command, and the partition's earlier matrix work done (R362, R375)? -/
def State.cmdReady (s : State) (c : Cmd) : Bool :=
  !s.condAhead c && !s.coreWrites c.core c.serial &&
    c.writers.all (fun t => !s.governedOf t c.serial && !s.writesOf t c.serial) &&
    !((s.matPending (2 * c.core + c.part)).any (fun o => decide (o.serial ≤ c.matrix)))

/-- Does a started command wait for a slot of its circular buffer (R320)? -/
def State.cmdBlocked (s : State) (c : Cmd) : Bool :=
  decide (c.st = .running) && decide (c.opc ≤ 4) && c.cb && c.slot.isNone && decide ((s.cmdCb c).free = 0)

/-- A launch whose commands run: neither in grace nor parked (R400). -/
def Launch.feeds (l : Launch) : Bool := decide (l.st ≠ .grace) && decide (l.st ≠ .parked)

/-- The command that an engine works on next (R304): of each launch the first that has neither retired nor been paused;
of those that run or may start, the one whose launch ranks first (R393), the earlier entry.  An engine whose command is
blocked works on nothing. -/
def State.engineNext (s : State) (e : EngineKind) (unit : Nat) : Option Cmd :=
  let mine := s.cmds.filter (fun c =>
    decide (c.engine = e) && decide (c.unit = unit) && decide (c.st ≠ .paused))
  let firsts := mine.filter (fun c => mine.all (fun x => decide (x.launch ≠ c.launch) || decide (c.serial ≤ x.serial)))
  let able := firsts.filter (fun c =>
    (decide (c.st = .running) || (decide (c.st = .queued) && s.cmdReady c)) && (s.launch c.launch).feeds)
  if mine.any s.cmdBlocked then none
  else
    minBy (fun c => (s.launch c.launch).rank) able

/-- The lines that hold the memory side of a tile element. -/
def State.elemLines (s : State) (c : Cmd) (i : Nat) : List Nat :=
  if !c.inExtent i then []
  else
    match s.elemLeaf c i with
    | .error _ => []
    | .ok (va, f) =>
      let a := if f.fmt ≤ 2 then va else blockVa f va
      let n := if f.fmt ≤ 2 then c.esize else f.slotBytes
      (List.range ((a + n + 63) / 64 - a / 64)).map (fun k => lineOf (f.key (64 * (a / 64 + k))))

/-- A join sent to the coordinator, the home of the line of the tile's first in-extent element (R329). -/
def State.sendJoin (s : State) (c : Cmd) : State :=
  let t := s.putCmd { c with st := .joined }
  let j : McJoin :=
    { cmd := c.serial, core := c.core, dom := c.dom, home := homeOf (64 * ((s.elemLines c 0).headD 0)),
      desc := c.record ++ (c.bytes.drop 0x10).take 16 ++ [c.bytes.getD 2 0] ++ (c.bytes.drop 0x2C).take 6,
      key := BitVec.ofNat 32 (c.f 0x28 4) }
  { t with mjoins := t.mjoins ++ [j] }

/-- A command started: its checks made, its weight-buffer half taken over (R309, R321, R329). -/
def State.startCmd (s : State) (c : Cmd) : State :=
  match s.startCheck c with
  | (s, .error e) => s.finishCmd c (some e)
  | (s, .ok c) =>
    let c := { c with st := .running }
    let s := if c.opc ≤ 4 ∧ c.wb then s.takeHalf (2 * c.core + c.part) c.holder else s
    if c.opc = 4 ∧ c.inExtent 0 ∧ ¬c.cb then s.sendJoin c else s.putCmd c

/-- A slot of the circular buffer begun (R196, R320). -/
def State.takeSlot (s : State) (c : Cmd) : State :=
  let b := s.cmdCb c
  let c' := { c with slot := some b.tail }
  let s := s.updGroup c.group (fun g =>
    { g with cbufs := g.cbufs.set {} c.buf { b with free := b.free - 1, tail := (b.tail + 1) % b.nslots } })
  if c.opc = 4 ∧ c.inExtent 0 then s.sendJoin c' else s.putCmd c'

/-- One step of a running command. -/
def State.runCmd (s : State) (c : Cmd) : State :=
  if c.opc ≤ 4 ∧ c.cb ∧ c.slot.isNone then (if (s.cmdCb c).free = 0 then s else s.takeSlot c)
  else
    let w : Work := { s := s, c := c }
    let x :=
      if c.opc ≤ 4 then w.tileStep
      else if c.opc = 5 then w.copyStep
      else if c.opc = 0x10 then w.condStep
      else ({ w with s := w.s.drawn } : Work).dispatchStep (c.sub + 4096) (Config.number s.draws % 192 + 1)
    match x.err with
    | some e => x.s.finishCmd x.c (some e)
    | none =>
      if x.c.prog = x.c.total then x.s.completeCmd x.c
      else let y := x.s.chargeCmd x.c; y.1.putCmd y.2

/-- The core whose condensing unit an MCOND occupies, where one waits there: MCOND goes ahead of queued commands (R375). -/
def State.condBusy (s : State) (e : EngineKind) (core : Nat) : Bool :=
  decide (e = .cond) && s.warps.any (fun x => decide (x.2.core = core) && x.2.liveLanes.any x.2.inMcond)

/-- One step of an engine: of the MCOND that waits for the condensing unit, else of a command. -/
def State.engine (s : State) (e : EngineKind) (unit : Nat) : State :=
  if s.condBusy e unit then s.condTorn (fun x => x.2.core = unit)
  else
    match s.engineNext e unit with
    | none => s
    | some c => if c.st = .queued then s.startCmd c else s.runCmd c

/-- ENGINE_STEP (R326). -/
def execEngineStep (e : EngineKind) (unit : Nat) (s : State) : Host.Outcome State Fault Refusal := .next (s.engine e unit)

/-- An engine's command of one opcode run until it ends, blocks or joins; other commands do not interleave. -/
def State.engineRun (s : State) (serial : Nat) : Nat → State
  | 0 => s
  | fuel + 1 =>
    match s.cmds.find? (fun c => decide (c.serial = serial) && decide (c.st = .running)) with
    | none => s
    | some c => if s.cmdBlocked c then s else State.engineRun (s.runCmd c) serial fuel

/-- The steps that a command may still take: one for every element, word, row and piece. -/
def Cmd.moves (c : Cmd) : Nat :=
  if c.opc ≤ 4 then 2 * c.elems + 2
  else if c.opc = 5 then c.f 0x18 4 / 8
  else if c.opc = 0x10 then 2 * c.f 0x10 2 * c.f 0x14 1
  else c.f 0x20 4 * (c.f 0x24 4 + 1)

/-- The command that an engine works on next, of one opcode, run to its end. -/
def State.engineWhole (s : State) (e : EngineKind) (unit opc : Nat) : State :=
  match (if s.condBusy e unit then none else s.engineNext e unit) with
  | none => s
  | some c =>
    if c.opc ≠ opc then s
    else
      let s1 := if c.st = .queued then s.startCmd c else s
      match s1.cmds.find? (fun x => x.serial = c.serial) with
      | some c1 => s1.engineRun c.serial c1.moves
      | none => s1

/-- TLOAD (R317): the copy engine's TLOAD from its start to its end. -/
def execTload (core : Nat) (s : State) : Host.Outcome State Fault Refusal := .next (s.engineWhole .copy core 1)
/-- TSTORE (R317). -/
def execTstore (core : Nat) (s : State) : Host.Outcome State Fault Refusal := .next (s.engineWhole .copy core 2)
/-- AREAD (R317). -/
def execAread (core : Nat) (s : State) : Host.Outcome State Fault Refusal := .next (s.engineWhole .copy core 3)
/-- MCAST (R329): the receiver's checks and its join. -/
def execMcast (core : Nat) (s : State) : Host.Outcome State Fault Refusal := .next (s.engineWhole .copy core 4)
/-- LCOPY (R325). -/
def execLcopy (core : Nat) (s : State) : Host.Outcome State Fault Refusal := .next (s.engineWhole .copy core 5)
/-- CONDENSE (R332). -/
def execCondense (core : Nat) (s : State) : Host.Outcome State Fault Refusal := .next (s.engineWhole .cond core 0x10)
/-- DISPATCH (R334). -/
def execDispatch (cluster : Nat) (s : State) : Host.Outcome State Fault Refusal := .next (s.engineWhole .disp cluster 0x20)

/-! ### Retirement (R233, R306) -/

/-- DONE and CE advanced over the numbers retired without a gap (R233). -/
def Timeline.advance (t : Timeline) : Nat → Timeline
  | 0 => t
  | fuel + 1 =>
    match t.retired.find? (fun r => r.1 = t.done + 1) with
    | none => t
    | some r =>
      Timeline.advance { t with
        done := t.done + 1, ce := BitVec.ofNat 64 (Nat.max t.ce.toNat r.2), retired := t.retired.filter (· ≠ r) } fuel

/-- An operation retired in its context (R233). -/
def Timeline.retire (t : Timeline) (n c : Nat) (e : Option TlErr) : Timeline :=
  let t1 := { t with retired := t.retired ++ [(n, c)], errq := t.errq ++ e.toList }
  t1.advance t1.retired.length

/-- The words of a timeline context in a save area (R259). -/
def Timeline.image (t : Timeline) : List Byte :=
  leBytes 8 t.issued ++ leBytes 8 t.done ++ leBytes 8 t.ce.toNat ++ leBytes 8 t.errq.length ++
    ((t.errq.flatMap (fun (e : TlErr) => leBytes 8 e.n ++ leBytes 8 (e.sub.toNat * 256 + e.cause.toNat))) ++
      List.replicate 256 0).take 256

/-- A timeline context changed, of a resident workgroup or of a saved one, whose save area follows (R259, R263). -/
def State.updTimeline (s : State) (g k : Nat) (f : Timeline → Timeline) : State :=
  if (s.group g).live then s.setTimeline g k (f (s.timeline g k))
  else
    match s.saved.find? (fun c => !c.roaming && c.warps.any (fun w => w.2.group = g)) with
    | none => s
    | some c =>
      let t := f (c.group.tls.get {} k)
      let s1 : State := { s with saved := s.saved.map (fun x =>
        if x.id = c.id then { x with group := { x.group with tls := x.group.tls.set {} k t } } else x) }
      s1.writeSpan c.group.dom 8 (c.base.toNat + 0x180 + 288 * k) t.image

/-- The report of an untracked command that failed (R306). -/
def State.reportCmd (s : State) (c : Cmd) (e : TlErr) : State :=
  let f : Frag :=
    { id := 0, lanes := (match c.lane with | some L => laneBit L | none => 0), sib := 0, parent := 0, slot := 0,
      st := .pending, ev := { cause := e.cause, sub := e.sub, info0 := e.info0 }, entry := 2, origin := c.origin,
      word := c.word, pc := c.pc, origpc := c.origpc, iter := c.iter, time := BitVec.ofNat 64 c.failAt }
  let w : Warp := { core := c.core, part := c.part, slot := c.wslot, launch := c.launch, dom := c.dom }
  (s.drawn).post c.dom 5 (List.replicate 128 0 ++ frameBytes w f)

/-- A finished command retires: its writes are applied, its number or its unit is accounted for (R233, R297, R306). -/
def State.retireCmd (s : State) (c : Cmd) : State :=
  let s : State := { s with cmds := s.cmds.filter (fun x => x.serial ≠ c.serial) }
  let s := s.updLaunch c.launch (fun l => { l with endC := Nat.max l.endC c.cmax.toNat })
  let s :=
    match c.track with
    | some (k, n) => s.updTimeline c.group k (fun t => t.retire n c.cmax.toNat c.error)
    | none => ((match c.error with | some e => s.reportCmd c e | none => s)).subUnits c.launch 1
  s.reap c.wid

/-- COMMAND_RETIRE: the k-th command that has ended retires (R233, R308). -/
def execCommandRetire (k : Nat) (s : State) : Host.Outcome State Fault Refusal :=
  .next (match (s.cmds.filter (fun c => c.st = .finished))[k]? with
    | none => s
    | some c => s.retireCmd c)

/-! ### Multicast groups (R330) -/

/-- The core bits of the members that have joined. -/
def McGroup.joined (g : McGroup) : BitVec 16 := g.members.foldl (fun m x => m ||| BitVec.ofNat 16 (2 ^ (x.core % 16))) 0

/-- Have all of MASK joined? -/
def McGroup.whole (g : McGroup) : Bool := decide (g.mask &&& ~~~g.joined = 0)

/-- The command of a member that is attached to its group: joined, neither finished nor paused. -/
def State.attached (s : State) (m : McMember) : Option Cmd :=
  s.cmds.find? (fun c => decide (c.serial = m.cmd) && decide (c.st = .joined))

/-- Tile elements of a group: those of its members' common description (R330). -/
def State.mcTotal (s : State) (g : McGroup) : Nat :=
  match s.cmds.find? (fun c => g.members.any (fun m => m.cmd = c.serial)) with
  | some c => c.total
  | none => 0

/-- A group replaced. -/
def State.putMc (s : State) (g : McGroup) : State := { s with mgroups := s.mgroups.map (fun x => if x.id = g.id then g else x) }

/-- A group ended by a fault on a source line: every joined member retires with it (R330). -/
def State.failMc (s : State) (g : McGroup) (e : Event) : State :=
  let ms := s.cmds.filter (fun c => g.members.any (fun m => m.cmd = c.serial) && decide (c.st ≠ .finished))
  ms.foldl (fun (t : State) c => t.finishCmd c (some e)) { s with mgroups := s.mgroups.filter (fun x => x.id ≠ g.id) }

/-- A line read for a group: where it is tagged for the launch of a member attached at that moment, the read is its
consumer's (R234). -/
def State.readForGroup (s : State) (g : McGroup) (line : Nat) : State :=
  if g.members.any (fun m => match s.attached m, s.tagOf line with
    | some c, some k => decide (k ≠ 0) && decide (c.launch = k)
    | _, _ => false) then s.dropLine line
  else s

/-- Tile element i written at one member, from lines at hand or read at their homes for the group (R234, R317, R330): the
state, the lines at hand, and why it failed. -/
def State.mcWrite (s : State) (g : McGroup) (c : Cmd) (lines : List (Nat × List Byte)) (i : Nat) :
    State × List (Nat × List Byte) × Option Event :=
  let used := s.elemLines c i
  let own := c.lines
  let x := ({ s := s, c := { c with lines := own ++ lines.filter (fun l => !own.any (fun o => o.1 = l.1)) } } : Work).load i
  let read := x.c.lines.filter (fun l => !own.any (fun o => o.1 = l.1))
  let fresh := read.filter (fun l => !lines.any (fun o => o.1 = l.1))
  let s1 := (fresh.map (·.1)).foldl (fun (t : State) l => t.readForGroup g l) x.s
  match x.err with
  | some e => (s1, lines, some e)
  | none =>
    let y := s1.chargeCmd { x.c with lines := own ++ read.filter (fun l => used.contains l.1), prog := c.prog + 1 }
    (y.1.putCmd y.2, lines ++ fresh, none)

/-- One tile element streamed: each line is read once, and every attached member writes its own destination; a member that is
away misses it (R330). -/
def State.mcElement (s : State) (g : McGroup) : State × McGroup × Option Event :=
  let i := g.pos
  let r := g.members.foldl (fun (r : State × List McMember × List (Nat × List Byte) × Option Event) m =>
    match r.2.2.2, r.1.attached m with
    | some _, _ => r
    | none, none => (r.1, r.2.1 ++ [{ m with missed := m.missed ++ [(i, i + 1)] }], r.2.2.1, none)
    | none, some c =>
      let x := r.1.mcWrite g c r.2.2.1 i
      (x.1, r.2.1 ++ [m], x.2.1, x.2.2)) (s, [], g.lines, none)
  (r.1, { g with pos := i + 1, members := r.2.1, lines := r.2.2.1 }, r.2.2.2)

/-- Elements of a group streamed, as many as are asked for and on to the end of a buffer word, up to a limit (R313, R326). -/
def State.streamMc (s : State) (g : McGroup) (asked : Nat) : Nat → State
  | 0 => s.putMc g
  | n + 1 =>
    if s.mcTotal g ≤ g.pos ∨ (asked = 0 ∧ (g.members.filterMap s.attached).all (fun c => s.wordEnd c g.pos)) then s.putMc g
    else
      let x := s.mcElement g
      match x.2.2 with
      | some e => x.1.failMc g e
      | none => x.1.streamMc x.2.1 (asked - 1) n

/-- The first attached member with elements that it missed, and the first of them. -/
def State.mcReplay (s : State) (g : McGroup) : Option (McMember × Cmd × Nat) :=
  g.members.findSome? (fun m =>
    match s.attached m, m.missed with
    | some c, r :: _ => some (m, c, r.1)
    | _, _ => none)

/-- Elements that members missed, replayed to each alone: its lines are read again, but for those it has of the stream
(R330). -/
def State.replayMc (s : State) (g : McGroup) (asked : Nat) : Nat → State
  | 0 => s.putMc g
  | n + 1 =>
    match s.mcReplay g with
    | none => s.putMc g
    | some (m, c, i) =>
      if asked = 0 ∧ s.wordEnd c i then s.putMc g
      else
        let x := s.mcWrite g c [] i
        match x.2.2 with
        | some e => x.1.failMc g e
        | none =>
          let rest := match m.missed with
            | r :: t => if i + 1 < r.2 then (i + 1, r.2) :: t else t
            | [] => []
          x.1.replayMc { g with members := g.members.map (fun y => if y.cmd = m.cmd then { y with missed := rest } else y) }
            (asked - 1) n

/-- MCAST_JOIN: the k-th join reaches its coordinator (R330): a new group, a member, a late joiner, or a member turned away.
The merge window and the start delay run by the coordinator's local time. -/
def execMcastJoin (k : Nat) (s : State) : Host.Outcome State Fault Refusal :=
  .next (match s.mjoins[k]? with
    | none => s
    | some j =>
      let s1 : State := { s with mjoins := removeAt s.mjoins k }
      let cl := clusterOf j.core
      let now := s.homeTime j.home
      match s1.cmds.find? (fun c => decide (c.serial = j.cmd) && decide (c.st ≠ .finished)) with
      | none => s1
      | some c =>
        match s1.mgroups.find? (fun g =>
          decide (g.key = j.key) && decide (g.dom = j.dom) && decide (g.cluster = cl) && decide (g.home = j.home)) with
        | none =>
          let g : McGroup :=
            { id := s1.serial, home := j.home, dom := j.dom, cluster := cl, desc := j.desc, key := j.key,
              mask := BitVec.ofNat 16 (c.f 0x2C 2), members := [{ cmd := j.cmd, core := j.core }],
              streamAt := now + 250 * c.f 0x30 2, closeAt := now + 250 * c.f 0x2E 2 }
          { s1 with mgroups := s1.mgroups ++ [g], serial := s1.serial + 1 }
        | some g =>
          if g.desc ≠ j.desc then
            s1.finishCmd c (some { cause := 0x0A, sub := 0x02, info0 := BitVec.ofNat 64 (2 ^ (j.core % 16)) })
          else
            let me : McMember := { cmd := j.cmd, core := j.core, missed := if g.pos = 0 then [] else [(0, g.pos)] }
            s1.putMc { g with members := g.members ++ [me] })

/-- MCAST_STREAM_START: the k-th open group starts to stream once every member has joined or its start delay has passed;
then it streams on, up to 4,096 buffer bytes a step, and at the end it replays to members what they missed (R326, R330). -/
def execMcastStreamStart (k : Nat) (s : State) : Host.Outcome State Fault Refusal :=
  .next (match s.mgroups[k]? with
    | none => s
    | some g =>
      if g.streaming ∨ g.whole ∨ g.streamAt ≤ s.homeTime g.home then
        let size := Nat.max 1 (((s.cmds.find? (fun c => g.members.any (fun m => m.cmd = c.serial))).map (·.dsize)).getD 1)
        let n := askedElems size (Config.number s.draws)
        let g' := { g with streaming := true }
        if g.pos < s.mcTotal g then s.drawn.streamMc g' n (s.mcTotal g) else s.drawn.replayMc g' n (s.mcTotal g)
      else s)

/-- MCAST_GROUP_CLOSE: the k-th group closes once it is served and complete or its window has passed: its members retire
(R330). -/
def execMcastGroupClose (k : Nat) (s : State) : Host.Outcome State Fault Refusal :=
  .next (match s.mgroups[k]? with
    | none => s
    | some g =>
      let ms := s.cmds.filter (fun c => g.members.any (fun m => m.cmd = c.serial) && decide (c.st ≠ .finished))
      if g.streaming ∧ s.mcTotal g ≤ g.pos ∧ ms.all (fun c => decide (c.prog = c.total) && decide (c.st = .joined)) ∧
          (g.whole ∨ g.closeAt ≤ s.homeTime g.home) then
        let failing := g.failed ||| (g.mask &&& ~~~g.joined)
        let s1 : State := { s with mgroups := s.mgroups.filter (fun x => x.id ≠ g.id) }
        ms.foldl (fun (t : State) c =>
          if failing = 0 then t.completeCmd c
          else
            let t1 := t.completeCmd c
            match t1.cmds.find? (fun x => x.serial = c.serial) with
            | some x => t1.finishCmd x (some { cause := 0x0A, sub := 0x01, info0 := BitVec.ofNat 64 failing.toNat })
            | none => t1) s1
      else s)

/-! ### Commands stopped and paused (R300, R327) -/

/-- A command stopped by a cancellation: it retires with CANCELLED 0x01, and counts as failed in its group (R300, R330). -/
def State.stopCmd (s : State) (c : Cmd) : State :=
  let s1 := s.finishCmd { c with cancelled := true } (some { cause := 0x12, sub := 0x01 })
  { s1 with
    mjoins := s1.mjoins.filter (fun j => j.cmd ≠ c.serial)
    mgroups := s1.mgroups.map (fun g =>
      if g.members.any (fun m => m.cmd = c.serial) then { g with failed := g.failed ||| BitVec.ofNat 16 (2 ^ (c.core % 16)) }
      else g) }

/-- A command paused: what it has read is discarded, and its progress stands at the last whole unit (R327).  A member of a
multicast group keeps the lines that it has written from, since it writes no line from two reads (R330). -/
def Cmd.pause (c : Cmd) : Cmd :=
  { c with st := .paused, lines := (if c.opc = 4 then c.lines else []), vals := [], sub := 0,
           kept := if c.opc = 0x10 then c.kept % 2 ^ c.prog else c.kept }

/-- Commands that name buffers of a workgroup or warp are paused (R327). -/
def State.pauseCmds (s : State) (mine : Cmd → Bool) : State :=
  { s with cmds := s.cmds.map (fun c =>
      if mine c && c.buffered && decide (c.st ≠ .finished) && decide (c.st ≠ .paused) then c.pause else c) }

/-- A paused command taken back: into its group if it had joined one, into its course if it had started (R327, R330). -/
def State.resumeCmd (s : State) (c : Cmd) : Cmd :=
  { c with st :=
      if s.mjoins.any (fun j => j.cmd = c.serial) || s.mgroups.any (fun g => g.members.any (fun m => m.cmd = c.serial)) then .joined
      else if c.total = 0 then .queued
      else .running }

/-- Paused commands of a workgroup or warp resume from their cursors; one that had begun to write a weight-buffer half takes it
over again (R321, R327). -/
def State.resumeCmds (s : State) (mine : Cmd → Bool) : State :=
  let back := s.cmds.filter (fun c => mine c && decide (c.st = .paused))
  back.foldl (fun (t : State) c => if c.opc ≤ 4 ∧ c.wb ∧ c.total ≠ 0 then t.takeHalf (2 * c.core + c.part) c.holder else t)
    { s with cmds := s.cmds.map (fun c => if mine c && decide (c.st = .paused) then s.resumeCmd c else c) }

/-! ### Matrix operations (R358, R360, R363, R371) -/

/-- MATRIX_OP_START: the operation that waits first at partition k starts, or its members trap (R358). -/
def execMatrixOpStart (k : Nat) (s : State) : Host.Outcome State Fault Refusal := .next (s.matStart k)

/-- MATRIX_OP_COMPLETE: rows of the operation that runs at partition k, a free number of them and at least one, to its end in
the longest case (R360, R363, R371). -/
def execMatrixOpComplete (k : Nat) (s : State) : Host.Outcome State Fault Refusal :=
  .next (s.drawn.matAdvance (Config.number s.draws % 65536 + 1) k)

/-- The matrix context of a saved workgroup lies here (R259, R364). -/
def Saved.matVa (c : Saved) : Nat := c.base.toNat + 0x1400 + 0x6000 * c.group.warps.length + c.group.ssize + 131072

/-- Does a saved context hold a member, paused, of an operation (R363)? -/
def Saved.holdsOp (c : Saved) (o : MatOp) : Bool := c.acc && decide (c.unit.st = .paused) && decide (c.unit.op.start = o.start)

/-- The paused operation of a unit at partition p goes on once no member of it is in a saved context; its rows from the cursor
onward are read again (R363). -/
def State.resumeMat (s : State) (p : Nat) (u : MatUnit) : State :=
  if u.st ≠ .paused ∨ s.saved.any (fun c => c.holdsOp u.op) then s
  else (s.mates u.op p).foldl (fun (t : State) q =>
    t.updMat q (fun v => { v with st := .running, op := { v.op with rows := [] } })) s

/-- The operation that runs at a partition pauses for every member (R363). -/
def State.pauseMat (s : State) (p : Nat) : State :=
  let u := (s.part p).mat
  if u.st = .running then (s.mates u.op p).foldl (fun (t : State) q => t.updMat q (fun v => { v with st := .paused })) s else s

/-- An operation stopped for every member, a saved one in its matrix context (R363, R364). -/
def State.stopMat (s : State) (p : Nat) (o : MatOp) : State :=
  let s1 := (s.mates o p).foldl (fun (t : State) q => t.updMat q (fun u => { u with st := .aborted })) s
  (s.saved.filter (fun c => c.holdsOp o)).foldl (fun (t : State) c =>
    let b := t.peekSaved c c.group.dom c.matVa 1
    let t1 := t.patchSaved c c.group.dom c.matVa (leBytes 1 (b - b % 8 + 5))
    { t1 with saved := t1.saved.map (fun x => if x.id = c.id then { x with unit := { x.unit with st := .aborted } } else x) }) s1

end Sys2Proof.Machine
end

