-- ==== Sys2Proof/Machine/Front.lean ====
section
/-! DEFINITION. The front end's table of launches (spec/14_launch R376 to R391, R407; spec/10_spawn R293 to R300):
launch records and the admission test, graphs and jobs, results, releases, completion counters, cancellation. -/

namespace Sys2Proof.Machine

/-! ### Launch records (R376) -/

/-- A field of a record. -/
def recNat (bs : List Byte) (off n : Nat) : Nat := leNat ((bs.drop off).take n)

/-- Are a record's fields within R376, whatever memory holds (check 1 of R385)? -/
def recordShape (bs : List Byte) : Bool :=
  let f := recNat bs
  let kind := f 0 1
  let flags := f 1 1
  let frame := f 2 1
  let warps := f 3 1
  let scratch := f 4 4 % 2 ^ 21
  let grid := f 0x10 4
  let pcOk (off : Nat) : Bool := pcValid (BitVec.ofNat 64 (f off 8))
  decide (kind < 3) && decide (flags % 4 = 0) && decide (flags / 8 % 4 ≠ 3) &&
  (decide (4 ≤ frame) && decide (frame ≤ 32) || (decide (kind = 0) && decide (frame = 0))) &&
  (if kind = 0 then decide (1 ≤ warps) && decide (warps ≤ 32) else decide (warps = 0)) &&
  decide (f 4 4 / 2 ^ 21 % 16 = 0) && decide (scratch % 8 = 0) && decide (scratch ≤ 1572864) &&
  (decide (kind = 0) || decide (scratch = 0)) && (if kind = 2 then decide (grid = 0) else decide (1 ≤ grid)) &&
  pcOk 0x08 && pcOk 0x38 && pcOk 0x40 && (decide (kind ≠ 0) || decide (f 0x50 8 % 128 = 0)) &&
  decide (f 0x58 8 % 8 = 0) && decide (f 0x60 8 % 8 = 0) && decide (f 0x68 8 / 2 % 4 = 0) &&
  decide (f 0x70 8 / 2 ^ 40 ≠ 0) && decide (f 0x70 8 / 2 ^ 24 % 2 ^ 16 ≠ 0) && decide (f 0x78 8 / 2 ^ 12 % 64 = 0) &&
  (decide (f 0x30 8 = 0) || decide (f 0x20 8 ≤ f 0x18 8 + f 0x30 8)) &&
  (decide (flags / 4 % 2 = 0) || decide (f 0x78 8 / 2 ^ 30 % 2 ^ 12 < f 0x78 8 / 2 ^ 18 % 2 ^ 12))

/-- The fields of a launch record (R376). -/
def parseRecord (bs : List Byte) : Record :=
  let f := recNat bs
  let w (off : Nat) : Word := BitVec.ofNat 64 (f off 8)
  let flags := f 1 1
  let place := f 0x70 8
  let links := f 0x78 8
  { kind := f 0 1 % 4, acc := decide (flags / 128 = 1), list := decide (flags / 64 % 2 = 1),
    pfixed := decide (flags / 32 % 2 = 1), policy := flags / 8 % 4, spl := decide (flags / 4 % 2 = 1), frame := f 2 1 % 64,
    warps := f 3 1 % 64, dom := f 4 4 / 2 ^ 25, scratch := f 4 4 % 2 ^ 21, entry := w 8, grid := f 0x10 4,
    maxlive := f 0x14 4, release := f 0x18 8, deadline := f 0x20 8, budget := f 0x28 8, period := f 0x30 8, traph := w 0x38,
    suph := w 0x40, arg := w 0x48, save := w 0x50, wspbase := w 0x58, cc := w 0x60, gcc := w 0x68,
    seals := decide (f 0x68 8 % 2 = 1), clusters := BitVec.ofNat 24 (place / 2 ^ 40),
    cores := BitVec.ofNat 16 (place / 2 ^ 24), combt := place / 2 ^ 14 % 2 ^ 10, wspstep := place % 2 ^ 14,
    retained := BitVec.ofNat 8 (links / 2 ^ 56), handles := BitVec.ofNat 8 (links / 2 ^ 48), creg := links / 2 ^ 42 % 64,
    first := links / 2 ^ 30 % 2 ^ 12, last := links / 2 ^ 18 % 2 ^ 12, feed := links % 2 ^ 12, ok := recordShape bs }

/-- Does a record name a graph, and at which counter (R376)? -/
def Record.graphVa (r : Record) : Option Word :=
  if r.gcc = 0 then none else some (BitVec.ofNat 64 (r.gcc.toNat / 8 * 8))

/-- Does a virtual address translate in a domain? -/
def State.maps (s : State) (dom va : Nat) : Bool := match s.walk dom va with | .ok _ => true | .fail _ => false

/-- The limits that R293 sets a node's descriptor and its queue, checked at admission. -/
def State.nodeOk (s : State) (dom va : Nat) : Bool :=
  match s.translate dom va, s.nodeAt dom va with
  | .ok f, some d =>
    let home := homeOf (f.key va)
    let lines := (d.qcap * d.recw * 8 + 63) / 64
    let lineOk (i : Nat) : Bool := match s.translate dom (d.qbase + 64 * i) with
      | .ok g => g.w && decide (g.fmt = 0) && decide (homeOf (g.key (d.qbase + 64 * i)) = home)
      | .fail _ => false
    decide (va % 64 = 0) && f.w && decide (f.fmt = 0) && decide (1 ≤ d.recw) && decide (d.recw ≤ 32) && decide (1 ≤ d.tile) &&
      decide (d.tile ≤ 32) && decide (d.tile ≤ d.qcap) && decide (d.qcap ≤ 2 ^ 24) && decide (d.qbase % 64 = 0) &&
      (List.range lines).all lineOk
  | _, _ => false

/-- Check 1 of R385 on a record of a submission in a domain. -/
def State.recordFits (s : State) (dom : Nat) (r : Record) : Bool :=
  r.ok && decide (r.dom = dom) && (s.domain dom).owner.getLsbD 63 && s.maps dom r.cc.toNat &&
    (match r.graphVa with | some va => s.maps dom va.toNat | none => true) &&
    (decide (r.kind ≠ 2) || s.nodeOk dom r.arg.toNat)

/-! ### Densities (R385, R386) -/

/-- A fraction of natural numbers. -/
structure Frac where
  n : Nat
  d : Nat

/-- The sum of two fractions. -/
def Frac.add (a b : Frac) : Frac := ⟨a.n * b.d + b.n * a.d, a.d * b.d⟩
/-- A fraction times a ratio. -/
def Frac.times (a : Frac) (n d : Nat) : Frac := ⟨a.n * n, a.d * d⟩
/-- Is a fraction at most another? -/
def Frac.le (a b : Frac) : Bool := decide (a.n * b.d ≤ b.n * a.d)
/-- The larger of two fractions. -/
def Frac.max (a b : Frac) : Frac := if a.le b then b else a

/-- Dens of R386, from the remaining budget and the times of the current instance; an instance without length, which no admitted
launch has, has no second term. -/
def density (rem rel dl now period budget : Nat) : Frac :=
  let one : Frac := ⟨rem, Nat.max (dl - Nat.max now rel) 1000⟩
  if period = 0 ∨ dl ≤ rel then one else one.max ⟨budget, dl - rel⟩

/-- Dens of an admitted launch (R386). -/
def Launch.density (l : Launch) (now : Nat) : Frac :=
  Machine.density (l.budget - l.charges) l.rel l.dl now l.r.period l.budget

/-- The terms of the internal activities (R382): what an activity has left of its budget is not stated, and is free. -/
def State.innerTerms (s : State) : List (Frac × List Nat) :=
  [(0, 1000000, 2304000), (1, 100000, 23040), (2, 10000000, 460800)].map (fun (a : Nat × Nat × Nat) =>
    let p := a.2.1
    let rel := s.host.runAt + (s.feTime - s.host.runAt) / p * p
    (Machine.density (Config.number (s.draws + a.1) % (a.2.2 + 1)) rel (rel + p) s.feTime p a.2.2, List.range 384))

/-- The launches that count in the sums, but one: those admitted, neither demoted nor parked nor cancelled. -/
def State.counting (s : State) (self : Option Nat) : List Launch :=
  (s.launches.filter (fun e => e.2.live && !e.2.cancelled && decide (e.2.st ≠ .demoted) && decide (e.2.st ≠ .parked) &&
    decide (self ≠ some e.1))).map (·.2)

/-- Members of both of two ascending sets. -/
def meetOf (a b : List Nat) : Nat := (a.filter (fun x => b.contains x)).length

/-- Load of a set of cores (R386). -/
def loadOf (terms : List (Frac × List Nat)) (S : List Nat) : Frac :=
  (terms.filter (fun t => decide (0 < meetOf S t.2))).foldl (fun a t => a.add (t.1.times (meetOf S t.2) t.2.length)) ⟨0, 1⟩

/-- Check 7 of R385: R386, for the candidate's set and the set of every admitted launch, demoted and parked ones and the
internal activities among them, that meets it. -/
def State.utilOk (s : State) (self : Option Nat) (x : Frac) (set : List Nat) : Bool :=
  let terms := s.innerTerms ++ (s.counting self).map (fun l => (l.density s.feTime, l.r.set))
  let admitted := (s.launches.filter (fun e => e.2.live && !e.2.cancelled && decide (self ≠ some e.1))).map (·.2.r.set)
  let sets := set :: (List.range 384 :: admitted).filter (fun S => decide (0 < meetOf S set))
  sets.all (fun S =>
    ((loadOf terms S).add (x.times (meetOf S set) set.length)).le ⟨12 * S.length * s.host.ceil.toNat, 10000⟩)

/-- Live launches of a domain, but one. -/
def State.livesOf (s : State) (dom : Nat) (self : Option Nat) : Nat :=
  (s.launches.filter (fun e => e.2.live && decide (e.2.r.dom = dom) && decide (self ≠ some e.1))).length

/-- Check 5 of R385. -/
def State.quotaOk (s : State) (dom : Nat) (self : Option Nat) (x : Frac) : Bool :=
  let q := (s.domain dom).quota
  let mine := (s.counting self).filter (fun l => l.r.dom = dom)
  let sum := mine.foldl (fun (a : Frac) l => a.add (l.density s.feTime)) x
  decide (s.livesOf dom self + 1 ≤ fld q 11 0) && sum.le ⟨4608 * fld q 41 32, 10000⟩

/-- Check 6 of R385. -/
def State.hiveOk (s : State) (self : Option Nat) (maxlive : Nat) : Bool :=
  let sum := (s.launches.filter (fun e => e.2.live && decide (self ≠ some e.1))).foldl (fun n e => n + e.2.r.maxlive) 0
  decide (maxlive = 0) || decide (sum + maxlive + s.host.hiveRemote.toNat + 192 ≤ s.host.hiveSlots.toNat)

/-- Is there a live graph of a domain at a counter? -/
def State.graphAt (s : State) (dom : Nat) (cc : Word) : Option Nat :=
  (s.graphs.find? (fun e => e.2.live && decide (e.2.dom = dom) && decide (e.2.cc = cc))).map (·.1)

/-- Does a record of a host queue name a sealed graph (R380)? -/
def State.sealedHit (s : State) (dom : Nat) (r : Record) (host : Bool) : Bool :=
  host && (match r.graphVa with
    | some va => (match s.graphAt dom va with | some g => (s.graphs.get {} g).sealed | none => false)
    | none => false)

/-- Check 4 of R385, for a record of a host queue or of a thread, or for a launch that is resumed and holds its index
(R399). -/
def State.fitOk (s : State) (dom : Nat) (r : Record) (host : Bool) (self : Option Nat := none) : Bool :=
  let feedOk := decide (r.feed = 0) ||
    (let n := s.launch r.feed
     s.launchLives dom r.feed && decide (n.r.kind = 2) &&
       (match s.nodeAt dom n.r.arg.toNat with | some d => decide (d.opens ≠ 0) | none => false))
  let accHit := decide (r.kind ≠ 0) && r.acc && s.launches.any (fun e =>
    decide (self ≠ some e.1) && e.2.live && decide (e.2.r.kind ≠ 0) && e.2.r.acc && decide (0 < meetOf e.2.r.set r.set))
  (self.isSome || s.freeIndex.isSome) && (decide (r.kind ≠ 1) || decide (r.grid ≤ r.maxlive)) && feedOk && !s.sealedHit dom r host && !accHit &&
    !s.host.linkfail

/-- THE ADMISSION TEST of R385: the reason code of the first failing check, 0 where all pass.  `q` is the second record of
a fused launch, whose graph it joins too. -/
def State.testRecord (s : State) (dom : Nat) (r : Record) (host : Bool) (q : Option Record := none) : Nat :=
  let x := density r.budget r.release r.deadline s.feTime r.period r.budget
  if ¬s.recordFits dom r then 0x0A
  else if r.budget = 0 then 0x03
  else if r.deadline ≤ Nat.max s.feTime r.release then 0x02
  else if !s.fitOk dom r host || q.any (fun x => s.sealedHit dom x host) then 0x04
  else if ¬s.quotaOk dom none x then 0x06
  else if ¬s.hiveOk none r.maxlive then 0x05
  else if ¬s.utilOk none x r.set then 0x01
  else 0

/-- The result word of R387. -/
def resultWord (index splice reason : Nat) : Word := BitVec.ofNat 64 (index * 2 ^ 20 + splice * 2 ^ 8 + reason)

/-! ### Graphs and jobs (R380) -/

/-- The counter of a unit record written. -/
def State.syncUnit (s : State) (u : UnitRec) (done : Bool) : State :=
  s.putCounter u.dom u.cc (counterWord done (done && u.cancelled) u.total u.units)

/-- A unit joins a graph. -/
def State.addToGraph (s : State) (g : Nat) : State :=
  let s1 : State := { s with graphs := s.graphs.upd {} g (fun u => { u with units := u.units + 1, total := u.total + 1 }) }
  s1.syncUnit (s1.graphs.get {} g) false

/-- A unit joins a job, if there is one. -/
def State.addToJob (s : State) (job : Option Nat) : State :=
  match job with
  | none => s
  | some j =>
    let s1 : State := { s with jobs := s.jobs.upd {} j (fun u => { u with units := u.units + 1, total := u.total + 1 }) }
    s1.syncUnit (s1.jobs.get {} j) false

/-- A launch joins its graph, which is opened where none is live, or else its job; a launch that seals its graph seals it
once it has joined (R380).  The key of the graph. -/
def State.joinUnits (s : State) (dom : Nat) (r : Record) (issuing job : Option Nat) : State × Option Nat :=
  match r.graphVa with
  | some va =>
    let o : State × Nat := match s.graphAt dom va with
      | some g => (s, g)
      | none =>
        let g := s.serial
        let u : UnitRec := { live := true, dom := dom, cc := va, job := job }
        ((({ s with graphs := s.graphs.set {} g u, serial := g + 1 } : State).syncUnit u false).addToJob job, g)
    let s1 := o.1.addToGraph o.2
    (if r.seals then { s1 with graphs := s1.graphs.upd {} o.2 (fun u => { u with sealed := true }) } else s1, some o.2)
  | none =>
    match issuing with
    | some g => if (s.graphs.get {} g).live then (s.addToGraph g, some g) else (s.addToJob job, none)
    | none => (s.addToJob job, none)

/-- What a LAUNCH passes to its launch (R392): the issuer's largest completion time and the thread. -/
structure Issuer where
  graph : Option Nat := none
  job : Option Nat := none
  acq : Nat := 0
  tid : Nat := 0
  serial : Nat := 0

/-- The units that a launch starts with (R297). -/
def Record.firstUnits (r : Record) : Nat := if r.kind = 2 then 0 else r.grid

/-- A launch entered in the table with the lowest free index; it joins its graph or job, and its counter is written
(R297, R380, R385, R389).  A fused launch joins the graphs of both its records. -/
def State.enroll (s : State) (dom : Nat) (r : Record) (who : Issuer) (splice : Option Splice) : State × Nat :=
  let i := s.freeIndex.getD 0
  let pq : Record × Option Record := match splice with | some p => (p.p, some p.q) | none => (r, none)
  let a := s.joinUnits dom pq.1 who.graph who.job
  let b : State × Option Nat := match pq.2 with | some q => a.1.joinUnits dom q who.graph who.job | none => (a.1, none)
  let closed := decide (r.kind = 2) && (match s.nodeAt dom r.arg.toNat with | some d => decide (d.opens = 0) | none => false)
  let l : Launch :=
    { live := true, r := r, st := .admitted, order := b.1.serial, rel := r.release, dl := r.deadline, budget := r.budget,
      units := r.firstUnits, total := r.firstUnits, graph := a.2, graph2 := b.2, job := who.job,
      acq := BitVec.ofNat 64 who.acq, acqTid := who.tid, acqSerial := who.serial, closed := closed, splice := splice,
      ccaddr := (if r.kind = 2 then (match s.nodeAt dom r.arg.toNat with | some d => d.ccaddr | none => 0) else 0),
      cvgrant := BitVec.ofNat 16 (fld (s.domain dom).quota 63 48) }
  (({ b.1 with launches := b.1.launches.set {} i l, serial := b.1.serial + 1 } : State).syncCounter i, i)

/-! ### Results (R387, R407) -/

/-- LAUNCH_RESULT: the k-th result reaches the ring or the register that waits for it; while 64 entries are held for the ring it
waits (R387, R403, R435). -/
def execLaunchResult (k : Nat) (s : State) : Host.Outcome State Fault Refusal :=
  .next (match s.results[k]? with
    | none => s
    | some r =>
      let s1 : State := { s with results := removeAt s.results k }
      match r.route with
      | .queue dom _ tag =>
        if !s.roomFor dom 1 || (s.results.take k).any (fun x => match x.route with | .queue d _ _ => decide (d = dom) | _ => false) then s
        else s1.post dom 1 (leBytes 8 tag.toNat ++ leBytes 8 r.value.toNat)
      | .thread ret .. => s1.deliver { ret := ret, vals := [r.value] })

/-- The code of a launch's state (R389). -/
def LState.code : LState → Nat
  | .none => 0 | .admitted => 1 | .running => 2 | .grace => 3 | .demoted => 4 | .parked => 5

/-- The value of LSTAT for a launch (R406, R407). -/
def State.lstat (s : State) (dom index sel : Nat) : Word :=
  let l := s.launch index
  if ¬(l.live ∧ l.r.dom = dom) then 0
  else
    BitVec.ofNat 64 (match sel with
      | 0 => Nat.min l.inst (2 ^ 32 - 1) * 2 ^ 32 + b2n l.late * 2 ^ 11 + b2n l.forced * 2 ^ 10 + b2n l.ovr * 2 ^ 9 +
          b2n l.splice.isSome * 2 ^ 8 + (if l.cancelled then 0 else l.st.code)
      | 1 => if l.st = .demoted then 0 else l.budget - l.counted s.now (fun i => Config.choice (s.draws + i))
      | 2 => l.dl
      | _ => l.charges)

/-! ### Release (R377, R378, R389, R390) -/

/-- Is a cancellation of a launch, or of its graph or job, still to be applied (R300)? -/
def State.cancelDue (s : State) (i : Nat) : Bool :=
  let l := s.launch i
  s.cancels.any (fun c => match c.lvl with
    | .launch => decide (c.key = i)
    | .graph => decide (some c.key = l.graph) || decide (some c.key = l.graph2)
    | .job => decide (some c.key = l.job) || ((l.graph.bind (fun g => (s.graphs.get {} g).job)) == some c.key) ||
        ((l.graph2.bind (fun g => (s.graphs.get {} g).job)) == some c.key))

/-- WSP of a thread with an index (R377). -/
def Record.wspOf (r : Record) (i : Nat) : Word := BitVec.ofNat 64 (r.wspbase.toNat + 192 * r.wspstep * (i + 1))

/-- The nymph of thread i of a roam launch (R377). -/
def State.launchNymph (s : State) (k i : Nat) (w0 w1 : Word) : Nymph :=
  let l := s.launch k
  let hdr : NymphHdr :=
    { launch := k, fm1 := l.r.frame - 1, pc := l.r.entry, wsp := l.r.wspOf i, dtime := s.feTime % 2 ^ 40 }
  { tid := s.serial, dom := l.r.dom, hdr := hdr.pack, words := ([w0, w1] ++ List.replicate l.r.frame 0).take l.r.frame,
    acq := l.acq, entry := true, fresh := true }

/-- A thread of a roam launch created at a core (R378). -/
def State.createThread (s : State) (k core i : Nat) (w0 w1 : Word) : State :=
  let n := s.launchNymph k i w0 w1
  (({ s with serial := s.serial + 1 } : State).updLaunch k (fun l => { l with roamers := l.roamers + 1 })).accept core n

/-- The report of a list entry that creates no thread (R306, R378). -/
def State.reportEntry (s : State) (k i : Nat) (e : Word) (sub : BitVec 8) : State :=
  let l := s.launch k
  let f : Frag :=
    { id := 0, lanes := 0, sib := 0, parent := 0, slot := 0, st := .pending,
      ev := { cause := 0x10, sub := sub, addr := e, info0 := BitVec.ofNat 64 i }, pc := l.r.entry,
      origpc := l.r.entry, time := BitVec.ofNat 64 s.feTime }
  (s.post l.r.dom 5 (List.replicate 128 0 ++ frameBytes { dom := l.r.dom, launch := k } f)).subUnits k 1

/-- Thread i of a roam launch with an address list (R377, R378): the entry is read at its home.  A word of the list that cannot
itself be read is taken as 0 (DESIGN CHOICE, log entry 99). -/
def State.createListed (s : State) (k i : Nat) : State :=
  let l := s.launch k
  let e : Word := BitVec.ofNat 64 (leNat ((s.readVa l.r.dom ((l.r.arg.toNat + 8 * i) % 2 ^ 64) 8).getD []))
  match s.walk l.r.dom e.toNat with
  | .fail _ => s.reportEntry k i e 0x09
  | .ok f =>
    if f.remote then s.reportEntry k i e 0x03 else s.createThread k (homeOf (f.key e.toNat)) i e (BitVec.ofNat 64 i)

/-- The threads of a roam launch created in ascending order (R378). -/
def State.createThreads (s : State) (k : Nat) : State :=
  let r := (s.launch k).r
  let cores := r.set
  (List.range r.grid).foldl (fun (t : State) i =>
    if r.list then t.createListed k i
    else t.createThread k (cores.getD (i % cores.length) 0) i (BitVec.ofNat 64 i) r.arg) s

/-- LAUNCH_RELEASE: a launch whose release time has come runs: its budget is refilled, a later instance starts its
counter anew, and the threads of a roam launch are created (R389, R390). -/
def execLaunchRelease (index : Nat) (s : State) : Host.Outcome State Fault Refusal :=
  let l := s.launch index
  .next (if l.live ∧ l.st = .admitted ∧ ¬l.cancelled ∧ l.rel ≤ s.feTime ∧ ¬s.cancelDue index then
      let s1 := if l.inst = 0 then s else
        let z := l.counters.foldl (fun (t : State) va => t.putCounter l.r.dom va 0) s
        (z.updLaunch index (fun l => { l with units := l.r.firstUnits, total := l.r.firstUnits })).syncCounter index
      let s2 := s1.updLaunch index (fun l => { l with st := .running })
      if l.r.kind = 1 then (s2.createThreads index).updLaunch index (fun l => { l with created := true }) else s2
    else s)

/-! ### The ends of units (R150, R234, R296, R297, R389, R390) -/

/-- Convergence registers that a launch armed are disarmed (R150). -/
def State.disarmOf (s : State) (k : Nat) : State :=
  (s.cvs.filter (fun e => e.2.armed && decide (e.2.launch = k))).foldl (fun (t : State) e => t.cvDisarm (e.1 / 16) (e.1 % 16)) s

/-- A producer of a node has ended: OPEN decreases, and at zero the node's phase closes and its records form groups
(R296, R380). -/
def State.feedDone (s : State) (node : Nat) : State :=
  let l := s.launch node
  if ¬(l.live ∧ l.r.kind = 2) then s
  else
    match s.nodeAt l.r.dom l.r.arg.toNat with
    | none => s
    | some d =>
      let s1 := s.patch l.r.dom (l.r.arg.toNat + 0x1C) (leBytes 4 (d.opens - 1))
      if d.opens ≤ 1 then (s1.formAll node (d.count + 1)).updLaunch node (fun l => { l with closed := true, flushAt := none })
      else s1

/-- Can no further unit of a launch arise (R297)? -/
def Launch.spent (l : Launch) : Bool :=
  l.cancelled || (decide (l.st ≠ .admitted) &&
    (match l.r.kind with
    | 0 => decide (l.r.grid ≤ l.placed)
    | 1 => l.created
    | _ => l.closed))

/-- The device time at the home of a counter; the front end's where it does not translate. -/
def State.timeAt (s : State) (dom : Nat) (va : Word) : Nat :=
  match s.translate dom va.toNat with
  | .ok f => s.homeTime (homeOf (f.key va.toNat))
  | .fail _ => s.feTime

/-- Are all writes of a launch applied, its commands retired and its completion times past (R297)? -/
def State.writesDone (s : State) (i : Nat) : Bool :=
  let l := s.launch i
  decide (l.ending = []) && !(s.net.any (fun m => m.writes && decide (m.launch = i))) &&
    !(s.cmds.any (fun c => decide (c.launch = i))) &&
    l.counters.all (fun va => decide (l.endC < s.timeAt l.r.dom va))

/-- A graph loses a unit that is done (R297). -/
def State.leaveGraph (s : State) (g c : Nat) : State :=
  let s1 : State := { s with graphs := s.graphs.upd {} g (fun u => { u with units := u.units - 1, endC := Nat.max u.endC c }) }
  s1.syncUnit (s1.graphs.get {} g) false

/-- A job loses a unit that is done (R297). -/
def State.leaveJob (s : State) (job : Option Nat) (c : Nat) : State :=
  match job with
  | none => s
  | some j =>
    let s1 : State := { s with jobs := s.jobs.upd {} j (fun u => { u with units := u.units - 1, endC := Nat.max u.endC c }) }
    s1.syncUnit (s1.jobs.get {} j) false

/-- A membership of a launch given up: its graph's, or its job's. -/
def State.leaveUnits (s : State) (g job : Option Nat) (c : Nat) : State :=
  match g with
  | some k => s.leaveGraph k c
  | none => s.leaveJob job c

/-- The next instance of a periodic launch: its release and deadline are those of its record and its number (R390). -/
def Launch.nextInstance (l : Launch) : Launch :=
  { l with
    st := .admitted, inst := l.inst + 1, rel := l.r.release + (l.inst + 1) * l.r.period,
    dl := l.r.deadline + (l.inst + 1) * l.r.period, budget := l.r.budget,
    charges := 0, recent := [], grace := 0, late := false, ovr := false, raised := false, pendingOvr := [], units := 0,
    placed := 0, created := false, closed := false }

/-- A trace record of the front end (R274, R391): the launch and the source; what the record does not state of a launch
is free. -/
def State.lateTrace (s : State) (k : Nat) : List Byte :=
  let w (i : Nat) : Nat := (Config.value (s.draws + i)).toNat
  let x := w 2 - w 2 / 2 ^ 20 % 2 ^ 12 * 2 ^ 20 - w 2 % 16
  leBytes 8 s.feTime ++ leBytes 8 (w 0) ++ leBytes 8 (w 1) ++ leBytes 8 (x + k * 2 ^ 20 + 1)

/-- A launch that is not DONE at its deadline, a cancelled one too, is late, and a trace record says so (R391); a cancellation
that waits is applied before (R300). -/
def State.missed (s : State) (index : Nat) : State :=
  let l := s.launch index
  if l.live ∧ ¬l.late ∧ l.dl ≤ s.feTime ∧ ¬s.cancelDue index then
    let s1 := (s.updLaunch index (fun l => { l with late := true })).trace l.r.dom (s.lateTrace index)
    { s1 with draws := s1.draws + 3 }
  else s

/-- LSTAT_ANSWER: the k-th pending LSTAT is answered, by a front end that has seen every deadline that is past and applied
every cancellation of the launch that it has accepted (R300, R391, R407). -/
def execLstatAnswer (k : Nat) (s : State) : Host.Outcome State Fault Refusal :=
  .next (match s.lstats[k]? with
    | none => s
    | some q =>
      if (s.launch q.index).live ∧ s.cancelDue q.index then s
      else
      let t := if (s.launch q.index).r.dom = q.dom then s.missed q.index else s
      let v := t.lstat q.dom q.index q.sel
      ({ t with lstats := removeAt t.lstats k, draws := t.draws + (t.launch q.index).recent.length + 1 } : State).deliver
        { ret := q.ret, vals := [v] })

/-- A launch whose DONE is written: what follows for its node, its units, its registers and its tags; a periodic launch
goes on to its next instance, and keeps the registers it armed until it is cancelled: that instance is no completion of the
launch (R150, R234, R296, R297, R389, R390; log entry 81). -/
def State.launchDone (s : State) (i : Nat) : State :=
  let l := s.launch i
  let s1 := l.counters.foldl (fun (t : State) va => t.putCounter l.r.dom va (counterWord true l.cancelled l.total 0)) s
  let s2 := if l.r.feed = 0 then s1 else s1.feedDone l.r.feed
  if l.r.period ≠ 0 ∧ ¬l.cancelled then s2.updLaunch i Launch.nextInstance
  else
    let s3 := s2.leaveUnits l.graph l.job l.endC
    let s4 := if l.splice.isSome then s3.leaveUnits l.graph2 l.job l.endC else s3
    let s5 := (s4.disarmOf i).dropTagsOf i
    let rest := (s5.launches.erase i).map (fun (e : Nat × Launch) => if e.2.other = some i then (e.1, { e.2 with other := none }) else e)
    { s5 with launches := rest, unsplices := s5.unsplices.filter (· ≠ i) }

/-- The job that a submission joins (R380). -/
def Submission.joins (u : Submission) : Option Nat := match u.route with | .queue .. => u.job | .thread _ _ _ _ _ _ _ _ j => j

/-- COUNTER_DONE_WRITE: the DONE of a launch, a graph or a job, once nothing of it is left and its writes are past
(R297). -/
def execCounterDoneWrite (lvl : UnitLevel) (k : Nat) (s : State) : Host.Outcome State Fault Refusal :=
  .next (match lvl with
    | .launch =>
      let l := s.launch k
      if l.live ∧ l.units = 0 ∧ l.spent ∧ s.writesDone k ∧ ¬s.cancelDue k then ((s.missed k).launchDone k).drawn else s.drawn
    | .graph =>
      let u := s.graphs.get {} k
      if u.live ∧ (u.sealed ∨ u.cancelled) ∧ u.units = 0 ∧ u.endC < s.timeAt u.dom u.cc ∧
          ¬s.cancels.any (fun c => (decide (c.lvl = .graph) && decide (c.key = k)) || (decide (c.lvl = .job) && decide (u.job = some c.key))) then
        let s1 := (s.syncUnit u true).leaveJob u.job u.endC
        ({ s1 with graphs := s1.graphs.erase k } : State).drawn
      else s.drawn
    | .job =>
      let u := s.jobs.get {} k
      if u.live ∧ (u.sealed ∨ u.cancelled) ∧ u.units = 0 ∧ u.endC < s.timeAt u.dom u.cc ∧
          ¬s.cancels.any (fun c => decide (c.lvl = .job) && decide (c.key = k)) ∧ ¬s.subs.any (fun x => x.joins = some k) then
        let s1 := (s.syncUnit u true).updDomain u.dom (fun d => if d.job = some k then { d with job := none } else d)
        ({ s1 with jobs := s1.jobs.erase k } : State).drawn
      else s.drawn)

/-! ### Cancellation (R300) -/

/-- Nymphs of a launch that wait at cores, in pools or for a peer are discarded, and what waited for their room moves up (R200,
R290, R300). -/
def State.dropNymphs (s : State) (k : Nat) : State :=
  let mine (n : Nymph) : Bool := decide (n.fields.launch = k)
  let own (c : Comb) : Bool := decide (c.key.launch = k)
  let out := s.arrival.flatMap (fun e => e.2.slots.filter mine ++ e.2.hive.filter mine ++
      ((e.2.combs ++ e.2.due).filter own).flatMap (·.nymphs)) ++
    s.pools.flatMap (fun e => (e.2.combs.filter own).flatMap (·.nymphs) ++
      (match e.2.steal with | .answered (some c) _ => if own c then c.nymphs else [] | _ => [])) ++
    (s.resends.map (·.1)).filter mine
  let s1 : State := { s with
    arrival := s.arrival.map (fun e => (e.1, { e.2 with
      slots := e.2.slots.filter (fun n => !mine n), hive := e.2.hive.filter (fun n => !mine n),
      combs := e.2.combs.filter (fun c => !own c), due := e.2.due.filter (fun c => !own c) }))
    resends := s.resends.filter (fun r => !mine r.1)
    pools := s.pools.map (fun e => (e.1, { e.2 with
      combs := e.2.combs.filter (fun c => !own c),
      steal := (match e.2.steal with
        | .answered (some c) t => if own c then .answered none t else .answered (some c) t
        | x => x) })) }
  let s2 := out.foldl State.discard s1
  (s2.arrival.map (·.1)).foldl State.settleArr s2

/-- The matrix operation that a saved context leaves behind (R363): the streamer's stops for the other members; a
member's goes on without it. -/
def State.dropMat (s : State) (c : Saved) : State :=
  let p := 2 * c.group.core + c.group.part
  if c.unit.st ≠ .paused then s
  else if c.unit.op.stream = p then s.stopMat p c.unit.op
  else s.resumeMat p c.unit

/-- Saved contexts of a launch are gone: their workgroups and threads have ended. -/
def State.dropSaved (s : State) (k : Nat) : State :=
  let mine (c : Saved) : Bool := c.warps.any (fun e => decide (e.2.launch = k))
  let s1 : State := { s with saved := s.saved.filter (fun c => !mine c) }
  (s.saved.filter mine).foldl (fun (t : State) c =>
    let t := t.dropMat c
    if c.roaming then
      (c.warps.flatMap (fun e => e.2.liveLanes.map (fun L => (e.2.lane L).tid))).foldl
        (fun (t : State) tid => t.endThread k tid) t
    else t.subUnits k 1) s1

/-- A matrix unit whose operation belongs to a cancelled launch: the streamer's stops for every member, a member's for
itself (R363). -/
def State.abortMat (s : State) (k p : Nat) : State :=
  let u := (s.part p).mat
  if u.free ∨ u.op.launch ≠ k then s
  else if u.op.stream = p then s.stopMat p u.op
  else (s.updMat p (fun u => { u with st := .aborted }))

/-- A launch cancelled: its lanes exit, its nymphs and records are discarded, its commands stop, its registers are disarmed,
and the lines tagged for it are dropped (R234, R300, R363). -/
def State.cancelLaunch (s : State) (k : Nat) : State :=
  let l := s.launch k
  if ¬l.live ∨ l.cancelled then s
  else
    let unplaced := if l.st = .admitted ∧ l.inst ≠ 0 then 0
      else match l.r.kind with | 0 => l.r.grid - l.placed | 1 => (if l.created then 0 else l.r.grid) | _ => l.queued.length
    let s1 := s.updLaunch k (fun l => { l with
      cancelled := true, queued := [], flushAt := none, pendingOvr := [], placed := l.r.grid, created := true, closed := true })
    let s2 := (s1.cmds.filter (fun c => decide (c.launch = k) && decide (c.st ≠ .finished))).foldl State.stopCmd s1
    let s3 := (List.range 768).foldl (fun (t : State) p => t.abortMat k p) s2
    let s4 := (((s3.disarmOf k).dropTagsOf k).dropNymphs k).dropSaved k
    let s5 := (s4.warpsWhere (fun w => decide (w.launch = k))).foldl (fun (t : State) wid => t.exitLanes wid (List.range 32)) s4
    let s6 : State := { s5 with
      unsplices := s5.unsplices.filter (· ≠ k)
      saveReqs := s5.saveReqs.filter (fun r =>
        if r.roaming then (s5.warp r.target).live && decide ((s5.warp r.target).launch ≠ k)
        else (s5.group r.target).live && decide ((s5.group r.target).launch ≠ k)) }
    if unplaced = 0 then s6 else s6.subUnits k unplaced

/-- The launches of a graph, and of a job with its graphs. -/
def State.launchesIn (s : State) (p : Launch → Bool) : List Nat := (s.launches.filter (fun e => e.2.live && p e.2)).map (·.1)

/-- A graph or a job that a CANCEL names is cancelled (R300). -/
def UnitRec.cancel (u : UnitRec) : UnitRec := if u.live then { u with cancelled := true, asked := true } else u

/-- A cancellation applied to its unit (R300). -/
def State.applyCancel (s : State) (c : Cancel) : State :=
  let graphOf (l : Launch) (g : Nat) : Bool := decide (l.graph = some g) || decide (l.graph2 = some g)
  match c.lvl with
  | .launch => if (s.launch c.key).live then (s.cancelLaunch c.key).updLaunch c.key (fun l => { l with asked := true }) else s
  | .graph =>
    let s1 : State := { s with graphs := s.graphs.upd {} c.key UnitRec.cancel }
    (s1.launchesIn (fun l => graphOf l c.key)).foldl State.cancelLaunch s1
  | .job =>
    let gs := (s.graphs.filter (fun e => e.2.live && decide (e.2.job = some c.key))).map (·.1)
    let s1 : State := { s with
      jobs := s.jobs.upd {} c.key UnitRec.cancel
      graphs := s.graphs.map (fun e => if gs.contains e.1 then (e.1, { e.2 with cancelled := true }) else e) }
    (s1.launchesIn (fun l => decide (l.job = some c.key) || gs.any (graphOf l))).foldl State.cancelLaunch s1

/-- CANCEL_APPLY: the k-th cancellation asked for is applied (R300). -/
def execCancelApply (k : Nat) (s : State) : Host.Outcome State Fault Refusal :=
  .next (match s.cancels[k]? with
    | none => s
    | some c => ({ s with cancels := removeAt s.cancels k } : State).applyCancel c)

/-! ### Entries held for a ring (R434, R435) -/

/-- HELD_ENTRY_WRITE: the oldest entry held for a ring is written once the ring takes it, and that of the oldest event that
waits takes its place; warps that waited for their reports may then be freed (R256, R435). -/
def execHeldEntryWrite (dom ring : Nat) (s : State) : Host.Outcome State Fault Refusal :=
  let g := (s.domain dom).rings.get {} ring
  .next (match g.held with
    | [] => s
    | e :: t =>
      if g.present ∧ ¬g.full then
        let s1 := (s.updDomain dom (fun d => { d with rings := d.rings.upd {} ring (fun g =>
            { g with held := t ++ g.waits.take 1, waits := g.waits.drop 1 }) })).ringWrite dom ring e
        if ring = 5 ∧ t = [] ∧ g.waits = [] then (s1.warpsWhere (fun w => decide (w.dom = dom) && decide (w.reports ≠ 0))).foldl State.reap s1
        else s1
      else s)

end Sys2Proof.Machine
end

