-- ==== Sys2Proof/Machine/Overrun.lean ====
section
/-! DEFINITION. Deadlines, budgets and overruns (spec/14_launch R391, R398, R399; spec/09_traps R253 to R255), and the entry
of a waiting fragment into its handler (R251, R56). -/

namespace Sys2Proof.Machine

/-! ### Deadlines and budgets -/

/-- DEADLINE_MISS: a launch that is not DONE at its deadline is late, and a trace record says so (R391). -/
def execDeadlineMiss (index : Nat) (s : State) : Host.Outcome State Fault Refusal :=
  .next (s.missed index)

/-- Has a launch no supervisor handler (R253)? -/
def Launch.noSup (l : Launch) : Bool :=
  match l.splice with
  | some p => decide (p.p.suph = 0) && decide (p.q.suph = 0)
  | none => decide (l.r.suph = 0)

/-- The lane blocks of a launch's saved contexts rewritten as it parks or resumes: while it is parked, every lane that has not
exited is parked; then each has its own state again (R262, R399). -/
def State.restate (s : State) (k : Nat) (parked : Bool) : State :=
  let mine := s.saved.flatMap (fun c => (c.warps.filter (fun e => decide (e.2.launch = k))).map (fun e => (c, e.2)))
  mine.foldl (fun (t : State) p => (List.range 32).foldl (fun (t : State) L =>
    let at' := p.1.recordVa p.2 + 0x1000 + 64 * L + 0x28
    let b := t.peekSaved p.1 p.2.dom at' 1
    if b % 4 = 3 then t
    else t.patchSaved p.1 p.2.dom at' (leBytes 1 (b - b % 4 + (p.2.lane L).stateCode parked))) t) s

/-- The overrun policy applied to the current instance of a launch (R399): demote, park with an event for the host, or
cancel. -/
def State.applyPolicy (s : State) (k : Nat) : State :=
  let l := s.launch k
  match l.r.policy with
  | 0 => s.updLaunch k (fun l => { l with st := .demoted, pendingOvr := [] })
  | 1 => ((s.updLaunch k (fun l => { l with st := .parked, pendingOvr := [] })).restate k true).postEq l.r.dom 3 0 k l.charges 0
  | _ => s.cancelLaunch k

/-- Must the overrun policy of a launch wait, because it would post an event to a ring that has no room for one (R435)? -/
def State.policyWaits (s : State) (k : Nat) : Bool :=
  let l := s.launch k
  decide (l.r.policy = 1) && !s.roomFor l.r.dom 3

/-- Saved warps of a launch: OVERRUN reaches them when they are back (R254). -/
def State.savedWarps (s : State) (k : Nat) : List Nat :=
  s.saved.flatMap (fun c => (c.warps.filter (fun e => decide (e.2.launch = k))).map (·.1))

/-- OVERRUN_RAISE: the charges of a running launch have reached its budget (R253, R399). -/
def execOverrunRaise (index : Nat) (s : State) : Host.Outcome State Fault Refusal :=
  let l := s.launch index
  .next (if l.live ∧ l.st = .running ∧ ¬l.cancelled ∧ l.budget ≤ l.charges ∧ ¬s.cancelDue index then
      if l.noSup then
        (if s.policyWaits index then s else (s.updLaunch index (fun l => { l with ovr := true })).applyPolicy index)
      else s.updLaunch index (fun l =>
        { l with st := .grace, ovr := true, raised := true, grace := 0,
                 pendingOvr := s.warpsWhere (fun w => w.live && decide (w.launch = index)) ++ s.savedWarps index })
    else s)

/-- Does a supervisor fragment of a launch run, or wait to (R399)? -/
def State.supRuns (s : State) (k : Nat) : Bool :=
  let has (w : Warp) : Bool := decide (w.launch = k) && w.frags.any (fun f => decide (f.ev.cause = 0x0E))
  s.warps.any (fun e => has e.2) || s.saved.any (fun c => c.warps.any (fun e => has e.2))

/-- Is a warp that is due its OVERRUN still there, resident or saved? -/
def State.overrunOwed (s : State) (wid : Nat) : Bool :=
  (s.warp wid).live || s.saved.any (fun c => c.warps.any (fun e => e.1 = wid))

/-- GRACE_EXPIRE: the grace of a launch ends: every supervisor fragment has returned or exited, or the allowance is spent;
the policy applies (R399), unless a cancellation waits, which comes first (R300). -/
def execGraceExpire (index : Nat) (s : State) : Host.Outcome State Fault Refusal :=
  let l := s.launch index
  .next (if l.live ∧ l.st = .grace ∧ ¬l.cancelled ∧ ¬s.cancelDue index ∧ (16384 ≤ l.grace ∨ (¬(l.pendingOvr.any s.overrunOwed) ∧ ¬s.supRuns index)) ∧ ¬s.policyWaits index then
      s.applyPolicy index
    else s)

/-! ### The delivery of OVERRUN (R254, R255) -/

/-- What R255 does with a waiting instruction that meets OVERRUN: abandoned, kept, or (for the short waits that it does not
name) let end first. -/
inductive OnOverrun where
  | abandon | keep | later
  deriving DecidableEq, Repr

/-- R255 by the waiting instruction and its phase. -/
def Wait.onOverrun (w : Wait) : OnOverrun :=
  match w.instr with
  | .launch .. | .mma .. | .mmas .. | .mcond .. => .keep
  | .atom .. | .cas .. | .red .. => if w.phase = .trailing then .keep else .abandon
  | .wfill .. | .kwr .. | .record .. | .tlbinv .. => .later
  | _ => .abandon

/-- A lane that gives up its waiting instruction; a BAR.HOLD is remembered (R255). -/
def State.abandonWait (s : State) (wid L : Nat) : State :=
  match (s.lane wid L).wait with
  | none => s
  | some w =>
    let gen (b : Nat) : BitVec 32 := if (s.warp wid).roaming then 0 else ((s.group (s.warp wid).group).bars.get {} b).gen
    let s1 := s.forget (s.lane wid L).tid L w.serial
    s1.updLane wid L (fun l => { l with
      wait := none, monitor := false,
      abandoned := match w.instr with
        | .barHold _ b _ => some { b := b.val, gen := gen b.val, pc := l.pc }
        | _ => l.abandoned })

/-- The instruction word at a PC as fetched, or zero where its line cannot be read (R254). -/
def State.wordAt (s : State) (w : Warp) (pc : Word) : InstrWord :=
  match s.xlate w.core w.dom (lineAddr pc).toNat with
  | .ok f => if f.x then slotWord (s.lineBytes w.core f pc) (fld pc 2 0) else 0
  | .fail _ => 0

/-- The OVERRUN fragment of the lanes of a warp that stand at one PC (R254, R419, R422). -/
def State.overrunFrag (s : State) (wid : Nat) (pc : Word) (L : Nat) : Frag :=
  let w := s.warp wid
  let o := s.originAt w.launch pc
  { id := 0, lanes := 0, sib := 0, parent := 0, slot := 0, st := .pending, ev := (s.launch w.launch).overrunEvent,
    origin := o.1, word := s.wordAt w pc, pc := pc, origpc := o.2,
    iter := if o.1 = 0 then 0 else (s.lane wid L).cursor, time := BitVec.ofNat 64 (s.localTime w.core),
    resume := o.2, serial := s.serial }

/-- Has the origin to which a lane belongs a supervisor handler (R253, R419): that of the instruction at which it stands, in a
handler that of its fragment? -/
def State.supAt (s : State) (wid L : Nat) : Bool :=
  let w := s.warp wid
  decide ((s.launch w.launch).suphOf (s.issueOrigin w L (w.lane L).pc).1 ≠ 0)

/-- The user lanes of a warp that join its OVERRUN fragments now, and the lanes for which the OVERRUN is held (R254,
R255). -/
def State.overrunLanes (s : State) (wid : Nat) : List Nat × List Nat :=
  let w := s.warp wid
  let due := (s.launch w.launch).pendingOvr.contains wid
  let sort (L : Nat) : Nat :=          -- 0 not concerned, 1 joins, 2 held
    let l := w.lane L
    match l.st with
    | .exited => 0
    | .ready | .departing => if l.handler then (if due ∧ ¬l.sup then 2 else 0) else if due ∨ l.heldOverrun then 1 else 0
    | .waiting =>
      if ¬due ∨ l.sup then 0
      else if l.handler then 2
      else (match l.wait.map Wait.onOverrun with | some .abandon => 1 | _ => 2)
    | .parked | .entering => if due ∧ ¬l.sup then 2 else 0
  let able (L : Nat) : Bool := s.supAt wid L
  ((List.range 32).filter (fun L => decide (sort L = 1) && able L), (List.range 32).filter (fun L => decide (sort L = 2) && able L))

/-- Does a lane wait in an instruction whose short wait ends before OVERRUN is delivered? -/
def State.overrunLater (s : State) (wid : Nat) : Bool :=
  ((s.warp wid).lanesWhere (fun l => decide (l.st = .waiting) && !l.handler)).any (fun L =>
    (match (s.lane wid L).wait.map Wait.onOverrun with | some .later => true | _ => false))

/-- OVERRUN_DELIVER: the OVERRUN of a launch reaches a warp: one fragment for each PC at which joining lanes stand, in the
order of their lowest lanes (R254, R255). -/
def execOverrunDeliver (wid : Nat) (s : State) : Host.Outcome State Fault Refusal :=
  let w := s.warp wid
  let k := w.launch
  .next (if ¬w.live ∨ s.overrunLater wid ∨ s.cancelDue k then s
    else
      let ls := s.overrunLanes wid
      let s1 := s.updLanes wid ls.2 (fun l => { l with heldOverrun := true })
      let s2 := ls.1.foldl (fun (t : State) L => t.abandonWait wid L) s1
      let s3 := s2.updLanes wid ls.1 (fun l => { l with wait := none, heldOverrun := false })
      let s4 := s3.updLaunch k (fun l => { l with pendingOvr := l.pendingOvr.filter (· ≠ wid) })
      let pcs := (ls.1.map (fun L => (w.lane L).pc)).eraseDups
      (pcs.foldl (fun (t : State) pc =>
        let mine := ls.1.filter (fun L => (w.lane L).pc = pc)
        let sib := maskOf (ls.1.filter (fun L => (w.lane L).pc ≠ pc))
        (t.newFrag wid mine sib 0 .pending (t.overrunFrag wid pc ((mine.head?).getD 0))).1) s4).drawn)

/-! ### Handler entry (R251) -/

/-- HANDLER_ENTRY: a fragment that waits enters its handler, once every governed result of its warp is written (R56,
R251); the line of the handler is read to check it (R44, R66). -/
def execHandlerEntry (wid frag : Nat) (s : State) : Host.Outcome State Fault Refusal :=
  let w := s.warp wid
  .next (match w.frags.find? (fun f => decide (f.id.toNat = frag) && decide (f.st = .pending)) with
    | none => s
    | some f =>
      if ¬w.live ∨ s.governed wid s.serial ∨ (s.launch w.launch).st = .parked then s
      else
        let h := (s.launch w.launch).handlerOf f
        (s.enterHandler wid f (s.targetCheck w.core w.dom h)).lineRead w.core w.dom w.launch h)

end Sys2Proof.Machine
end

