-- ==== Sys2Proof/Machine/Place.lean ====
section
/-! DEFINITION. Where work runs (spec/14_launch R377 to R379, R394 to R397; spec/01_machine R25; spec/07_memory R201 to R204;
spec/09_traps R259 to R265; spec/11_engines R327; spec/13_matrix R363, R364): the placing of workgroups and combs, the
choice of what to pre-empt, and the saving and restoring of contexts. -/

namespace Sys2Proof.Machine

/-! ### What waits for a place (R394) -/

/-- A pending piece of work: the next workgroup of a launch, a ready comb at a core, a ready pool comb of a cluster, a
saved context. -/
inductive Item where
  | group (launch : Nat)
  | comb (core : Nat) (c : Comb)
  | pool (cluster : Nat) (c : Comb)
  | restore (c : Saved)

/-- Do releases, cancellations and the state of its launch let it place work? -/
def State.places (s : State) (k : Nat) : Bool :=
  let l := s.launch k
  l.live && !l.cancelled && !s.cancelDue k && (decide (l.st = .running) || decide (l.st = .grace) || decide (l.st = .demoted))

/-- Does an unplaced workgroup of a launch wait?  The consumer's part of an unspliced launch waits for its producer's
(R425). -/
def State.groupDue (s : State) (k : Nat) : Bool :=
  let l := s.launch k
  s.places k && decide (l.r.kind = 0) && decide (l.placed < l.r.grid) &&
    (match l.splice with | some p => !p.unsplicing | none => true) && l.other.isNone

/-- Is a lane of a launch in handler mode, or about to enter a handler (R425)? -/
def State.inHandler (s : State) (k : Nat) : Bool :=
  let has (w : Warp) : Bool := decide (w.launch = k) &&
    w.liveLanes.any (fun L => (w.lane L).handler || decide ((w.lane L).st = .entering))
  s.warps.any (fun e => has e.2) || s.saved.any (fun c => c.warps.any (fun e => has e.2))

/-- May a saved context be restored now: it is wholly written, its results are in, its launch runs, the part it depends on is
done, and it does not wait to be split (R263, R265, R396, R425)? -/
def State.restoreDue (s : State) (c : Saved) : Bool :=
  decide (c.pieces = []) && c.warps.all (fun e => decide (s.outstanding e.1 = 0) && s.places e.2.launch && (s.launch e.2.launch).other.isNone &&
    (!s.unsplices.contains e.2.launch || s.inHandler e.2.launch))

/-- All pending work. -/
def State.items (s : State) : List Item :=
  ((s.launches.map (·.1)).filter s.groupDue).map .group ++
    s.arrival.flatMap (fun e => (e.2.combs.filter (·.ready)).map (.comb e.1)) ++
    s.pools.flatMap (fun e => (e.2.combs.filter (·.ready)).map (.pool e.1)) ++
    (s.saved.filter s.restoreDue).map .restore

/-- The launch of an item. -/
def Item.launch : Item → Nat
  | .group k => k
  | .comb _ c => c.key.launch
  | .pool _ c => c.key.launch
  | .restore c => ((c.warps.head?).map (·.2.launch)).getD 0

/-- What tells pending items apart: the next workgroup of a launch, a comb by its place in the order of opening, a saved
context. -/
def State.itemId (s : State) : Item → Nat × Nat
  | .group k => (0, k + 4096 * (s.launch k).placed)
  | .comb _ c => (1, c.born)
  | .pool _ c => (1, c.born)
  | .restore c => (2, c.id)

/-- The place of an item in the order of R394, as a number: the keys of R393, then, within a launch, the order in which
combs became ready; restores and workgroups of one launch come in no stated order. -/
def State.itemRank (s : State) (x : Item) : Nat :=
  let first := Config.choice s.draws
  (s.launch x.launch).rank * 2 ^ 64 + (match x with
    | .group _ => if first then 2 ^ 63 else 0
    | .comb _ c => c.order
    | .pool _ c => c.order
    | .restore c => if first then c.order else 2 ^ 63 + c.order)

/-- The effective deadline of a launch as a number (R393): demoted launches last. -/
def Launch.effective (l : Launch) : Nat := (if l.st = .demoted then 2 ^ 96 else 0) + l.dl

/-- Restores that come before an item: the slots and ranges that they need are kept for them (R265). -/
def State.kept (s : State) (x : Item) : List Saved :=
  (s.items.filter (fun y => decide (s.itemRank y < s.itemRank x))).filterMap (fun y => match y with
    | .restore c => some c
    | _ => none)

/-- The items before an item in the order of R394. -/
def State.before (s : State) (x : Item) : List Item := s.items.filter (fun y => decide (s.itemRank y < s.itemRank x))

/-- Room that saves have freed for items before an item: it is held for those (R394). -/
def State.heldRoom (s : State) (x : Item) : List Hold :=
  let ids := (s.before x).map s.itemId
  s.holds.filter (fun h => ids.contains h.item)

/-- Does an internal activity hold a warp slot (R382)?  Which slots they hold is free. -/
def State.innerHolds (s : State) (core part slot : Nat) : Bool :=
  s.host.activities && Nat.testBit (Config.number s.draws) (64 * core + 32 * part + slot)

/-- Warp slots of a partition that an item may take, ascending. -/
def State.slotsFor (s : State) (x : Item) (core part : Nat) : List Nat :=
  let dom := match x with | .comb _ c => some c.key.dom | .pool _ c => some c.key.dom | _ => none
  let kept := (s.kept x).flatMap (fun c => c.warps.filterMap (fun e =>
    if e.2.core = core ∧ e.2.part = part then some e.2.slot else none))
  let held := ((s.heldRoom x).filter (fun h => decide (h.core = core) && decide (h.part = part))).flatMap (·.slots)
  (s.freeSlots core part dom).filter (fun k => !s.innerHolds core part k && !kept.contains k && !held.contains k)

/-- Scratchpad ranges of a core that are taken, kept for a restore, or held for an earlier item. -/
def State.ranges (s : State) (x : Item) (core : Nat) : List (Nat × Nat) :=
  (s.groups.filter (fun e => e.2.live && decide (e.2.core = core))).map (fun e => (e.2.sbase, e.2.ssize)) ++
    ((s.kept x).filter (fun c => !c.roaming && decide (c.group.core = core))).map (fun c => (c.group.sbase, c.group.ssize)) ++
    ((s.heldRoom x).filter (fun h => decide (h.core = core))).map (·.range)

/-- Is a range free, aligned and within the scratchpad (R192)? -/
def rangeFree (used : List (Nat × Nat)) (base n : Nat) : Bool :=
  decide (base % 8 = 0) && decide (base + n ≤ 1572864) && !(used.any (fun u => overlap u.1 u.2 base n))

/-- A free range of n bytes: any one, freely chosen where the draw names one, else the lowest. -/
def freeRange (used : List (Nat × Nat)) (n draw : Nat) : Option Nat :=
  let wish := 8 * (draw % 196609)
  if rangeFree used wish n then some wish
  else minBy (fun b => b) ((0 :: used.map (fun u => u.1 + u.2)).filter (fun b => rangeFree used b n))

/-- Is a partition's accumulator unheld (R379)? -/
def State.accFree (s : State) (core part : Nat) : Bool :=
  !s.groupHolds (2 * core + part) &&
    !(s.launches.any (fun e => e.2.live && e.2.r.acc && decide (e.2.r.kind ≠ 0) && e.2.r.set.contains core))

/-- Has an item room on a partition (R25, R265, R379)? -/
def State.fits (s : State) (x : Item) (core part : Nat) : Bool :=
  let slots := s.slotsFor x core part
  match x with
  | .group k =>
    let r := (s.launch k).r
    decide (r.warps ≤ slots.length) && (freeRange (s.ranges x core) r.scratch 0).isSome && (!r.acc || (s.accFree core part && !(s.heldRoom x).any (fun h => h.acc && decide (h.core = core) && decide (h.part = part))))
  | .comb .. | .pool .. => slots != []
  | .restore c =>
    c.warps.all (fun e => slots.contains e.2.slot) &&
      (c.roaming || rangeFree (s.ranges x core) c.group.sbase c.group.ssize || decide (c.group.ssize = 0)) &&
      (!c.acc || s.accFree core part)

/-- The partitions on which an item may be placed, in order (R25, R265, R290, R378). -/
def State.candidates (s : State) (x : Item) : List (Nat × Nat) :=
  let both (c : Nat) : List (Nat × Nat) := [(c, 0), (c, 1)]
  match x with
  | .group k =>
    let l := s.launch k
    if l.r.pfixed then both (l.r.set.getD (l.placed % l.r.set.length) 0) else l.r.set.flatMap both
  | .comb core _ => both core
  | .pool cluster c => both (s.roomiest cluster (some c.key.dom))
  | .restore c => c.warps.take 1 |>.map (fun e => (e.2.core, e.2.part))

/-- The partition on which an item would be placed: the first with room (R25, R378, R394). -/
def State.target (s : State) (x : Item) : Option (Nat × Nat) := (s.candidates x).find? (fun p => s.fits x p.1 p.2)

/-- The partition on which an item is placed now: none while an earlier item takes room at the same core. -/
def State.mayPlace (s : State) (x : Item) : Option (Nat × Nat) :=
  match s.target x with
  | none => none
  | some p =>
    if (s.before x).any (fun y => match s.target y with | some q => decide (q.1 = p.1) | none => false) then none else some p

/-- Room held for items that wait no more is free again. -/
def State.tidyHolds (s : State) : State :=
  let ids := s.items.map s.itemId
  { s with holds := s.holds.filter (fun h => ids.contains h.item) }

/-! ### Combs (R25, R201, R290) -/

/-- Are the writes that a comb's threads must see applied (R294)? -/
def State.combSees (s : State) (c : Comb) : Bool :=
  c.nymphs.all (fun n => n.parent = 0 || !s.writesOf n.parent n.parentSerial)

/-- A comb's warp placed in the lowest free slot of a partition; commands that paused there as a roaming warp of the launch
was saved resume first (R327).  Threads of a launch that has ended are discarded. -/
def State.placeComb (s : State) (x : Item) (p : Nat × Nat) (c : Comb) : State :=
  let slot := (s.slotsFor x p.1 p.2).headD 0
  if s.launchLives c.key.dom c.key.launch then
    let resumes (x : Cmd) : Bool := decide (x.launch = c.key.launch) && decide (x.core = p.1) && decide (x.group = 0) &&
      !(s.warp x.wid).live && !s.saved.any (fun y => y.roaming && y.warps.any (fun e => e.1 = x.wid))
    (s.resumeCmds resumes).formWarp p.1 p.2 slot c
  else c.nymphs.foldl State.discard s

/-- COMB_WARP_FORM: the first ready comb of a core that has a place forms a warp (R25, R201). -/
def execCombWarpForm (k : Nat) (s : State) : Host.Outcome State Fault Refusal :=
  let mine := s.items.filter (fun x => match x with | .comb core c => decide (core = k) && s.combSees c | _ => false)
  .next (match minBy s.itemRank (mine.filter (fun x => (s.mayPlace x).isSome)) with
    | some (.comb core c) =>
      let x : Item := .comb core c
      let s1 := s.updArr core (fun a => { a with combs := a.combs.filter (fun d => d ≠ c) })
      ((s1.placeComb x ((s.mayPlace x).getD (core, 0)) c).settleArr core).tidyHolds.drawn
    | _ => s.drawn)

/-- POOL_COMB_PLACE: the first ready pool comb of a cluster that has a place forms a warp there (R290). -/
def execPoolCombPlace (k : Nat) (s : State) : Host.Outcome State Fault Refusal :=
  let mine := s.items.filter (fun x => match x with | .pool cl _ => decide (cl = k) | _ => false)
  .next (match minBy s.itemRank (mine.filter (fun x => (s.mayPlace x).isSome)) with
    | some (.pool cl c) =>
      let x : Item := .pool cl c
      let s1 := s.updPool cl (fun p => { p with combs := p.combs.filter (fun d => d ≠ c) })
      let s2 := s1.placeComb x ((s.mayPlace x).getD (0, 0)) c
      (s2.settlePool cl).tidyHolds.drawn
    | _ => s.drawn)

/-! ### Workgroups (R377 to R379, R418) -/

/-- Lane L of the warp with an index in workgroup g, at entry (R377). -/
def Launch.entryLane (l : Launch) (g index L tid : Nat) : Lane :=
  let w0 := 32 * index + L
  let regs : Tab Word := Tab.set 0 [] 0 (BitVec.ofNat 64 w0)
  let regs2 := match l.splice with
    | some p => if p.namesW0 then regs.set 0 p.offW (BitVec.ofNat 64 w0) else regs
    | none => regs
  { tid := tid, st := .ready, pc := l.r.entry, regs := regs2, wsp := l.r.wspOf (g * 32 * l.r.warps + w0), entry := true,
    acq := l.acq }

/-- The scalar registers of a warp of workgroup g at entry: those of the launch, and those that the consumer of a fused
launch names (R377, R418). -/
def Launch.entryScalars (l : Launch) (g : Nat) : Tab Word :=
  let own : Tab Word := ((Tab.set 0 [] 0 (BitVec.ofNat 64 g)).set 0 1 l.r.arg).set 0 2 (BitVec.ofNat 64 l.r.grid)
  match l.splice with
  | none => own
  | some p =>
    let put (on : Bool) (t : Tab Word) (k : Nat) (v : Word) : Tab Word := if on then t.set 0 (k + p.offS) v else t
    put p.namesS2 (put p.namesS1 (put p.namesS0 own 0 (BitVec.ofNat 64 g)) 1 p.q.arg) 2 (BitVec.ofNat 64 p.q.grid)

/-- The next workgroup of a launch placed on a partition (R192, R377, R379): the lowest free slots, a scratchpad range,
its threads ready at the entry. -/
def State.placeGroup (s : State) (k core part : Nat) : State :=
  let x : Item := .group k
  let l := s.launch k
  let g := l.placed
  let n := l.r.warps
  let slots := (s.slotsFor x core part).take n
  let key := s.serial
  let wids := (List.range n).map (fun i => key + 1 + i)
  let base := (freeRange (s.ranges x core) l.r.scratch (Config.number (s.draws + 1))).getD 0
  let group : Group :=
    { live := true, core := core, part := part, dom := l.r.dom, launch := k, g := g, warps := wids, sbase := base,
      ssize := l.r.scratch, acc := l.r.acc }
  let warp (i : Nat) : Warp :=
    { live := true, core := core, part := part, slot := slots.getD i 0, dom := l.r.dom, launch := k, group := key, index := i,
      sregs := l.entryScalars g,
      lanes := (List.range 32).map (fun L => (L, l.entryLane g i L (key + 1 + n + 32 * i + L))) }
  let s1 : State := { s with
    warps := (List.range n).foldl (fun (t : Tab Warp) i => t.set {} (key + 1 + i) (warp i)) s.warps
    groups := s.groups.set {} key group
    serial := key + 1 + 33 * n
    draws := s.draws + 2 }
  let s2 := s1.updLaunch k (fun l => { l with placed := g + 1 })
  let s3 := if l.r.acc then (s2.takeHalf (2 * core + part) (2 * key)).updMat (2 * core + part) (fun _ => {}) else s2
  wids.foldl State.meetGrace s3

/-! ### Pre-emption (R394) -/

/-- A context that a pre-emption may save: a workgroup or a roaming warp, by its key. -/
structure Victim where
  roaming : Bool
  key : Nat
  dl : Nat
  deriving DecidableEq

/-- The contexts of a partition whose effective deadlines are later than an item's, and of which no save is asked yet, latest
first. -/
def State.victims (s : State) (x : Item) (core part : Nat) : List Victim :=
  let mine := (s.launch x.launch).effective
  let gs := (s.groups.filter (fun e => e.2.live && decide (e.2.core = core) && decide (e.2.part = part))).map
    (fun e => (⟨false, e.1, (s.launch e.2.launch).effective⟩ : Victim))
  let ws := (s.warps.filter (fun e => e.2.live && e.2.roaming && decide (e.2.core = core) && decide (e.2.part = part))).map
    (fun e => (⟨true, e.1, (s.launch e.2.launch).effective⟩ : Victim))
  let asked (v : Victim) : Bool := s.saveReqs.any (fun r => decide (r.target = v.key) && (r.roaming == v.roaming))
  (((gs ++ ws).filter (fun v => decide (mine < v.dl) && !asked v)).mergeSort (fun a b => decide (b.dl ≤ a.dl)))

/-- The state as it would be without some contexts, for a test of room. -/
def State.without (s : State) (vs : List Victim) : State :=
  { s with
    warps := s.warps.filter (fun e => !(vs.any (fun v =>
      if v.roaming then decide (v.key = e.1) && e.2.roaming else decide (v.key = e.2.group) && !e.2.roaming)))
    groups := s.groups.filter (fun e => !(vs.any (fun v => !v.roaming && decide (v.key = e.1)))) }

/-- The contexts to save on a partition so that an item has room: latest deadline first, no more than it needs. -/
def State.plan (s : State) (x : Item) (core part : Nat) : Option (List Victim) :=
  let vs := s.victims x core part
  let room (t : List Victim) : Bool := (s.without t).fits x core part
  match (List.range (vs.length + 1)).find? (fun n => decide (0 < n) && room (vs.take n)) with
  | none => none
  | some n => some ((vs.take n).foldl (fun (t : List Victim) v =>
      let rest := t.filter (fun u => u ≠ v)
      if room rest then rest else t) (vs.take n))

/-- The partitions among which an item's pre-emption chooses: those on which it may be placed; of a pool comb whose cluster has
no free slot, those of every core of the cluster (R290, R394). -/
def State.choices (s : State) (x : Item) : List (Nat × Nat) :=
  match x with
  | .pool cluster c =>
    if s.freeOf (s.roomiest cluster (some c.key.dom)) (some c.key.dom) = 0 then
      (List.range 16).flatMap (fun i => [(16 * cluster + i, 0), (16 * cluster + i, 1)])
    else s.candidates x
  | _ => s.candidates x

/-- The saves that an item without room asks for: on the partition of its choices with the fewest, the first of equals
(R394). -/
def State.preempt (s : State) (x : Item) : State :=
  let plans := (s.choices x).filterMap (fun p => (s.plan x p.1 p.2).map (fun vs => (p, vs)))
  match minBy (fun (e : (Nat × Nat) × List Victim) => e.2.length) plans with
  | none => s
  | some (p, vs) =>
    { s with saveReqs := s.saveReqs ++ vs.map (fun v =>
        { core := p.1, part := p.2, target := v.key, roaming := v.roaming, since := s.feTime,
          item := some (s.itemId x) : SaveReq }) }

/-- WORK_PLACEMENT: the earliest pending item that has no room asks for pre-emption, unless saves it asked for are still to
come; else the earliest workgroup that may be placed is placed (R394). -/
def execWorkPlacement (s : State) : Host.Outcome State Fault Refusal :=
  .next (match minBy s.itemRank s.items with
    | none => s.drawn
    | some top =>
      let asked := s.saveReqs.any (fun r => decide (r.item = some (s.itemId top)))
      let t := if (s.target top).isNone ∧ ¬asked then s.preempt top else s
      if t ≠ s then t.drawn
      else
        let groups := s.items.filter (fun x => match x with | .group _ => true | _ => false)
        match minBy s.itemRank (groups.filter (fun x => (s.mayPlace x).isSome)) with
        | some (.group k) =>
          (match s.mayPlace (.group k) with
          | some p => (s.placeGroup k p.1 p.2).tidyHolds
          | none => s.drawn)
        | _ => s.drawn)

/-! ### Saving (R203, R204, R259 to R264, R327, R363, R364, R396) -/

/-- How a roaming lane leaves for the hive (R204): its PC, the scope of a trailing wait, whether its registration stays,
and whether what it has under way is given up.  R204 names no lane that waits in BAR.HOLD, CVSIGN or CVWAIT: the model has it
issue its instruction again in its new warp; the marks and the sign records of its old warp are not carried (log entry 80). -/
def Lane.leaving (l : Lane) : Word × Option Sc × Bool × Bool :=
  match l.wait with
  | some { instr := .launch .., phase := .sent, .. } => (nextPc l.pc, none, false, false)
  | some { instr := .atom _ _ _ sc _ _ _ _ _ _, phase := .trailing, .. } => (nextPc l.pc, some sc, false, false)
  | some { instr := .cas _ _ sc _ _ _ _ _ _, phase := .trailing, .. } => (nextPc l.pc, some sc, false, false)
  | some { instr := .mwait .., .. } => (l.pc, none, l.monitor, true)
  | _ => (l.pc, l.trail, false, true)

/-- A lane with a second resident frame spills it, or traps on the failing write (R143). -/
def State.hiveSpill (s : State) (wid L : Nat) : State :=
  let l := s.lane wid L
  let x := l.leaving
  if l.resf ≠ 2 then s
  else
    let s1 := s.setIssue wid x.1 [L] (s.wordAt (s.warp wid) x.1)
    let base := l.wsp - 192
    match s1.spillAcc (fun j => base + BitVec.ofNat 64 (8 * j)) 1 false true with
    | some e =>
      let s2 := match l.wait with | some w => if x.2.2.2 then s1.forget l.tid L w.serial else s1 | none => s1
      ((s2.updLane wid L (fun l => { l with pc := x.1, monitor := false })).raise [(L, e)]).blank
    | none => ((s1.spillStores L base).updLane wid L (fun l => { l with wsp := l.wsp - 192, resf := 1 })).blank

/-- A roaming lane leaves as a nymph to the hive of its own core (R203, R204). -/
def State.leaveHive (s : State) (wid L : Nat) : State :=
  let w := s.warp wid
  let l := w.lane L
  let x := l.leaving
  let s1 := match l.wait with | some k => if x.2.2.2 then s.forget l.tid L k.serial x.2.2.1 else s | none => s
  let n := s1.packLane w l x.1 w.core
  let n' := { n with
    acq := l.acq, entry := l.entry, after := s.serial, trail := x.2.1,
    registered := x.2.2.1, waitPc := l.wait.isSome }
  let s2 := s1.updArr w.core (fun a => { a with hive := a.hive ++ [n'] })
  (s2.settleArr w.core).leaveLane wid L

/-- Is a roaming warp saved whole: a lane is in a handler, is parked, alone or with its launch, or belongs to a fragment
(R264, R399)? -/
def State.whole (s : State) (wid : Nat) : Bool :=
  let w := s.warp wid
  decide ((s.launch w.launch).st = .parked) ||
    w.liveLanes.any (fun L => let l := w.lane L; l.handler || decide (l.st = .parked) || decide (l.st = .entering))

/-- A roaming warp's lanes leave for the hive, and the commands that name its buffers pause (R203, R327); while a spill
traps, the warp stays to be saved whole. -/
def State.saveRoaming (s : State) (wid : Nat) : State :=
  let s1 := ((s.warp wid).liveLanes).foldl (fun (t : State) L => t.hiveSpill wid L) s
  if s1.whole wid then s1
  else ((s1.warp wid).liveLanes).foldl (fun (t : State) L => t.leaveHive wid L)
    (s1.pauseCmds (fun c => decide (c.wid = wid) && decide (c.group = 0)))

/-- May every lane of a roaming warp leave: its completion times lie less than 2^20 ns ahead (R197 step 4, R203)? -/
def State.mayLeave (s : State) (wid : Nat) : Bool :=
  let w := s.warp wid
  w.liveLanes.all (fun L => decide ((w.lane L).cmaxs.toNat < s.localTime w.core + 2 ^ 20))

/-- Does a warp have a short wait in progress that ends before a save: a RECORD, or a write of CBCFG (R396)? -/
def State.settling (s : State) (wid : Nat) : Bool :=
  s.cbWrites.any (fun x => x.1.wid = wid) ||
    ((s.warp wid).liveLanes.any (fun L => match (s.lane wid L).wait with | some { instr := .record .., .. } => true | _ => false))

/-- WFILL, decoding loads, TLBINV, RCFENCE and MCOND are given up by a save, and issue again; an MCOND leaves its output
part-way (R154, R190, R268, R337, R368). -/
def State.unwaitLoads (s : State) (wid : Nat) : State :=
  ((s.warp wid).liveLanes).foldl (fun (t : State) L =>
    match (s.lane wid L).wait with
    | none => t
    | some w =>
      let load := (match w.instr with | .wfill .. | .tlbinv .. | .rcfence .. | .mcond .. => true | _ => false) ||
        s.decodes.any (fun d => decide (d.ret.wid = wid) && decide (d.ret.serial = w.serial))
      if load then
        (t.forget (s.lane wid L).tid L w.serial).updLane wid L (fun l => { l with st := .ready, wait := none })
      else t) (s.condTorn (fun x => x.1 = wid))

/-- Bytes 0 to 0x13FF of a workgroup save area (R259). -/
def Group.image (g : Group) : List Byte :=
  (List.range 16).flatMap (fun k => leBytes 8 (g.gregs.get 0 k).toNat) ++
  (List.range 8).flatMap (fun b =>
    let x := g.bars.get {} b
    leBytes 8 (x.gen.toNat * 2 ^ 32 + x.expect % 256 * 2 ^ 8 + x.arrived % 256)) ++
  (leBytes 8 (b2n g.acc * 64 + g.warps.length) ++ leBytes 8 (scratchWord (g.sbase, g.ssize)).toNat ++ leBytes 48 0) ++
  (List.range 8).flatMap (fun n => leBytes 8 (g.cbufs.get {} n).cfg.toNat ++ leBytes 8 (g.cbufs.get {} n).stat.toNat) ++
  (List.range 16).flatMap (fun k => (g.tls.get {} k).image) ++ leBytes 128 0

/-- The matrix context of a unit (R364).  An operation that only waits to start counts as none in progress here: its
instruction word and ACT to WD are zero (DESIGN CHOICE, log entry 95); of an invalid plane the bytes that it last held are saved
(DESIGN CHOICE, log entry 96). -/
def MatUnit.image (u : MatUnit) (narrow : Bool) : List Byte :=
  let o := u.op
  let on := decide (u.st = .paused) || decide (u.st = .running)
  let w (x : Word) : List Byte := leBytes 8 (if on then x.toNat else 0)
  (List.range 3).flatMap (fun i => leBytes 8 (u.word narrow i).toNat) ++
  leBytes 12 (if on then o.word.toNat else 0) ++ leBytes 4 0 ++ w o.act ++ w o.accd ++ w o.amap ++ w o.wmap ++ w o.wd ++
  leBytes 48 0 ++ u.active.bytes.getN 0 0 98304 ++ u.shadow.bytes.getN 0 0 98304

/-- The bytes of a piece of a save area line by line. -/
def linesFrom : Nat → Nat → List Byte → List (Nat × List Byte)
  | 0, _, _ => []
  | fuel + 1, va, bs => if bs = [] then [] else (va, bs.take (64 - va % 64)) :: linesFrom fuel (va + (64 - va % 64)) (bs.drop (64 - va % 64))

/-- The lines of the pieces of a save area. -/
def areaLines (ps : List (Nat × List Byte)) : List (Nat × List Byte) :=
  ps.flatMap (fun p => linesFrom (p.2.length / 64 + 2) p.1 p.2)

/-- The pieces of a workgroup's save area (R259, R364): the workgroup with its warps, the scratchpad image, the
accumulator image and the matrix context. -/
def State.areaPieces (s : State) (base : Nat) (g : Group) (ws : List (Nat × Warp)) (scratch acc mat : List Byte) :
    List (Nat × List Byte) :=
  let rest := base + 0x1400 + 0x6000 * ws.length
  [(base, g.image)] ++
  ws.map (fun e => (base + 0x1400 + 0x6000 * e.2.index + 0x1000,
    e.2.record (s.outstanding e.1) (decide ((s.launch g.launch).st = .parked)))) ++ [(rest, scratch)] ++
  (if g.acc then [(rest + g.ssize, acc), (rest + g.ssize + 131072, mat)] else [])

/-- The pieces of a resident workgroup's save area. -/
def State.groupPieces (s : State) (base : Nat) (g : Group) : List (Nat × List Byte) :=
  let p := 2 * g.core + g.part
  s.areaPieces base g (g.warps.map (fun wid => (wid, s.warp wid))) (s.scratch.getN unwritten (scratchKey g.core g.sbase) g.ssize)
    (s.acc.getN unwritten (accKey p 0) 131072) ((s.part p).mat.image s.host.narrow)

/-- The room that a save frees, held for the pending work that asked for it (R394). -/
def SaveReq.hold (r : SaveReq) (slots : List Nat) (range : Nat × Nat) (acc : Bool) : List Hold :=
  match r.item with
  | some x => [{ item := x, core := r.core, part := r.part, slots := slots, range := range, acc := acc }]
  | none => []

/-- A workgroup's state is read out, and its place is free; its lines are still to be written (R264, R396). -/
def State.saveGroup (s : State) (r : SaveReq) : State :=
  let key := r.target
  let g := s.group key
  let p := 2 * g.core + g.part
  let s1 := g.warps.foldl State.unwaitLoads (if g.acc then s.pauseMat p else s)
  let s2 := s1.pauseCmds (fun c => c.group = key)
  let base := (s.launch g.launch).areaVa g.g
  let c : Saved :=
    { id := s2.serial, group := s2.group key, warps := g.warps.map (fun wid => (wid, s2.warp wid)),
      base := BitVec.ofNat 64 base, roaming := false, acc := g.acc, unit := if g.acc then (s2.part p).mat else {},
      order := s2.serial, pieces := areaLines (s2.groupPieces base g), since := r.since,
      time := BitVec.ofNat 64 (s.localTime g.core) }
  let s3 : State := { s2 with
    serial := s2.serial + 1
    saved := s2.saved ++ [c]
    warps := g.warps.foldl Tab.erase s2.warps
    groups := s2.groups.erase key
    holds := s2.holds ++ r.hold (g.warps.map (fun wid => (s.warp wid).slot)) (g.sbase, g.ssize) g.acc
    saveReqs := (s2.unsaved false key).saveReqs }
  if g.acc then s3.updMat p (fun _ => {}) else s3

/-- A roaming warp read out whole for the record of its slot (R260, R264); a domain without a region gives it no record, so
its save cannot complete. -/
def State.saveWhole (s : State) (r : SaveReq) : State :=
  let wid := r.target
  let s1 := (s.unwaitLoads wid).pauseCmds (fun c => decide (c.wid = wid) && decide (c.group = 0))
  let w := s1.warp wid
  let va := s1.recordVa wid
  if (s.domain w.dom).rsave = 0 then s1
  else
    let lines := areaLines [(va + 0x1000, w.record (s1.outstanding wid) (decide ((s.launch w.launch).st = .parked)))]
    let c : Saved :=
      { id := s1.serial, warps := [(wid, w)], base := BitVec.ofNat 64 va, roaming := true, order := s1.serial, pieces := lines,
        since := r.since, time := BitVec.ofNat 64 (s.localTime w.core) }
    { s1 with
      serial := s1.serial + 1
      saved := s1.saved ++ [c]
      warps := s1.warps.erase wid
      holds := s1.holds ++ r.hold [w.slot] (0, 0) false
      saveReqs := (s1.unsaved true wid).saveReqs }

/-- The saved contexts whose lines are not all written. -/
def State.draining (s : State) : List Saved := s.saved.filter (fun c => decide (c.pieces ≠ []))

/-- The domain of a saved context. -/
def Saved.dom (c : Saved) : Nat := ((c.warps.head?).map (·.2.dom)).getD c.group.dom

/-- The launch of a saved context. -/
def Saved.launchOf (c : Saved) : Nat := ((c.warps.head?).map (·.2.launch)).getD c.group.launch

/-- The next line of a saved context written, where it translates with W on a PLAIN page (R396). -/
def State.drainSave (s : State) (c : Saved) : State :=
  match c.pieces with
  | [] => s
  | p :: _ =>
    match s.writeVa c.dom p.1 p.2 with
    | .error _ => s
    | .ok r => { r.1 with saved := r.1.saved.map (fun x => if x.id = c.id then { x with pieces := x.pieces.drop 1 } else x) }

/-- Has a save asked for at a time run out of its 8 us (R397)? -/
def State.saveLate (s : State) (since : Nat) : Bool := decide (since + 8000 ≤ s.feTime)

/-- CONTEXT_SAVE: a save asked for is made, or the next line of one already read out is written: k counts the requests and
after them the contexts that still drain (R264, R396).  Past its 8 us a save goes no further (R397). -/
def execContextSave (k : Nat) (s : State) : Host.Outcome State Fault Refusal :=
  .next (match s.saveReqs[k]? with
    | none =>
      (match s.draining[k - s.saveReqs.length]? with
      | some c => if s.saveLate c.since then s else s.drainSave c
      | none => s)
    | some r =>
      if s.saveLate r.since then s
      else if r.roaming then
        if ¬(s.warp r.target).live then { s with saveReqs := removeAt s.saveReqs k }
        else if s.settling r.target then s
        else if s.whole r.target then s.saveWhole r
        else if ¬s.mayLeave r.target then s
        else
          let t := s.saveRoaming r.target
          (if (t.warp r.target).live then t
          else { t with holds := t.holds ++ r.hold [(s.warp r.target).slot] (0, 0) false }).drawn
      else if ¬(s.group r.target).live then { s with saveReqs := removeAt s.saveReqs k }
      else if (s.group r.target).warps.any s.settling then s
      else s.saveGroup r)

/-- A launch one of whose contexts is reset: it is cancelled, FORCED is set, and the host is told (R397). -/
def State.forceCancel (s : State) (launch : Nat) : State :=
  ((s.updLaunch launch (fun l => { l with forced := true })).cancelLaunch launch).postEq (s.launch launch).r.dom 2 0 launch 0 0

/-- SAVE_TIMEOUT: a save is not completely written 8 µs after its request: the context is reset, its lanes exit, its commands
stop, its launch is cancelled, and the host is told; k counts as for CONTEXT_SAVE (R397). -/
def execSaveTimeout (k : Nat) (s : State) : Host.Outcome State Fault Refusal :=
  .next (match s.saveReqs[k]? with
    | none =>
      (match s.draining[k - s.saveReqs.length]? with
      | some c => if ¬s.saveLate c.since ∨ ¬s.roomFor c.dom 3 then s else s.forceCancel c.launchOf
      | none => s)
    | some r =>
      let launch := if r.roaming then (s.warp r.target).launch else (s.group r.target).launch
      if ¬(if r.roaming then (s.warp r.target).live else (s.group r.target).live) then { s with saveReqs := removeAt s.saveReqs k }
      else if ¬s.saveLate r.since ∨ ¬s.roomFor (s.launch launch).r.dom 3 then s
      else ({ s with saveReqs := removeAt s.saveReqs k } : State).forceCancel launch)

/-! ### Restoring (R240, R263, R265, R364) -/

/-- The mode of a plane by its code (R374). -/
def modeOf (c : Nat) : Option MatMode :=
  match c with
  | 8 => some .f64 | 9 => some .f32 | 10 => some .f16 | 11 => some .bf16
  | _ => if h : c - 0x11 < 49 then (if 0x11 ≤ c then some (.bfp ⟨c - 0x11, h⟩) else none) else none

/-- The operation that a word describes, over what the context cannot hold. -/
def opFrom (word : InstrWord) (o : MatOp) : MatOp :=
  match decode word with
  | .instr (.mma _ m cv _ _ _) => { o with word := word, mode := m, sparse := false, cv := cv.map (·.val) }
  | .instr (.mmas _ m _ cv _ _ _) => { o with word := word, mode := m, sparse := true, cv := cv.map (·.val) }
  | _ => o

/-- A matrix unit as its context gives it, over what the context cannot hold; none where the context is refused (R364,
R265). -/
def matFrom (bs : List Byte) (held : MatUnit) : Option MatUnit :=
  let f (off n : Nat) : Nat := leNat ((bs.drop off).take n)
  let w (off : Nat) : Word := BitVec.ofNat 64 (f off 8)
  let st := f 0 8
  if f 0x24 4 ≠ 0 ∨ f 0x50 48 ≠ 0 ∨ 5 < st % 8 then none
  else
    let plane (off code : Nat) (p : Plane) : Plane :=
      { mode := modeOf code, bwCode := p.bwCode, bytes := Tab.setN 0 [] 0 ((bs.drop off).take 98304) }
    let on := decide (st % 8 = 2) || decide (st % 8 = 3)
    let o1 := if on then
        { opFrom (BitVec.ofNat 96 (f 0x18 12)) held.op with
          act := w 0x28, accd := w 0x30, amap := w 0x38, wmap := w 0x40, wd := w 0x48 }
      else held.op
    let o2 := if st % 8 = 1 then o1 else
      { o1 with
        pass := f 8 8 / 2 ^ 16 % 128, row := f 8 8 % 1024, tag := BitVec.ofNat 32 (f 0x14 4), members := BitVec.ofNat 32 (f 0x10 4),
        steps := st / 2 ^ 56, scans := st / 2 ^ 48 % 256, skips := st / 2 ^ 40 % 256, narrowed := decide (st / 64 % 2 = 1) }
    some { held with
      active := plane 0x80 (st / 2 ^ 8 % 256) held.active, shadow := plane 0x18080 (st / 2 ^ 16 % 256) held.shadow,
      mflags := BitVec.ofNat 5 (st / 2 ^ 24), op := o2,
      st := match st % 8 with | 0 => .none | 1 => held.st | 2 => .running | 3 => .paused | 4 => .complete | _ => .aborted }

/-- A timeline context as its words give it, over what they cannot hold. -/
def timelineFrom (bs : List Byte) (held : Timeline) : Timeline :=
  let f (off : Nat) : Nat := leNat ((bs.drop off).take 8)
  { held with
    issued := f 0, done := f 8, ce := BitVec.ofNat 64 (f 0x10),
    errq := (List.range (Nat.min (f 0x18) 16)).map (fun i =>
      let n := f (0x20 + 16 * i)
      let x := f (0x28 + 16 * i)
      let old : TlErr := (held.errq.find? (fun e => e.n = n)).getD { n := n, cause := 0, sub := 0, info0 := 0 }
      { old with cause := BitVec.ofNat 8 x, sub := BitVec.ofNat 8 (x / 256) }) }

/-- A workgroup as bytes 0 to 0x13FF of its save area give it, over what they cannot hold (R259): that the expected count of
a barrier is evaluated again at exits (R144) is kept beside them, as long as they show that count. -/
def groupFrom (bs : List Byte) (held : Group) : Group :=
  let f (off n : Nat) : Nat := leNat ((bs.drop off).take n)
  { held with
    gregs := (List.range 16).foldl (fun (t : Tab Word) k => t.set 0 k (BitVec.ofNat 64 (f (8 * k) 8))) []
    bars := (List.range 8).foldl (fun (t : Tab Barrier) b =>
      let x := f (0x80 + 8 * b) 8
      let n := x % 256
      let e := x / 256 % 256
      let old := held.bars.get {} b
      let zero := decide (n ≠ 0) && (decide (e = 0) || (old.zero && decide (e = old.expect % 256)))
      t.set {} b { arrived := n, expect := e, zero := zero, gen := BitVec.ofNat 32 (x / 2 ^ 32) }) []
    cbufs := (List.range 8).foldl (fun (t : Tab CBuf) n =>
      let c := f (0x100 + 16 * n) 8
      let v := f (0x108 + 16 * n) 8
      t.set {} n { nslots := c / 2 ^ 52, slotb := c / 2 ^ 32 % 2 ^ 20, base := c % 2 ^ 21, free := v / 2 ^ 48 % 4096,
                   filled := v / 2 ^ 36 % 4096, taken := v / 2 ^ 24 % 4096, head := v / 2 ^ 12 % 4096, tail := v % 4096 }) []
    tls := (List.range 16).foldl (fun (t : Tab Timeline) k =>
      t.set {} k (timelineFrom (bs.drop (0x180 + 288 * k)) (held.tls.get {} k))) [] }

/-- A lane as its block gives it, with the wait that the block cannot hold (R262): one that was parked with its launch takes
its own state again (R399), and a FENCE issues again (R237). -/
def laneBack (rec : List Byte) (L : Nat) (held : Lane) (tid : Nat) : Lane :=
  let l := laneFrom rec L held true
  let l := if l.st = .parked then { l with st := held.st } else l
  let dl : Word := BitVec.ofNat 64 (recField rec (0x1000 + 64 * L + 0x38) 8)
  let timed (w : Wait) : Wait := match w.instr with | .mwait .. | .ccwait .. | .sleep .. => { w with dl := dl } | _ => w
  let l := if l.tid = 0 ∧ l.st ≠ .exited then { l with tid := tid } else l
  match l.st, held.wait with
  | .waiting, some { instr := .fence .., .. } => { l with st := .ready, wait := none }
  | .waiting, some w => { l with wait := some (timed w) }
  | .waiting, none => { l with st := .ready, wait := none }
  | .ready, _ =>
    if held.st = .entering ∧ l.frag = held.frag then { l with st := .entering, wait := none }
    else { l with wait := none, monitor := false }
  | .departing, _ => { l with st := .ready, wait := none }
  | _, _ => { l with wait := none }

/-- A restored lane that waits in MWAIT or CCWAIT, the first of those that share the wait: a recorded wake, a deadline passed
or a lost registration ends the MWAIT; CCWAIT stays waiting, and reads its counter anew, once where its deadline has passed
(R235, R240, R299). -/
def State.settleWatch (s : State) (wid L : Nat) : State :=
  let l := s.lane wid L
  match l.wait.bind (fun w => w.watch.map (fun x => (w, x.1, x.2))) with
  | none => s
  | some (w, key, r) =>
    let all := r.lanes.filter (fun K => match (s.lane wid K).wait with
      | some x => decide (x.serial = w.serial) && decide ((s.lane wid K).st = .waiting)
      | none => false)
    if all.head? ≠ some L then s
    else
      let sent := s.net.any (fun m => match m.ret with | some q => q.tids.contains l.tid && decide (q.serial = w.serial) | none => false)
      let lost := !l.monitor && !sent
      let late := decide (w.dl.toNat ≤ s.localTime (s.warp wid).core)
      let anew := (all.foldl (fun (t : State) K => t.forget (s.lane wid K).tid K w.serial) s).updLanes wid all
        (fun l => { l with wake := false, monitor := false })
      let kept := s.updLanes wid all (fun l => { l with
        wake := false, wait := l.wait.map (fun w => { w with phase := if l.monitor then .watching else .sent }) })
      match w.instr with
      | .mwait .. =>
        if l.wake ∨ late ∨ lost then
          (anew.answer { r with finish := false } [if l.wake then 0 else if late then 1 else 2]).finishWait wid all
        else kept
      | .ccwait .. =>
        if late then anew.askAgain r key (.read 8) else if l.wake ∨ lost then anew.askAgain r key (.monitor 8 0 true) else kept
      | _ => s

/-- A saved warp read back from its record: the warp, whose threads do not issue before local time passes the save's (R28),
and the lanes that the checks of R265 refuse. -/
def State.readWarp (s : State) (c : Saved) (w : Warp) (refused : Bool) : Warp × List Nat :=
  let rec' := s.readSpan w.dom 400 (c.recordVa w + 0x1000) 0x5000
  let bad := refused || !recordOk rec' w.dom w.launch
  let fails := (List.range 32).filter (fun L => (bad || !laneOk rec' L) && decide (recField rec' (0x1028 + 64 * L) 1 % 4 ≠ 3))
  let w1 := warpFrom rec' w (fun k => s.cv (cvIndex (clusterOf w.core) k))
  let lanes : Tab Lane := (List.range 32).foldl (fun (t : Tab Lane) L =>
    let l := laneBack rec' L (w.lane L) (s.serial + 32 * w.index + L)
    t.set {} L (if l.st = .exited then l else { l with acq := BitVec.ofNat 64 (Nat.max l.acq.toNat c.time.toNat) })) []
  (({ w1 with lanes := lanes } : Warp).refrag, fails)

/-- A restored warp once it stands in its slot: its monitors are settled, and refused lanes are exited with a report
(R265). -/
def State.settleWarp (s : State) (wid : Nat) (x : Warp × List Nat) : State :=
  let s2 := (x.1.liveLanes.filter (fun L => !x.2.contains L)).foldl (fun (t : State) L => t.settleWatch wid L) s
  match x.2 with
  | [] => s2
  | L :: _ =>
    let o := s.originAt x.1.launch (x.1.lane L).pc
    let f : Frag :=
      { id := 0, lanes := 0, sib := 0, parent := 0, slot := 0, st := .pending, ev := { cause := 0x11, sub := 0x04 },
        origin := o.1, pc := (x.1.lane L).pc, origpc := o.2, time := BitVec.ofNat 64 (s.localTime x.1.core) }
    s2.doubleFault wid x.2 0x04 none f f.ev

/-- Lanes that their record shows exited, by a host's answer for one (R258, R263), are ended. -/
def State.endGone (s : State) (wid : Nat) (held back : Warp) : State :=
  let gone := (List.range 32).filter (fun L => decide ((held.lane L).st ≠ .exited) && decide ((back.lane L).st = .exited))
  if gone = [] then s else (s.updLanes wid gone (fun l => { l with st := .ready })).exitLanes wid gone

/-- Restored warps in their slots; `helds` are the warps as they were saved.  Their barriers are looked at again: results
that came meanwhile may let an arrival be counted (R144, R147). -/
def State.putWarps (s : State) (helds : List (Nat × Warp)) (xs : List (Nat × Warp × List Nat)) : State :=
  let s1 := xs.foldl (fun (t : State) x => t.setWarp x.1 x.2.1) s
  let s2 := xs.foldl (fun (t : State) x => t.settleWarp x.1 x.2) s1
  let s3 := (helds.zip xs).foldl (fun (t : State) e => t.endGone e.1.1 e.1.2 e.2.2.1) s2
  xs.foldl (fun (t : State) x => t.barRetest x.1) s3

/-- A saved context restored to its place (R265, R327, R363). -/
def State.restoreCtx (s : State) (c : Saved) : State :=
  let s1 : State := { s with saved := s.saved.filter (fun x => x.id ≠ c.id) }
  if c.roaming then
    let s2 := ({ s1 with serial := s1.serial + 1024 } : State).putWarps c.warps
      (c.warps.map (fun e => (e.1, s.readWarp c e.2 false)))
    s2.resumeCmds (fun x => decide (x.group = 0) && c.warps.any (fun e => decide (e.1 = x.wid)))
  else
    let g := c.group
    let key := ((c.warps.head?).map (·.2.group)).getD 0
    let p := 2 * g.core + g.part
    let rest := c.base.toNat + 0x1400 + 0x6000 * g.warps.length
    let s2 : State := { s1 with
      serial := s1.serial + 1024
      groups := s1.groups.set {} key (groupFrom (s.readSpan g.dom 90 c.base.toNat 0x1400) g)
      scratch := s1.scratch.setN unwritten (scratchKey g.core g.sbase) (s.readSpan g.dom (g.ssize / 64 + 2) rest g.ssize) }
    let unit := matFrom (s.readSpan g.dom 3100 (rest + g.ssize + 131072) 196736) c.unit
    let s3 : State := if ¬g.acc then s2 else
      ({ s2 with acc := s2.acc.setN unwritten (accKey p 0) (s.readSpan g.dom 2100 (rest + g.ssize) 131072) } : State).updMat p
        (fun _ => unit.getD {})
    let s4 := if g.acc then s3.takeHalf p (2 * key) else s3
    let s5 := s4.resumeCmds (fun x => x.group = key)
    let s6 := s5.putWarps c.warps (c.warps.map (fun e => (e.1, s.readWarp c e.2 (g.acc && unit.isNone))))
    let s7 := if g.acc then s6.resumeMat p (s6.part p).mat else s6
    ((c.warps.head?).map (·.1)).elim s7 s7.reap

/-- CONTEXT_RESTORE: the k-th saved context is restored, when it may be placed (R265, R394). -/
def execContextRestore (k : Nat) (s : State) : Host.Outcome State Fault Refusal :=
  .next (match s.saved[k]? with
    | none => s
    | some c =>
      if s.restoreDue c ∧ (s.mayPlace (.restore c)).isSome then (s.restoreCtx c).drawn else s.drawn)

end Sys2Proof.Machine
end

