-- ==== Sys2Proof/Machine/Linker.lean ====
section
/-! DEFINITION. Admission and the splice linker (spec/14_launch R381, R385, R387, R388; spec/15_splice R408 to R426): how
submissions are read, paired, fused and tested, and how a fused launch is taken apart. -/

namespace Sys2Proof

open Machine

/-! ### What an instruction names (R408, R411, R413) -/

/-- Runs of window registers that an instruction names as a block, at their largest extent: the first and the number
(R411 check 7). -/
def Instr.blocks : Instr → List (Nat × Nat)
  | .shfx _ _ k _ _ => [(k.val, 8)]
  | .ldln _ _ k _ _ _ => [(k.val, 8)]
  | .tsto _ _ n _ _ k => [(k.val, n.val + 1)]
  | .tlod _ _ n k _ _ => [(k.val, n.val + 1)]
  | .push _ _ (.win k) _ _ => [(k.val, 8)]
  | .spawn _ _ (.win k) _ _ | .spawna _ _ (.win k) _ _ | .spawnd _ (.win k) _ _ => [(k.val, 8)]
  | .record _ _ k _ => [(k.val, 32)]
  | _ => []

/-- The window registers of a run. -/
def runRegs (r : Nat × Nat) : List Nat := ((List.range r.2).map (r.1 + ·)).filter (fun k => decide (k < 32))

/-- The window registers that an instruction names, blocks with all their registers. -/
def Instr.wins (i : Instr) : List Nat :=
  i.specs.filterMap (fun x => match x with | .win k => some k.val | _ => none) ++ i.blocks.flatMap runRegs

/-- The predicates p0 to p6 that an instruction names; a PMOV of the producer names them all (R413). -/
def Instr.predsNamed (i : Instr) (producer : Bool) : List Nat :=
  ((i.head.g.p.val :: i.specs.filterMap (fun x => match x with | .pred k => some k.val | _ => none)) ++
    (match i with
    | .pmovGet .. | .pmovSet .. => if producer then List.range 7 else []
    | _ => [])).filter (· ≠ 7)

/-- The barrier that an instruction names. -/
def Instr.barrier : Instr → Option Nat
  | .barHold _ b _ | .barPass _ b _ => some b.val
  | _ => none

/-- The circular buffer that an instruction names (R413). -/
def Instr.buffer : Instr → Option Nat
  | .cbget _ _ n | .cbfree _ n => some n.val
  | .krd _ _ r | .kwr _ _ r => if 0x20 ≤ r.toNat ∧ r.toNat < 0x30 then some (r.toNat % 8) else none
  | _ => none

/-- The window registers that an instruction writes. -/
def Instr.destWins (i : Instr) : List Nat :=
  match i with
  | .ldln _ _ k _ _ _ => runRegs (k.val, 8)
  | .tlod _ _ n k _ _ => runRegs (k.val, n.val + 1)
  | .mwait _ _ _ d _ _ _ _ => [d.val]
  | _ => i.destSpecs.filterMap (fun x => match x with | .win k => some k.val | _ => none)

/-- The convergence registers that an instruction names, as a mask. -/
def Instr.cvMask (i : Instr) : BitVec 16 :=
  i.specs.foldl (fun m x => match x with | .cv k => m ||| BitVec.ofNat 16 (2 ^ k.val) | _ => m) 0

/-- Is the guard "always"? -/
def Guard.always (g : Guard) : Bool := !g.neg && decide (g.p.val = 7)

end Sys2Proof

namespace Sys2Proof.Machine

/-! ### Kernels as the linker reads them (R40, R408, R410, R411) -/

/-- An instruction of a kernel: its PC, its word and what it decodes to. -/
structure Code where
  pc : Word
  word : InstrWord
  instr : Option Instr

/-- The instructions of a line; all-zero words are padding (R416). -/
def codeOf (va : Word) (line : List Byte) : List Code :=
  (List.range 5).filterMap (fun i =>
    let w := slotWord line i
    if w = 0 then none
    else some { pc := va + BitVec.ofNat 64 i, word := w, instr := (match decode w with | .instr x => some x | .illegal _ => none) })

/-- A line of code read at its home, where it translates with R. -/
def State.codeLine (s : State) (dom : Nat) (va : Word) : Option (List Byte) := s.readVa dom va.toNat 64

/-- A kernel as read: its three parts, whether its marks follow R40 and LINKS, whether every line was read, and whether
the end of its epilogue was found. -/
structure Kernel where
  r : Record
  pro : List Code
  body : List Code
  epi : List Code
  marks : Bool
  bodyRead : Bool
  read : Bool
  ended : Bool

/-- Does a code hold an EXIT under an always guard? -/
def Code.ends (c : Code) : Bool := match c.instr with | some (.exit h) => h.g.always | _ => false

/-- SPLICE of a line word (R36). -/
def lineMark (line : List Byte) : Nat := lineWord line / 2 ^ 13 % 4

/-- The epilogue read line by line until the line that holds its EXIT: the instructions, whether the marks are 0b00,
whether every line was read, whether the end was found (R411). -/
def State.readEpilogue (s : State) (dom : Nat) (va : Word) : Nat → List Code × Bool × Bool × Bool
  | 0 => ([], true, true, false)
  | fuel + 1 =>
    match s.codeLine dom va with
    | none => ([], true, false, false)
    | some l =>
      let cs := codeOf va l
      if cs.any Code.ends then (cs, lineMark l = 0, true, true)
      else
        let r := s.readEpilogue dom (va + 64) fuel
        (cs ++ r.1, decide (lineMark l = 0) && r.2.1, r.2.2.1, r.2.2.2)

/-- A kernel read at its homes (R408, R410, R411).  Its prologue is the lines from the line of ENTRY, each with all its words
that are not zero (R416), those before ENTRY's slot among them (log entry 83). -/
def State.readKernel (s : State) (r : Record) : Kernel :=
  let base := lineAddr r.entry
  let at' (j : Nat) : Word := base + BitVec.ofNat 64 (64 * j)
  let pro := (List.range r.first).map (fun j => (j, s.codeLine r.dom (at' j)))
  let body := (List.range (r.last + 1 - r.first)).map (fun j => (r.first + j, s.codeLine r.dom (at' (r.first + j))))
  let code (e : Nat × Option (List Byte)) : List Code :=
    match e.2 with | some l => codeOf (at' e.1) l | none => []
  let mark (e : Nat × Option (List Byte)) (m : Nat) : Bool := match e.2 with | some l => lineMark l = m | none => true
  let epi := s.readEpilogue r.dom (at' (r.last + 1)) 1024
  { r := r, pro := pro.flatMap code, body := body.flatMap code, epi := epi.1,
    marks := pro.all (fun e => mark e 0) && decide (r.first < r.last) &&
      body.all (fun e => mark e (if e.1 = r.first then 2 else if e.1 = r.last then 3 else 1)) && epi.2.1,
    bodyRead := body.all (fun e => e.2.isSome), read := pro.all (fun e => e.2.isSome) && epi.2.2.1, ended := epi.2.2.2 }

/-- All instructions of a kernel. -/
def Kernel.all (k : Kernel) : List Code := k.pro ++ k.body ++ k.epi
/-- The decoded instructions of codes. -/
def instrs (cs : List Code) : List Instr := cs.filterMap (·.instr)
/-- The PC of the body's first slot. -/
def Kernel.bodyPc (k : Kernel) : Word := lineAddr k.r.entry + BitVec.ofNat 64 (64 * k.r.first)
/-- The PC of the first slot after the body. -/
def Kernel.epiPc (k : Kernel) : Word := lineAddr k.r.entry + BitVec.ofNat 64 (64 * (k.r.last + 1))

/-- A TSTO: its handle, its words, its source block. -/
def tstoOf (c : Code) : Option (Nat × Nat × Nat) :=
  match c.instr with | some (.tsto _ hd n _ _ k) => some (hd.val, n.val + 1, k.val) | _ => none
/-- A TLOD: its handle, its words, its destination block. -/
def tlodOf (c : Code) : Option (Nat × Nat × Nat) :=
  match c.instr with | some (.tlod _ hd n k _ _) => some (hd.val, n.val + 1, k.val) | _ => none

/-- Is a kernel a producer: its body holds a TSTO and no TLOD (R410)? -/
def Kernel.produces (k : Kernel) : Bool :=
  k.bodyRead && k.body.any (fun c => (tstoOf c).isSome) && !(k.body.any (fun c => (tlodOf c).isSome))
/-- Is a kernel a consumer (R410)? -/
def Kernel.consumes (k : Kernel) : Bool :=
  k.bodyRead && k.body.any (fun c => (tlodOf c).isSome) && !(k.body.any (fun c => (tstoOf c).isSome))

/-! ### The checks on a pair (R408, R411) -/

/-- The tail of a body: its SUB, CMP and BRA, and the predicate (R408); none where the body is not canonical. -/
def Kernel.tail (k : Kernel) : Option (Fin 8) :=
  let i64 (ty : Ty) : Bool := match ty with | .i64 | .n64 => true | _ => false
  match ((k.body.reverse.take 3).map (fun c => c.instr) : List (Option Instr)) with
  | [some (.bra hb ib), some (.cmp hc .ne tc (.pred q) ac bc ic), some (.sub hs ts (.sca ks) as' .imm is')] =>
    let b := (k.body.getLast?).map (·.pc)
    let sK : Spec := .sca ks
    if decide (ks.val = k.r.creg) && as' == sK && decide (is' = 1) && i64 ts && hs.u && hs.g.always && i64 tc && hc.g.always &&
        decide (q.val ≠ 7) && ac == sK && (bc == .zero || (bc == .imm && decide (ic = 0))) && !hb.g.neg && decide (hb.g.p = q) &&
        (match b with | some pc => decide (relTarget pc ib = k.bodyPc) | none => false)
    then some q else none
  | _ => none

/-- An instruction that check 3 keeps out of a body. -/
def bodyBars (i : Instr) : Bool :=
  match i with
  | .bra .. | .brx .. | .call .. | .callx .. | .ret .. | .exit .. | .rett .. | .ctxrest .. | .wspill .. | .wfill .. => true
  | _ => false

/-- Check 3 of R411. -/
def Kernel.bodyOk (k : Kernel) : Bool :=
  match k.tail with
  | none => false
  | some q =>
    let rest := instrs (k.body.reverse.drop 3)
    rest.all (fun i => !bodyBars i &&
      i.destSpecs.all (fun x => match x with
        | .sca j => decide (j.val ≠ k.r.creg)
        | .pred j => decide (j ≠ q)
        | _ => true))

/-- Do the BRAs of a part stay within its lines, from the first line to the one after its last, round the address space (R43,
R411 check 4)? -/
def brasInside (cs : List Code) (lo hi : Word) : Bool :=
  cs.all (fun c => match c.instr with
    | some (.bra _ imm) => decide ((relTarget c.pc imm - lo).toNat < (hi - lo).toNat)
    | _ => true)

/-- Check 4 of R411. -/
def Kernel.flowOk (k : Kernel) : Bool :=
  let last := lineAddr (((k.epi.getLast?).map (·.pc)).getD 0)
  k.read && (instrs k.all).all (fun i => match i with | .call .. | .callx .. | .ret .. | .brx .. => false | _ => true) &&
    brasInside k.pro (lineAddr k.r.entry) k.bodyPc && brasInside k.epi k.epiPc (last + 64)

/-- Is a code an EXIT? -/
def Code.isExit (c : Code) : Bool := match c.instr with | some (.exit _) => true | _ => false

/-- Check 5 of R411. -/
def exitsOk (p q : Kernel) : Bool :=
  p.ended && q.ended && ((p.epi.getLast?).map Code.ends == some true) && decide ((p.all.filter Code.isExit).length = 1) &&
    !((q.pro ++ q.body).any Code.isExit)

/-- Codes before and after the first that a test accepts. -/
def splitAt {α : Type} (f : α → Bool) : List α → List α × List α
  | [] => ([], [])
  | a :: t => if f a then ([], t) else let r := splitAt f t; (a :: r.1, r.2)

/-- Check 7 of R411, with the source block of the TSTO and the destination block of the TLOD. -/
def tilesOk (p q : Kernel) (src dst : Nat × Nat) : Bool :=
  let S := runRegs src
  let D := runRegs dst
  let meets (a b : List Nat) : Bool := a.any b.contains
  let afterP := instrs (splitAt (fun c => (tstoOf c).isSome) p.body).2
  let parts := splitAt (fun c => (tlodOf c).isSome) q.body
  let straddles (i : Instr) : Bool := i.blocks.any (fun b => meets (runRegs b) D && !((runRegs b).all D.contains))
  !(afterP.any (fun i => meets i.destWins S)) && !((instrs parts.1).any (fun i => meets i.wins D)) &&
    !((instrs parts.2).any (fun i => meets i.destWins D)) && !((instrs q.epi).any (fun i => meets i.wins D)) &&
    !((instrs (parts.1 ++ parts.2)).any straddles)

/-- The mask of the convergence registers that a kernel names. -/
def Kernel.cvs (k : Kernel) : BitVec 16 := (instrs k.all).foldl (fun m i => m ||| i.cvMask) 0

/-- One more than the highest number of a list; 0 for none. -/
def topOf (ns : List Nat) : Nat := ns.foldl (fun m n => Nat.max m (n + 1)) 0

/-- The numbers of one kind that a kernel names. -/
def Kernel.names (k : Kernel) (f : Instr → List Nat) : List Nat := (instrs k.all).flatMap f

/-- Group-shared registers and timeline counters that an instruction names. -/
def Instr.grps (i : Instr) : List Nat := i.specs.filterMap (fun x => match x with | .grp k => some k.val | _ => none)
/-- Timeline counters that an instruction names. -/
def Instr.tls (i : Instr) : List Nat := i.specs.filterMap (fun x => match x with | .tl k => some k.val | _ => none)

/-- The offset of window registers (R413). -/
def Kernel.offW (k : Kernel) : Nat := (topOf (k.names Instr.wins) + 7) / 8 * 8

/-- The producer's offsets but that of window registers (R413). -/
def Kernel.offs (k : Kernel) : Offs :=
  { s := topOf (k.names Instr.scalars), p := topOf (k.names (fun i => i.predsNamed true)), g := topOf (k.names Instr.grps),
    t := topOf (k.names Instr.tls), b := topOf (k.names (fun i => i.barrier.toList)),
    c := topOf (k.names (fun i => i.buffer.toList)) }

/-- Check 9 of R411: the limits of R413. -/
def pressureOk (p q : Kernel) : Bool :=
  let o := p.offs
  let ok (f : Instr → List Nat) (off lim : Nat) : Bool := (q.names f).all (fun k => decide (k + off ≤ lim))
  ok Instr.wins p.offW 31 && ok Instr.scalars o.s 62 && ok (fun i => i.predsNamed false) o.p 6 && ok Instr.grps o.g 15 &&
    ok Instr.tls o.t 15 && ok (fun i => i.barrier.toList) o.b 7 && ok (fun i => i.buffer.toList) o.c 7 &&
    decide (p.r.scratch + q.r.scratch ≤ 1572864) && decide (p.r.maxlive + q.r.maxlive < 2 ^ 32)

/-- Check 2 of R411: what both records must have in common, with the class of the paired handle. -/
def recordsMatch (p q : Kernel) : Bool :=
  let a := p.r
  let b := q.r
  let cls (r : Record) (h : Option (Nat × Nat × Nat)) : Bool := r.retained.getLsbD ((h.map (·.1)).getD 0)
  decide (a.dom = b.dom) && decide (a.grid = b.grid) && decide (a.warps = b.warps) && decide (a.clusters = b.clusters) &&
    decide (a.cores = b.cores) && (a.pfixed == b.pfixed) && decide (a.frame = b.frame) && decide (a.policy = b.policy) &&
    (cls a (p.body.findSome? tstoOf) == cls b (q.body.findSome? tlodOf)) && decide (a.kind = 0) && decide (b.kind = 0) &&
    decide (a.period = 0) && decide (b.period = 0) && decide (a.feed = 0) && decide (b.feed = 0) && !(a.acc && b.acc)

/-- The refusal code of the first failing check of R411 but check 10, 0 where all pass. -/
def pairCode (p q : Kernel) : BitVec 8 :=
  let st := p.body.filterMap tstoOf
  let ld := q.body.filterMap tlodOf
  if !(p.marks && q.marks) then 0x09
  else if !recordsMatch p q then 0x08
  else if !(p.bodyOk && q.bodyOk) then 0x08
  else if !(p.flowOk && q.flowOk) then 0x08
  else if !exitsOk p q then 0x08
  else
    match st, ld with
    | [a], [b] =>
      if a.1 ≠ b.1 ∨ a.2.1 ≠ b.2.1 then 0x08
      else if !tilesOk p q (a.2.2, a.2.1) (b.2.2, b.2.1) then 0x08
      else if p.cvs &&& q.cvs ≠ 0 then 0x08
      else if !pressureOk p q then 0x07
      else 0
    | _, _ => 0x08

/-! ### Renumbering (R413, R415) -/

/-- A register of the consumer under its fused number: words of the TLOD's destination block become those of the TSTO's
source block. -/
def fusedWin (offW : Nat) (tile : Option (Nat × Nat × Nat)) (k : Nat) : Nat :=
  match tile with
  | some (dst, n, src) => if dst ≤ k ∧ k < dst + n then src + (k - dst) else k + offW
  | none => k + offW

/-- A specifier of the consumer under its fused number. -/
def fusedSpec (offW : Nat) (o : Offs) (tile : Option (Nat × Nat × Nat)) (x : BitVec 8) : BitVec 8 :=
  match specOf x with
  | some (.win k) => BitVec.ofNat 8 (fusedWin offW tile k.val)
  | some (.sca k) => BitVec.ofNat 8 (0x40 + (k.val + o.s))
  | some (.pred k) => if k.val = 7 then x else BitVec.ofNat 8 (0x80 + (k.val + o.p))
  | some (.grp k) => BitVec.ofNat 8 (0x88 + (k.val + o.g))
  | some (.tl k) => BitVec.ofNat 8 (0x98 + (k.val + o.t))
  | _ => x

/-- A word of the consumer with its numbers raised: specifiers, guard and the immediate fields that carry numbers. -/
def fusedWord (offW : Nat) (o : Offs) (tile : Option (Nat × Nat × Nat)) (c : Code) : InstrWord :=
  match c.instr with
  | none => c.word
  | some i =>
    if c.word = BitVec.allOnes 96 then c.word
    else
      let f := unpack c.word
      match rowOf f with
      | none => c.word
      | some r =>
        let up (k : Kind) (x : BitVec 8) : BitVec 8 := if k = .none then x else fusedSpec offW o tile x
        let g := f.g.toNat
        let imm : BitVec 32 := match i with
          | .barHold .. | .barPass .. => f.imm + BitVec.ofNat 32 o.b
          | .cbget .. | .cbfree .. => f.imm + BitVec.ofNat 32 o.c
          | .krd .. | .kwr .. => if i.buffer.isSome then f.imm + BitVec.ofNat 32 o.c else f.imm
          | _ => f.imm
        pack { f with
          d := up r.d f.d, a := up r.a f.a, b := up r.b f.b, c := up r.c f.c, imm := imm
          g := if g % 8 = 7 then f.g else BitVec.ofNat 4 (g + o.p) }

/-! ### The fused code (R412, R414 to R416) -/

/-- An instruction of the fused code: its origin, its part and its word before its position is known. -/
structure Emit where
  org : Nat
  part : Nat
  code : Code
  word : InstrWord

/-- Instructions cut into lines of five. -/
def emitLines (xs : List Emit) : List (List Emit) := chunks 5 (xs.length + 1) xs

/-- The five parts of the fused code, in lines (R412). -/
def fusedLines (p q : Kernel) (retained : Bool) (tile : Nat × Nat × Nat) : List (List Emit) :=
  let offW := p.offW
  let o := p.offs
  let a (part : Nat) (c : Code) : Emit := ⟨1, part, c, c.word⟩
  let b (part : Nat) (t : Option (Nat × Nat × Nat)) (c : Code) : Emit := ⟨2, part, c, fusedWord offW o t c⟩
  let tailP := p.body.reverse.take 1
  let loopP := (p.body.reverse.drop 1).reverse.filter (fun c => retained || (tstoOf c).isNone)
  let loopQ := (q.body.reverse.drop 1).reverse.filter (fun c => (tlodOf c).isNone)
  let front := loopP.map (a 2) ++ loopQ.map (b 2 (some tile))
  let bra := tailP.map (a 2)
  let loop := if front.length + 1 ≤ 5 then [front] ++ [bra] else emitLines (front ++ bra)
  emitLines (p.pro.map (a 0)) ++ emitLines (q.pro.map (b 1 none)) ++ loop ++
    emitLines ((p.epi.filter (fun c => !c.isExit)).map (a 3)) ++ emitLines (q.epi.map (b 4 none))

/-- The instructions of the fused code with their lines and slots. -/
def placesOf (ls : List (List Emit)) : List (Nat × Nat × Emit) :=
  ((List.range ls.length).zip ls).flatMap (fun l => ((List.range l.2.length).zip l.2).map (fun e => (l.1, e.1, e.2)))

/-- Where a BRA of a prologue or an epilogue goes: the fused copy of its target, or of what follows a target that is not
copied; places follow each other round the address space (R43). -/
def braTarget (ps : List (Nat × Nat × Emit)) (e : Emit) (t : Word) : Option (Nat × Nat) :=
  match ps.find? (fun x => decide (x.2.2.org = e.org) && decide (x.2.2.part = e.part) && decide ((x.2.2.code.pc - t).toNat < 2 ^ 63)) with
  | some x => some (x.1, x.2.1)
  | none => (ps.find? (fun x => decide (e.part < x.2.2.part))).map (fun x => (x.1, x.2.1))

/-- The line and slot to which an instruction's BRA goes in the fused code. -/
def targetOf (ps : List (Nat × Nat × Emit)) (e : Emit) : Option (Nat × Nat) :=
  match e.code.instr with
  | some (.bra _ imm) =>
    if e.part = 2 then (ps.find? (fun x => x.2.2.part = 2)).map (fun x => (x.1, x.2.1))
    else braTarget ps e (relTarget e.code.pc imm)
  | _ => none

/-- Lines from one address to another, round the address space (R43). -/
def lineGap (t from' : Word) : Int := (lineAddr t - lineAddr from').toInt / 64

/-- The word of an instruction at its fused place (R416): BRA, SPAWN, SPAWNA, SPAWND and LEA name what they named. -/
def placedWord (ps : List (Nat × Nat × Emit)) (fb : Word) (line : Nat) (e : Emit) : InstrWord :=
  let here := fb + BitVec.ofNat 64 (64 * line)
  let put (imm : BitVec 32) : InstrWord := pack { unpack e.word with imm := imm }
  let rel (imm : BitVec 32) : InstrWord :=
    let t := relTarget e.code.pc imm
    put (BitVec.ofInt 32 (lineGap t here * 8 + fld t 2 0))
  match e.code.instr with
  | some (.bra _ _) =>
    (match targetOf ps e with
    | some t => put (BitVec.ofInt 32 (((t.1 : Int) - line) * 8 + t.2))
    | none => e.word)
  | some (.spawn _ _ _ _ imm) | some (.spawna _ _ _ _ imm) | some (.spawnd _ _ _ imm) => rel imm
  | some (.lea _ _ imm) => put ((lineAddr e.code.pc + imm.signExtend 64 - here).setWidth 32)
  | _ => e.word

/-- Is the address that an instruction names within reach from a fused line (R409)? -/
def reaches (fb : Word) (line : Nat) (e : Emit) : Bool :=
  let here := fb + BitVec.ofNat 64 (64 * line)
  match e.code.instr with
  | some (.spawn _ _ _ _ imm) | some (.spawna _ _ _ _ imm) | some (.spawnd _ _ _ imm) =>
    let d := lineGap (relTarget e.code.pc imm) here
    decide (-(2 ^ 28) ≤ d) && decide (d < 2 ^ 28)
  | some (.lea _ _ imm) =>
    let d := (lineAddr e.code.pc + imm.signExtend 64 - here).toInt
    decide (-(2 ^ 31) ≤ d) && decide (d < 2 ^ 31)
  | _ => true

/-- Is an instruction one that PAIR leaves out: U set, or of the cross-lane, control, engine, matrix, launch-and-time or
system class (R72)? -/
def pairless (w : InstrWord) : Bool :=
  let f := unpack w
  let n := f.op.toNat
  f.u || (decide (0x48 ≤ n) && decide (n < 0x60)) || decide (0x88 ≤ n)

/-- The bytes of fused line j (R36, R37, R412). -/
def fusedLine (ls : List (List Emit)) (ps : List (Nat × Nat × Emit)) (fb : Word) (j : Nat) : List Byte :=
  let l := ls.getD j []
  let ws := l.map (placedWord ps fb j)
  let loop := (ps.filter (fun x => x.2.2.part = 2)).map (·.1)
  let loopAt := loop.headD 0
  let loopEnd := (loop.getLast?).getD 0
  let targets := ps.filterMap (fun x => targetOf ps x.2.2)
  let entry (i : Nat) : Bool := decide (i < l.length) &&
    ((j == 0 && i == 0) || (j == loopAt && i == 0) || targets.contains (j, i))
  let tmask := (List.range 5).foldl (fun m i => if entry i then m + 2 ^ i else m) 0
  let pairs := (List.range 4).foldl (fun m i =>
    match ws[i]?, ws[i + 1]? with
    | some x, some y => if !pairless x && !pairless y && !(unpack y).s then m + 2 ^ i else m
    | _, _ => m) 0
  let mark := if j < loopAt ∨ loopEnd < j then 0 else if j = loopAt then 2 else if j = loopEnd then 3 else 1
  let body := (List.range 5).flatMap (fun i => leBytes 12 ((ws[i]?).getD 0).toNat) ++
    leBytes 3 (pairs * 2 ^ 20 + tmask * 2 ^ 15 + mark * 2 ^ 13)
  body ++ [xorBytes body]

/-- The bytes of origin line j (R412). -/
def originLine (ls : List (List Emit)) (j : Nat) : List Byte :=
  let l := ls.getD j []
  (List.range 5).flatMap (fun i => leBytes 8 (match l[i]? with | some e => e.code.pc.toNat + 8 * e.org | none => 0)) ++ leBytes 24 0

/-- The ranges of a domain's splice region that are taken (R409). -/
def State.splicesTaken (s : State) (dom : Nat) : List (Nat × Nat) :=
  (s.launches.filter (fun e => e.2.live && decide (e.2.r.dom = dom))).flatMap (fun e =>
    e.2.held ++ (match e.2.splice with | some p => [(p.fb.toNat, p.region)] | none => []))

/-- Is a range of code mapped with R and X on PLAIN pages? -/
def State.codeMapped (s : State) (dom va n : Nat) : Bool :=
  (List.range ((va % 65536 + n + 65535) / 65536)).all (fun i =>
    match s.translate dom ((va / 65536 + i) * 65536) with
    | .ok f => f.r && f.x && decide (f.fmt = 0)
    | .fail _ => false)

/-- The lowest free range of the splice region for the fused code (R409). -/
def State.spliceBase (s : State) (dom : Nat) (ps : List (Nat × Nat × Emit)) (bytes : Nat) : Option Nat :=
  let d := s.domain dom
  let base := d.splbase.toNat
  let size := 65536 * d.splsize.toNat
  let taken := s.splicesTaken dom
  let needs := ps.flatMap (fun x =>
    let back (t : Word) (reach : Nat) : List Nat :=
      [t.toNat, t.toNat + 2 ^ 64].flatMap (fun a => [a / 64 * 64 - reach - 64 * x.1, a / 64 * 64 + 64 - reach - 64 * x.1])
    match x.2.2.code.instr with
    | some (.spawn _ _ _ _ imm) | some (.spawna _ _ _ _ imm) | some (.spawnd _ _ _ imm) =>
      back (relTarget x.2.2.code.pc imm) (2 ^ 34)
    | some (.lea _ _ imm) => back (lineAddr x.2.2.code.pc + imm.signExtend 64) (2 ^ 31)
    | _ => [])
  let tries := (base :: taken.map (fun r => r.1 + r.2) ++
    (List.range d.splsize.toNat).map (fun i => (base / 65536 + 1 + i) * 65536) ++ needs).map (fun b => (b + 63) / 64 * 64)
  minBy (fun b => b) (tries.filter (fun b =>
    decide (base ≤ b) && decide (b + bytes ≤ base + size) &&
      !(taken.any (fun r => overlap r.1 r.2 b bytes)) && s.codeMapped dom b bytes &&
      ps.all (fun x => reaches (BitVec.ofNat 64 b) x.1 x.2.2)))

/-- Fused code written at its physical places: the state after, and the largest completion time (R409, R412). -/
def State.writeCode (s : State) (dom va : Nat) (ls : List (List Byte)) : State × Nat :=
  ((List.range ls.length).zip ls).foldl (fun (r : State × Nat) l =>
    match s.translate dom (va + 64 * l.1) with
    | .ok f => let x := r.1.applyWrite (f.key (va + 64 * l.1)) l.2; (x.1, Nat.max r.2 x.2)
    | .fail _ => r) (s, 0)

/-- The fused record of two records (R417). -/
def fusedRecord (a b : Record) (fb : Word) : Record :=
  { a with
    entry := fb, release := Nat.max a.release b.release, deadline := Nat.min a.deadline b.deadline,
    budget := Nat.min (a.budget + b.budget) (2 ^ 64 - 1), scratch := a.scratch + b.scratch, acc := a.acc || b.acc,
    maxlive := a.maxlive + b.maxlive, combt := Nat.min a.combt b.combt, wspstep := Nat.max a.wspstep b.wspstep,
    ok := a.ok && b.ok }

/-- The result of linking: a refusal code, or the fused launch's record and what is known of its code. -/
inductive Linked where
  | refused (code : BitVec 8)
  | fused (r : Record) (p : Splice) (s : State)

/-- THE SPLICE LINKER (R411 to R417) on a pair. -/
def State.link (s : State) (a b : Record) : Linked :=
  let p := s.readKernel a
  let q := s.readKernel b
  let code := pairCode p q
  if code ≠ 0 then .refused code
  else
    let st := ((p.body.findSome? tstoOf).getD (0, 0, 0))
    let ld := ((q.body.findSome? tlodOf).getD (0, 0, 0))
    let retained := a.retained.getLsbD st.1
    let ls := fusedLines p q retained (ld.2.2, ld.2.1, st.2.2)
    let ps := placesOf ls
    let L := ls.length
    if (s.domain a.dom).splsize = 0 then .refused 0x07
    else
      match s.spliceBase a.dom ps (128 * L) with
      | none => .refused 0x07
      | some b0 =>
        let fb : Word := BitVec.ofNat 64 b0
        let w := s.writeCode a.dom b0 ((List.range L).map (fusedLine ls ps fb) ++ (List.range L).map (originLine ls))
        let o := p.offs
        let named (f : Instr → Bool) : Bool := (instrs q.all).any f
        let pcAt (x : Nat × Nat × Emit) : Word := fb + BitVec.ofNat 64 (64 * x.1 + x.2.1)
        let find (f : Emit → Bool) : Word := ((ps.find? (fun x => f x.2.2)).map pcAt).getD 0
        let last (f : Emit → Bool) : Word := (((ps.filter (fun x => f x.2.2)).getLast?).map pcAt).getD 0
        let pcOf (cs : List Code) (f : Code → Bool) : Word := ((cs.find? f).map (·.pc)).getD 0
        let splice : Splice :=
          { p := a, q := b, fb := fb, lines := L, loopBra := last (fun e => decide (e.part = 2)),
            offW := p.offW, offS := o.s, offP := o.p, offG := o.g, offT := o.t, offB := o.b, offC := o.c,
            words := st.2.1, srcBlock := st.2.2, dstBlock := ld.2.2 + p.offW,
            tlodPc := pcOf q.body (fun c => (tlodOf c).isSome), tstoPc := pcOf p.body (fun c => (tstoOf c).isSome),
            retained := retained, braP := ((p.body.getLast?).map (·.pc)).getD 0, braQ := ((q.body.getLast?).map (·.pc)).getD 0,
            exitP := pcOf p.epi Code.isExit, bodyQ := find (fun e => decide (e.part = 2) && decide (e.org = 2)),
            epiQ := find (fun e => decide (e.part = 4)),
            namesW0 := named (fun i => i.wins.contains 0), namesS0 := named (fun i => i.scalars.contains 0),
            namesS1 := named (fun i => i.scalars.contains 1), namesS2 := named (fun i => i.scalars.contains 2),
            origins := ls.flatMap (fun l => (List.range 5).map (fun i => match l[i]? with | some e => (e.org, e.code.pc) | none => (0, 0))),
            region := 128 * L, after := w.2, cvsP := p.cvs, cvsQ := q.cvs }
        .fused (fusedRecord a b fb) splice w.1

/-! ### Submissions (R381, R388, R410) -/

/-- A host's bytes read from its memory: what the host is known to place there, which then stands there; beyond that
what stands there, or what the host has written since, freely. -/
def State.hostRead (s : State) (bus addr n : Nat) : List Byte × State :=
  let key := bus * 2 ^ 64 + addr
  match s.hostIn with
  | e :: rest =>
    let bs := (e ++ List.replicate n 0).take n
    (bs, { s with hostIn := rest, hostMem := s.hostMem.setN unwritten key bs })
  | [] =>
    if Config.choice s.draws then (s.hostMem.getN unwritten key n, s.drawn)
    else
      let bs := (Config.bytes s.draws ++ List.replicate n 0).take n
      (bs, { s.drawn with hostMem := s.hostMem.setN unwritten key bs })

/-- Does a host-to-device ring hold an entry that the device may read (R434, R435, R439)? -/
def State.ringReady (s : State) (dom r : Nat) : Bool :=
  let g := (s.domain dom).rings.get {} r
  g.present && decide (g.head ≠ g.tail) && decide (g.bound < s.feTime || g.bound = 0)

/-- Does a host-to-device ring hold an entry, whether or not it may be read yet? -/
def State.ringHolds (s : State) (dom r : Nat) : Bool :=
  let g := (s.domain dom).rings.get {} r
  g.present && decide (g.head ≠ g.tail)

/-- The next entry of a host-to-device ring, and the state with HEAD advanced. -/
def State.ringTake (s : State) (dom r : Nat) : List Byte × State :=
  let d := s.domain dom
  let g := d.rings.get {} r
  let x := s.hostRead d.bus (g.entryAddr r g.head) (entrySize r)
  (x.1, x.2.updDomain dom (fun d => { d with rings := d.rings.set {} r { g with head := g.head + 1 } }))

/-- An entry of LQ submitted (R381, R435).  A record with no entry behind it when it is read is no producer (R410); the job
that is open then is the one it joins (R380). -/
def State.submit (s : State) (dom : Nat) : State :=
  if !s.host.run || !s.ringReady dom 0 then s
  else
    let x := s.ringTake dom 0
    let g := (x.2.domain dom).rings.get {} 0
    let w (off : Nat) : Word := BitVec.ofNat 64 (leNat ((x.1.drop off).take 8))
    let sub : Submission :=
      { route := .queue dom (w 0) (w 8), dom := dom, unpaired := decide (g.head = g.tail), serial := x.2.serial,
        job := (s.domain dom).job, pos := (g.head - 1).toNat }
    { x.2 with subs := x.2.subs ++ [sub], serial := x.2.serial + 1 }

/-- The address of a submission's record. -/
def Submission.va (u : Submission) : Nat := match u.route with | .queue _ va _ => va.toNat | .thread _ va .. => va.toNat

/-- Do two submissions come from one queue, or from one issue? -/
def Submission.fellow (u v : Submission) : Bool :=
  match u.route, v.route with
  | .queue d _ _, .queue e _ _ => decide (d = e)
  | .thread r .., .thread q .. => decide (r.wid = q.wid) && decide (r.serial = q.serial)
  | _, _ => false

/-- Are the writes that an issuer made before its LAUNCH applied (R403)? -/
def State.issuerDone (s : State) (u : Submission) : Bool :=
  match u.route with
  | .queue .. => true
  | .thread r _ _ _ _ n _ _ _ => !s.writesOf r.tid n

/-- A submission replaced. -/
def State.putSub (s : State) (u : Submission) : State :=
  { s with subs := s.subs.map (fun x => if x.serial = u.serial then u else x) }

/-- Submissions removed. -/
def State.dropSubs (s : State) (us : List Submission) : State :=
  { s with subs := s.subs.filter (fun x => !(us.any (fun u => decide (u.serial = x.serial)))) }

/-- A line of a submission's record read at its home; zeros, which no record is, where it cannot be read. -/
def State.recordLine (s : State) (u : Submission) (second : Bool) : List Byte :=
  let bad : List Byte := List.replicate 64 0xFF
  if u.va % 128 ≠ 0 then bad
  else
    match s.translate u.dom (u.va + (if second then 64 else 0)) with
    | .ok f => if f.r && decide (f.fmt = 0) then s.bytesAt (f.key (u.va + (if second then 64 else 0))) 64 else bad
    | .fail _ => bad

/-- One more line of a record read, in either order, at a moment of its own (R381). -/
def State.readLineOf (s : State) (u : Submission) : State :=
  match u.line with
  | none => (s.putSub { u with line := some (Config.choice s.draws, s.recordLine u (Config.choice s.draws)) }).drawn
  | some (second, bs) =>
    let other := s.recordLine u (!second)
    s.putSub { u with line := some (true, if second then other ++ bs else bs ++ other) }

/-- The record of a submission, once both lines are read; one made by LAUNCH has the supervisor handler of its issuer
(R251, R403). -/
def Submission.record (u : Submission) : Option Record :=
  match u.line with
  | some (_, bs) =>
    if bs.length = 128 then
      some (parseRecord (match u.route with
        | .queue .. => bs
        | .thread _ _ _ _ _ _ sh _ _ => overwrite bs 0x40 (leBytes 8 sh.toNat)))
    else none
  | none => none

/-- Is a submission made by a host queue? -/
def Submission.host (u : Submission) : Bool := match u.route with | .queue .. => true | .thread .. => false

/-- What a submission passes to its launch (R380, R392, R403). -/
def State.issuerOf (s : State) (u : Submission) : Issuer :=
  match u.route with
  | .queue .. => { job := u.job.filter (fun j => (s.jobs.get {} j).live) }
  | .thread r _ _ _ c n _ g j => { graph := g, job := j, acq := c, tid := r.tid, serial := n }

/-- Is a submission's graph or job cancelled, or about to be, so that it is removed before its admission (R300)? -/
def State.subCancelled (s : State) (u : Submission) (r : Record) : Bool :=
  let who := s.issuerOf u
  let due (lvl : UnitLevel) (k : Nat) : Bool := s.cancels.any (fun c => decide (c.lvl = lvl) && decide (c.key = k))
  let deadJob (j : Option Nat) : Bool := match j with
    | some k => (s.jobs.get {} k).live && ((s.jobs.get {} k).cancelled || due .job k)
    | none => false
  let dead (g : Option Nat) : Bool := match g with
    | some k => (s.graphs.get {} k).live && ((s.graphs.get {} k).cancelled || due .graph k || deadJob (s.graphs.get {} k).job)
    | none => false
  let named := (r.graphVa).bind (s.graphAt u.dom)
  (match r.graphVa with | some _ => dead named | none => dead who.graph) || deadJob who.job

/-- The record of a submission, both of its lines read now where they are not yet (R300, R431). -/
def State.recordNow (s : State) (u : Submission) : Record :=
  (u.record.or ({ u with line := some (true, s.recordLine u false ++ s.recordLine u true) } : Submission).record).getD {}

/-- A submission removed by a cancellation: it is counted as DONE with CANCELLED, at its counter and for the node that it
would produce for; what its submitter reads is free (R296, R300). -/
def State.dropCancelled (s : State) (u : Submission) (r : Record) : State :=
  let s0 := (s.dropSubs [u]).putCounter u.dom r.cc (counterWord true true 0 0)
  let s1 := if r.feed ≠ 0 ∧ s.launchLives u.dom r.feed then s0.feedDone r.feed else s0
  { s1.drawn with results := s1.results ++ [⟨u.route, Config.value s.draws⟩] }

/-- A submission tested alone (R385, R387, R388). -/
def State.testAlone (s : State) (u : Submission) (r : Record) : State :=
  let s1 := s.dropSubs [u]
  let code := s1.testRecord u.dom r u.host
  let give (t : State) (i : Nat) : State :=
    { t with results := t.results ++ [⟨u.route, resultWord i u.code.toNat code⟩], draws := t.draws + 3 }
  if code = 0 then let x := s1.enroll u.dom r (s1.issuerOf u) none; give x.1 x.2 else give s1 0

/-- What comes next for a submission with SPL set (R410). -/
inductive Pairing where
  | alone
  | wait
  | pair (v : Submission) (a b : Record)

/-- Does a fellow directly follow: the next entry of the queue, or the next active lane of the issue (R410)? -/
def Submission.follows (u v : Submission) : Bool := decide (v.pos = (u.pos + 1) % 2 ^ 32)

/-- Is a submission with its record paired with the one that directly follows it (R410)?  One that was in the ring when this one
was read is waited for; one that was removed meanwhile leaves it alone. -/
def State.pairing (s : State) (u : Submission) (a : Record) : Pairing :=
  if !a.spl || u.unpaired || decide (u.code ≠ 0) || !s.recordFits u.dom a then .alone
  else
    match (s.subs.filter (fun v => decide (u.serial < v.serial) && u.fellow v)).head? with
    | none => if u.host && s.ringHolds u.dom 0 then .wait else .alone
    | some v =>
      if !u.follows v then .alone else
      match v.record with
      | none => .wait
      | some b =>
        if b.spl && s.recordFits v.dom b && (s.readKernel a).produces && (s.readKernel b).consumes && s.issuerDone v then .pair v a b
        else if b.spl && s.recordFits v.dom b && !s.issuerDone v then .wait
        else .alone

/-- ADMISSION: below 128, the next entry of a domain's LQ is submitted; from 128 on, a submission goes on: a line of its
record is read, or the record, with no earlier fellow and no partner, is tested (R381, R385, R388). -/
def execAdmission (k : Nat) (s : State) : Host.Outcome State Fault Refusal :=
  .next (if k < 128 then s.submit k
    else
      match s.subs[k - 128]? with
      | none => s
      | some u =>
        if !s.issuerDone u then s
        else
          match u.record with
          | none => s.readLineOf u
          | some r =>
            if (s.subs.take (k - 128)).any u.fellow then s
            else if s.subCancelled u r then s.dropCancelled u r
            else
              match s.pairing u r with
              | .alone => s.testAlone u r
              | _ => s)

/-- SPLICE_LINK: the k-th submission and its partner are linked; the fused launch is tested in their place, or both are to
be tested unspliced with the refusal code (R388, R410, R411).  A partner that a cancellation removes (R300) is removed in its
turn, so that results keep the order of the queue (R435), and this one is tested alone. -/
def execSpliceLink (k : Nat) (s : State) : Host.Outcome State Fault Refusal :=
  .next (match s.subs[k]? with
    | none => s
    | some u =>
      if (s.subs.take k).any u.fellow || !s.issuerDone u then s
      else
        match u.record with
        | none => s
        | some r =>
          if s.subCancelled u r then s
          else
            match s.pairing u r with
            | .pair v a b =>
              if s.subCancelled v b then s.putSub { u with unpaired := true }
              else
                (match s.link a b with
                | .refused c => (s.putSub { u with code := c, unpaired := true }).putSub { v with code := c, unpaired := true }
                | .fused f p t =>
                  let t1 := t.dropSubs [u, v]
                  let code := t1.testRecord u.dom f u.host (some b)
                  let give (x : State) (i : Nat) : State :=
                    { x with
                      results := x.results ++ [⟨u.route, resultWord i 0 code⟩, ⟨v.route, resultWord i 0 code⟩]
                      draws := x.draws + 3 }
                  if code = 0 then
                    let who := { t1.issuerOf u with acq := Nat.max (t1.issuerOf u).acq (t1.issuerOf v).acq }
                    let x := t1.enroll u.dom f who (some p)
                    give x.1 x.2
                  else give t1 0)
            | _ => s)

end Sys2Proof.Machine
end

