-- ==== Sys2Proof/Machine/Unsplice.lean ====
section
/-! DEFINITION. A fused launch taken apart (spec/15_splice R425, R426). -/

namespace Sys2Proof.Machine

/-! ### Where a lane stands (R426) -/

/-- The PC of the first slot of a kernel's body, and of the first slot after it. -/
def Record.bodyPc (r : Record) : Word := lineAddr r.entry + BitVec.ofNat 64 (64 * r.first)
/-- The PC of the first slot after a kernel's body. -/
def Record.epiPc (r : Record) : Word := lineAddr r.entry + BitVec.ofNat 64 (64 * (r.last + 1))

/-- The part of a kernel that an original PC lies in: 0 prologue, 1 body, 2 epilogue. -/
def Record.partOf (r : Record) (x : Word) : Nat := if x.toNat < r.bodyPc.toNat then 0 else if x.toNat < r.epiPc.toNat then 1 else 2

/-- The first entry of a list, from a position on, that is no padding. -/
def nextOrigin (os : List (Nat × Word)) (i : Nat) : Nat × Word := ((os.drop i).find? (fun o => o.1 ≠ 0)).getD (1, 0)

/-- Where a lane at a fused PC stands: the origin (3 for the loop's final BRA), the part and the original PC; a lane at
padding stands at what follows it. -/
def Splice.stand (p : Splice) (pc : Word) : Nat × Nat × Word :=
  if pc = p.loopBra then (3, 1, p.braP)
  else
    let o := nextOrigin p.origins (slotIndex p.fb pc)
    if o.1 = 1 ∧ o.2 = p.braP then (3, 1, p.braP) else (o.1, (if o.1 = 1 then p.p else p.q).partOf o.2, o.2)

/-- Where the producer part resumes (R426); none where it has ended. -/
def Splice.producerPc (p : Splice) (x : Nat × Nat × Word) : Option Word :=
  match x with
  | (1, _, pc) => some pc
  | (2, 0, _) => some p.p.bodyPc
  | (2, 2, _) => none
  | _ => some p.braP

/-- Where the consumer part resumes (R426). -/
def Splice.consumerPc (p : Splice) (x : Nat × Nat × Word) : Word :=
  match x with
  | (1, 0, _) => p.q.entry
  | (1, 1, _) => p.q.bodyPc
  | (1, _, _) => p.q.epiPc
  | (2, _, pc) => pc
  | _ => p.braQ

/-! ### The two parts of a saved context -/

/-- The entries of a table below a bound. -/
def Tab.below {α : Type} (t : Tab α) (n : Nat) : Tab α := t.filter (fun e => decide (e.1 < n))

/-- The entries of a table from an offset to a bound, lowered by the offset. -/
def Tab.lowered {α : Type} (t : Tab α) (off bound : Nat) : Tab α :=
  (t.filter (fun e => decide (off ≤ e.1) && decide (e.1 < bound))).map (fun e => (e.1 - off, e.2))

/-- A lane of the producer part (R426).  STATE is copied; what the lane waits for goes to the part that its origin names, and
where it waits for nothing of this part it issues the instruction it stands at when it is restored (log entry 51). -/
def Splice.laneP (p : Splice) (l : Lane) : Lane :=
  let x := p.stand l.pc
  let own := decide (x.1 = 1)
  if l.st = .exited then l
  else
    match p.producerPc x with
    | none => { l with st := .exited, wait := none, monitor := false }
    | some pc =>
      { l with
        pc := pc, regs := Tab.below l.regs p.offW, preds := BitVec.ofNat 7 (l.preds.toNat % 2 ^ p.offP),
        marks := BitVec.ofNat 8 (l.marks.toNat % 2 ^ p.offB), entry := false,
        wait := if own then l.wait else none,
        monitor := l.monitor && own, wake := l.wake && own, abandoned := if own then l.abandoned else none }

/-- The instruction and the word of the consumer's kernel at an original PC. -/
def State.originalAt (s : State) (dom : Nat) (pc : Word) : Option (Instr × InstrWord) :=
  match s.codeLine dom (lineAddr pc) with
  | none => none
  | some l =>
    let w := slotWord l (fld pc 2 0)
    match decode w with
    | .instr i => some (i, w)
    | .illegal _ => none

/-- The registers of a lane of the consumer part: its own lowered, the tile where its body has passed the TLOD, and the
entry values where it has not begun (R377, R426). -/
def Splice.regsQ (p : Splice) (x : Nat × Nat × Word) (regs : Tab Word) (w0 : Nat) : Tab Word :=
  let own := Tab.lowered regs p.offW 32
  let past := (decide (x.1 = 2) && decide (x.2.1 = 1) && decide (p.tlodPc.toNat < x.2.2.toNat)) || decide (x.1 = 3)
  let tiled := if past then
      (List.range p.words).foldl (fun (t : Tab Word) i => t.set 0 (p.dstBlock - p.offW + i) (regs.get 0 (p.srcBlock + i))) own
    else own
  if x.1 = 1 ∧ x.2.1 = 0 then tiled.set 0 0 (BitVec.ofNat 64 w0) else tiled

/-- A lane of the consumer part with its new identity (R426). -/
def State.laneQ (s : State) (p : Splice) (dom : Nat) (l : Lane) (tid w0 : Nat) : Lane :=
  let x := p.stand l.pc
  let own := decide (x.1 = 2)
  let wait : Option Wait := match l.wait, s.originalAt dom x.2.2 with
    | some w, some i => if own then some { w with instr := i.1, word := i.2 } else none
    | _, _ => none
  if l.st = .exited then { l with tid := tid, wait := none }
  else
    { l with
      tid := tid, pc := p.consumerPc x, regs := p.regsQ x l.regs w0, preds := l.preds >>> p.offP, marks := l.marks >>> p.offB,
      entry := false, wait := wait,
      monitor := l.monitor && own, wake := l.wake && own,
      abandoned := if own then l.abandoned.map (fun a => { a with b := a.b - p.offB }) else none }

/-- Sign records but those of some convergence registers. -/
def signsBut (t : Tab Sign) (m : BitVec 16) : Tab Sign := t.filter (fun e => !m.getLsbD e.1)

/-- A warp of the producer part (R426). -/
def Splice.warpP (p : Splice) (w : Warp) : Warp :=
  { w with
    sregs := Tab.below w.sregs p.offS, signs := signsBut w.signs p.cvsQ, barCount := Tab.below w.barCount p.offB,
    barDue := w.barDue.filter (fun a => decide (a.1 < p.offB)),
    lanes := w.lanes.map (fun e => (e.1, p.laneP e.2)) }

/-- A warp of the consumer part, of workgroup g, with its new identity (R426). -/
def State.warpQ (s : State) (p : Splice) (launch group g tid : Nat) (w : Warp) : Warp :=
  let fresh := w.liveLanes.any (fun L => decide ((p.stand (w.lane L).pc).1 = 1) && decide ((p.stand (w.lane L).pc).2.1 = 0))
  let put (on : Bool) (t : Tab Word) (k : Nat) (v : Word) : Tab Word := if fresh && on then t.set 0 k v else t
  let own := Tab.lowered w.sregs p.offS 63
  let sregs := put (!p.namesS2) (put (!p.namesS1) (put (!p.namesS0) own 0 (BitVec.ofNat 64 g)) 1 p.q.arg) 2 (BitVec.ofNat 64 p.q.grid)
  { w with
    launch := launch, group := group, sregs := sregs, signs := signsBut w.signs p.cvsP, barCount := Tab.lowered w.barCount p.offB 8,
    barDue := (w.barDue.filter (fun a => decide (p.offB ≤ a.1))).map (fun a => (a.1 - p.offB, a.2.1, a.2.2)),
    lanes := w.lanes.map (fun e => (e.1, s.laneQ p w.dom e.2 (tid + 32 * w.index + e.1) (32 * w.index + e.1))) }

/-- The workgroup of the producer part. -/
def Splice.groupP (p : Splice) (g : Group) : Group :=
  { g with
    gregs := Tab.below g.gregs p.offG, bars := Tab.below g.bars p.offB, tls := Tab.below g.tls p.offT,
    cbufs := Tab.below g.cbufs p.offC, ssize := p.p.scratch, acc := p.p.acc }

/-- The workgroup of the consumer part. -/
def Splice.groupQ (p : Splice) (g : Group) (launch : Nat) (warps : List Nat) : Group :=
  { g with
    launch := launch, warps := warps, gregs := Tab.lowered g.gregs p.offG 16, bars := Tab.lowered g.bars p.offB 8,
    tls := Tab.lowered g.tls p.offT 16, cbufs := Tab.lowered g.cbufs p.offC 8, sbase := g.sbase + p.p.scratch,
    ssize := p.q.scratch, acc := p.q.acc }

/-- A destination of the fused launch's consumer under its own number. -/
def Splice.dstQ (p : Splice) (d : Dst) : Dst :=
  match d with
  | .phys j => .phys (j - p.offW)
  | .block j n => .block (j - p.offW) n
  | .sca k => .sca (k - p.offS)
  | .grp k => .grp (k - p.offG)
  | .pred k => .pred (k - p.offP)
  | .none => .none

/-- Where answers under way go, changed for some of them. -/
def State.mapRets (s : State) (f : Ret → Ret) : State :=
  let route (r : Route) : Route := match r with
    | .thread ret va c l m n h g j => .thread (f ret) va c l m n h g j
    | x => x
  { s with
    net := s.net.map (fun m => { m with ret := m.ret.map f })
    answers := s.answers.map (fun a => { a with ret := f a.ret })
    monitors := s.monitors.map (fun m => { m with ret := f m.ret })
    monEvents := s.monEvents.map (fun m => { m with ret := f m.ret })
    lstats := s.lstats.map (fun q => { q with ret := f q.ret })
    subs := s.subs.map (fun u => { u with route := route u.route })
    results := s.results.map (fun r => { r with route := route r.route }) }

/-- A command of the consumer's under its own numbers (R426). -/
def Splice.cmdQ (p : Splice) (c : Cmd) (launch group wid tid : Nat) : Cmd :=
  { c with
    launch := launch, group := group, wid := wid, tid := tid, track := c.track.map (fun t => (t.1 - p.offT, t.2)),
    buf := c.buf - p.offC }

/-- A saved workgroup split (R426): the producer part in its place, the consumer part as a context of launch j; the lines of
both save areas are to be written as those of a save are. -/
def State.splitCtx (s : State) (j : Nat) (p : Splice) (c : Saved) : State :=
  let g0 := c.group
  let dom := g0.dom
  let base := c.base.toNat
  let rest := base + 0x1400 + 0x6000 * g0.warps.length
  let g := groupFrom (s.readSpan dom 90 base 0x1400) g0
  let ws := c.warps.map (fun e => (e.1, (s.readWarp c e.2 false).1))
  let scratch := s.readSpan dom (g0.ssize / 64 + 2) rest g0.ssize
  let acc := if c.acc then s.readSpan dom 2100 (rest + g0.ssize) 131072 else []
  let unit := if c.acc then (matFrom (s.readSpan dom 3100 (rest + g0.ssize + 131072) 196736) c.unit).getD {} else {}
  let n := g0.warps.length
  let key := s.serial + 1
  let newWid (w : Warp) : Nat := key + 1 + w.index
  let tid0 := key + 1 + 32
  let gp := p.groupP g
  let gq := p.groupQ g j ((List.range n).map (fun i => key + 1 + i))
  let wsP := ws.map (fun e => (e.1, p.warpP e.2))
  let wsQ := ws.map (fun e => (newWid e.2, s.warpQ p j key g.g tid0 e.2))
  let own (r : Ret) : Option (Warp × Nat) :=
    match ws.find? (fun e => e.1 = r.wid) with
    | none => none
    | some e =>
      let mine := match r.dst with
        | .phys n | .block n _ => decide (p.offW ≤ n)
        | .sca n => decide (p.offS ≤ n)
        | .grp n => decide (p.offG ≤ n)
        | .pred n => decide (p.offP ≤ n)
        | .none => decide ((p.stand (e.2.lane r.lane).pc).1 = 2)
      if mine then some (e.2, r.lane) else none
  let moved (r : Ret) : Ret := match own r with
    | some (w, L) => { r with wid := newWid w, tid := tid0 + 32 * w.index + L, dst := p.dstQ r.dst }
    | none => r
  let oldKey := ((c.warps.head?).map (·.2.group)).getD 0
  let movedCmd (x : Cmd) : Cmd :=
    if x.group = oldKey ∧ x.origin = 2 then
      let i := ((ws.find? (fun e => e.1 = x.wid)).map (·.2.index)).getD 0
      p.cmdQ x j key (key + 1 + i) (tid0 + 32 * i + x.lane.getD 0)
    else x
  let cp : Saved :=
    { c with group := gp, warps := wsP, acc := p.p.acc, unit := (if p.p.acc then unit else {}), since := s.feTime }
  let cq : Saved :=
    { id := s.serial, group := gq, warps := wsQ, base := BitVec.ofNat 64 ((s.launch j).areaVa g.g), roaming := false,
      acc := p.q.acc, unit := (if p.q.acc then unit else {}), order := s.serial, since := s.feTime, time := c.time }
  let s1 := ({ s with serial := tid0 + 32 * n, cmds := s.cmds.map movedCmd } : State).mapRets moved
  let lines (x : Saved) (sc : List Byte) : List (Nat × List Byte) :=
    areaLines (s1.areaPieces x.base.toNat x.group x.warps sc acc (unit.image s.host.narrow))
  { s1 with
    saved := s1.saved.map (fun x => if x.id = c.id then { cp with pieces := lines cp (scratch.take p.p.scratch) } else x) ++
      [{ cq with pieces := lines cq (scratch.drop p.p.scratch) }] }

/-- The launches of the two parts (R425): the producer's in the fused launch's place, the consumer's at a free index.  A fused
launch that still waits for its RELEASE leaves two that do (R389). -/
def Launch.parts (l : Launch) (p : Splice) (k groups cmdsQ : Nat) : Launch × Launch :=
  let st : LState := if l.st = .demoted ∨ l.st = .parked ∨ l.st = .admitted then l.st else .running
  let both := { l with
    splice := none, graph2 := none, charges := 0, recent := [], grace := 0, raised := false, pendingOvr := [], st := st,
    held := [(p.fb.toNat, p.region)] }
  ({ both with
     r := p.p, rel := p.p.release, dl := p.p.deadline, budget := p.p.budget - p.chargesA, units := l.units - cmdsQ,
     area := l.r.areaSize },
   { both with
     r := p.q, rel := p.q.release, dl := p.q.deadline, budget := p.q.budget - p.chargesB,
     units := l.r.grid - l.placed + groups + cmdsQ, graph := l.graph2, roamers := 0, ending := [], other := some k, area := 0 })

/-- Has a thread of a launch's saved contexts a write, or a completion time, still under way? -/
def State.writesStill (s : State) (k : Nat) : Bool :=
  s.saved.any (fun c => c.warps.any (fun e => decide (e.2.launch = k) &&
    (e.2.lanesWhere (fun l => decide (l.tid ≠ 0) && (s.writesOf l.tid s.serial || s.ctimeDue l.tid))) ≠ []))

/-- UNSPLICE_EXECUTE: a fused launch whose unsplicing was asked for is taken apart, once no lane of it is in a handler and
every workgroup is saved, its save area written whole (R396, R425); a cancellation that waits comes first (R300). -/
def execUnspliceExecute (index : Nat) (s : State) : Host.Outcome State Fault Refusal :=
  let l := s.launch index
  .next (match l.splice with
    | none => { s with unsplices := s.unsplices.filter (· ≠ index) }
    | some p =>
      if !s.unsplices.contains index || s.inHandler index || s.writesStill index || s.cancelDue index then s
      else
        let groups := (s.groups.filter (fun e => e.2.live && decide (e.2.launch = index)))
        let asked (g : Nat) : Bool := s.saveReqs.any (fun r => !r.roaming && decide (r.target = g))
        if groups ≠ [] then
          let new := (groups.filter (fun e => !asked e.1)).map (fun e =>
            ({ core := e.2.core, part := e.2.part, target := e.1, roaming := false, since := s.feTime, unsplice := some index } : SaveReq))
          { s with saveReqs := s.saveReqs ++ new }
        else
          match s.freeIndex with
          | none => { s.updLaunch index (fun l => { l with splice := some { p with unsplicing := false } }) with
                      unsplices := s.unsplices.filter (· ≠ index) }
          | some j =>
            let mine := s.saved.filter (fun c => !c.roaming && c.warps.any (fun e => decide (e.2.launch = index)))
            let cmdsQ := (s.cmds.filter (fun c => decide (c.launch = index) && decide (c.origin = 2) && c.track.isNone)).length
            let parts := l.parts p index mine.length cmdsQ
            let s1 : State := { s with
              launches := (s.launches.set {} index parts.1).set {} j parts.2
              unsplices := s.unsplices.filter (· ≠ index) }
            let r := mine.foldl (fun (t : State) c => t.splitCtx j p c) s1
            let s2 : State := { r with cmds := r.cmds.map (fun c =>
              if c.launch = index ∧ c.origin = 2 then { c with launch := j } else c) }
            if mine.any (fun c => decide (c.pieces ≠ [])) then s else (s2.syncCounter index).syncCounter j)

end Sys2Proof.Machine
end

