-- ==== Sys2Proof/Machine/Edges.lean ====
section
/-! DEFINITION. The package at its edges (spec/16_edges): the register window and the aperture of the host ports, the rings and
the commands of a domain, bring-up and reset, the time discipline, firmware, attestation, power and the links. -/

namespace Sys2Proof.Machine

/-! ### Who may write (R430, R432, R433) -/

/-- The key of a function of a port. -/
def funcKey (port : Bool) (func : Nat) : Nat := 128 * port.toNat + func

/-- Is VALID set? -/
def Domain.valid (d : Domain) : Bool := d.owner.getLsbD 63

/-- Does the physical function of a port own a domain: the port is the one that OWNER names, or no port has claimed the
domain yet (R432, R433)? -/
def Domain.ownerPf (d : Domain) (port : Bool) (func : Nat) : Bool :=
  decide (func = 0) && (!d.valid || decide (d.port = port.toNat))

/-- Is a function the owner of a domain: the function named by OWNER, or that function's PF (R432)? -/
def Domain.ownedBy (d : Domain) (port : Bool) (func : Nat) : Bool :=
  d.ownerPf port func || (d.valid && decide (d.port = port.toNat) && decide (d.func = func))

/-- DSTAT: the live launches of a domain (R432). -/
def State.dstat (s : State) (dom : Nat) : Nat := s.livesOf dom none

/-! ### Rings (R434, R435) -/

/-- A ring of a domain changed. -/
def State.updRing (s : State) (dom r : Nat) (f : Ring → Ring) : State :=
  s.updDomain dom (fun d => { d with rings := d.rings.upd {} r f })

/-- The TAIL of a host-to-device ring written: ignored for an absent ring and where the ring would hold too many entries.
It releases the aperture writes that the function sent before it (R434, R435, R439). -/
def State.writeTail (s : State) (port : Bool) (func dom r : Nat) (v : BitVec 32) : State :=
  let d := s.domain dom
  let g := d.rings.get {} r
  if d.ownedBy port func ∧ (r = 0 ∨ r = 2) ∧ g.present ∧ (v - g.head).toNat ≤ 2 ^ fld g.base 4 0 then
    s.updRing dom r (fun g => { g with tail := v, bound := Nat.max g.bound (s.host.apC.get 0 (funcKey port func)) })
  else s

/-- The HEAD of a device-to-host ring written (R435). -/
def State.writeHead (s : State) (port : Bool) (func dom r : Nat) (v : BitVec 32) : State :=
  if (s.domain dom).ownedBy port func ∧ ¬(r = 0 ∨ r = 2) then s.updRing dom r (fun g => { g with head := v }) else s

/-- The entries behind the last submission of a domain's queue are gone: no record follows it there (R410). -/
def State.lastAlone (s : State) (dom : Nat) : State :=
  let mine (u : Submission) : Bool := match u.route with | .queue d _ _ => decide (d = dom) | _ => false
  match ((s.subs.filter mine).reverse).head? with
  | none => s
  | some u => s.putSub { u with unpaired := true }

/-- BASE written: HEAD and TAIL become 0, unread entries are discarded, held entries stay held (R435). -/
def State.writeBase (s : State) (port : Bool) (func dom r : Nat) (v : BitVec 64) : State :=
  if (s.domain dom).ownedBy port func then
    let t := s.updRing dom r (fun g => { g with base := v, head := 0, tail := 0, bound := 0 })
    if r = 0 then t.lastAlone dom else t
  else s

/-- RING_TAIL_WRITE (R435). -/
def execRingTailWrite (port : Bool) (func dom ring : Nat) (v : BitVec 32) (s : State) : Host.Outcome State Fault Refusal :=
  .next (s.writeTail port func dom ring v)

/-- RING_HEAD_WRITE (R435). -/
def execRingHeadWrite (port : Bool) (func dom ring : Nat) (v : BitVec 32) (s : State) : Host.Outcome State Fault Refusal :=
  .next (s.writeHead port func dom ring v)

/-- RING_BASE_WRITE (R435). -/
def execRingBaseWrite (port : Bool) (func dom ring : Nat) (v : BitVec 64) (s : State) : Host.Outcome State Fault Refusal :=
  .next (s.writeBase port func dom ring v)

/-! ### Registers (R384, R431 to R433, R439, R444 to R450) -/

/-- The bits that OWNER, QUOTA and PEERCTL hold; the others are zero (R432, R444). -/
def ownerBits : Word := 0x87FF00000FFFFFFF
def quotaBits : Word := 0xFFFF03FF00000FFF
def peerBits : Word := 0xC00000FFFFFFFFFF

/-- OWNER written (R433): the claim of a domain by either PF; a release while a launch lives is ignored. -/
def State.writeOwner (s : State) (port : Bool) (func dom : Nat) (v : BitVec 64) : State :=
  let d := s.domain dom
  if d.ownerPf port func ∧ ¬(d.valid ∧ ¬v.getLsbD 63 ∧ 0 < s.dstat dom) then
    s.updDomain dom (fun d => { d with owner := v &&& ownerBits })
  else s

/-- OWNER_WRITE (R433). -/
def execOwnerWrite (port : Bool) (func dom : Nat) (v : BitVec 64) (s : State) : Host.Outcome State Fault Refusal :=
  .next (s.writeOwner port func dom v)

/-- A field of a domain window written (R432 to R435). -/
def State.writeWindow (s : State) (port : Bool) (func dom off : Nat) (v : BitVec 64) : State :=
  let d := s.domain dom
  let byPf (f : Domain → Domain) : State := if d.ownerPf port func then s.updDomain dom f else s
  let ring := (off - 0x40) / 16
  match off with
  | 0x00 => byPf (fun d => { d with root := v &&& 0xFFFFFFFFFFFFF })
  | 0x08 => s.writeOwner port func dom v
  | 0x10 => byPf (fun d => { d with quota := v &&& quotaBits })
  | 0x18 => byPf (fun d => { d with splbase := v })
  | 0x20 => byPf (fun d => { d with splsize := v.setWidth 16 })
  | 0x28 => if d.ownedBy port func then s.updDomain dom (fun d => { d with aperva := v }) else s
  | 0x38 => byPf (fun d => { d with rsave := v })
  | _ =>
    if 0x40 ≤ off ∧ off < 0xB0 then
      if off % 16 = 0 then s.writeBase port func dom ring v
      else if ring = 0 ∨ ring = 2 then s.writeTail port func dom ring (v.setWidth 32)
      else s.writeHead port func dom ring (v.extractLsb' 32 32)
    else s

/-- SKEW.FAULT brought up to date: it is 1 while a peer offset exceeds EPSX − 20 ns; a change is an event (R225, R431,
R447). -/
def State.judgeSkew (s : State) : State :=
  let f := decide (s.host.epsx.toNat - 20 < s.host.peerOff)
  if f = s.host.skewFault then s else (s.updHost (fun h => { h with skewFault := f })).pkgEvent 1

/-- EPSX written: at least 20 is stored (R225). -/
def State.writeSkewset (s : State) (v : BitVec 64) : State :=
  let e : BitVec 16 := v.setWidth 16
  (s.updHost (fun h => { h with epsx := if e.toNat < 20 then 20 else e })).judgeSkew

/-- TIMECTL written: DELAY 2 and 3 store 0, and a SRC of 11 to 15 is ignored (R446). -/
def State.writeTimectl (s : State) (v : BitVec 64) : State :=
  s.updHost (fun h => { h with
    timedelay := if fld v 5 4 < 2 then v.extractLsb' 4 2 else 0
    timesrc := if fld v 3 0 ≤ 10 then v.setWidth 4 else h.timesrc })

/-- RUN written with 1 for the first time: device time starts at TIMEINIT and the internal activities are admitted
(R448). -/
def State.writeRun (s : State) : State :=
  if s.host.run then s
  else
    { s with
      now := s.host.timeinit.toNat
      host := { s.host with run := true, activities := true, runAt := s.host.timeinit.toNat } }

/-- A firmware complex pair after a reset: complex 0 is active, with the image it holds (R449). -/
def Firmware.reset (f : Firmware) : Firmware :=
  if f.complex then { active := f.standby, standby := f.active } else { active := f.active, standby := f.standby }

/-- A PACKAGE RESET (R431): every register returns to its reset value and all work ends, without completion writes.  What
memories hold stays, as do the firmware images; the model's own counters go on. -/
def State.packageReset (s : State) : State :=
  { State.reset with
    turns := s.turns, steps := s.steps, draws := s.draws, serial := s.serial, mem := s.mem, hbm := s.hbm,
    scratch := s.scratch, wbuf := s.wbuf, acc := s.acc, hostMem := s.hostMem, hostIn := s.hostIn,
    host := { State.reset.host with
      fw := (List.range 4).foldl (fun (t : Tab Firmware) d => t.set {} d (s.host.fw.get {} d).reset) []
      msix := s.host.msix, replies := s.host.replies, unsupported := s.host.unsupported, spdmOut := s.host.spdmOut } }

/-- PKGCTL written (R431). -/
def State.writePkgctl (s : State) (v : BitVec 64) : State :=
  if v.getLsbD 1 then s.packageReset else if v.getLsbD 0 then s.writeRun else s

/-- PKGEVT written: bits written with 1 are cleared (R431). -/
def State.writePkgevt (s : State) (v : BitVec 64) : State :=
  s.updHost (fun h => { h with pkgevt := h.pkgevt &&& ~~~(v.setWidth 6) })

/-! ### Firmware (R449 to R451) -/

/-- PVMIN and PVMAX of an image. -/
def pvMin (image : Nat) : Nat := (Config.image image).2.1.toNat
def pvMax (image : Nat) : Nat := (Config.image image).2.2.toNat

/-- The highest protocol version within the ranges of all of some images, if there is one (R449). -/
def commonPv (images : List Nat) : Option Nat :=
  let lo := images.foldl (fun m i => Nat.max m (pvMin i)) 0
  let hi := images.foldl (fun m i => Nat.min m (pvMax i)) 255
  if lo ≤ hi then some hi else none

/-- A die's firmware changed. -/
def State.updFw (s : State) (die : Nat) (f : Firmware → Firmware) : State :=
  s.updHost (fun h => { h with fw := h.fw.upd {} die f })

/-- STATE of a die's firmware changed, with its event (R431, R449). -/
def State.fwState (s : State) (die st : Nat) : State :=
  if (s.host.fw.get {} die).st = st then s else (s.updFw die (fun f => { f with st := st })).pkgEvent 2

/-- PVNEG negotiated among the four active images; where no version is common it is free (R449). -/
def State.negotiate (s : State) : State :=
  let images := (List.range 4).map (fun d => (s.host.fw.get {} d).active)
  let v : BitVec 8 := BitVec.ofNat 8 ((commonPv images).getD (Config.number s.draws))
  (List.range 4).foldl (fun (t : State) d => t.updFw d (fun f => { f with pvneg := v })) s.drawn

/-- Is some die in STATE 2 or 3 (R450)? -/
def State.updating (s : State) : Bool :=
  (List.range 4).any (fun d =>
    let f := s.host.fw.get {} d
    f.loading || decide (f.st = 2) || decide (f.st = 3))

/-- FWUPD written (R450): the update of a die starts, or is refused.  The image is read in host memory with the requester ID of
the port's physical function; its header tells what it is (log entry 59). -/
def State.writeFwupd (s : State) (port : Bool) (v : BitVec 64) : State :=
  let die := fld v 1 0
  if s.updating then s.fwState die 5
  else
    let x := s.hostRead (128 * port.toNat * 2 ^ 20) (v.toNat / 4096 * 4096) 64
    let image := 8 + leNat x.1
    let others := ((List.range 4).filter (· ≠ die)).map (fun d => (s.host.fw.get {} d).active)
    if commonPv (image :: others) = none then x.2.fwState die 5
    else (x.2.updFw die (fun f => { f with standby := image, loading := true })).fwState die 2

/-- The standby complex of a die becomes the active one (R449 to R452). -/
def Firmware.takeOver (f : Firmware) : Firmware :=
  { f with active := f.standby, standby := f.active, complex := !f.complex, loading := false, taking := false }

/-- FWUPD_WRITE (R450). -/
def execFwupdWrite (port : Bool) (v : BitVec 64) (s : State) : Host.Outcome State Fault Refusal :=
  .next (s.writeFwupd port v)

/-- FW_TAKEOVER: a loaded standby complex begins its takeover, with STATE 3; at its end it is the active one, STATE returns
to 1 and PVNEG is negotiated again (R450).  A write of FWUPD refused meanwhile shows STATE 5 and ends no takeover. -/
def execFwTakeover (die : Nat) (s : State) : Host.Outcome State Fault Refusal :=
  let f := s.host.fw.get {} die
  .next (if ¬f.loading then s
    else if ¬f.taking then (s.updFw die (fun x => { x with taking := true })).fwState die 3
    else ((s.updFw die Firmware.takeOver).fwState die 1).negotiate)

/-- WATCHDOG_FAILOVER: the active complex has not answered for 1 ms; the standby takes over (R451), and PVNEG is the version
of the images that are active now (R449). -/
def execWatchdogFailover (die : Nat) (s : State) : Host.Outcome State Fault Refusal :=
  .next (if (s.host.fw.get {} die).st = 0 then s
    else
      let s1 := s.updFw die (fun f => { f.takeOver with st := 4 })
      (s1.pkgEvent 2).negotiate)

/-- FIRMWARE_BOOT: a die's firmware has booted and reaches STATE 1; with the last die PVNEG is negotiated (R448, R449). -/
def execFirmwareBoot (die : Nat) (s : State) : Host.Outcome State Fault Refusal :=
  .next (if (s.host.fw.get {} die).st ≠ 0 then s
    else
      let s1 := s.fwState die 1
      if (List.range 4).all (fun d => decide ((s1.host.fw.get {} d).st ≠ 0)) then s1.negotiate else s1)

/-! ### Writes to BAR0 (R430) -/

/-- A register of the window written by a function (R430): a VF reaches APERSEL and the windows of the domains it owns. -/
def State.writeReg (s : State) (port : Bool) (func off : Nat) (v : BitVec 64) : State :=
  let pf (t : State) : State := if func = 0 then t else s
  if 0x2000 ≤ off ∧ off < 0x2000 + 256 * 128 then s.writeWindow port func ((off - 0x2000) / 256) (off % 256) v
  else if 0x100 ≤ off ∧ off < 0x100 + 16 * 256 then
    pf (s.updHost (fun h => { h with peers := h.peers.upd {} ((off - 0x100) / 16) (fun p =>
      if off % 16 = 0 then { p with fa := v } else { p with ctl := v &&& peerBits }) }))
  else
    match off with
    | 0x08 => pf (s.writePkgctl v)
    | 0x10 => pf (s.updHost (fun h => { h with timeinit := v }))
    | 0x18 => pf (s.writeTimectl v)
    | 0x28 => pf (s.writeSkewset v)
    | 0x30 =>
      let c := fld v 9 0
      pf (s.updHost (fun h => { h with ceil := if c = 0 then 1 else BitVec.ofNat 10 (Nat.min c 1000) }))
    | 0x38 => pf (s.updHost (fun h => { h with hiveRemote := v.extractLsb' 32 32, hiveSlots := v.setWidth 32 }))
    | 0x48 => pf (s.writePkgevt v)
    | 0x50 => s.updHost (fun h => { h with apersel := h.apersel.set 0 (funcKey port func) (v.setWidth 8) })
    | 0x58 => pf (s.writeFwupd port v)
    | _ => s

/-- REGISTER_WRITE: an aligned write of 8 bytes (R430). -/
def execRegisterWrite (port : Bool) (func off : Nat) (v : BitVec 64) (s : State) : Host.Outcome State Fault Refusal :=
  .next (s.writeReg port func off v)

/-- BAR0_UNSUPPORTED: an access to BAR0 that is no aligned access of 8 bytes completes with Unsupported Request, without
effect (R430). -/
def execBar0Unsupported (port : Bool) (func off size : Nat) (write : Bool) (s : State) : Host.Outcome State Fault Refusal :=
  let _ := (port, func, write)
  .next (if size = 8 ∧ off % 8 = 0 then s else s.updHost (fun h => { h with unsupported := h.unsupported + 1 }))

/-- PKGCTL_RUN (R448). -/
def execPkgctlRun (port : Bool) (s : State) : Host.Outcome State Fault Refusal :=
  let _ := port
  .next s.writeRun

/-- PKGCTL_RESET (R431). -/
def execPkgctlReset (port : Bool) (s : State) : Host.Outcome State Fault Refusal :=
  let _ := port
  .next s.packageReset

/-- PKGEVT_CLEAR (R431). -/
def execPkgevtClear (port : Bool) (v : BitVec 64) (s : State) : Host.Outcome State Fault Refusal :=
  let _ := port
  .next (s.writePkgevt v)

/-- SKEWSET_WRITE (R225). -/
def execSkewsetWrite (port : Bool) (v : BitVec 64) (s : State) : Host.Outcome State Fault Refusal :=
  let _ := port
  .next (s.writeSkewset v)

/-- TIMECTL_WRITE (R446). -/
def execTimectlWrite (port : Bool) (v : BitVec 64) (s : State) : Host.Outcome State Fault Refusal :=
  let _ := port
  .next (s.writeTimectl v)

/-- PCIE_FUNDAMENTAL_RESET of either port: a package reset (R431). -/
def execPcieFundamentalReset (port : Bool) (s : State) : Host.Outcome State Fault Refusal :=
  let _ := port
  .next s.packageReset

/-- FUNCTION_LEVEL_RESET (R431): the launches of the domains that the function owns are cancelled, and those not yet
admitted removed as a cancellation removes them (R300); the rings of those domains lose BASE and PTR.  The domains are those
whose OWNER names the function: a reset of a PF leaves the domains of its VFs (DESIGN CHOICE, log entry 100). -/
def execFunctionLevelReset (port : Bool) (func : Nat) (s : State) : Host.Outcome State Fault Refusal :=
  let mine (dom : Nat) : Bool :=
    let d := s.domain dom
    d.valid && decide (d.port = port.toNat) && decide (d.func = func)
  let doms := (List.range 128).filter mine
  let ks := (s.launches.filter (fun e => e.2.live && mine e.2.r.dom && !s.unitCancelled .launch e.1)).map (·.1)
  let s1 := (s.subs.filter (fun u => mine u.dom)).foldl (fun (t : State) u => t.dropCancelled u (s.recordNow u))
    ({ s with cancels := s.cancels ++ ks.map (fun k => ⟨.launch, k⟩) } : State)
  .next (doms.foldl (fun (t : State) dom =>
    (List.range 7).foldl (fun (t : State) r =>
      t.updRing dom r (fun g => { g with base := 0, head := 0, tail := 0, bound := 0 })) t) s1)

/-! ### What a register reads (R430 to R434, R439, R444 to R454) -/

/-- FWSTATd (R449). -/
def Firmware.stat (f : Firmware) : Word :=
  let v := Config.image f.active
  BitVec.ofNat 64 (v.1.toNat * 2 ^ 48 + v.2.1.toNat * 2 ^ 40 + v.2.2.toNat * 2 ^ 32 + f.pvneg.toNat * 2 ^ 24 +
    f.complex.toNat * 2 ^ 3 + f.st % 8)

/-- A domain window read (R432). -/
def State.windowView (s : State) (dom off : Nat) : Word :=
  let d := s.domain dom
  match off with
  | 0x00 => d.root
  | 0x08 => d.owner
  | 0x10 => d.quota
  | 0x18 => d.splbase
  | 0x20 => d.splsize.setWidth 64
  | 0x28 => d.aperva
  | 0x30 => BitVec.ofNat 64 (s.dstat dom)
  | 0x38 => d.rsave
  | _ =>
    if 0x40 ≤ off ∧ off < 0xB0 then
      let g := d.rings.get {} ((off - 0x40) / 16)
      if off % 16 = 0 then g.base else g.head ++ g.tail
    else 0

/-- PWRSTAT (R454). -/
def HostRegs.pwrstat (h : HostRegs) : Word :=
  BitVec.ofNat 64 (h.pwr.toNat * 2 ^ 48 + h.alarmcnt.toNat * 2 ^ 32 + h.narrow.toNat * 2 + h.alarm.toNat)

/-- A register of the window as a function reads it (R430). -/
def State.readReg (s : State) (port : Bool) (func off : Nat) : Word :=
  let h := s.host
  if func ≠ 0 ∧ ¬(off = 0 ∨ off = 0x50 ∨
      (0x2000 ≤ off ∧ off < 0x2000 + 256 * 128 ∧ (s.domain ((off - 0x2000) / 256)).ownedBy port func)) then 0
  else if 0x2000 ≤ off ∧ off < 0x2000 + 256 * 128 then s.windowView ((off - 0x2000) / 256) (off % 256)
  else if 0x100 ≤ off ∧ off < 0x100 + 16 * 256 then
    let p := h.peers.get {} ((off - 0x100) / 16)
    if off % 16 = 0 then p.fa else p.ctl
  else if 0x80 ≤ off ∧ off < 0xA0 then (h.fw.get {} ((off - 0x80) / 8)).stat
  else
    match off with
    | 0x00 => devident
    | 0x08 => BitVec.ofNat 64 h.run.toNat
    | 0x10 => h.timeinit
    | 0x18 => BitVec.ofNat 64 (h.timedelay.toNat * 16 + h.timesrc.toNat)
    | 0x20 => h.timeoff
    | 0x28 => BitVec.ofNat 64 (h.skewFault.toNat * 2 ^ 63 + h.epsx.toNat)
    | 0x30 => h.ceil.setWidth 64
    | 0x38 => h.hiveRemote ++ h.hiveSlots
    | 0x40 => h.pwrstat
    | 0x48 => h.pkgevt.setWidth 64
    | 0x50 => (h.apersel.get 0 (funcKey port func)).setWidth 64
    | _ => 0

/-! ### The aperture (R439) -/

/-- The domain that a function maps through BAR2, when the aperture is open and the function owns it. -/
def State.aperture (s : State) (port : Bool) (func : Nat) : Option Nat :=
  let a := s.host.apersel.get 0 (funcKey port func)
  let dom := fld a 6 0
  if a.getLsbD 7 ∧ (s.domain dom).valid ∧ (s.domain dom).ownedBy port func then some dom else none

/-- The pieces of a byte range that lie in one line each: address and length. -/
def linePieces (va n : Nat) : List (Nat × Nat) :=
  let first := va / 64
  let lines := if n = 0 then 0 else (va + n + 63) / 64 - first
  (List.range lines).map (fun i =>
    let a := Nat.max va (64 * (first + i))
    (a, Nat.min (va + n) (64 * (first + i + 1)) - a))

/-- A piece of an aperture read, served at its home: the page must be readable and PLAIN. -/
def State.aperturePiece (s : State) (dom : Nat) (p : Nat × Nat) : Option (List Byte) :=
  match s.translate dom (p.1 % 2 ^ 64) with
  | .ok f => if f.r ∧ f.fmt = 0 then some (s.bytesAt (f.key (p.1 % 2 ^ 64)) p.2) else none
  | .fail _ => none

/-- APERTURE_READ: the bytes, or all ones where the read fails (R439). -/
def execApertureRead (port : Bool) (func off size : Nat) (s : State) : Host.Outcome State Fault Refusal :=
  let reply (t : State) (bs : List Byte) : State := t.updHost (fun h => { h with replies := bs :: h.replies })
  let ones : List Byte := List.replicate size (BitVec.allOnes 8)
  .next (match s.aperture port func with
    | none => reply s ones
    | some dom =>
      let va := (s.domain dom).aperva.toNat + off
      let got := (linePieces va size).map (s.aperturePiece dom)
      if got.all Option.isSome then reply s (got.flatMap (fun x => x.getD []))
      else reply (s.postEq dom 4 0 0 (va % 2 ^ 64) 0) ones)

/-- One line of an aperture write, applied at its home as a store; a line that fails is discarded with an event. -/
def State.apertureStore (s : State) (key dom va : Nat) (bytes : List Byte) : State :=
  match s.writeVa dom va bytes with
  | .error _ => s.postEq dom 4 0 0 va 0
  | .ok r => r.1.updHost (fun h => { h with apC := h.apC.upd 0 key (Nat.max r.2) })

/-- APERTURE_WRITE: each line independently (R439). -/
def execApertureWrite (port : Bool) (func off : Nat) (data : List (BitVec 8)) (s : State) :
    Host.Outcome State Fault Refusal :=
  .next (match s.aperture port func with
    | none => s
    | some dom =>
      let va := (s.domain dom).aperva.toNat + off
      (linePieces va data.length).foldl (fun (t : State) p =>
        t.apertureStore (funcKey port func) dom (p.1 % 2 ^ 64) ((data.drop (p.1 - va)).take p.2)) s)

/-! ### The host's answers to parked lanes (R258) -/

/-- The parked lanes of a fragment of a resident warp. -/
def Warp.parkedOf (w : Warp) (f : Frag) : List Nat :=
  (List.range 32).filter (fun L => decide ((w.lane L).st = .parked) && decide ((w.lane L).frag = f.id))

/-- The fragment with parked lanes whose frame lies at an address of a domain: resident. -/
def State.parkedAt (s : State) (dom va : Nat) : Option (Nat × Frag) :=
  s.warps.findSome? (fun e =>
    if e.2.live ∧ e.2.dom = dom then
      (e.2.frags.find? (fun f => decide (s.frameVa e.1 f.slot.toNat = va) && decide (e.2.parkedOf f ≠ []))).map (fun f => (e.1, f))
    else none)

/-- Does a parked fragment stand at a HALT: in a handler, or parked by one? -/
def Frag.halted (f : Frag) : Bool := decide (f.st = .handler) || decide (f.ev.kind = 3)

/-- The fragment of a warp goes, and its frame slot is free. -/
def Warp.dropFrag (w : Warp) (f : Frag) : Warp :=
  { w with frags := w.frags.filter (fun g => g.id ≠ f.id), slots := w.slots &&& ~~~(laneBit f.slot.toNat) }

/-- A fragment becomes one whose handler entry waits, with ENTRY 0 in its frame. -/
def Warp.deliverFrag (w : Warp) (f : Frag) : Warp :=
  { w with frags := w.frags.map (fun g => if g.id = f.id then { g with st := .pending, entry := 0 } else g) }

/-- THE ANSWER TO A RESIDENT FRAGMENT (R258): 0 Retry, 1 Deliver, 2 Kill.  With lanes back in user mode the warp's barriers
are looked at again (R145). -/
def State.answerFrag (s : State) (wid : Nat) (f : Frag) (act : Nat) : State :=
  let ls := (s.warp wid).parkedOf f
  let pcOf (pc : Word) : Word := if f.halted then nextPc pc else pc
  if act = 0 then
    if f.st = .handler then s.updLanes wid ls (fun l => { l with st := .ready, pc := pcOf l.pc })
    else
      ((s.updLanes wid ls (fun l => { l with st := .ready, pc := pcOf l.pc, frag := 0, fslot := 0 })).updWarp wid
        (fun w => w.dropFrag f)).barRetest wid
  else if act = 1 ∧ ¬f.halted then
    (s.updLanes wid ls (fun l => { l with st := .entering })).updWarp wid (fun w => w.deliverFrag f)
  else s.exitLanes wid ls

/-- The parked lanes of a fragment of a saved warp, as its record has them; lanes that are parked with their launch only are
none of them. -/
def State.savedParked (s : State) (c : Saved) (w : Warp) (f : Frag) : List Nat :=
  (List.range 32).filter (fun L =>
    let at' := c.recordVa w + 0x1000 + 64 * L
    decide ((w.lane L).st = .parked) && decide (s.peekSaved c w.dom (at' + 0x28) 4 % 4 = 2) &&
      decide (s.peekSaved c w.dom (at' + 0x2C) 4 = f.id.toNat))

/-- The fragment with parked lanes whose frame lies at an address of a domain: saved. -/
def State.savedAt (s : State) (dom va : Nat) : Option (Saved × Nat × Warp × Frag) :=
  s.saved.findSome? (fun c => c.warps.findSome? (fun e =>
    if e.2.dom = dom then
      (e.2.frags.find? (fun f => decide ((c.recordVa e.2 + 128 * f.slot.toNat) % 2 ^ 64 = va) &&
        decide (s.savedParked c e.2 f ≠ []))).map (fun f => (c, e.1, e.2, f))
    else none))

/-- A saved warp replaced. -/
def State.setSaved (s : State) (c : Saved) (wid : Nat) (w : Warp) : State :=
  { s with saved := s.saved.map (fun x =>
      if x.id = c.id then { x with warps := x.warps.map (fun e => if e.1 = wid then (wid, w) else e) } else x) }

/-- A lane block rewritten for an answer: STATE, which stays parked while the launch is (R399), and for lanes that leave their
fragment its id and frame slot; Next(pc) after a HALT (R258, R262, R263). -/
def State.patchLane (s : State) (c : Saved) (w : Warp) (L code : Nat) (leave next : Bool) : State :=
  let at' := c.recordVa w + 0x1000 + 64 * L
  let st := s.peekSaved c w.dom (at' + 0x28) 4
  let st1 := st - st % 4 + (if code = 0 ∧ (s.launch w.launch).st = .parked then 2 else code)
  let st2 := if leave then st1 - st1 / 2 ^ 13 % 32 * 2 ^ 13 else st1
  let s1 := s.patchSaved c w.dom (at' + 0x28) (leBytes 4 st2)
  let s2 := if leave then s1.patchSaved c w.dom (at' + 0x2C) (leBytes 4 0) else s1
  let pc : Word := BitVec.ofNat 64 (s.peekSaved c w.dom at' 8)
  if next then s2.patchSaved c w.dom at' (leBytes 8 (nextPc pc).toNat) else s2

/-- The frame slot of a fragment of a saved warp freed in its record. -/
def State.patchSlots (s : State) (c : Saved) (w : Warp) : State :=
  s.patchSaved c w.dom (c.recordVa w + 0x1A10) (leBytes 4 w.slots.toNat)

/-- THE ANSWER TO A SAVED FRAGMENT, written into its record (R258, R263). -/
def State.answerSaved (s : State) (c : Saved) (wid : Nat) (w : Warp) (f : Frag) (act : Nat) : State :=
  let ls := s.savedParked c w f
  let user := decide (f.st ≠ .handler)
  let patch (code : Nat) (leave next : Bool) : State :=
    ls.foldl (fun (t : State) L => t.patchLane c w L code leave next) s
  let held (g : Lane → Lane) (w : Warp) : Warp := ls.foldl (fun (w : Warp) L => w.setLane L (g (w.lane L))) w
  if act = 0 then
    let s1 := patch 0 user f.halted
    if user then
      let w1 := (held (fun l => { l with st := .ready, frag := 0, fslot := 0 }) w).dropFrag f
      (s1.setSaved c wid w1).patchSlots c w1
    else s1.setSaved c wid (held (fun l => { l with st := .ready }) w)
  else if act = 1 ∧ ¬f.halted then
    ((patch 0 false false).patchSaved c w.dom (c.recordVa w + 128 * f.slot.toNat + 2) (leBytes 1 0)).setSaved c wid
      ((held (fun l => { l with st := .entering }) w).deliverFrag f)
  else
    let s1 := patch 3 false false
    if (lanesOf f.lanes).all (fun L => ls.contains L) then
      let w1 := w.dropFrag f
      (s1.setSaved c wid w1).patchSlots c w1
    else s1

/-! ### Commands (R437) -/

/-- A field of a command. -/
def cmdNat (bs : List Byte) (off n : Nat) : Nat := leNat ((bs.drop off).take n)

/-- Are all bytes of a command zero outside CMD, TAG and the listed operand bytes (R437)? -/
def cmdClean (bs : List Byte) (listed : List Nat) : Bool :=
  (List.range 24).all (fun i => decide (i = 0) || listed.contains i || bs.getD i 0 == 0)

/-- The operand bytes of the commands. -/
def bytesFrom (off n : Nat) : List Nat := (List.range n).map (off + ·)

/-- The next command of a domain's CQ, where its CMD is the given one and EQ has room for its event (R435): `act` answers the
state, the status and the launch that the command concerns, or none while it has to wait.  A CMD that is no command, a nonzero byte that is not listed
and a selection that is not listed have status 2 and no effect (R437). -/
def State.command (s : State) (dom code : Nat) (listed : List Nat) (sels : Nat)
    (act : State → List Byte → Option (State × Nat × Nat)) : State :=
  if !s.ringReady dom 2 || !s.roomFor dom 3 then s
  else
    let x := s.ringTake dom 2
    let cmd := cmdNat x.1 0 1
    let tag := cmdNat x.1 24 8
    if cmd = 0 ∨ 7 < cmd then x.2.postEq dom 1 2 0 0 tag
    else if cmd ≠ code then s
    else if !cmdClean x.1 listed || decide (sels ≤ cmdNat x.1 1 1 ∧ listed.contains 1) then x.2.postEq dom 1 2 0 0 tag
    else
      match act x.2 x.1 with
      | some r => r.1.postEq dom 1 r.2.1 r.2.2 0 tag
      | none => s

/-- FANSWER (R258, R437). -/
def execFanswer (dom : Nat) (s : State) : Host.Outcome State Fault Refusal :=
  .next (s.command dom 1 (1 :: bytesFrom 8 8) 3 (fun t c =>
    let va := cmdNat c 8 8
    match t.parkedAt dom va, t.savedAt dom va with
    | some (wid, f), _ =>
      let k := (t.warp wid).launch
      if t.cancelDue k then none else some (t.answerFrag wid f (cmdNat c 1 1), 0, k)
    | none, some (sv, wid, w, f) =>
      if t.cancelDue w.launch then none else some (t.answerSaved sv wid w f (cmdNat c 1 1), 0, w.launch)
    | none, none => some (t, 1, 0)))

/-- A parked launch resumed with a new deadline and budget, when it passes the tests of R385 in their order, with the index it
holds (R399); a deadline that it has missed is recorded first (R391). -/
def State.resumeLaunch (s : State) (k dl budget : Nat) : State × Bool :=
  let l := s.launch k
  let x := density budget l.rel dl s.feTime l.r.period budget
  if ¬s.recordFits l.r.dom l.r ∨ (l.r.period ≠ 0 ∧ l.rel + l.r.period < dl) ∨ budget = 0 ∨
      dl ≤ Nat.max s.feTime l.rel ∨ ¬s.fitOk l.r.dom l.r false (some k) ∨ ¬s.quotaOk l.r.dom (some k) x ∨
      ¬s.hiveOk (some k) l.r.maxlive ∨ ¬s.utilOk (some k) x l.r.set then (s, false)
  else
    (((s.missed k).updLaunch k (fun l => { l with
      st := .running, dl := dl, budget := budget, charges := 0, recent := [], grace := 0, raised := false })).restate k false, true)

/-- PANSWER (R399, R437). -/
def execPanswer (dom : Nat) (s : State) : Host.Outcome State Fault Refusal :=
  .next (s.command dom 2 ([1, 2, 3] ++ bytesFrom 8 16) 2 (fun t c =>
    let k := cmdNat c 2 2
    let l := t.launch k
    if ¬(l.live ∧ l.r.dom = dom ∧ l.st = .parked ∧ ¬l.cancelled) then some (t, 1, k)
    else if t.cancelDue k then none
    else if cmdNat c 1 1 = 1 then some (t.cancelLaunch k, 0, k)
    else
      let r := t.resumeLaunch k (cmdNat c 8 8) (cmdNat c 16 8)
      some (r.1, (!r.2).toNat, k)))

/-- CQ_UNSPLICE (R425, R437). -/
def execCqUnsplice (dom : Nat) (s : State) : Host.Outcome State Fault Refusal :=
  .next (s.command dom 3 [2, 3] 0 (fun t c =>
    let k := cmdNat c 2 2
    let l := t.launch k
    if ¬(l.live ∧ l.r.dom = dom ∧ ¬l.cancelled) then some (t, 1, k)
    else
      let t' := t.requestUnsplice k
      some (t', (decide (t'.unsplices.length = t.unsplices.length)).toNat, k)))

/-- CQ_CANCEL (R300, R437). -/
def execCqCancel (dom : Nat) (s : State) : Host.Outcome State Fault Refusal :=
  .next (s.command dom 4 (1 :: bytesFrom 8 8) 3 (fun t c =>
    let lvl : UnitLevel := match cmdNat c 1 1 with | 0 => .launch | 1 => .graph | _ => .job
    let va : Word := BitVec.ofNat 64 (cmdNat c 8 8)
    let r := t.cancelUnit lvl dom va
    let k := if lvl = .launch then (t.unitAt .launch dom va).getD 0 else 0
    some (r.1, r.2.toNat, k)))

/-- CQ_TLBINV: as TLBINV at package scope, once the walks that were under way have ended (R271, R437). -/
def execCqTlbinv (dom : Nat) (s : State) : Host.Outcome State Fault Refusal :=
  .next (s.command dom 5 (1 :: bytesFrom 8 8) 2 (fun t c =>
    if t.walks ≠ [] then none
    else
      let pages := if cmdNat c 1 1 = 1 then none else some [cmdNat c 8 8]
      some (t.invalidate dom (fun _ => true) pages, 0, 0)))

/-- JOBOPEN (R380, R437). -/
def execJobopen (dom : Nat) (s : State) : Host.Outcome State Fault Refusal :=
  .next (s.command dom 6 (bytesFrom 8 8) 0 (fun t c =>
    let va := cmdNat c 8 8
    let ok := decide (va % 8 = 0) && decide ((t.domain dom).job = none) &&
      (match t.walk dom va with | .ok f => f.w | .fail _ => false)
    if !ok then some (t, 1, 0)
    else
      let j := t.serial
      let u : UnitRec := { live := true, dom := dom, cc := BitVec.ofNat 64 va }
      let t1 : State := { t with jobs := t.jobs.set {} j u, serial := j + 1 }
      some ((t1.syncUnit u false).updDomain dom (fun d => { d with job := some j }), 0, 0)))

/-- JOBSEAL (R380, R437). -/
def execJobseal (dom : Nat) (s : State) : Host.Outcome State Fault Refusal :=
  .next (s.command dom 7 [] 0 (fun t _ =>
    match (t.domain dom).job with
    | none => some (t, 1, 0)
    | some j =>
      let t1 : State := { t with jobs := t.jobs.upd {} j (fun u => { u with sealed := true }) }
      some (t1.updDomain dom (fun d => { d with job := none }), 0, 0)))

/-! ### The trace drain (R274, R382, R436) -/

/-- Trace records moved to TQ, oldest first, while it has room. -/
def State.drain (s : State) (dom : Nat) : Nat → State
  | 0 => s
  | n + 1 =>
    let d := s.domain dom
    match d.trace with
    | [] => s
    | e :: t =>
      if (d.rings.get {} 6).full then s
      else ((s.updDomain dom (fun d => { d with trace := t })).ringWrite dom 6 e).drain dom n

/-- TRACE_DRAIN: the next run of the trace drain, for one domain; while TQ is absent its records are discarded and
counted (R436). -/
def execTraceDrain (dom : Nat) (s : State) : Host.Outcome State Fault Refusal :=
  let h := s.host
  let runs := h.drains.get 0 dom
  .next (if h.activities ∧ h.runAt + 100000 * runs ≤ s.feTime then
      let s1 := s.updHost (fun h => { h with drains := h.drains.set 0 dom (runs + 1) })
      let d := s1.domain dom
      if (d.rings.get {} 6).present then s1.drain dom 4096
      else s1.updDomain dom (fun d => { d with
        trace := [], trlost := BitVec.ofNat 32 (Nat.min (d.trlost.toNat + d.trace.length) (2 ^ 32 - 1)) })
    else s)

/-! ### The front end during a takeover (R450) -/

/-- Is an event one of the front end's? -/
def frontEvent (i : Instr) : Bool :=
  match i with
  | .counterDoneWrite .. | .cancelApply .. | .admission .. | .spliceLink .. | .launchResult .. | .lstatAnswer ..
  | .launchRelease .. | .deadlineMiss .. | .overrunRaise .. | .graceExpire .. | .workPlacement | .saveTimeout .. | .contextRestore ..
  | .unspliceExecute .. | .heldEntryWrite .. | .fanswer .. | .panswer .. | .cqUnsplice .. | .cqCancel .. | .cqTlbinv ..
  | .jobopen .. | .jobseal .. | .traceDrain .. => true
  | _ => false

/-- Is the die whose front end would act in this step in a takeover, so that the event is held?  Which die acts is free (log
entry 59). -/
def State.feHeld (s : State) : Bool := (s.host.fw.get {} (Config.skew 400 s.steps % 4)).taking

/-! ### Time, power and links (R225, R440, R446, R447, R454, R455) -/

/-- TIME_MEASUREMENT: a measurement of the selected source gives TIMEOFF, and of the peers SKEW.FAULT; a source on an
Ultra Ethernet port is measured while the port is up (R446, R447). -/
def execTimeMeasurement (off : BitVec 64) (peerOff : Nat) (s : State) : Host.Outcome State Fault Refusal :=
  let src := s.host.timesrc.toNat
  let heard := decide (src = 9) || decide (src = 10) || (decide (1 ≤ src) && decide (src ≤ 8) && s.host.uePorts.getLsbD (src - 1))
  .next ((s.updHost (fun h => { h with
    timeoff := if heard then off else h.timeoff
    peerOff := peerOff })).judgeSkew)

/-- POWER_ALARM_ASSERT: the alarm rises and is counted (R454, R455). -/
def execPowerAlarmAssert (s : State) : Host.Outcome State Fault Refusal :=
  .next s.alarmRise

/-- POWER_ALARM_DEASSERT; not on the module while its power average exceeds 2,000 W (R455). -/
def execPowerAlarmDeassert (s : State) : Host.Outcome State Fault Refusal :=
  .next (if s.host.alarm ∧ ¬(Config.isModule ∧ 2000 < s.host.pwr.toNat) then
      s.updHost (fun h => { h with alarm := false, alarmAt := s.now })
    else s)

/-- NARROW_SET: after the alarm has risen; every matrix unit narrows at its next row boundary (R455). -/
def execNarrowSet (s : State) : Host.Outcome State Fault Refusal :=
  .next (if s.host.narrowDue then (s.updHost (fun h => { h with narrow := true, narrowDue := false })).pkgEvent 0 else s)

/-- NARROW_CLEAR: the alarm has been deasserted for 100 µs without interruption (R455). -/
def execNarrowClear (s : State) : Host.Outcome State Fault Refusal :=
  let h := s.host
  .next (if h.narrow ∧ ¬h.alarm ∧ h.alarmAt + 100000 ≤ s.now then
      (s.updHost (fun h => { h with narrow := false })).pkgEvent 0
    else s)

/-- UCIE_MODULE_FAIL: a module is disabled; a link that has lost all four fails, and no later launch is admitted (R440). -/
def execUcieModuleFail (link modul : Nat) (s : State) : Host.Outcome State Fault Refusal :=
  let m := s.host.ucie.get 0 link
  .next (if m.getLsbD modul then s
    else
      let m1 := m ||| BitVec.ofNat 4 (2 ^ modul)
      let s1 := (s.updHost (fun h => { h with ucie := h.ucie.set 0 link m1 })).pkgEvent 3
      if m1 = BitVec.allOnes 4 then (s1.updHost (fun h => { h with linkfail := true })).pkgEvent 5 else s1)

/-- UE_PORT_CHANGE: an Ultra Ethernet port comes up or goes down (R431, R444). -/
def execUePortChange (port : Nat) (up : Bool) (s : State) : Host.Outcome State Fault Refusal :=
  let b : BitVec 8 := BitVec.ofNat 8 (2 ^ port)
  .next (if s.host.uePorts.getLsbD port = up then s
    else (s.updHost (fun h => { h with uePorts := if up then h.uePorts ||| b else h.uePorts &&& ~~~b })).pkgEvent 4)

/-! ### Attestation (R452, R453) -/

/-- A response of the SPDM responder. -/
def State.respond (s : State) (req : Nat) (code : BitVec 8) (body : List Byte) : State :=
  s.updHost (fun h => { h with spdmOut := { req := req, code := code, body := body } :: h.spdmOut })

/-- An error response: the request is not served in the connection's state, or not supported. -/
def State.spdmError (s : State) (req reason : Nat) : State := s.respond req 0x7F (leBytes 1 reason ++ leBytes 1 0)

/-- Free bytes of a response: what the spec does not state of it, a signature or a certificate among them. -/
def State.freeBytes (s : State) (n : Nat) : List Byte × State :=
  ((Config.bytes s.draws ++ List.replicate n 0).take n, s.drawn)

/-- The connection of a requester. -/
def State.conn (s : State) (req : Nat) : SpdmConn := s.host.spdm.get {} req

/-- A connection moved on. -/
def State.setConn (s : State) (req : Nat) (c : SpdmConn) : State :=
  s.updHost (fun h => { h with spdm := h.spdm.set {} req c })

/-- GET_VERSION: version 1.3; the connection starts anew (R453). -/
def execGetVersion (req : Nat) (s : State) : Host.Outcome State Fault Refusal :=
  .next ((s.setConn req { version := true }).respond req 0x04 (leBytes 2 0x1300))

/-- GET_CAPABILITIES: certificates, challenge and signed measurements; no sessions (R453). -/
def execGetCapabilities (req : Nat) (s : State) : Host.Outcome State Fault Refusal :=
  .next (if (s.conn req).version then
      (s.setConn req { version := true, caps := true }).respond req 0x61 (leBytes 4 0x16)
    else s.spdmError req 0x04)

/-- NEGOTIATE_ALGORITHMS: SM2 on its P-256 curve and SM3-256 as base hash, or nothing; the measurement hash is SM3-256
(R453). -/
def execNegotiateAlgorithms (req : Nat) (asym hash : BitVec 32) (s : State) : Host.Outcome State Fault Refusal :=
  let a := asym &&& 0x200
  let h := hash &&& 0x40
  .next (if (s.conn req).caps then
      (s.setConn req { version := true, caps := true, algs := decide (a ≠ 0) && decide (h ≠ 0) }).respond req 0x63
        (leBytes 4 a.toNat ++ leBytes 4 h.toNat ++ leBytes 4 0x80)
    else s.spdmError req 0x04)

/-- GET_DIGESTS: the digest of the chain of slot 0 (R453). -/
def execGetDigests (req : Nat) (s : State) : Host.Outcome State Fault Refusal :=
  .next (if (s.conn req).algs then
      s.respond req 0x01 (leBytes 1 1 ++ leBytes 32 (Config.sm3 Config.chain).toNat)
    else s.spdmError req 0x04)

/-- GET_CERTIFICATE: the chain of slot 0 (R453). -/
def execGetCertificate (req slot : Nat) (s : State) : Host.Outcome State Fault Refusal :=
  .next (if ¬(s.conn req).algs then s.spdmError req 0x04
    else if slot ≠ 0 then s.spdmError req 0x01
    else s.respond req 0x02 Config.chain)

/-- CHALLENGE of slot 0: a signed response (R453). -/
def execChallenge (req slot : Nat) (s : State) : Host.Outcome State Fault Refusal :=
  .next (if ¬(s.conn req).algs then s.spdmError req 0x04
    else if slot ≠ 0 then s.spdmError req 0x01
    else
      let x := s.freeBytes 64
      x.2.respond req 0x03 x.1)

/-- The measurement block of an index (R452): active and standby images, the boot ROM (whose identity stands apart from
every image's), and PVNEG of the four dies. -/
def State.measurementBlock (s : State) (index : Nat) : Option (List Byte) :=
  let m (i : Nat) : List Byte := leBytes 32 (Config.measurement i).toNat
  let fw (d : Nat) : Firmware := s.host.fw.get {} d
  match index with
  | 1 | 2 | 3 | 4 => some (m ((fw (index - 1)).active + 1))
  | 5 | 6 | 7 | 8 => some (m ((fw (index - 5)).standby + 1))
  | 9 => some (m 0)
  | 10 => some ((List.range 4).map (fun d => (fw d).pvneg))
  | _ => none

/-- GET_MEASUREMENTS: a block with its signature (R452, R453). -/
def execGetMeasurements (req index : Nat) (s : State) : Host.Outcome State Fault Refusal :=
  .next (if ¬(s.conn req).algs then s.spdmError req 0x04
    else
      match s.measurementBlock index with
      | none => s.spdmError req 0x01
      | some b =>
        let x := s.freeBytes 64
        x.2.respond req 0x60 (leBytes 1 index ++ b ++ x.1))

end Sys2Proof.Machine
end

