-- ==== Sys2Proof/Machine/Lanes.lean ====
section
/-! DEFINITION. The cross-lane class (spec/06_lanes).  The participants are the active lanes of the issue (R164); every
source is read before any destination is written (R9). -/

namespace Sys2Proof.Machine

/-- One value for each participant written to D: by every participant, or once under U (R168). -/
def State.putLanes (s : State) (h : Head) (d : Spec) (act : List Nat) (v : Nat → Word) : State :=
  if h.u then
    match act with
    | [] => s
    | L :: _ => s.setDest L d (v L)
  else act.foldl (fun t L => t.setDest L d (v L)) s

/-- The source lane of SHFL within the warp, if it is in the segment (R171). -/
def shflLane (o : ShflOp) (L : Nat) (b c : Word) : Option Nat :=
  let w := 2 ^ (5 - Nat.min (fld c 2 0) 5)
  let base := L - L % w
  let off := L % w
  let b := b.toNat
  let t : Option Nat := match o with
    | .idx => some (b % w)
    | .up => if b ≤ off then some (off - b) else none
    | .down => some (off + b)
    | .xor => some (off ^^^ (b % w))
  match t with
  | some t => if t < w then some (base + t) else none
  | none => none

/-- SHFL (R171). -/
def execShfl (h : Head) (o : ShflOp) (d a b c : Spec) (imm : BitVec 32) (s : State) :
    Host.Outcome State Fault Refusal :=
  let act := s.active h
  let v (L : Nat) : Word :=
    match shflLane o L (s.opnd L b imm) (s.opnd L c imm) with
    | some t => if act.contains t then s.opnd t a imm else s.opnd L a imm
    | none => s.opnd L a imm
  .next ((s.putLanes h d act v).advance s.gang)

/-- SHFX (R172). -/
def execShfx (h : Head) (d : Spec) (k : Fin 32) (b : Spec) (imm : BitVec 32) (s : State) :
    Host.Outcome State Fault Refusal :=
  let act := s.active h
  let v (L : Nat) : Word :=
    let j := (s.opnd L b imm).toNat
    if j < 256 ∧ act.contains (j / 8) then (s.cl (j / 8)).win (k.val + j % 8) else 0
  .next ((s.putLanes h d act v).advance s.gang)

/-- BCAST (R173). -/
def execBcast (h : Head) (d a b : Spec) (imm : BitVec 32) (s : State) : Host.Outcome State Fault Refusal :=
  let act := s.active h
  let low := act.headD 0
  let j := (s.opnd low b imm).toNat
  let src := if j < 32 ∧ act.contains j then j else low
  let v := s.opnd src a imm
  .next ((s.putLanes h d act (fun _ => v)).advance s.gang)

/-- The outcome of VOTE over the participants' predicates (R174). -/
def voteVal (o : VoteOp) (ps : List Bool) : Bool :=
  match o with
  | .every => ps.all id
  | .some => ps.any id
  | .same => ps.all id || ps.all (!·)

/-- VOTE (R174). -/
def execVote (h : Head) (o : VoteOp) (d : Spec) (pa : Fin 8) (s : State) : Host.Outcome State Fault Refusal :=
  let act := s.active h
  let t := voteVal o (act.map (fun L => s.predOf L pa))
  let s' := match d with
    | .pred p => s.putPredOnce p act t
    | _ => s.putLanes h d act (fun _ => if t then 1 else 0)
  .next (s'.advance s.gang)

/-- BALLOT (R175). -/
def execBallot (h : Head) (d : Spec) (pa : Fin 8) (s : State) : Host.Outcome State Fault Refusal :=
  let act := s.active h
  let m := maskOf (act.filter (fun L => s.predOf L pa))
  .next ((s.putLanes h d act (fun _ => m.setWidth 64)).advance s.gang)

/-- BPCNT (R176). -/
def execBpcnt (h : Head) (d a b : Spec) (p : Fin 8) (imm : BitVec 32) (s : State) :
    Host.Outcome State Fault Refusal :=
  let act := s.active h
  let k := (s.opnd (act.headD 0) b imm).toNat
  let t (L : Nat) : Bool := s.predOf L p && decide (k < 64) && (s.opnd L a imm).getLsbD k
  let n := (act.filter t).length
  let s1 := act.foldl (fun u L => u.setPredOf L p (t L)) s
  .next ((s1.putLanes h d act (fun _ => BitVec.ofNat 64 n)).advance s.gang)

/-! ### Reductions and scans (R177 to R179) -/

/-- Two integers combined; the patterns' low n bits for the bitwise operations (R177). -/
def redInt (o : RedOp) (x y : Int) : Int :=
  match o with
  | .min => min x y
  | .max => max x y
  | .and => (BitVec.ofInt 64 x &&& BitVec.ofInt 64 y).toInt
  | .or => (BitVec.ofInt 64 x ||| BitVec.ofInt 64 y).toInt
  | .xor => (BitVec.ofInt 64 x ^^^ BitVec.ofInt 64 y).toInt
  | _ => x + y

/-- Two floating-point values combined, in RNE (R178). -/
def redFloat (o : RedOp) (F : Fmt) (ftz : Bool) (x y : Nat) : FRes :=
  match o with
  | .fmin => F.minmax false ftz x y
  | .fmax => F.minmax true ftz x y
  | _ => F.add .rne ftz x y

/-- Is the operation one on floating-point values? -/
def redIsFloat : RedOp → Bool
  | .fadd | .fmin | .fmax => true
  | _ => false

/-- One level of the tree of R178: neighbours combined, absent ones passed over. -/
def treeLevel (f : Nat → Nat → FRes) : List (Option FRes) → List (Option FRes)
  | some x :: some y :: t =>
    let r := f x.bits y.bits
    some { r with flags := r.flags ||| x.flags ||| y.flags } :: treeLevel f t
  | some x :: none :: t => some x :: treeLevel f t
  | none :: y :: t => y :: treeLevel f t
  | [x] => [x]
  | [] => []

/-- The tree of R178 over 32 lanes. -/
def tree (f : Nat → Nat → FRes) (vs : List (Option FRes)) : FRes :=
  match treeLevel f (treeLevel f (treeLevel f (treeLevel f (treeLevel f vs)))) with
  | some r :: _ => r
  | _ => { bits := 0 }

/-- REDUCE (R177, R178). -/
def execReduce (h : Head) (o : RedOp) (ty : Ty) (d a : Spec) (imm : BitVec 32) (s : State) :
    Host.Outcome State Fault Refusal :=
  let act := s.active h
  if redIsFloat o then
    let F := fmtOf ty
    let ftz := s.ftz (act.headD 0)
    let vs := (List.range 32).map fun L =>
      if act.contains L then some { bits := F.flushIn ftz (elemOf ty (s.opnd L a imm) 0) : FRes } else none
    let r := tree (redFloat o F ftz) vs
    let s1 := s.putLanes h d act (fun _ => BitVec.ofNat 64 r.bits)
    let s2 := act.foldl (fun t L => t.orFlags L r.flags) s1
    .next (s2.advance s.gang)
  else
    let xs := act.map (fun L => ty.src (s.opnd L a imm))
    let r := match xs with
      | [] => 0
      | x :: t => t.foldl (redInt o) x
    .next ((s.putLanes h d act (fun _ => ty.put r)).advance s.gang)

/-- The constant of an exclusive scan (R179). -/
def scanFirst (o : RedOp) (ty : Ty) : Word :=
  match o with
  | .and => ty.put (2 ^ ty.width - 1)
  | .min => ty.put (if ty.signed then 2 ^ (ty.width - 1) - 1 else 2 ^ ty.width - 1)
  | .max => ty.put (if ty.signed then -(2 ^ (ty.width - 1)) else 0)
  | .fmin => BitVec.ofNat 64 ((fmtOf ty).inf false)
  | .fmax => BitVec.ofNat 64 ((fmtOf ty).inf true)
  | _ => 0

/-- The running value with its flags, as the scan stands after each participant. -/
structure Running where
  val : Option Word := none
  flags : BitVec 5 := 0
  outs : List (Nat × Word) := []
  deriving DecidableEq, Repr

/-- One participant's turn in a scan (R179). -/
def scanStep (comb : Word → Word → Word × BitVec 5) (r : Running) (L : Nat) (v : Word) : Running :=
  match r.val with
  | none => { val := some v, outs := r.outs ++ [(L, v)] }
  | some x =>
    let c := comb x v
    { val := some c.1, flags := r.flags ||| c.2, outs := r.outs ++ [(L, c.1)] }

/-- The combination of a scan on patterns (R177 to R179). -/
def scanComb (o : RedOp) (ty : Ty) (ftz : Bool) (x y : Word) : Word × BitVec 5 :=
  if redIsFloat o then
    let r := redFloat o (fmtOf ty) ftz (elemOf ty x 0) (elemOf ty y 0)
    (BitVec.ofNat 64 r.bits, r.flags)
  else (ty.put (redInt o (ty.src x) (ty.src y)), 0)

/-- A participant's value as a scan starts from it. -/
def State.scanVal (s : State) (o : RedOp) (ty : Ty) (ftz : Bool) (a : Spec) (imm : BitVec 32) (L : Nat) : Word :=
  if redIsFloat o then BitVec.ofNat 64 ((fmtOf ty).flushIn ftz (elemOf ty (s.opnd L a imm) 0))
  else ty.put (ty.src (s.opnd L a imm))

/-- The scan over lanes in ascending order. -/
def State.scanOver (s : State) (o : RedOp) (ty : Ty) (ftz : Bool) (a : Spec) (imm : BitVec 32) (ls : List Nat) : Running :=
  ls.foldl (fun r L => scanStep (scanComb o ty ftz) r L (s.scanVal o ty ftz a imm L)) {}

/-- The value written to a lane by a scan. -/
def Running.at (r : Running) (L : Nat) : Word :=
  match r.outs.find? (fun x => x.1 = L) with
  | some x => x.2
  | none => 0

/-- SCAN, inclusive (R179). -/
def execScan (h : Head) (o : RedOp) (ty : Ty) (d a : Spec) (imm : BitVec 32) (s : State) :
    Host.Outcome State Fault Refusal :=
  let act := s.active h
  let r := s.scanOver o ty (s.ftz (act.headD 0)) a imm act
  let s1 := s.putLanes h d act r.at
  let s2 := act.foldl (fun t L => t.orFlags L r.flags) s1
  .next (s2.advance s.gang)

/-- SCAN, exclusive: every participant takes the inclusive value of the one before it (R179). -/
def execScanEx (h : Head) (o : RedOp) (ty : Ty) (d a : Spec) (imm : BitVec 32) (s : State) :
    Host.Outcome State Fault Refusal :=
  let act := s.active h
  let r := s.scanOver o ty (s.ftz (act.headD 0)) a imm act.dropLast
  let v (L : Nat) : Word :=
    match (act.filter (· < L)).getLast? with
    | some P => r.at P
    | none => scanFirst o ty
  let s1 := s.putLanes h d act v
  let s2 := act.foldl (fun t L => t.orFlags L r.flags) s1
  .next (s2.advance s.gang)

end Sys2Proof.Machine
end

