-- ==== Sys2Proof/Machine/Dispatch.lean ====
section
/-! DEFINITION. The meaning of every step of the machine: one arm for each constructor of `Instr`. -/

namespace Sys2Proof.Machine

/-- The effect of an instruction of the issue in progress, or of an event of the device. -/
def exec (i : Instr) (s : State) : Host.Outcome State Fault Refusal :=
  match i with
  | .nop h => Sys2Proof.Machine.execNop h s
  | .mov h ty d a imm => Sys2Proof.Machine.execMov h ty d a imm s
  | .add h ty d a b imm => Sys2Proof.Machine.execAdd h ty d a b imm s
  | .sub h ty d a b imm => Sys2Proof.Machine.execSub h ty d a b imm s
  | .addc h ty d a b p imm => Sys2Proof.Machine.execAddc h ty d a b p imm s
  | .subb h ty d a b p imm => Sys2Proof.Machine.execSubb h ty d a b p imm s
  | .mul h ty d a b imm => Sys2Proof.Machine.execMul h ty d a b imm s
  | .mulh h ty d a b imm => Sys2Proof.Machine.execMulh h ty d a b imm s
  | .mad h ty d a b c imm => Sys2Proof.Machine.execMad h ty d a b c imm s
  | .mulw h ty d a b imm => Sys2Proof.Machine.execMulw h ty d a b imm s
  | .div h ty d a b imm => Sys2Proof.Machine.execDiv h ty d a b imm s
  | .rem h ty d a b imm => Sys2Proof.Machine.execRem h ty d a b imm s
  | .min h ty d a b imm => Sys2Proof.Machine.execMin h ty d a b imm s
  | .max h ty d a b imm => Sys2Proof.Machine.execMax h ty d a b imm s
  | .clamp h ty d a b c imm => Sys2Proof.Machine.execClamp h ty d a b c imm s
  | .abs h ty d a imm => Sys2Proof.Machine.execAbs h ty d a imm s
  | .neg h ty d a imm => Sys2Proof.Machine.execNeg h ty d a imm s
  | .and h ty d a b imm => Sys2Proof.Machine.execAnd h ty d a b imm s
  | .or h ty d a b imm => Sys2Proof.Machine.execOr h ty d a b imm s
  | .xor h ty d a b imm => Sys2Proof.Machine.execXor h ty d a b imm s
  | .andn h ty d a b imm => Sys2Proof.Machine.execAndn h ty d a b imm s
  | .not h ty d a imm => Sys2Proof.Machine.execNot h ty d a imm s
  | .shl h ty d a b imm => Sys2Proof.Machine.execShl h ty d a b imm s
  | .shr h ty d a b imm => Sys2Proof.Machine.execShr h ty d a b imm s
  | .sar h ty d a b imm => Sys2Proof.Machine.execSar h ty d a b imm s
  | .rotL h ty d a b imm => Sys2Proof.Machine.execRotL h ty d a b imm s
  | .rotR h ty d a b imm => Sys2Proof.Machine.execRotR h ty d a b imm s
  | .bfx h ty d a b imm => Sys2Proof.Machine.execBfx h ty d a b imm s
  | .bfi h ty d a b c imm => Sys2Proof.Machine.execBfi h ty d a b c imm s
  | .ext h ty d a b imm => Sys2Proof.Machine.execExt h ty d a b imm s
  | .popc h ty d a imm => Sys2Proof.Machine.execPopc h ty d a imm s
  | .clz h ty d a imm => Sys2Proof.Machine.execClz h ty d a imm s
  | .ctz h ty d a imm => Sys2Proof.Machine.execCtz h ty d a imm s
  | .brev h ty d a imm => Sys2Proof.Machine.execBrev h ty d a imm s
  | .cmp h cc ty d a b imm => Sys2Proof.Machine.execCmp h cc ty d a b imm s
  | .sel h ty d a b p imm => Sys2Proof.Machine.execSel h ty d a b p imm s
  | .prmt h d a b c imm => Sys2Proof.Machine.execPrmt h d a b c imm s
  | .lea h d imm => Sys2Proof.Machine.execLea h d imm s
  | .hmix h d a b imm => Sys2Proof.Machine.execHmix h d a b imm s
  | .plog h o pd pa pb => Sys2Proof.Machine.execPlog h o pd pa pb s
  | .pmovGet h d => Sys2Proof.Machine.execPmovGet h d s
  | .pmovSet h a imm => Sys2Proof.Machine.execPmovSet h a imm s
  | .fadd h ty rm d a b imm => Sys2Proof.Machine.execFadd h ty rm d a b imm s
  | .fsub h ty rm d a b imm => Sys2Proof.Machine.execFsub h ty rm d a b imm s
  | .fmul h ty rm d a b imm => Sys2Proof.Machine.execFmul h ty rm d a b imm s
  | .ffma h ty rm d a b c imm => Sys2Proof.Machine.execFfma h ty rm d a b c imm s
  | .fdiv h ty rm d a b imm => Sys2Proof.Machine.execFdiv h ty rm d a b imm s
  | .fsqrt h ty rm d a imm => Sys2Proof.Machine.execFsqrt h ty rm d a imm s
  | .fmin h ty d a b imm => Sys2Proof.Machine.execFmin h ty d a b imm s
  | .fmax h ty d a b imm => Sys2Proof.Machine.execFmax h ty d a b imm s
  | .fabs h ty d a imm => Sys2Proof.Machine.execFabs h ty d a imm s
  | .fneg h ty d a imm => Sys2Proof.Machine.execFneg h ty d a imm s
  | .fcps h o ty d a b imm => Sys2Proof.Machine.execFcps h o ty d a b imm s
  | .fcmp h cc ty d a b imm => Sys2Proof.Machine.execFcmp h cc ty d a b imm s
  | .fclass h ty d a imm => Sys2Proof.Machine.execFclass h ty d a imm s
  | .frcp h ty d a imm => Sys2Proof.Machine.execFrcp h ty d a imm s
  | .frsq h ty d a imm => Sys2Proof.Machine.execFrsq h ty d a imm s
  | .fexp2 h ty d a imm => Sys2Proof.Machine.execFexp2 h ty d a imm s
  | .flog2 h ty d a imm => Sys2Proof.Machine.execFlog2 h ty d a imm s
  | .fcvt h sty ty rm d a b imm => Sys2Proof.Machine.execFcvt h sty ty rm d a b imm s
  | .ftoi h sty ty rm d a imm => Sys2Proof.Machine.execFtoi h sty ty rm d a imm s
  | .itof h sty ty rm d a imm => Sys2Proof.Machine.execItof h sty ty rm d a imm s
  | .frnd h ty rm d a imm => Sys2Proof.Machine.execFrnd h ty rm d a imm s
  | .fscl h ty rm d a b imm => Sys2Proof.Machine.execFscl h ty rm d a b imm s
  | .fdot h ty rm d a b c imm => Sys2Proof.Machine.execFdot h ty rm d a b c imm s
  | .bra h imm => Sys2Proof.Machine.execBra h imm s
  | .brx h a => Sys2Proof.Machine.execBrx h a s
  | .call h imm => Sys2Proof.Machine.execCall h imm s
  | .callx h a => Sys2Proof.Machine.execCallx h a s
  | .ret h => Sys2Proof.Machine.execRet h s
  | .exit h => Sys2Proof.Machine.execExit h s
  | .yield h => Sys2Proof.Machine.execYield h s
  | .wspill h => Sys2Proof.Machine.execWspill h s
  | .wfill h => Sys2Proof.Machine.execWfill h s
  | .barHold h b c => Sys2Proof.Machine.execBarHold h b c s
  | .barPass h b c => Sys2Proof.Machine.execBarPass h b c s
  | .cvarm h p k members tg imm => Sys2Proof.Machine.execCvarm h p k members tg imm s
  | .cvsign h p k tg imm => Sys2Proof.Machine.execCvsign h p k tg imm s
  | .cvwait h d k => Sys2Proof.Machine.execCvwait h d k s
  | .shfl h o d a b c imm => Sys2Proof.Machine.execShfl h o d a b c imm s
  | .shfx h d k b imm => Sys2Proof.Machine.execShfx h d k b imm s
  | .bcast h d a b imm => Sys2Proof.Machine.execBcast h d a b imm s
  | .vote h o d pa => Sys2Proof.Machine.execVote h o d pa s
  | .ballot h d pa => Sys2Proof.Machine.execBallot h d pa s
  | .bpcnt h d a b p imm => Sys2Proof.Machine.execBpcnt h d a b p imm s
  | .reduce h o ty d a imm => Sys2Proof.Machine.execReduce h o ty d a imm s
  | .scan h o ty d a imm => Sys2Proof.Machine.execScan h o ty d a imm s
  | .scanEx h o ty d a imm => Sys2Proof.Machine.execScanEx h o ty d a imm s
  | .ld h ty xs d a b imm => Sys2Proof.Machine.execLd h ty xs d a b imm s
  | .st h ty xs a b c imm => Sys2Proof.Machine.execSt h ty xs a b c imm s
  | .ldl h ty xs d a b imm => Sys2Proof.Machine.execLdl h ty xs d a b imm s
  | .stp h ty xs a b c imm => Sys2Proof.Machine.execStp h ty xs a b c imm s
  | .lds h ty xs d a b imm => Sys2Proof.Machine.execLds h ty xs d a b imm s
  | .sts h ty xs a b c imm => Sys2Proof.Machine.execSts h ty xs a b c imm s
  | .ldln h xs k a b imm => Sys2Proof.Machine.execLdln h xs k a b imm s
  | .lda h ty xs d a b imm => Sys2Proof.Machine.execLda h ty xs d a b imm s
  | .sta h ty xs a b c imm => Sys2Proof.Machine.execSta h ty xs a b c imm s
  | .cbget h d n => Sys2Proof.Machine.execCbget h d n s
  | .cbfree h n => Sys2Proof.Machine.execCbfree h n s
  | .migr h xs a b imm => Sys2Proof.Machine.execMigr h xs a b imm s
  | .home h xs d a b imm => Sys2Proof.Machine.execHome h xs d a b imm s
  | .pfl h xs a b imm => Sys2Proof.Machine.execPfl h xs a b imm s
  | .tsto h hd n a b k => Sys2Proof.Machine.execTsto h hd n a b k s
  | .tlod h hd n k a b => Sys2Proof.Machine.execTlod h hd n k a b s
  | .fence h sc => Sys2Proof.Machine.execFence h sc s
  | .stf h ty xs a b c tg => Sys2Proof.Machine.execStf h ty xs a b c tg s
  | .mwait h ty xs d a b c imm => Sys2Proof.Machine.execMwait h ty xs d a b c imm s
  | .tlwait h k b imm => Sys2Proof.Machine.execTlwait h k b imm s
  | .tlread h d k sel => Sys2Proof.Machine.execTlread h d k sel s
  | .atom h o ty sc xs d a b c imm => Sys2Proof.Machine.execAtom h o ty sc xs d a b c imm s
  | .cas h ty sc xs d a b c imm => Sys2Proof.Machine.execCas h ty sc xs d a b c imm s
  | .red h o ty sc xs a b c imm => Sys2Proof.Machine.execRed h o ty sc xs a b c imm s
  | .atoms h o ty xs d a b c imm => Sys2Proof.Machine.execAtoms h o ty xs d a b c imm s
  | .cass h ty xs d a b c imm => Sys2Proof.Machine.execCass h ty xs d a b c imm s
  | .spawn h a b c imm => Sys2Proof.Machine.execSpawn h a b c imm s
  | .spawna h a b c imm => Sys2Proof.Machine.execSpawna h a b c imm s
  | .spawnd h b c imm => Sys2Proof.Machine.execSpawnd h b c imm s
  | .record h a k f => Sys2Proof.Machine.execRecord h a k f s
  | .cflush h a matchTag tg => Sys2Proof.Machine.execCflush h a matchTag tg s
  | .ccwait h d a b c imm => Sys2Proof.Machine.execCcwait h d a b c imm s
  | .cancelLaunch h p a => Sys2Proof.Machine.execCancelLaunch h p a s
  | .cancelGraph h p a => Sys2Proof.Machine.execCancelGraph h p a s
  | .cancelJob h p a => Sys2Proof.Machine.execCancelJob h p a s
  | .push h p a k e => Sys2Proof.Machine.execPush h p a k e s
  | .rcfence h => Sys2Proof.Machine.execRcfence h s
  | .engq h d k b sel peer => Sys2Proof.Machine.execEngq h d k b sel peer s
  | .mls h m a imm => Sys2Proof.Machine.execMls h m a imm s
  | .mswap h => Sys2Proof.Machine.execMswap h s
  | .mma h m cv act accd imm => Sys2Proof.Machine.execMma h m cv act accd imm s
  | .mmas h m k cv act accd imm => Sys2Proof.Machine.execMmas h m k cv act accd imm s
  | .mza h a imm => Sys2Proof.Machine.execMza h a imm s
  | .mstat h d sel => Sys2Proof.Machine.execMstat h d sel s
  | .mcond h d k => Sys2Proof.Machine.execMcond h d k s
  | .launch h d a => Sys2Proof.Machine.execLaunch h d a s
  | .time h d => Sys2Proof.Machine.execTime h d s
  | .sleep h a imm => Sys2Proof.Machine.execSleep h a imm s
  | .budget h d => Sys2Proof.Machine.execBudget h d s
  | .lstat h d a sel => Sys2Proof.Machine.execLstat h d a sel s
  | .trap h code => Sys2Proof.Machine.execTrap h code s
  | .brk h code => Sys2Proof.Machine.execBrk h code s
  | .rett h => Sys2Proof.Machine.execRett h s
  | .krd h d reg => Sys2Proof.Machine.execKrd h d reg s
  | .kwr h a reg => Sys2Proof.Machine.execKwr h a reg s
  | .tlbinv h sc a whole => Sys2Proof.Machine.execTlbinv h sc a whole s
  | .trace h a imm => Sys2Proof.Machine.execTrace h a imm s
  | .halt h => Sys2Proof.Machine.execHalt h s
  | .ctxsave h a imm => Sys2Proof.Machine.execCtxsave h a imm s
  | .ctxrest h p a imm => Sys2Proof.Machine.execCtxrest h p a imm s
  | .cbcfgWrite k => Sys2Proof.Machine.execCbcfgWrite k s
  | .governedResultWrite k => Sys2Proof.Machine.execGovernedResultWrite k s
  | .decodeLoadComplete k => Sys2Proof.Machine.execDecodeLoadComplete k s
  | .completionTimeReturn k => Sys2Proof.Machine.execCompletionTimeReturn k s
  | .tlbWalk k => Sys2Proof.Machine.execTlbWalk k s
  | .remoteRead k => Sys2Proof.Machine.execRemoteRead k s
  | .remoteWrite k => Sys2Proof.Machine.execRemoteWrite k s
  | .leaseGrant k => Sys2Proof.Machine.execLeaseGrant k s
  | .atomicAtHome k => Sys2Proof.Machine.execAtomicAtHome k s
  | .monitorRegister k => Sys2Proof.Machine.execMonitorRegister k s
  | .monitorWake k => Sys2Proof.Machine.execMonitorWake k s
  | .monitorLoss k => Sys2Proof.Machine.execMonitorLoss k s
  | .mwaitTimeout tid => Sys2Proof.Machine.execMwaitTimeout tid s
  | .sleepWake wid gang => Sys2Proof.Machine.execSleepWake wid gang s
  | .fenceRetire wid gang => Sys2Proof.Machine.execFenceRetire wid gang s
  | .tlbinvComplete wid gang => Sys2Proof.Machine.execTlbinvComplete wid gang s
  | .nymphDepart k => Sys2Proof.Machine.execNymphDepart k s
  | .nymphArrival k => Sys2Proof.Machine.execNymphArrival k s
  | .combTimerExpire k => Sys2Proof.Machine.execCombTimerExpire k s
  | .combWarpForm k => Sys2Proof.Machine.execCombWarpForm k s
  | .remoteNymphResend k => Sys2Proof.Machine.execRemoteNymphResend k s
  | .spawnChildDepart k => Sys2Proof.Machine.execSpawnChildDepart k s
  | .cflushArrive k => Sys2Proof.Machine.execCflushArrive k s
  | .poolCombPlace k => Sys2Proof.Machine.execPoolCombPlace k s
  | .stealStart cluster => Sys2Proof.Machine.execStealStart cluster s
  | .stealRequest k => Sys2Proof.Machine.execStealRequest k s
  | .stealAnswer k => Sys2Proof.Machine.execStealAnswer k s
  | .nodeRecordAppend k => Sys2Proof.Machine.execNodeRecordAppend k s
  | .nodeFlushTimer index => Sys2Proof.Machine.execNodeFlushTimer index s
  | .counterDoneWrite lvl k => Sys2Proof.Machine.execCounterDoneWrite lvl k s
  | .cancelApply k => Sys2Proof.Machine.execCancelApply k s
  | .admission k => Sys2Proof.Machine.execAdmission k s
  | .spliceLink k => Sys2Proof.Machine.execSpliceLink k s
  | .launchResult k => Sys2Proof.Machine.execLaunchResult k s
  | .lstatAnswer k => Sys2Proof.Machine.execLstatAnswer k s
  | .launchRelease index => Sys2Proof.Machine.execLaunchRelease index s
  | .deadlineMiss index => Sys2Proof.Machine.execDeadlineMiss index s
  | .overrunRaise index => Sys2Proof.Machine.execOverrunRaise index s
  | .overrunDeliver wid => Sys2Proof.Machine.execOverrunDeliver wid s
  | .graceExpire index => Sys2Proof.Machine.execGraceExpire index s
  | .workPlacement => Sys2Proof.Machine.execWorkPlacement s
  | .contextSave k => Sys2Proof.Machine.execContextSave k s
  | .saveTimeout k => Sys2Proof.Machine.execSaveTimeout k s
  | .contextRestore k => Sys2Proof.Machine.execContextRestore k s
  | .unspliceExecute index => Sys2Proof.Machine.execUnspliceExecute index s
  | .handlerEntry wid frag => Sys2Proof.Machine.execHandlerEntry wid frag s
  | .heldEntryWrite dom ring => Sys2Proof.Machine.execHeldEntryWrite dom ring s
  | .tload core => Sys2Proof.Machine.execTload core s
  | .tstore core => Sys2Proof.Machine.execTstore core s
  | .aread core => Sys2Proof.Machine.execAread core s
  | .mcast core => Sys2Proof.Machine.execMcast core s
  | .lcopy core => Sys2Proof.Machine.execLcopy core s
  | .condense core => Sys2Proof.Machine.execCondense core s
  | .dispatch cluster => Sys2Proof.Machine.execDispatch cluster s
  | .engineStep e unit => Sys2Proof.Machine.execEngineStep e unit s
  | .commandRetire k => Sys2Proof.Machine.execCommandRetire k s
  | .mcastJoin k => Sys2Proof.Machine.execMcastJoin k s
  | .mcastStreamStart k => Sys2Proof.Machine.execMcastStreamStart k s
  | .mcastGroupClose k => Sys2Proof.Machine.execMcastGroupClose k s
  | .matrixOpStart k => Sys2Proof.Machine.execMatrixOpStart k s
  | .matrixOpComplete k => Sys2Proof.Machine.execMatrixOpComplete k s
  | .ringTailWrite port func dom ring v => Sys2Proof.Machine.execRingTailWrite port func dom ring v s
  | .ringHeadWrite port func dom ring v => Sys2Proof.Machine.execRingHeadWrite port func dom ring v s
  | .ringBaseWrite port func dom ring v => Sys2Proof.Machine.execRingBaseWrite port func dom ring v s
  | .ownerWrite port func dom v => Sys2Proof.Machine.execOwnerWrite port func dom v s
  | .registerWrite port func off v => Sys2Proof.Machine.execRegisterWrite port func off v s
  | .bar0Unsupported port func off size write => Sys2Proof.Machine.execBar0Unsupported port func off size write s
  | .pkgctlRun port => Sys2Proof.Machine.execPkgctlRun port s
  | .pkgctlReset port => Sys2Proof.Machine.execPkgctlReset port s
  | .pkgevtClear port v => Sys2Proof.Machine.execPkgevtClear port v s
  | .skewsetWrite port v => Sys2Proof.Machine.execSkewsetWrite port v s
  | .timectlWrite port v => Sys2Proof.Machine.execTimectlWrite port v s
  | .fwupdWrite port v => Sys2Proof.Machine.execFwupdWrite port v s
  | .fwTakeover die => Sys2Proof.Machine.execFwTakeover die s
  | .watchdogFailover die => Sys2Proof.Machine.execWatchdogFailover die s
  | .firmwareBoot die => Sys2Proof.Machine.execFirmwareBoot die s
  | .apertureRead port func off size => Sys2Proof.Machine.execApertureRead port func off size s
  | .apertureWrite port func off data => Sys2Proof.Machine.execApertureWrite port func off data s
  | .fanswer dom => Sys2Proof.Machine.execFanswer dom s
  | .panswer dom => Sys2Proof.Machine.execPanswer dom s
  | .cqUnsplice dom => Sys2Proof.Machine.execCqUnsplice dom s
  | .cqCancel dom => Sys2Proof.Machine.execCqCancel dom s
  | .cqTlbinv dom => Sys2Proof.Machine.execCqTlbinv dom s
  | .jobopen dom => Sys2Proof.Machine.execJobopen dom s
  | .jobseal dom => Sys2Proof.Machine.execJobseal dom s
  | .traceDrain dom => Sys2Proof.Machine.execTraceDrain dom s
  | .timeMeasurement off peerOff => Sys2Proof.Machine.execTimeMeasurement off peerOff s
  | .powerAlarmAssert => Sys2Proof.Machine.execPowerAlarmAssert s
  | .powerAlarmDeassert => Sys2Proof.Machine.execPowerAlarmDeassert s
  | .narrowSet => Sys2Proof.Machine.execNarrowSet s
  | .narrowClear => Sys2Proof.Machine.execNarrowClear s
  | .ucieModuleFail link modul => Sys2Proof.Machine.execUcieModuleFail link modul s
  | .uePortChange port up => Sys2Proof.Machine.execUePortChange port up s
  | .pcieFundamentalReset port => Sys2Proof.Machine.execPcieFundamentalReset port s
  | .functionLevelReset port func => Sys2Proof.Machine.execFunctionLevelReset port func s
  | .getVersion req => Sys2Proof.Machine.execGetVersion req s
  | .getCapabilities req => Sys2Proof.Machine.execGetCapabilities req s
  | .negotiateAlgorithms req asym hash => Sys2Proof.Machine.execNegotiateAlgorithms req asym hash s
  | .getDigests req => Sys2Proof.Machine.execGetDigests req s
  | .getCertificate req slot => Sys2Proof.Machine.execGetCertificate req slot s
  | .challenge req slot => Sys2Proof.Machine.execChallenge req slot s
  | .getMeasurements req index => Sys2Proof.Machine.execGetMeasurements req index s

end Sys2Proof.Machine
end

