-- ==== Sys2Proof/WellFormed.lean ====
section
/-! DEFINITION. Which terms of `Instr` are steps of the machine: an instruction word is well formed when its fields pass
the checks of R63 and the decoder builds it back from them (so an operand that the word cannot hold is not well formed);
an event is well formed when its operands lie in the ranges that the device has (spec/01_machine R12 to R16,
spec/16_edges R430 to R432, R444). -/

namespace Sys2Proof

/-- The ranges of an event's operands. -/
def eventInRange : Instr → Bool
  | .tload c | .tstore c | .aread c | .mcast c | .lcopy c | .condense c => decide (c < 384)
  | .dispatch c | .stealStart c => decide (c < 24)
  | .engineStep .disp n => decide (n < 24)
  | .engineStep _ n => decide (n < 384)
  | .heldEntryWrite d r => decide (d < 128) && decide (1 ≤ r) && decide (r ≤ 6)
  | .ringTailWrite _ f d r _ => decide (f ≤ 64) && decide (d < 128) && decide (r < 7)
  | .ringHeadWrite _ f d r _ => decide (f ≤ 64) && decide (d < 128) && decide (r < 7)
  | .ringBaseWrite _ f d r _ => decide (f ≤ 64) && decide (d < 128) && decide (r < 7)
  | .ownerWrite _ f d _ => decide (f ≤ 64) && decide (d < 128)
  | .registerWrite _ f o _ => decide (f ≤ 64) && decide (o % 8 = 0) && decide (o < 65536)
  | .bar0Unsupported _ f o n _ => decide (f ≤ 64) && decide (o < 65536) && !(decide (o % 8 = 0) && n == 8)
  | .apertureRead _ f o n => decide (f ≤ 64) && decide (o + n ≤ 2 ^ 32)
  | .apertureWrite _ f o data => decide (f ≤ 64) && decide (o + data.length ≤ 2 ^ 32)
  | .fwTakeover d | .watchdogFailover d | .firmwareBoot d => decide (d < 4)
  | .fanswer d | .panswer d | .cqUnsplice d | .cqCancel d | .cqTlbinv d | .jobopen d | .jobseal d | .traceDrain d =>
    decide (d < 128)
  | .ucieModuleFail l m => decide (l < 4) && decide (m < 4)
  | .uePortChange p _ => decide (p < 8)
  | .functionLevelReset _ f => decide (f ≤ 64)
  | .launchRelease x | .deadlineMiss x | .overrunRaise x | .graceExpire x | .nodeFlushTimer x | .unspliceExecute x =>
    decide (x < 4096)
  | _ => true

/-- Well-formedness of a step. -/
def Instr.wf (i : Instr) : Bool :=
  match fieldsOf i with
  | some f => illegalSub f == none && build f == some i
  | none => eventInRange i

end Sys2Proof
end

