-- ==== Sys2Proof/Machine/Step.lean ====
section
/-! DEFINITION. One step of the machine: whose turn it is, and what that turn does. -/

namespace Sys2Proof.Machine

/-- Whose turn it is: the first turn that the state holds, or a free one (R1). -/
def State.nextTurn (s : State) : Turn :=
  match s.turns with
  | t :: _ => t
  | [] => Config.turn s.steps

/-- The state as a turn finds it: the turn taken, the step counted. -/
def State.turnTaken (s : State) : State := { s with turns := s.turns.tail, steps := s.steps + 1 }

/-- An instruction of an issue executed; afterwards no issue is in progress. -/
def runInstr (i : Instr) (s : State) : Host.Outcome State Fault Refusal :=
  match exec i s with
  | .next t => .next (State.issueDone s i t)
  | r => r

/-- A partition's turn: its warps issue as R393 chooses, or nothing can issue. -/
def stepIssue (core part : Nat) (s : State) : Host.Outcome State Fault Refusal :=
  if core < 384 ∧ part < 2 then
    match s.pick core part with
    | some (.go i t) => runInstr i t
    | some (.went t) => .next t
    | _ => .next s
  else .fault (.noSuchPartition core part)

/-- A waiting instruction of a gang attempted again (R133). -/
def stepRetry (wid gang : Nat) (s : State) : Host.Outcome State Fault Refusal :=
  match s.retryOf wid gang with
  | some (i, t) => runInstr i t
  | none => .next s

/-- An event's turn; an instruction word, or an event out of its range, is no event, and one of the front end is held while
its die is in a takeover (R450). -/
def stepEvent (i : Instr) (s : State) : Host.Outcome State Fault Refusal :=
  if !i.isWord && i.wf && !(frontEvent i && s.feHeld) then exec i s else .next s

/-- One step. -/
def step (s : State) : Host.Outcome State Fault Refusal :=
  match s.nextTurn with
  | .issue core part => stepIssue core part s.turnTaken
  | .retry wid gang => stepRetry wid gang s.turnTaken
  | .event i => stepEvent i s.turnTaken
  | .tick dt => .next (s.turnTaken.elapse dt)

/-- The state with an instruction word where the next step fetches it: a program of one line placed in core 0's memory,
an anchored warp of one thread that stands at its first slot, and the turn of core 0's partition 0 (log entry 12). -/
def State.withFetchWord (s : State) (nbits w : Nat) : State := s.placed (BitVec.ofNat 96 (w % 2 ^ nbits))

end Sys2Proof.Machine
end

