-- ==== Sys2Proof/Safety.lean ====
section
/-! DEFINITION. The terms that claims use: what a safe run is, and what a state holds after an instruction, said through the
reads of the state: one byte of memory, one lane, one register. -/

namespace Sys2Proof

open Machine

/-- Does a run of n steps from a state end in a next state? -/
def Safe (n : Nat) (s : State) : Prop := ∃ t, core.run n s = .next t

/-- Is every turn that the state holds one that the package has (R16)? -/
def TurnsExist (s : State) : Prop :=
  ∀ core part, Turn.issue core part ∈ s.turns → core < 384 ∧ part < 2

namespace Machine

/-- The canonical form of a table of bytes: addresses strictly rising, no entry that an unlisted address reads as. -/
def Memory.wf (m : Tab Byte) : Bool := m.wf unwritten

/-- One byte of memory as it stands at its home. -/
def State.byteAt (s : State) (a : Nat) : Byte := s.mem.get unwritten a

/-- A lane that has moved on to `Next(pc)` (R53). -/
def Lane.moved (l : Lane) : Lane := { l with pc := nextPc l.pc, st := .ready, wait := none }

/-- Only lanes of the warp of the issue differ: every other warp is the same, and so are the fields of this one. -/
def State.LanesOnly (s t : State) : Prop :=
  t.cur = s.cur ∧ (∀ k, k ≠ s.cur.wid → t.warp k = s.warp k) ∧ t.cw = { s.cw with lanes := t.cw.lanes }

/-- Lanes of the issue's warp move on to `Next(pc)` and no other lane changes (R53). -/
def State.MovesOn (s t : State) (ls : List Nat) : Prop :=
  s.LanesOnly t ∧ ∀ L, t.cl L = if L ∈ ls then (s.cl L).moved else s.cl L

/-! ### Instructions that compute lane by lane (R9, R53, R54, R81, R112, R115) -/

/-- A lane's window register written by an effect. -/
def Lane.putWin (l : Lane) (d : Spec) (e : Eff) : Lane :=
  match d, e.d with
  | .win k, some v => l.setWin k.val v
  | _, _ => l

/-- A lane's predicates and sticky flags written by an effect. -/
def Lane.putBits (l : Lane) (o : Offs) (e : Eff) : Lane :=
  let l' := e.preds.foldl (fun l p => l.setPred o p.1 p.2) l
  { l' with fstat := l'.fstat ||| e.flags }

/-- The scalar registers after the effects of lanes in a scalar destination, in lane order; s63 of a lane in handler mode is
not written (R245). -/
def State.scaAfter (s : State) (d : Spec) (ls : List Nat) (eff : Nat → Eff) : Tab Word :=
  match d with
  | .sca k => ls.foldl (fun r L =>
      match (eff L).d with
      | some v => if (s.cl L).handler ∧ k.val = 63 then r else r.set 0 (k.val + (s.offsOf s.cw (s.cl L)).s) v
      | none => r) s.cw.sregs
  | _ => s.cw.sregs

/-- The group-shared registers after the effects of lanes in a group-shared destination, in lane order. -/
def State.grpAfter (s : State) (d : Spec) (ls : List Nat) (eff : Nat → Eff) : Tab Word :=
  match d with
  | .grp k => ls.foldl (fun r L =>
      match (eff L).d with
      | some v => r.set 0 (k.val + (s.offsOf s.cw (s.cl L)).g) v
      | none => r) (s.group s.cw.group).gregs
  | _ => (s.group s.cw.group).gregs

/-- What a state holds after an instruction that computes lane by lane, or with U once for all guarded lanes: the result of
each executing lane in D (`eff`), predicates and sticky flags in every guarded lane (`bits`), the whole gang at `Next(pc)`,
and everything else as it was. -/
structure AluPost (s t : State) (h : Head) (d : Spec) (eff bits : Nat → Eff) : Prop where
  rest : t = { s with warps := t.warps, groups := t.groups }
  warps : ∀ k, k ≠ s.cur.wid → t.warp k = s.warp k
  own : t.cw = { s.cw with lanes := t.cw.lanes, sregs := t.cw.sregs }
  scalars : t.cw.sregs = s.scaAfter d (execFor h (s.active h)) eff
  groups : ∀ g, g ≠ s.cw.group → t.group g = s.group g
  shared : t.group s.cw.group =
    { s.group s.cw.group with gregs := s.grpAfter d (execFor h (s.active h)) eff }
  lanes : ∀ L, t.cl L =
    let l := s.cl L
    let l := if L ∈ execFor h (s.active h) then l.putWin d (eff L) else l
    let l := if L ∈ s.active h then l.putBits (s.offsOf s.cw (s.cl L)) (bits L) else l
    if L ∈ s.gang then l.moved else l

/-- An instruction completes with the effect of each lane as stated, and nothing else; with U the lowest guarded lane's
predicates and flags go to every guarded lane (R81, R115). -/
def State.Computes (s : State) (i : Instr) (h : Head) (d : Spec) (eff : Nat → Eff) : Prop :=
  ∃ t, exec i s = .next t ∧ AluPost s t h d eff (fun L => eff (if h.u then (s.active h).headD 0 else L))

/-! ### Requests to the homes, and answers (R55, R185, R220) -/

/-- What a lane asks of a home: the lane, the memory key, the request and where its answer goes. -/
structure Ask where
  lane : Nat
  key : Nat
  req : Req
  ret : Option Ret
  deriving DecidableEq, Repr

/-- The message that carries a request (R220). -/
def State.msgOf (s : State) (a : Ask) (n : Nat) : Msg :=
  { serial := n, src := s.cw.core, home := homeOf a.key, addr := a.key, req := a.req, ret := a.ret, wid := s.cur.wid,
    tid := (s.cl a.lane).tid, dom := s.cw.dom, launch := s.cw.launch, lane := a.lane, cmax := (s.cl a.lane).cmaxs,
    pc := s.cur.pc, word := s.cur.word, issue := s.cur.serial }

/-- The messages of several requests, numbered one after another. -/
def State.msgsFrom (s : State) : List Ask → Nat → List Msg
  | [], _ => []
  | a :: as, n => s.msgOf a n :: s.msgsFrom as (n + 1)

/-- The requests of an instruction leave in order; a core's leased copies of the lines it writes are discarded (R186);
answers that are at the core already wait to be written. -/
structure Sends (s t : State) (as : List Ask) (ans : List Answer) : Prop where
  net : t.net = s.net ++ s.msgsFrom as s.serial
  serial : t.serial = s.serial + as.length
  leases : t.leases = s.leases.filter (fun l => as.all fun a =>
    !((s.msgOf a 0).writes && decide (l.core = s.cw.core) && decide (l.line = lineOf a.key)))
  answers : t.answers = s.answers ++ ans

/-- An instruction completes: its requests leave, its answers at hand wait to be written, the whole gang moves on, and
nothing else changes; no byte of memory does before a request is applied at its home. -/
def State.Issues (s : State) (i : Instr) (as : List Ask) (ans : List Answer) (olds : List OldLine := s.olds) : Prop :=
  ∃ t, exec i s = .next t ∧
    t = { s with warps := t.warps, net := t.net, serial := t.serial, leases := t.leases, answers := t.answers, olds := olds } ∧
    s.MovesOn t s.gang ∧ Sends s t as ans

/-- The lanes that an instruction executes for: those whose guard holds, or with U the lowest of them (R54, R81). -/
def State.runs (s : State) (h : Head) : List Nat := execFor h (s.active h)

/-- Where the governed result of a lane goes (R55): of several lanes with one scalar or group-shared destination the
highest writes it (R9). -/
def State.resultOf (s : State) (h : Head) (L : Nat) (d : Spec) (put : PutAs) : Ret :=
  { wid := s.cur.wid, tid := (s.cl L).tid, lane := L, dst := s.dstOfLast L ((s.runs h).getLast? == some L) d,
    put := put, serial := s.cur.serial }

/-- Where a block of registers of a lane is loaded (R211, R218). -/
def State.blockOf (s : State) (L : Nat) (k : Fin 32) (n : Nat) : Ret :=
  { wid := s.cur.wid, tid := (s.cl L).tid, lane := L, dst := .block ((s.cl L).phys k.val) n, serial := s.cur.serial }

/-- The copy that a leased read of a line by a lane is served from, if the core holds a valid one that its thread has not written
over (R185, R186, R220). -/
def State.served (s : State) (L : Nat) (f : Leaf) (va : Word) (leased : Bool) : Option Lease :=
  if leased ∧ s.leasable f ∧ ¬isLocal s.cw.core f va then s.leaseHit s.cw.core (lineOf (f.key va.toNat)) (s.cl L).tid else none

/-- A read of `n` bytes by a lane: the page's leaf, the address, whether it is leased, and where the answer goes. -/
structure Read where
  lane : Nat
  leaf : Leaf
  va : Word
  n : Nat
  leased : Bool
  ret : Ret
  deriving DecidableEq, Repr

/-- What leaves for the homes: a remote read, or a request for a lease, for each read that no copy serves (R185). -/
def State.readAsks (s : State) (rs : List Read) : List Ask :=
  (rs.filter fun r => (s.served r.lane r.leaf r.va r.leased).isNone).map fun r =>
    ⟨r.lane, r.leaf.key r.va.toNat,
      if r.leased ∧ s.leasable r.leaf ∧ ¬isLocal s.cw.core r.leaf r.va then .grant r.n r.leaf.cls else .read r.n, some r.ret⟩

/-- What the core's copies answer. -/
def State.readAnswers (s : State) (rs : List Read) : List Answer :=
  rs.filterMap fun r => (s.served r.lane r.leaf r.va r.leased).map fun c =>
    { ret := r.ret, vals := wordsOf ((c.bytes.drop (r.leaf.key r.va.toNat % 64)).take r.n) }

/-- Lanes of the gang that wait in the instruction of their issue, with the operands that it keeps, and others that move on
(R133). -/
def State.WaitsIn (s t : State) (i : Instr) (phase : Phase) (dl : Nat → Word) (ls moved : List Nat)
    (ops : Nat → List (Spec × Word) := fun _ => []) : Prop :=
  s.LanesOnly t ∧ ∀ L, t.cl L =
    if L ∈ ls then
      { s.cl L with
        st := .waiting
        wait := some { instr := i, word := s.cur.word, gang := s.cur.gang, serial := s.cur.serial, phase := phase, dl := dl L,
                       ops := ops L } }
    else if L ∈ moved then (s.cl L).moved else s.cl L

/-- An instruction completes as moves of the gang's lanes: the active ones become what the rule says, the others move on,
and nothing else changes. -/
def State.Transfers (s : State) (i : Instr) (act : List Nat) (f : Nat → Lane) : Prop :=
  ∃ t, exec i s = .next t ∧ t = { s with warps := t.warps } ∧ s.LanesOnly t ∧
    ∀ L, t.cl L = if L ∈ act then f L else if L ∈ s.gang then (s.cl L).moved else s.cl L

/-- Does a lane wait in BAR.HOLD at a barrier (R160)? -/
def Lane.heldAt (l : Lane) (b : Fin 8) : Bool :=
  match l.st, l.wait with
  | .waiting, some { instr := .barHold _ b' _, .. } => b'.val == b.val
  | _, _ => false

/-- A lane as the completion of a barrier leaves it (R144). -/
def Lane.released (l : Lane) (b : Fin 8) : Lane := if l.heldAt b then l.moved else l

/-- The mark of a barrier taken away (R144). -/
def Lane.unmarked (l : Lane) (b : Fin 8) : Lane := { l with marks := l.marks &&& ~~~(BitVec.ofNat 8 (2 ^ b.val)) }

/-- A lane that keeps all but its place in the program and its marks at barriers. -/
def Lane.Keeps (l m : Lane) : Prop :=
  { m with pc := 0, st := .ready, wait := none, marks := 0 } = { l with pc := 0, st := .ready, wait := none, marks := 0 }

/-- The lanes of the gang whose guard does not hold. -/
def State.bystanders (s : State) (h : Head) : List Nat := s.gang.filter (fun L => L ∉ s.active h)

/-- What a FENCE of a scope waits for at the core of a thread (R228): the thread's governed results; beyond a workgroup the
core's and the thread's writes as well; beyond a die their completion times, which lie in the past of the core's clock. -/
def State.Fenced (s : State) (sc : Sc) (L : Nat) : Prop :=
  let l := s.cl L
  let time := s.localTime s.cw.core
  s.governedOf l.tid s.cur.serial = false ∧
  (sc ∉ [.thread, .warp, .group] →
    s.coreWrites s.cw.core s.cur.serial = false ∧ s.writesOf l.tid s.cur.serial = false) ∧
  (sc ∈ [.package, .system] → s.ctimeDue l.tid = false) ∧
  (sc = .package → l.cmaxp.toNat < time ∧ s.coreCP.get 0 s.cw.core < time) ∧
  (sc = .system → l.cmaxs.toNat < time ∧ s.coreC.get 0 s.cw.core < time)

/-- An instruction stops its active lanes in a wait, and the others of the gang move on (R133); `ops` are the operands that it
keeps as it read them when it issued (R57). -/
def State.Waits (s : State) (i : Instr) (h : Head) (phase : Phase) (ops : Nat → List (Spec × Word) := fun _ => []) : Prop :=
  ∃ t, exec i s = .next t ∧ t = { s with warps := t.warps } ∧
    s.WaitsIn t i phase (fun _ => 0) (s.active h) (s.bystanders h) ops

/-- The contents of lines that fetches may still see, after some threads have fenced at a scope: of what those threads wrote over,
none at package scope or wider (R66). -/
def State.oldsAfter (s : State) (sc : Sc) (ls : List Nat) : List OldLine :=
  if sc ∈ [.package, .system] then s.olds.filter (fun o => o.tid ∉ ls.map fun L => (s.cl L).tid) else s.olds

/-- What a release at cluster scope waits for, for every lane of the warp that has not exited (R151, R228, R359). -/
def State.Released (s : State) : Prop :=
  ∀ L, L < 32 → (s.cl L).st ≠ .exited →
    s.governedOf (s.cl L).tid s.cur.serial = false ∧ s.coreWrites s.cw.core s.cur.serial = false ∧
    s.writesOf (s.cl L).tid s.cur.serial = false

/-- Lanes in user mode leave their issue as one fragment with an event (R244, R245, R249): the first free id after FRAGCTR, the
lowest free frame slot, no parent, and the frame contents of their lowest lane; their PC stays, and other lanes of the gang
move on.  The fragment's entry into its handler follows (R251). -/
def State.TrapsAs (s t : State) (ls moved : List Nat) (e : Event) : Prop :=
  let w := s.cw
  let id := freshId (w.frags.map (·.id)) 33 w.fragctr
  let slot := freeSlot w.slots
  let f : Frag :=
    { id := id, lanes := maskOf ls, sib := 0, parent := 0, slot := slot, st := .pending, ev := e, origin := s.cur.origin,
      word := s.cur.word, pc := s.cur.pc, origpc := s.cur.origpc,
      iter := if s.cur.origin = 0 then 0 else (s.cl (ls.headD 0)).regs.get 0 63,
      time := BitVec.ofNat 64 (s.localTime w.core),
      resume := if e.cause = 0x0D then nextPc s.cur.origpc else s.cur.origpc, serial := s.cur.serial }
  t = { s with warps := t.warps } ∧ (∀ k, k ≠ s.cur.wid → t.warp k = s.warp k) ∧
    t.cw = { w with
      lanes := t.cw.lanes, fragctr := id, frags := w.frags ++ [f], slots := w.slots ||| BitVec.ofNat 32 (2 ^ slot.toNat) } ∧
    ∀ L, t.cl L =
      if L ∈ ls then { s.cl L with st := .entering, frag := id, fslot := slot, wait := none }
      else if L ∈ moved then (s.cl L).moved else s.cl L

/-- An issue whose active lanes, all in user mode, trap together with one event. -/
def State.Traps (s : State) (i : Instr) (h : Head) (e : Event) : Prop :=
  ∃ t, exec i s = .next t ∧ s.TrapsAs t (s.active h) (s.bystanders h) e

/-- An instruction that acts once for its gang completes: the parts of the state that the rule names, and the gang moves on
(R53, R153). -/
def State.Once (s : State) (i : Instr) (post : State → Prop) : Prop :=
  ∃ t, exec i s = .next t ∧ s.MovesOn t s.gang ∧ post t

/-- An access of a lane to an address: it translates, with the leaf named, and a roaming thread in user mode finds the line
at its core where the access is one that migrates (R185). -/
def State.Reaches (s : State) (h : Head) (L : Nat) (va : Word) (f : Leaf) (migrates : Bool) : Prop :=
  s.tr va = .ok f ∧ (migrates → s.roams h L → isLocal s.cw.core f va)

/-- Waiting lanes of a warp whose instruction is complete move on to `Next(pc)`; nothing else of any warp changes (R133). -/
def State.Resumed (s t : State) (wid : Nat) (ls : List Nat) : Prop :=
  (∀ j, j ≠ wid → t.warp j = s.warp j) ∧ t.warp wid = { s.warp wid with lanes := (t.warp wid).lanes } ∧
  ∀ L, t.lane wid L = if L ∈ ls then (s.lane wid L).moved else s.lane wid L

/-- A wait at a home ends with a reason: the lanes that share it move on and hold no registration, and the reason is a governed
result (R55, R240). -/
def State.EndsWatch (s : State) (i : Instr) (left : State) (wid : Nat) (r : Ret) (v : Word) : Prop :=
  ∃ t, exec i s = .next t ∧
    t = { left with warps := t.warps, answers := s.answers ++ [{ ret := { r with finish := false }, vals := [v] }], cur := {} } ∧
    (∀ j, j ≠ wid → t.warp j = s.warp j) ∧
    ∀ K, t.lane wid K = if K ∈ r.lanes then { (s.lane wid K).moved with monitor := false } else s.lane wid K

/-- A counter is asked for again by the lanes that wait for it, whose registration is gone (R299). -/
def State.AsksAgain (s : State) (i : Instr) (left : State) (wid L : Nat) (r : Ret) (addr : Nat) (req : Req) : Prop :=
  let w := s.warp wid
  let l := s.lane wid L
  let m : Msg :=
    { serial := s.serial, src := w.core, home := homeOf addr, addr := addr, req := req, ret := some r, wid := wid,
      tid := l.tid, dom := w.dom, launch := w.launch, lane := L, pc := l.pc, issue := r.serial }
  ∃ t, exec i s = .next t ∧
    t = { left with warps := t.warps, net := s.net ++ [m], serial := s.serial + 1 } ∧ (∀ j, j ≠ wid → t.warp j = s.warp j) ∧
    ∀ K, t.lane wid K = if K ∈ r.lanes then
        { s.lane wid K with
          monitor := false
          wait := (s.lane wid K).wait.map fun x => { x with phase := .sent } }
      else s.lane wid K

/-- Does every barrier find a live lane of a warp that is not marked at it, and does no arrival of the warp wait for its results,
so that no arrival is in question (R144, R147)? -/
def State.Unarrived (s : State) (wid : Nat) : Prop :=
  (s.warp wid).barDue = [] ∧ ∀ b, b < 8 → ∃ K ∈ (s.warp wid).liveLanes, (s.lane wid K).marks.getLsbD b = false

/-- An entry reaches a device-to-host ring: in host memory at its tail; held, while the ring is absent or full; or behind the 64
that the ring holds (R434, R435). -/
def State.Posted (s t : State) (dom r : Nat) (e : List Byte) : Prop :=
  let d := s.domain dom
  let g := d.rings.get {} r
  let g' := (t.domain dom).rings.get {} r
  if g.held = [] ∧ g.present ∧ ¬g.full then
    g' = { g with tail := g.tail + 1 } ∧ t.hostMem = s.hostMem.setN unwritten (d.bus * 2 ^ 64 + g.entryAddr r g.tail) e
  else t.hostMem = s.hostMem ∧
    g' = if g.held.length < 64 then { g with held := g.held ++ [e] } else { g with waits := g.waits ++ [e] }

/-- Do bytes hold some little-endian fields, each given by its offset, its length and its value? -/
def holdFields (bs : List Byte) (fs : List (Nat × Nat × Nat)) : Prop := ∀ x ∈ fs, leNat ((bs.drop x.1).take x.2.1) = x.2.2

/-- WHERE of a warp (R249), as four bytes hold it. -/
def Warp.whereWord (w : Warp) : Nat := (w.dom * 2 ^ 15 + w.slot * 2 ^ 10 + w.part * 2 ^ 9 + w.core) % 2 ^ 32

/-- The fields of a fragment's frame (R249). -/
def Frag.fields (f : Frag) (w : Warp) (entry : Nat) : List (Nat × Nat × Nat) :=
  [(0, 1, f.ev.cause.toNat), (1, 1, f.ev.sub.toNat), (2, 1, entry), (3, 1, f.origin.toNat), (4, 4, f.id.toNat),
   (8, 4, f.parent.toNat), (12, 4, f.lanes.toNat), (16, 4, f.sib.toNat), (20, 4, w.whereWord), (24, 8, f.ev.addr.toNat),
   (32, 12, f.word.toNat), (44, 2, w.launch % 2 ^ 16), (46, 2, 0), (48, 8, f.pc.toNat), (56, 8, f.origpc.toNat),
   (64, 8, f.iter.toNat), (72, 8, f.time.toNat), (80, 8, f.resume.toNat), (88, 8, f.ev.info0.toNat), (96, 8, f.ev.info1.toNat),
   (104, 24, 0)]

/-- A frame with some fields stands at a key, and no other byte of memory has changed. -/
def State.FrameAt (s t : State) (key : Nat) (fs : List (Nat × Nat × Nat)) : Prop :=
  (∀ x ∈ fs, t.natAt (key + x.1) x.2.1 = x.2.2) ∧ ∀ a, ¬(key ≤ a ∧ a < key + 128) → t.byteAt a = s.byteAt a

/-- A DOUBLE_FAULT's report reaches the supervisor report queue of a domain: the outer frame, and an inner one with the sub-cause,
ENTRY 2, the cause and sub-cause of the failing event, and the other fields that R256 names (R249, R256). -/
def State.Reports (s t : State) (dom : Nat) (outer : List Byte) (sub carried : Nat) (fs : List (Nat × Nat × Nat)) : Prop :=
  ∃ inner, inner.length = 128 ∧ holdFields inner ([(0, 1, 0x11), (1, 1, sub), (2, 1, 2), (96, 8, carried)] ++ fs) ∧
    s.Posted t dom 5 (outer ++ inner)

/-- The fields of a report that are those of the event of the issue in progress: INSTR, PC, ORIGPC and TIME, with ADDR (R256). -/
def State.eventFields (s : State) (addr : Word) : List (Nat × Nat × Nat) :=
  [(24, 8, addr.toNat), (32, 12, s.cur.word.toNat), (48, 8, s.cur.pc.toNat), (56, 8, s.cur.origpc.toNat),
   (72, 8, s.localTime s.cw.core % 2 ^ 64)]

/-- The answer of an instruction of a resident thread whose result goes to one window register: it is written there, and where it
also ends the thread's wait the lane moves on (R55, R133). -/
def State.Delivers (s : State) (i : Instr) (left : State) (r : Ret) (v : Word) : Prop :=
  ∀ L j, s.findLane r.wid r.tid = some (r.wid, L) → r.lane = L → r.share = 0 → r.others = [] → r.dst = .phys j → r.put = .raw →
    s.Unarrived r.wid →
    let l : Lane := { s.lane r.wid L with regs := (s.lane r.wid L).regs.set 0 j v }
    let only (t : State) (l' : Lane) : Prop :=
      (∀ k, k ≠ r.wid → t.warp k = s.warp k) ∧ ∀ K, t.lane r.wid K = if K = L then l' else s.lane r.wid K
    (r.finish = false → ∃ t, exec i s = .next t ∧ t = { left with warps := t.warps } ∧ only t l) ∧
    (∀ w, r.finish = true → left.more r = false → l.st = .waiting → l.wait = some w → w.serial = r.serial →
      (∀ h, w.instr ≠ .wfill h) → ∃ t, exec i s = .next t ∧ t = { left with warps := t.warps, cur := {} } ∧ only t l.moved)

/-- What the overrun policy leaves of a launch whose entry is `l` (R399): demoted; parked, with an event for the host, and with
every lane that has not exited parked in its saved contexts too; or cancelled. -/
def State.PolicyDone (s t : State) (k : Nat) (l : Launch) : Prop :=
  let only (u : State) (l' : Launch) : Prop :=
    u = { s with launches := u.launches } ∧ u.launch k = l' ∧ ∀ j, j ≠ k → u.launch j = s.launch j
  match l.r.policy with
  | 0 => only t { l with st := .demoted, pendingOvr := [] }
  | 1 => ∃ u : State, t = u.postEq l.r.dom 3 0 k l.charges 0 ∧ u.launch k = { l with st := .parked, pendingOvr := [] } ∧
      (∀ j, j ≠ k → u.launch j = s.launch j) ∧
      ((∀ c ∈ s.saved, ∀ e ∈ c.warps, e.2.launch ≠ k) → u = { s with launches := u.launches }) ∧
      ∀ c i w L, s.saved = [c] → c.warps = [(i, w)] → w.launch = k → L < 32 →
        let a := c.recordVa w + 0x1000 + 64 * L + 0x28
        c.pieces.any (holdsVa a) = true → u.peekSaved c w.dom a 1 % 4 =
          if s.peekSaved c w.dom a 1 % 4 = 3 ∨ (w.lane L).st = .exited then 3 else 2
  | _ => (t.launch k).cancelled = true

/-! ### Engine commands (R303 to R335) -/

/-- A command that has done nothing yet. -/
def Cmd.Fresh (c : Cmd) : Prop :=
  c.st = .queued ∧ c.prog = 0 ∧ c.sub = 0 ∧ c.kept = 0 ∧ c.lines = [] ∧ c.slot = none ∧ c.note = none ∧ c.sent = []

/-- A command has ended without an error and waits to retire (R308). -/
def State.Ended (t : State) (c : Cmd) : Prop := ∃ x ∈ t.cmds, x.serial = c.serial ∧ x.st = .finished ∧ x.error = none

/-- The TLB of a command's core holds the page of an address, which is there and PLAIN (R183, R311). -/
def State.Mapped (s : State) (c : Cmd) (va : Nat) (f : Leaf) : Prop :=
  s.tlbHit c.core c.dom va = some f ∧ s.peerUp f = true ∧ f.fmt = 0

/-- A tile command as it runs after its start: with the record at its address, on PLAIN pages (R309, R314). -/
def State.tileCmd (s : State) (c : Cmd) (f0 : Leaf) : Cmd :=
  let c1 : Cmd := { c with record := s.bytesAt (f0.key (c.f 8 8)) 64 }
  { c1 with total := c1.elems, esize := etySize c1.ety }

/-- A tile command that a copy engine takes up passes its checks: a record that can be read, an origin in extent, a buffer that
fits, one type in memory and buffer, and every element in extent on a page that can be reached (R304, R309, R314 to R317). -/
def State.TileStarts (s : State) (core : Nat) (c : Cmd) (f0 : Leaf) (f : Nat → Leaf) : Prop :=
  let c2 := s.tileCmd c f0
  s.engineNext .copy core = some c ∧ c.Fresh ∧ c.fmt = 0 ∧ c.cb = false ∧ s.tags = [] ∧ s.recs = [] ∧ c.tileBad = false ∧
  c.f 8 8 % 64 = 0 ∧ s.Mapped c (c.f 8 8) f0 ∧ f0.r = true ∧ c2.recordBad = false ∧ c2.dty = c2.ety ∧ c2.inExtent 0 = true ∧
  s.bufferErr c2 = [] ∧ ∀ i, i < c2.total → c2.inExtent i = true →
    s.Mapped c (c2.elemVa c2.esize i) (f i) ∧ (if c.stores then (f i).w = true else (f i).r = true) ∧
    c2.elemVa c2.esize i % c2.esize = 0

/-- The bytes of tile element i in a command's buffer (R316, R317): the accumulator of AREAD, the weight buffer with WB, the
scratchpad. -/
def State.bufBytes (t : State) (c : Cmd) (i : Nat) : List Byte :=
  let a := c.f 0x20 4 + i / c.t0 * c.bpitch + i % c.t0 * c.dsize
  if c.opc = 3 then t.acc.getN unwritten (accKey (2 * c.core + c.part) a) c.dsize
  else if c.wb then t.wbuf.getN unwritten (weightKey c.core a) c.dsize
  else t.scratch.getN unwritten (scratchKey c.core a) c.dsize

/-- A tile stands in its buffer: every element in extent as it stood in memory, zeros for the others (R317). -/
def State.Loaded (s t : State) (c : Cmd) (f : Nat → Leaf) : Prop :=
  ∀ i, i < c.total → t.bufBytes c i =
    if c.inExtent i then s.bytesAt ((f i).key (c.elemVa c.esize i)) c.esize else List.replicate c.dsize 0

/-- A tile stands in memory: every element in extent as it stood in the buffer, and no other byte has changed (R317). -/
def State.Stored (s t : State) (c : Cmd) (f : Nat → Leaf) : Prop :=
  let key (i : Nat) : Nat := (f i).key (c.elemVa c.esize i)
  (∀ i, i < c.total → c.inExtent i = true → t.bytesAt (key i) c.esize = s.bufBytes c i) ∧
  ∀ a, (∀ i, i < c.total → c.inExtent i = true → ¬(key i ≤ a ∧ a < key i + c.esize)) → t.byteAt a = s.byteAt a

/-- A multicast member that has joined, at the start of its tile, on PLAIN pages that can be read, in one type (R317, R330). -/
def Cmd.Ready (c : Cmd) (s : State) (f : Nat → Leaf) : Prop :=
  c.opc = 4 ∧ c.prog = 0 ∧ c.lines = [] ∧ c.slot = none ∧ c.fmt = 0 ∧ c.esize = etySize c.ety ∧ c.total = c.elems ∧ c.tileBad = false ∧
  c.recordBad = false ∧ c.dty = c.ety ∧ s.tags = [] ∧ ∀ i, i < c.total → c.inExtent i = true →
    s.Mapped c (c.elemVa c.esize i) (f i) ∧ (f i).r = true ∧ c.elemVa c.esize i % c.esize = 0

/-- Lanes of a warp that may issue reach an instruction word (R44, R62): their page is in the TLB, the line passes its checks,
and the slot is one that lanes at their first instruction may enter. -/
def State.Fetches (u : State) (wid : Nat) (pc : Word) (ls : List Nat) (f : Leaf) (line : List Byte) : Prop :=
  let w := u.warp wid
  let slot := (pc.extractLsb' 0 3).toNat
  u.heldBack wid = false ∧ u.missing w.core w.dom [pageOf pc.toNat] = [] ∧ slot ≤ 4 ∧ pc.extractLsb' 3 3 = 0 ∧
  u.lineCheck w.core w.dom pc pc (lineAddr pc) = .ok f line ∧
  ((leNat (line.drop 60)).testBit (15 + slot) = true ∨ ∀ L ∈ ls, (w.lane L).entry = false)

/-- No wait holds the issue of an instruction back (R52, R55, R56, R58, R165, R183, R263, R423). -/
def State.MayIssue (u : State) (wid : Nat) (pc : Word) (ls : List Nat) (word : InstrWord) (i : Instr) : Prop :=
  let w := u.warp wid
  let x := u.setIssue wid pc ls word
  (isCross i = true → ∀ L ∈ ls, (w.lane L).handler = false) ∧ u.kindFault w i ls = [] ∧
  (i.head.s = true ∨ waitsLikeS i = true → u.governed wid u.serial = false) ∧ x.mustWait i = false ∧
  (governs i = true → u.resultsDue wid < 16) ∧ x.missing w.core w.dom (pagesOf (x.touches i)) = []

/-- The state in which a decoded instruction is executed: its issue set, its line fetched, its charge and its marks made (R66,
R393, R398); `second` for the second gang of a pair, which is not charged. -/
def State.toExecute (u : State) (wid : Nat) (pc : Word) (ls : List Nat) (undefer second : Bool) (word : InstrWord) (i : Instr) :
    State :=
  let w := u.warp wid
  ((u.setIssue wid pc ls word).lineRead w.core w.dom w.launch pc).issued wid ls undefer second i

end Machine

namespace Machine

/-! ### Admission (R293, R376, R385, R386) -/

/-- The fields of a launch record, and whether they lie within their limits, read from its 128 bytes (R42, R376, R385). -/
def Record.Parsed (r : Record) (bs : List Byte) : Prop :=
  let f (off n : Nat) : Nat := leNat ((bs.drop off).take n)
  let bit (x n : Nat) : Bool := x.testBit n
  let w (off : Nat) : Word := BitVec.ofNat 64 (f off 8)
  let flags := f 1 1
  let space := f 4 4
  let place := f 0x70 8
  let links := f 0x78 8
  let pc (off : Nat) : Prop := f off 8 / 8 % 8 = 0 ∧ f off 8 % 8 ≤ 4
  (r.kind = f 0 1 % 4 ∧ r.acc = bit flags 7 ∧ r.list = bit flags 6 ∧ r.pfixed = bit flags 5 ∧ r.policy = flags / 8 % 4 ∧
   r.spl = bit flags 2 ∧ r.frame = f 2 1 % 64 ∧ r.warps = f 3 1 % 64 ∧ r.dom = space / 2 ^ 25 ∧ r.scratch = space % 2 ^ 21 ∧
   r.entry = w 8 ∧ r.grid = f 0x10 4 ∧ r.maxlive = f 0x14 4 ∧ r.release = f 0x18 8 ∧ r.deadline = f 0x20 8 ∧ r.budget = f 0x28 8 ∧
   r.period = f 0x30 8 ∧ r.traph = w 0x38 ∧ r.suph = w 0x40 ∧ r.arg = w 0x48 ∧ r.save = w 0x50 ∧ r.wspbase = w 0x58 ∧ r.cc = w 0x60 ∧
   r.gcc = w 0x68 ∧ r.seals = bit (f 0x68 8) 0 ∧ r.clusters = BitVec.ofNat 24 (place / 2 ^ 40) ∧
   r.cores = BitVec.ofNat 16 (place / 2 ^ 24) ∧ r.combt = place / 2 ^ 14 % 2 ^ 10 ∧ r.wspstep = place % 2 ^ 14 ∧
   r.retained = BitVec.ofNat 8 (links / 2 ^ 56) ∧ r.handles = BitVec.ofNat 8 (links / 2 ^ 48) ∧ r.creg = links / 2 ^ 42 % 64 ∧
   r.first = links / 2 ^ 30 % 2 ^ 12 ∧ r.last = links / 2 ^ 18 % 2 ^ 12 ∧ r.feed = links % 2 ^ 12) ∧
  (r.ok = true ↔
    f 0 1 < 3 ∧ flags % 4 = 0 ∧ flags / 8 % 4 ≠ 3 ∧ (4 ≤ f 2 1 ∧ f 2 1 ≤ 32 ∨ f 0 1 = 0 ∧ f 2 1 = 0) ∧
    (f 0 1 = 0 → 1 ≤ f 3 1 ∧ f 3 1 ≤ 32) ∧ (f 0 1 ≠ 0 → f 3 1 = 0) ∧ space / 2 ^ 21 % 16 = 0 ∧ space % 2 ^ 21 % 8 = 0 ∧
    space % 2 ^ 21 ≤ 1572864 ∧ (f 0 1 ≠ 0 → space % 2 ^ 21 = 0) ∧ (f 0 1 = 2 ↔ f 0x10 4 = 0) ∧ pc 8 ∧ pc 0x38 ∧ pc 0x40 ∧
    (f 0 1 = 0 → f 0x50 8 % 128 = 0) ∧ f 0x58 8 % 8 = 0 ∧ f 0x60 8 % 8 = 0 ∧ f 0x68 8 / 2 % 4 = 0 ∧ place / 2 ^ 40 ≠ 0 ∧
    place / 2 ^ 24 % 2 ^ 16 ≠ 0 ∧ links / 2 ^ 12 % 64 = 0 ∧ (f 0x30 8 ≠ 0 → f 0x20 8 ≤ f 0x18 8 + f 0x30 8) ∧
    (bit flags 2 = true → links / 2 ^ 30 % 2 ^ 12 < links / 2 ^ 18 % 2 ^ 12))

/-- A node's descriptor and its queue keep the limits of R293. -/
def State.NodeFits (s : State) (dom va : Nat) : Prop :=
  ∃ f, s.translate dom va = .ok f ∧ f.r = true ∧ f.w = true ∧ f.fmt = 0 ∧ va % 64 = 0 ∧
    (let d := s.bytesAt (f.key va) 64
     let qbase := leNat (d.take 8)
     let geom := leNat ((d.drop 8).take 8)
     let recw := geom / 2 ^ 40 % 2 ^ 8
     let tile := geom / 2 ^ 32 % 2 ^ 8
     let qcap := geom % 2 ^ 32
     1 ≤ recw ∧ recw ≤ 32 ∧ 1 ≤ tile ∧ tile ≤ 32 ∧ tile ≤ qcap ∧ qcap ≤ 2 ^ 24 ∧ qbase % 64 = 0 ∧
     ∀ i, 64 * i < qcap * recw * 8 → ∃ g, s.translate dom (qbase + 64 * i) = .ok g ∧ g.w = true ∧ g.fmt = 0 ∧
       homeOf (g.key (qbase + 64 * i)) = homeOf (f.key va))

/-- Dens of R386, in cycles per ns. -/
def dens (left budget rel dl now period : Nat) : ℚ :=
  let one : ℚ := left / max ((dl : ℚ) - (max now rel : ℕ)) 1000
  if period = 0 then one else max one (budget / ((dl : ℚ) - rel))

/-- A candidate for admission: its record, the budget and the times of its instance, the index that it holds where it is resumed,
whether a host queue names it, and the second record of a fused launch (R385, R388, R399). -/
structure Candidate where
  dom : Nat
  r : Record
  budget : Nat
  rel : Nat
  dl : Nat
  self : Option Nat := none
  host : Bool := false
  other : Option Record := none

/-- A candidate's density. -/
def Candidate.dens (c : Candidate) (now : Nat) : ℚ := Machine.dens c.budget c.budget c.rel c.dl now c.r.period

/-- The other launches in the table. -/
def State.others (s : State) (c : Candidate) : List (Nat × Launch) := s.launches.filter fun e => e.2.live && decide (c.self ≠ some e.1)

/-- Those whose densities count: not demoted, parked or cancelled. -/
def State.claims (s : State) (c : Candidate) : List Launch :=
  ((s.others c).map (·.2)).filter fun l => !l.cancelled && decide (l.st ≠ .demoted) && decide (l.st ≠ .parked)

/-- The density of an admitted launch. -/
def Launch.dens (l : Launch) (now : Nat) : ℚ := Machine.dens (l.budget - l.charges) l.budget l.rel l.dl now l.r.period

/-- The internal activities: the density of each, `left` of its budget remaining, on every core (R382). -/
def State.inner (s : State) (left : Nat → Nat) : List (ℚ × List Nat) :=
  [(0, 1000000, 2304000), (1, 100000, 23040), (2, 10000000, 460800)].map fun (a : Nat × Nat × Nat) =>
    let rel := s.host.runAt + (s.feTime - s.host.runAt) / a.2.1 * a.2.1
    (Machine.dens (left a.1) a.2.2 rel (rel + a.2.1) s.feTime a.2.1, List.range 384)

/-- |S ∩ T| of R386. -/
def common (S T : List Nat) : Nat := (S.filter fun x => x ∈ T).length

/-- A record names a graph of the domain that is sealed (R380). -/
def State.NamesSealed (s : State) (dom : Nat) (r : Record) : Prop :=
  r.gcc ≠ 0 ∧ ∃ g, s.graphAt dom (BitVec.ofNat 64 (r.gcc.toNat / 8 * 8)) = some g ∧ (s.graphs.get {} g).sealed = true

/-- The checks of R385 in their order, each as what passes it; `left` are the budgets that the internal activities have left. -/
def State.Check (s : State) (left : Nat → Nat) (c : Candidate) (k : Nat) : Prop :=
  let now := s.feTime
  let r := c.r
  let quota := (s.domain c.dom).quota
  match k with
  | 1 => r.ok = true ∧ r.dom = c.dom ∧ (s.domain c.dom).owner.getLsbD 63 = true ∧ (∃ f, s.walk c.dom r.cc.toNat = .ok f) ∧
      (r.gcc ≠ 0 → ∃ f, s.walk c.dom (r.gcc.toNat / 8 * 8) = .ok f) ∧ (r.kind = 2 → s.NodeFits c.dom r.arg.toNat)
  | 2 => c.budget ≠ 0
  | 3 => max now c.rel < c.dl
  | 4 => (c.self = none → ∃ i, 4 ≤ i ∧ i < 4096 ∧ (s.launch i).live = false) ∧ (r.kind = 1 → r.grid ≤ r.maxlive) ∧
      (r.feed ≠ 0 → (let n := s.launch r.feed
        n.live = true ∧ n.cancelled = false ∧ n.r.dom = c.dom ∧ n.r.kind = 2 ∧
          ∃ bs, s.readVa c.dom n.r.arg.toNat 64 = some bs ∧ leNat ((bs.drop 0x1C).take 4) ≠ 0)) ∧
      (c.host = true → ¬s.NamesSealed c.dom r ∧ ∀ q, c.other = some q → ¬s.NamesSealed c.dom q) ∧
      (r.kind ≠ 0 → r.acc = true → ∀ e ∈ s.others c, e.2.r.kind ≠ 0 → e.2.r.acc = true → common e.2.r.set r.set = 0) ∧
      s.host.linkfail = false
  | 5 => ((s.others c).filter fun e => decide (e.2.r.dom = c.dom)).length + 1 ≤ (quota.extractLsb' 0 12).toNat ∧
      c.dens now + (((s.claims c).filter fun l => decide (l.r.dom = c.dom)).map fun l => l.dens now).sum ≤
        4608 / 10 * ((quota.extractLsb' 32 10).toNat : ℚ) / 1000
  | 6 => r.maxlive = 0 ∨ (((s.others c).map fun e => e.2.r.maxlive).sum + r.maxlive : ℤ) ≤
      (s.host.hiveSlots.toNat : ℤ) - s.host.hiveRemote.toNat - 192
  | _ =>
    let all : List (ℚ × List Nat) := s.inner left ++ (s.claims c).map fun l => (l.dens now, l.r.set)
    let load (S : List Nat) : ℚ := (all.map fun (x : ℚ × List Nat) => x.1 * (common S x.2 : ℚ) / (x.2.length : ℚ)).sum
    ∀ S ∈ r.set :: List.range 384 :: ((s.others c).filter fun e => !e.2.cancelled).map (·.2.r.set), S = r.set ∨ 0 < common S r.set →
      load S + c.dens now * (common S r.set : ℚ) / (r.set.length : ℚ) ≤ 12 / 10 * (S.length : ℚ) * (s.host.ceil.toNat : ℚ) / 1000

/-- The reason of R385 for a candidate: that of the first failing check, or 0; the budgets that the internal activities have left
are free (R382). -/
def State.Reason (s : State) (c : Candidate) (code : Nat) : Prop :=
  ∃ left : Nat → Nat, left 0 ≤ 2304000 ∧ left 1 ≤ 23040 ∧ left 2 ≤ 460800 ∧
    ((∀ k, 1 ≤ k → k ≤ 7 → s.Check left c k) → code = 0) ∧
    ∀ x ∈ [(1, 0x0A), (2, 0x03), (3, 0x02), (4, 0x04), (5, 0x06), (6, 0x05), (7, 0x01)],
      (∀ k, 1 ≤ k → k < x.1 → s.Check left c k) → ¬s.Check left c x.1 → code = x.2

/-- A candidate as its record has it. -/
def Record.candidate (r : Record) (dom : Nat) (host : Bool) (other : Option Record := none) : Candidate :=
  { dom := dom, r := r, budget := r.budget, rel := r.release, dl := r.deadline, host := host, other := other }

end Machine

/-! ### The splice linker (R408 to R418) -/

/-- An instruction of a kernel: its line, counted from the line of ENTRY, its slot and its word. -/
structure Slot where
  line : Nat
  slot : Nat
  word : InstrWord
  deriving DecidableEq, Repr

/-- The instruction that a slot holds. -/
def Slot.instr (x : Slot) : Option Instr := match decode x.word with | .instr i => some i | .illegal _ => none

/-- The PC of a line and slot of a kernel (R42). -/
def pcIn (r : Record) (line slot : Nat) : Word := BitVec.ofNat 64 (r.entry.toNat / 64 * 64 + 64 * line + slot)

/-- A line of a kernel as it stands at its home, where it translates with R. -/
def Machine.State.kline (s : State) (r : Record) (j : Nat) : Option (List Byte) := s.readVa r.dom (pcIn r j 0).toNat 64

/-- The instructions of some lines of a kernel, in order; an all-zero word is padding (R416). -/
def Machine.State.slotsOf (s : State) (r : Record) (lo hi : Nat) : List Slot :=
  (List.range (hi - lo)).flatMap fun j => match s.kline r (lo + j) with
    | none => []
    | some l => ((List.range 5).map fun i => (⟨lo + j, i, BitVec.ofNat 96 (leNat ((l.drop (12 * i)).take 12))⟩ : Slot)).filter
        fun x => x.word ≠ 0

/-- A kernel whose epilogue ends in line e, by its parts. -/
structure Kern where
  r : Record
  e : Nat
  pro : List Slot
  body : List Slot
  epi : List Slot

/-- A kernel as it stands in memory. -/
def Machine.State.kern (s : State) (r : Record) (e : Nat) : Kern :=
  ⟨r, e, s.slotsOf r 0 r.first, s.slotsOf r r.first (r.last + 1), s.slotsOf r (r.last + 1) (e + 1)⟩

/-- All instructions of a kernel. -/
def Kern.code (k : Kern) : List Instr := (k.pro ++ k.body ++ k.epi).filterMap Slot.instr

/-- Is a slot an EXIT? -/
def Slot.exits (x : Slot) : Bool := match x.instr with | some (.exit _) => true | _ => false
/-- Is a slot an EXIT under the guard "always"? -/
def Slot.ends (x : Slot) : Bool := match x.instr with | some (.exit h) => h.g == ⟨false, 7⟩ | _ => false
/-- Handle, words and source block of a TSTO. -/
def Slot.tsto (x : Slot) : Option (Nat × Nat × Nat) :=
  match x.instr with | some (.tsto _ h n _ _ k) => some (h.val, n.val + 1, k.val) | _ => none
/-- Handle, words and destination block of a TLOD. -/
def Slot.tlod (x : Slot) : Option (Nat × Nat × Nat) :=
  match x.instr with | some (.tlod _ h n k _ _) => some (h.val, n.val + 1, k.val) | _ => none

/-- Line e is the first after LAST that holds the epilogue's EXIT, and all lines up to it can be read (R411). -/
def Machine.State.EndsAt (s : State) (r : Record) (e : Nat) : Prop :=
  r.last < e ∧ e ≤ r.last + 1024 ∧ ∀ j, j < e + 1 → r.last < j →
    (s.kline r j).isSome = true ∧ (s.slotsOf r j (j + 1)).any Slot.ends = decide (j = e)

/-- A kernel's SPLICE marks follow R40, and agree with FIRST and LAST (check 1). -/
def Machine.State.Marked (s : State) (r : Record) (e : Nat) : Prop :=
  r.first < r.last ∧ ∀ j, j < e + 1 → (s.kline r j).all (fun l => decide (leNat (l.drop 60) / 2 ^ 13 % 4 =
    if j = r.first then 2 else if j = r.last then 3 else if r.first < j ∧ j < r.last then 1 else 0)) = true

/-- A body is a canonical counted loop, and holds nothing else that check 3 bars (R408, R411). -/
def Kern.Canonical (k : Kern) : Prop :=
  let wide (ty : Ty) : Prop := ty = .i64 ∨ ty = .n64
  let count (x : Spec) : Bool := match x with | .sca j => j.val == k.r.creg | _ => false
  match k.body.reverse with
  | b :: c :: d :: rest =>
    match b.instr, c.instr, d.instr with
    | some (.bra hb ib), some (.cmp hc .ne tc (.pred q) ac bc ic), some (.sub hs ts ds as' .imm is') =>
      count ds = true ∧ as' = ds ∧ is' = 1 ∧ wide ts ∧ hs.u = true ∧ hs.g = ⟨false, 7⟩ ∧ q.val ≠ 7 ∧ ac = ds ∧
      (bc = .zero ∨ (bc = .imm ∧ ic = 0)) ∧ wide tc ∧ hc.g = ⟨false, 7⟩ ∧ hb.g = ⟨false, q⟩ ∧
      relTarget (pcIn k.r b.line b.slot) ib = pcIn k.r k.r.first 0 ∧
      ∀ i ∈ rest.filterMap Slot.instr,
        (match i with
        | .bra .. | .brx .. | .call .. | .callx .. | .ret .. | .exit .. | .rett .. | .ctxrest .. | .wspill .. | .wfill .. => false
        | _ => true) = true ∧ ∀ x ∈ i.destSpecs, count x = false ∧ x ≠ .pred q
    | _, _, _ => False
  | _ => False

/-- Check 4: no call, return or indirect branch, every line of the prologue read, and every BRA outside the body within its part. -/
def Machine.State.Flows (s : State) (k : Kern) : Prop :=
  (∀ i ∈ k.code, (match i with | .call .. | .callx .. | .ret .. | .brx .. => false | _ => true) = true) ∧
  (∀ j, j < k.r.first → (s.kline k.r j).isSome = true) ∧
  (let stays (xs : List Slot) (lo hi : Nat) : Prop := ∀ x ∈ xs, (match x.instr with
      | some (.bra _ imm) => decide ((relTarget (pcIn k.r x.line x.slot) imm - pcIn k.r lo 0).toNat < 64 * (hi - lo))
      | _ => true) = true
   stays k.pro 0 k.r.first ∧ stays k.epi (k.r.last + 1) (k.e + 1))

/-- The tile of a pair: its handle, its words, and the blocks of the one TSTO and the one TLOD (check 6). -/
def tileOf (p q : Kern) : Option (Nat × Nat × Nat × Nat) :=
  match p.body.filterMap Slot.tsto, q.body.filterMap Slot.tlod with
  | [a], [b] => if a.1 = b.1 ∧ a.2.1 = b.2.1 then some (a.1, a.2.1, a.2.2, b.2.2) else none
  | _, _ => none

/-- Check 7, for the TSTO's source block and the TLOD's destination block. -/
def TilesApart (p q : Kern) (n src dst : Nat) : Prop :=
  let hits (start : Nat) (ks : List Nat) : Prop := ∃ k ∈ ks, start ≤ k ∧ k < start + n ∧ k < 32
  let before := (q.body.takeWhile fun x => x.tlod.isNone).filterMap Slot.instr
  let after := ((q.body.dropWhile fun x => x.tlod.isNone).drop 1).filterMap Slot.instr
  let stored := ((p.body.dropWhile fun x => x.tsto.isNone).drop 1).filterMap Slot.instr
  (∀ i ∈ stored, ¬hits src i.destWins) ∧ (∀ i ∈ before, ¬hits dst i.wins) ∧ (∀ i ∈ after, ¬hits dst i.destWins) ∧
  (∀ i ∈ q.epi.filterMap Slot.instr, ¬hits dst i.wins) ∧
  ∀ i ∈ before ++ after, ∀ b ∈ i.blocks, let ks := ((List.range b.2).map (b.1 + ·)).filter (· < 32)
    hits dst ks → ∀ k ∈ ks, dst ≤ k ∧ k < dst + n

/-- Checks 2 to 8 of R411. -/
def Machine.State.Shaped (s : State) (p q : Kern) : Prop :=
  let a := p.r
  let b := q.r
  let t := (tileOf p q).getD (0, 0, 0, 0)
  let cvs (k : Kern) : BitVec 16 := (k.code.map Instr.cvMask).foldr (· ||| ·) 0
  (a.dom = b.dom ∧ a.grid = b.grid ∧ a.warps = b.warps ∧ a.clusters = b.clusters ∧ a.cores = b.cores ∧ a.pfixed = b.pfixed ∧
   a.frame = b.frame ∧ a.policy = b.policy ∧ a.retained.getLsbD t.1 = b.retained.getLsbD t.1 ∧ a.kind = 0 ∧ b.kind = 0 ∧
   a.period = 0 ∧ b.period = 0 ∧ a.feed = 0 ∧ b.feed = 0 ∧ ¬(a.acc = true ∧ b.acc = true)) ∧
  p.Canonical ∧ q.Canonical ∧ s.Flows p ∧ s.Flows q ∧
  ((p.epi.getLast?).map Slot.ends = some true ∧ ((p.pro ++ p.body ++ p.epi).filter Slot.exits).length = 1 ∧
   (q.pro ++ q.body).any Slot.exits = false) ∧
  (tileOf p q).isSome = true ∧ TilesApart p q t.2.1 t.2.2.1 t.2.2.2 ∧ cvs p &&& cvs q = 0

/-- One more than the highest of some numbers, 0 for none. -/
def above (ns : List Nat) : Nat := ns.foldr (fun n m => max m (n + 1)) 0

/-- The offset of window registers (R413). -/
def Kern.winOff (k : Kern) : Nat := 8 * ((above (k.code.flatMap Instr.wins) + 7) / 8)

/-- The producer's other offsets (R413). -/
def Kern.off (k : Kern) : Offs :=
  let top (f : Instr → List Nat) : Nat := above (k.code.flatMap f)
  { s := top Instr.scalars, p := top (fun i => i.predsNamed true), g := top Instr.grps, t := top Instr.tls,
    b := top (fun i => i.barrier.toList), c := top (fun i => i.buffer.toList) }

/-- Check 9: the consumer's numbers, raised, keep the limits of R413, and the sums theirs. -/
def Limits (p q : Kern) : Prop :=
  let o := p.off
  let ok (f : Instr → List Nat) (off limit : Nat) : Prop := ∀ k ∈ q.code.flatMap f, k + off ≤ limit
  ok Instr.wins p.winOff 31 ∧ ok Instr.scalars o.s 62 ∧ ok (fun i => i.predsNamed false) o.p 6 ∧ ok Instr.grps o.g 15 ∧
  ok Instr.tls o.t 15 ∧ ok (fun i => i.barrier.toList) o.b 7 ∧ ok (fun i => i.buffer.toList) o.c 7 ∧
  p.r.scratch + q.r.scratch ≤ 1572864 ∧ p.r.maxlive + q.r.maxlive ≤ 2 ^ 32 - 1

/-- The five parts of the fused code: the origin, 1 for the producer and 2 for the consumer, and the slot of each instruction
(R412, R414 to R416). -/
def fusedParts (p q : Kern) : List (List (Nat × Slot)) :=
  let retained := p.r.retained.getLsbD ((tileOf p q).getD (0, 0, 0, 0)).1
  let a (xs : List Slot) := xs.map fun x => (1, x)
  let b (xs : List Slot) := xs.map fun x => (2, x)
  [a p.pro, b q.pro,
   a (p.body.dropLast.filter fun x => retained || x.tsto.isNone) ++ b (q.body.dropLast.filter fun x => x.tlod.isNone) ++
     a p.body.getLast?.toList,
   a (p.epi.filter fun x => !x.exits), b q.epi]

/-- Where a part begins: each before it takes the lines that its instructions fill, and the loop two at least (R412). -/
def startOf (parts : List (List (Nat × Slot))) (k : Nat) : Nat :=
  ((List.range k).map fun i => let n := (parts.getD i []).length; if i = 2 ∧ n ≤ 5 then 2 else (n + 4) / 5).sum

/-- The line and slot of instruction i of a part; the BRA of a loop that would fit one line stands alone in the second (R412). -/
def placeOf (parts : List (List (Nat × Slot))) (k i : Nat) : Nat × Nat :=
  let n := (parts.getD k []).length
  if k = 2 ∧ n ≤ 5 ∧ i + 1 = n then (startOf parts 2 + 1, 0) else (startOf parts k + i / 5, i % 5)

/-- The specifier of a consumer's register under its fused number; in its body the TLOD's block is the TSTO's (R413, R415). -/
def raised (p q : Kern) (inLoop : Bool) (x : BitVec 8) : BitVec 8 :=
  let v := x.toNat
  let t := (tileOf p q).getD (0, 0, 0, 0)
  let o := p.off
  if v < 0x20 then
    (if inLoop = true ∧ t.2.2.2 ≤ v ∧ v < t.2.2.2 + t.2.1 then BitVec.ofNat 8 (t.2.2.1 + (v - t.2.2.2)) else BitVec.ofNat 8 (v + p.winOff))
  else if 0x40 ≤ v ∧ v < 0x80 then BitVec.ofNat 8 (v + o.s)
  else if 0x80 ≤ v ∧ v < 0x87 then BitVec.ofNat 8 (v + o.p)
  else if 0x88 ≤ v ∧ v < 0x98 then BitVec.ofNat 8 (v + o.g)
  else if 0x98 ≤ v ∧ v < 0xA8 then BitVec.ofNat 8 (v + o.t)
  else x

/-- The fields of a consumer's word with its numbers raised: specifiers, guard, and immediates that carry numbers (R413). -/
def renumbered (p q : Kern) (inLoop : Bool) (x : Slot) : Fields :=
  let f := unpack x.word
  match x.instr, rowOf f with
  | some i, some row =>
    if x.word = BitVec.allOnes 96 then f
    else
      let up (k : Kind) (v : BitVec 8) : BitVec 8 := if k = .none then v else raised p q inLoop v
      { f with
        d := up row.d f.d, a := up row.a f.a, b := up row.b f.b, c := up row.c f.c
        g := if f.g.toNat % 8 = 7 then f.g else f.g + BitVec.ofNat 4 p.off.p
        imm := f.imm + BitVec.ofNat 32 (match i with
          | .barHold .. | .barPass .. => p.off.b
          | .cbget .. | .cbfree .. => p.off.c
          | .krd .. | .kwr .. => if 0x20 ≤ f.imm.toNat ∧ f.imm.toNat < 0x30 then p.off.c else 0
          | _ => 0) }
  | _, _ => f

/-- A word is that of instruction i of part k at its place in the code at `fb`: its own or the renumbered fields, but that a BRA
goes to the fused copy of its target, the loop's to the loop's first instruction, and that SPAWN, SPAWNA, SPAWND and LEA name the
address that they named (R413 to R416). -/
def PlacedAs (p q : Kern) (fb : Word) (k i : Nat) (x : Nat × Slot) (w : InstrWord) : Prop :=
  let parts := fusedParts p q
  let pcOf (k i : Nat) : Word := fb + BitVec.ofNat 64 (64 * (placeOf parts k i).1 + (placeOf parts k i).2)
  let was := pcIn (if x.1 = 1 then p.r else q.r) x.2.line x.2.slot
  let here := pcOf k i
  let f : Fields := if x.1 = 1 then unpack x.2.word else renumbered p q (k == 2) x.2
  let g := unpack w
  match x.2.instr with
  | some (.bra _ imm) => g = { f with imm := g.imm } ∧ (k = 2 → relTarget here g.imm = pcOf 2 0) ∧
      (k ≠ 2 → ∀ j y, (parts.getD k [])[j]? = some y → pcIn (if y.1 = 1 then p.r else q.r) y.2.line y.2.slot = relTarget was imm →
        relTarget here g.imm = pcOf k j)
  | some (.spawn _ _ _ _ imm) | some (.spawna _ _ _ _ imm) | some (.spawnd _ _ _ imm) =>
    g = { f with imm := g.imm } ∧ relTarget here g.imm = relTarget was imm
  | some (.lea _ _ imm) => g = { f with imm := g.imm } ∧
      BitVec.ofNat 64 (here.toNat / 64 * 64) + g.imm.signExtend 64 = BitVec.ofNat 64 (was.toNat / 64 * 64) + imm.signExtend 64
  | _ => g = f

/-- An address that instruction i of part k keeps lies within reach from its place in code at `fb` (R409). -/
def Reaches' (p q : Kern) (fb : Word) (k i : Nat) (x : Nat × Slot) : Prop :=
  let was := pcIn (if x.1 = 1 then p.r else q.r) x.2.line x.2.slot
  let here := fb + BitVec.ofNat 64 (64 * (placeOf (fusedParts p q) k i).1)
  let off (w : Word) : Int := (BitVec.ofNat 64 (w.toNat / 64 * 64) - here).toInt
  match x.2.instr with
  | some (.spawn _ _ _ _ imm) | some (.spawna _ _ _ _ imm) | some (.spawnd _ _ _ imm) =>
    -(2 ^ 34) ≤ off (relTarget was imm) ∧ off (relTarget was imm) < 2 ^ 34
  | some (.lea _ _ imm) =>
    let d := (BitVec.ofNat 64 (was.toNat / 64 * 64) + imm.signExtend 64 - here).toInt
    d < 2 ^ 31 ∧ -(2 ^ 31) ≤ d
  | _ => True

/-- A range of a domain's splice region is free for the fused code of a pair (R409). -/
def Machine.State.Room (s : State) (p q : Kern) (fb : Nat) : Prop :=
  let parts := fusedParts p q
  let n := 128 * startOf parts 5
  let d := s.domain p.r.dom
  let apart (start len : Nat) : Prop := ¬(0 < len ∧ start < fb + n ∧ fb < start + len)
  fb % 64 = 0 ∧ d.splbase.toNat ≤ fb ∧ fb + n ≤ d.splbase.toNat + 65536 * d.splsize.toNat ∧
  (∀ e ∈ s.launches, e.2.live = true → e.2.r.dom = p.r.dom → (∀ h ∈ e.2.held, apart h.1 h.2) ∧
    ∀ sp ∈ e.2.splice, apart sp.fb.toNat sp.region) ∧
  (∀ i, i < (fb % 65536 + n + 65535) / 65536 → match s.translate p.r.dom ((fb / 65536 + i) * 65536) with
    | .ok f => f.r = true ∧ f.x = true ∧ f.fmt = 0
    | .fail _ => False) ∧
  ∀ k, k < 5 → ∀ i x, (parts.getD k [])[i]? = some x → Reaches' p q (BitVec.ofNat 64 fb) k i x

/-- A line of fused code and its origin line are those of line j (R36, R37, R40, R72, R412). -/
def LineIs (p q : Kern) (fb : Word) (j : Nat) (line origin : List Byte) : Prop :=
  let parts := fusedParts p q
  let word (i : Nat) : InstrWord := BitVec.ofNat 96 (leNat ((line.drop (12 * i)).take 12))
  let entry (i : Nat) : Nat := leNat ((origin.drop (8 * i)).take 8)
  let holds (i : Nat) : Prop := ∃ k n x, k < 5 ∧ (parts.getD k [])[n]? = some x ∧ placeOf parts k n = (j, i)
  let ctl := leNat (line.drop 60)
  let loop := startOf parts 2
  let after := startOf parts 3
  let plain (i : Nat) : Prop := holds i ∧ (let f := unpack (word i)
    f.u = false ∧ ¬(0x48 ≤ f.op.toNat ∧ f.op.toNat < 0x60) ∧ f.op.toNat < 0x88)
  let goesHere (i : Nat) : Prop := ∃ k n x w h imm, k < 5 ∧ (parts.getD k [])[n]? = some x ∧ x.2.instr = some (.bra h imm) ∧
    PlacedAs p q fb k n x w ∧ (let t := placeOf parts k n
      relTarget (fb + BitVec.ofNat 64 (64 * t.1 + t.2)) (unpack w).imm = fb + BitVec.ofNat 64 (64 * j + i))
  (∀ k n x i, k < 5 → (parts.getD k [])[n]? = some x → placeOf parts k n = (j, i) → PlacedAs p q fb k n x (word i) ∧
    entry i = (pcIn (if x.1 = 1 then p.r else q.r) x.2.line x.2.slot).toNat + 8 * x.1) ∧
  (∀ i, i < 5 → ¬holds i → word i = 0 ∧ entry i = 0) ∧ leNat (origin.drop 40) = 0 ∧
  ctl % 2 ^ 13 = 0 ∧ (ctl / 2 ^ 13 % 4 = if j < loop ∨ after ≤ j then 0 else if j = loop then 2 else if j + 1 = after then 3 else 1) ∧
  (∀ i, i < 5 → holds i → (j, i) = (0, 0) ∨ (j, i) = (loop, 0) → ctl.testBit (15 + i) = true) ∧
  (∀ (k n m : Nat) (x y : Nat × Slot) (h : Head) (imm : BitVec 32), k ≠ 2 → k < 5 → (parts.getD k [])[n]? = some x → (parts.getD k [])[m]? = some y → x.2.instr = some (.bra h imm) →
    pcIn (if y.1 = 1 then p.r else q.r) y.2.line y.2.slot =
      relTarget (pcIn (if x.1 = 1 then p.r else q.r) x.2.line x.2.slot) imm →
    (placeOf parts k m).1 = j → ctl.testBit (15 + (placeOf parts k m).2) = true) ∧
  (∀ i, i < 5 → ctl.testBit (15 + i) = true → holds i ∧ ((j, i) = (0, 0) ∨ (j, i) = (loop, 0) ∨ goesHere i)) ∧
  (∀ i, i < 4 → (ctl.testBit (20 + i) = true ↔ plain i ∧ plain (i + 1) ∧ (unpack (word (i + 1))).s = false)) ∧
  line.getD 63 0 = (line.take 63).foldr (· ^^^ ·) 0

/-- What the linker makes of a pair: the record of R417, the raised numbers, and the fused code in the lowest free range of the
region, nothing else in memory changed (R409, R412 to R418). -/
def Machine.State.Fuses (s x : State) (p q : Kern) (f : Record) (sp : Splice) : Prop :=
  let a := p.r
  let b := q.r
  let o := p.off
  let L := startOf (fusedParts p q) 5
  let names (g : Instr → List Nat) (k : Nat) : Prop := ∃ i ∈ q.code, k ∈ g i
  ∃ c : Nat, s.Room p q c ∧ (∀ d, s.Room p q d → c ≤ d) ∧ sp.fb = BitVec.ofNat 64 c ∧
  f = { a with
    entry := sp.fb, release := max a.release b.release, deadline := min a.deadline b.deadline
    budget := min (a.budget + b.budget) (2 ^ 64 - 1), scratch := a.scratch + b.scratch, acc := a.acc || b.acc
    maxlive := a.maxlive + b.maxlive, combt := min a.combt b.combt, wspstep := max a.wspstep b.wspstep, ok := a.ok && b.ok } ∧
  sp.p = a ∧ sp.q = b ∧ sp.lines = L ∧ sp.region = 128 * L ∧ sp.offW = p.winOff ∧ sp.offS = o.s ∧ sp.offP = o.p ∧ sp.offG = o.g ∧
  sp.offT = o.t ∧ sp.offB = o.b ∧ sp.offC = o.c ∧ sp.retained = a.retained.getLsbD ((tileOf p q).getD (0, 0, 0, 0)).1 ∧
  (sp.namesW0 = true ↔ names Instr.wins 0) ∧ (sp.namesS0 = true ↔ names Instr.scalars 0) ∧
  (sp.namesS1 = true ↔ names Instr.scalars 1) ∧ (sp.namesS2 = true ↔ names Instr.scalars 2) ∧
  x.launches = s.launches ∧ x.warps = s.warps ∧ x.groups = s.groups ∧ x.subs = s.subs ∧ x.results = s.results ∧
  (let leaf (j : Nat) (g : Leaf) : Prop := s.translate a.dom (c + 64 * j) = .ok g
   let key (j : Nat) (g : Leaf) : Nat := g.key (c + 64 * j)
   (∀ y, (∀ j g, j < 2 * L → leaf j g → ¬(key j g ≤ y ∧ y < key j g + 64)) → x.byteAt y = s.byteAt y) ∧
   ((∀ i j g h, i < j → j < 2 * L → leaf i g → leaf j h → key i g ≠ key j h) →
     ∀ j g h, j < L → leaf j g → leaf (L + j) h → LineIs p q sp.fb j (x.bytesAt (key j g) 64) (x.bytesAt (key (L + j) h) 64)))

/-- A kernel's role in a pair: its body can be read, and holds the one of TSTO and TLOD and not the other (R410). -/
def Machine.State.Produces (s : State) (r : Record) : Prop :=
  let body := s.slotsOf r r.first (r.last + 1)
  (∀ j, j < r.last + 1 → r.first ≤ j → (s.kline r j).isSome = true) ∧ body.any (fun x => x.tsto.isSome) = true ∧
  body.any (fun x => x.tlod.isSome) = false

/-- The consumer's role (R410). -/
def Machine.State.Consumes (s : State) (r : Record) : Prop :=
  let body := s.slotsOf r r.first (r.last + 1)
  (∀ j, j < r.last + 1 → r.first ≤ j → (s.kline r j).isSome = true) ∧ body.any (fun x => x.tlod.isSome) = true ∧
  body.any (fun x => x.tsto.isSome) = false

/-! ### Floating-point reductions (R178, R179) -/

/-- Two values combined by an operation, an absent one passed over; the flags gather. -/
def combine (f : Nat → Nat → FRes) : Option FRes → Option FRes → Option FRes
  | none, r => r
  | r, none => r
  | some x, some y => some { bits := (f x.bits y.bits).bits, flags := (f x.bits y.bits).flags ||| x.flags ||| y.flags }

/-- The tree over 2^n lanes from lane i, whose values are `v` (R178). -/
def treeOf (f : Nat → Nat → FRes) (v : Nat → Option FRes) : Nat → Nat → Option FRes
  | 0, i => v i
  | n + 1, i => combine f (treeOf f v n i) (treeOf f v n (i + 2 ^ n))

/-- Values combined one after another; the first passes unchanged (R179). -/
def serialOf (f : Nat → Nat → FRes) : List Nat → Option FRes
  | [] => none
  | x :: xs => some (xs.foldl (fun r y => { bits := (f r.bits y).bits, flags := r.flags ||| (f r.bits y).flags }) { bits := x })

/-! ### Patterns of a format, by their bits (R103 to R106, R124) -/

/-- Is a pattern a NaN: the exponent all ones, the fraction not zero (R103)? -/
def Machine.Fmt.IsNan (F : Fmt) (x : Nat) : Prop := x / 2 ^ F.fb % 2 ^ F.eb = 2 ^ F.eb - 1 ∧ x % 2 ^ F.fb ≠ 0

/-- Is a pattern a signalling NaN: the fraction's top bit clear (R103)? -/
def Machine.Fmt.IsSnan (F : Fmt) (x : Nat) : Prop := F.IsNan x ∧ x % 2 ^ F.fb < 2 ^ (F.fb - 1)

/-- Is the sign bit of a pattern set? -/
def Machine.Fmt.minus (F : Fmt) (x : Nat) : Bool := decide (x / 2 ^ (F.eb + F.fb) % 2 = 1)

/-- Is a pattern an infinity? -/
def Machine.Fmt.IsInf (F : Fmt) (x : Nat) : Prop := x % 2 ^ (F.eb + F.fb) = (2 ^ F.eb - 1) * 2 ^ F.fb

/-- Is a pattern a zero, once FlushIn has acted (R114)? -/
def Machine.Fmt.IsZero (F : Fmt) (ftz : Bool) (x : Nat) : Prop :=
  x % 2 ^ (F.eb + F.fb) = 0 ∨ (ftz = true ∧ F = fp32 ∧ x / 2 ^ F.fb % 2 ^ F.eb = 0)

/-- A result is a pattern, and raises one set of flags where a condition holds and none elsewhere. -/
def Machine.FRes.Is (r : FRes) (bits : Nat) (flags : BitVec 5) (when : Prop) : Prop :=
  r.bits = bits ∧ (when → r.flags = flags) ∧ (¬when → r.flags = 0)

/-- A result is the default NaN with NV (R104, R106). -/
def Machine.Fmt.Invalid (F : Fmt) (r : FRes) : Prop := r.bits = (2 ^ F.eb - 1) * 2 ^ F.fb + 2 ^ (F.fb - 1) ∧ r.flags = 0x10

/-- Does a pattern hold a finite value (R103)? -/
def Machine.Fmt.Holds (F : Fmt) (x : Nat) (v : ℝ) : Prop :=
  ∃ neg m e, F.value x = .fin neg m e ∧ v = (if neg then -1 else 1) * (m : ℝ) * 2 ^ e

/-- ulp(v) of R124. -/
noncomputable def Machine.Fmt.ulp (F : Fmt) (v : ℝ) : ℝ := 2 ^ (max (Int.log 2 |v|) F.emin - F.fb)

/-- A result approximates an exact value within a bound, with the flags of R125: an infinity with OF and NX beyond the largest
finite value; else a finite value, NX exactly where it differs, UF where it differs and is tiny. -/
def Machine.Fmt.Approximates (F : Fmt) (r : FRes) (v bound : ℝ) : Prop :=
  let largest : ℝ := (2 ^ (F.fb + 1) - 1) * 2 ^ (F.bias - F.fb)
  (largest < |v| → r.bits = (2 ^ F.eb - 1) * 2 ^ F.fb + (if v < 0 then 2 ^ (F.eb + F.fb) else 0) ∧ r.flags = 0x05) ∧
  (|v| ≤ largest → ∃ w, F.Holds r.bits w ∧ |w - v| ≤ bound ∧ (r.flags.getLsbD 0 = true ↔ w ≠ v) ∧ r.flags.getLsbD 2 = false ∧
    (|v| < 2 ^ (F.emin - 1) → (r.flags.getLsbD 1 = true ↔ w ≠ v)) ∧ (2 ^ F.emin ≤ |v| → r.flags.getLsbD 1 = false))

/-! ### Exact values and their rounding (R103, R107 to R110, R114) -/

/-- The value of a finite pattern (R103). -/
noncomputable def Machine.Fmt.num (F : Fmt) (x : Nat) : ℝ :=
  let e := x / 2 ^ F.fb % 2 ^ F.eb
  let f := x % 2 ^ F.fb
  (if F.minus x then -1 else 1) *
    (if e = 0 then (f : ℝ) * 2 ^ (F.emin - F.fb) else ((2 ^ F.fb + f : ℕ) : ℝ) * 2 ^ ((e : ℤ) - F.bias - F.fb))

/-- The pattern that an operation sees of an operand: FlushIn (R114). -/
def Machine.Fmt.flushed (F : Fmt) (ftz : Bool) (x : Nat) : Nat :=
  if ftz = true ∧ F = fp32 ∧ x / 2 ^ F.fb % 2 ^ F.eb = 0 then (if F.minus x then 2 ^ (F.eb + F.fb) else 0) else x

/-- The value that an operation sees of an operand that is no NaN: a number or an infinity. -/
noncomputable def Machine.Fmt.ext (F : Fmt) (ftz : Bool) (x : Nat) : EReal :=
  if x % 2 ^ (F.eb + F.fb) = (2 ^ F.eb - 1) * 2 ^ F.fb then (if F.minus x then ⊥ else ⊤) else (F.num (F.flushed ftz x) : ℝ)

/-- A magnitude rounded to an integer in a mode, for a value of a sign (R107). -/
noncomputable def Rm.integer (rm : Rm) (neg : Bool) (x : ℝ) : ℤ :=
  match rm with
  | .rtz => ⌊x⌋
  | .rup => if neg then ⌊x⌋ else ⌈x⌉
  | .rdn => if neg then ⌈x⌉ else ⌊x⌋
  | .rna => ⌊x + 1 / 2⌋
  | .rne | .dyn => if Int.fract x < 1 / 2 ∨ (Int.fract x = 1 / 2 ∧ ⌊x⌋ % 2 = 0) then ⌊x⌋ else ⌊x⌋ + 1

/-- A magnitude rounded to a multiple of 2^q. -/
noncomputable def Rm.toUnit (rm : Rm) (neg : Bool) (x : ℝ) (q : ℤ) : ℝ := rm.integer neg (x / 2 ^ q) * 2 ^ q

/-- A result is an exact value, not zero, rounded to a format in a mode, with its flags, and flushed where FTZ acts: the unit is
that of the value's binade, or of the subnormals (R107 to R109, R114). -/
def Machine.Fmt.Rounds (F : Fmt) (rm : Rm) (ftz : Bool) (v : ℝ) (r : FRes) : Prop :=
  let neg : Bool := decide (v < 0)
  let unit : ℤ := Int.log 2 |v| - F.fb
  let w := rm.toUnit neg |v| (max unit (F.emin - F.fb))
  let tiny : Prop := rm.toUnit neg |v| unit < 2 ^ F.emin
  let largest : ℝ := (2 ^ (F.fb + 1) - 1) * 2 ^ (F.bias - F.fb)
  let top : Nat := if neg then 2 ^ (F.eb + F.fb) else 0
  let inf : Nat := (2 ^ F.eb - 1) * 2 ^ F.fb
  let inward : Prop := rm = .rtz ∨ (rm = .rup ∧ neg = true) ∨ (rm = .rdn ∧ neg = false)
  let flush : Prop := ftz = true ∧ F = fp32 ∧ tiny
  (flush → r.bits = top ∧ r.flags = 0x03) ∧
  (¬flush → largest < w → (inward → r.bits = top + inf - 1) ∧ (¬inward → r.bits = top + inf) ∧ r.flags = 0x05) ∧
  (¬flush → w ≤ largest → r.bits < 2 ^ F.width ∧ F.minus r.bits = neg ∧ r.bits % 2 ^ (F.eb + F.fb) < inf ∧ |F.num r.bits| = w ∧
    (r.flags.getLsbD 0 = true ↔ w ≠ |v|) ∧ (r.flags.getLsbD 1 = true ↔ w ≠ |v| ∧ tiny) ∧ r.flags &&& 0x1C = 0)

/-- A term of a sum: its sign, and the value that an operation sees. -/
noncomputable def Machine.Fmt.term (F : Fmt) (ftz : Bool) (x : Nat) : Bool × EReal := (F.minus x, F.ext ftz x)

/-- The product of two terms. -/
noncomputable def termMul (x y : Bool × EReal) : Bool × EReal := (x.1 ^^ y.1, x.2 * y.2)

/-- A result is the sum of terms, rounded once; invalid where infinities of both signs meet; an exact zero has the common sign of
zeros of one sign, and else that of the mode (R106, R110, R118, R131). -/
def Machine.Fmt.Sums (F : Fmt) (rm : Rm) (ftz : Bool) (ts : List (Bool × EReal)) (r : FRes) : Prop :=
  let vs := ts.map (·.2)
  let v : ℝ := (vs.map EReal.toReal).sum
  let top : Nat := 2 ^ (F.eb + F.fb)
  let inf : Nat := (2 ^ F.eb - 1) * 2 ^ F.fb
  let down : Prop := (∀ t ∈ ts, t = (true, 0)) ∨ (rm = .rdn ∧ ¬∀ t ∈ ts, t = (false, 0))
  (⊤ ∈ vs → ⊥ ∈ vs → F.Invalid r) ∧ (⊤ ∈ vs → ⊥ ∉ vs → r.Is inf 0 True) ∧ (⊥ ∈ vs → ⊤ ∉ vs → r.Is (inf + top) 0 True) ∧
  (⊤ ∉ vs → ⊥ ∉ vs → (v ≠ 0 → F.Rounds rm ftz v r) ∧ (v = 0 → down → r.Is top 0 True) ∧ (v = 0 → ¬down → r.Is 0 0 True))

/-- A result is the sum of two operands, a NaN being passed on (R105, R118). -/
def Machine.Fmt.Adds (F : Fmt) (rm : Rm) (ftz : Bool) (a b : Nat) (r : FRes) : Prop :=
  (F.IsNan a → r.Is (a ||| 2 ^ (F.fb - 1)) 0x10 (F.IsSnan a ∨ F.IsSnan b)) ∧
  (¬F.IsNan a → F.IsNan b → r.Is (b ||| 2 ^ (F.fb - 1)) 0x10 (F.IsSnan b)) ∧
  (¬F.IsNan a → ¬F.IsNan b → F.Sums rm ftz [F.term ftz a, F.term ftz b] r)

/-- A result is the smaller of two operands, or the larger: −0 is less than +0, and one NaN gives way to a number (R120). -/
def Machine.Fmt.Picks (F : Fmt) (ftz larger : Bool) (a b : Nat) (r : FRes) : Prop :=
  let x := F.flushed ftz a
  let y := F.flushed ftz b
  let less : Prop := F.ext ftz a < F.ext ftz b ∨ (F.ext ftz a = F.ext ftz b ∧ F.minus a = true)
  let nv : Prop := F.IsSnan a ∨ F.IsSnan b
  (F.IsNan a → F.IsNan b → r.Is (a ||| 2 ^ (F.fb - 1)) 0x10 nv) ∧ (F.IsNan a → ¬F.IsNan b → r.Is y 0x10 nv) ∧
  (¬F.IsNan a → F.IsNan b → r.Is x 0x10 nv) ∧
  (¬F.IsNan a → ¬F.IsNan b → (less → r.Is (if larger then y else x) 0 True) ∧ (¬less → r.Is (if larger then x else y) 0 True))

/-- A value is what a pattern holds (R103). -/
def Machine.Fmt.Reads (F : Fmt) (x : Nat) (v : FVal) : Prop :=
  match v with
  | .nan b => F.IsNan x ∧ b = x
  | .inf n => F.IsInf x ∧ n = F.minus x
  | .fin n m e => ¬F.IsNan x ∧ ¬F.IsInf x ∧ (if n then -1 else 1) * (m : ℝ) * 2 ^ e = F.num x

/-- A value is that of element `i` of a BFP block of `m`-bit mantissas (R189, R190). -/
def Machine.FVal.InBlock (v : FVal) (m i : Nat) (slot : List Byte) : Prop :=
  let raw := leNat (slot.take 1)
  let scale : ℤ := if raw < 128 then raw else (raw : ℤ) - 256
  let bits := leNat (slot.drop 8) / 2 ^ (m * i) % 2 ^ m
  let mant : ℤ := if bits < 2 ^ (m - 1) then bits else (bits : ℤ) - 2 ^ m
  ∃ n x e, v = .fin n x e ∧
    (if n then -1 else 1) * (x : ℝ) * 2 ^ e = if scale = -128 then 0 else (mant : ℝ) * 2 ^ (scale - m + 1)

/-- The number or infinity that a value is; nothing is said of a NaN. -/
noncomputable def Machine.FVal.ext (v : FVal) : EReal :=
  match v with
  | .nan _ => 0
  | .inf n => if n then ⊥ else ⊤
  | .fin n m e => (((if n then -1 else 1) * (m : ℝ) * 2 ^ e : ℝ) : EReal)

/-- A result is that of a pass of activations `xs` and weights `ys`, of format G, into an accumulator element of format F
(R354). -/
def Machine.Fmt.Passes (F G : Fmt) (c : Nat) (xs ys : List FVal) (r : FRes) : Prop :=
  let pairs := xs.zip ys
  let nan (v : FVal) : Prop := ∃ b, v = .nan b
  let snan (v : FVal) : Prop := ∃ b, v = .nan b ∧ b % 2 ^ G.fb < 2 ^ (G.fb - 1)
  let inf (v : FVal) : Prop := ∃ n, v = .inf n
  let zero (v : FVal) : Prop := ∃ n e, v = .fin n 0 e
  let times : Prop := ∃ p ∈ pairs, (zero p.1 ∧ inf p.2) ∨ (inf p.1 ∧ zero p.2)
  let among (i : EReal) : Prop := ∃ p ∈ pairs, ¬nan p.1 ∧ ¬nan p.2 ∧ p.1.ext * p.2.ext = i
  let wrong : Prop := times ∨ (among ⊤ ∧ among ⊥)
  let sum : EReal := (pairs.map fun p => p.1.ext * p.2.ext).sum
  let bad : Prop := (∃ v ∈ xs ++ ys, nan v) ∨ wrong
  (bad → r.Is ((2 ^ F.eb - 1) * 2 ^ F.fb + 2 ^ (F.fb - 1)) 0x10 ((∃ v ∈ xs ++ ys, snan v) ∨ wrong)) ∧
  (¬bad → sum = 0 → r.Is c 0 True) ∧
  (¬bad → sum ≠ 0 → F.IsNan c → r.Is (c ||| 2 ^ (F.fb - 1)) 0x10 (F.IsSnan c)) ∧
  (¬bad → sum ≠ 0 → ¬F.IsNan c → F.Sums .rne false [F.term false c, (decide (sum < 0), sum)] r)

/-! ### Integers as bit patterns (R82) -/

/-- The low `n` bits of a pattern extended to 64 bits, by their sign or by zeros. -/
def cut (signed : Bool) (n : Nat) (v : Word) : Word :=
  if signed then (v <<< (64 - n)).sshiftRight (64 - n) else (v <<< (64 - n)) >>> (64 - n)

/-- A pattern as a register of an integer type holds it (R82). -/
def Ty.fit (ty : Ty) (v : Word) : Word := cut ty.signed ty.width v

/-- Is one operand less than the other under a type (R82)? -/
def Ty.less (ty : Ty) (x y : Word) : Bool :=
  if ty.signed then (ty.fit x).slt (ty.fit y) else (ty.fit x).ult (ty.fit y)

/-- The exact product of two operands in 128 bits (R82, R89). -/
def Ty.prod (ty : Ty) (x y : Word) : BitVec 128 :=
  if ty.signed then (ty.fit x).signExtend 128 * (ty.fit y).signExtend 128
  else (ty.fit x).setWidth 128 * (ty.fit y).setWidth 128

end Sys2Proof
end

