-- ==== Sys2Proof/Certificates/Slice0/Obligations.lean ====
section
/-! DEFINITION. The statements about the model, for the provers. -/

section

open Sys2Proof Machine

/-! ### Integer, logical and address class -/

/-- R85, R87, R88, R89: MOV, ADD, SUB, MUL, MAD, NEG, ABS, MIN, MAX and CLAMP write the wrapped result, extended by the type, in
every executing lane; they write nothing else. -/
def Obligations.IntegerArithmetic : Prop :=
  ∀ (s : State) (h : Head) (ty : Ty) (d a b c : Spec) (imm : BitVec 32),
    let x (L : Nat) : Word := s.opnd L a imm
    let y (L : Nat) : Word := s.opnd L b imm
    let z (L : Nat) : Word := s.opnd L c imm
    let top (L : Nat) : Word := if ty.less (x L) (y L) then y L else x L
    s.Computes (.mov h ty d a imm) h d (fun L => { d := some (ty.fit (x L)) }) ∧
    s.Computes (.add h ty d a b imm) h d (fun L => { d := some (ty.fit (x L + y L)) }) ∧
    s.Computes (.sub h ty d a b imm) h d (fun L => { d := some (ty.fit (x L - y L)) }) ∧
    s.Computes (.mul h ty d a b imm) h d (fun L => { d := some (ty.fit (x L * y L)) }) ∧
    s.Computes (.mad h ty d a b c imm) h d (fun L => { d := some (ty.fit (x L * y L + z L)) }) ∧
    s.Computes (.neg h ty d a imm) h d (fun L => { d := some (ty.fit (-(x L))) }) ∧
    s.Computes (.abs h ty d a imm) h d
      (fun L => { d := some (if ty.signed && (ty.fit (x L)).msb then ty.fit (-(x L)) else ty.fit (x L)) }) ∧
    s.Computes (.min h ty d a b imm) h d (fun L => { d := some (ty.fit (if ty.less (y L) (x L) then y L else x L)) }) ∧
    s.Computes (.max h ty d a b imm) h d (fun L => { d := some (ty.fit (top L)) }) ∧
    s.Computes (.clamp h ty d a b c imm) h d
      (fun L => { d := some (ty.fit (if ty.less (z L) (top L) then z L else top L)) })

/-- R86: ADDC and SUBB add or subtract with the predicate named in C as carry or borrow, and write it back; the carry is bit n
of the sum of the zero-extended operands, the borrow whether the minuend is the smaller.  R89, R90: MULH, MULW, DIV and REM: the
high half and the whole of the exact product, the quotient rounded towards zero and its remainder, all ones and the dividend
where the divisor is zero. -/
def Obligations.CarriesProductsAndQuotients : Prop :=
  (∀ (s : State) (h : Head) (ty : Ty) (d a b : Spec) (p : Fin 8) (imm : BitVec 32),
    let x (L : Nat) : Word := s.opnd L a imm
    let y (L : Nat) : Word := s.opnd L b imm
    let k (L : Nat) : Word := (BitVec.ofBool (s.predOf L p)).setWidth 64
    let low (v : Word) : BitVec 65 := (cut false ty.width v).setWidth 65
    s.Computes (.addc h ty d a b p imm) h d (fun L =>
      { d := some (ty.fit (x L + y L + k L)),
        preds := [(p, (low (x L) + low (y L) + (k L).setWidth 65).getLsbD ty.width)] }) ∧
    s.Computes (.subb h ty d a b p imm) h d (fun L =>
      { d := some (ty.fit (x L - y L - k L)),
        preds := [(p, (low (x L) - low (y L) - (k L).setWidth 65).msb)] })) ∧
  (∀ (s : State) (h : Head) (ty : Ty) (d a b : Spec) (imm : BitVec 32),
    let x (L : Nat) : Word := s.opnd L a imm
    let y (L : Nat) : Word := s.opnd L b imm
    let q (L : Nat) : Word :=
      if ty.fit (y L) = 0 then BitVec.allOnes 64
      else if ty.signed then (ty.fit (x L)).sdiv (ty.fit (y L)) else (ty.fit (x L)).udiv (ty.fit (y L))
    let m (L : Nat) : Word :=
      if ty.signed then (ty.fit (x L)).srem (ty.fit (y L)) else (ty.fit (x L)).umod (ty.fit (y L))
    s.Computes (.mulh h ty d a b imm) h d
      (fun L => { d := some (ty.fit ((ty.prod (x L) (y L) >>> ty.width).setWidth 64)) }) ∧
    (ty.width ≤ 32 → s.Computes (.mulw h ty d a b imm) h d
      (fun L => { d := some (cut ty.signed (2 * ty.width) ((ty.prod (x L) (y L)).setWidth 64)) })) ∧
    s.Computes (.div h ty d a b imm) h d (fun L => { d := some (ty.fit (q L)) }) ∧
    s.Computes (.rem h ty d a b imm) h d (fun L => { d := some (ty.fit (m L)) }))

/-- R91 to R93: AND, OR, XOR, ANDN, NOT, SHL, SHR, SAR, ROT.L and ROT.R; a shift count is never reduced, a rotation count is.
R94, R95: BFX, BFI, EXT, POPC, CLZ, CTZ and BREV: the field that the control value names, extended or inserted; the counts, and
the bits in reverse order. -/
def Obligations.LogicShiftsAndBitFields : Prop :=
  (∀ (s : State) (h : Head) (ty : Ty) (d a b : Spec) (imm : BitVec 32),
    let x (L : Nat) : Word := s.opnd L a imm
    let y (L : Nat) : Word := s.opnd L b imm
    let part (L : Nat) : BitVec ty.width := (x L).setWidth ty.width
    s.Computes (.and h ty d a b imm) h d (fun L => { d := some (ty.fit (x L &&& y L)) }) ∧
    s.Computes (.or h ty d a b imm) h d (fun L => { d := some (ty.fit (x L ||| y L)) }) ∧
    s.Computes (.xor h ty d a b imm) h d (fun L => { d := some (ty.fit (x L ^^^ y L)) }) ∧
    s.Computes (.andn h ty d a b imm) h d (fun L => { d := some (ty.fit (x L &&& ~~~(y L))) }) ∧
    s.Computes (.not h ty d a imm) h d (fun L => { d := some (ty.fit (~~~(x L))) }) ∧
    s.Computes (.shl h ty d a b imm) h d (fun L => { d := some (ty.fit (x L <<< (y L).toNat)) }) ∧
    s.Computes (.shr h ty d a b imm) h d (fun L => { d := some (ty.fit (cut false ty.width (x L) >>> (y L).toNat)) }) ∧
    s.Computes (.sar h ty d a b imm) h d
      (fun L => { d := some (ty.fit ((cut true ty.width (x L)).sshiftRight (y L).toNat)) }) ∧
    s.Computes (.rotL h ty d a b imm) h d
      (fun L => { d := some (ty.fit (((part L).rotateLeft (y L).toNat).setWidth 64)) }) ∧
    s.Computes (.rotR h ty d a b imm) h d
      (fun L => { d := some (ty.fit (((part L).rotateRight (y L).toNat).setWidth 64)) })) ∧
  (∀ (s : State) (h : Head) (ty : Ty) (d a b c : Spec) (imm : BitVec 32),
    let n := ty.width
    let x (L : Nat) : Word := s.opnd L a imm
    let pos (k : Word) : Nat := min (k.extractLsb' 0 7).toNat n
    let len (k : Word) : Nat := min (k.extractLsb' 8 7).toNat (n - pos k)
    let mask (k : Word) : Word := (1 <<< len k - 1) <<< pos k
    s.Computes (.bfx h ty d a b imm) h d (fun L =>
      let k := s.opnd L b imm
      { d := some (ty.fit (if len k = 0 then 0 else cut ty.signed (len k) (x L >>> pos k))) }) ∧
    s.Computes (.bfi h ty d a b c imm) h d (fun L =>
      let k := s.opnd L c imm
      { d := some (ty.fit ((s.opnd L b imm &&& ~~~(mask k)) ||| (x L <<< pos k &&& mask k))) }) ∧
    s.Computes (.ext h ty d a b imm) h d (fun L =>
      { d := some (ty.fit (cut ty.signed (min (s.opnd L b imm).toNat (n - 1) + 1) (x L))) }) ∧
    (∃ v : Nat → Nat, s.Computes (.popc h ty d a imm) h d (fun L => { d := some (BitVec.ofNat 64 (v L)) }) ∧
      ∀ L, v L = (List.range n).countP (fun i => (x L).getLsbD i)) ∧
    (∃ v : Nat → Nat, s.Computes (.clz h ty d a imm) h d (fun L => { d := some (BitVec.ofNat 64 (v L)) }) ∧
      ∀ L, v L ≤ n ∧ (∀ i, i < v L → (x L).getLsbD (n - 1 - i) = false) ∧
        (v L < n → (x L).getLsbD (n - 1 - v L) = true)) ∧
    (∃ v : Nat → Nat, s.Computes (.ctz h ty d a imm) h d (fun L => { d := some (BitVec.ofNat 64 (v L)) }) ∧
      ∀ L, v L ≤ n ∧ (∀ i, i < v L → (x L).getLsbD i = false) ∧ (v L < n → (x L).getLsbD (v L) = true)) ∧
    (∃ v : Nat → Word, s.Computes (.brev h ty d a imm) h d (fun L => { d := some (v L) }) ∧
      ∀ L, v L = ty.fit (v L) ∧ ∀ i, i < n → (v L).getLsbD i = (x L).getLsbD (n - 1 - i)))

/-- R96 to R102 and R64: CMP writes its outcome to a predicate or a register; SEL, PRMT, LEA and HMIX their value; PLOG a
predicate; PMOV.GET the predicates as bits 7 to 0 and PMOV.SET the predicates from bits 6 to 0, counted from the predicate that
an instruction of a fused launch's consumer calls p0 (from p0 itself in every other launch); NOP moves on. -/
def Obligations.CompareSelectPermute : Prop :=
  ∀ (s : State) (h : Head) (ty : Ty) (d a b c : Spec) (cc : Cc) (o : PlogOp) (p q r : Fin 8) (imm : BitVec 32),
    let x (L : Nat) : Word := s.opnd L a imm
    let y (L : Nat) : Word := s.opnd L b imm
    let t (L : Nat) : Bool :=
      match cc with
      | .eq => ty.fit (x L) = ty.fit (y L) | .ne => ty.fit (x L) ≠ ty.fit (y L)
      | .lt => ty.less (x L) (y L) | .le => !ty.less (y L) (x L) | .gt => ty.less (y L) (x L) | .ge => !ty.less (x L) (y L)
    s.Computes (.cmp h cc ty d a b imm) h d (fun L =>
      match d with
      | .pred k => { preds := [(k, t L)] }
      | _ => { d := some ((BitVec.ofBool (t L)).setWidth 64) }) ∧
    s.Computes (.sel h ty d a b p imm) h d (fun L => { d := some (ty.fit (if s.predOf L p then x L else y L)) }) ∧
    (∃ v : Nat → Word, s.Computes (.prmt h d a b c imm) h d (fun L => { d := some (v L) }) ∧
      ∀ L i, i < 8 → (v L).extractLsb' (8 * i) 8 =
        (y L ++ x L).extractLsb' (8 * ((s.opnd L c imm).extractLsb' (4 * i) 4).toNat) 8) ∧
    s.Computes (.lea h d imm) h d (fun _ => { d := some (((s.cur.pc >>> 6) <<< 6) + imm.signExtend 64) }) ∧
    s.Computes (.hmix h d a b imm) h d (fun L =>
      let u0 := (x L).setWidth 32 ^^^ (y L).setWidth 32
      let u1 := (u0 ^^^ u0 / 65536) * 0xB4E39A6D
      let u2 := (u1 ^^^ u1 / 32768) * 0x6C8E2F53
      { d := some ((u2 ^^^ u2 / 65536).setWidth 64) }) ∧
    s.Computes (.plog h o p q r) h .zero (fun L =>
      let u := s.predOf L q
      let v := s.predOf L r
      { preds := [(p, match o with
        | .and => u && v | .or => u || v | .xor => u ^^ v | .andn => u && !v | .orn => u || !v
        | .xnor => !(u ^^ v) | .nand => !(u && v) | .nor => !(u || v))] }) ∧
    ((s.launch s.cw.launch).splice = none → ∀ L, s.pmovOff L = 0) ∧
    s.Computes (.pmovGet h d) h d (fun L => { d := some (((s.cl L).preds >>> s.pmovOff L).setWidth 64 + 0x80) }) ∧
    (∃ t, exec (.pmovSet h a imm) s = .next t ∧ t = { s with warps := t.warps } ∧ s.LanesOnly t ∧ ∀ L, t.cl L =
      let u := ((x (if h.u then (s.active h).headD 0 else L)).setWidth 7 : BitVec 7)
      let k := s.pmovOff L
      let l := if L ∈ s.active h
        then { s.cl L with preds := ((s.cl L).preds &&& ~~~(BitVec.allOnes 7 <<< k)) ||| (u <<< k) } else s.cl L
      if L ∈ s.gang then l.moved else l) ∧
    (∃ t, exec (.nop h) s = .next t ∧ t = { s with warps := t.warps } ∧ s.MovesOn t s.gang)

/-- R100: for a fixed seed HMIX is a permutation of the 2^32 keys. -/
def Obligations.HashMixPermutes : Prop :=
  ∀ seed : BitVec 32, Function.Bijective (fun key => Machine.hmix key seed)

/-! ### Floating-point class -/

/-- R107, R111, R115, R118 to R120, R129 to R131: FADD, FSUB, FMUL, FFMA, FDIV, FSQRT, FMIN, FMAX, FRND, FSCL and FDOT compute
element by element under the mode that RM names or, for DYN, FMODE holds, with FTZ of FMODE; the flags are ORed into FSTAT of
every guarded lane, and nothing traps.  R105, R106, R119, R131: the first NaN operand, its fraction's top bit set, is the result;
an invalid operation gives the default NaN with NV; a signalling NaN raises NV; a division by zero is an infinity with DZ.  R107,
R110, R118 to R120, R129 to R131: every other result is the exact sum, difference, product, quotient, root or multiple rounded once,
FRND the operand rounded to an integer, and FMIN and FMAX one of their operands. -/
def Obligations.FloatArithmetic : Prop :=
  (∀ (s : State) (h : Head) (ty : Ty) (rm : Rm) (d a b c : Spec) (imm : BitVec 32),
    let el (x : Spec) (L k : Nat) : Nat := elemOf ty (s.opnd L x imm) k
    let z (L : Nat) : Bool := (s.cl L).fmode.getLsbD 3
    let m (L : Nat) : Rm :=
      if rm = .dyn then
        (match ((s.cl L).fmode.extractLsb' 0 3).toNat with
        | 1 => .rtz | 2 => .rup | 3 => .rdn | 4 => .rna | _ => .rne)
      else rm
    let F := fmtOf ty
    s.Computes (.fadd h ty rm d a b imm) h d (fun L => elemEff ty fun k => F.add (m L) (z L) (el a L k) (el b L k)) ∧
    s.Computes (.fsub h ty rm d a b imm) h d (fun L => elemEff ty fun k => F.sub (m L) (z L) (el a L k) (el b L k)) ∧
    s.Computes (.fmul h ty rm d a b imm) h d (fun L => elemEff ty fun k => F.mul (m L) (z L) (el a L k) (el b L k)) ∧
    s.Computes (.ffma h ty rm d a b c imm) h d
      (fun L => elemEff ty fun k => F.fma (m L) (z L) (el a L k) (el b L k) (el c L k)) ∧
    s.Computes (.fdiv h ty rm d a b imm) h d (fun L => elemEff ty fun k => F.div (m L) (z L) (el a L k) (el b L k)) ∧
    s.Computes (.fsqrt h ty rm d a imm) h d (fun L => elemEff ty fun k => F.sqrt (m L) (z L) (el a L k)) ∧
    s.Computes (.fmin h ty d a b imm) h d (fun L => elemEff ty fun k => F.minmax false (z L) (el a L k) (el b L k)) ∧
    s.Computes (.fmax h ty d a b imm) h d (fun L => elemEff ty fun k => F.minmax true (z L) (el a L k) (el b L k)) ∧
    s.Computes (.frnd h ty rm d a imm) h d (fun L => elemEff ty fun k => F.rint (m L) (z L) (el a L k)) ∧
    s.Computes (.fscl h ty rm d a b imm) h d
      (fun L => elemEff ty fun k => F.scale (m L) (z L) (el a L k) (s.opnd L b imm).toInt) ∧
    s.Computes (.fdot h ty rm d a b c imm) h d (fun L => elemEff .f32 fun _ =>
      F.dot (m L) (z L) [el a L 0, el a L 1, el a L 2, el a L 3] [el b L 0, el b L 1, el b L 2, el b L 3]
        (elemOf .f32 (s.opnd L c imm) 0))) ∧
  (∀ F ∈ [fp64, fp32, fp16, bf16], ∀ (m : Rm) (z : Bool) (a b c : Nat) (j : ℤ),
    a < 2 ^ F.width → b < 2 ^ F.width → c < 2 ^ F.width →
    let quieted (x : Nat) : Nat := x ||| 2 ^ (F.fb - 1)
    let top : Nat := 2 ^ (F.eb + F.fb)
    let zero (neg : Bool) : Nat := if neg then top else 0
    let inf (neg : Bool) : Nat := (2 ^ F.eb - 1) * 2 ^ F.fb + zero neg
    let sign : Bool := F.minus a ^^ F.minus b
    let finite (x : Nat) : Prop := ¬F.IsNan x ∧ ¬F.IsInf x
    let nonzero (x : Nat) : Prop := finite x ∧ ¬F.IsZero z x
    let seen (x : Nat) : ℝ := F.num (F.flushed z x)
    let noTimesInf : Prop := (F.IsZero z a ∧ F.IsInf b) ∨ (F.IsInf a ∧ F.IsZero z b)
    F.Adds m z a b (F.add m z a b) ∧ F.Picks z false a b (F.minmax false z a b) ∧ F.Picks z true a b (F.minmax true z a b) ∧
    (∀ r ∈ [F.sub m z a b, F.mul m z a b, F.div m z a b],
      (F.IsNan a → r.Is (quieted a) 0x10 (F.IsSnan a ∨ F.IsSnan b)) ∧
      (¬F.IsNan a → F.IsNan b → r.Is (quieted b) 0x10 (F.IsSnan b))) ∧
    (F.IsNan a → ∀ r ∈ [F.sqrt m z a, F.rint m z a, F.scale m z a j], r.Is (quieted a) 0x10 (F.IsSnan a)) ∧
    (let r := F.fma m z a b c
     (F.IsNan a → r.Is (quieted a) 0x10 (F.IsSnan a ∨ F.IsSnan b ∨ F.IsSnan c)) ∧
     (¬F.IsNan a → F.IsNan b → r.Is (quieted b) 0x10 (F.IsSnan b ∨ F.IsSnan c)) ∧
     (¬F.IsNan a → ¬F.IsNan b → F.IsNan c → r.Is (quieted c) 0x10 (F.IsSnan c ∨ noTimesInf)) ∧
     (noTimesInf → ¬F.IsNan c → F.Invalid r) ∧
     (¬F.IsNan a → ¬F.IsNan b → ¬F.IsNan c → ¬noTimesInf → F.Sums m z [termMul (F.term z a) (F.term z b), F.term z c] r)) ∧
    (¬F.IsNan a → ¬F.IsNan b → F.Sums m z [F.term z a, (!F.minus b, -F.ext z b)] (F.sub m z a b)) ∧
    (noTimesInf → F.Invalid (F.mul m z a b)) ∧
    (¬F.IsNan a → ¬F.IsNan b → ¬noTimesInf → F.Sums m z [termMul (F.term z a) (F.term z b)] (F.mul m z a b)) ∧
    (F.IsZero z a → F.IsZero z b → F.Invalid (F.div m z a b)) ∧ (F.IsInf a → F.IsInf b → F.Invalid (F.div m z a b)) ∧
    (nonzero a → F.IsZero z b → (F.div m z a b).Is (inf sign) 0x08 True) ∧
    (finite a → F.IsInf b → (F.div m z a b).Is (zero sign) 0 True) ∧
    (F.IsInf a → finite b → (F.div m z a b).Is (inf sign) 0 True) ∧
    (F.IsZero z a → nonzero b → (F.div m z a b).Is (zero sign) 0 True) ∧
    (nonzero a → nonzero b → F.Rounds m z (seen a / seen b) (F.div m z a b)) ∧
    (F.IsZero z a → ∀ r ∈ [F.sqrt m z a, F.rint m z a, F.scale m z a j], r.Is (zero (F.minus a)) 0 True) ∧
    (F.IsInf a → (F.minus a = false → (F.sqrt m z a).Is a 0 True) ∧ (F.rint m z a).Is a 0 True ∧ (F.scale m z a j).Is a 0 True) ∧
    (F.minus a = true → ¬F.IsZero z a → ¬F.IsNan a → F.Invalid (F.sqrt m z a)) ∧
    (nonzero a → F.minus a = false → F.Rounds m z (Real.sqrt (seen a)) (F.sqrt m z a)) ∧
    (nonzero a → F.Rounds m z (seen a * 2 ^ j) (F.scale m z a j)) ∧
    (nonzero a → let r := F.rint m z a
      r.bits < 2 ^ F.width ∧ finite r.bits ∧ F.minus r.bits = F.minus a ∧ |F.num r.bits| = m.integer (F.minus a) |seen a| ∧
      (F.num r.bits = seen a → r.flags = 0) ∧ (F.num r.bits ≠ seen a → r.flags = 0x01))) ∧
  (∀ F ∈ [fp16, bf16], ∀ (m : Rm) (z : Bool) (x y : Nat → Nat) (c : Nat), (∀ k, x k < 2 ^ 16 ∧ y k < 2 ^ 16) → c < 2 ^ 32 →
    let r := F.dot m z [x 0, x 1, x 2, x 3] [y 0, y 1, y 2, y 3] c
    let all := [x 0, y 0, x 1, y 1, x 2, y 2, x 3, y 3]
    let product (k : Nat) : Bool × EReal := termMul (F.term false (x k)) (F.term false (y k))
    let clean (k : Nat) : Prop := ¬F.IsNan (x k) ∧ ¬F.IsNan (y k)
    let noTimesInf (k : Nat) : Prop := (F.IsZero false (x k) ∧ F.IsInf (y k)) ∨ (F.IsInf (x k) ∧ F.IsZero false (y k))
    let among (v : EReal) : Prop := (∃ k, k < 4 ∧ clean k ∧ (product k).2 = v) ∨ (¬fp32.IsNan c ∧ fp32.ext z c = v)
    let inv : Prop := (∃ k, k < 4 ∧ noTimesInf k) ∨ (among ⊤ ∧ among ⊥)
    let nv : Prop := (∃ w ∈ all, F.IsSnan w) ∨ fp32.IsSnan c ∨ inv
    (∀ pre v post, all = pre ++ v :: post → (∀ w ∈ pre, ¬F.IsNan w) → F.IsNan v →
      r.Is (v / 2 ^ 15 * 2 ^ 31 + 0xFF * 2 ^ 23 + (v % 2 ^ F.fb ||| 2 ^ (F.fb - 1)) * 2 ^ (23 - F.fb)) 0x10 nv) ∧
    ((∀ w ∈ all, ¬F.IsNan w) → fp32.IsNan c → r.Is (c ||| 2 ^ 22) 0x10 nv) ∧
    ((∀ w ∈ all, ¬F.IsNan w) → ¬fp32.IsNan c → (inv → fp32.Invalid r) ∧
      (¬inv → fp32.Sums m z [product 0, product 1, product 2, product 3, fp32.term z c] r)))

/-- R121 to R123: FABS, FNEG and FCPS change the sign bit of each element and raise no flag; FCMP writes its outcome to a
predicate or a register, or a mask for each of four elements; FCLASS writes the class.  R104, R126 to R128: FCVT converts
element by element, or a scalar into the element that IMM names, or that element into a scalar; FTOI and ITOF convert the one
element to and from an integer of the type.  The outcome of a comparison is that of the two values, or of a NaN among them, and a NaN
raises NV; a class is that of the pattern; a conversion carries a NaN across, and rounds a number once; FTOI saturates with NV, and
gives 0 for a NaN. -/
def Obligations.FloatSignsComparesAndConversions : Prop :=
  (∀ (s : State) (h : Head) (ty : Ty) (o : CpsOp) (cc : FCc) (d a b : Spec) (imm : BitVec 32),
    let el (x : Spec) (L k : Nat) : Nat := elemOf ty (s.opnd L x imm) k
    let F := fmtOf ty
    let sign : Nat := 2 ^ (F.width - 1)
    let mag (x : Nat) : Nat := x % sign
    let neg (x : Nat) : Bool := decide (sign ≤ x)
    let put (x : Nat) (n : Bool) : FRes := { bits := if n then mag x + sign else mag x }
    let t (L k : Nat) : Bool × BitVec 5 := F.cmp cc ((s.cl L).fmode.getLsbD 3) (el a L k) (el b L k)
    s.Computes (.fabs h ty d a imm) h d (fun L => elemEff ty fun k => put (el a L k) false) ∧
    s.Computes (.fneg h ty d a imm) h d (fun L => elemEff ty fun k => put (el a L k) (!neg (el a L k))) ∧
    s.Computes (.fcps h o ty d a b imm) h d (fun L => elemEff ty fun k => put (el a L k)
      (match o with
      | .copy => neg (el b L k) | .ncopy => !neg (el b L k) | .xsgn => neg (el a L k) ^^ neg (el b L k))) ∧
    s.Computes (.fcmp h cc ty d a b imm) h d (fun L =>
      if ty = .h4 ∨ ty = .b4 then elemEff ty fun k => { bits := if (t L k).1 then 0xFFFF else 0, flags := (t L k).2 }
      else match d with
        | .pred p => { preds := [(p, (t L 0).1)], flags := (t L 0).2 }
        | _ => { d := some ((BitVec.ofBool (t L 0).1).setWidth 64), flags := (t L 0).2 }) ∧
    s.Computes (.fclass h ty d a imm) h d (fun L => elemEff ty fun k => { bits := F.classOf (el a L k) })) ∧
  (∀ (s : State) (h : Head) (sty ty : Ty) (rm : Rm) (d a b : Spec) (imm : BitVec 32),
    let z (L : Nat) : Bool := (s.cl L).fmode.getLsbD 3
    let m (L : Nat) : Rm := resolveRm rm (s.cl L).fmode
    let wide (x : Ty) : Bool := x == .h4 || x == .b4
    let k := (imm.extractLsb' 0 2).toNat
    let c (L : Nat) (x : Nat) : FRes := cvt (fmtOf sty) (fmtOf ty) (m L) (z L) x
    (wide sty = wide ty → s.Computes (.fcvt h sty ty rm d a b imm) h d
      (fun L => elemEff ty fun j => c L (elemOf sty (s.opnd L a imm) j))) ∧
    (wide sty = false → wide ty = true → s.Computes (.fcvt h sty ty rm d a b imm) h d (fun L => elemEff ty fun j =>
      if j = k then c L (elemOf sty (s.opnd L a imm) 0) else { bits := elemOf ty (s.opnd L b imm) j })) ∧
    (wide sty = true → wide ty = false → s.Computes (.fcvt h sty ty rm d a b imm) h d (fun L =>
      let r := c L (elemOf sty (s.opnd L a imm) k)
      { d := some (BitVec.ofNat 64 r.bits), flags := r.flags })) ∧
    s.Computes (.ftoi h sty ty rm d a imm) h d (fun L =>
      let r := (fmtOf sty).toInt ty (m L) (z L) (elemOf sty (s.opnd L a imm) 0)
      { d := some (ty.fit (BitVec.ofInt 64 r.1)), flags := r.2 }) ∧
    s.Computes (.itof h sty ty rm d a imm) h d (fun L => elemEff ty fun _ =>
      (fmtOf ty).ofInt (m L) (z L)
        (if sty.signed then (sty.fit (s.opnd L a imm)).toInt else (sty.fit (s.opnd L a imm)).toNat))) ∧
  (∀ F ∈ [fp64, fp32, fp16, bf16], ∀ (cc : FCc) (rm : Rm) (z : Bool) (a b : Nat), a < 2 ^ F.width → b < 2 ^ F.width →
    let x := F.ext z a
    let y := F.ext z b
    let un : Prop := F.IsNan a ∨ F.IsNan b
    let t := F.cmp cc z a b
    let quiet : Prop := cc ∈ [FCc.eq, .ne, .un, .ord]
    let nv : Prop := if quiet then F.IsSnan a ∨ F.IsSnan b else un
    let cls (neg pos : Nat) : Nat := 2 ^ (if F.minus a then neg else pos)
    let e := a / 2 ^ F.fb % 2 ^ F.eb
    (t.1 = true ↔ match cc with
      | .eq => ¬un ∧ x = y
      | .ne => un ∨ x ≠ y
      | .lt => ¬un ∧ x < y
      | .le => ¬un ∧ x ≤ y
      | .gt => ¬un ∧ y < x
      | .ge => ¬un ∧ y ≤ x
      | .un => un
      | .ord => ¬un) ∧ (nv → t.2 = 0x10) ∧ (¬nv → t.2 = 0) ∧
    (F.IsSnan a → F.classOf a = 2 ^ 8) ∧ (F.IsNan a → ¬F.IsSnan a → F.classOf a = 2 ^ 9) ∧ (F.IsInf a → F.classOf a = cls 0 7) ∧
    (e ≠ 0 → e ≠ 2 ^ F.eb - 1 → F.classOf a = cls 1 6) ∧ (e = 0 → a % 2 ^ F.fb ≠ 0 → F.classOf a = cls 2 5) ∧
    (e = 0 → a % 2 ^ F.fb = 0 → F.classOf a = cls 3 4) ∧
    (∀ G ∈ [fp64, fp32, fp16, bf16],
      let f := a % 2 ^ F.fb
      let carried : Nat := if F.fb ≤ G.fb then f * 2 ^ (G.fb - F.fb) else f / 2 ^ (F.fb - G.fb)
      let top : Nat := if F.minus a then 2 ^ (G.eb + G.fb) else 0
      let inf : Nat := (2 ^ G.eb - 1) * 2 ^ G.fb
      let r := cvt F G rm z a
      (F.IsNan a → r.Is (top + inf + (carried ||| 2 ^ (G.fb - 1))) 0x10 (F.IsSnan a)) ∧ (F.IsInf a → r.Is (top + inf) 0 True) ∧
      (F.IsZero z a → r.Is top 0 True) ∧
      (¬F.IsNan a → ¬F.IsInf a → ¬F.IsZero z a → G.Rounds rm z (F.num (F.flushed z a)) r)) ∧
    (∀ ty : Ty,
      let lo : ℤ := if ty.signed then -(2 ^ (ty.width - 1)) else 0
      let hi : ℤ := if ty.signed then 2 ^ (ty.width - 1) - 1 else 2 ^ ty.width - 1
      let v := F.num (F.flushed z a)
      let i : ℤ := (if F.minus a then -1 else 1) * rm.integer (F.minus a) |v|
      let r := F.toInt ty rm z a
      (F.IsNan a → r = (0, 0x10)) ∧ (F.IsInf a → r = (if F.minus a then lo else hi, 0x10)) ∧
      (¬F.IsNan a → ¬F.IsInf a → (i < lo → r = (lo, 0x10)) ∧ (hi < i → r = (hi, 0x10)) ∧
        (lo ≤ i → i ≤ hi → r.1 = i ∧ ((i : ℝ) = v → r.2 = 0) ∧ ((i : ℝ) ≠ v → r.2 = 0x01)))) ∧
    (F.ofInt rm z 0).Is 0 0 True ∧ ∀ i : ℤ, i ≠ 0 → F.Rounds rm z i (F.ofInt rm z i))

/-- R124, R125: FRCP, FRSQ, FEXP2 and FLOG2 complete with the approximation of each element; an element of 16 bits goes through
FP32 and is rounded once more.  The special operands give the results of R125's table, with R105 for a NaN, and what is exact is
exact.  Where the bound of R124 leaves a choice the value is a free one, and that an element of 16 bits raises the flags of all three
steps is the model's reading (log entries 20 and 21). -/
def Obligations.FloatApproximations : Prop :=
  (∀ (s : State) (h : Head) (ty : Ty) (d a : Spec) (imm : BitVec 32),
    let F := fmtOf ty
    let wide : Bool := ty == .h4 || ty == .b4
    let run (f : Fmt → Bool → Nat → FRes) (L k : Nat) : FRes :=
      let x := elemOf ty (s.opnd L a imm) k
      if wide then
        let up := cvt F fp32 .rne false x
        let r := f fp32 false up.bits
        let down := cvt fp32 F .rne false r.bits
        { bits := down.bits, flags := up.flags ||| r.flags ||| down.flags }
      else f F ((s.cl L).fmode.getLsbD 3) x
    s.Computes (.frcp h ty d a imm) h d (fun L => elemEff ty (run Fmt.frcp L)) ∧
    s.Computes (.frsq h ty d a imm) h d (fun L => elemEff ty (run Fmt.frsq L)) ∧
    s.Computes (.fexp2 h ty d a imm) h d (fun L => elemEff ty (run Fmt.fexp2 L)) ∧
    s.Computes (.flog2 h ty d a imm) h d (fun L => elemEff ty (run Fmt.flog2 L))) ∧
  (∀ F ∈ [fp64, fp32], ∀ (z : Bool) (a : Nat), a < 2 ^ F.width →
    let top : Nat := 2 ^ (F.eb + F.fb)
    let inf (neg : Bool) : Nat := (2 ^ F.eb - 1) * 2 ^ F.fb + (if neg then top else 0)
    let one : Nat := (2 ^ (F.eb - 1) - 1) * 2 ^ F.fb
    let neg := F.minus a
    (F.IsNan a → ∀ r ∈ [F.frcp z a, F.frsq z a, F.fexp2 z a, F.flog2 z a], r.Is (a ||| 2 ^ (F.fb - 1)) 0x10 (F.IsSnan a)) ∧
    (F.IsZero z a → (F.frcp z a).Is (inf neg) 0x08 True ∧ (F.frsq z a).Is (inf neg) 0x08 True ∧ (F.fexp2 z a).Is one 0 True ∧
      (F.flog2 z a).Is (inf true) 0x08 True) ∧
    (F.IsInf a → (F.frcp z a).Is (if neg then top else 0) 0 True ∧
      (neg = false → (F.frsq z a).Is 0 0 True ∧ (F.fexp2 z a).Is a 0 True ∧ (F.flog2 z a).Is a 0 True) ∧
      (neg = true → (F.fexp2 z a).Is 0 0 True)) ∧
    (neg = true → ¬F.IsNan a → ¬F.IsZero z a → F.Invalid (F.frsq z a) ∧ F.Invalid (F.flog2 z a)) ∧
    (∀ v, F.Holds a v → ¬F.IsZero z a →
      ((F.bias : ℝ) + 1 ≤ v → (F.fexp2 z a).Is (inf false) 0x05 True) ∧
      (v < (if F = fp64 then -1075 else -150) → (F.fexp2 z a).Is 0 0x03 True) ∧
      ∀ (k : ℤ) (r : Nat), r < 2 ^ F.width → (z = true → r / 2 ^ F.fb % 2 ^ F.eb ≠ 0) →
        (|v| = 2 ^ k → F.Holds r (1 / v) → (F.frcp z a).Is r 0 True) ∧
        (v = 2 ^ (2 * k) → F.Holds r (2 ^ (-k)) → (F.frsq z a).Is r 0 True) ∧
        (v = k → F.Holds r (2 ^ k) → (F.fexp2 z a).Is r 0 True) ∧
        (v = 2 ^ k → k ≠ 0 → F.Holds r k → (F.flog2 z a).Is r 0 True) ∧
        (v = 1 → (F.flog2 z a).Is 0 0 True)))

/-- R107 to R109: a rounded result that does not overflow is a finite value of the operand's sign, within half a unit in its
last place under RNE and RNA, at a tie with an even significand under RNE and away from zero under RNA, and less than one unit
away on the side that RTZ, RUP and RDN name; NX says exactly whether it differs from the exact value.  R124, R125: FRCP, FRSQ,
FEXP2 and FLOG2 of a finite operand lie within their bounds of 1/x, 1/√x, 2^x and log2 x, with the flags that follow. -/
def Obligations.RoundingIsCorrect : Prop :=
  (∀ (F : Fmt), F ∈ [fp64, fp32, fp16, bf16] → ∀ (rm : Rm) (neg : Bool) (m : Nat) (e : Int), m ≠ 0 →
    let r := (F.round rm neg m e).res
    r.flags.getLsbD 2 = false →
    ∃ (sig : Nat) (q : Int), F.value r.bits = .fin neg sig q ∧
      let v : ℚ := m * 2 ^ e
      let w : ℚ := sig * 2 ^ q
      (r.flags.getLsbD 0 = true ↔ w ≠ v) ∧
      match rm with
      | .rne | .dyn => |w - v| ≤ 2 ^ q / 2 ∧ (|w - v| = 2 ^ q / 2 → sig % 2 = 0)
      | .rna => |w - v| ≤ 2 ^ q / 2 ∧ (|w - v| = 2 ^ q / 2 → v < w)
      | .rtz => w ≤ v ∧ v - w < 2 ^ q
      | .rup => if neg then w ≤ v ∧ v - w < 2 ^ q else v ≤ w ∧ w - v < 2 ^ q
      | .rdn => if neg then v ≤ w ∧ w - v < 2 ^ q else w ≤ v ∧ v - w < 2 ^ q) ∧
  (∀ F ∈ [fp64, fp32], ∀ (a : Nat) (x : ℝ), a < 2 ^ F.width → F.Holds a x → x ≠ 0 →
    let near (r : FRes) (v : ℝ) (bound : ℝ) : Prop := F.Approximates r v bound
    near (F.frcp false a) (1 / x) (F.ulp (1 / x)) ∧
    (0 < x → near (F.frsq false a) (1 / Real.sqrt x) (F.ulp (1 / Real.sqrt x))) ∧
    ((if F = fp64 then (-1075 : ℝ) else -150) ≤ x → near (F.fexp2 false a) ((2 : ℝ) ^ x) (2 * F.ulp ((2 : ℝ) ^ x))) ∧
    (0 < x → x ≠ 1 → near (F.flog2 false a) (Real.logb 2 x) (max (2 * F.ulp (Real.logb 2 x)) (2 ^ (-(F.fb : ℤ) - 1)))))

/-! ### Cross-lane class -/

/-- R164, R168, R171 to R176: SHFL, SHFX, BCAST, VOTE, BALLOT and BPCNT act over the active lanes of the issue: every source is
read before a destination is written, and no other lane takes part. -/
def Obligations.CrossLaneMoves : Prop :=
  ∀ (s : State) (h : Head) (o : ShflOp) (vo : VoteOp) (d a b c : Spec) (k : Fin 32) (p q : Fin 8) (imm : BitVec 32),
    let act := s.active h
    let x (L : Nat) : Word := s.opnd L a imm
    let j (L : Nat) : Nat := (s.opnd L b imm).toNat
    let low := act.headD 0
    let w (L : Nat) : Nat := 32 >>> min ((s.opnd L c imm).extractLsb' 0 3).toNat 5
    let t (L : Nat) : Int :=
      match o with
      | .idx => (j L % w L : Nat) | .up => ((L % w L : Nat) : Int) - j L
      | .down => ((L % w L : Nat) : Int) + j L | .xor => ((L % w L) ^^^ (j L % w L) : Nat)
    let src (L : Nat) : Nat := L - L % w L + (t L).toNat
    let ones (L : Nat) : Bool := s.predOf L p && (decide (j low < 64) && (x L).getLsbD (j low))
    s.Computes (.shfl h o d a b c imm) h d (fun L =>
      { d := some (if 0 ≤ t L ∧ t L < w L ∧ src L ∈ act then x (src L) else x L) }) ∧
    s.Computes (.shfx h d k b imm) h d (fun L =>
      { d := some (if j L < 256 ∧ j L / 8 ∈ act then (s.cl (j L / 8)).win (k.val + j L % 8) else 0) }) ∧
    s.Computes (.bcast h d a b imm) h d (fun _ =>
      { d := some (if j low < 32 ∧ j low ∈ act then x (j low) else x low) }) ∧
    s.Computes (.vote h vo d q) h d (fun _ =>
      let t : Bool := match vo with
        | .every => decide (∀ L ∈ act, s.predOf L q = true) | .some => decide (∃ L ∈ act, s.predOf L q = true)
        | .same => decide (∀ L ∈ act, ∀ K ∈ act, s.predOf L q = s.predOf K q)
      match d with
      | .pred r => { preds := [(r, t)] }
      | _ => { d := some ((BitVec.ofBool t).setWidth 64) }) ∧
    (∃ v : Word, s.Computes (.ballot h d q) h d (fun _ => { d := some v }) ∧
      ∀ L, v.getLsbD L = decide (L ∈ act ∧ L < 32 ∧ s.predOf L q = true)) ∧
    (∃ u, exec (.bpcnt h d a b p imm) s = .next u ∧
      AluPost s u h d (fun _ => { d := some (BitVec.ofNat 64 (act.countP ones)) })
        (fun L => { preds := [(p, ones L)] }))

/-- R177 to R179: REDUCE and SCAN of integers: the sum, the least, the greatest or the bitwise combination of the active lanes'
operands, of all of them for REDUCE, of those at or below each lane for the inclusive SCAN, of those below it for the exclusive
one, whose first lane takes the operation's constant.  R178, R179: a floating-point REDUCE combines the active lanes in the
fixed tree over lane numbers, absent lanes passed over, and a floating-point SCAN combines them one after another; every flag
raised goes to every active lane. -/
def Obligations.Reductions : Prop :=
  (∀ (s : State) (h : Head) (o : RedOp) (ty : Ty) (d a : Spec) (imm : BitVec 32),
    o ∉ [.fadd, .fmin, .fmax] →
    let act := s.active h
    let x (L : Nat) : Word := s.opnd L a imm
    let top : Word := if ty.signed then BitVec.ofNat 64 (2 ^ (ty.width - 1) - 1) else BitVec.allOnes 64
    let comb (y z : Word) : Word :=
      match o with
      | .min => if ty.less z y then z else y
      | .max => if ty.less y z then z else y
      | .and => y &&& z | .or => y ||| z | .xor => y ^^^ z
      | _ => y + z
    let unit : Word :=
      match o with
      | .and => BitVec.allOnes 64 | .min => top | .max => if ty.signed then ~~~top else 0 | _ => 0
    let all (ls : List Nat) : Word := ty.fit (ls.foldl (fun r L => comb r (x L)) unit)
    s.Computes (.reduce h o ty d a imm) h d (fun _ => { d := some (all act) }) ∧
    s.Computes (.scan h o ty d a imm) h d (fun L => { d := some (all (act.filter (· ≤ L))) }) ∧
    s.Computes (.scanEx h o ty d a imm) h d (fun L => { d := some (all (act.filter (· < L))) })) ∧
  (∀ (s : State) (h : Head) (o : RedOp) (ty : Ty) (d a : Spec) (imm : BitVec 32),
    o ∈ [.fadd, .fmin, .fmax] →
    let act := s.active h
    let F := fmtOf ty
    let z : Bool := (s.cl (act.headD 0)).fmode.getLsbD 3
    let x (L : Nat) : Nat := F.flushIn z (elemOf ty (s.opnd L a imm) 0)
    let f (y w : Nat) : FRes :=
      match o with
      | .fmin => F.minmax false z y w | .fmax => F.minmax true z y w | _ => F.add .rne z y w
    let first : Nat := match o with | .fmin => F.inf false | .fmax => F.inf true | _ => 0
    let run (ls : List Nat) : FRes := (serialOf (fun y w => f (y % 2 ^ F.width) w) (ls.map x)).getD { bits := first }
    (act ≠ [] → ∃ r, treeOf f (fun i => if i ∈ act then some { bits := x i } else none) 5 0 = some r ∧
      s.Computes (.reduce h o ty d a imm) h d (fun _ => { d := some (BitVec.ofNat 64 r.bits), flags := r.flags })) ∧
    (act = [] → s.Computes (.reduce h o ty d a imm) h d (fun _ => {})) ∧
    s.Computes (.scan h o ty d a imm) h d (fun L =>
      { d := some (BitVec.ofNat 64 (run (act.filter (· ≤ L))).bits), flags := (run act).flags }) ∧
    s.Computes (.scanEx h o ty d a imm) h d (fun L =>
      { d := some (BitVec.ofNat 64 (run (act.filter (· < L))).bits), flags := (run act.dropLast).flags }))

/-! ### Control class -/

/-- R43, R155, R156, R414: BRA, BRX, CALL and CALLX go to a target that passes its checks, RET to the w7 of its frame; a call
opens a frame 24 registers further with the link in its w7; the final BRA of a fused loop adds one to register 63 of every lane
of the gang.  RET at depth 0 is EXIT. -/
def Obligations.Transfers : Prop :=
  ∀ (s : State) (h : Head) (a : Spec) (imm : BitVec 32),
    let act := s.active h
    let near : Word := (((s.cur.pc >>> 6) + (imm.extractLsb' 3 29).signExtend 64) <<< 6) ||| (imm.extractLsb' 0 3).setWidth 64
    let far (L : Nat) : Word := s.opnd L a 0
    let passes (t : Word) : Prop := s.targetCheck s.cw.core s.cw.dom t = none
    let roomy (L : Nat) : Prop := (s.cl L).resf ≠ 2 ∧ (s.cl L).depth ≠ BitVec.allOnes 32
    let callee (L : Nat) (t : Word) : Lane :=
      let l := { s.cl L with wb := (s.cl L).wb + 24, resf := 2, depth := (s.cl L).depth + 1 }
      { l.setWin 7 (nextPc s.cur.pc) with pc := t }
    ((∀ L ∈ act, passes near) →
      (∀ p, (s.launch s.cw.launch).splice = some p → s.cur.pc ≠ p.loopBra) →
      s.Transfers (.bra h imm) act fun L => { s.cl L with pc := near }) ∧
    ((∀ L ∈ act, passes near) →
      ∀ p, (s.launch s.cw.launch).splice = some p → s.cur.pc = p.loopBra →
      ∃ t, exec (.bra h imm) s = .next t ∧ t = { s with warps := t.warps } ∧ s.LanesOnly t ∧ ∀ L, t.cl L =
        let l := { s.cl L with regs := (s.cl L).regs.set 0 63 ((s.cl L).regs.get 0 63 + 1) }
        if L ∈ act then { l with pc := near } else if L ∈ s.gang then l.moved else s.cl L) ∧
    ((∀ L ∈ act, passes (far L)) → s.Transfers (.brx h a) act fun L => { s.cl L with pc := far L }) ∧
    ((∀ L ∈ act, passes near ∧ roomy L) → s.Transfers (.call h imm) act fun L => callee L near) ∧
    ((∀ L ∈ act, passes (far L) ∧ roomy L) → s.Transfers (.callx h a) act fun L => callee L (far L)) ∧
    ((∀ L ∈ act, (s.cl L).depth ≠ 0 ∧ (s.cl L).resf ≠ 1 ∧ passes ((s.cl L).win 7)) →
      s.Transfers (.ret h) act fun L =>
        { s.cl L with pc := (s.cl L).win 7, wb := (s.cl L).wb - 24, resf := 1, depth := (s.cl L).depth - 1 }) ∧
    ((∀ L ∈ act, (s.cl L).depth = 0) → exec (.ret h) s = exec (.exit h) s)

/-- R138, R157, R158: EXIT ends the active lanes and leaves what every other lane holds as it was, the others of the gang moving
on; while a lane of the warp's workgroup remains nothing but lanes, barriers and the ended lanes' registrations changes; YIELD
moves the gang on and defers the active lanes. -/
def Obligations.ThreadsExitAndYield : Prop :=
  ∀ (s : State) (h : Head),
    let act := s.active h
    s.Transfers (.yield h) act (fun L => { (s.cl L).moved with defer := true }) ∧
    ∃ t, exec (.exit h) s = .next t ∧
      (∀ L ∈ act, (t.cl L).st = .exited) ∧
      (∀ L, L < 32 → L ∉ act → (s.cl L).st ≠ .exited →
        (s.cl L).Keeps (t.cl L) ∧ (L ∈ s.gang → (t.cl L).pc = nextPc (s.cl L).pc ∧ (t.cl L).st = .ready)) ∧
      t.net = s.net ∧ t.scratch = s.scratch ∧ t.acc = s.acc ∧
      (s.cw.roaming = false → s.cur.wid ∈ (s.group s.cw.group).warps →
        (∃ K, K < 32 ∧ K ∉ act ∧ (s.cl K).st ≠ .exited) →
        t = { s with warps := t.warps, groups := t.groups, monitors := t.monitors, monEvents := t.monEvents,
                     decodes := t.decodes, olds := t.olds }) ∧
      (s.cw.roaming = true → (t.launch s.cw.launch).roamers =
        (s.launch s.cw.launch).roamers - (act.filter fun L => (s.cl L).st ≠ .exited).length)

/-- R142, R143, R159: WSPILL stores the 24 registers below the window below WSP, lowers WSP by 192 and sets RESF to 1; WFILL
asks for them again and waits; a lane whose frames need neither moves on.  Which home a roaming thread's spill goes by is log
entry 28. -/
def Obligations.SpillAndFill : Prop :=
  ∀ (s : State) (h : Head) (f : Nat → Nat → Leaf), h.u = false →
    let act := s.active h
    let at' (L j : Nat) (base : Word) : Word := base + BitVec.ofNat 64 (8 * j)
    let reg (L j : Nat) : Nat := ((s.cl L).wb.toNat + 40 + j) % 64
    let reaches (L j : Nat) (va : Word) : Prop :=
      s.Reaches h L va (f L j) (j = 0 ∧ (f L j).w) ∧ (f L j).fmt = 0 ∧ va.toNat % 8 = 0
    let full := act.filter fun L => (s.cl L).resf = 2
    let short := act.filter fun L => (s.cl L).resf = 1 ∧ (s.cl L).depth ≠ 0
    let down (L : Nat) : Word := (s.cl L).wsp - 192
    ((∀ L ∈ full, ∀ j, j < 24 → reaches L j (at' L j (down L)) ∧ (f L j).w) →
      ∃ t, exec (.wspill h) s = .next t ∧
        t = { s with warps := t.warps, net := t.net, serial := t.serial, leases := t.leases } ∧ s.LanesOnly t ∧
        (∀ L, t.cl L =
          if L ∈ full then { (s.cl L).moved with wsp := down L, resf := 1 }
          else if L ∈ s.gang then (s.cl L).moved else s.cl L) ∧
        Sends s t (full.flatMap fun L => (List.range 24).map fun j =>
          ⟨L, (f L j).key (at' L j (down L)).toNat, .write (leBytes 8 ((s.cl L).regs.get 0 (reg L j)).toNat) none, none⟩) []) ∧
    ((∀ L ∈ short, ∀ j, j < 24 → reaches L j (at' L j (s.cl L).wsp) ∧ (f L j).r) →
      ∃ t, exec (.wfill h) s = .next t ∧
        t = { s with warps := t.warps, net := t.net, serial := t.serial, leases := t.leases, answers := t.answers } ∧
        s.WaitsIn t (.wfill h) .sent (fun _ => 0) short (s.gang.filter (· ∉ short)) ∧
        let rs := short.flatMap fun L => (List.range 24).map fun j =>
          { lane := L, leaf := f L j, va := at' L j (s.cl L).wsp, n := 8, leased := !(f L j).w,
            ret := { wid := s.cur.wid, tid := (s.cl L).tid, lane := L, dst := .phys (reg L j), finish := true,
                     serial := s.cur.serial } }
        Sends s t (s.readAsks rs) (s.readAnswers rs))

/-- R144, R146, R160: BAR.HOLD and BAR.PASS mark the active lanes in user mode; the lanes of BAR.HOLD wait, all others move on.
Once every lane of the warp that has not exited is marked, the marks go and the warp arrives; where governed results of its lanes
are still to be written, the arrival is counted once they are (log entry 26). In a roaming warp, or with the arrival that meets the count (the count of the first arrival; for 0, the warps that still
have a lane), the barrier completes: the arrival count returns to 0, the generation grows, and every lane that waits there moves
on. A mark that BAR.PASS left in a lane that is parked or in a handler does not count meanwhile (log entry 73). -/
def Obligations.Barriers : Prop :=
  ∀ (s : State) (h : Head) (b : Fin 8) (c : BitVec 6) (hold : Bool),
    let i : Instr := if hold then .barHold h b c else .barPass h b c
    let act := (s.active h).filter fun L => (s.cl L).handler = false
    let grp := s.group s.cw.group
    let bar := grp.bars.get {} b.val
    let zero : Bool := if bar.arrived = 0 then decide (c = 0) else bar.zero
    let needed : Nat :=
      if bar.arrived = 0 then (if c = 0 then s.liveWarps s.cw.group else c.toNat) else bar.expect
    let marked (L : Nat) : Lane := { s.cl L with marks := (s.cl L).marks ||| BitVec.ofNat 8 (2 ^ b.val) }
    let waits (L : Nat) : Lane := { s.cl L with
      st := .waiting
      wait := some { instr := i, word := s.cur.word, gang := s.cur.gang, serial := s.cur.serial, phase := .watching } }
    let own (t : State) : Prop := t.cw = { s.cw with
      lanes := t.cw.lanes, barCount := s.cw.barCount.set 0 b.val c.toNat, barDue := t.cw.barDue }
    let others (t : State) : Prop := ∀ k, k ≠ s.cur.wid → t.warp k = s.warp k
    let marks : Prop := ∀ L, L < 32 → (s.cl L).st = .exited ∨ L ∈ act ∨ (s.cl L).markedAt b.val = true
    let owed (before : Nat) : Prop := ∃ L, L < 32 ∧ (s.cl L).st ≠ .exited ∧ s.governedOf (s.cl L).tid before = true
    let full : Prop := marks ∧ ¬owed s.serial
    let moves (L : Nat) : Lane :=
      if L ∈ act ∧ hold then waits L else if L ∈ s.gang then (s.cl L).moved else s.cl L
    let arrived (t : State) (f : Nat → Lane) : Prop :=
      ∀ L, t.cl L = if L < 32 ∧ (s.cl L).st ≠ .exited then (f L).unmarked b else s.cl L
    let gone (L : Nat) : Lane := if L ∈ s.gang then (s.cl L).moved else (s.cl L).released b
    act ≠ [] → (∀ L ∈ s.gang, (s.cl L).st = .ready ∧ (s.cl L).abandoned = none) → (∀ a ∈ s.cw.barDue, owed a.2.2) →
      (¬marks → ∃ t, exec i s = .next t ∧ t = { s with warps := t.warps } ∧ own t ∧ t.cw.barDue = s.cw.barDue ∧ others t ∧
        ∀ L, t.cl L =
          if L ∈ act then (if hold then { waits L with marks := (marked L).marks } else (marked L).moved)
          else if L ∈ s.gang then (s.cl L).moved else s.cl L) ∧
      (marks → owed s.serial → ∃ t, exec i s = .next t ∧ t = { s with warps := t.warps } ∧ own t ∧
        t.cw.barDue = s.cw.barDue ++ [(b.val, c.toNat, s.serial)] ∧ others t ∧ arrived t moves) ∧
      (full → s.cw.roaming = true → ∃ t, exec i s = .next t ∧ t = { s with warps := t.warps } ∧ own t ∧
        t.cw.barDue = s.cw.barDue ∧ others t ∧ arrived t gone) ∧
      (full → s.cw.roaming = false → bar.arrived + 1 < needed →
        ∃ t, exec i s = .next t ∧ t = { s with warps := t.warps, groups := t.groups } ∧ own t ∧ t.cw.barDue = s.cw.barDue ∧
        others t ∧ arrived t moves ∧
        ∀ g, t.group g = if g = s.cw.group
          then { grp with bars := grp.bars.set {} b.val { bar with arrived := bar.arrived + 1, expect := needed, zero := zero } }
          else s.group g) ∧
      (full → s.cw.roaming = false → s.cur.wid ∈ grp.warps → needed ≤ bar.arrived + 1 →
        ∃ t, exec i s = .next t ∧ t = { s with warps := t.warps, groups := t.groups } ∧ own t ∧ t.cw.barDue = s.cw.barDue ∧
        (∀ k, k ≠ s.cur.wid → t.warp k = { s.warp k with lanes := (t.warp k).lanes } ∧
          ∀ L, t.lane k L = if k ∈ grp.warps ∧ L < 32 then (s.lane k L).released b else s.lane k L) ∧
        arrived t gone ∧
        ∀ g, t.group g = if g = s.cw.group
          then { grp with bars := grp.bars.set {} b.val { bar with arrived := 0, gen := bar.gen + 1, expect := needed, zero := zero } }
          else s.group g)

/-- R148 to R151, R161 to R163: CVARM arms a register that is not armed with a member mask that is not 0, and says in the
predicate whether it was refused; CVSIGN of a member with the register's tag sets its bit in SIGNED and makes the warp's record
pending, and with the last member completes the set: the register is disarmed, its generation grows, and the record says
completed; a sign that does not match changes nothing; while the register is not armed, or what a release at cluster scope waits for
is still due, CVSIGN waits, and keeps its tag; CVWAIT takes the outcome and clears the record, and waits while it is pending. -/
def Obligations.ConvergenceRegisters : Prop :=
  ∀ (s : State) (h : Head) (d m tag : Spec) (p : Fin 8) (k : Fin 16) (imm : BitVec 32),
    let act := s.active h
    let n := 16 * (s.cw.core / 16) + k.val
    let reg := s.cv n
    let me := 2 * (s.cw.core % 16) + s.cw.part
    let first (x : Spec) : BitVec 32 := (s.opnd (act.headD 0) x imm).setWidth 32
    let tells (t : State) (bit : Bool) : Prop := ∀ L, t.cl L =
      let l := if L ∈ act then (s.cl L).setPred (s.offsOf s.cw (s.cl L)) p bit else s.cl L
      if L ∈ s.gang then l.moved else l
    let only (t : State) (sg : Tab Sign) : Prop :=
      t.cur = s.cur ∧ (∀ j, j ≠ s.cur.wid → t.warp j = s.warp j) ∧ t.cw = { s.cw with lanes := t.cw.lanes, signs := sg }
    let others (t : State) : Prop := ∀ j, j ≠ n → t.cv j = s.cv j
    let said : Word := s.heldOpnd (act.headD 0) tag imm
    let accepted : Prop := reg.dom = s.cw.dom ∧ reg.tag = said.setWidth 32 ∧ reg.members.getLsbD me = true
    let signed : BitVec 32 := reg.signed ||| BitVec.ofNat 32 (2 ^ me)
    act ≠ [] → (s.launch s.cw.launch).cvgrant.getLsbD k.val = true →
      (∃ t, exec (.cvarm h p k m tag imm) s = .next t ∧ t = { s with warps := t.warps, cvs := t.cvs } ∧
        only t s.cw.signs ∧ others t ∧ tells t (reg.armed || first m == 0) ∧
        t.cv n = if reg.armed || first m == 0 then reg else
          { reg with armed := true, dom := s.cw.dom, launch := s.cw.launch, members := first m, signed := 0, tag := first tag }) ∧
      (reg.armed = false ∨ ¬s.Released →
        s.Waits (.cvsign h p k tag imm) h .hold fun L => [(tag, s.heldOpnd L tag imm)]) ∧
      (s.cw.signs.get .none k.val = .pending → s.Waits (.cvwait h d k) h .hold) ∧
      (reg.armed = true → s.Released →
        (¬accepted → ∃ t, exec (.cvsign h p k tag imm) s = .next t ∧ t = { s with warps := t.warps } ∧
          only t s.cw.signs ∧ tells t true) ∧
        (accepted → signed ≠ reg.members → ∃ t, exec (.cvsign h p k tag imm) s = .next t ∧
          t = { s with warps := t.warps, cvs := t.cvs } ∧ only t (s.cw.signs.set .none k.val .pending) ∧ others t ∧
          tells t false ∧ t.cv n = { reg with signed := signed }) ∧
        (accepted → signed = reg.members → ∃ t, exec (.cvsign h p k tag imm) s = .next t ∧ others t ∧ tells t false ∧
          t.cv n = { reg with armed := false, signed := 0, gen := reg.gen + 1 } ∧
          t.cw.signs.get .none k.val = .completed reg.tag (reg.gen + 1) reg.members)) ∧
      ∀ v : Word, (v = match s.cw.signs.get .none k.val with
          | .none => 2 | .pending => v | .completed tg g _ => tg ++ g ++ 0#24 | .cancelled tg g => tg ++ g ++ 1#24) →
        s.cw.signs.get .none k.val ≠ .pending →
        let dst := match d with | .win _ => act | _ => act.take 1
        ∃ t, exec (.cvwait h d k) s = .next t ∧ t = { s with warps := t.warps, groups := t.groups } ∧
          (∀ j, j ≠ s.cur.wid → t.warp j = s.warp j) ∧
          t.cw = { s.cw with
            lanes := t.cw.lanes, signs := s.cw.signs.set .none k.val .none, sregs := s.scaAfter d dst fun _ => { d := some v } } ∧
          (∀ g, t.group g = if g = s.cw.group
            then { s.group g with gregs := s.grpAfter d dst fun _ => { d := some v } } else s.group g) ∧
          ∀ L, t.cl L =
            let l := if L ∈ dst then (s.cl L).putWin d { d := some v } else s.cl L
            if L ∈ s.gang then l.moved else l

/-! ### Memory class -/

/-- R185, R187, R188, R206, R207, R209, R234, R239: ST, STP and STF on pages with W send the bytes of C, encoded as the page's
format says, to the home of each lane's address in ascending lane order; STF carries its tag.  No register changes. -/
def Obligations.StoresLeave : Prop :=
  ∀ (s : State) (h : Head) (ty : Ty) (xs : Fin 4) (a b c : Spec) (imm : BitVec 32) (tag : BitVec 12) (f : Nat → Leaf)
    (n : Nat → Nat),
    let ea (L : Nat) : Word := s.opnd L a imm + (s.opnd L b imm <<< xs.val) + imm.signExtend 64
    let near (L : Nat) : Word := s.opnd L a 0 + (s.opnd L b 0 <<< xs.val)
    let plain (L : Nat) (va : Word) : Prop :=
      s.Reaches h L va (f L) false ∧ (f L).w ∧ (f L).fmt = 0 ∧ va.toNat % ty.size = 0
    ((∀ L ∈ s.runs h, s.Reaches h L (ea L) (f L) true ∧ (f L).w ∧ storeSize (f L).fmt ty = some (n L) ∧
        (ea L).toNat % n L = 0) →
      s.Issues (.st h ty xs a b c imm) ((s.runs h).map fun L =>
        ⟨L, (f L).key (ea L).toNat, .write (storeBytes (f L).fmt ty (s.opnd L c imm)) none, none⟩) []) ∧
    ((∀ L ∈ s.runs h, plain L (ea L)) →
      s.Issues (.stp h ty xs a b c imm) ((s.runs h).map fun L =>
        ⟨L, (f L).key (ea L).toNat, .write (leBytes ty.size (s.opnd L c imm).toNat) none, none⟩) []) ∧
    ((∀ L ∈ s.runs h, plain L (near L) ∧ (f L).fwd) →
      s.Issues (.stf h ty xs a b c tag) ((s.runs h).map fun L =>
        ⟨L, (f L).key (near L).toNat, .write (leBytes ty.size (s.opnd L c 0).toNat) (some tag.toNat), none⟩) [])

/-- R185, R190, R206, R207, R209: LD and LDL on pages with R ask for the bytes at each lane's address, or take them from a
leased copy, LD leasing only on a page without W; the value is put into D when the answer is written.  On a page of blocks LD
waits for its block, and every lane keeps its claim on D until its block is checked. -/
def Obligations.LoadsLeave : Prop :=
  ∀ (s : State) (h : Head) (ty : Ty) (xs : Fin 4) (d a b : Spec) (imm : BitVec 32) (f : Nat → Leaf) (n : Nat → Nat),
    let ea (L : Nat) : Word := s.opnd L a imm + (s.opnd L b imm <<< xs.val) + imm.signExtend 64
    let ret (L : Nat) : Ret := (s.resultOf h L d (loadPut (f L).fmt ty)).shared s (sharers h (s.active h))
    let claim (L : Nat) : Ret := { ret L with dst := s.dstOf L d }
    let reads (leased : Nat → Bool) : List Read := (s.runs h).map fun L =>
      { lane := L, leaf := f L, va := ea L, n := n L, leased := leased L, ret := ret L }
    let fits (L : Nat) : Prop := (f L).r ∧ loadSize (f L).fmt ty = some (n L) ∧ (ea L).toNat % n L = 0
    ((∀ L ∈ s.runs h, s.Reaches h L (ea L) (f L) (f L).w ∧ fits L ∧ (f L).fmt < 3) →
      s.Issues (.ld h ty xs d a b imm) (s.readAsks (reads fun L => !(f L).w)) (s.readAnswers (reads fun L => !(f L).w))) ∧
    ((∀ L ∈ s.runs h, s.Reaches h L (ea L) (f L) false ∧ fits L ∧ (f L).fmt = 0) →
      s.Issues (.ldl h ty xs d a b imm) (s.readAsks (reads fun _ => true)) (s.readAnswers (reads fun _ => true))) ∧
    ((∀ L ∈ s.runs h, s.tr (ea L) = .ok (f L) ∧ fits L ∧ 3 ≤ (f L).fmt ∧
        elemIndex (f L) (ea L).toNat / (f L).blkElems < 65536 / (f L).slotBytes ∧
        ((f L).w → s.roams h L → isLocal s.cw.core (f L) (BitVec.ofNat 64 (blockVa (f L) (ea L).toNat)))) →
      ∃ t, exec (.ld h ty xs d a b imm) s = .next t ∧ t = { s with warps := t.warps, decodes := t.decodes } ∧
        s.WaitsIn t (.ld h ty xs d a b imm) .sent (fun _ => 0) (s.active h) (s.bystanders h) ∧
        t.decodes = s.decodes ++ (s.runs h).map fun L =>
          { ret := claim L, core := s.cw.core, serial := s.cur.serial, dom := s.cw.dom, ea := ea L, ty := ty })

/-- R207, R211, R218: LDLN asks for a line for eight registers, TLOD for n words for n registers, and TSTO sends n registers as
n words; the words of a tile lie in one line, and TLOD and TSTO migrate as LD and ST. -/
def Obligations.LinesAndTiles : Prop :=
  ∀ (s : State) (h : Head) (xs : Fin 4) (hd n : Fin 8) (k : Fin 32) (a b : Spec) (imm : BitVec 32) (f : Nat → Leaf),
    let ea (L : Nat) : Word := s.opnd L a imm + (s.opnd L b imm <<< xs.val) + imm.signExtend 64
    let at' (L : Nat) : Word := s.opnd L a 0 + s.opnd L b 0
    let inLine (L : Nat) : Prop :=
      (f L).fmt = 0 ∧ (at' L).toNat % 8 = 0 ∧ (at' L).toNat % 64 + 8 * (n.val + 1) ≤ 64
    let line (L : Nat) : Read := { lane := L, leaf := f L, va := ea L, n := 64, leased := true, ret := s.blockOf L k 8 }
    let tile (L : Nat) : Read :=
      { lane := L, leaf := f L, va := at' L, n := 8 * (n.val + 1), leased := !(f L).w, ret := s.blockOf L k (n.val + 1) }
    ((∀ L ∈ s.runs h, s.Reaches h L (ea L) (f L) false ∧ (f L).r ∧ (f L).fmt = 0 ∧ (ea L).toNat % 64 = 0) →
      s.Issues (.ldln h xs k a b imm) (s.readAsks ((s.runs h).map line)) (s.readAnswers ((s.runs h).map line))) ∧
    ((∀ L ∈ s.runs h, s.Reaches h L (at' L) (f L) (f L).w ∧ (f L).r ∧ inLine L) →
      s.Issues (.tlod h hd n k a b) (s.readAsks ((s.runs h).map tile)) (s.readAnswers ((s.runs h).map tile))) ∧
    ((∀ L ∈ s.runs h, s.Reaches h L (at' L) (f L) true ∧ (f L).w ∧ inLine L) →
      s.Issues (.tsto h hd n a b k) ((s.runs h).flatMap fun L => (List.range (n.val + 1)).map fun i =>
        ⟨L, (f L).key (at' L + BitVec.ofNat 64 (8 * i)).toNat, .write (leBytes 8 ((s.cl L).win (k.val + i)).toNat) none,
          none⟩) [])

/-- R192, R194, R210, R212, R283: LDS, STS, ATOMS and CASS act on the workgroup's bytes of the core's scratchpad, lane after
lane; LDA and STA on the partition's accumulator.  No other byte changes. -/
def Obligations.ScratchpadAndAccumulator : Prop :=
  ∀ (s : State) (h : Head) (o : AtomOp) (ty : Ty) (xs : Fin 4) (d a b c : Spec) (imm : BitVec 32),
    let ls := s.runs h
    let ea (L : Nat) : Nat := (s.opnd L a imm + (s.opnd L b imm <<< xs.val) + imm.signExtend 64).toNat
    let v (L : Nat) : Word := s.opnd L c imm
    let key (L : Nat) : Nat := s.cw.core * 2 ^ 21 + ea L
    let cell (L : Nat) : Nat := (2 * s.cw.core + s.cw.part) * 2 ^ 17 + ea L
    let own (L : Nat) : Prop :=
      let r := s.scratchRange s.cw (s.originOf L)
      ea L % ty.size = 0 ∧ ea L + ty.size ≤ 1572864 ∧ r.1 ≤ ea L ∧ ea L + ty.size ≤ r.1 + r.2
    let held (L : Nat) : Prop := ea L % ty.size = 0 ∧ ea L + ty.size ≤ 131072
    let ret (L : Nat) : Ret := (s.resultOf h L d (putAsOf ty)).shared s (sharers h (s.active h))
    let got (m : Tab Byte) (L : Nat) : Nat := leNat (m.getN unwritten (key L) ty.size)
    let goes (i : Instr) (scratch acc : Tab Byte) (ans : List Answer) : Prop :=
      ∃ t, exec i s = .next t ∧ t = { s with warps := t.warps, scratch := scratch, acc := acc, answers := s.answers ++ ans } ∧
        s.MovesOn t s.gang
    let atoms := ls.foldl (fun (m : Tab Byte × List Answer) L =>
      let old := BitVec.ofNat 64 (got m.1 L)
      let x := atomNew o ty old (v L)
      (m.1.setN unwritten (key L) (leBytes ty.size x.1),
        m.2 ++ [{ ret := ret L, vals := [old], flags := x.2 }])) (s.scratch, [])
    let cass := ls.foldl (fun (m : Tab Byte × List Answer) L =>
      (if got m.1 L = (s.opnd L d imm).toNat % 2 ^ ty.width
        then m.1.setN unwritten (key L) (leBytes ty.size (v L).toNat) else m.1,
        m.2 ++ [{ ret := ret L, vals := [BitVec.ofNat 64 (got m.1 L)] }])) (s.scratch, [])
    ((∀ L ∈ ls, own L) →
      goes (.lds h ty xs d a b imm) s.scratch s.acc
        (ls.map fun L => { ret := ret L, vals := [BitVec.ofNat 64 (got s.scratch L)] }) ∧
      goes (.sts h ty xs a b c imm)
        (ls.foldl (fun m L => m.setN unwritten (key L) (leBytes ty.size (v L).toNat)) s.scratch) s.acc [] ∧
      goes (.atoms h o ty xs d a b c imm) atoms.1 s.acc atoms.2 ∧
      goes (.cass h ty xs d a b c imm) cass.1 s.acc cass.2) ∧
    (s.cw.roaming = false → (s.group s.cw.group).acc = true → (∀ L ∈ ls, held L) →
      s.Computes (.lda h ty xs d a b imm) h d (fun L =>
        { d := some ((putAsOf ty).apply (BitVec.ofNat 64 (leNat (s.acc.getN unwritten (cell L) ty.size)))) }) ∧
      goes (.sta h ty xs a b c imm) s.scratch
        (ls.foldl (fun m L => m.setN unwritten (cell L) (leBytes ty.size (v L).toNat)) s.acc) [])

/-- R153, R195, R213, R214: CBGET gives the address of the slot at HEAD and takes it from those filled; CBFREE gives a taken
slot back, and changes nothing where none is taken. -/
def Obligations.CircularBuffers : Prop :=
  ∀ (s : State) (h : Head) (d : Spec) (n : Fin 8),
    let act := s.active h
    let first := act.headD 0
    let k := n.val + (s.offsOf s.cw (s.cl first)).c
    let grp := s.group s.cw.group
    let b := grp.cbufs.get {} k
    let dst := match d with | .win _ => act | _ => act.take 1
    let goes (i : Instr) (b' : CBuf) (ans : List Answer) : Prop :=
      ∃ t, exec i s = .next t ∧ t = { s with warps := t.warps, groups := t.groups, answers := s.answers ++ ans } ∧
        s.MovesOn t s.gang ∧
        ∀ g, t.group g = if g = s.cw.group then { grp with cbufs := grp.cbufs.set {} k b' } else s.group g
    act ≠ [] → s.cw.roaming = false → b.nslots ≠ 0 →
      (b.filled ≠ 0 → goes (.cbget h d n)
        { b with head := (b.head + 1) % b.nslots, filled := b.filled - 1, taken := b.taken + 1 }
        (dst.map fun L =>
          { ret := ({ wid := s.cur.wid, tid := (s.cl L).tid, lane := L, dst := s.dstOf L d, serial := s.cur.serial } : Ret).shared s
              (match d with | .win _ => [] | _ => act),
            vals := [BitVec.ofNat 64 (b.base + b.head * b.slotb)] })) ∧
      (b.filled = 0 → s.Waits (.cbget h d n) h .hold) ∧
      (b.taken ≠ 0 → goes (.cbfree h n) { b with taken := b.taken - 1, free := b.free + 1 } []) ∧
      (b.taken = 0 → s.Transfers (.cbfree h n) [] (fun L => s.cl L))

/-- R185, R197, R215 to R217: MIGR stops the lanes of a roaming warp whose line is homed elsewhere, to leave for its home, and
moves the others on; HOME gives the home core, the region, the lease class, the rights, the format and the peer of a page; PFL
asks for leases and never fails. -/
def Obligations.MigrationHomesAndPrefetch : Prop :=
  ∀ (s : State) (h : Head) (xs : Fin 4) (d a b : Spec) (imm : BitVec 32) (f : Nat → Leaf),
    let ls := s.runs h
    let ea (L : Nat) : Word := s.opnd L a imm + (s.opnd L b imm <<< xs.val) + imm.signExtend 64
    let key (L : Nat) : Nat := (f L).key (ea L).toNat
    let away (L : Nat) : Prop := s.roams h L ∧ ¬isLocal s.cw.core (f L) (ea L)
    ((∀ L ∈ ls, s.tr (ea L) = .ok (f L) ∧ ¬away L) → s.Transfers (.migr h xs a b imm) [] (fun L => s.cl L)) ∧
    ((∀ L ∈ ls, s.tr (ea L) = .ok (f L) ∧ away L) → s.Transfers (.migr h xs a b imm) ls fun L =>
      { s.cl L with
        st := .departing
        wait := some { instr := .migr h xs a b imm, word := s.cur.word, gang := s.cur.gang, serial := s.cur.serial,
                       dl := BitVec.ofNat 64 (homeOf (key L)) } }) ∧
    (∀ v : Nat → Word, (∀ L ∈ ls, s.trAny (ea L) = .ok (f L) ∧
        (v L).extractLsb' 0 16 = BitVec.ofNat 16 (homeOf (key L) % 384) ∧
        (v L).extractLsb' 16 2 = BitVec.ofNat 2 (key L / 2 ^ 50) ∧
        (v L).extractLsb' 18 2 = BitVec.ofNat 2 (f L).cls ∧
        (v L).extractLsb' 20 4 = BitVec.ofBool (isLocal s.cw.core (f L) (ea L)) ++ BitVec.ofBool (f L).fwd ++
          BitVec.ofBool (f L).w ++ BitVec.ofBool (f L).r ∧
        (v L).extractLsb' 24 28 = 0 ∧ (v L).extractLsb' 52 4 = BitVec.ofNat 4 (f L).fmt ∧
        (v L).extractLsb' 56 8 = BitVec.ofNat 8 (f L).peer) →
      s.Issues (.home h xs d a b imm) [] (ls.map fun L => { ret := (s.resultOf h L d .raw).shared s (sharers h (s.active h)), vals := [v L] })) ∧
    s.Issues (.pfl h xs a b imm) ((s.active h).filterMap fun L =>
      match s.tr (ea L) with
      | .ok g =>
        if g.r ∧ g.fmt = 0 ∧ s.leasable g ∧ ¬isLocal s.cw.core g (ea L) ∧
            s.leaseHit s.cw.core (lineOf (g.key (ea L).toNat)) (s.cl L).tid = none
        then some ⟨L, g.key (ea L).toNat, .prefetch g.cls, none⟩ else none
      | .fail _ => none) []

/-! ### Ordering and atomics -/

/-- R66, R204, R226, R228, R233, R238, R240 to R242: FENCE moves on when its conditions hold in every active lane, and at package
scope or wider fetches then see what the lanes wrote; it waits otherwise. MWAIT registers at the home and waits, or completes with 0
where the lane holds a wake; TLWAIT moves on when the context has retired up to B without an error there, and the threads' CMAXP and
CMAXS take its completion time; it takes an error up to B from ERRQ, the lowest-numbered, and its guarded lanes raise it; it waits
before, and keeps B. TLREAD reads DONE, ISSUED or the lowest error. -/
def Obligations.FencesAndWaits : Prop :=
  ∀ (s : State) (h : Head) (sc : Sc) (ty : Ty) (xs : Fin 4) (k : Fin 32) (c16 : Fin 16) (sel : Fin 3) (d a b c : Spec)
    (imm : BitVec 32) (f : Nat → Leaf),
    let act := s.active h
    let ls := s.runs h
    let ea (L : Nat) : Word := s.opnd L a imm + (s.opnd L b imm <<< xs.val) + imm.signExtend 64
    let woken := ls.filter fun L => (s.cl L).wake
    let rest := ls.filter fun L => (s.cl L).wake = false
    let i : Instr := .mwait h ty xs k a b c imm
    let ret (L : Nat) : Ret :=
      { wid := s.cur.wid, tid := (s.cl L).tid, lane := L, dst := .phys ((s.cl L).phys k.val), serial := s.cur.serial }
    let tl (L : Nat) : Timeline := (s.group s.cw.group).tls.get {} (c16.val + (s.offsOf s.cw (s.cl L)).t)
    let one := tl (act.headD 0)
    let held (L : Nat) : Word := s.heldOpnd L b imm
    let n := (held (act.headD 0)).toNat
    ((∀ L ∈ act, s.Fenced sc L) →
      ∃ t, exec (.fence h sc) s = .next t ∧ t = { s with warps := t.warps, olds := s.oldsAfter sc act } ∧ s.MovesOn t s.gang) ∧
    ((¬∀ L ∈ act, s.Fenced sc L) → s.Waits (.fence h sc) h .sent) ∧
    (h.u = false → (∀ L ∈ ls, s.tr (ea L) = .ok (f L) ∧ (f L).r ∧ (f L).fmt = 0 ∧ (ea L).toNat % ty.size = 0) →
      ∃ t, exec i s = .next t ∧
        t = { s with warps := t.warps, net := t.net, serial := t.serial, leases := t.leases, answers := t.answers } ∧
        s.LanesOnly t ∧
        (∀ L, t.cl L =
          if L ∈ rest then
            { s.cl L with
              st := .waiting
              wait := some { instr := i, word := s.cur.word, gang := s.cur.gang, serial := s.cur.serial, phase := .sent,
                             dl := s.opnd L c imm, watch := some ((f L).key (ea L).toNat, { ret L with finish := true }) } }
          else if L ∈ woken then { (s.cl L).moved with wake := false }
          else if L ∈ s.gang then (s.cl L).moved else s.cl L) ∧
        Sends s t (rest.map fun L => ⟨L, (f L).key (ea L).toNat,
            .monitor ty.size (BitVec.ofNat 64 (((s.cl L).win k.val).toNat % 2 ^ ty.width)) false,
            some { ret L with finish := true }⟩)
          (woken.map fun L => { ret := ret L, vals := [0] })) ∧
    (act ≠ [] → one.done < n → s.Waits (.tlwait h c16 b imm) h .hold fun _ => [(b, held (act.headD 0))]) ∧
    (act ≠ [] → n ≤ one.done → (∀ L ∈ act, (s.cl L).handler = false) → ∀ e ∈ one.errq, e.n ≤ n →
      (∀ x ∈ one.errq, e.n < x.n ∨ x = e) →
      let left : Timeline := { one with errq := one.errq.filter fun x => x.n ≠ e.n }
      ∃ t, exec (.tlwait h c16 b imm) s = .next t ∧
        (∀ g, t.group g = if g = s.cw.group then
            { s.group g with tls := (s.group g).tls.set {} (c16.val + (s.offsOf s.cw (s.cl (act.headD 0))).t) left }
          else s.group g) ∧
        State.TrapsAs { s with groups := t.groups } t act (s.bystanders h)
          { cause := e.cause, sub := e.sub, addr := BitVec.ofNat 64 e.n, info0 := e.info0, kind := 4 }) ∧
    (act ≠ [] → n ≤ one.done → (∀ e ∈ one.errq, n < e.n) →
      s.Transfers (.tlwait h c16 b imm) act fun L =>
        { (s.cl L).moved with
          cmaxp := if (s.cl L).cmaxp < one.ce then one.ce else (s.cl L).cmaxp
          cmaxs := if (s.cl L).cmaxs < one.ce then one.ce else (s.cl L).cmaxs }) ∧
    (∀ low : Nat → Nat, (∀ L ∈ ls, ((tl L).errq = [] ∧ low L = 0) ∨
        ((∃ e ∈ (tl L).errq, e.n = low L) ∧ ∀ e ∈ (tl L).errq, low L ≤ e.n)) →
      s.Computes (.tlread h d c16 sel) h d fun L =>
        { d := some (BitVec.ofNat 64 (match sel.val with | 0 => (tl L).done | 1 => (tl L).issued | _ => low L)) })

/-- R57, R277 to R282, R299: ATOM, CAS and RED with a scope wider than thread wait until FENCE would move on, and keep their
operands as they read them; then each lane's operation leaves for the home of its address; the lanes of ATOM and CAS with such a
scope wait afterwards (R281); CCWAIT registers at the counter's home and waits. What each lane sends and waits for is in the terms
of the model's messages (log entry 27). -/
def Obligations.AtomicsLeave : Prop :=
  ∀ (s : State) (h : Head) (o : AtomOp) (ty : Ty) (sc : Sc) (xs : Fin 4) (d a b c : Spec) (imm : BitVec 32) (f : Nat → Leaf),
    let act := s.active h
    let ls := s.runs h
    let x (L : Nat) (y : Spec) : Word := s.heldOpnd L y imm
    let ops (ys : List Spec) (L : Nat) : List (Spec × Word) := ys.map fun y => (y, x L y)
    let ea (L : Nat) : Word := x L a + (x L b <<< xs.val) + imm.signExtend 64
    let cc (L : Nat) : Word := s.opnd L a imm + s.opnd L b imm + imm.signExtend 64
    let plain (va : Nat → Word) (n : Nat) (L : Nat) : Prop :=
      s.tr (va L) = .ok (f L) ∧ (f L).r ∧ (f L).fmt = 0 ∧ (va L).toNat % n = 0
    let ask (req : Nat → Req) (ret : Nat → Option Ret) : List Ask :=
      ls.map fun L => ⟨L, (f L).key (ea L).toNat, req L, ret L⟩
    let ret (L : Nat) : Ret := (s.resultOf h L d (putAsOf ty)).shared s (sharers h act)
    let olds := s.oldsAfter sc act
    let watch (L : Nat) : Ret := ({ s.resultOf h L d .raw with finish := true } : Ret).shared s (sharers h act)
    let red := ask (fun L => .atom o ty (x L c) false) fun _ => none
    let atom := ask (fun L => .atom o ty (x L c) true) fun L => some (ret L)
    let cas := ask (fun L => .cas ty (x L d) (x L c)) fun L => some (ret L)
    let trails (i : Instr) (as : List Ask) : Prop :=
      ∃ t, exec i s = .next t ∧
        t = { s with warps := t.warps, net := t.net, serial := t.serial, leases := t.leases, olds := olds } ∧ s.LanesOnly t ∧
        (∀ L, t.cl L = if L ∈ act then
            { (s.cl L).moved with
              st := .waiting, pc := s.cur.pc
              wait := some { instr := i, word := s.cur.word, gang := s.cur.gang, serial := t.serial, phase := .trailing } }
          else if L ∈ s.gang then (s.cl L).moved else s.cl L) ∧
        Sends s t as []
    let atomI : Instr := .atom h o ty sc xs d a b c imm
    let casI : Instr := .cas h ty sc xs d a b c imm
    let redI : Instr := .red h o ty sc xs a b c imm
    (sc ≠ .thread → (¬∀ L ∈ act, s.Fenced sc L) →
      s.Waits atomI h .hold (ops [a, b, c]) ∧ s.Waits casI h .hold (ops [a, b, c, d]) ∧ s.Waits redI h .hold (ops [a, b, c])) ∧
    ((sc ≠ .thread → ∀ L ∈ act, s.Fenced sc L) → (∀ L ∈ ls, plain ea ty.size L ∧ (f L).w) →
      s.Issues redI red [] olds ∧
      (sc = .thread → s.Issues atomI atom [] ∧ s.Issues casI cas []) ∧
      (sc ≠ .thread → trails atomI atom ∧ trails casI cas)) ∧
    ((∀ L ∈ ls, plain cc 8 L) →
      ∃ t, exec (.ccwait h d a b c imm) s = .next t ∧
        t = { s with warps := t.warps, net := t.net, serial := t.serial, leases := t.leases } ∧
        s.LanesOnly t ∧
        (∀ L, t.cl L = if L ∈ act then
            let K := if h.u then act.headD 0 else L
            { s.cl L with
              st := .waiting
              wait := some { instr := .ccwait h d a b c imm, word := s.cur.word, gang := s.cur.gang, serial := s.cur.serial,
                             phase := .sent, dl := s.opnd L c imm, watch := some ((f K).key (cc K).toNat, watch K) } }
          else if L ∈ s.gang then (s.cl L).moved else s.cl L) ∧
        Sends s t (ls.map fun L => ⟨L, (f L).key (cc L).toNat, .monitor 8 0 true, some (watch L)⟩) [])

/-! ### Spawning, work graphs and cancellation -/

/-- R284 to R288, R290: SPAWN, SPAWNA and SPAWND create for each active lane, in ascending order, one child, one for each entry
of its list, or one for the donation pool; a child's header holds the target, the tag, the launch and the creator's FMODE, and
its words the list entry with its index and the argument block, then zeros up to the frame size; the launch's live threads and
its counted units grow. A list that overlaps the completion counter, which the count of one lane's children rewrites before the
next lane reads, is left out; the fields of a child that the spec does not give are the model's (log entry 32). -/
def Obligations.ChildrenAreSpawned : Prop :=
  ∀ (s : State) (h : Head) (a b c : Spec) (imm : BitVec 32) (f : Nat → Nat → Leaf) (g : Nat → Nat → Leaf),
    let act := s.active h
    let lau := s.launch s.cw.launch
    let frame := lau.r.frame
    let ctl (L : Nat) : Word := s.opnd L c 0
    let nreg (L : Nat) : Nat := ((ctl L).extractLsb' 0 4).toNat
    let count (L : Nat) : Nat := ((ctl L).extractLsb' 16 6).toNat
    let va (L : Nat) : Word := s.opnd L a 0
    let at' (L i : Nat) : Word := va L + BitVec.ofNat 64 (8 * i)
    let entry (L i : Nat) : Word := BitVec.ofNat 64 (s.natAt ((f L i).key (at' L i).toNat) 8)
    let block (L : Nat) : List Word :=
      match b with | .win k => (List.range (nreg L)).map fun i => (s.cl L).win (k.val + i) | _ => List.replicate (nreg L) 0
    let shape (L extra : Nat) : Prop :=
      4 ≤ frame ∧ nreg L ≤ 8 ∧ nreg L + extra ≤ frame ∧ ∀ k, b = .win k → k.val + nreg L ≤ 32
    let child (L : Nat) (pool : Option Nat) (kid : Nat × List Word) :
        Nat × Option Nat × List Word × BitVec 256 × Nat × Nat :=
      (kid.1, pool, (kid.2 ++ block L ++ List.replicate frame 0).take frame,
        NymphHdr.pack { tag := (ctl L).extractLsb' 8 8, launch := s.cw.launch, fm1 := frame - 1, fmode := (s.cl L).fmode,
                        pc := relTarget s.cur.pc imm }, (s.cl L).tid, s.cw.dom)
    let spawns (i : Instr) (pool : Option Nat) (kids : Nat → List (Nat × List Word)) : Prop :=
      let all := act.flatMap fun L => (kids L).map (child L pool)
      lau.roamers + all.length ≤ lau.r.maxlive → s.Once i fun t =>
        (∃ new, t.children = s.children ++ new ∧
          new.map (fun n => (n.dest, n.pool, n.words, n.hdr, n.parent, n.dom)) = all) ∧
        (t.launch s.cw.launch).roamers = lau.roamers + all.length ∧
        (t.launch s.cw.launch).units = lau.units + all.length ∧ (t.launch s.cw.launch).total = lau.total + all.length ∧
        t.mem = (act.foldl (fun u L => if kids L = [] then u else u.addUnits s.cw.launch (kids L).length) s).mem ∧
        t.net = s.net ∧ t.groups = s.groups ∧ t.scratch = s.scratch ∧ t.acc = s.acc
    ((∀ L ∈ act, shape L 0 ∧ s.trAny (va L) = .ok (g L 0) ∧ (g L 0).remote = false) →
      spawns (.spawn h a b c imm) none fun L => [(homeOf ((g L 0).key (va L).toNat), [])]) ∧
    ((∀ L ∈ act, shape L 2 ∧ count L ≤ 32 ∧ (va L).toNat % 8 = 0 ∧ ∀ i, i < count L →
        s.tr (at' L i) = .ok (f L i) ∧ (f L i).r ∧ (f L i).fmt = 0 ∧
        s.trAny (entry L i) = .ok (g L i) ∧ (g L i).remote = false ∧
        ∀ n, (s.addUnits s.cw.launch n).natAt ((f L i).key (at' L i).toNat) 8 = s.natAt ((f L i).key (at' L i).toNat) 8) →
      spawns (.spawna h a b c imm) none fun L => (List.range (count L)).map fun i =>
        (homeOf ((g L i).key (entry L i).toNat), [entry L i, BitVec.ofNat 64 i])) ∧
    ((∀ L ∈ act, shape L 0) → spawns (.spawnd h b c imm) (some (s.cw.core / 16)) fun _ => [(s.cw.core, [])])

/-- R287, R297: units added to a launch that is not fused and has one completion counter show in its completion counter at once: TOTAL and LIVE, with the two
highest bits clear; no other byte of memory changes.  R289, R294, R300: RECORD sends its registers to the node's home and waits;
CFLUSH sends a flush to the home of its address; CANCEL hands a live unit of its domain that is not yet cancelled to the front
end, once, and says in the predicate whether it was refused. -/
def Obligations.UnitsRecordsFlushesAndCancels : Prop :=
  (∀ (s : State) (k n : Nat) (f : Leaf),
    let l := s.launch k
    let va := l.r.cc.toNat
    l.splice = none → (l.ccaddr = 0 ∨ l.ccaddr = l.r.cc) → s.translate l.r.dom va = .ok f → f.w → f.fmt = 0 →
    let t := s.addUnits k n
    (t.launch k).units = l.units + n ∧ (t.launch k).total = l.total + n ∧
    t.natAt (f.key va) 8 = min (l.total + n) (2 ^ 30 - 1) * 2 ^ 32 + (l.units + n) % 2 ^ 32 ∧
    (∀ a, a < f.key va ∨ f.key va + 8 ≤ a → t.byteAt a = s.byteAt a) ∧ t.warps = s.warps ∧ t.net = s.net) ∧
  (∀ (s : State) (h : Head) (a : Spec) (k : Fin 32) (fl mt : Bool) (tag : BitVec 8) (p : Fin 8) (lvl : UnitLevel)
    (f : Nat → Leaf),
    let act := s.active h
    let ls := s.runs h
    let va (L : Nat) : Word := s.opnd L a 0
    let i : Instr := match lvl with
      | .launch => .cancelLaunch h p a | .graph => .cancelGraph h p a | .job => .cancelJob h p a
    let unit (L : Nat) : Option Nat := s.unitAt lvl s.cw.dom (va L)
    let taken (L u : Nat) : Prop :=
      unit L = some u ∧ s.unitCancelled lvl u = false ∧ ∀ K ∈ ls, K < L → unit K ≠ some u
    ((∀ L ∈ ls, s.tr (va L) = .ok (f L) ∧ (f L).r ∧ (f L).w ∧ (va L).toNat % 64 = 0) →
      ∃ t, exec (.record h a k fl) s = .next t ∧
        t = { s with warps := t.warps, net := t.net, serial := t.serial, leases := t.leases } ∧
        s.WaitsIn t (.record h a k fl) .sent (fun _ => 0) act (s.bystanders h) ∧
        Sends s t (ls.map fun L => ⟨L, (f L).key (va L).toNat,
          .record ((List.range (min 32 (s.frameSize s.cw) - k.val)).map fun j => (s.cl L).win (k.val + j)) fl (s.cl L).fmode,
            none⟩) []) ∧
    ((∀ L ∈ ls, s.trAny (va L) = .ok (f L)) → s.Once (.cflush h a mt tag) fun t =>
      t = { s with warps := t.warps, flushes := s.flushes ++ ls.map fun L =>
        (homeOf ((f L).key (va L).toNat), s.cw.launch, if mt then some tag else none) }) ∧
    ∃ t, exec i s = .next t ∧ t = { s with warps := t.warps, cancels := t.cancels } ∧ s.LanesOnly t ∧
      (∃ new, t.cancels = s.cancels ++ new ∧ new.Nodup ∧
        ∀ c, c ∈ new ↔ ∃ L ∈ ls, ∃ u, taken L u ∧ c = ⟨lvl, u⟩) ∧
      ∃ bit : Nat → Bool, (∀ L, bit L = false ↔ ∃ u, taken (if h.u then act.headD 0 else L) u) ∧ ∀ L, t.cl L =
        let l := if L ∈ act then (s.cl L).setPred (s.offsOf s.cw (s.cl L)) p (bit L) else s.cl L
        if L ∈ s.gang then l.moved else l)

/-! ### Engine commands -/

/-- R303, R304, R307, R338: PUSH with room in the engine's queue and in the context accepts a command of 64 bytes for each
active lane, or one for the issue from scalar registers; a tracked command takes the next number of its context, an untracked
one is a unit of the launch; the predicate's answer is 0. With the queue full nothing is accepted and the answer is 1.  R315,
R339, R340: RCFENCE drops the record copies of its domain at the core and at the cluster's dispatch engine once the guarded
lanes' earlier writes are applied, and waits until then; ENGQ answers the status of an operation, its progress, the tokens sent to a peer, or the free
entries of a queue. -/
def Obligations.CommandsArePushedAndQueried : Prop :=
  (∀ (s : State) (h : Head) (p : Fin 8) (a : Spec) (k : Option (Fin 16)) (e : EngineKind),
    let act := s.active h
    let g := s.cw.group
    let ctx (L : Nat) : Option Nat := k.map fun j => j.val + (s.offsOf s.cw (s.cl L)).t
    let items : List (Nat × Option Nat × List Word × List Nat) :=
      match a with
      | .win r => act.map fun L => (L, some L, (List.range 8).map (fun j => (s.cl L).win (r.val + j)), [(s.cl L).tid])
      | .sca r => (act.take 1).map fun L =>
          (L, none, (List.range 8).map (fun j => s.sreg L (r.val + j)), act.map fun K => (s.cl K).tid)
      | _ => []
    let size : Nat := match e with | .copy => 32 | .cond => 8 | .disp => 64
    let used := s.queueUsed e (if e = .disp then s.cw.core / 16 else s.cw.core)
    let answer (bit : Word) : List Answer := act.map fun L =>
      { ret := { wid := s.cur.wid, tid := (s.cl L).tid, lane := L, dst := s.dstOf L (.pred p), serial := s.cur.serial },
        vals := [bit] }
    let i : Instr := .push h p a k e
    ((∃ r, a = .win r) ∨ ∃ r, a = .sca r) →
    (size ≤ used → s.Once i fun t => t = { s with warps := t.warps, answers := s.answers ++ answer 1 }) ∧
    (used + items.length ≤ size → ∀ j, k.isSome → (∀ L ∈ act, ctx L = some j) →
      (s.unretired g j).length + ((s.group g).tls.get {} j).errq.length + items.length ≤ 16 →
      s.Once i fun t =>
        t = { s with warps := t.warps, groups := t.groups, cmds := t.cmds, serial := t.serial, answers := s.answers ++ answer 0 } ∧
        ∃ new, t.cmds = s.cmds ++ new ∧
          new.map (fun c => (c.engine, c.core, c.group, c.bytes, c.lane, c.writers, c.st)) = items.map (fun x =>
            (e, s.cw.core, g, x.2.2.1.flatMap (fun v => leBytes 8 v.toNat), x.2.1, x.2.2.2, CmdSt.queued)) ∧
          new.map (·.track) = (List.range items.length).map (fun n =>
            some (j, ((s.group g).tls.get {} j).issued + n + 1)) ∧
          ((t.group g).tls.get {} j).issued = ((s.group g).tls.get {} j).issued + items.length) ∧
    (used + items.length ≤ size → k = none → s.Once i fun t =>
      t.answers = s.answers ++ answer 0 ∧ t.groups = s.groups ∧ t.net = s.net ∧ t.scratch = s.scratch ∧ t.acc = s.acc ∧
      (t.launch s.cw.launch).units = (s.launch s.cw.launch).units + items.length ∧
      t.mem = (items.foldl (fun u _ => u.addUnits s.cw.launch 1) s).mem ∧
      ∃ new, t.cmds = s.cmds ++ new ∧
        new.map (fun c => (c.engine, c.core, c.group, c.bytes, c.lane, c.writers, c.st, c.track)) = items.map (fun x =>
          (e, s.cw.core, g, x.2.2.1.flatMap (fun v => leBytes 8 v.toNat), x.2.1, x.2.2.2, CmdSt.queued, none)))) ∧
  (∀ (s : State) (h : Head) (d b : Spec) (k peer : Fin 16) (sel : Fin 6),
    let ls := s.runs h
    let ctx (L : Nat) : Nat := k.val + (s.offsOf s.cw (s.cl L)).t
    let n (L : Nat) : Nat := (s.opnd L b 0).toNat
    let tl (L : Nat) : Timeline := (s.group s.cw.group).tls.get {} (ctx L)
    let op (L : Nat) : Option Cmd := (s.unretired s.cw.group (ctx L)).find? fun c => c.track = some (ctx L, n L)
    let failed (L : Nat) : Option TlErr := (tl L).errq.find? fun e => e.n = n L
    let value (L : Nat) : Nat :=
      match sel.val with
      | 0 =>
        if n L = 0 ∨ (tl L).issued < n L then 0
        else
          match op L with
          | some c => (match c.st with | .queued => 1 | .paused => 3 | _ => 2)
          | none => if (failed L).isSome then 4 else 5
      | 1 => match op L, failed L with | some c, _ => c.prog | none, some e => e.prog | none, none => 0
      | 2 => (match op L, failed L with | some c, _ => c.sent | none, some e => e.sent | none, none => []).get 0 peer.val
      | 3 => 32 - s.queueUsed .copy s.cw.core
      | 4 => 8 - s.queueUsed .cond s.cw.core
      | _ => 64 - s.queueUsed .disp (s.cw.core / 16)
    ((∃ L ∈ s.active h, s.writesOf (s.cl L).tid s.cur.serial = true) → s.Waits (.rcfence h) h .hold) ∧
    ((∀ L ∈ s.active h, s.writesOf (s.cl L).tid s.cur.serial = false) → s.active h ≠ [] →
      s.Once (.rcfence h) fun t => t = { s with warps := t.warps, recs := t.recs } ∧
        ∀ r, r ∈ t.recs ↔ r ∈ s.recs ∧
          ¬(r.dom = s.cw.dom ∧ r.unit = if r.engine = .disp then s.cw.core / 16 else s.cw.core)) ∧
    s.Issues (.engq h d k b sel peer) [] (ls.map fun L =>
      { ret := (s.resultOf h L d .raw).shared s (sharers h (s.active h)), vals := [BitVec.ofNat 64 (value L)] }))

/-! ### Matrix class -/

/-- R351, R355, R366, R369, R370, R373 to R375: in a workgroup that holds the partition's accumulator MLS copies a plane of the
half into the shadow, MSWAP exchanges the planes, MZA clears bytes of the accumulator and the unit's flags; MSTAT gives the
status word, the cursor or the gang word of the operation in progress, else of the first that waits, else of the last to end; MCOND, checked when it issues, waits for the condensing unit with its command as it then was, and attempted again
condenses in the scratchpad and gives the map. Each acts once for its gang.  R356, R357, R359, R360, R371, R372: MMA and MMAS that
pass checks 1 to 9 wait for their start, behind the operations of the unit that were issued before, on the operands they read; a
gang's operation waits until its convergence register is armed and what a release at cluster scope waits for has come, and then signs
it, or raises MATRIX_SHAPE 0x03 where the sign does not match. The form of the wait and its place in the unit are the model's (log
entries 26 and 35). -/
def Obligations.MatrixInstructions : Prop :=
  (∀ (s : State) (h : Head) (m : MatMode) (d a : Spec) (imm : BitVec 32) (sel : Fin 3) (r : Fin 64),
    let act := s.active h
    let L := act.headD 0
    let w := s.cw
    let id := 2 * w.core + w.part
    let unit := (s.part id).mat
    let x := s.opnd L a imm
    let held : Prop := act ≠ [] ∧ w.roaming = false ∧ (s.group w.group).acc = true
    let len := m.pb (wdWbb x)
    let at' := (x.extractLsb' 0 19).toNat
    let base := 262144 * (w.part % 2)
    let zeroAt := (x.extractLsb' 0 17).toNat
    let zeroLen := (x.extractLsb' 32 18).toNat
    let others (t : State) : Prop := ∀ p, p ≠ id → t.part p = s.part p
    let unitIs (t : State) (u : MatUnit) : Prop := t.part id = { s.part id with mat := u }
    let dst := match d with | .win _ => act | _ => act.take 1
    let words (K : Nat) : List (Spec × Word) := (List.range 8).map fun i =>
      let y : Spec := .sca (Fin.ofNat 64 (r.val + i)); (y, s.heldOpnd K y 0)
    let cond := parseCondense ((words L).flatMap fun y => leBytes 8 y.2.toNat)
    (held → x.extractLsb' 31 33 = 0 → x.extractLsb' 24 7 = 0 → x.extractLsb' 19 3 = 0 → m.codeOk (wdWbb x) = true →
      at' % 64 = 0 → base ≤ at' → at' + len ≤ base + 262144 →
      s.Once (.mls h m a imm) fun t =>
        t = { s with warps := t.warps, parts := t.parts, launches := (s.charge w.launch ((len + 511) / 512) s.cur.origin (s.cl L).sup).launches } ∧
        others t ∧ ∃ plane : Plane, unitIs t { unit with shadow := plane } ∧ plane.mode = some m ∧ plane.bwCode = wdWbb x ∧
          ∀ i, i < len → plane.bytes.get 0 i = s.wbuf.get unwritten (w.core * 2 ^ 19 + at' + i)) ∧
    (held → s.Once (.mswap h) fun t => t = { s with warps := t.warps, parts := t.parts } ∧ others t ∧
      unitIs t { unit with active := unit.shadow, shadow := unit.active }) ∧
    (held → x.extractLsb' 50 14 = 0 → x.extractLsb' 17 15 = 0 → zeroLen % 8 = 0 → zeroLen ≠ 0 → zeroAt % 8 = 0 →
      zeroAt + zeroLen ≤ 131072 →
      s.Once (.mza h a imm) fun t =>
        t = { s with warps := t.warps, parts := t.parts, acc := t.acc, launches := (s.charge w.launch ((zeroLen + 255) / 256) s.cur.origin (s.cl L).sup).launches } ∧
        others t ∧ unitIs t { unit with mflags := 0 } ∧
        ∀ k, t.acc.get unwritten k =
          if id * 2 ^ 17 + zeroAt ≤ k ∧ k < id * 2 ^ 17 + zeroAt + zeroLen then 0 else s.acc.get unwritten k) ∧
    (∃ t, exec (.mstat h d sel) s = .next t ∧ t = { s with warps := t.warps, groups := t.groups } ∧
      let mode (p : Plane) : Nat := match p.mode with
        | none => 0 | some .f64 => 8 | some .f32 => 9 | some .f16 => 10 | some .bf16 => 11 | some (.bfp k) => 0x11 + k.val
      let shown : Nat × MatOp := match unit.st, unit.waiting with
        | .running, _ => (2, unit.op) | .paused, _ => (3, unit.op) | _, o :: _ => (1, o) | .none, [] => (0, unit.op)
        | .waiting, [] => (1, unit.op) | .complete, [] => (4, unit.op) | .aborted, [] => (5, unit.op)
      let o := shown.2
      let narrow : Nat := s.host.narrow.toNat * 2 ^ 7
      let value : Nat :=
        if w.roaming = false ∧ (s.group w.group).acc = true then
          (match sel.val with
          | 0 => o.steps * 2 ^ 56 + o.scans * 2 ^ 48 + o.skips * 2 ^ 40 + unit.mflags.toNat * 2 ^ 24 + mode unit.shadow * 2 ^ 16 +
              mode unit.active * 2 ^ 8 + narrow + o.narrowed.toNat * 2 ^ 6 + shown.1
          | 1 => (if o.sparse then o.pass else 0) * 2 ^ 16 + o.row
          | _ => if o.cv = none then 0 else o.tag.toNat * 2 ^ 32 + o.members.toNat)
        else if sel.val = 0 then narrow else 0
      let v : Eff := { d := some (BitVec.ofNat 64 value) }
      (∀ j, j ≠ s.cur.wid → t.warp j = s.warp j) ∧
      t.cw = { w with lanes := t.cw.lanes, sregs := s.scaAfter d dst fun _ => v } ∧
      (∀ g, t.group g = if g = w.group then { s.group g with gregs := s.grpAfter d dst fun _ => v } else s.group g) ∧
      ∀ K, t.cl K = let l := if K ∈ dst then (s.cl K).putWin d v else s.cl K; if K ∈ s.gang then l.moved else l) ∧
    (∀ c, act ≠ [] → cond = some c → c.inside (s.scratchRange w (s.originOf L)) = true →
      (s.cur.retry = false → s.Waits (.mcond h d r) h .hold words) ∧
      (s.cur.retry = true → ∃ t, exec (.mcond h d r) s = .next t ∧
        t = { s with warps := t.warps, groups := t.groups, scratch := (s.condRun w.core c).1.scratch,
                     draws := s.draws + 1, launches := t.launches } ∧
        let kept := (List.range c.npass).filter fun j =>
          c.keep / 2 ^ j % 2 = 1 ∨ ∃ row ∈ List.range c.rows, s.condNonzero w.core c j row = true
        let v : Eff := { d := some (BitVec.ofNat 64 (kept.foldl (fun x j => x + 2 ^ j) 0)) }
        t.cw = { w with lanes := t.cw.lanes, sregs := s.scaAfter d dst fun _ => v } ∧
        ∀ K, t.cl K = let l := if K ∈ dst then (s.cl K).putWin d v else s.cl K; if K ∈ s.gang then l.moved else l))) ∧
  (∀ (s : State) (h : Head) (m : MatMode) (k : Fin 64) (cv : Option (Fin 16)) (a c : Spec) (imm : BitVec 32) (sparse : Bool),
    let act := s.active h
    let L := act.headD 0
    let i : Instr := if sparse then .mmas h m k cv a c imm else .mma h m cv a c imm
    let acc := s.opnd L c imm
    let o : MatOp :=
      { serial := s.cur.serial, word := s.cur.word, mode := m, sparse := sparse, wid := s.cur.wid, group := s.cw.group,
        launch := s.cw.launch, cv := cv.map (·.val), act := s.opnd L a imm, accd := acc,
        tag := if cv.isSome then acc.extractLsb' 32 32 else 0,
        amap := if sparse then s.sreg L k.val else 0, wmap := if sparse then s.sreg L (k.val + 1) else 0,
        wd := if sparse then s.sreg L (k.val + 2) else 0, origin := s.cur.origin, sup := (s.cl L).sup }
    let p := 2 * s.cw.core + s.cw.part
    let unit := (s.part p).mat
    let before : Option MatOp := if s.cur.retry then unit.waiting.find? (fun x => decide (x.serial = s.cur.serial)) else none
    let mine : MatOp := before.getD o
    let queue (x : MatOp) : List MatOp :=
      if unit.waiting.any (fun y => decide (y.serial = x.serial)) then
        unit.waiting.map (fun y => if decide (y.serial = x.serial) = true then x else y)
      else unit.waiting ++ [x]
    let queued (t : State) (x : MatOp) : Prop :=
      (t.part p).mat = { unit with waiting := queue x } ∧ ∀ q, q ≠ p → t.part q = s.part q
    let reg (j : Nat) : CvReg := s.cv (16 * (s.cw.core / 16) + j)
    let accepted (j : Nat) : Prop :=
      (reg j).dom = s.cw.dom ∧ (reg j).tag = mine.accd.extractLsb' 32 32 ∧
      (reg j).members.getLsbD (2 * (s.cw.core % 16) + s.cw.part) = true
    act ≠ [] → (before = none → firstFail (s.matChecks L o) = none) →
      (mine.cv = none → ∃ t, exec i s = .next t ∧ t = { s with warps := t.warps, parts := t.parts } ∧ queued t mine ∧
        s.WaitsIn t i .sent (fun _ => 0) act (s.bystanders h)) ∧
      (∀ j, mine.cv = some j → ((reg j).armed = false ∨ ¬s.Released) →
        ∃ t, exec i s = .next t ∧ t = { s with warps := t.warps, parts := t.parts } ∧ queued t { mine with signed := false } ∧
        s.WaitsIn t i .hold (fun _ => 0) act (s.bystanders h)) ∧
      (∀ j, mine.cv = some j → (reg j).armed = true → s.Released → ¬accepted j → (∀ L ∈ act, (s.cl L).handler = false) →
        ∃ t, exec i s = .next t ∧
          State.TrapsAs { s with parts := t.parts } t act (s.bystanders h) { cause := 0x0F, sub := 0x03 } ∧
          (t.part p).mat.waiting = unit.waiting.filter (fun y => y.serial ≠ mine.serial) ∧ ∀ q, q ≠ p → t.part q = s.part q) ∧
      (∀ j, mine.cv = some j → (reg j).armed = true → s.Released → accepted j →
        ∃ t, exec i s = .next t ∧ queued t { mine with signed := true } ∧ ∀ K, t.cl K =
          if K ∈ act then
            { s.cl K with
              st := .waiting
              wait := some { instr := i, word := s.cur.word, gang := s.cur.gang, serial := s.cur.serial, phase := .sent } }
          else if K ∈ s.bystanders h then (s.cl K).moved else s.cl K))

/-! ### Launch and time class -/

/-- R28, R403 to R407: LAUNCH hands a readable record to the front end and LSTAT a question, and their lanes wait; TIME gives
one value to the whole gang, the local time or a later one that a thread has read; SLEEP waits until the local time reaches its
deadline; BUDGET gives what is left, free over the charges of the last 427 ns (log entry 31), and 0 in a demoted launch. -/
def Obligations.LaunchAndTime : Prop :=
  ∀ (s : State) (h : Head) (d a : Spec) (imm : BitVec 32) (sel : Fin 4) (f g : Nat → Leaf),
    let act := s.active h
    let ls := s.runs h
    let va (L : Nat) : Word := s.opnd L a 0
    let now := s.localTime s.cw.core
    let latest : Nat := act.foldl (fun m L => max m (s.cl L).tlast.toNat) now
    let asleep := act.filter fun L => now < (s.opnd L a imm).toNat
    let lau := s.launch s.cw.launch
    let ret (L : Nat) : Ret := ({ s.resultOf h L d .raw with finish := true } : Ret).shared s (sharers h act)
    ((∀ L ∈ ls, (va L).toNat % 128 = 0 ∧ s.tr (va L) = .ok (f L) ∧ (f L).r ∧ (f L).fmt = 0 ∧
        s.tr (va L + 64) = .ok (g L) ∧ (g L).r ∧ (g L).fmt = 0) →
      ∃ t, exec (.launch h d a) s = .next t ∧ t = { s with warps := t.warps, subs := t.subs, serial := s.serial + ls.length } ∧
        s.WaitsIn t (.launch h d a) .sent (fun _ => 0) act (s.bystanders h) ∧
        ∃ new, t.subs = s.subs ++ new ∧ new.length = ls.length ∧ ∀ n (hn : n < ls.length) x, new[n]? = some x →
          x.dom = s.cw.dom ∧ ∃ cm sq su gr jb, x.route =
            .thread (ret ls[n]) (va ls[n]) s.cw.core s.cw.launch cm sq su gr jb) ∧
    (∃ t, exec (.time h d) s = .next t ∧ t.draws = s.draws + 1 ∧ now ≤ latest ∧ (∀ L ∈ act, (s.cl L).tlast.toNat ≤ latest) ∧
      AluPost (s.updLanes s.cur.wid act fun l => { l with tlast := BitVec.ofNat 64 latest }) { t with draws := s.draws } h d
        (fun _ => { d := some (BitVec.ofNat 64 latest) }) (fun _ => {})) ∧
    (∃ t, exec (.sleep h a imm) s = .next t ∧ t = { s with warps := t.warps, draws := s.draws + 1 } ∧
      s.WaitsIn t (.sleep h a imm) .sent (fun L => s.opnd L a imm) asleep (s.gang.filter (· ∉ asleep))) ∧
    (∃ (t : State) (v out : Nat), exec (.budget h d) s = .next t ∧
      AluPost s { t with draws := s.draws } h d (fun _ => { d := some (BitVec.ofNat 64 v) }) (fun _ => {}) ∧
      out ≤ ((lau.recent.filter fun r => s.now < r.1 + 427).map (·.2)).sum ∧
      v = if lau.st = .demoted then 0 else lau.budget - (lau.charges - out)) ∧
    ∃ t, exec (.lstat h d a sel) s = .next t ∧ t = { s with warps := t.warps, lstats := t.lstats } ∧
      s.WaitsIn t (.lstat h d a sel) .sent (fun _ => 0) act (s.bystanders h) ∧
      t.lstats = s.lstats ++ ls.map fun L =>
        { ret := ret L, dom := s.cw.dom, index := ((va L).extractLsb' 0 12).toNat, sel := sel.val }

/-! ### Traps and the system class -/

/-- R249, R252, R256, R269: TRAP and BRK of lanes in user mode leave as a fragment with SOFTWARE 0x01 or 0x02 and the code in INFO0;
of lanes of one fragment in its handler they are a DOUBLE_FAULT 0x01: the lanes exit, and a report of 256 bytes goes to the
supervisor report queue, with the fragment's frame as it stands in memory, and the failing event. -/
def Obligations.SoftwareTraps : Prop :=
  (∀ (s : State) (h : Head) (code : BitVec 32), s.active h ≠ [] → (∀ L ∈ s.active h, (s.cl L).handler = false) →
    let e (sub : BitVec 8) : Event := { cause := 0x0D, sub := sub, info0 := code.setWidth 64 }
    (∃ t, exec (.trap h code) s = .next t ∧ s.TrapsAs t (s.active h) (s.bystanders h) (e 0x01)) ∧
    (∃ t, exec (.brk h code) s = .next t ∧ s.TrapsAs t (s.active h) (s.bystanders h) (e 0x02))) ∧
  (∀ (s : State) (h : Head) (code : BitVec 32), s.active h = [] →
    (∃ t, exec (.trap h code) s = .next t ∧ s.MovesOn t s.gang) ∧ (∃ t, exec (.brk h code) s = .next t ∧ s.MovesOn t s.gang)) ∧
  (∀ (s : State) (h : Head) (code : BitVec 32) (f : Frag) (leaf : Leaf) (brk : Bool),
    let act := s.active h
    let va := s.frameVa s.cur.wid f.slot.toNat
    let i : Instr := if brk then .brk h code else .trap h code
    act ≠ [] → (∀ L ∈ act, (s.cl L).handler = true ∧ (s.cl L).st ≠ .exited ∧ (s.cl L).frag = f.id) →
    s.cw.frags.find? (fun x => x.id = f.id) = some f → s.walk s.cw.dom va = .ok leaf →
    ∃ t, exec i s = .next t ∧ (∀ L ∈ act, (t.cl L).st = .exited) ∧
      s.Reports t s.cw.dom (s.bytesAt (leaf.key va) 128) 0x01 (0x0D * 256 + if brk then 2 else 1) (s.eventFields 0))

/-- R249, R254, R255, R256, R270, R425: RETT of lanes of one fragment in its handler gives them MODE 1 and no level, frees the frame
slot with the last of them, and resumes at the word 0x50 bytes into the frame; a lane that goes elsewhere drops the BAR.HOLD that it
abandoned; lanes for which OVERRUN is held leave at once as a fragment of it, with the returning one as its parent. A RESUME that is
no instruction slot is a DOUBLE_FAULT 0x05. At supervisor level, with 3 in the frame's ORIGIN, RETT also asks for a fused launch whose
parts are retained to be unspliced. RETT in user mode raises PROTECTION 0x05. -/
def Obligations.ReturnFromHandler : Prop :=
  ∀ (s : State) (h : Head) (f : Frag) (leaf : Leaf) (pc : Word),
    let act := s.active h
    let frame := s.frameVa s.cur.wid f.slot.toNat
    let left := f.lanes &&& ~~~(maskOf act)
    act ≠ [] →
    let gone : Prop := (∀ L ∈ act, (s.cl L).handler = true ∧ (s.cl L).st ≠ .exited ∧ (s.cl L).frag = f.id) ∧
      s.cw.frags.find? (fun x => x.id = f.id) = some f ∧ s.tr (BitVec.ofNat 64 (frame + 0x50)) = .ok leaf ∧
      pc = BitVec.ofNat 64 (s.natAt (leaf.key (frame + 0x50)) 8) ∧ s.Unarrived s.cur.wid
    let slotted : Prop := pc.extractLsb' 3 3 = 0 ∧ (pc.extractLsb' 0 3).toNat ≤ 4
    let kept : List Frag := if left = 0 then s.cw.frags.filter (fun x => x.id ≠ f.id)
      else s.cw.frags.map (fun x => if x.id = f.id then { x with lanes := x.lanes &&& ~~~(maskOf act) } else x)
    let lau := s.launch s.cw.launch
    (gone → slotted → (∀ L ∈ act, (s.cl L).heldOverrun = false) → lau.splice = none →
      ∃ t, exec (.rett h) s = .next t ∧ t = { s with warps := t.warps } ∧ (∀ k, k ≠ s.cur.wid → t.warp k = s.warp k) ∧
        t.cw = { s.cw with
          lanes := t.cw.lanes
          frags := kept
          slots := if left = 0 then s.cw.slots &&& ~~~(BitVec.ofNat 32 (2 ^ f.slot.toNat)) else s.cw.slots } ∧
        ∀ L, t.cl L =
          if L ∈ act then
            { s.cl L with
              handler := false, sup := false, frag := 0, fslot := 0, pc := pc, st := .ready
              abandoned := (s.cl L).abandoned.filter (fun a => decide (a.pc = pc)) }
          else if L ∈ s.gang then (s.cl L).moved else s.cl L) ∧
    (gone → slotted → (∀ L ∈ act, (s.cl L).heldOverrun = true) → lau.splice = none →
      ∃ t x, exec (.rett h) s = .next t ∧ t.cw.frags = kept ++ [x] ∧ x.lanes = maskOf act ∧ x.parent = f.id ∧ x.st = .pending ∧
        x.ev = { cause := 0x0E, sub := 0x01, info0 := BitVec.ofNat 64 lau.charges, info1 := BitVec.ofNat 64 lau.budget } ∧
        x.resume = pc ∧ ∀ L ∈ act, (t.cl L).st = .entering ∧ (t.cl L).frag = x.id ∧ (t.cl L).pc = pc ∧
          (t.cl L).handler = false ∧ (t.cl L).heldOverrun = false) ∧
    (gone → ¬slotted → ∀ a, s.walk s.cw.dom frame = .ok a →
      ∃ t, exec (.rett h) s = .next t ∧ (∀ L ∈ act, (t.cl L).st = .exited) ∧
        s.Reports t s.cw.dom (s.bytesAt (a.key frame) 128) 0x05 0 (s.eventFields pc)) ∧
    (∀ p, gone → slotted → (∀ L ∈ act, (s.cl L).sup = true ∧ (s.cl L).heldOverrun = false) → lau.splice = some p →
      f.origin = 0 → s.natAt (leaf.key (frame + 0x50) - 0x4D) 1 = 3 → frame % 128 = 0 → p.retained = true → p.unsplicing = false →
      s.freeIndex.isSome → s.cw.launch ∉ s.unsplices →
      ∃ t, exec (.rett h) s = .next t ∧ t.unsplices = s.unsplices ++ [s.cw.launch] ∧
        (t.launch s.cw.launch).splice = some { p with unsplicing := true } ∧ ∀ L ∈ act, (t.cl L).pc = pc) ∧
    ((∀ L ∈ act, (s.cl L).handler = false) → s.Traps (.rett h) h { cause := 0x07, sub := 0x05 })

/-- R111, R112, R140, R192, R195, R225, R226, R272: KRD reads and KWR writes the registers of the table by their numbers: a
write of FMODE with a reserved rounding code stores RNE, one of FSTAT its five bits, one of a circular buffer leaves and is
waited for; other registers ignore a write.  R271, R274: TLBINV of lanes at supervisor level waits until its invalidation is
complete; TRACE appends one record of 32 bytes for the issue to its domain's trace, or counts it as lost where the trace is
full.  R436: a run of the trace drain whose time has come moves every record to a TQ with room, oldest first, and counts them as
lost where TQ is absent. -/
def Obligations.KernelRegistersInvalidationAndTrace : Prop :=
  (∀ (s : State) (h : Head) (d a : Spec) (reg : BitVec 16) (v : Nat → Word),
    let act := s.active h
    let ls := s.runs h
    let n := reg.toNat
    let buf (L j : Nat) : CBuf :=
      if s.cw.roaming then {} else (s.group s.cw.group).cbufs.get {} (j + (s.offsOf s.cw (s.cl L)).c)
    let holds (L : Nat) (x : Word) : Prop :=
      let l := s.cl L
      let range := s.scratchRange s.cw (s.originOf L)
      (n = 0x01 ∧ l.sup = true ∧ x = devident) ∨
      (n = 0x02 ∧ x = BitVec.ofNat 64 (s.cw.dom * 2 ^ 12 + s.cw.launch)) ∨
      (n = 0x10 ∧ x = l.fmode.setWidth 64) ∨ (n = 0x11 ∧ x = l.fstat.setWidth 64) ∨ (n = 0x12 ∧ x = l.wsp) ∨
      (n = 0x13 ∧ x = l.depth ++ 0#19 ++ BitVec.ofBool l.defer ++ BitVec.ofBool (!l.handler) ++ 0#1 ++ l.resf ++ 0#2 ++ l.wb) ∨
      (n = 0x14 ∧ x = BitVec.ofNat 64 (range.2 * 2 ^ 32 + range.1)) ∨
      (0x20 ≤ n ∧ n ≤ 0x27 ∧ x = (let b := buf L (n - 0x20); BitVec.ofNat 64 (b.nslots * 2 ^ 52 + b.slotb * 2 ^ 32 + b.base))) ∨
      (0x28 ≤ n ∧ n ≤ 0x2F ∧ x = (let b := buf L (n - 0x28)
        BitVec.ofNat 64 (b.free * 2 ^ 48 + b.filled * 2 ^ 36 + b.taken * 2 ^ 24 + b.head * 2 ^ 12 + b.tail))) ∨
      (n = 0x30 ∧ x = BitVec.ofNat 64 ((if s.host.skewFault then 2 ^ 63 else 0) + s.host.epsx.toNat)) ∨
      (n = 0x31 ∧ x = l.cmaxs) ∨ (n = 0x40 ∧ x = (s.domain s.cw.dom).trlost.setWidth 64)
    let from' (L : Nat) : Word := s.opnd (if h.u then act.headD 0 else L) a 0
    (∀ L ∈ ls, holds L (v L)) →
      s.Issues (.krd h d reg) [] (ls.map fun L => { ret := (s.resultOf h L d .raw).shared s (sharers h act), vals := [v L] }) ∧
      (¬(0x20 ≤ n ∧ n ≤ 0x27) → s.Transfers (.kwr h a reg) act fun L =>
        let x := from' L
        if n = 0x10 then { (s.cl L).moved with
            fmode := x.extractLsb' 3 1 ++ (if (x.extractLsb' 0 3).toNat ≤ 4 then x.extractLsb' 0 3 else 0) }
        else if n = 0x11 then { (s.cl L).moved with fstat := x.extractLsb' 0 5 }
        else if n = 0x12 then { (s.cl L).moved with wsp := x }
        else (s.cl L).moved) ∧
      (0x20 ≤ n → n ≤ 0x27 → ∃ t, exec (.kwr h a reg) s = .next t ∧ t = { s with warps := t.warps, cbWrites := t.cbWrites } ∧
        s.WaitsIn t (.kwr h a reg) .sent (fun _ => 0) act (s.bystanders h) ∧
        t.cbWrites = s.cbWrites ++ ls.map fun L =>
          (({ wid := s.cur.wid, tid := (s.cl L).tid, lane := L, dst := .none, finish := true, serial := s.cur.serial } : Ret).shared
              s (sharers h act),
            n - 0x20 + (s.offsOf s.cw (s.cl L)).c, s.opnd L a 0))) ∧
  (∀ (s : State) (h : Head) (sc : Sc) (a : Spec) (whole : Bool) (imm : BitVec 32),
    let act := s.active h
    let w := s.cw
    let L := act.headD 0
    let dom := s.domain w.dom
    let last : BitVec 64 := (maskOf act) ++ BitVec.ofNat 12 w.launch ++ BitVec.ofNat 9 w.core ++ BitVec.ofNat 1 w.part ++
      BitVec.ofNat 5 w.slot ++ BitVec.ofBool (!(s.cl L).handler) ++ 0#4
    act ≠ [] →
    ((∀ L ∈ act, (s.cl L).sup = true) → ∃ t, exec (.tlbinv h sc a whole) s = .next t ∧ t = { s with warps := t.warps } ∧
      s.WaitsIn t (.tlbinv h sc a whole) .sent (fun L => s.opnd L a 0) act (s.bystanders h)) ∧
    (w.launch < 2 ^ 12 → w.core < 2 ^ 9 → w.part < 2 → w.slot < 2 ^ 5 → s.Once (.trace h a imm) fun t =>
      t = { s with warps := t.warps, domains := t.domains } ∧ (∀ k, k ≠ w.dom → t.domain k = s.domain k) ∧
      t.domain w.dom = if dom.trace.length < 4096 then
          { dom with trace := dom.trace ++ [leBytes 8 (s.localTime w.core) ++ leBytes 8 s.cur.pc.toNat ++
              leBytes 8 (s.opnd L a imm).toNat ++ leBytes 8 last.toNat] }
        else { dom with trlost := if dom.trlost = BitVec.allOnes 32 then dom.trlost else dom.trlost + 1 })) ∧
  (∀ (s : State) (dom : Nat),
    let h := s.host
    let d := s.domain dom
    let g := d.rings.get {} 6
    let runs := h.drains.get 0 dom
    h.activities = true → h.runAt + 100000 * runs ≤ s.feTime →
    (g.present = false → ∃ t, exec (.traceDrain dom) s = .next t ∧ t.domain dom = { d with
      trace := [], trlost := BitVec.ofNat 32 (min (d.trlost.toNat + d.trace.length) (2 ^ 32 - 1)) }) ∧
    (g.present = true → d.trace.length ≤ 4096 → (g.tail - g.head).toNat + d.trace.length ≤ 2 ^ (g.base.extractLsb' 0 5).toNat →
      ∃ t, exec (.traceDrain dom) s = .next t ∧ (t.domain dom).trace = [] ∧
        (t.domain dom).rings.get {} 6 = { g with tail := g.tail + BitVec.ofNat 32 d.trace.length } ∧
        t.host.drains.get 0 dom = runs + 1 ∧ ((∀ e ∈ d.trace, e.length = 32) → ∀ i e, d.trace[i]? = some e →
          t.hostMem.getN unwritten (d.bus * 2 ^ 64 + g.entryAddr 6 (g.tail + BitVec.ofNat 32 i)) 32 = e)))

/-- R257, R273: HALT of lanes in user mode whose frame can be written parks them as one fragment, their PC unchanged, with the
lowest free slot: the frame of R249 with CAUSE 0, SUB 0, ENTRY 3 and RESUME at the next PC stands in that slot, no other byte of memory
changes, and a record of kind 3 reaches the host; HALT in a handler parks the lanes in the fragment they are in, and the record names
that fragment's frame. -/
def Obligations.HaltParks : Prop :=
  ∀ (s : State) (h : Head),
    let act := s.active h
    let w := s.cw
    let slot := freeSlot w.slots
    let va := s.frameVa s.cur.wid slot.toNat
    let now : Word := BitVec.ofNat 64 (s.localTime w.core)
    let f : Frag :=
      { id := freshId (w.frags.map (·.id)) 33 w.fragctr, lanes := maskOf act, sib := 0, parent := 0, slot := slot, st := .parked,
        ev := { cause := 0, sub := 0, kind := 3 }, entry := 3, origin := s.cur.origin, word := s.cur.word, pc := s.cur.pc,
        origpc := s.cur.origpc, iter := if s.cur.origin = 0 then 0 else (s.cl (act.headD 0)).regs.get 0 63, time := now,
        resume := nextPc s.cur.origpc, serial := s.cur.serial }
    let told (t : State) (addr : Word) (frame : Nat) : Prop :=
      ∃ e, e.length = 64 ∧ s.Posted t w.dom 4 e ∧
        holdFields e [(0, 8, addr.toNat), (8, 8, frame), (16, 8, s.cur.pc.toNat), (24, 8, now.toNat),
          (32, 8, ((maskOf act).toNat * 2 ^ 32 + w.dom * 2 ^ 25 + w.launch * 2 ^ 13 + 3 * 2 ^ 10) % 2 ^ 64),
          (40, 4, w.whereWord), (44, 20, 0)]
    act ≠ [] →
    (∀ a : Leaf, (∀ L ∈ act, (s.cl L).handler = false) → (w.roaming = true → (s.domain w.dom).rsave ≠ 0) →
      s.translate w.dom va = .ok a → a.w = true → a.fmt = 0 → va % 128 = 0 →
      ∃ t, exec (.halt h) s = .next t ∧ t.net = s.net ∧ t.scratch = s.scratch ∧ t.acc = s.acc ∧ t.groups = s.groups ∧
        t.launches = s.launches ∧ t.cw.frags = w.frags ++ [f] ∧ s.FrameAt t (a.key va) (f.fields w 3) ∧ told t 0 va ∧
        ∀ L, { t.cl L with cmaxp := (s.cl L).cmaxp, cmaxs := (s.cl L).cmaxs } =
          if L ∈ act then { s.cl L with st := .parked, frag := f.id, fslot := slot, wait := none }
          else if L ∈ s.gang then (s.cl L).moved else s.cl L) ∧
    (∀ g, (∀ L ∈ act, (s.cl L).handler = true ∧ (s.cl L).frag = g.id) → s.cw.frags.find? (fun x => x.id = g.id) = some g →
      ∃ t, exec (.halt h) s = .next t ∧ t.mem = s.mem ∧ t.net = s.net ∧ t.cw.frags = w.frags ∧
        told t g.ev.addr (s.frameVa s.cur.wid g.slot.toNat) ∧
        ∀ L, t.cl L = if L ∈ act then { s.cl L with st := .parked }
          else if L ∈ s.gang then (s.cl L).moved else s.cl L)

/-- R261, R262, R275, R276: CTXSAVE of lanes at supervisor level sends bytes 0x1000 to 0x5FFF of the warp's record, its lanes
already moved on, as 320 stores of a line; CTXREST of a record that fails its checks says so in the predicate and changes
nothing else; one that passes gives every lane the registers, the PC and the window of its record.  What it takes beyond the
record's own fields is log entry 46. -/
def Obligations.ContextSaveAndRestore : Prop :=
  ∀ (s : State) (h : Head) (p : Fin 8) (a : Spec) (imm : BitVec 32) (f : Nat → Leaf),
    let act := s.active h
    let x := s.opnd (act.headD 0) a imm
    let at' (i : Nat) : Word := x + BitVec.ofNat 64 (0x1000 + 64 * i)
    let rec' : List Byte := (List.range 320).flatMap fun i => s.bytesAt ((f i).key (at' i).toNat) 64
    let good : Prop := recordOk rec' s.cw.dom s.cw.launch = true ∧ recPending rec' = 0 ∧ ∀ L, L < 32 → laneOk rec' L = true
    act ≠ [] → (∀ L ∈ act, (s.cl L).sup = true) → (∀ L ∈ s.gang, (s.cl L).st ≠ .exited) → x.toNat % 64 = 0 →
    ((∀ i, i < 320 → s.tr (at' i) = .ok (f i) ∧ (f i).w ∧ (f i).fmt = 0) →
      ∃ t, exec (.ctxsave h a imm) s = .next t ∧
        t = { s with warps := t.warps, net := t.net, serial := t.serial, leases := t.leases } ∧ s.MovesOn t s.gang ∧
        Sends s t ((List.range 320).map fun i => ⟨act.headD 0, (f i).key (at' i).toNat,
          .write (((t.cw.record 0).drop (64 * i)).take 64) none, none⟩) []) ∧
    ((∀ i, i < 320 → s.tr (at' i) = .ok (f i) ∧ (f i).r ∧ (f i).fmt = 0) →
      (¬good → s.Transfers (.ctxrest h p a imm) act fun L =>
        ((s.cl L).setPred (s.offsOf s.cw (s.cl L)) p true).moved) ∧
      (good → (∀ L, (s.cl L).st = .exited ∨ recField rec' (0x1000 + 64 * L + 0x28) 4 % 4 ≠ 3) → (∀ L, 32 ≤ L → (s.cl L).st = .exited) →
        (s.cw.roaming = true ∨ s.cur.wid ∈ (s.group s.cw.group).warps) →
        ∃ t, exec (.ctxrest h p a imm) s = .next t ∧ ((∀ L, (s.cl L).wait = none) → t.net = s.net) ∧ t.mem = s.mem ∧
          ∀ L, (s.cl L).st ≠ .exited →
            (t.cl L).pc = BitVec.ofNat 64 (recField rec' (0x1000 + 64 * L) 8) ∧
            (t.cl L).wsp = BitVec.ofNat 64 (recField rec' (0x1008 + 64 * L) 8) ∧
            (t.cl L).wb = BitVec.ofNat 6 (recField rec' (0x1020 + 64 * L) 8) ∧ (t.cl L).st = .ready ∧
            (∀ j, j < 64 → (t.cl L).regs.get 0 j = BitVec.ofNat 64 (recField rec' (0x2000 + 512 * L + 8 * j) 8)) ∧
            (∀ j, j < 64 → t.cw.sregs.get 0 j = BitVec.ofNat 64 (recField rec' (0x1800 + 8 * j) 8))))

/-! ### Answers, homes and translation -/

/-- R55, R82, R104, R133, R159, R224, R226: the answer of an instruction is written to the register it names, put as the type
says, in its thread's lane wherever the thread stands in a warp, and its flags are ORed into the lanes of the threads that share
it; the last answer of a waiting instruction moves its lanes on, WFILL taking the filled frame; R9, R11: an answer for a scalar or
group-shared register waits for the higher lanes of its decoding load; a completion time raises CMAXS, and CMAXP where the line is
homed in the package. -/
def Obligations.ResultsAreWritten : Prop :=
  ∀ (s : State) (k : Nat) (a : Answer) (c : CTime) (wid L : Nat),
    let r := a.ret
    let v0 := a.vals.headD 0
    let word : Word :=
      match r.put with
      | .raw => v0
      | .int ty => ty.fit v0
      | p => p.apply v0
    let put (l : Lane) : Lane :=
      match r.dst with
      | .phys j => { l with regs := l.regs.set 0 j word }
      | .block j n => { l with regs := (List.range n).foldl (fun t i => t.set 0 ((j + i) % 64) (a.vals.getD i 0)) l.regs }
      | .pred j => { l with preds :=
          if word = 0 then l.preds &&& ~~~(BitVec.ofNat 7 (2 ^ j)) else l.preds ||| BitVec.ofNat 7 (2 ^ j) }
      | _ => l
    let sharers : List Nat := r.tids.filterMap fun i => (s.findLane r.wid i).map (·.2)
    let sregs := match r.dst with | .sca j => (s.warp wid).sregs.set 0 j word | _ => (s.warp wid).sregs
    let gregs (g : Nat) := match r.dst with
      | .grp j => if g = (s.warp wid).group then (s.group g).gregs.set 0 j word else (s.group g).gregs
      | _ => (s.group g).gregs
    let written (K : Nat) : Lane :=
      let l := if K = L then put (s.lane wid L) else s.lane wid K
      if K ∈ sharers then { l with fstat := l.fstat ||| a.flags } else l
    let left : State := { s with answers := removeAt s.answers k }
    let common (t : State) : Prop :=
      t = { s with warps := t.warps, groups := t.groups, answers := left.answers, cur := t.cur } ∧
      (∀ j, j ≠ wid → t.warp j = s.warp j) ∧ t.warp wid = { s.warp wid with lanes := (t.warp wid).lanes, sregs := sregs } ∧
      ∀ g, t.group g = { s.group g with gregs := gregs g }
    (s.answers[k]? = some a → s.outbid r = true → exec (.governedResultWrite k) s = .next s) ∧
    (s.answers[k]? = some a → s.outbid r = false → s.findLane r.wid r.tid = some (wid, L) →
      (∀ i ∈ r.others, ∃ K, s.findLane r.wid i = some (wid, K)) → s.Unarrived wid →
      ((r.finish = false ∨ left.more r = true) → ∃ t, exec (.governedResultWrite k) s = .next t ∧ common t ∧
        ∀ K, t.lane wid K = written K) ∧
      (r.finish = true → left.more r = false →
        ∃ t, exec (.governedResultWrite k) s = .next t ∧ common t ∧ ∀ K, t.lane wid K =
          let l := written K
          match l.st, l.wait with
          | .waiting, some w =>
            if K ∈ (if r.share = 0 then [r.lane] else lanesOf r.share) ∧ w.serial = r.serial then
              (match w.instr with
              | .wfill _ => { l.moved with wsp := l.wsp + 192, resf := 2 }
              | _ => l.moved)
            else l
          | _, _ => l)) ∧
    (s.ctimes[k]? = some c → s.findLane c.wid c.tid = some (wid, L) →
      ∃ t, exec (.completionTimeReturn k) s = .next t ∧ t = { s with warps := t.warps, ctimes := removeAt s.ctimes k } ∧
        (∀ j, j ≠ wid → t.warp j = s.warp j) ∧ ∀ K, t.lane wid K = if K = L then
          { s.lane wid L with
            cmaxs := if (s.lane wid L).cmaxs < c.c then c.c else (s.lane wid L).cmaxs
            cmaxp := if c.here ∧ (s.lane wid L).cmaxp < c.c then c.c else (s.lane wid L).cmaxp }
          else s.lane wid K)

/-- R219 to R222, R224, R234, R235: at its home a read answers the bytes that stand there, and a line tagged for the reader's
launch is dropped by it; a write stores its bytes, and no other byte changes, at a completion time no earlier than the home's time
and the line's last lease end, wakes every registration on the line and sets or clears its tag; R205, R220: a read that its core has performed before,
under a read of the thread that no FENCE orders with it, answers the line as it stood then (log entry 87); copies of the line
granted before serve its thread no more; R66: a fetch may still see the line's old bytes; a grant gives the core a copy that it may
read until the class's time has passed, and R17: its cache holds at most 8,192 lines (which one it drops: log entry 85). -/
def Obligations.HomesServeRequests : Prop :=
  ∀ (s : State) (k n cls : Nat) (bytes : List Byte) (tag : Option Nat) (m : Msg),
    let line := m.addr / 64
    let rest := removeAt s.net k
    let answer (vals : List Word) : List Answer := (m.ret.map fun r => { ret := r, vals := vals }).toList
    let dropped : State := if s.tagOf line = some m.launch ∧ m.launch ≠ 0 then s.dropLine line else s
    let time : Nat := if m.home < 384 then s.localTime m.home else s.homeTime m.home
    let length : Nat := match cls with | 1 => 1000 | 2 => 8000 | _ => 64000
    s.frontMsg k = some m → m.home = homeOf m.addr →
    (m.req = .read n →
      let ahead (t : State) : Prop :=
        (∀ j, t.warp j = { s.warp j with lanes := (t.warp j).lanes }) ∧
        (∀ j K, t.lane j K = { s.lane j K with early := (t.lane j K).early }) ∧
        (∀ j K x bs, (t.lane j K).early = some (x, bs) → (s.lane j K).early ≠ some (x, bs) →
          bs = t.bytesAt (64 * x) 64 ∧ t.tagOf x = none ∧ ∀ y ∈ t.net, y.addr / 64 = x → y.tid ≠ m.tid)
      (s.earlyFor m = none → ∃ t, exec (.remoteRead k) s = .next t ∧ ahead t ∧
        t = { dropped with
          net := rest, answers := s.answers ++ answer (wordsOf (s.bytesAt m.addr n)), warps := t.warps }) ∧
      (∀ w L bs, s.findLane m.wid m.tid = some (w, L) → (s.lane w L).early = some (line, bs) →
        (∀ l ∈ s.leases, l.core = m.src → l.line ≠ line) → ∃ t, exec (.remoteRead k) s = .next t ∧ ahead t ∧
        t = { s with
          net := rest, warps := t.warps
          answers := s.answers ++ answer (wordsOf ((bs.drop (m.addr % 64)).take n)) })) ∧
    (m.req = .write bytes tag → tag = none → m.tid ∉ (s.launch m.launch).ending →
      ∃ (t : State) (c : Nat), exec (.remoteWrite k) s = .next t ∧ s.lend.get 0 line ≤ c ∧ time ≤ c ∧
        { line := line, bytes := s.bytesAt (64 * line) 64, c := c, tid := m.tid : OldLine } ∈ t.olds ∧
        t.leases = (s.leases.filter fun x => ¬(x.core = m.src ∧ x.line = line)).map (fun x =>
          if x.line = line then { x with newer := m.tid :: x.newer } else x) ∧
        t.mem = s.mem.setN unwritten m.addr bytes ∧ t.warps = s.warps ∧ t.groups = s.groups ∧ t.scratch = s.scratch ∧
        t.acc = s.acc ∧ t.tags = s.tags.filter (fun x => x.line ≠ line) ∧
        t.ctimes = s.ctimes ++ [{ wid := m.wid, tid := m.tid, c := BitVec.ofNat 64 c, here := decide (m.home < 384) }] ∧
        t.coreC.get 0 m.src = max c (s.coreC.get 0 m.src) ∧
        t.monitors = s.monitors.filter (fun x => x.line ≠ line) ∧
        t.monEvents = s.monEvents ++ (s.monitors.filter fun x => x.line = line).map (fun x => ⟨x.ret, x.cc, x.addr, false, false⟩)) ∧
    (m.req = .write bytes tag → ∀ x, tag = some x → (s.launch x).live = true → (s.launch x).r.dom = m.dom →
      (s.tags.filter fun y => homeOf (64 * y.line) = homeOf (64 * line)).length < 4096 → m.tid ∉ (s.launch m.launch).ending →
      ∃ t, exec (.remoteWrite k) s = .next t ∧ t.mem = s.mem.setN unwritten m.addr bytes ∧
        t.tags = s.tags.filter (fun y => y.line ≠ line) ++ [⟨line, x⟩] ∧ t.warps = s.warps) ∧
    (m.req = .grant n cls → s.tagOf line = none → (m.home < 384 ∨ s.host.skewFault = false) →
      ∃ (t : State) (copy : Lease), exec (.leaseGrant k) s = .next t ∧
        t = { s with net := rest, leases := t.leases, lend := t.lend, draws := s.draws + 1,
                     answers := s.answers ++ answer (wordsOf (s.bytesAt m.addr n)) } ∧
        copy.core = m.src ∧ copy.line = line ∧ copy.bytes = s.bytesAt (64 * line) 64 ∧ copy.till = time + length ∧
        copy.newer = [] ∧ ((s.leases.filter fun x => x.core = m.src).length < 8192 →
          t.leases = s.leases.filter (fun x => ¬(x.core = m.src ∧ x.line = line)) ++ [copy]) ∧
        ((s.leases.filter fun x => x.core = m.src).length ≤ 8192 → (t.leases.filter fun x => x.core = m.src).length ≤ 8192) ∧
        t.lend.get 0 line = max (copy.till + copy.skew) (s.lend.get 0 line))

/-- R278: what an atomic leaves at its address, from the value that stands there and its operand, on the low bits of the type;
the sum of FADD rounded to nearest, and the operand that FMIN or FMAX picks, without FTZ.  R219, R277 to R279: an atomic that is alone in its issue at its line
reads, answers and writes in one step at its home; a compare and swap that does not match writes nothing. -/
def Obligations.AtomicsAtHome : Prop :=
  (∀ (ty : Ty) (old v : Word),
    let n := ty.width
    let low (x : Word) : Nat := x.toNat % 2 ^ n
    let res (op : AtomOp) : Nat := (atomNew op ty old v).1
    res .add = low (old + v) ∧ res .min = low (if ty.less v old then v else old) ∧
    res .max = low (if ty.less old v then v else old) ∧ res .and = low (old &&& v) ∧ res .or = low (old ||| v) ∧
    res .xor = low (old ^^^ v) ∧ res .exch = low v ∧
    res .inc = (if low v ≤ low old then 0 else low old + 1) ∧
    res .dec = (if low old = 0 ∨ low v < low old then low v else low old - 1) ∧
    ∀ F, (ty = .f64 ∧ F = fp64) ∨ (ty = .f32 ∧ F = fp32) →
      let x := old.toNat % 2 ^ F.width
      let y := v.toNat % 2 ^ F.width
      let r (op : AtomOp) : FRes := { bits := res op, flags := (atomNew op ty old v).2 }
      F.Adds .rne false x y (r .fadd) ∧ F.Picks false false x y (r .fmin) ∧ F.Picks false true x y (r .fmax)) ∧
  (∀ (s : State) (k : Nat) (m : Msg) (op : AtomOp) (ty : Ty) (x v : Word) (flags : Bool),
    let old : Word := BitVec.ofNat 64 (s.natAt m.addr ty.size)
    let new := atomNew op ty old v
    let answer (f : BitVec 5) : List Answer := (m.ret.map fun r => { ret := r, vals := [old], flags := f }).toList
    let quiet (t : State) : Prop := t.warps = s.warps ∧ t.groups = s.groups ∧ t.scratch = s.scratch ∧ t.acc = s.acc
    s.frontMsg k = some m → s.net.filter m.sameAtomic = [m] → m.tid ∉ (s.launch m.launch).ending →
    (m.req = .atom op ty v flags → ∃ t, exec (.atomicAtHome k) s = .next t ∧ quiet t ∧
      t.mem = s.mem.setN unwritten m.addr (leBytes ty.size new.1) ∧
      t.answers = s.answers ++ answer (if flags then new.2 else 0) ∧ m ∉ t.net) ∧
    (m.req = .cas ty x v → old.toNat = x.toNat % 2 ^ ty.width → ∃ t, exec (.atomicAtHome k) s = .next t ∧ quiet t ∧
      t.mem = s.mem.setN unwritten m.addr (leBytes ty.size v.toNat) ∧ t.answers = s.answers ++ answer 0) ∧
    (m.req = .cas ty x v → old.toNat ≠ x.toNat % 2 ^ ty.width → ∃ t, exec (.atomicAtHome k) s = .next t ∧ quiet t ∧
      t.mem = s.mem ∧ t.answers = s.answers ++ answer 0))

/-! ### Translation, waits and monitors -/

/-- R182, R183: a walk that succeeds enters its leaf in the core's TLB, one entry for the page and at most 2,048 for the core;
one that fails leaves its outcome for the accesses that wait.  R271: an invalidation drops the entries of its domain and scope
that map a page of the list, or all, once the walks that the reached clusters' walkers began before have ended, and its lanes move
on.  R195: a configuration that fits is taken, and one that does not
traps its lanes.  R190: a decoding load whose block passes its checks answers with the decoded element.  R405: the lanes of a SLEEP
whose time has come move on, and no others.  R228, R238: the lanes of a FENCE move on together, once its conditions hold for each
of them; after an atomic each moves on as they hold for it (R281); R66: at package scope or wider, fetches see what they wrote.
That a walk and a decoding load read at one moment, and which entry a full TLB gives up, is the model's (log entries 29 and 66). -/
def Obligations.WalksAndWaitsEnd : Prop :=
  ∀ (s : State) (k wid gang : Nat),
    (∀ w, s.walks[k]? = some w →
      let mine (e : TlbEntry) : Bool := decide (e.core = w.core)
      let same (e : TlbEntry) : Prop := e.core = w.core ∧ e.dom = w.dom ∧ e.page = w.page
      (∀ f, s.walk w.dom (65536 * w.page) = .ok f → ∃ t, exec (.tlbWalk k) s = .next t ∧
        t = { s with walks := removeAt s.walks k, tlb := t.tlb } ∧ ⟨w.core, w.dom, w.page, f⟩ ∈ t.tlb ∧
        (∀ e ∈ t.tlb, same e → e.leaf = f) ∧ (t.tlb.filter mine).length ≤ 2048 ∧
        (∀ e ∈ t.tlb, e ∈ s.tlb ∨ same e) ∧ (∀ e ∈ s.tlb, e.core ≠ w.core → e ∈ t.tlb) ∧
        ((s.tlb.filter mine).length < 2048 → ∀ e ∈ s.tlb, ¬same e → e ∈ t.tlb)) ∧
      (∀ c, s.walk w.dom (65536 * w.page) = .fail c → exec (.tlbWalk k) s = .next { s with
        walks := removeAt s.walks k
        walkFails := s.walkFails.filter (fun f => ¬(f.core = w.core ∧ f.dom = w.dom ∧ f.page = w.page)) ++
          [⟨w.core, w.dom, w.page, c⟩] })) ∧
    (∀ (L : Nat) (w0 : Wait) (h : Head) (sc : Sc) (a : Spec) (whole : Bool),
      let w := s.warp wid
      let ls := s.waiters wid gang
      let hit (e : TlbEntry) : Prop := e.dom = w.dom ∧ scopeCores sc w.core e.core = true ∧
        (whole = true ∨ ∃ K ∈ ls, ∃ x, (s.lane wid K).wait = some x ∧
          x.dl.toNat / e.leaf.span = 65536 * e.page / e.leaf.span)
      ls.head? = some L → (s.lane wid L).wait = some w0 → w0.instr = .tlbinv h sc a whole →
      (∀ x ∈ s.walks, x.core / 16 = w.core / 16 ∨ scopeCores sc w.core x.core = true → w0.serial ≤ x.serial) →
      ∃ t, exec (.tlbinvComplete wid gang) s = .next t ∧
        t = { s with warps := t.warps, tlb := t.tlb, walkFails := t.walkFails, cur := {} } ∧ s.Resumed t wid ls ∧
        ∀ e, e ∈ t.tlb ↔ e ∈ s.tlb ∧ ¬hit e) ∧
    (∀ (r : Ret) (n : Nat) (v : Word),
      let w := s.warp r.wid
      let new : CBuf :=
        { nslots := (v.extractLsb' 52 12).toNat, slotb := (v.extractLsb' 32 20).toNat, base := (v.extractLsb' 0 21).toNat,
          free := (v.extractLsb' 52 12).toNat }
      let room := s.allocOf r.wid r.lane
      let fits : Prop := room.1 ≤ new.base ∧ new.base + new.nslots * new.slotb ≤ room.1 + room.2
      let left : State := { s with cbWrites := removeAt s.cbWrites k }
      s.cbWrites[k]? = some (r, n, v) → (∀ x ∈ s.cbWrites.take k, x.1.wid ≠ r.wid) → w.roaming = false →
      (∀ c ∈ s.cmds, c.group = w.group → c.names n = false) →
      (s.lane r.wid r.lane).tid = r.tid → (s.lane r.wid r.lane).st = .waiting → (∀ L ∈ r.lanes, (s.lane r.wid L).wait ≠ none) →
      (fits → new.nslots ≠ 0 → ∃ t, exec (.cbcfgWrite k) s = .next t ∧
        t = { left with warps := t.warps, groups := t.groups, cur := {} } ∧ s.Resumed t r.wid r.lanes ∧
        (∀ g, g ≠ w.group → t.group g = s.group g) ∧
        t.group w.group = { s.group w.group with cbufs := (s.group w.group).cbufs.set {} n new }) ∧
      (¬fits → new.nslots ≠ 0 → (∀ L ∈ r.lanes, (s.lane r.wid L).handler = false) →
        ∃ t, exec (.cbcfgWrite k) s = .next t.blank ∧
          (left.resume r.wid r.lanes).TrapsAs t r.lanes [] { cause := 0x04, sub := 0x01 })) ∧
    (∀ (d : DecodeLoad) (f : Leaf),
      let mine (x : DecodeLoad) : Bool := decide (x.serial = d.serial) && decide (x.ret.wid = d.ret.wid)
      let bytes : List Byte := (List.range f.slotBytes).map fun i => s.byteAt (f.key (blockVa f d.ea.toNat + i))
      s.decodes[k]? = some d → s.decodes.filter mine = [d] → s.writesOf d.ret.tid d.serial = false → s.tags = [] →
      (∀ L ∈ d.ret.lanes, (s.lane d.ret.wid L).st = .waiting ∧ (s.lane d.ret.wid L).wait ≠ none) →
      s.xlate d.core d.dom d.ea.toNat = .ok f → loadCheck f d.ty d.ea = none → 3 ≤ f.fmt → f.w = true → f.blockOk bytes = true →
      ∃ t, exec (.decodeLoadComplete k) s = .next t ∧
        t = { s with
          warps := t.warps, decodes := s.decodes.filter (fun x => !mine x), cur := {}
          answers := s.answers ++ [{ ret := d.ret, vals := [f.decodeLoad bytes d.ty (elemIndex f d.ea.toNat % f.blkElems)] }] } ∧
        s.Resumed t d.ret.wid d.ret.lanes) ∧
    (∃ ls, (∀ L, L ∈ ls ↔ L ∈ s.waiters wid gang ∧ ∃ h a imm w, (s.lane wid L).wait = some w ∧ w.instr = .sleep h a imm ∧
        w.dl.toNat ≤ s.localTime (s.warp wid).core) ∧
      ∃ t, exec (.sleepWake wid gang) s = .next t ∧ t = { s with warps := t.warps, cur := {} } ∧ s.Resumed t wid ls) ∧
    (let all := s.waiters wid gang
     let due (L : Nat) : Prop := ∃ sc n, (s.lane wid L).fenceScope = some (sc, n) ∧
       s.fenceReady sc (s.warp wid).core (s.lane wid L) n = true
     let wide (L : Nat) : Bool := match (s.lane wid L).fenceScope with
       | some (.package, _) | some (.system, _) => true
       | _ => false
     ((∃ L ∈ all, (s.lane wid L).inFence = true) → (∃ L ∈ all, ¬due L) → exec (.fenceRetire wid gang) s = .next s) ∧
     ((∀ L ∈ all, (s.lane wid L).inFence = false) ∨ (∀ L ∈ all, due L) →
      ∃ ls, (∀ L, L ∈ ls ↔ L ∈ all ∧ due L) ∧ ∃ t, exec (.fenceRetire wid gang) s = .next t ∧
        t = { s with
          warps := t.warps, cur := {}
          olds := s.olds.filter fun o => ¬(ls.any fun L => wide L && decide ((s.lane wid L).tid = o.tid)) } ∧ s.Resumed t wid ls))

/-- R235, R240, R299: at its home an MWAIT whose word differs is answered 4, and a CCWAIT whose counter is DONE its value;
another registers, in place of what its thread had registered before, evicting the oldest of a full table, whose lane is told of
its loss; R204: a wake that came to a lane which was in the hive answers its MWAIT 0, and one that comes to a lane which does not
wait yet is kept; a wake or a loss ends an MWAIT with 0 or 2 and lets a CCWAIT read its counter again; a deadline that passes ends
an MWAIT with 1 and a CCWAIT with the counter's value, also while a wake or a loss for it is still on its way.  That MWAIT's compare counts as a tagged line's first read is log entry 78's
choice. -/
def Obligations.Monitors : Prop :=
  ∀ (s : State) (k wid L : Nat),
    (∀ (m : Msg) (r : Ret) (n : Nat) (x : Word) (cc : Bool),
      let line := m.addr / 64
      let rest := removeAt s.net k
      let v : Word := BitVec.ofNat 64 (s.natAt m.addr n)
      let dropped : State := if s.tagOf line = some m.launch ∧ m.launch ≠ 0 then s.dropLine line else s
      let mons := s.monitors.filter fun y => ¬(y.ret.tid = r.tid ∧ y.ret.serial ≠ r.serial)
      let here := mons.filter fun y => y.home = m.home
      let new : Monitor :=
        { home := m.home, line := line, addr := m.addr, n := n, ret := r, cc := cc,
          dl := ((s.lane wid L).wait.map (·.dl)).getD 0 }
      let ends : Prop := if cc then v.getLsbD 63 = true else v ≠ x
      s.frontMsg k = some m → m.req = .monitor n x cc → m.ret = some r →
      let woken : Prop := cc = false ∧ v = x ∧ (s.lane wid L).wake = true
      (ends ∨ woken → s.watcher r = some (wid, L) → ∃ t, exec (.monitorRegister k) s = .next t ∧
        t = { dropped with
          net := rest, monitors := mons, warps := t.warps
          answers := s.answers ++ [{ ret := r, vals := [if cc then v else if v = x then 0 else 4] }] } ∧
        (∀ j, j ≠ wid → t.warp j = s.warp j) ∧ ∀ K, t.lane wid K =
          if K ∈ r.lanes then { s.lane wid K with monitor := false, wake := false } else s.lane wid K) ∧
      (ends → s.watcher r = none → ∃ t, exec (.monitorRegister k) s = .next t ∧
        t = { dropped with
          net := rest, monitors := mons, answers := s.answers ++ [{ ret := r, vals := [if cc then v else 4] }] }) ∧
      (¬ends → ¬woken → s.watcher r = some (wid, L) →
        ∃ t, exec (.monitorRegister k) s = .next t ∧
          t = { dropped with net := rest, monitors := t.monitors, monEvents := t.monEvents, warps := t.warps } ∧
          (here.length < 1024 → t.monitors = mons ++ [new] ∧ t.monEvents = s.monEvents) ∧
          (∀ old, 1024 ≤ here.length → here.head? = some old →
            t.monitors = mons.filter (fun y => y ≠ old) ++ [new] ∧
            t.monEvents = s.monEvents ++ [⟨old.ret, old.cc, old.addr, true, false⟩]) ∧
          (∀ j, j ≠ wid → t.warp j = s.warp j) ∧ ∀ K, t.lane wid K = if K ∈ r.lanes then
              { s.lane wid K with
                monitor := true
                wait := (s.lane wid K).wait.map fun w => { w with phase := .watching } }
            else s.lane wid K)) ∧
    (∀ (e : MonEvent),
      let r := e.ret
      let i : Instr := if e.loss then .monitorLoss k else .monitorWake k
      s.monEvents[k]? = some e → s.watcher r = some (wid, L) → (∀ K ∈ r.lanes, (s.lane wid K).wait ≠ none) →
      (e.cc = false → s.EndsWatch i { s with monEvents := removeAt s.monEvents k } wid r (if e.loss then 2 else 0)) ∧
      (e.cc = true → s.AsksAgain i { s with monEvents := removeAt s.monEvents k } wid L r e.addr (.monitor 8 0 true))) ∧
    (∀ (e : MonEvent),
      s.monEvents[k]? = some e → s.watcher e.ret = none → s.findLane e.ret.wid e.ret.tid = some (wid, L) →
      (s.lane wid L).monitor = true → ∃ t, exec (if e.loss then .monitorLoss k else .monitorWake k) s = .next t ∧
        t = { s with monEvents := removeAt s.monEvents k, warps := t.warps } ∧ (∀ j, j ≠ wid → t.warp j = s.warp j) ∧
        ∀ K, t.lane wid K = if K = L then { s.lane wid L with monitor := false, wake := !e.loss } else s.lane wid K) ∧
    (∀ (tid : Nat) (m : Monitor),
      let left : State := { s with monitors := s.monitors.filter (fun x => x ≠ m) }
      s.monitors.filter (fun x => x.ret.tid = tid) = [m] → s.watcher m.ret = some (wid, L) →
      m.dl.toNat ≤ s.localTime (s.warp wid).core → (∀ K ∈ m.ret.lanes, (s.lane wid K).wait ≠ none) →
      (m.cc = false → s.EndsWatch (.mwaitTimeout tid) left wid m.ret 1) ∧
      (m.cc = true → s.AsksAgain (.mwaitTimeout tid) left wid L m.ret m.addr (.read 8))) ∧
    (∀ (tid : Nat) (e : MonEvent) (w : Wait),
      let left : State := { s with monEvents := s.monEvents.filter (fun x => x ≠ e) }
      (∀ m ∈ s.monitors, m.ret.tid ≠ tid) → s.monEvents.filter (fun x => x.ret.tid = tid) = [e] →
      s.watcher e.ret = some (wid, L) → (s.lane wid L).wait = some w → w.dl.toNat ≤ s.localTime (s.warp wid).core →
      (∀ K ∈ e.ret.lanes, (s.lane wid K).wait ≠ none) →
      (e.cc = false → s.EndsWatch (.mwaitTimeout tid) left wid e.ret 1) ∧
      (e.cc = true → s.AsksAgain (.mwaitTimeout tid) left wid L e.ret e.addr (.read 8)))

/-! ### Roaming threads, pools and nodes -/

/-- R143, R197, R198: a lane that has stopped to migrate spills a second resident frame once the warp's results are written, and
leaves once its writes are applied and their times known: as one nymph with its header and its registers, its lane exited; R399:
not while its launch is parked.  R199 to R201: at its core a nymph enters the open comb of its key, which becomes ready with 32
nymphs, or a new one with its timer; one of a launch that has ended is discarded; one that finds its donation pool full goes to the
hive of the core that issued it (R290); R445: one bound for a peer package leaves, or is kept and sent again, and of those that a
peer sends the hives hold at most REMOTE (what such a nymph carries is free: log entry 86); R289, R201: a flush and an expired
timer make combs ready; R25: a ready comb forms a warp in the lowest free slot, commands paused there with a warp of its launch
resuming first (R327); R287, R288: a child leaves once its issuer's earlier writes are applied, after earlier children of its issue
and on its way. -/
def Obligations.NymphsTravel : Prop :=
  ∀ (s : State) (k : Nat),
    (∀ (wid L : Nat) (w : Wait),
      let wp := s.warp wid
      let l := s.lane wid L
      let time := max (s.localTime wp.core) l.tlast.toNat
      let hdr : NymphHdr :=
        { depth := l.depth, tag := l.tag, launch := wp.launch, cdelta := min (l.cmaxs.toNat - time) (2 ^ 20 - 1),
          dtime := time % 2 ^ 40, fm1 := s.frameSize wp - 1, pred := l.preds, fmode := l.fmode, fstat := l.fstat,
          wake := l.wake, wsp := l.wsp, pc := l.pc }
      let base := l.wsp - 192
      let r := s.resume wid [L]
      s.departing[k]? = some (wid, L) → l.wait = some w → wp.roaming = true →
      ((s.launch wp.launch).st = .parked → exec (.nymphDepart k) s = .next s) ∧
      ((s.launch wp.launch).st ≠ .parked → w.phase = .hold → s.governed wid s.serial = false → l.resf ≠ 2 →
        ∃ t, exec (.nymphDepart k) s = .next t ∧ t = { s with warps := t.warps } ∧
          (∀ j, j ≠ wid → t.warp j = s.warp j) ∧ ∀ K, t.lane wid K = if K = L then
            { l with wait := some { w with phase := .sent, serial := s.serial } } else s.lane wid K) ∧
      ((s.launch wp.launch).st ≠ .parked → w.phase = .hold → s.governed wid s.serial = false → l.resf = 2 →
        r.spillAcc (fun j => base + BitVec.ofNat 64 (8 * j)) 1 false true = none →
        ∃ t, exec (.nymphDepart k) s = .next t ∧ (∀ j, j ≠ wid → t.warp j = s.warp j) ∧ t.net = (r.spillStores L base).net ∧
          t.mem = s.mem ∧ ∀ K, t.lane wid K = if K = L then { l with wsp := base, resf := 1 } else s.lane wid K) ∧
      ((s.launch wp.launch).st ≠ .parked → w.phase ≠ .hold → s.writesOf l.tid s.serial = false → s.ctimeDue l.tid = false →
        (∀ K, K < L → (s.lane wid K).st ≠ .departing) → l.cmaxs.toNat < s.localTime wp.core + 2 ^ 20 →
        ∃ (t : State) (n : Nymph), exec (.nymphDepart k) s = .next t ∧
          t = { s with
            warps := t.warps, nymphs := s.nymphs ++ [n]
            olds := s.olds.map fun o => if o.tid = l.tid then { o with tid := 0 } else o } ∧
          (∀ j, j ≠ wid → t.warp j = s.warp j) ∧ (t.lane wid L).st = .exited ∧ n.tid = l.tid ∧ n.dom = wp.dom ∧
          n.src = wp.core ∧ n.dest = w.dl.toNat ∧ n.words = (List.range (s.frameSize wp)).map l.win ∧ n.hdr = hdr.pack ∧
          n.stamped = true ∧ n.tlast = BitVec.ofNat 64 time)) ∧
    (∀ n, s.nymphs[k]? = some n →
      let a := s.arr n.dest
      let rest := removeAt s.nymphs k
      let isOpen (c : Comb) : Prop := c.ready = false ∧ c.key = n.key
      (∀ x ∈ s.nymphs.take k, ¬(x.src = n.src ∧ x.dest = n.dest)) → n.dest < 384 →
      let lives : Prop := s.launchLives n.dom n.fields.launch = true ∧ n.fields.pc.toNat % 8 ≤ 4 ∧ n.fields.pc.toNat / 8 % 8 = 0
      (¬lives → ∃ t, exec (.nymphArrival k) s = .next t ∧ t.nymphs = rest ∧
        t.arrival = s.arrival ∧ t.pools = s.pools ∧ t.warps = s.warps) ∧
      (lives → n.pool = none → a.slots = [] → a.hive = [] → a.due = [] → a.used < 1024 →
        ((∀ c ∈ a.combs, ¬isOpen c) → a.combs.length < 64 →
          ∃ t, exec (.nymphArrival k) s = .next t ∧
            t = { s with nymphs := rest, arrival := t.arrival, serial := s.serial + 1 } ∧
            (∀ c, c ≠ n.dest → t.arr c = s.arr c) ∧ t.arr n.dest = { a with combs := a.combs ++
              [{ key := n.key, nymphs := [n], due := s.localTime n.dest + (s.launch n.fields.launch).r.combTime, ready := false,
                 born := s.serial, order := s.serial }] }) ∧
        (∀ (xs ys : List Comb) (c : Comb), a.combs = xs ++ c :: ys → isOpen c → (∀ x ∈ xs ++ ys, ¬isOpen x) → c.nymphs.length < 32 →
          ∃ t, exec (.nymphArrival k) s = .next t ∧ (∀ j, j ≠ n.dest → t.arr j = s.arr j) ∧ t.nymphs = rest ∧
            t.warps = s.warps ∧ t.arr n.dest = { a with combs := xs ++ (if c.nymphs.length = 31
              then { c with nymphs := c.nymphs ++ [n], ready := true, order := s.serial }
              else { c with nymphs := c.nymphs ++ [n] }) :: ys })) ∧
      (lives → n.pool = none → a.slots = [] → a.due = [] → 1024 ≤ a.used →
        ∃ t, exec (.nymphArrival k) s = .next t ∧ (∀ j, j ≠ n.dest → t.arr j = s.arr j) ∧ t.nymphs = rest ∧
          ((∀ x ∈ a.hive, x.pool = none) → t.arr n.dest = { a with hive := a.hive ++ [n] })) ∧
      (∀ c, lives → n.pool = some c → (∀ x ∈ (s.arr n.src).hive, x.pool ≠ some c) →
        ((s.pool c).used < 1024 → (∀ x ∈ (s.pool c).combs, ¬isOpen x) →
          ∃ t, exec (.nymphArrival k) s = .next t ∧ (∀ j, j ≠ c → t.pool j = s.pool j) ∧ t.nymphs = rest ∧ t.arrival = s.arrival ∧
            t.pool c = { s.pool c with combs := (s.pool c).combs ++
              [{ key := n.key, nymphs := [n], due := s.localTime (16 * c) + (s.launch n.fields.launch).r.combTime, ready := false,
                 born := s.serial, order := s.serial }] }) ∧
        (1024 ≤ (s.pool c).used → (s.arr n.src).hive = [] → (s.arr n.src).due = [] → (s.arr n.src).slots = [] →
          ∃ t, exec (.nymphArrival k) s = .next t ∧ t.pools = s.pools ∧ t.nymphs = rest ∧
            (∀ j, j ≠ n.src → t.arr j = s.arr j) ∧ t.arr n.src = { s.arr n.src with hive := [n] }))) ∧
    (∀ n, s.nymphs[k]? = some n → (∀ x ∈ s.nymphs.take k, ¬(x.src = n.src ∧ x.dest = n.dest)) → 384 ≤ n.dest →
      ∃ t, exec (.nymphArrival k) s = .next t ∧
        t = { s with nymphs := removeAt s.nymphs k, resends := t.resends, draws := s.draws + 1 } ∧
        (t.resends = s.resends ∨ t.resends = s.resends ++ [(n, s.localTime n.src + 2000)])) ∧
    (s.nymphs[k]? = none → ∃ t, exec (.nymphArrival k) s = .next t ∧
      t = { s with arrival := t.arrival, pools := t.pools, serial := t.serial, draws := s.draws + 1 } ∧
      let away (u : State) (c : Nat) : Nat := ((u.arr c).hive.filter (·.remote)).length
      ∀ c, away t c ≤ max (away s c) s.host.hiveRemote.toNat) ∧
    (∀ (pool : Bool) (n : Nat) (c : Comb),
      let done : Comb := { c with ready := true, order := s.serial }
      s.timers[k]? = some (pool, n, c) → c.due ≤ s.localTime (if pool then 16 * n else n) →
      ∃ t, exec (.combTimerExpire k) s = .next t ∧
        t = { s with arrival := t.arrival, pools := t.pools, serial := s.serial + 1, draws := s.draws + 1 } ∧
        (∀ j, t.arr j = if pool = false ∧ j = n
          then { s.arr n with combs := (s.arr n).combs.map fun x => if x = c then done else x } else s.arr j) ∧
        ∀ j, t.pool j = if pool = true ∧ j = n
          then { s.pool n with combs := (s.pool n).combs.map fun x => if x = c then done else x } else s.pool j) ∧
    (∀ (core launch : Nat) (tag : Option (BitVec 8)),
      let hit (c : Comb) : Bool := c.key.launch = launch ∧ (tag = none ∨ tag = some c.key.tag)
      s.flushes[k]? = some (core, launch, tag) → core < 384 → ∃ t, exec (.cflushArrive k) s = .next t ∧
        t = { s with flushes := removeAt s.flushes k, arrival := t.arrival, serial := t.serial } ∧
        (∀ j, j ≠ core → t.arr j = s.arr j) ∧ (t.arr core).combs.map (fun c => { c with order := 0 }) =
          (s.arr core).combs.map fun c => { c with ready := c.ready || hit c, order := 0 }) ∧
    (∀ (c : Comb) (part slot : Nat) (others : List Nat),
      let x : Item := .comb k c
      let w : Warp :=
        { live := true, core := k, part := part, slot := slot, roaming := true, dom := c.key.dom, launch := c.key.launch,
          lanes := ((List.range c.nymphs.length).zip c.nymphs).map fun p => (p.1, p.2.lane (s.localTime k)) }
      s.items = [x] → s.combSees c = true → s.launchLives c.key.dom c.key.launch = true →
      (s.arr k).slots = [] → (s.arr k).hive = [] → (s.arr k).due = [] → part < 2 → s.slotsFor x k part = slot :: others →
      (part = 1 → s.slotsFor x k 0 = []) → (s.launch c.key.launch).st ≠ .grace →
      ∃ t, exec (.combWarpForm k) s = .next t ∧ t.warps = s.warps.set {} s.serial w ∧ t.launches = s.launches ∧
        t.nymphs = s.nymphs ∧ (∀ j, j ≠ k → t.arr j = s.arr j) ∧
        ((∀ y ∈ s.cmds, y.launch = c.key.launch → y.st ≠ .paused) → t.cmds = s.cmds ∧ t.wbuf = s.wbuf ∧ t.parts = s.parts) ∧
        t.arr k = { s.arr k with combs := (s.arr k).combs.filter (fun d => d ≠ c) }) ∧
    (∀ (n : Nymph) (at' : Nat), s.resends[k]? = some (n, at') → at' ≤ s.localTime n.src →
      exec (.remoteNymphResend k) s =
        .next { s with resends := removeAt s.resends k, nymphs := s.nymphs ++ [n], draws := s.draws + 1 }) ∧
    (∀ n, s.children[k]? = some n → s.writesOf n.parent n.parentSerial = false →
      (∀ x ∈ s.children.take k, ¬(x.src = n.src ∧ x.dest = n.dest) ∧ ¬(x.parent = n.parent ∧ x.batch = n.batch)) →
      let time := s.localTime n.src
      let hdr : NymphHdr :=
        { n.fields with dtime := time % 2 ^ 40, cdelta := min (n.full.toNat - time) (2 ^ 20 - 1) }
      exec (.spawnChildDepart k) s = .next { s with
        children := removeAt s.children k
        nymphs := s.nymphs ++ [{ n with hdr := hdr.pack, stamped := true, acq := BitVec.ofNat 64 (max n.full.toNat time) }] })

/-- R290, R291: a ready pool comb forms a warp at the core of its cluster with the most free slots; an idle cluster asks the
next cluster of its die first; the one asked gives the comb that was opened first, ready or not, of those that may run at the
thief, and stolen nymphs form a ready comb there, or wait for a place (R17; log entry 41); those of a launch that has ended are
discarded; after an empty answer the next cluster is asked.  R294, R295: a record that passes its checks is appended to its node,
and its lane moves on; with TILE records, or FLUSH in the record, groups form at once; a record that finds the queue full, closed
or too narrow, or no live node (log entry 79), traps; a flush timer that runs out forms groups of at most TILE records, in queue
order, at the node's home. -/
def Obligations.PoolsAndNodes : Prop :=
  ∀ (s : State) (k : Nat),
    (∀ (c : Comb) (part slot : Nat) (others : List Nat),
      let x : Item := .pool k c
      let core := s.roomiest k (some c.key.dom)
      let w : Warp :=
        { live := true, core := core, part := part, slot := slot, roaming := true, dom := c.key.dom, launch := c.key.launch,
          lanes := ((List.range c.nymphs.length).zip c.nymphs).map fun p => (p.1, p.2.lane (s.localTime core)) }
      s.items = [x] → s.launchLives c.key.dom c.key.launch = true → (∀ j, j / 16 = k → (s.arr j).hive = []) → part < 2 →
      s.slotsFor x core part = slot :: others → (part = 1 → s.slotsFor x core 0 = []) → (s.launch c.key.launch).st ≠ .grace →
      ∃ t, exec (.poolCombPlace k) s = .next t ∧
        t = { s with
          warps := s.warps.set {} s.serial w, pools := t.pools, serial := s.serial + 1, draws := s.draws + 1, holds := t.holds
          cmds := t.cmds, wbuf := t.wbuf, parts := t.parts } ∧
        ((∀ y ∈ s.cmds, y.launch = c.key.launch → y.st ≠ .paused) → t.cmds = s.cmds ∧ t.wbuf = s.wbuf ∧ t.parts = s.parts) ∧
        (∀ j, j ≠ k → t.pool j = s.pool j) ∧ t.pool k = { s.pool k with combs := (s.pool k).combs.filter (fun d => d ≠ c) }) ∧
    ((s.pool k).steal = .none → s.idle k = true → ∃ t, exec (.stealStart k) s = .next t ∧ t = { s with pools := t.pools } ∧
      (∀ j, j ≠ k → t.pool j = s.pool j) ∧
      t.pool k = { s.pool k with steal := .asking (6 * (k / 6) + (k % 6 + 1) % 6) 0 }) ∧
    (∀ (v tried : Nat),
      let able (c : Comb) : Prop := c ∈ (s.pool v).combs ∧ ∃ y ∈ (s.launch c.key.launch).r.set, clusterOf y = k
      (s.pool k).steal = .asking v tried → v ≠ k → (∀ j, j / 16 = v → (s.arr j).hive = []) →
      (∀ c, able c → (∀ d, able d → d = c ∨ c.born < d.born) → ∃ t, exec (.stealRequest k) s = .next t ∧
        t = { s with pools := t.pools } ∧ (∀ j, j ≠ k → j ≠ v → t.pool j = s.pool j) ∧
        t.pool k = { s.pool k with steal := .answered (some c) tried } ∧
        t.pool v = { s.pool v with combs := (s.pool v).combs.filter (fun d => d ≠ c) }) ∧
      ((∀ c, ¬able c) → ∃ t, exec (.stealRequest k) s = .next t ∧ t = { s with pools := t.pools } ∧
        (∀ j, j ≠ k → t.pool j = s.pool j) ∧ t.pool k = { s.pool k with steal := .answered none tried })) ∧
    (∀ (c : Comb) (tried : Nat), (s.pool k).steal = .answered (some c) tried →
      let core := s.roomiest k (some c.key.dom)
      let a := s.arr core
      let whole : Comb := { c with ready := true, order := s.serial }
      (s.launchLives c.key.dom c.key.launch = true → a.slots = [] → a.hive = [] → a.due = [] →
        ∃ t, exec (.stealAnswer k) s = .next t ∧ t = { s with pools := t.pools, arrival := t.arrival, serial := s.serial + 1 } ∧
          (∀ j, t.pool j = if j = k then { s.pool k with steal := .none } else s.pool j) ∧ (∀ j, j ≠ core → t.arr j = s.arr j) ∧
          t.arr core = if a.combs.length < 64 ∧ a.used + c.nymphs.length ≤ 1024 then { a with combs := a.combs ++ [whole] }
            else { a with due := [whole] }) ∧
      (s.launchLives c.key.dom c.key.launch = false → ∃ t, exec (.stealAnswer k) s = .next t ∧ t.arrival = s.arrival ∧
        t.warps = s.warps ∧ ∀ j, t.pool j = if j = k then { s.pool k with steal := .none } else s.pool j)) ∧
    (∀ tried, (s.pool k).steal = .answered none tried → ∃ t, exec (.stealAnswer k) s = .next t ∧ t = { s with pools := t.pools } ∧
      (∀ j, j ≠ k → t.pool j = s.pool j) ∧ t.pool k = { s.pool k with steal :=
        match (stealOrder k)[tried + 1]? with
        | some v => .asking v (tried + 1)
        | none => .none }) ∧
    (∀ (m : Msg) (words : List Word) (flush : Bool) (fmode : BitVec 4),
      let mine (x : Msg) : Bool :=
        (match x.req with | .record .. => true | _ => false) && decide (x.issue = m.issue) && decide (x.wid = m.wid) &&
          decide (x.home = m.home)
      let left : State := { s with net := s.net.filter fun x => !mine x }
      let d := parseNode (s.bytesAt m.addr 64)
      let node := s.launch d.index
      let isNode : Prop := s.launchLives m.dom d.index = true ∧ node.r.kind = 2
      let wide : Prop := d.recw ≤ words.length
      s.frontMsg k = some m → m.req = .record words flush fmode → s.net.filter mine = [m] → m.lane ∈ s.waiters m.wid m.issue →
      (isNode → wide → d.opens ≠ 0 → d.count < d.qcap →
        let q := left.writeSpan m.dom 8 (d.qbase + 8 * d.recw * (d.tail % d.qcap))
          ((words.take d.recw).flatMap fun x => leBytes 8 x.toNat)
        let a := (q.applyWrite (m.addr + 0x14) (leBytes 4 ((d.tail + 1) % d.qcap))).1
        let b := ((a.applyWrite (m.addr + 0x18) (leBytes 4 (d.count + 1))).1).addUnits d.index 1
        let after : Launch := { node with
          units := node.units + 1, total := node.total + 1
          queued := node.queued ++
            [{ cmax := m.cmax.toNat, tid := m.tid, serial := m.serial, fmode := fmode }]
          flushAt := if d.count = 0 then some (s.feTime + d.flush * 250) else node.flushAt }
        let u := b.updLaunch d.index fun _ => after
        (flush = false → d.count + 1 < d.tile → ∃ t, exec (.nodeRecordAppend k) s = .next t ∧ s.Resumed t m.wid [m.lane] ∧
          t.net = left.net ∧ t.mem = b.mem ∧ t.launch d.index = after) ∧
        (flush = false → d.tile ≤ d.count + 1 →
          exec (.nodeRecordAppend k) s = .next ((u.formGroup d.index d.tile).finishWait m.wid [m.lane])) ∧
        (flush = true → exec (.nodeRecordAppend k) s = .next ((u.formAll d.index (d.count + 2)).finishWait m.wid [m.lane]))) ∧
      ((s.lane m.wid m.lane).handler = false →
        let traps (sub : BitVec 8) : Prop := ∃ t, exec (.nodeRecordAppend k) s = .next t.blank ∧
          (left.resume m.wid [m.lane]).TrapsAs t [m.lane] [] { cause := 0x10, sub := sub }
        (¬isNode → traps 0x08) ∧ (isNode → ¬wide → traps 0x07) ∧ (isNode → wide → d.opens = 0 → traps 0x05) ∧
        (isNode → wide → d.opens ≠ 0 → d.qcap ≤ d.count → traps 0x04))) ∧
    (∀ (n : Nat) (d : NodeDesc) (f : Leaf),
      let l := s.launch k
      let va := l.r.arg.toNat
      let home := homeOf (f.key va) % 384
      let a := s.arr home
      let g := s.formGroup k n
      s.nodeAt l.r.dom va = some d → s.translate l.r.dom va = .ok f → a.slots = [] → a.hive = [] → a.due = [] →
      (g.launch k).queued = l.queued.drop n ∧ (g.launch k).roamers = l.roamers + n ∧
      (g.launch k).flushAt = (if d.count = n then none else some (s.feTime + d.flush * 250)) ∧
      ∃ c : Comb, g.arr home = (if a.combs.length < 64 ∧ a.used + n ≤ 1024 then { a with combs := a.combs ++ [c] }
          else { a with due := [c] }) ∧
        c.ready = true ∧ c.key = { dom := l.r.dom, launch := k, pc := l.r.entry, tag := 0 } ∧ c.nymphs.length = n ∧
        ∀ i, i < n → ∃ y, c.nymphs[i]? = some y ∧ y.entry = true ∧ y.words =
          (wordsOf (s.readSpan l.r.dom 8 (d.qbase + 8 * d.recw * ((d.head + i) % d.qcap)) (8 * d.recw)) ++
            List.replicate l.r.frame 0).take l.r.frame) ∧
    (∀ (due : Nat) (d : NodeDesc),
      let l := s.launch k
      l.flushAt = some due → due ≤ s.feTime → l.live = true → s.nodeAt l.r.dom l.r.arg.toNat = some d → d.count ≠ 0 →
      exec (.nodeFlushTimer k) s = .next ((s.formGroup k (min d.count d.tile)).formAll k d.count))

/-! ### The front end -/

/-- R381, R385, R387, R388: an entry of a domain's LQ is submitted; each line of its record is read at its home; a record that
stands alone has the reason of the first check that it fails, by the densities and loads of R386; a passing launch enters the table
at the lowest free index, and its result is on its way; R380: it joins the job that was open when its entry was read; R300: one of a
graph or job that is cancelled is DONE with CANCELLED instead.  R410: a producer and the consumer that directly follows it are paired;
R411: the pair is refused by the first of its checks that fails, and both records are to be tested unspliced with that code; R412 and
what follows it: else the fused record and the fused code, in the lowest free range of the region, stand in their place, are tested,
and both submitters get one index.  A launch's result reaches the ring or the register that waits for it, an LSTAT answer its
register, with LATE once the deadline is past (R391) and after every cancellation accepted before.  A launch whose time has come
runs, a later instance with its units counted anew; thread i of a roam launch stands at core i mod NC of its set, with i and ARG in
w0 and w1, or, of a list, at the home of its entry, with the entry and i (R378).  The front end's time is any one of its copies (log
entry 15); what the internal activities have left of their budgets is free (R382); what an entry that cannot be read leaves is log
entry 43's choice, and that a prologue's line is read whole log entry 83's. -/
def Obligations.LaunchesAreServed : Prop :=
  ∀ (s : State) (k : Nat),
    let lowest (s : State) (i : Nat) : Prop :=
      4 ≤ i ∧ i < 4096 ∧ (s.launch i).live = false ∧ ∀ j, 4 ≤ j → j < i → (s.launch j).live = true
    let enters (l : Launch) (r : Record) : Prop :=
      l.live = true ∧ l.r = r ∧ l.st = .admitted ∧ l.budget = r.budget ∧ l.rel = r.release ∧ l.dl = r.deadline ∧
      l.charges = 0 ∧ l.units = (if r.kind = 2 then 0 else r.grid) ∧ l.total = l.units
    (k < 128 → s.host.run = true → s.ringReady k 0 = true →
      ∃ (t : State) (u : Submission) (va tag : Word), exec (.admission k) s = .next t ∧
        t = { s with
          subs := s.subs ++ [u], serial := s.serial + 1, draws := t.draws, hostIn := t.hostIn, hostMem := t.hostMem,
          domains := t.domains } ∧
        u.route = .queue k va tag ∧ u.dom = k ∧ u.line = none ∧ u.code = 0 ∧ u.job = (s.domain k).job ∧
        (∀ d, d ≠ k → t.domain d = s.domain d) ∧
        (let g := (s.domain k).rings.get {} 0
         u.pos = g.head.toNat ∧
         t.domain k = { s.domain k with rings := (s.domain k).rings.set {} 0 { g with head := g.head + 1 } } ∧
         u.unpaired = decide (g.head + 1 = g.tail))) ∧
    (∀ u, s.subs[k]? = some u → s.issuerDone u = true →
      (u.record = none → ∃ t, exec (.admission (128 + k)) s = .next t ∧ t = { s with subs := t.subs, draws := t.draws } ∧
        ∃ second bytes, t.subs = s.subs.map (fun x => if x.serial = u.serial then { u with line := some (second, bytes) } else x) ∧
          match u.line with
          | none => bytes = s.recordLine u second
          | some (other, bs) =>
            second = true ∧ bytes = if other then s.recordLine u false ++ bs else bs ++ s.recordLine u true) ∧
      (∀ r f, u.record = some r → (s.subs.take k).any u.fellow = false → s.subCancelled u r = true → r.feed = 0 →
        s.translate u.dom r.cc.toNat = .ok f → f.w = true → f.fmt = 0 → ∃ t, exec (.admission (128 + k)) s = .next t ∧
          t.subs = (s.dropSubs [u]).subs ∧ t.launches = s.launches ∧ t.warps = s.warps ∧
          t.mem = s.mem.setN unwritten (f.key r.cc.toNat) (leBytes 8 (2 ^ 63 + 2 ^ 62)) ∧
          ∃ v, t.results = s.results ++ [⟨u.route, v⟩]) ∧
      (∀ (second : Bool) (bs : List Byte), u.line = some (second, bs) → bs.length = 128 → ∃ r, u.record = some r ∧
        r.Parsed (match u.route with
          | .queue .. => bs
          | .thread _ _ _ _ _ _ sh _ _ => bs.take 0x40 ++ leBytes 8 sh.toNat ++ bs.drop 0x48)) ∧
      (∀ r, u.record = some r → (s.subs.take k).any u.fellow = false → s.subCancelled u r = false →
        r.spl = false ∨ u.unpaired = true ∨ u.code ≠ 0 →
        ∃ (t : State) (code : Nat), exec (.admission (128 + k)) s = .next t ∧
          s.Reason (r.candidate u.dom u.host) code ∧
          (code ≠ 0 → t = { s.dropSubs [u] with results := s.results ++ [⟨u.route, resultWord 0 u.code.toNat code⟩], draws := s.draws + 3 }) ∧
          (code = 0 → ∃ i, lowest s i ∧ t.results = s.results ++ [⟨u.route, resultWord i u.code.toNat 0⟩] ∧
            t.subs = (s.dropSubs [u]).subs ∧ t.warps = s.warps ∧ (∀ j, j ≠ i → t.launch j = s.launch j) ∧ enters (t.launch i) r)) ∧
      (∀ (v : Submission) (a b : Record),
        u.record = some a → (s.subs.take k).any u.fellow = false → s.subCancelled u a = false → u.unpaired = false → u.code = 0 →
        (s.subs.filter fun x => decide (u.serial < x.serial) && u.fellow x).head? = some v → v.pos = (u.pos + 1) % 2 ^ 32 →
        v.record = some b → s.issuerDone v = true → s.subCancelled v b = false → a.spl = true → b.spl = true →
        s.Check (fun _ => 0) (a.candidate u.dom u.host) 1 → s.Check (fun _ => 0) (b.candidate v.dom v.host) 1 →
        s.Produces a → s.Consumes b →
        let refused (c : BitVec 8) : Prop := exec (.spliceLink k) s =
          .next ((s.putSub { u with code := c, unpaired := true }).putSub { v with code := c, unpaired := true })
        ((∀ e, ¬s.EndsAt a e) ∨ (∀ e, ¬s.EndsAt b e) → refused 0x08 ∨ refused 0x09) ∧
        ∀ ea eb, s.EndsAt a ea → s.EndsAt b eb →
          let p := s.kern a ea
          let q := s.kern b eb
          let marked := s.Marked a ea ∧ s.Marked b eb
          let fits := Limits p q ∧ (s.domain a.dom).splsize ≠ 0 ∧ ∃ c, s.Room p q c
          (¬marked → refused 0x09) ∧ (marked → ¬s.Shaped p q → refused 0x08) ∧ (marked → s.Shaped p q → ¬fits → refused 0x07) ∧
          (marked → s.Shaped p q → fits → ∃ (t x : State) (f : Record) (sp : Splice) (code : Nat), exec (.spliceLink k) s = .next t ∧
            s.Fuses x p q f sp ∧ x.Reason (f.candidate u.dom u.host (some b)) code ∧
            (code ≠ 0 → t = { x.dropSubs [u, v] with
              results := x.results ++ [⟨u.route, resultWord 0 0 code⟩, ⟨v.route, resultWord 0 0 code⟩], draws := x.draws + 3 }) ∧
            (code = 0 → ∃ i, lowest s i ∧ t.results = x.results ++ [⟨u.route, resultWord i 0 0⟩, ⟨v.route, resultWord i 0 0⟩] ∧
              t.subs = (x.dropSubs [u, v]).subs ∧ t.warps = s.warps ∧ (∀ j, j ≠ i → t.launch j = s.launch j) ∧
              (t.launch i).splice = some sp ∧ enters (t.launch i) f)))) ∧
    (∀ x, s.results[k]? = some x →
      let left : State := { s with results := removeAt s.results k }
      (∀ dom va tag, x.route = .queue dom va tag → (∀ y ∈ s.results.take k, ∀ va' tag', y.route ≠ .queue dom va' tag') →
        (((s.domain dom).rings.get {} 1).held.length < 64 →
          exec (.launchResult k) s = .next (left.post dom 1 (leBytes 8 tag.toNat ++ leBytes 8 x.value.toNat))) ∧
        (64 ≤ ((s.domain dom).rings.get {} 1).held.length → exec (.launchResult k) s = .next s)) ∧
      (∀ r va core l c n sh g j, x.route = .thread r va core l c n sh g j → s.Delivers (.launchResult k) left r x.value)) ∧
    (∀ q, s.lstats[k]? = some q →
      let seen : State := if (s.launch q.index).r.dom = q.dom then s.missed q.index else s
      let l := seen.launch q.index
      let here : Prop := l.live = true ∧ l.r.dom = q.dom
      let flag (b : Bool) (n : Nat) : Nat := if b then 2 ^ n else 0
      exec (.deadlineMiss q.index) s = .next (s.missed q.index) ∧
      ((s.launch q.index).live = true → s.cancelDue q.index = true → exec (.lstatAnswer k) s = .next s) ∧
      ((s.launch q.index).live = true → s.cancelDue q.index = false) → ∃ v : Word, s.Delivers (.lstatAnswer k)
          { seen with lstats := removeAt s.lstats k, draws := seen.draws + l.recent.length + 1 } q.ret v ∧
        (¬here → v = 0) ∧
        (here → q.sel = 0 → v = BitVec.ofNat 64 (min l.inst (2 ^ 32 - 1) * 2 ^ 32 + flag l.late 11 + flag l.forced 10 +
          flag l.ovr 9 + flag l.splice.isSome 8 + if l.cancelled then 0 else l.st.code)) ∧
        (here → q.sel = 0 → l.dl ≤ s.feTime → v.getLsbD 11 = true) ∧
        (here → q.sel = 1 → l.st = .demoted → v = 0) ∧ (here → q.sel = 1 → v.toNat ≤ l.budget) ∧
        (here → q.sel = 2 → v = BitVec.ofNat 64 l.dl) ∧ (here → 3 ≤ q.sel → v = BitVec.ofNat 64 l.charges)) ∧
    (let l := s.launch k
     let entry (i : Nat) : Word := BitVec.ofNat 64 (leNat ((s.readVa l.r.dom ((l.r.arg.toNat + 8 * i) % 2 ^ 64) 8).getD []))
     let hdr (i : Nat) : NymphHdr :=
       { launch := k, fm1 := l.r.frame - 1, pc := l.r.entry, wsp := l.r.wspOf i, dtime := s.feTime % 2 ^ 40 }
     let stands (t : State) (core i : Nat) (w0 w1 : Word) : Prop :=
       ∃ n ∈ (t.arr core).slots ++ (t.arr core).hive ++ (t.arr core).combs.flatMap (·.nymphs), n.dom = l.r.dom ∧ n.entry = true ∧
         n.hdr = (hdr i).pack ∧ n.words = ([w0, w1] ++ List.replicate l.r.frame 0).take l.r.frame
     l.live = true → l.st = .admitted → l.cancelled = false → l.rel ≤ s.feTime → s.cancelDue k = false →
      (l.inst = 0 → l.r.kind ≠ 1 → ∃ t, exec (.launchRelease k) s = .next t ∧ t = { s with launches := t.launches } ∧
        (∀ j, j ≠ k → t.launch j = s.launch j) ∧ t.launch k = { l with st := .running }) ∧
      (l.inst = 0 → l.r.kind = 1 → l.r.list = false → ∃ t, exec (.launchRelease k) s = .next t ∧
        t = { s with launches := t.launches, arrival := t.arrival, pools := t.pools, serial := t.serial } ∧
        (∀ j, j ≠ k → t.launch j = s.launch j) ∧
        t.launch k = { l with st := .running, created := true, roamers := l.roamers + l.r.grid } ∧
        ∀ i, i < l.r.grid → stands t (l.r.set.getD (i % l.r.set.length) 0) i (BitVec.ofNat 64 i) l.r.arg) ∧
      (l.inst = 0 → l.r.kind = 1 → l.r.list = true → ∀ f : Nat → Leaf,
        (∀ i, i < l.r.grid → s.walk l.r.dom (entry i).toNat = .ok (f i) ∧ (f i).remote = false) →
        ∃ t, exec (.launchRelease k) s = .next t ∧
          t = { s with launches := t.launches, arrival := t.arrival, pools := t.pools, serial := t.serial } ∧
          t.launch k = { l with st := .running, created := true, roamers := l.roamers + l.r.grid } ∧
          ∀ i, i < l.r.grid → stands t (homeOf ((f i).key (entry i).toNat)) i (entry i) (BitVec.ofNat 64 i)) ∧
      (l.inst ≠ 0 → l.r.kind ≠ 1 → ∃ t, exec (.launchRelease k) s = .next t ∧ t.warps = s.warps ∧
        (let n := if l.r.kind = 2 then 0 else l.r.grid
         t.launch k = { l with st := .running, units := n, total := n })))

/-- R297: DONE of a launch whose units have ended and whose writes are past is written over its TOTAL, with CANCELLED where it
was cancelled, and the launch leaves the table, or goes on to its next instance, with the release and the deadline of its record
and its number (R390); one that is late by then leaves its trace record too (R391); a graph or a job that is sealed or cancelled
and has no unit left is DONE likewise.  R300: a cancellation exits every lane of its launch, or marks its graph, or its job with the
job's graphs, and cancels the launches there.  That the end of an instance disarms nothing is log entry 81's choice, and a second
counter of a node, which its descriptor names, log entry 82's. -/
def Obligations.UnitsEnd : Prop :=
  ∀ (s : State) (k : Nat),
    let putDone (t : State) (dom : Nat) (va : Word) (cancelled : Bool) (total : Nat) (f : Leaf) : Prop :=
      s.translate dom va.toNat = .ok f → f.w = true → f.fmt = 0 → t.mem = s.mem.setN unwritten (f.key va.toNat)
        (leBytes 8 (2 ^ 63 + (if cancelled then 2 ^ 62 else 0) + min total (2 ^ 30 - 1) * 2 ^ 32))
    (let l := s.launch k
     l.live = true → l.units = 0 → l.spent = true → s.writesDone k = true → s.cancelDue k = false → l.r.feed = 0 → l.splice = none →
      (∀ f g, l.r.kind = 2 → l.ccaddr ≠ 0 → l.ccaddr ≠ l.r.cc → l.r.period = 0 → l.graph = none → l.job = none →
        (∀ x ∈ s.tags, x.launch ≠ k) → (∀ e ∈ s.cvs, ¬(e.2.armed = true ∧ e.2.launch = k)) →
        let w := counterWord true l.cancelled l.total 0
        s.translate l.r.dom l.r.cc.toNat = .ok f → f.w = true → f.fmt = 0 →
        (s.putCounter l.r.dom l.r.cc w).translate l.r.dom l.ccaddr.toNat = .ok g → g.w = true → g.fmt = 0 →
        ∃ t, exec (.counterDoneWrite .launch k) s = .next t ∧ t.mem =
          (s.mem.setN unwritten (f.key l.r.cc.toNat) (leBytes 8 w)).setN unwritten (g.key l.ccaddr.toNat) (leBytes 8 w)) ∧
      (l.ccaddr = 0 ∨ l.ccaddr = l.r.cc →
      (l.late = false → l.dl ≤ s.feTime → (s.domain l.r.dom).trace.length < 4096 →
        ∃ (t : State) (e : List Byte), exec (.counterDoneWrite .launch k) s = .next t ∧
          (t.domain l.r.dom).trace = (s.domain l.r.dom).trace ++ [e] ∧ e.take 8 = leBytes 8 s.feTime) ∧
      (l.r.period = 0 ∨ l.cancelled = true → ∃ t, exec (.counterDoneWrite .launch k) s = .next t ∧ (t.launch k).live = false ∧
        (l.graph = none → l.job = none → (∀ x ∈ s.tags, x.launch ≠ k) → (∀ e ∈ s.cvs, ¬(e.2.armed = true ∧ e.2.launch = k)) →
          ∀ f, putDone t l.r.dom l.r.cc l.cancelled l.total f)) ∧
      (l.r.period ≠ 0 → l.cancelled = false → ∃ t, exec (.counterDoneWrite .launch k) s = .next t ∧
        (∀ f, putDone t l.r.dom l.r.cc false l.total f) ∧ t.launch k = { l with
          st := .admitted, inst := l.inst + 1, rel := l.r.release + (l.inst + 1) * l.r.period
          dl := l.r.deadline + (l.inst + 1) * l.r.period, budget := l.r.budget, charges := 0, recent := [], grace := 0, late := false, ovr := false, raised := false, pendingOvr := [], units := 0,
          placed := 0, created := false, closed := false }))) ∧
    (let u := s.graphs.get {} k
     u.live = true → u.sealed = true ∨ u.cancelled = true → u.units = 0 → u.endC < s.timeAt u.dom u.cc →
      (∀ c ∈ s.cancels, ¬(c.lvl = .graph ∧ c.key = k)) → u.job = none → ∃ t, exec (.counterDoneWrite .graph k) s = .next t ∧
        t.graphs = s.graphs.erase k ∧ t.warps = s.warps ∧ t.launches = s.launches ∧
        ∀ f, putDone t u.dom u.cc u.cancelled u.total f) ∧
    (let u := s.jobs.get {} k
     u.live = true → u.sealed = true ∨ u.cancelled = true → u.units = 0 → u.endC < s.timeAt u.dom u.cc →
      (∀ c ∈ s.cancels, ¬(c.lvl = .job ∧ c.key = k)) → (∀ x ∈ s.subs, x.joins ≠ some k) → ∃ t, exec (.counterDoneWrite .job k) s = .next t ∧
        t.jobs = s.jobs.erase k ∧ (t.domain u.dom).job ≠ some k ∧ t.warps = s.warps ∧ t.launches = s.launches ∧
        ∀ f, putDone t u.dom u.cc u.cancelled u.total f) ∧
    (∀ c, s.cancels[k]? = some c → ∃ t, exec (.cancelApply k) s = .next t ∧ t.cancels = removeAt s.cancels k ∧
      (c.lvl = .launch → (s.launch c.key).live = true → (s.launch c.key).cancelled = false →
        (t.launch c.key).cancelled = true ∧ ∀ wid L, L < 32 → (s.warp wid).launch = c.key → (t.lane wid L).st = .exited) ∧
      (c.lvl = .graph → (s.graphs.get {} c.key).live = true → (t.graphs.get {} c.key).cancelled = true ∧
        ∀ j, (s.launch j).live = true → (s.launch j).graph = some c.key ∨ (s.launch j).graph2 = some c.key →
          (t.launch j).cancelled = true) ∧
      (c.lvl = .job → (s.jobs.get {} c.key).live = true → (t.jobs.get {} c.key).cancelled = true ∧
        (∀ g, (s.graphs.get {} g).live = true → (s.graphs.get {} g).job = some c.key → (t.graphs.get {} g).cancelled = true) ∧
        ∀ j, (s.launch j).live = true → ((s.launch j).job = some c.key ∨ ∃ g, (s.graphs.get {} g).live = true ∧
          (s.graphs.get {} g).job = some c.key ∧ (s.launch j).graph = some g) → (t.launch j).cancelled = true))

/-- R391: a launch not DONE at its deadline is late, and a trace record of the front end says so.  R253, R398, R399: charges
that reach the budget make OVERRUN pending for every warp of the launch, or apply the policy where no supervisor handler stands;
R254: user lanes that are ready leave for the supervisor handler as one fragment for their PC; R399: the grace ends by the
policy, which demotes, parks with an event, or cancels; R435: while 64 events are held for the ring, a policy that parks waits
(log entries 47, 48). -/
def Obligations.Overruns : Prop :=
  ∀ (s : State) (k : Nat),
    let l := s.launch k
    let others (t : State) : Prop := ∀ j, j ≠ k → t.launch j = s.launch j
    let full : Prop := l.r.policy = 1 ∧ 64 ≤ ((s.domain l.r.dom).rings.get {} 3).held.length
    (l.live = true → l.late = false → l.dl ≤ s.feTime → s.cancelDue k = false → k < 4096 →
      (s.domain l.r.dom).trace.length < 4096 → ∃ (t : State) (e : List Byte), exec (.deadlineMiss k) s = .next t ∧
        t = { s with launches := t.launches, domains := t.domains, draws := s.draws + 3 } ∧ others t ∧
        t.launch k = { l with late := true } ∧ (∀ d, d ≠ l.r.dom → t.domain d = s.domain d) ∧
        t.domain l.r.dom = { s.domain l.r.dom with trace := (s.domain l.r.dom).trace ++ [e] } ∧ e.length = 32 ∧
        e.take 8 = leBytes 8 s.feTime ∧ leNat (e.drop 24) / 2 ^ 20 % 2 ^ 12 = k ∧ leNat (e.drop 24) % 2 ^ 4 = 1) ∧
    (l.live = true → l.st = .running → l.cancelled = false → l.budget ≤ l.charges → s.cancelDue k = false →
      (l.noSup = false → ∃ t, exec (.overrunRaise k) s = .next t ∧ t = { s with launches := t.launches } ∧ others t ∧
        t.launch k = { l with
          st := .grace, ovr := true, raised := true, grace := 0
          pendingOvr := s.warpsWhere (fun w => w.live && decide (w.launch = k)) ++ s.savedWarps k }) ∧
      (l.noSup = true → ¬full → ∃ t, exec (.overrunRaise k) s = .next t ∧ s.PolicyDone t k { l with ovr := true }) ∧
      (l.noSup = true → full → exec (.overrunRaise k) s = .next s)) ∧
    (l.live = true → l.st = .grace → l.cancelled = false → s.cancelDue k = false →
      16384 ≤ l.grace ∨ ((∀ wid ∈ l.pendingOvr, s.overrunOwed wid = false) ∧ s.supRuns k = false) →
      (¬full → ∃ t, exec (.graceExpire k) s = .next t ∧ s.PolicyDone t k l) ∧ (full → exec (.graceExpire k) s = .next s)) ∧
    (∀ (wid : Nat) (ls hs : List Nat) (pc : Word),
      let w := s.warp wid
      let id := freshId (w.frags.map (·.id)) 33 w.fragctr
      let slot := freeSlot w.slots
      w.live = true → w.launch = k → s.overrunLater wid = false → s.cancelDue k = false → s.overrunLanes wid = (ls, hs) → ls ≠ [] →
      (∀ L ∈ ls, (s.lane wid L).pc = pc ∧ (s.lane wid L).st = .ready ∧ (s.lane wid L).wait = none) →
      ∃ (t : State) (f : Frag), exec (.overrunDeliver wid) s = .next t ∧
        t = { s with warps := t.warps, launches := t.launches, draws := s.draws + 1 } ∧ others t ∧
        t.launch k = { l with pendingOvr := l.pendingOvr.filter (· ≠ wid) } ∧ (∀ j, j ≠ wid → t.warp j = s.warp j) ∧
        t.warp wid = { w with
          lanes := (t.warp wid).lanes, fragctr := id, frags := w.frags ++ [f], slots := w.slots ||| BitVec.ofNat 32 (2 ^ slot.toNat) } ∧
        f.id = id ∧ f.slot = slot ∧ f.lanes = maskOf ls ∧ f.sib = 0 ∧ f.parent = 0 ∧ f.st = .pending ∧ f.pc = pc ∧
        f.ev = { cause := 0x0E, sub := 0x01, info0 := BitVec.ofNat 64 l.charges, info1 := BitVec.ofNat 64 l.budget } ∧
        (l.splice = none → f.resume = pc) ∧
        ∀ L, t.lane wid L =
          if L ∈ ls then { s.lane wid L with st := .entering, frag := id, fslot := slot, heldOverrun := false }
          else if L ∈ hs then { s.lane wid L with heldOverrun := true } else s.lane wid L)

/-- R377 to R379, R394: the next workgroup of a launch, alone in need of a place, is placed on the first partition with room:
free slots, a range of the scratchpad that no other workgroup of the core holds, every lane at the entry with its index in w0,
and the workgroup's index, ARG and GRID in s0 to s2; without room, saves of contexts with later deadlines are asked for on one
partition of its choices, once.  R264, R396: a save asked for reads the workgroup out and frees its place, its lines written one by
one; R397: past 8 us it goes no further, its context is reset and its launch cancelled, with an event, and
a request whose context has ended before is dropped; R265: a saved context that
may be placed comes back as its record says; R418: a fused thread has the entry values of its producer, and the consumer's in the
raised registers that the consumer names; R425: a fused launch with no workgroup left is taken apart into its two parts.  Which
range is free for the choosing, how a warp's waits are saved, the order of the lines and the states of the parts are the choices of
log entries 34, 44, 45 and 51. -/
def Obligations.WorkIsPlaced : Prop :=
  ∀ (s : State) (k : Nat),
    (∀ (core part : Nat) (rest : List (Nat × Nat)),
      let x : Item := .group k
      let l := s.launch k
      let n := l.r.warps
      let slots := s.slotsFor x core part
      s.items = [x] → s.candidates x = (core, part) :: rest → s.fits x core part = true →
      ∃ t, exec .workPlacement s = .next t ∧ t.mem = s.mem ∧ t.net = s.net ∧ (t.launch k).placed = l.placed + 1 ∧
        (∀ j, j ≠ s.serial → t.group j = s.group j) ∧
        (let g := t.group s.serial
         g.live = true ∧ g.core = core ∧ g.part = part ∧ g.dom = l.r.dom ∧ g.launch = k ∧ g.g = l.placed ∧ g.ssize = l.r.scratch ∧
         g.acc = l.r.acc ∧ g.warps = (List.range n).map (s.serial + 1 + ·) ∧ g.sbase % 8 = 0 ∧ g.sbase + g.ssize ≤ 1572864 ∧
         ∀ e ∈ s.groups, e.2.live = true → e.2.core = core → overlap e.2.sbase e.2.ssize g.sbase g.ssize = false) ∧
        ∀ i, i < n → (let w := t.warp (s.serial + 1 + i)
          w.live = true ∧ w.core = core ∧ w.part = part ∧ w.slot = slots.getD i 0 ∧ w.roaming = false ∧ w.dom = l.r.dom ∧
          w.launch = k ∧ w.group = s.serial ∧ w.index = i ∧
          (l.splice = none → w.sregs.get 0 0 = BitVec.ofNat 64 l.placed ∧ w.sregs.get 0 1 = l.r.arg ∧
            w.sregs.get 0 2 = BitVec.ofNat 64 l.r.grid ∧ ∀ j, 3 ≤ j → w.sregs.get 0 j = 0) ∧
          (∀ p, l.splice = some p → (∀ j, w.sregs.get 0 j =
            if p.namesS2 = true ∧ j = 2 + p.offS then BitVec.ofNat 64 p.q.grid
            else if p.namesS1 = true ∧ j = 1 + p.offS then p.q.arg
            else if (p.namesS0 = true ∧ j = p.offS) ∨ j = 0 then BitVec.ofNat 64 l.placed
            else if j = 1 then l.r.arg else if j = 2 then BitVec.ofNat 64 l.r.grid else 0) ∧
            ∀ L j, L < 32 → (w.lane L).regs.get 0 j =
              if (p.namesW0 = true ∧ j = p.offW) ∨ j = 0 then BitVec.ofNat 64 (32 * i + L) else 0) ∧
          ∀ L, L < 32 → (let a := w.lane L
            a.st = .ready ∧ a.pc = l.r.entry ∧ a.handler = false ∧ a.wb = 0 ∧ a.resf = 1 ∧ a.depth = 0 ∧ a.entry = true ∧
            a.wsp = BitVec.ofNat 64 (l.r.wspbase.toNat + 192 * l.r.wspstep * (l.placed * 32 * n + (32 * i + L) + 1)) ∧
            (l.splice = none → a.regs.get 0 0 = BitVec.ofNat 64 (32 * i + L) ∧ ∀ j, j ≠ 0 → a.regs.get 0 j = 0)))) ∧
    (∀ x : Item, s.items = [x] → s.target x = none →
      ((∃ r ∈ s.saveReqs, r.item = some (s.itemId x)) → ∃ t, exec .workPlacement s = .next t ∧ t = { s with draws := s.draws + 1 }) ∧
      ((∀ r ∈ s.saveReqs, r.item ≠ some (s.itemId x)) → ∃ (t : State) (rs : List SaveReq), exec .workPlacement s = .next t ∧
        t = { s with saveReqs := s.saveReqs ++ rs, draws := s.draws + 1 } ∧
        ∀ r ∈ rs, r.item = some (s.itemId x) ∧ r.since = s.feTime ∧ (r.core, r.part) ∈ s.choices x ∧
          if r.roaming then ∃ e ∈ s.warps, e.1 = r.target ∧ e.2.core = r.core ∧ e.2.part = r.part ∧
            (s.launch x.launch).effective < (s.launch e.2.launch).effective
          else ∃ e ∈ s.groups, e.1 = r.target ∧ e.2.core = r.core ∧ e.2.part = r.part ∧
            (s.launch x.launch).effective < (s.launch e.2.launch).effective)) ∧
    (∀ (r : SaveReq),
      let g := s.group r.target
      let rest := g.warps.foldl State.unwaitLoads (if g.acc then s.pauseMat (2 * g.core + g.part) else s)
      let paused := rest.pauseCmds fun c => c.group = r.target
      let base := (s.launch g.launch).areaVa g.g
      s.saveReqs[k]? = some r → r.roaming = false → g.live = true → g.warps.any s.settling = false →
      (s.feTime < r.since + 8000 →
        ∃ (t : State) (c : Saved), exec (.contextSave k) s = .next t ∧ t.mem = s.mem ∧ t.cmds = paused.cmds ∧
          t.groups = s.groups.erase r.target ∧ (∀ wid ∈ g.warps, t.warp wid = {}) ∧
          (∀ wid, wid ∉ g.warps → t.warp wid = s.warp wid) ∧ t.saved = s.saved ++ [c] ∧ c.base = BitVec.ofNat 64 base ∧
          c.pieces = areaLines (paused.groupPieces base g) ∧ c.roaming = false ∧ c.group = g ∧ c.acc = g.acc ∧
          c.warps.map (·.1) = g.warps ∧ c.since = r.since ∧ c.time = BitVec.ofNat 64 (s.localTime g.core) ∧
          t.saveReqs = s.saveReqs.filter fun x => x.roaming || decide (x.target ≠ r.target)) ∧
      (r.since + 8000 ≤ s.feTime → exec (.contextSave k) s = .next s)) ∧
    (∀ (c : Saved) (va : Nat) (bs : List Byte) (more : List (Nat × List Byte)) (f : Leaf),
      s.draining[k]? = some c → c.pieces = (va, bs) :: more → s.feTime < c.since + 8000 →
      s.translate c.dom va = .ok f → f.w = true → f.fmt = 0 →
      ∃ t, exec (.contextSave (s.saveReqs.length + k)) s = .next t ∧ t.mem = s.mem.setN unwritten (f.key va) bs ∧
        t.warps = s.warps ∧ t.groups = s.groups ∧
        t.saved = s.saved.map fun x => if x.id = c.id then { x with pieces := x.pieces.drop 1 } else x) ∧
    (∀ (r : SaveReq),
      let j := if r.roaming then (s.warp r.target).launch else (s.group r.target).launch
      let lives : Bool := if r.roaming then (s.warp r.target).live else (s.group r.target).live
      s.saveReqs[k]? = some r →
      (lives = false → exec (.saveTimeout k) s = .next { s with saveReqs := removeAt s.saveReqs k }) ∧
      (lives = true → r.since + 8000 ≤ s.feTime → (s.launch j).live = true →
      ((s.domain (s.launch j).r.dom).rings.get {} 3).held.length < 64 →
      ∃ t u : State, exec (.saveTimeout k) s = .next t ∧ t = u.postEq (s.launch j).r.dom 2 0 j 0 0 ∧
        (u.launch j).forced = true ∧ (u.launch j).cancelled = true)) ∧
    (∀ (c : Saved), s.draining[k]? = some c → c.since + 8000 ≤ s.feTime → (s.launch c.launchOf).live = true →
      ((s.domain c.dom).rings.get {} 3).held.length < 64 →
      ∃ t u : State, exec (.saveTimeout (s.saveReqs.length + k)) s = .next t ∧
        t = u.postEq (s.launch c.launchOf).r.dom 2 0 c.launchOf 0 0 ∧
        (u.launch c.launchOf).forced = true ∧ (u.launch c.launchOf).cancelled = true) ∧
    (∀ (c : Saved) (wid : Nat) (w x : Warp),
      s.saved[k]? = some c → c.roaming = true → c.warps = [(wid, w)] → s.restoreDue c = true → s.items = [.restore c] →
      s.fits (.restore c) w.core w.part = true → s.readWarp c w false = (x, []) →
      (∀ L, L < 32 → (x.lane L).wait = none) →
      (∀ L, L < 32 → (w.lane L).st ≠ .exited → (x.lane L).st ≠ .exited) →
      ∃ t, exec (.contextRestore k) s = .next t ∧
        t = { s with
          warps := t.warps, saved := s.saved.filter (fun y => y.id ≠ c.id), cmds := t.cmds, wbuf := t.wbuf, parts := t.parts
          serial := s.serial + 1024, draws := s.draws + 1 } ∧
        ((∀ y ∈ s.cmds, y.wid = wid → y.st ≠ .paused) → t.cmds = s.cmds ∧ t.wbuf = s.wbuf ∧ t.parts = s.parts) ∧
        t.warp wid = x ∧ ∀ j, j ≠ wid → t.warp j = s.warp j) ∧
    (∀ (p : Splice) (j : Nat),
      let l := s.launch k
      let st : LState := if l.st = .demoted ∨ l.st = .parked ∨ l.st = .admitted then l.st else .running
      l.splice = some p → k ∈ s.unsplices → s.inHandler k = false → s.writesStill k = false →
      (∀ e ∈ s.groups, ¬(e.2.live = true ∧ e.2.launch = k)) → (∀ c ∈ s.saved, c.roaming = false → ∀ e ∈ c.warps, e.2.launch ≠ k) →
      (∀ c ∈ s.cmds, c.launch ≠ k) → s.freeIndex = some j → j ≠ k → ∃ t, exec (.unspliceExecute k) s = .next t ∧
        t.warps = s.warps ∧ t.unsplices = s.unsplices.filter (· ≠ k) ∧ (∀ i, i ≠ k → i ≠ j → t.launch i = s.launch i) ∧
        (let a := t.launch k
         a.r = p.p ∧ a.splice = none ∧ a.st = st ∧ a.dl = p.p.deadline ∧ a.budget = p.p.budget - p.chargesA ∧ a.charges = 0 ∧
         a.units = l.units ∧ a.graph = l.graph) ∧
        (let b := t.launch j
         b.r = p.q ∧ b.splice = none ∧ b.st = st ∧ b.dl = p.q.deadline ∧ b.budget = p.q.budget - p.chargesB ∧ b.charges = 0 ∧
         b.units = l.r.grid - l.placed ∧ b.graph = l.graph2 ∧ b.other = some k))

/-! ### Engines and the matrix unit -/

/-- R304, R309, R313 to R317: a TLOAD of PLAIN pages in one type brings its tile into the buffer, and a TSTORE or AREAD takes it
to memory, every element of the tile in extent and zeros for the others of a load; R329: an MCAST passes its checks and joins
its group at the coordinator, the home of its first element in extent; R325: an LCOPY of ranges that share no line copies its
words; R332: a CONDENSE writes its map at MOUT and packs the passes that it keeps; R333, R334: a DISPATCH of one token sends it to
the slot of its peer.  Each command ends without an error.  R326: a step of CONDENSE scans one row; R375: it waits while an MCOND
occupies the unit.  How far a step goes is free, and a command's own event runs it whole: log entries 16 and 39. -/
def Obligations.EngineCommandsRun : Prop :=
  ∀ (s : State) (core : Nat) (c : Cmd),
    (∀ (f0 : Leaf) (f : Nat → Leaf), s.TileStarts core c f0 f →
      let c2 := s.tileCmd c f0
      let key (i : Nat) : Nat := (f i).key (c2.elemVa c2.esize i)
      let apart : Prop := ∀ i j, i < j → j < c2.total → c2.inExtent i = true → c2.inExtent j = true → key i ≠ key j
      (c.opc = 1 → ∃ t, exec (.tload core) s = .next t ∧ t.Ended c ∧ s.Loaded t c2 f ∧ t.mem = s.mem ∧ t.acc = s.acc ∧
        t.warps = s.warps) ∧
      (c.opc = 2 → apart → ∃ t, exec (.tstore core) s = .next t ∧ t.Ended c ∧ s.Stored t c2 f ∧ t.scratch = s.scratch ∧
        t.acc = s.acc ∧ t.warps = s.warps) ∧
      (c.opc = 3 → apart → ∃ t, exec (.aread core) s = .next t ∧ t.Ended c ∧ s.Stored t c2 f ∧ t.scratch = s.scratch ∧
        t.acc = s.acc ∧ t.warps = s.warps) ∧
      (c.opc = 4 → ∃ t, exec (.mcast core) s = .next t ∧ t.mem = s.mem ∧ t.scratch = s.scratch ∧ t.warps = s.warps ∧
        t.cmds = s.cmds.map (fun x => if x.serial = c.serial then { c2 with st := .joined } else x) ∧
        t.mjoins = s.mjoins ++
          [{ cmd := c.serial, core := c.core, dom := c.dom
             home := homeOf (64 * ((f 0).key (64 * (c2.elemVa c2.esize 0 / 64)) / 64)), key := BitVec.ofNat 32 (c.f 0x28 4)
             desc := c2.record ++ (c.bytes.drop 0x10).take 16 ++ [c.bytes.getD 2 0] ++ (c.bytes.drop 0x2C).take 6 }])) ∧
    (∀ (f g : Nat → Leaf),
      let n := c.f 0x18 4 / 8
      let src (i : Nat) : Nat := (c.f 8 8 + 8 * i) % 2 ^ 64
      let dst (i : Nat) : Nat := (c.f 0x10 8 + 8 * i) % 2 ^ 64
      let from' (i : Nat) : Nat := (f i).key (src i)
      let to' (i : Nat) : Nat := (g i).key (dst i)
      s.engineNext .copy core = some c → c.Fresh → c.opc = 5 → c.lcopyBad = false → s.tags = [] →
      (∀ i, i < n → s.Mapped c (src i) (f i) ∧ (f i).r = true ∧ s.Mapped c (dst i) (g i) ∧ (g i).w = true) →
      (∀ i j, i < n → j < n → from' i / 64 ≠ to' j / 64 ∧ (i ≠ j → to' i ≠ to' j)) →
      ∃ t, exec (.lcopy core) s = .next t ∧ t.Ended c ∧ (∀ i, i < n → t.bytesAt (to' i) 8 = s.bytesAt (from' i) 8) ∧
        (∀ a, (∀ i, i < n → ¬(to' i ≤ a ∧ a < to' i + 8)) → t.byteAt a = s.byteAt a) ∧ t.scratch = s.scratch ∧
        t.warps = s.warps) ∧
    (∀ x, parseCondense c.bytes = some x →
      let kept := (List.range x.npass).filter fun j =>
        decide (x.keep / 2 ^ j % 2 = 1) || (List.range x.rows).any (s.condNonzero core x j)
      let out := x.dst + kept.length * x.rows * x.seg
      let byte (t : State) (a : Nat) : Byte := t.scratch.get unwritten (scratchKey core a)
      s.condBusy .cond core = false → s.engineNext .cond core = some c → c.core = core →
      (c.Fresh → x.inside (s.scratchRange (s.warp c.wid) c.origin) = true → overlap x.dst x.dstLen x.mout 8 = false →
        ∃ t, exec (.condense core) s = .next t ∧ t.Ended c ∧ t.mem = s.mem ∧ t.warps = s.warps ∧
          t.scratchNat core x.mout 8 = (kept.map (2 ^ ·)).sum ∧
          (∀ q j r, kept[q]? = some j → r < x.rows →
            t.scratch.getN unwritten (scratchKey core (x.dst + (q * x.rows + r) * x.seg)) x.seg = s.condSeg core x j r) ∧
          ∀ a, ¬(x.mout ≤ a ∧ a < x.mout + 8) → ¬(x.dst ≤ a ∧ a < out) → byte t a = byte s a) ∧
      (c.st = .running → c.total = x.npass → c.prog < c.total → c.sub < x.rows →
        let hit := decide (x.keep / 2 ^ c.prog % 2 = 1) || s.condNonzero core x c.prog c.sub
        hit = true ∨ c.sub + 1 < x.rows → ∃ t charged, exec (.engineStep .cond core) s = .next t ∧
          t = { s with launches := t.launches, cmds := s.cmds.map fun y => if y.serial = c.serial then
            { c with
              charged := charged, sub := if hit then x.rows else c.sub + 1
              kept := if hit then c.kept + 2 ^ c.prog else c.kept }
            else y })) ∧
    (s.condBusy .cond core = true → ∃ t, exec (.engineStep .cond core) s = .next t ∧ t.cmds = s.cmds ∧ t.warps = s.warps ∧
      t.mem = s.mem) ∧
    (∀ (ix pt : Leaf) (g : Nat → Leaf) (v : Nat → Byte),
      let peerVa := (c.f 0x10 8) % 2 ^ 64
      let e := leNat (s.bytesAt (ix.key peerVa) 8)
      let p := e % 256
      let tableVa := (c.f 0x18 8 + 16 * p) % 2 ^ 64
      let row := s.bytesAt (pt.key tableVa) 16
      let slot := e / 2 ^ 8
      let tb := c.f 0x24 4
      let dst (i : Nat) : Nat := (leNat (row.take 8) + slot * leNat ((row.drop 8).take 4) + i) % 2 ^ 64
      let to' (i : Nat) : Nat := (g i).key (dst i)
      let room := s.scratchRange (s.warp c.wid) c.origin
      s.engineNext .disp core = some c → c.Fresh → c.opc = 0x20 → c.dispatchBad = false → c.f 0x20 4 = 1 → s.tags = [] →
      s.Mapped c peerVa ix → ix.r = true → s.Mapped c tableVa pt → pt.r = true → p ≤ 15 → e < 2 ^ 40 →
      slot < leNat ((row.drop 12).take 4) →
      (c.f 1 1 = 128 → room.1 ≤ c.f 8 8 ∧ c.f 8 8 + tb ≤ room.1 + room.2 ∧
        ∀ i, i < tb → v i = s.scratch.get unwritten (scratchKey c.core (c.f 8 8 + i))) →
      (c.f 1 1 = 0 → ∀ i, i < tb → ∃ f : Leaf, s.Mapped c ((c.f 8 8 + i) % 2 ^ 64) f ∧ f.r = true ∧
        v i = s.byteAt (f.key ((c.f 8 8 + i) % 2 ^ 64)) ∧ ∀ j, j < tb → f.key ((c.f 8 8 + i) % 2 ^ 64) / 64 ≠ to' j / 64) →
      (∀ i, i < tb → s.Mapped c (dst i) (g i) ∧ (g i).w = true ∧ ∀ j, j < tb → i ≠ j → to' i ≠ to' j) →
      ∃ t, exec (.dispatch core) s = .next t ∧ (∃ x ∈ t.cmds, x.serial = c.serial ∧ x.st = .finished ∧ x.error = none ∧
          x.sent.get 0 p = tb) ∧
        (∀ i, i < tb → t.byteAt (to' i) = v i) ∧ t.scratch = s.scratch ∧ t.warps = s.warps ∧
        ∀ a, (∀ i, i < tb → a ≠ to' i) → t.byteAt a = s.byteAt a)

/-- R233, R297, R306, R308: a command that has ended without an error retires: its number in its timeline, with its completion
time, or its unit of the launch; R306: the failure of one without a number is reported.  R330: the first join at a coordinator
opens a group with its delays, a later one with the same description adds its member, which missed what was streamed before it,
another is turned away; an open group streams to its members once all have joined or its delay has passed, each line read once,
and a member that is away misses it; a group that is served and complete closes, and its members end, with an error where one of
them failed.  How many elements a step streams, and the coordinator's clock, are the choices of log entry 38. -/
def Obligations.CommandsRetire : Prop :=
  ∀ (s : State) (k : Nat),
    (∀ (c : Cmd),
      let w := s.warp c.wid
      let g := s.group c.group
      (s.cmds.filter fun x => x.st = .finished)[k]? = some c → c.error = none → w.live = true → w.roaming = false →
      w.group = c.group → g.live = true → c.wid ∈ g.warps → (∃ L, L < 32 ∧ (w.lane L).st ≠ .exited) →
      ∃ t, exec (.commandRetire k) s = .next t ∧ t.cmds = s.cmds.filter (fun x => x.serial ≠ c.serial) ∧ t.warps = s.warps ∧
        (∀ j n, c.track = some (j, n) → (g.tls.get {} j).retired = [] → n = (g.tls.get {} j).done + 1 →
          (t.group c.group).tls.get {} j =
            { g.tls.get {} j with done := n, ce := BitVec.ofNat 64 (max (g.tls.get {} j).ce.toNat c.cmax.toNat) } ∧
          t.mem = s.mem ∧ (t.launch c.launch).units = (s.launch c.launch).units) ∧
        (c.track = none → (t.launch c.launch).units = (s.launch c.launch).units - 1)) ∧
    (∀ (c : Cmd) (e : TlErr),
      let w := s.warp c.wid
      (s.cmds.filter fun x => x.st = .finished)[k]? = some c → c.error = some e → c.track = none → w.live = false →
      ∃ (t : State) (inner : List Byte), exec (.commandRetire k) s = .next t ∧
        t.cmds = s.cmds.filter (fun x => x.serial ≠ c.serial) ∧ t.warps = s.warps ∧ inner.length = 128 ∧
        (t.launch c.launch).units = (s.launch c.launch).units - 1 ∧
        s.Posted t c.dom 5 (List.replicate 128 0 ++ inner) ∧
        holdFields inner [(0, 1, e.cause.toNat), (1, 1, e.sub.toNat), (2, 1, 2), (3, 1, c.origin.toNat),
          (20, 4, (c.dom * 2 ^ 15 + c.wslot * 2 ^ 10 + c.part * 2 ^ 9 + c.core) % 2 ^ 32), (32, 12, c.word.toNat),
          (44, 2, c.launch % 2 ^ 16), (48, 8, c.pc.toNat), (56, 8, c.origpc.toNat), (72, 8, c.failAt % 2 ^ 64),
          (88, 8, e.info0.toNat)]) ∧
    (∀ (j : McJoin) (c : Cmd),
      let left : State := { s with mjoins := removeAt s.mjoins k }
      let fits (g : McGroup) : Bool := decide (g.key = j.key) && decide (g.dom = j.dom) && decide (g.cluster = j.core / 16) &&
        decide (g.home = j.home)
      let now := s.homeTime j.home
      s.mjoins[k]? = some j → s.cmds.find? (fun x => decide (x.serial = j.cmd) && decide (x.st ≠ .finished)) = some c →
      (s.mgroups.find? fits = none → exec (.mcastJoin k) s = .next { left with
        serial := s.serial + 1
        mgroups := s.mgroups ++
          [{ id := s.serial, home := j.home, dom := j.dom, cluster := j.core / 16, desc := j.desc, key := j.key,
             mask := BitVec.ofNat 16 (c.f 0x2C 2), members := [{ cmd := j.cmd, core := j.core }],
             streamAt := now + 250 * c.f 0x30 2, closeAt := now + 250 * c.f 0x2E 2 }] }) ∧
      (∀ g, s.mgroups.find? fits = some g → g.desc = j.desc →
        let me : McMember := { cmd := j.cmd, core := j.core, missed := if g.pos = 0 then [] else [(0, g.pos)] }
        exec (.mcastJoin k) s = .next { left with
          mgroups := s.mgroups.map fun x => if x.id = g.id then { g with members := g.members ++ [me] } else x }) ∧
      (∀ g, s.mgroups.find? fits = some g → g.desc ≠ j.desc → ∃ t, exec (.mcastJoin k) s = .next t ∧ t.mgroups = s.mgroups ∧
        ∃ x ∈ t.cmds, ∃ e, x.serial = c.serial ∧ x.st = .finished ∧ x.error = some e ∧ e.cause = 0x0A ∧ e.sub = 0x02)) ∧
    (∀ (g : McGroup), s.mgroups[k]? = some g →
      let goes : Prop := g.streaming = true ∨ g.whole = true ∨ g.streamAt ≤ s.homeTime g.home
      let total := s.mcTotal g
      (¬goes → exec (.mcastStreamStart k) s = .next s) ∧
      (goes → g.pos < total → (∀ m ∈ g.members, s.attached m = none) → ∃ e, 0 < e ∧ g.pos + e ≤ total ∧
        exec (.mcastStreamStart k) s = .next { s.putMc { g with
            streaming := true, pos := g.pos + e
            members := g.members.map fun m =>
              { m with missed := m.missed ++ (List.range e).map fun i => (g.pos + i, g.pos + i + 1) } } with
          draws := s.draws + 1 }) ∧
      (goes → total ≤ g.pos → s.mcReplay g = none →
        exec (.mcastStreamStart k) s = .next { s.putMc { g with streaming := true } with draws := s.draws + 1 }) ∧
      (∀ (c : McMember → Cmd) (f : McMember → Nat → Leaf),
        goes → g.pos = 0 → 0 < total → g.lines = [] → g.members.Pairwise (fun a b => (c a).core ≠ (c b).core) →
        (∀ m ∈ g.members, s.attached m = some (c m) ∧ (c m).Ready s (f m) ∧ (c m).total = total) →
        ∃ (t : State) (e : Nat) (ls : List (Nat × List Byte)), exec (.mcastStreamStart k) s = .next t ∧ 0 < e ∧ e ≤ total ∧
          t.mgroups = (s.putMc { g with streaming := true, pos := e, lines := ls }).mgroups ∧ t.mem = s.mem ∧ t.warps = s.warps ∧
          ∀ m ∈ g.members, (∃ x ∈ t.cmds, x.serial = m.cmd ∧ x.st = .joined ∧ x.prog = e) ∧
            ∀ i, i < e → t.bufBytes (c m) i = if (c m).inExtent i
              then s.bytesAt ((f m i).key ((c m).elemVa (c m).esize i)) (c m).esize else List.replicate (c m).dsize 0)) ∧
    (∀ (g : McGroup),
      let ms := s.cmds.filter fun c => g.members.any (fun m => m.cmd = c.serial) && decide (c.st ≠ .finished)
      let failing := g.failed ||| (g.mask &&& ~~~g.joined)
      s.mgroups[k]? = some g → g.streaming = true → s.mcTotal g ≤ g.pos →
      (∀ c ∈ ms, c.prog = c.total ∧ c.st = .joined ∧ c.note = none) → g.whole = true ∨ g.closeAt ≤ s.homeTime g.home → ∃ t, exec (.mcastGroupClose k) s = .next t ∧
        t.mgroups = s.mgroups.filter (fun x => x.id ≠ g.id) ∧ t.mem = s.mem ∧ t.warps = s.warps ∧
        ∀ c ∈ ms, ∃ x ∈ t.cmds, x.serial = c.serial ∧ x.st = .finished ∧ (failing = 0 → x.error = none) ∧
          (failing ≠ 0 → ∃ e, x.error = some e ∧ e.cause = 0x0A ∧ e.sub = 0x01 ∧ e.info0 = BitVec.ofNat 64 failing.toNat))

/-- R358, R360: an operation of one partition that waits first at a free unit starts there: the instruction retires.  R354, R356,
R363, R371: rows of an MMA that runs at one partition, or at every member of a gang in step, are computed one after another, each
row read once from the streamer's scratchpad, each element of a slice taking the sum of its row and column and MFLAGS the flags,
until the operation is complete; nothing else of memory changes.  R360: each row of an MMAS whose pass has both planes is computed
with the plane loaded from the weight buffer; a pass that has neither is skipped, one that has one of them is scanned and runs where
an infinity or a NaN stands in it, with zeros for the other; the last pass ends the operation and leaves its planes invalid.  R348 to
R351, R189, R190: a row and a column hold their elements in the mode's format, or in block slots; R354: a pass adds the exact sum of
products to the accumulator element and rounds once, with the NaNs and flags of an invalid product or sum, and leaves it alone where
the sum is zero.  How many rows an event computes, at least one, is free (log entry 39). -/
def Obligations.MatrixOperationsRun : Prop :=
  (∀ (s : State) (k : Nat),
    let u := (s.part k).mat
    let rows := Config.number s.draws % 65536 + 1
    (∀ (o : MatOp) (rest : List MatOp),
      u.waiting = o :: rest → o.cv = none → o.signed = true → u.free = true → s.waiters o.wid o.serial ≠ [] →
      ∃ t, exec (.matrixOpStart k) s = .next t ∧
        t = { s with warps := t.warps, parts := t.parts, launches := t.launches, serial := s.serial + 1, cur := {} } ∧
        s.Resumed t o.wid (s.waiters o.wid o.serial) ∧ (∀ j, j ≠ k → t.part j = s.part j) ∧
        t.part k = { s.part k with mat := { u with
          waiting := u.waiting.filter (fun x => x.serial ≠ o.serial), st := .running
          op := { o with stream := k, streamAct := o.act, members := 0, start := s.serial } } }) ∧
    (let o := u.op
     let ps := s.mates o k
     let M := actM o.act
     let op (q : Nat) : MatOp := (s.part q).mat.op
     let slot (q m n : Nat) : Nat := accAddr (op q).accd + (m * o.mode.N + n) * o.mode.asize
     let col (q : Nat) := o.mode.column (s.part q).mat.active.bwCode (fun a n => (s.part q).mat.active.bytes.getN unwritten a n)
     let last := min (o.row + rows) M
     let sum (q m n : Nat) := pass o.mode.facc o.mode.fmt (s.accNat q (slot q m n) o.mode.asize) (o.rowOf (s.actBytes o 0 m)) (col q n)
     u.st = .running → o.sparse = false → o.row < M → k ∈ ps →
     (∀ q ∈ ps, (s.part q).mat.st = .running ∧ (op q).mode = o.mode ∧ (op q).row = o.row ∧ actM (op q).act = M ∧
       slot q M 0 ≤ 131072) →
     ∃ t : State, exec (.matrixOpComplete k) s = .next t ∧ t.mem = s.mem ∧ t.scratch = s.scratch ∧ t.warps = s.warps ∧
      (∀ q, q ∉ ps → t.part q = s.part q) ∧
      (∀ q ∈ ps, (t.part q).mat.op.row = last ∧ (t.part q).mat.st = (if M ≤ o.row + rows then .complete else .running) ∧
        (∀ m n, o.row ≤ m → m < last → n < o.mode.N → t.accNat q (slot q m n) o.mode.asize = (sum q m n).bits) ∧
        ∀ b, (t.part q).mat.mflags.getLsbD b = true ↔
          (s.part q).mat.mflags.getLsbD b = true ∨
            ∃ m n, o.row ≤ m ∧ m < last ∧ n < o.mode.N ∧ (sum q m n).flags.getLsbD b = true) ∧
      ∀ a, (∀ q m n, q ∈ ps → o.row ≤ m → m < last → n < o.mode.N →
        ¬(accKey q (slot q m n) ≤ a ∧ a < accKey q (slot q m n) + o.mode.asize)) → t.acc.get unwritten a = s.acc.get unwritten a) ∧
    (let o := u.op
     let M := actM o.act
     let here := o.amap.getLsbD o.pass
     let there := o.wmap.getLsbD o.pass
     let loaded := s.wbuf.getN unwritten (weightKey (k / 2) (wdAddr o.wd + popBelow o.wmap.toNat o.pass * o.mode.pb 0)) (o.mode.pb 0)
     let plane : Tab Byte := if o.row = 0 then Tab.setN unwritten [] 0 loaded else u.active.bytes
     let zeros : List FVal := List.replicate o.mode.K (.fin false 0 0)
     let xs (m : Nat) : List FVal := if here then o.rowOf (s.actBytes o (popBelow o.amap.toNat o.pass) m) else zeros
     let col (n : Nat) : List FVal := if there then o.mode.column 0 (fun a j => plane.getN unwritten a j) n else zeros
     let slot (m n : Nat) : Nat := accAddr o.accd + (m * o.mode.N + n) * o.mode.asize
     let t := s.matStep k
     let v := (t.part k).mat
     let ends : Prop := v.op.pass = o.pass + 1 ∧ v.op.row = 0 ∧
       (o.pass + 1 = wdPasses o.wd → v.st = .complete ∧ v.active.mode = none ∧ v.shadow.mode = none) ∧
       (o.pass + 1 ≠ wdPasses o.wd → v.st = .running)
     let skipped : Prop := ends ∧ v.op.skips = o.skips + 1 ∧ t.acc = s.acc ∧ v.mflags = u.mflags
     let ran : Prop :=
       (∀ n, n < o.mode.N → t.accNat k (slot o.row n) o.mode.asize =
         (pass o.mode.facc o.mode.fmt (s.accNat k (slot o.row n) o.mode.asize) (xs o.row) (col n)).bits) ∧
       (∀ b, v.mflags.getLsbD b = true ↔ u.mflags.getLsbD b = true ∨ ∃ n, n < o.mode.N ∧
         (pass o.mode.facc o.mode.fmt (s.accNat k (slot o.row n) o.mode.asize) (xs o.row) (col n)).flags.getLsbD b = true) ∧
       (o.row + 1 ≠ M → v.op.pass = o.pass ∧ v.op.row = o.row + 1 ∧ v.st = .running) ∧
       (o.row + 1 = M → ends ∧ v.op.steps = o.steps + 1)
     let odd : Prop := if here then ∃ m, m < M ∧ ∃ x ∈ xs m, x.special = true else ∃ n, n < o.mode.N ∧ ∃ x ∈ col n, x.special = true
     (∀ n, s.matAdvance (n + 1) k = (s.matStep k).matAdvance n k) ∧
     exec (.matrixOpComplete k) s = .next ({ s with draws := s.draws + 1 }.matAdvance rows k) ∧
     (u.st = .running → o.sparse = true → o.cv = none → t.mem = s.mem ∧ t.scratch = s.scratch ∧ t.warps = s.warps ∧
      (here = true → there = true → o.row = 0 ∨ (o.run = true ∧ o.rows = []) → ran) ∧
      (here = false → there = false → o.row = 0 → skipped) ∧
      (here ≠ there → o.row = 0 → v.op.scans = o.scans + 1 ∧ (odd → 0 < M → ran) ∧ (¬odd → skipped))))) ∧
  (∀ (mode : MatMode) (code : Nat) (bytes : List Byte), mode.codeOk code = true →
    let fp : Option (Fmt × Nat) := match mode with
      | .f64 => some (fp64, 8) | .f32 => some (fp32, 4) | .f16 => some (fp16, 2) | .bf16 => some (bf16, 2) | .bfp _ => none
    let bits : Nat × Nat := match mode with | .bfp k => (2 + k.val / 7, 2 + k.val % 7) | _ => (0, 0)
    let B := 16 * 2 ^ code
    let slot (m : Nat) : Nat := 8 + B * m / 8
    let shape := (mode.K, mode.N, mode.asize, mode.rb code, mode.pb code)
    let row := mode.rowValues code bytes
    let col (n : Nat) := mode.column code (fun a j => (bytes.drop a).take j) n
    let elem (v : Option FVal) (at' size : Nat) : Prop :=
      ∀ F d, fp = some (F, d) → d = size → ∃ x, v = some x ∧ F.Reads (leNat ((bytes.drop at').take d)) x
    let inSlot (v : Option FVal) (m i at' : Nat) : Prop := ∃ x, v = some x ∧ x.InBlock m i ((bytes.drop at').take (slot m))
    (mode = .f64 → shape = (16, 32, 8, 128, 4096)) ∧ (mode = .f32 → shape = (32, 64, 4, 128, 8192)) ∧
    (mode = .f16 ∨ mode = .bf16 → shape = (128, 64, 4, 256, 16384)) ∧
    (fp = none → shape = (2 ^ Nat.log 2 (8192 / (bits.1 * bits.2)), 64, 4, mode.K / B * slot bits.1, 64 * (mode.K / B) * slot bits.2)) ∧
    (bytes.length = mode.rb code → row.length = mode.K ∧ ∀ j, j < mode.K →
      (∀ d, elem row[j]? (j * d) d) ∧ (fp = none → inSlot row[j]? bits.1 (j % B) (j / B * slot bits.1))) ∧
    (bytes.length = mode.pb code → ∀ n, n < mode.N → (col n).length = mode.K ∧ ∀ j, j < mode.K →
      (∀ d, elem (col n)[j]? ((n * mode.K + j) * d) d) ∧
      (fp = none → inSlot (col n)[j]? bits.2 (j % B) (n * (mode.pb code / 64) + j / B * slot bits.2)))) ∧
  (∀ (mode : MatMode) (c : Nat) (xs ys : List FVal), c < 2 ^ mode.facc.width → xs.length = ys.length →
    mode.facc.Passes mode.fmt c xs ys (pass mode.facc mode.fmt c xs ys))

/-! ### The package at its edges -/

/-- R432 to R435, R439: the owner of a domain writes the TAIL of a present ring that the host fills, within its size, the HEAD
of one that the device fills, and BASE, which empties the ring; other writes are ignored.  R435: an entry for RQ, EQ, FQ or SQ is
written at the tail of a ring that takes it, held otherwise, up to 64 of them, and beyond that waits with its event; a held one
follows, and the oldest that waits is then held.  R433: OWNER is claimed or given up by a PF, but not given up while a launch of
the domain lives.  R430: a write of a register of the package by a PF is held; an access to BAR0 that is no aligned access of 8
bytes is an Unsupported Request.  R439: an aperture read of a mapped line answers its bytes, a write stores them at their home.
That the answers and the Unsupported Requests stand in lists, and that a BASE write leaves the last record of LQ without one
behind it, is the model's own (log entries 58, 59, 61). -/
def Obligations.HostAccesses : Prop :=
  ∀ (s : State) (port : Bool) (func dom ring : Nat) (v32 : BitVec 32) (v : BitVec 64),
    let d := s.domain dom
    let g := d.rings.get {} ring
    let pf : Prop := func = 0 ∧ (d.owner.getLsbD 63 = false ∨ (d.owner.extractLsb' 7 1).toNat = port.toNat)
    let owned : Prop := pf ∨ (d.owner.getLsbD 63 = true ∧ (d.owner.extractLsb' 7 1).toNat = port.toNat ∧
      (d.owner.extractLsb' 0 7).toNat = func)
    let size : Nat := 2 ^ (g.base.extractLsb' 0 5).toNat
    let becomes (i : Instr) (g' : Ring) : Prop := ∃ t, exec i s = .next t ∧ t = { s with domains := t.domains } ∧
      (∀ e, e ≠ dom → t.domain e = s.domain e) ∧ t.domain dom = { d with rings := d.rings.set {} ring g' }
    let deviceWrites : Prop := ring ≠ 0 ∧ ring ≠ 2
    (owned → ¬deviceWrites → g.present = true → (v32 - g.head).toNat ≤ size → becomes (.ringTailWrite port func dom ring v32)
      { g with tail := v32, bound := max g.bound (s.host.apC.get 0 (128 * port.toNat + func)) }) ∧
    (¬owned ∨ deviceWrites ∨ g.present = false ∨ size < (v32 - g.head).toNat →
      exec (.ringTailWrite port func dom ring v32) s = .next s) ∧
    (owned → deviceWrites → becomes (.ringHeadWrite port func dom ring v32) { g with head := v32 }) ∧
    (¬owned ∨ ¬deviceWrites → exec (.ringHeadWrite port func dom ring v32) s = .next s) ∧
    (owned → ring ≠ 0 → becomes (.ringBaseWrite port func dom ring v) { g with base := v, head := 0, tail := 0, bound := 0 }) ∧
    (owned → ring = 0 → ∃ t, exec (.ringBaseWrite port func dom ring v) s = .next t ∧
      t = { s with domains := t.domains, subs := t.subs } ∧ t.subs.length = s.subs.length ∧
      (∀ e, e ≠ dom → t.domain e = s.domain e) ∧
      t.domain dom = { d with rings := d.rings.set {} ring { g with base := v, head := 0, tail := 0, bound := 0 } }) ∧
    (¬owned → exec (.ringBaseWrite port func dom ring v) s = .next s) ∧
    (∀ e : List Byte, ring ∈ [1, 3, 4, 5] →
      (let t := s.post dom ring e
       let takes : Prop := g.held = [] ∧ g.present = true ∧ (g.tail - g.head).toNat < size
       t.mem = s.mem ∧ t.warps = s.warps ∧
       (takes → t.hostMem = s.hostMem.setN unwritten (d.bus * 2 ^ 64 + g.entryAddr ring g.tail) e ∧
         (t.domain dom).rings.get {} ring = { g with tail := g.tail + 1 }) ∧
       (¬takes → g.held.length < 64 → t = { s with domains := t.domains } ∧
         (t.domain dom).rings.get {} ring = { g with held := g.held ++ [e] }) ∧
       (¬takes → 64 ≤ g.held.length → t = { s with domains := t.domains } ∧
         (t.domain dom).rings.get {} ring = { g with waits := g.waits ++ [e] })) ∧
      (∀ rest, g.held = e :: rest → g.present = true → (g.tail - g.head).toNat < size → ring ≠ 5 ∨ rest ≠ [] ∨ g.waits ≠ [] →
        ∃ t, exec (.heldEntryWrite dom ring) s = .next t ∧ t.mem = s.mem ∧ t.warps = s.warps ∧
          t.hostMem = s.hostMem.setN unwritten (d.bus * 2 ^ 64 + g.entryAddr ring g.tail) e ∧
          (t.domain dom).rings.get {} ring =
            { g with held := rest ++ g.waits.take 1, waits := g.waits.drop 1, tail := g.tail + 1 })) ∧
    (pf → ¬(d.owner.getLsbD 63 = true ∧ v.getLsbD 63 = false ∧ ∃ e ∈ s.launches, e.2.live = true ∧ e.2.r.dom = dom) →
      ∃ t, exec (.ownerWrite port func dom v) s = .next t ∧ t = { s with domains := t.domains } ∧
        t.domain dom = { d with owner := v &&& 0x87FF00000FFFFFFF }) ∧
    (¬pf ∨ (d.owner.getLsbD 63 = true ∧ v.getLsbD 63 = false ∧ ∃ e ∈ s.launches, e.2.live = true ∧ e.2.r.dom = dom) →
      exec (.ownerWrite port func dom v) s = .next s) ∧
    (let reg (off : Nat) (h : HostRegs) : Prop := exec (.registerWrite port 0 off v) s = .next { s with host := h }
     reg 0x10 { s.host with timeinit := v } ∧
     reg 0x30 { s.host with ceil := BitVec.ofNat 10 (min (max (v.extractLsb' 0 10).toNat 1) 1000) } ∧
     reg 0x38 { s.host with hiveRemote := v.extractLsb' 32 32, hiveSlots := v.setWidth 32 } ∧
     reg 0x48 { s.host with pkgevt := s.host.pkgevt &&& ~~~(v.setWidth 6) } ∧
     exec (.registerWrite port func 0x50 v) s =
       .next { s with host := { s.host with apersel := s.host.apersel.set 0 (128 * port.toNat + func) (v.setWidth 8) } }) ∧
    (∀ off n write, ¬(n = 8 ∧ off % 8 = 0) → exec (.bar0Unsupported port func off n write) s =
      .next { s with host := { s.host with unsupported := s.host.unsupported + 1 } }) ∧
    (∀ (off size' : Nat) (data : List Byte) (f : Leaf),
      let va := d.aperva.toNat + off
      let sel := s.host.apersel.get 0 (128 * port.toNat + func)
      sel = 0x80 ||| BitVec.ofNat 8 dom → dom < 128 → d.owner.getLsbD 63 = true → owned → s.translate dom va = .ok f → va < 2 ^ 64 →
      f.fmt = 0 →
      (f.r = true → 0 < size' → va % 64 + size' ≤ 64 → exec (.apertureRead port func off size') s =
        .next { s with host := { s.host with replies := s.bytesAt (f.key va) size' :: s.host.replies } }) ∧
      (f.w = true → 0 < data.length → va % 64 + data.length ≤ 64 → ∃ t, exec (.apertureWrite port func off data) s = .next t ∧
        t.mem = s.mem.setN unwritten (f.key va) data ∧ t.warps = s.warps))

/-- R27, R448: RUN starts device time at TIMEINIT, once.  R431: PKGCTL.RESET and a fundamental reset end all work and return
every register to its reset value, while memories and firmware images stay.  R431: bits of PKGEVT written with 1 are cleared.
R225: EPSX holds at least 20.  R446: DELAY above 1 stores 0, and SRC above 10 is ignored.  R449 to R451: firmware boots to STATE
1; an update of an idle die reads the header of its image in host memory, with the requester ID of the port's PF and no PASID, and
loads the standby where the image has a protocol version in common with the other dies' images, else it is refused; a loaded
standby takes over, showing STATE 3 meanwhile; so does the standby of a complex that the watchdog finds dead, and PVNEG is negotiated again each time.  What
a reset keeps, how a header tells its image, and PVNEG where no version is common are the model's own (log entries 58, 59). -/
def Obligations.BringUpAndFirmware : Prop :=
  ∀ (s : State) (port : Bool) (v : BitVec 64) (die : Nat),
    let h := s.host
    let fw (d : Nat) : Firmware := h.fw.get {} d
    let fwOf (t : State) (d : Nat) : Firmware := t.host.fw.get {} d
    let cleared (t : State) : Prop :=
      t = { State.reset with
        turns := s.turns, steps := s.steps, draws := s.draws, serial := s.serial, mem := s.mem, hbm := s.hbm, scratch := s.scratch,
        wbuf := s.wbuf, acc := s.acc, hostMem := s.hostMem, hostIn := s.hostIn, host := t.host } ∧
      t.host = { State.reset.host with
        fw := t.host.fw, msix := h.msix, replies := h.replies, unsupported := h.unsupported, spdmOut := h.spdmOut } ∧
      ∀ d, d < 4 → fwOf t d = if (fw d).complex then { active := (fw d).standby, standby := (fw d).active }
        else { active := (fw d).active, standby := (fw d).standby }
    (h.run = false → exec (.pkgctlRun port) s = .next { s with
      now := h.timeinit.toNat, host := { h with run := true, activities := true, runAt := h.timeinit.toNat } }) ∧
    (h.run = true → exec (.pkgctlRun port) s = .next s) ∧
    (∃ t, exec (.pkgctlReset port) s = .next t ∧ cleared t) ∧ (∃ t, exec (.pcieFundamentalReset port) s = .next t ∧ cleared t) ∧
    exec (.pkgevtClear port v) s = .next { s with host := { h with pkgevt := h.pkgevt &&& ~~~(v.setWidth 6) } } ∧
    (let e : BitVec 16 := if v.toNat % 2 ^ 16 < 20 then 20 else v.setWidth 16
     let fault := decide (e.toNat < h.peerOff + 20)
     ∃ t, exec (.skewsetWrite port v) s = .next t ∧ t = { s with host := t.host } ∧ t.host.epsx = e ∧ t.host.skewFault = fault ∧
       t.host.pkgevt = if fault = h.skewFault then h.pkgevt else h.pkgevt ||| 2) ∧
    exec (.timectlWrite port v) s = .next { s with host := { h with
      timedelay := if (v.extractLsb' 4 2).toNat < 2 then v.extractLsb' 4 2 else 0
      timesrc := if (v.extractLsb' 0 4).toNat ≤ 10 then v.setWidth 4 else h.timesrc } } ∧
    ((fw die).st = 0 → ∃ t, exec (.firmwareBoot die) s = .next t ∧ t = { s with host := t.host, draws := t.draws } ∧
      (fwOf t die).st = 1 ∧ (fwOf t die).active = (fw die).active ∧ ∀ d, d ≠ die → (fwOf t d).st = (fw d).st) ∧
    (let busy : Prop := ∃ d, d < 4 ∧ ((fw d).loading = true ∨ (fw d).st = 2 ∨ (fw d).st = 3)
     let d := (v.extractLsb' 0 2).toNat
     let others := ((List.range 4).filter (· ≠ d)).map fun e => (fw e).active
     let x := s.hostRead (128 * port.toNat * 2 ^ 20) (2 ^ 12 * (v.extractLsb' 12 52).toNat) 64
     let image := 8 + leNat x.1
     exec (.registerWrite port 0 0x58 v) s = exec (.fwupdWrite port v) s ∧
     (busy → ∃ t, exec (.fwupdWrite port v) s = .next t ∧ t = { s with host := t.host } ∧ (fwOf t d).st = 5 ∧
       (fwOf t d).standby = (fw d).standby) ∧
     (¬busy → ∃ t, exec (.fwupdWrite port v) s = .next t ∧ t = { x.2 with host := t.host } ∧
       fwOf t d = (if commonPv (image :: others) = none then { fw d with st := 5 }
        else { fw d with standby := image, loading := true, st := 2 }) ∧ ∀ e, e ≠ d → fwOf t e = fw e)) ∧
    ((fw die).loading = true →
      ((fw die).taking = false → ∃ t, exec (.fwTakeover die) s = .next t ∧ t = { s with host := t.host } ∧
        fwOf t die = { fw die with st := 3, taking := true }) ∧
      ((fw die).taking = true → ∃ t, exec (.fwTakeover die) s = .next t ∧ t = { s with host := t.host, draws := s.draws + 1 } ∧
        (let f := fwOf t die
         f.active = (fw die).standby ∧ f.standby = (fw die).active ∧ f.complex = !(fw die).complex ∧ f.st = 1 ∧ f.loading = false ∧
         f.taking = false) ∧
        ∀ d, d < 4 → (fwOf t d).pvneg = BitVec.ofNat 8
          ((commonPv ((List.range 4).map fun e => (fwOf t e).active)).getD (fwOf t 0).pvneg.toNat))) ∧
    ((fw die).st ≠ 0 → ∃ t, exec (.watchdogFailover die) s = .next t ∧ t = { s with host := t.host, draws := s.draws + 1 } ∧
      fwOf t die = { fw die with
        active := (fw die).standby, standby := (fw die).active, complex := !(fw die).complex, loading := false, taking := false,
        st := 4, pvneg := (fwOf t die).pvneg } ∧
      (∀ d, d < 4 → (fwOf t d).pvneg = BitVec.ofNat 8
        ((commonPv ((List.range 4).map fun e => (fwOf t e).active)).getD (fwOf t 0).pvneg.toNat)) ∧
      t.host.pkgevt = h.pkgevt ||| 4)

/-- R437: a command of CQ is taken from its ring and answered with an event of status 0, 1 or 2 that carries its TAG.  R258: an
answer to a parked fragment lets its lanes retry, enters them in their handler, or ends them; R399: one to a parked launch
resumes or cancels it; R425: UNSPLICE asks for a fused launch to be taken apart; R300: CANCEL hands a cancellation to the front
end; R271: TLBINV drops the domain's entries in every core; R380: JOBOPEN opens the domain's job and JOBSEAL seals it.  R435: with 64
events held for EQ no command is taken.  R385, R386, R399: a parked launch is resumed with status 0 exactly where it passes the tests of
admission as a candidate with its new deadline and budget, in its own index, and stays as it is with status 1 otherwise.  The
bytes of the command are those that the host places, and a deadline past when the resumption is made counts as missed (log entries
33, 57, 58, 60). -/
def Obligations.HostCommands : Prop :=
  ∀ (s : State) (dom : Nat) (cmd : List Byte) (later : List (List Byte)),
    let nat (off n : Nat) : Nat := leNat ((cmd.drop off).take n)
    let clean (listed : List Nat) : Prop := ∀ i, 0 < i → i < 24 → i ∉ listed → cmd.getD i 0 = 0
    let operands := [8, 9, 10, 11, 12, 13, 14, 15]
    let r := s.ringTake dom 2
    let runs (i : Instr) (u : State) (status launch : Nat) : Prop :=
      exec i s = .next (u.postEq dom 1 status launch 0 (nat 24 8))
    (64 ≤ ((s.domain dom).rings.get {} 3).held.length →
      ∀ i ∈ [Instr.fanswer dom, .panswer dom, .cqUnsplice dom, .cqCancel dom, .cqTlbinv dom, .jobopen dom, .jobseal dom],
        exec i s = .next s) ∧
    (s.ringReady dom 2 = true → s.hostIn = cmd :: later → cmd.length = 32 → ((s.domain dom).rings.get {} 3).held.length < 64 →
    (r.1 = cmd ∧ r.2.hostIn = later ∧ r.2.warps = s.warps ∧ r.2.mem = s.mem ∧ ((r.2.domain dom).rings.get {} 2).head =
      ((s.domain dom).rings.get {} 2).head + 1) ∧
    (∀ (wid : Nat) (f : Frag), nat 0 1 = 1 → clean (1 :: operands) → s.parkedAt dom (nat 8 8) = some (wid, f) →
      s.cancelDue (s.warp wid).launch = false →
      let ls := (s.warp wid).parkedOf f
      let halted := f.st = .handler ∨ f.ev.kind = 3
      let same (t : State) : Prop := t = { r.2 with warps := t.warps } ∧ ∀ j, j ≠ wid → t.warp j = s.warp j
      (nat 1 1 = 0 → f.st = .handler ∨ s.Unarrived wid → ∃ u, runs (.fanswer dom) u 0 (s.warp wid).launch ∧ same u ∧ ∀ L, u.lane wid L = if L ∈ ls then
          (let l := s.lane wid L
           let l : Lane := { l with st := .ready, pc := if halted then nextPc l.pc else l.pc }
           if f.st = .handler then l else { l with frag := 0, fslot := 0 })
        else s.lane wid L) ∧
      (nat 1 1 = 1 → ¬halted → ∃ u, runs (.fanswer dom) u 0 (s.warp wid).launch ∧ same u ∧
        (∀ L, u.lane wid L = if L ∈ ls then { s.lane wid L with st := .entering } else s.lane wid L) ∧
        (u.warp wid).frags = (s.warp wid).frags.map fun g => if g.id = f.id then { g with st := .pending, entry := 0 } else g) ∧
      (nat 1 1 = 2 → ∃ u, runs (.fanswer dom) u 0 (s.warp wid).launch ∧ ∀ L ∈ ls, (u.lane wid L).st = .exited)) ∧
    (let k := nat 2 2
     let l := s.launch k
     nat 0 1 = 2 → clean ([1, 2, 3] ++ operands ++ [16, 17, 18, 19, 20, 21, 22, 23]) → l.live = true → l.r.dom = dom → l.st = .parked →
      l.cancelled = false → s.cancelDue k = false →
      (nat 1 1 = 1 → ∃ u, runs (.panswer dom) u 0 k ∧ (u.launch k).cancelled = true) ∧
      (nat 1 1 = 0 →
        let dl := nat 8 8
        let budget := nat 16 8
        let now := r.2.feTime
        let c : Candidate := { dom := dom, r := l.r, budget := budget, rel := l.rel, dl := dl, self := some k }
        ∃ left : Nat → Nat, left 0 ≤ 2304000 ∧ left 1 ≤ 23040 ∧ left 2 ≤ 460800 ∧
        (let passes : Prop := (∀ j, 1 ≤ j → j ≤ 7 → r.2.Check left c j) ∧ (l.r.period ≠ 0 → dl ≤ l.rel + l.r.period)
        (¬passes → runs (.panswer dom) r.2 1 k) ∧
        (passes → ∃ u, runs (.panswer dom) u 0 k ∧ (∀ j, j ≠ k → u.launch j = s.launch j) ∧ u.launch k = { l with
            st := .running, dl := dl, budget := budget, charges := 0, recent := [], grace := 0, raised := false,
            late := l.late || decide (l.dl ≤ now) } ∧
          ((∀ c ∈ s.saved, ∀ e ∈ c.warps, e.2.launch ≠ k) →
            u = { r.2 with launches := u.launches, domains := u.domains, draws := u.draws }))))) ∧
    (let k := nat 2 2
     nat 0 1 = 3 → clean [2, 3] → (s.launch k).live = true → (s.launch k).r.dom = dom → (s.launch k).cancelled = false →
      (∀ p, (s.launch k).splice = some p → p.retained = true → p.unsplicing = false → s.freeIndex ≠ none → k ∉ s.unsplices →
        ∃ u, runs (.cqUnsplice dom) u 0 k ∧ u.unsplices = s.unsplices ++ [k] ∧
          u.launch k = { s.launch k with splice := some { p with unsplicing := true } }) ∧
      ((s.launch k).splice = none → runs (.cqUnsplice dom) r.2 1 k)) ∧
    (nat 0 1 = 4 → clean (1 :: operands) → nat 1 1 = 0 → ∀ k, s.unitAt .launch dom (BitVec.ofNat 64 (nat 8 8)) = some k →
      s.unitCancelled .launch k = false → runs (.cqCancel dom) { r.2 with cancels := s.cancels ++ [⟨.launch, k⟩] } 0 k) ∧
    (nat 0 1 = 5 → clean (1 :: operands) → nat 1 1 < 2 → s.walks = [] → ∃ u, runs (.cqTlbinv dom) u 0 0 ∧
      u = { r.2 with tlb := u.tlb, walkFails := u.walkFails } ∧ ∀ e, e ∈ u.tlb ↔ e ∈ s.tlb ∧
        ¬(e.dom = dom ∧ (nat 1 1 = 1 ∨ nat 8 8 / e.leaf.span = 65536 * e.page / e.leaf.span))) ∧
    (∀ f, nat 0 1 = 6 → clean operands → nat 8 8 % 8 = 0 → (s.domain dom).job = none → s.walk dom (nat 8 8) = .ok f → f.w = true →
      ∃ u, runs (.jobopen dom) u 0 0 ∧ (u.domain dom).job = some s.serial ∧ u.warps = s.warps ∧
        u.jobs.get {} s.serial = { live := true, dom := dom, cc := BitVec.ofNat 64 (nat 8 8) }) ∧
    (∀ j, nat 0 1 = 7 → clean [] → (s.domain dom).job = some j → ∃ u, runs (.jobseal dom) u 0 0 ∧
      u = { r.2 with jobs := u.jobs, domains := u.domains } ∧ (u.domain dom).job = none ∧
      u.jobs.get {} j = { s.jobs.get {} j with sealed := true }) ∧
    (nat 0 1 = 1 → clean (1 :: operands) → 3 ≤ nat 1 1 → runs (.fanswer dom) r.2 2 0))

/-- R225, R446, R447: a measurement gives TIMEOFF where the source is heard, and SKEW.FAULT from the peers' offset.  R454, R455:
the alarm is counted as it rises; matrix units narrow after it, and widen once it has been away for 100 us, with events.  R440:
a module that fails is disabled, and a link without modules fails for good.  R444: a port comes up or goes down with an event.
R431: a function-level reset cancels the launches of the function's domains, removes their launch records as a cancellation does,
and empties their rings.  On the module the alarm stands while the power average exceeds 2,000 W.  How the events are told to the
model, that the alarm is the model's input elsewhere, and when NARROW follows it are its own (log entries 58, 60). -/
def Obligations.PowerLinksAndTime : Prop :=
  ∀ (s : State) (off : BitVec 64) (peerOff link modul port : Nat) (up side : Bool) (func : Nat),
    let h := s.host
    let src := h.timesrc.toNat
    let heard : Prop := src = 9 ∨ src = 10 ∨ (1 ≤ src ∧ src ≤ 8 ∧ h.uePorts.getLsbD (src - 1) = true)
    let host (i : Instr) (P : HostRegs → Prop) : Prop := ∃ t, exec i s = .next t ∧ t = { s with host := t.host } ∧ P t.host
    let event (b : Nat) : BitVec 6 := h.pkgevt ||| BitVec.ofNat 6 (2 ^ b)
    let fault := decide (h.epsx.toNat - 20 < peerOff)
    (host (.timeMeasurement off peerOff) fun x => (heard → x.timeoff = off) ∧ (¬heard → x.timeoff = h.timeoff) ∧
      x.peerOff = peerOff ∧ x.skewFault = fault ∧ x.pkgevt = if fault = h.skewFault then h.pkgevt else event 1) ∧
    (h.alarm = false → host .powerAlarmAssert fun x => x = { h with
      alarm := true, alarmAt := s.now, narrowDue := !h.narrow
      alarmcnt := if h.alarmcnt = 0xFFFF then 0xFFFF else h.alarmcnt + 1 }) ∧
    (h.alarm = true → ¬(Config.isModule = true ∧ 2000 < h.pwr.toNat) →
      host .powerAlarmDeassert fun x => x = { h with alarm := false, alarmAt := s.now }) ∧
    (Config.isModule = true → (2000 < h.pwr.toNat → exec .powerAlarmDeassert s = .next s) ∧
      ∀ dt, 2000 < (s.elapse dt).host.pwr.toNat → (s.elapse dt).host.alarm = true) ∧
    (h.narrowDue = true → host .narrowSet fun x => x = { h with narrow := true, narrowDue := false, pkgevt := event 0, msix := x.msix }) ∧
    (h.narrow = true → h.alarm = false → h.alarmAt + 100000 ≤ s.now →
      host .narrowClear fun x => x = { h with narrow := false, pkgevt := event 0, msix := x.msix }) ∧
    (let m := h.ucie.get 0 link
     let m' := m ||| BitVec.ofNat 4 (2 ^ modul)
     m.getLsbD modul = false → host (.ucieModuleFail link modul) fun x => x.ucie.get 0 link = m' ∧
      x.linkfail = (h.linkfail || decide (m' = 0xF)) ∧ x.pkgevt = if m' = 0xF then event 3 ||| 0x20 else event 3) ∧
    (port < 8 → h.uePorts.getLsbD port ≠ up → host (.uePortChange port up) fun x =>
      x = { h with uePorts := x.uePorts, pkgevt := event 4, msix := x.msix } ∧
      ∀ p, x.uePorts.getLsbD p = if p = port then up else h.uePorts.getLsbD p) ∧
    (let mine (dom : Nat) : Prop := (s.domain dom).owner.getLsbD 63 = true ∧
       ((s.domain dom).owner.extractLsb' 7 1).toNat = side.toNat ∧ ((s.domain dom).owner.extractLsb' 0 7).toNat = func
     ∃ t, exec (.functionLevelReset side func) s = .next t ∧
       (∀ u ∈ t.subs, ¬mine u.dom) ∧
       (∀ u ∈ s.subs, mine u.dom → ∃ x ∈ t.results, x.route = u.route) ∧
       (∀ e ∈ s.launches, e.2.live = true → mine e.2.r.dom → s.unitCancelled .launch e.1 = false → ⟨.launch, e.1⟩ ∈ t.cancels) ∧
       (∀ dom r, dom < 128 → r < 7 → mine dom → let g := (t.domain dom).rings.get {} r
         g.base = 0 ∧ g.head = 0 ∧ g.tail = 0 ∧ g.bound = 0) ∧
       (s.subs = [] → t = { s with cancels := t.cancels, domains := t.domains } ∧ (∀ dom, ¬mine dom → t.domain dom = s.domain dom) ∧
         ∀ dom r, dom < 128 → r < 7 → mine dom → (t.domain dom).rings.get {} r =
           { (s.domain dom).rings.get {} r with base := 0, head := 0, tail := 0, bound := 0 }))

/-- R452, R453, with the codes of the standard that the model takes (log entry 63): GET_VERSION answers 1.3 and starts a
connection, GET_CAPABILITIES and NEGOTIATE_ALGORITHMS follow, selecting SM2 and SM3 or nothing, with SM3 as the
measurement hash; a negotiated connection answers the digest of the chain of slot 0, that chain, and a challenge of slot 0, and measurements 1 to 10; a request out of its order is answered with
an error, and no state beside the responder's changes. -/
def Obligations.Attestation : Prop :=
  ∀ (s : State) (req slot index : Nat) (asym hash : BitVec 32),
    let c := s.conn req
    let answers (i : Instr) (c' : SpdmConn) (code : BitVec 8) (P : List Byte → Prop) : Prop :=
      ∃ t body, exec i s = .next t ∧ t = { s with host := t.host, draws := t.draws } ∧ t.conn req = c' ∧
        t.host.spdmOut = { req := req, code := code, body := body } :: s.host.spdmOut ∧ P body ∧
        (∀ r, r ≠ req → t.conn r = s.conn r) ∧ t.host = { s.host with spdm := t.host.spdm, spdmOut := t.host.spdmOut }
    let refused (i : Instr) : Prop := answers i c 0x7F fun b => b.length = 2
    answers (.getVersion req) { version := true } 0x04 (fun b => b = [0x00, 0x13]) ∧
    (if c.version then answers (.getCapabilities req) { version := true, caps := true } 0x61 (fun b => b.length = 4)
      else refused (.getCapabilities req)) ∧
    (if c.caps then answers (.negotiateAlgorithms req asym hash)
        { version := true, caps := true, algs := asym.getLsbD 9 && hash.getLsbD 6 } 0x63
        (fun b => b = leBytes 4 (asym &&& 0x200).toNat ++ leBytes 4 (hash &&& 0x40).toNat ++ leBytes 4 0x80)
      else refused (.negotiateAlgorithms req asym hash)) ∧
    (if c.algs then answers (.getDigests req) c 0x01 (fun b => b = 1 :: leBytes 32 (Config.sm3 Config.chain).toNat)
      else refused (.getDigests req)) ∧
    (if c.algs ∧ slot = 0 then answers (.getCertificate req slot) c 0x02 (fun b => b = Config.chain)
      else refused (.getCertificate req slot)) ∧
    (if c.algs ∧ slot = 0 then answers (.challenge req slot) c 0x03 (fun b => b.length = 64) else refused (.challenge req slot)) ∧
    (if c.algs ∧ 1 ≤ index ∧ index ≤ 10 then answers (.getMeasurements req index) c 0x60 (fun b =>
        b.head? = some (BitVec.ofNat 8 index) ∧
        let m (i : Nat) : List Byte := leBytes 32 (Config.measurement i).toNat
        let fw (d : Nat) : Firmware := s.host.fw.get {} d
        let block := (b.drop 1).take (b.length - 65)
        (index ≤ 4 → block = m ((fw (index - 1)).active + 1)) ∧ (5 ≤ index → index ≤ 8 → block = m ((fw (index - 5)).standby + 1)) ∧
        (index = 9 → block = m 0) ∧ (index = 10 → block = (List.range 4).map fun d => (fw d).pvneg))
      else refused (.getMeasurements req index))

/-! ### Traps taken -/

/-- R247, R249 to R253, R256, R423: a fragment that waits enters its handler once every governed result of its warp is written: the
frame of R249 stands in its slot and no other byte of memory changes, every lane takes MODE 0 and the handler's level, and its PC
becomes the handler entry, the supervisor handler for OVERRUN and the trap handler for every other cause.  Without a frame, a
roaming thread's domain having no save region or its page not taking the write, with a null handler, or with an entry that fails the
checks of R44, the lanes end with a report: DOUBLE_FAULT 0x03, 0x01 or 0x02, ADDR and TIME those of the failing event.  That ADDR of
the last is the entry, and what the first carries, is the model's reading (log entries 23 and 74). -/
def Obligations.HandlersAreEntered : Prop :=
  ∀ (s : State) (wid frag : Nat) (f : Frag),
    let w := s.warp wid
    let l := s.launch w.launch
    let ours : Record := match l.splice with | some p => if f.origin = 2 then p.q else p.p | none => l.r
    let h := if f.ev.cause = 0x0E then ours.suph else ours.traph
    let shift : BitVec 6 := match l.splice with | some p => if f.origin = 2 then BitVec.ofNat 6 p.offW else 0 | none => 0
    let va := s.frameVa wid f.slot.toNat
    let held : Prop := w.roaming = false ∨ (s.domain w.dom).rsave ≠ 0
    let ls := lanesOf f.lanes
    w.frags.find? (fun x => x.id.toNat = frag ∧ x.st = .pending) = some f → w.live = true → s.governed wid s.serial = false →
    l.st ≠ .parked → s.tags = [] →
    (∀ a : Leaf, held → h ≠ 0 → s.targetCheck w.core w.dom h = none → s.translate w.dom va = .ok a → a.w = true → a.fmt = 0 →
      va % 128 = 0 → ∃ t, exec (.handlerEntry wid frag) s = .next t ∧ t.net = s.net ∧ t.launches = s.launches ∧
        t.groups = s.groups ∧ s.FrameAt t (a.key va) (f.fields w (if f.ev.cause = 0x0E then 1 else 0)) ∧
        (∀ k, k ≠ wid → t.warp k = s.warp k) ∧
        t.warp wid = { w with
          lanes := (t.warp wid).lanes
          frags := w.frags.map fun x => if x.id = f.id then
            { f with st := .handler, entry := if f.ev.cause = 0x0E then 1 else 0 } else x } ∧
        ∀ L, t.lane wid L = if L ∈ ls then
            { s.lane wid L with
              st := .ready, handler := true, sup := decide (f.ev.cause = 0x0E), pc := h, wb := (s.lane wid L).wb + shift
              entry := false, cmaxp := (t.lane wid L).cmaxp, cmaxs := (t.lane wid L).cmaxs }
          else s.lane wid L) ∧
    let now : Word := BitVec.ofNat 64 (s.localTime w.core)
    let ends (sub carried : Nat) (addr time : Word) : Prop :=
      ∃ t, exec (.handlerEntry wid frag) s = .next t ∧ (∀ L ∈ ls, (t.lane wid L).st = .exited) ∧
        s.Reports t w.dom (List.replicate 128 0) sub carried
          [(24, 8, addr.toNat), (32, 12, f.word.toNat), (48, 8, f.pc.toNat), (56, 8, f.origpc.toNat), (72, 8, time.toNat)]
    let frame : Prop := held ∧ s.writeFault w.dom va = none ∧ s.writeFault w.dom (va + 64) = none
    (¬held → ends 0x03 0 0 now) ∧
    (∀ e, held → s.writeFault w.dom va = some e → ends 0x03 (e.cause.toNat * 256 + e.sub.toNat) (BitVec.ofNat 64 va) now) ∧
    (frame → h = 0 → ends 0x01 (f.ev.cause.toNat * 256 + f.ev.sub.toNat) f.ev.addr f.time) ∧
    (frame → h ≠ 0 → ∀ e, s.targetCheck w.core w.dom h = some e → ends 0x02 (e.cause.toNat * 256 + e.sub.toNat) h now)

/-- R155, R156, R184, R187, R194, R207, R247, R251, R271, R275, R276: what an access, a transfer or a privileged instruction
that fails its checks raises, for one lane in user mode: PROTECTION without the right to read or write, FORMAT_ACCESS for a
store to a page of blocks, ALIGN, SCRATCH_BOUNDS, BRANCH_TARGET, FRAME_FULL and FRAME_ABSENT, and PROTECTION 0x06 below
supervisor level.  A load that misses its page parks the lane for the host.  What ADDR is where R249's table can be read two ways is log
entry 23. -/
def Obligations.ChecksRaiseTraps : Prop :=
  ∀ (s : State) (h : Head) (L : Nat) (ty : Ty) (xs : Fin 4) (p : Fin 8) (d a b c : Spec) (imm : BitVec 32) (sc : Sc) (whole : Bool)
      (f : Leaf),
    let va := s.ea L a b xs imm
    let raises (i : Instr) (cause sub : BitVec 8) (addr : Word) : Prop := s.Traps i h { cause := cause, sub := sub, addr := addr }
    let far := s.opnd L a 0
    let l := s.cl L
    let range := s.scratchRange s.cw s.cur.origin
    s.active h = [L] → l.handler = false →
    (s.tr va = .ok f →
      (f.r = false → raises (.ld h ty xs d a b imm) 7 1 va ∧ raises (.ldl h ty xs d a b imm) 7 1 va) ∧
      (f.w = false → raises (.st h ty xs a b c imm) 7 2 va ∧ raises (.stp h ty xs a b c imm) 7 2 va) ∧
      (f.w = true → 3 ≤ f.fmt → raises (.st h ty xs a b c imm) 8 1 va) ∧
      (f.fmt = 0 → va.toNat % ty.size ≠ 0 → (f.r = true → raises (.ld h ty xs d a b imm) 5 1 va) ∧
        (f.w = true → raises (.st h ty xs a b c imm) 5 1 va))) ∧
    (va.toNat % ty.size = 0 →
      (1572864 < va.toNat + ty.size → raises (.lds h ty xs d a b imm) 4 2 va ∧ raises (.sts h ty xs a b c imm) 4 2 va) ∧
      (va.toNat + ty.size ≤ 1572864 → ¬(range.1 ≤ va.toNat ∧ va.toNat + ty.size ≤ range.1 + range.2) →
        raises (.lds h ty xs d a b imm) 4 1 va ∧ raises (.sts h ty xs a b c imm) 4 1 va)) ∧
    ((far.extractLsb' 0 3).toNat > 4 → raises (.brx h a) 2 1 far) ∧
    ((far.extractLsb' 0 3).toNat ≤ 4 → far.extractLsb' 3 3 ≠ 0 → raises (.brx h a) 2 2 far) ∧
    (l.resf = 2 → raises (.callx h a) 0x0B 1 far) ∧ (l.depth ≠ 0 → l.resf = 1 → raises (.ret h) 0x0C 1 0) ∧
    (l.sup = false → raises (.ctxsave h a imm) 7 6 0 ∧ raises (.ctxrest h p a imm) 7 6 0 ∧ raises (.tlbinv h sc a whole) 7 6 0) ∧
    (∀ code, s.tr va = .fail code → (s.cw.roaming = true → (s.domain s.cw.dom).rsave ≠ 0) →
      (let at' := s.frameVa s.cur.wid (freeSlot s.cw.slots).toNat
       s.writeFault s.cw.dom at' = none ∧ s.writeFault s.cw.dom (at' + 64) = none) →
      ∃ t x, exec (.ld h ty xs d a b imm) s = .next t ∧ t.cw.frags = s.cw.frags ++ [x] ∧ x.st = .parked ∧ x.lanes = maskOf [L] ∧
        x.ev = { cause := 6, sub := code, addr := va, kind := 0 } ∧ x.resume = s.cur.origpc ∧ (t.cl L).st = .parked ∧
        (t.cl L).pc = (s.cl L).pc)

/-! ### The step, decoding and the state -/

/-- R1, R44, R62, R63, R133, R135, R137, R398, R450: the turn of a partition whose one warp that lives reaches an instruction
word executes the instruction that the word decodes to (the all-zero word NOP), in the state in which its issue is made, the free
choice of a second gang taken; a word that is none traps with ILLEGAL in every lane of the gang and touches nothing else; the
second gang of a pair goes in the next turn, uncharged, or the pair is forgotten.  A waiting instruction is executed again in its
turn.  An event acts in its turn, unless its die is in a takeover that holds its front end; device time passes by the tick.  The turns,
what a fetch's trap is charged, and that a page once in the TLB is used, are the model's (log entries 1, 27 and 66). -/
def Obligations.StepRunsTheDecodedInstruction : Prop :=
  ∀ (s : State) (core part wid : Nat) (pc : Word) (ls : List Nat) (undefer : Bool) (f : Leaf) (line : List Byte) (i : Instr)
      (m : LaneMask) (later : List Turn),
    let u := s.turnTaken
    let p := 2 * core + part
    let w := u.warp wid
    let word : InstrWord := BitVec.ofNat 96 (leNat ((line.drop (12 * (pc.extractLsb' 0 3).toNat)).take 12))
    let decoded : Decoded := if word = 0 then .instr (.nop ⟨false, false, ⟨false, 7⟩⟩) else decode word
    let after (v : State) (i : Instr) : Host.Outcome State Fault Refusal :=
      match exec i v with
      | .next t => .next (State.issueDone v i t)
      | r => r
    (s.turns = .issue core part :: later → core < 384 → part < 2 → (u.part p).pair = none →
      u.warpsWhere (fun k => k.live && decide (k.core = core) && decide (k.part = part)) = [wid] →
      u.select wid = some (pc, ls, undefer) → u.Fetches wid pc ls f line →
      (decoded = .instr i → u.MayIssue wid pc ls word i →
        step s = after (u.notePair (u.toExecute wid pc ls undefer false word i) i) i) ∧
      (∀ sub, decoded = .illegal sub →
        let x := ((u.lineRead w.core w.dom w.launch pc).undefer wid undefer).setIssue wid pc ls word
        step s = .next (((x.raise (ls.map fun L => (L, { cause := 0x01, sub := sub }))).blank).consume w.core w.dom
          [pageOf pc.toNat]))) ∧
    (s.turns = .issue core part :: later → core < 384 → part < 2 → (u.part p).pair = some (wid, pc, m) →
      let v := u.updPart p (fun q => { q with pair := none })
      let stand := (v.undeferred wid).1.filter (fun L => m.getLsbD L && decide ((v.lane wid L).pc = pc))
      (stand = [] → step s = .next v) ∧
      (stand = ls → ls ≠ [] → v.Fetches wid pc ls f line → decoded = .instr i → v.MayIssue wid pc ls word i →
        step s = after (v.toExecute wid pc ls false true word i) i)) ∧
    (∀ gang y, s.turns = .retry wid gang :: later → u.retryOf wid gang = some (i, y) → step s = after y i) ∧
    (s.turns = .event i :: later → i.isWord = false → i.wf = true →
      ∃ die, die < 4 ∧ step s = if frontEvent i = true ∧ (u.host.fw.get {} die).taking = true then .next u else exec i u) ∧
    (∀ dt, s.turns = .tick dt :: later → s.host.run = true → ∃ t, step s = .next t ∧ t.now = s.now + dt ∧ t.warps = s.warps ∧
      t.mem = s.mem)

/-- R46 to R65: the fields of every legal word are the fields of the one instruction that it decodes to, which encodes to that
word again, no bit dropped; a word with an illegal field is refused with the first sub-cause that applies; the all-ones word is
BRK. -/
def Obligations.DecodeAndEncodeAgree : Prop :=
  (∀ f : Fields, pack f ≠ BitVec.allOnes 96 → ∀ sub, illegalSub f = some sub → decode (pack f) = .illegal sub) ∧
  (∀ f : Fields, illegalSub f = none → ∃ i, decode (pack f) = .instr i ∧ fieldsOf i = some f ∧ encode i = some (pack f)) ∧
  (∀ (i : Instr) (w : InstrWord), w ≠ BitVec.allOnes 96 →
    (decode w = .instr i ↔ i.isWord = true ∧ i.wf = true ∧ encode i = some w)) ∧
  decode (BitVec.allOnes 96) = .instr (.brk ⟨true, false, ⟨false, 7⟩⟩ 0xFFFFFFFF)

/-- The memory at the homes keeps its canonical form in every step: addresses strictly rising, no entry that an unlisted address
reads as. -/
def Obligations.StepKeepsMemoryCanonical : Prop :=
  ∀ s t : State, Memory.wf s.mem = true → step s = .next t → Memory.wf t.mem = true

/-- R431, R432, R446, R448, R449, R454: what reset leaves: no thread, no launch, no command, no translation and no lease; device
time at 0 and not running; EPSX 20, ADMCEIL 900, no alarm, no event; every window, ring and register file as its table gives it;
each die's firmware not yet booted.  Memory lists nothing, and so has its canonical form; what it reads as, and what the
registers of the cores hold, is the model's own choice (log entries 2 to 6). -/
def Obligations.ResetState : Prop :=
  let s := State.reset
  Memory.wf s.mem = true ∧ s.mem = [] ∧ s.warps = [] ∧ s.groups = [] ∧ s.launches = [] ∧ s.cmds = [] ∧ s.net = [] ∧ s.tlb = [] ∧
  s.leases = [] ∧ s.monitors = [] ∧ s.nymphs = [] ∧ s.subs = [] ∧ s.saved = [] ∧ s.now = 0 ∧ s.host.run = false ∧
  s.host.timeinit = 0 ∧ s.host.timesrc = 0 ∧ s.host.timedelay = 0 ∧ s.host.timeoff = 0 ∧ s.host.epsx = 20 ∧
  s.host.skewFault = false ∧ s.host.ceil = 900 ∧ s.host.hiveRemote = 0 ∧ s.host.hiveSlots = 0 ∧ s.host.pkgevt = 0 ∧
  s.host.alarm = false ∧ s.host.narrow = false ∧ s.host.alarmcnt = 0 ∧ s.host.activities = false ∧
  (∀ d, s.domain d = {}) ∧ (∀ d r, ((s.domain d).rings.get {} r) = {}) ∧ (∀ k, s.cv k = {}) ∧
  (∀ p, (s.host.peers.get {} p) = {}) ∧ (∀ x, s.host.apersel.get 0 x = 0) ∧
  ∀ d, (s.host.fw.get {} d).st = 0 ∧ (s.host.fw.get {} d).complex = false

/-- R46 to R49, R59, R63, R64: words written out from the encoding tables decode to the instructions that they stand for, one of
each family; and one word for each of the sub-causes 0x02 to 0x06 of ILLEGAL is refused with it. -/
def Obligations.DecodeExamples : Prop :=
  decode 0x280800506470060000000000#96 = .instr (.add ⟨false, false, ⟨true, 2⟩⟩ .i64 (.win 5) (.win 6) (.sca 7) 0) ∧
  decode 0x1C5C10102030050000000000#96 = .instr (.rotR ⟨false, false, ⟨false, 7⟩⟩ .n32 (.win 1) (.win 2) (.win 3) 0) ∧
  decode 0x1CAC001020304B6000000000#96 = .instr (.ffma ⟨false, false, ⟨false, 7⟩⟩ .b4 .rdn (.win 1) (.win 2) (.win 3) (.win 4) 0) ∧
  decode 0x1D3800000000000000000103#96 = .instr (.barHold ⟨false, false, ⟨false, 7⟩⟩ 3 32) ∧
  decode 0x1D603010203FE0000000001F#96 = .instr (.shfl ⟨false, false, ⟨false, 7⟩⟩ .xor (.win 1) (.win 2) (.win 3) .imm 31) ∧
  decode 0x1D8000102F00060300000010#96 = .instr (.ld ⟨false, false, ⟨false, 7⟩⟩ .i64 3 (.win 1) (.win 2) .zero 0x10) ∧
  decode 0x1DBC00002F00360000000ABC#96 = .instr (.stf ⟨false, false, ⟨false, 7⟩⟩ .i64 0 (.win 2) .zero (.win 3) 0xABC) ∧
  decode 0x1DE090102F00381B00000000#96 = .instr (.atom ⟨false, false, ⟨false, 7⟩⟩ .fadd .f64 .system 3 (.win 1) (.win 2) .zero (.win 3) 0) ∧
  decode 0x5E20081789B0000000000002#96 = .instr (.push ⟨false, true, ⟨false, 7⟩⟩ 1 (.sca 56) (some 3) .disp) ∧
  decode 0x1E4B100AA41FE00000000003#96 = .instr (.mma ⟨false, false, ⟨false, 7⟩⟩ (.bfp 48) (some 2) (.sca 1) .imm 3) ∧
  decode 0x1E9000102000000000000003#96 = .instr (.lstat ⟨false, false, ⟨false, 7⟩⟩ (.win 1) (.win 2) 3) ∧
  decode 0x1EE408141000000000000000#96 = .instr (.ctxrest ⟨false, false, ⟨false, 7⟩⟩ 1 (.sca 1) 0) ∧
  decode 0x000000000000000000000000#96 = .instr (.nop ⟨false, false, ⟨false, 0⟩⟩) ∧
  decode (BitVec.ofNat 96 (0x3F * 2 ^ 82)) = .illegal 0x02 ∧ decode (BitVec.ofNat 96 (2 * 2 ^ 82 + 2 ^ 76)) = .illegal 0x03 ∧
  decode (BitVec.ofNat 96 (2 * 2 ^ 82 + 8 * 2 ^ 40)) = .illegal 0x04 ∧
  decode (BitVec.ofNat 96 (2 * 2 ^ 82 + 0x20 * 2 ^ 68)) = .illegal 0x05 ∧
  decode (BitVec.ofNat 96 (2 * 2 ^ 82 + 1)) = .illegal 0x06

end
end

