-- ==== Sys2Proof/Laws/Tab.lean ====
section
/-! SUPPORT. Tables: what a read gives after a write, and that every operation keeps the canonical form. -/

namespace Sys2Proof

variable {α : Type}

@[simp] theorem Tab.get_nil (d : α) (x : Nat) : Tab.get d [] x = d := rfl

theorem Tab.get_cons (d : α) (k : Nat) (v : α) (t : Tab α) (x : Nat) :
    Tab.get d ((k, v) :: t) x = if k = x then v else Tab.get d t x := rfl

/-- An erased key reads as the default, every other key as before. -/
theorem Tab.get_erase (d : α) (t : Tab α) (x y : Nat) :
    (t.erase x).get d y = if y = x then d else t.get d y := by
  induction t with
  | nil => simp [Tab.erase]
  | cons e t ih =>
    obtain ⟨k, v⟩ := e
    by_cases hk : k = x
    · rw [Tab.erase, if_pos hk, ih, Tab.get_cons]
      by_cases hy : y = x
      · rw [if_pos hy, if_pos hy]
      · rw [if_neg hy, if_neg hy, if_neg (by omega)]
    · rw [Tab.erase, if_neg hk, Tab.get_cons, ih, Tab.get_cons]
      by_cases hy : y = x
      · rw [if_pos hy, if_neg (by omega), if_pos hy]
      · rw [if_neg hy, if_neg hy]

/-- An inserted entry is found where the key was absent before it; other keys read as before. -/
theorem Tab.get_insert_ne (d : α) (t : Tab α) (x y : Nat) (w : α) (h : y ≠ x) :
    (t.insert x w).get d y = t.get d y := by
  induction t with
  | nil => simp [Tab.insert, Tab.get_cons, Ne.symm h]
  | cons e t ih =>
    obtain ⟨k, v⟩ := e
    by_cases hx : x < k
    · simp [Tab.insert, hx, Tab.get_cons, Ne.symm h]
    · simp [Tab.insert, hx, Tab.get_cons, ih]

theorem Tab.get_insert_self (d : α) (t : Tab α) (x : Nat) (w : α) (h : ∀ e ∈ t, e.1 ≠ x) :
    (t.insert x w).get d x = w := by
  induction t with
  | nil => simp [Tab.insert, Tab.get_cons]
  | cons e t ih =>
    obtain ⟨k, v⟩ := e
    have hk : k ≠ x := h (k, v) (by simp)
    by_cases hx : x < k
    · simp [Tab.insert, hx, Tab.get_cons]
    · simp [Tab.insert, hx, Tab.get_cons, hk, ih fun e he => h e (by simp [he])]

theorem Tab.erase_keys (t : Tab α) (x : Nat) : ∀ e ∈ t.erase x, e.1 ≠ x ∧ e ∈ t := by
  induction t with
  | nil => simp [Tab.erase]
  | cons e t ih =>
    obtain ⟨k, v⟩ := e
    by_cases hk : k = x
    · intro e he
      simp only [Tab.erase, hk, ↓reduceIte] at he
      exact ⟨(ih e he).1, by simp [(ih e he).2]⟩
    · intro e he
      simp only [Tab.erase, hk, ↓reduceIte, List.mem_cons] at he
      rcases he with rfl | he
      · exact ⟨hk, by simp⟩
      · exact ⟨(ih e he).1, by simp [(ih e he).2]⟩

/-- Read after write. -/
theorem Tab.get_set [DecidableEq α] (d : α) (t : Tab α) (x y : Nat) (w : α) :
    (t.set d x w).get d y = if y = x then w else t.get d y := by
  by_cases hw : w = d
  · simp [Tab.set, hw, Tab.get_erase]
  · by_cases hy : y = x
    · subst hy
      simp [Tab.set, hw, Tab.get_insert_self d _ _ w fun e he => (Tab.erase_keys t y e he).1]
    · simp [Tab.set, hw, Tab.get_insert_ne d _ x y w hy, Tab.get_erase, hy]

@[simp] theorem Tab.get_set_self [DecidableEq α] (d : α) (t : Tab α) (x : Nat) (w : α) :
    (t.set d x w).get d x = w := by simp [Tab.get_set]

theorem Tab.get_set_ne [DecidableEq α] (d : α) (t : Tab α) {x y : Nat} (w : α) (h : y ≠ x) :
    (t.set d x w).get d y = t.get d y := by simp [Tab.get_set, h]

theorem Tab.get_upd [DecidableEq α] (d : α) (t : Tab α) (x y : Nat) (f : α → α) :
    (t.upd d x f).get d y = if y = x then f (t.get d x) else t.get d y := by
  simp [Tab.upd, Tab.get_set]

/-- A string of values written: each key inside it reads as its value, every other key as before. -/
theorem Tab.get_setN [DecidableEq α] (d : α) (vs : List α) (t : Tab α) (x y : Nat) :
    (Tab.setN d t x vs).get d y = if x ≤ y ∧ y < x + vs.length then vs.getD (y - x) d else t.get d y := by
  induction vs generalizing t x with
  | nil => rw [Tab.setN, if_neg (by simp)]
  | cons v vs ih =>
    rw [Tab.setN, ih, Tab.get_set, List.length_cons]
    by_cases hxy : y = x
    · rw [if_neg (by omega), if_pos hxy, if_pos (by omega), hxy, Nat.sub_self, List.getD_cons_zero]
    · by_cases h : x + 1 ≤ y ∧ y < x + 1 + vs.length
      · rw [if_pos h, if_pos (by omega), show y - x = (y - (x + 1)) + 1 by omega, List.getD_cons_succ]
      · rw [if_neg h, if_neg hxy, if_neg (by omega)]

theorem Tab.getN_length (d : α) (t : Tab α) (x n : Nat) : (t.getN d x n).length = n := by
  induction n generalizing x with
  | zero => rfl
  | succ n ih => simp [Tab.getN, ih]

theorem Tab.getN_eq (d : α) (t : Tab α) (x n : Nat) : t.getN d x n = (List.range n).map (fun i => t.get d (x + i)) := by
  induction n generalizing x with
  | zero => rfl
  | succ n ih =>
    rw [Tab.getN, ih, List.range_succ_eq_map]
    simp only [List.map_cons, List.map_map, Nat.add_zero, Function.comp_def, List.cons.injEq, true_and]
    exact List.map_congr_left fun i _ => congrArg (t.get d) (by omega)

/-- Reading back a string that was written. -/
theorem Tab.getN_setN [DecidableEq α] (d : α) (t : Tab α) (x : Nat) (vs : List α) :
    (Tab.setN d t x vs).getN d x vs.length = vs := by
  rw [Tab.getN_eq]
  apply List.ext_getElem (by simp)
  intro i h1 h2
  simp at h1
  simp [Tab.get_setN, h1]

/-- A string apart from the one that is written reads as before. -/
theorem Tab.getN_setN_apart [DecidableEq α] (d : α) (t : Tab α) (x y n : Nat) (vs : List α)
    (h : y + n ≤ x ∨ x + vs.length ≤ y) : (Tab.setN d t x vs).getN d y n = t.getN d y n := by
  simp only [Tab.getN_eq]
  apply List.map_congr_left
  intro i hi
  simp at hi
  rw [Tab.get_setN, if_neg (by omega)]

/-! ### The canonical form -/

theorem Tab.rising_weaken (t : Tab α) (lo : Option Nat) (h : t.rising lo = true) : t.rising none = true := by
  cases t with
  | nil => rfl
  | cons e t => obtain ⟨k, v⟩ := e; simp [Tab.rising] at h ⊢; exact h.2

theorem Tab.rising_lower (t : Tab α) (a b : Nat) (hab : a ≤ b) (h : t.rising (some b) = true) :
    t.rising (some a) = true := by
  cases t with
  | nil => rfl
  | cons e t => obtain ⟨k, v⟩ := e; simp [Tab.rising] at h ⊢; exact ⟨by omega, h.2⟩

theorem Tab.erase_rising (t : Tab α) (x : Nat) (lo : Option Nat) (h : t.rising lo = true) :
    (t.erase x).rising lo = true := by
  induction t generalizing lo with
  | nil => rfl
  | cons e t ih =>
    obtain ⟨k, v⟩ := e
    have ht : Tab.rising (some k) t = true := by simp [Tab.rising] at h; exact h.2
    by_cases hk : k = x
    · rw [Tab.erase, if_pos hk]
      apply ih
      cases lo with
      | none => exact Tab.rising_weaken t _ ht
      | some l => simp [Tab.rising] at h; exact Tab.rising_lower t l k (by omega) ht
    · rw [Tab.erase, if_neg hk]
      simp only [Tab.rising, Bool.and_eq_true] at h ⊢
      exact ⟨h.1, ih _ h.2⟩

theorem Tab.insert_rising (t : Tab α) (x : Nat) (w : α) (lo : Option Nat) (h : t.rising lo = true)
    (hx : ∀ e ∈ t, e.1 ≠ x) (hlo : ∀ l, lo = some l → l < x) : (t.insert x w).rising lo = true := by
  induction t generalizing lo with
  | nil => cases lo <;> simp_all [Tab.insert, Tab.rising]
  | cons e t ih =>
    obtain ⟨k, v⟩ := e
    simp only [Tab.rising, Bool.and_eq_true] at h
    by_cases hk : x < k
    · simp only [Tab.insert, hk, ↓reduceIte, Tab.rising, Bool.and_eq_true]
      refine ⟨?_, by simpa using hk, h.2⟩
      cases lo <;> simp_all
    · simp only [Tab.insert, hk, ↓reduceIte, Tab.rising, Bool.and_eq_true]
      have hne : k ≠ x := hx (k, v) (by simp)
      refine ⟨h.1, ih _ h.2 (fun e he => hx e (by simp [he])) ?_⟩
      intro l hl
      simp at hl
      omega

theorem Tab.insert_all (p : Nat × α → Bool) (t : Tab α) (x : Nat) (w : α) (h : t.all p = true) (hw : p (x, w) = true) :
    (t.insert x w).all p = true := by
  induction t with
  | nil => simp [Tab.insert, hw]
  | cons e t ih =>
    obtain ⟨k, v⟩ := e
    simp only [List.all_cons, Bool.and_eq_true] at h
    by_cases hk : x < k
    · simp [Tab.insert, hk, hw, h.1]; simpa using h.2
    · simp only [Tab.insert, hk, ↓reduceIte, List.all_cons, Bool.and_eq_true]
      exact ⟨h.1, ih h.2⟩

theorem Tab.erase_all (p : Nat × α → Bool) (t : Tab α) (x : Nat) (h : t.all p = true) : (t.erase x).all p = true := by
  rw [List.all_eq_true] at h ⊢
  exact fun e he => h e (Tab.erase_keys t x e he).2

theorem Tab.erase_wf [DecidableEq α] (d : α) (t : Tab α) (x : Nat) (h : t.wf d = true) : (t.erase x).wf d = true := by
  simp only [Tab.wf, Bool.and_eq_true] at h ⊢
  exact ⟨Tab.erase_rising t x _ h.1, Tab.erase_all _ t x h.2⟩

/-- A write keeps the canonical form. -/
theorem Tab.set_wf [DecidableEq α] (d : α) (t : Tab α) (x : Nat) (w : α) (h : t.wf d = true) :
    (t.set d x w).wf d = true := by
  by_cases hw : w = d
  · simpa [Tab.set, hw] using Tab.erase_wf d t x h
  · have h' := Tab.erase_wf d t x h
    simp only [Tab.wf, Bool.and_eq_true] at h' ⊢
    simp only [Tab.set, hw, ↓reduceIte]
    exact ⟨Tab.insert_rising _ x w none h'.1 (fun e he => (Tab.erase_keys t x e he).1) (by simp),
      Tab.insert_all _ _ x w h'.2 (by simp [hw])⟩

/-- A string of writes keeps the canonical form. -/
theorem Tab.setN_wf [DecidableEq α] (d : α) (vs : List α) (t : Tab α) (x : Nat) (h : t.wf d = true) :
    (Tab.setN d t x vs).wf d = true := by
  induction vs generalizing t x with
  | nil => exact h
  | cons v vs ih => exact ih _ _ (Tab.set_wf d t x v h)

theorem Tab.rising_get (d : α) (t : Tab α) (lo x : Nat) (h : t.rising (some lo) = true) (hx : x ≤ lo) : t.get d x = d := by
  induction t generalizing lo with
  | nil => rfl
  | cons e t ih =>
    obtain ⟨k, v⟩ := e
    simp [Tab.rising] at h
    rw [Tab.get_cons, if_neg (by omega)]
    exact ih k h.2 (by omega)

theorem Tab.ext_rising [DecidableEq α] (d : α) (t u : Tab α) (lo : Option Nat) (ht : t.rising lo = true)
    (hu : u.rising lo = true) (at_ : t.all (fun e => e.2 ≠ d) = true) (au : u.all (fun e => e.2 ≠ d) = true)
    (h : ∀ x, t.get d x = u.get d x) : t = u := by
  induction t generalizing u lo with
  | nil =>
    cases u with
    | nil => rfl
    | cons e u => obtain ⟨k, v⟩ := e; have := h k; simp [Tab.get_cons] at this au; simp_all
  | cons e t ih =>
    obtain ⟨k, v⟩ := e
    cases u with
    | nil => have := h k; simp [Tab.get_cons] at this at_; simp_all
    | cons e u =>
      obtain ⟨j, w⟩ := e
      simp only [Tab.rising, Bool.and_eq_true, List.all_cons] at ht hu at_ au
      have hkj : k = j := by
        by_contra hne
        rcases Nat.lt_or_gt_of_ne hne with hl | hl
        · have := h k
          rw [Tab.get_cons, if_pos rfl, Tab.get_cons, if_neg (by omega), Tab.rising_get d u j k hu.2 (by omega)] at this
          simp [this] at at_
        · have := h j
          rw [Tab.get_cons, if_neg (by omega), Tab.rising_get d t k j ht.2 (by omega), Tab.get_cons, if_pos rfl] at this
          simp [← this] at au
      subst hkj
      have hv := h k
      simp [Tab.get_cons] at hv
      subst hv
      rw [ih u (some k) ht.2 hu.2 at_.2 au.2 ?_]
      intro x
      by_cases hx : x = k
      · subst hx; rw [Tab.rising_get d t x x ht.2 (by omega), Tab.rising_get d u x x hu.2 (by omega)]
      · have := h x; simpa [Tab.get_cons, Ne.symm hx] using this

/-- Two canonical tables that read alike everywhere are one list. -/
theorem Tab.ext_wf [DecidableEq α] (d : α) (t u : Tab α) (ht : t.wf d = true) (hu : u.wf d = true)
    (h : ∀ x, t.get d x = u.get d x) : t = u := by
  simp only [Tab.wf, Bool.and_eq_true] at ht hu
  exact Tab.ext_rising d t u none ht.1 hu.1 ht.2 hu.2 h

end Sys2Proof
end

