-- ==== Sys2Proof/Laws/State.lean ====
section
/-! SUPPORT. The parts of the state after the updates of Machine/Ops.lean: what each update leaves in every field, and what
a warp or a lane reads as after it. -/

namespace Sys2Proof.Machine

/-! ### Fields -/

@[simp] theorem State.setWarp_now (s : State) (k : Nat) (w : Warp) : (s.setWarp k w).now = s.now := rfl
@[simp] theorem State.setWarp_turns (s : State) (k : Nat) (w : Warp) : (s.setWarp k w).turns = s.turns := rfl
@[simp] theorem State.setWarp_steps (s : State) (k : Nat) (w : Warp) : (s.setWarp k w).steps = s.steps := rfl
@[simp] theorem State.setWarp_draws (s : State) (k : Nat) (w : Warp) : (s.setWarp k w).draws = s.draws := rfl
@[simp] theorem State.setWarp_serial (s : State) (k : Nat) (w : Warp) : (s.setWarp k w).serial = s.serial := rfl
@[simp] theorem State.setWarp_cur (s : State) (k : Nat) (w : Warp) : (s.setWarp k w).cur = s.cur := rfl
@[simp] theorem State.setWarp_groups (s : State) (k : Nat) (w : Warp) : (s.setWarp k w).groups = s.groups := rfl
@[simp] theorem State.setWarp_mem (s : State) (k : Nat) (w : Warp) : (s.setWarp k w).mem = s.mem := rfl
@[simp] theorem State.setWarp_hbm (s : State) (k : Nat) (w : Warp) : (s.setWarp k w).hbm = s.hbm := rfl
@[simp] theorem State.setWarp_scratch (s : State) (k : Nat) (w : Warp) : (s.setWarp k w).scratch = s.scratch := rfl
@[simp] theorem State.setWarp_wbuf (s : State) (k : Nat) (w : Warp) : (s.setWarp k w).wbuf = s.wbuf := rfl
@[simp] theorem State.setWarp_acc (s : State) (k : Nat) (w : Warp) : (s.setWarp k w).acc = s.acc := rfl
@[simp] theorem State.setWarp_hostMem (s : State) (k : Nat) (w : Warp) : (s.setWarp k w).hostMem = s.hostMem := rfl
@[simp] theorem State.setWarp_hostIn (s : State) (k : Nat) (w : Warp) : (s.setWarp k w).hostIn = s.hostIn := rfl
@[simp] theorem State.setWarp_lend (s : State) (k : Nat) (w : Warp) : (s.setWarp k w).lend = s.lend := rfl
@[simp] theorem State.setWarp_tags (s : State) (k : Nat) (w : Warp) : (s.setWarp k w).tags = s.tags := rfl
@[simp] theorem State.setWarp_monitors (s : State) (k : Nat) (w : Warp) : (s.setWarp k w).monitors = s.monitors := rfl
@[simp] theorem State.setWarp_monEvents (s : State) (k : Nat) (w : Warp) : (s.setWarp k w).monEvents = s.monEvents := rfl
@[simp] theorem State.setWarp_net (s : State) (k : Nat) (w : Warp) : (s.setWarp k w).net = s.net := rfl
@[simp] theorem State.setWarp_answers (s : State) (k : Nat) (w : Warp) : (s.setWarp k w).answers = s.answers := rfl
@[simp] theorem State.setWarp_ctimes (s : State) (k : Nat) (w : Warp) : (s.setWarp k w).ctimes = s.ctimes := rfl
@[simp] theorem State.setWarp_coreC (s : State) (k : Nat) (w : Warp) : (s.setWarp k w).coreC = s.coreC := rfl
@[simp] theorem State.setWarp_coreCP (s : State) (k : Nat) (w : Warp) : (s.setWarp k w).coreCP = s.coreCP := rfl
@[simp] theorem State.setWarp_tlb (s : State) (k : Nat) (w : Warp) : (s.setWarp k w).tlb = s.tlb := rfl
@[simp] theorem State.setWarp_walks (s : State) (k : Nat) (w : Warp) : (s.setWarp k w).walks = s.walks := rfl
@[simp] theorem State.setWarp_walkFails (s : State) (k : Nat) (w : Warp) : (s.setWarp k w).walkFails = s.walkFails := rfl
@[simp] theorem State.setWarp_leases (s : State) (k : Nat) (w : Warp) : (s.setWarp k w).leases = s.leases := rfl
@[simp] theorem State.setWarp_olds (s : State) (k : Nat) (w : Warp) : (s.setWarp k w).olds = s.olds := rfl
@[simp] theorem State.setWarp_decodes (s : State) (k : Nat) (w : Warp) : (s.setWarp k w).decodes = s.decodes := rfl
@[simp] theorem State.setWarp_cbWrites (s : State) (k : Nat) (w : Warp) : (s.setWarp k w).cbWrites = s.cbWrites := rfl
@[simp] theorem State.setWarp_nymphs (s : State) (k : Nat) (w : Warp) : (s.setWarp k w).nymphs = s.nymphs := rfl
@[simp] theorem State.setWarp_children (s : State) (k : Nat) (w : Warp) : (s.setWarp k w).children = s.children := rfl
@[simp] theorem State.setWarp_resends (s : State) (k : Nat) (w : Warp) : (s.setWarp k w).resends = s.resends := rfl
@[simp] theorem State.setWarp_arrival (s : State) (k : Nat) (w : Warp) : (s.setWarp k w).arrival = s.arrival := rfl
@[simp] theorem State.setWarp_pools (s : State) (k : Nat) (w : Warp) : (s.setWarp k w).pools = s.pools := rfl
@[simp] theorem State.setWarp_flushes (s : State) (k : Nat) (w : Warp) : (s.setWarp k w).flushes = s.flushes := rfl
@[simp] theorem State.setWarp_cvs (s : State) (k : Nat) (w : Warp) : (s.setWarp k w).cvs = s.cvs := rfl
@[simp] theorem State.setWarp_parts (s : State) (k : Nat) (w : Warp) : (s.setWarp k w).parts = s.parts := rfl
@[simp] theorem State.setWarp_cmds (s : State) (k : Nat) (w : Warp) : (s.setWarp k w).cmds = s.cmds := rfl
@[simp] theorem State.setWarp_recs (s : State) (k : Nat) (w : Warp) : (s.setWarp k w).recs = s.recs := rfl
@[simp] theorem State.setWarp_mjoins (s : State) (k : Nat) (w : Warp) : (s.setWarp k w).mjoins = s.mjoins := rfl
@[simp] theorem State.setWarp_mgroups (s : State) (k : Nat) (w : Warp) : (s.setWarp k w).mgroups = s.mgroups := rfl
@[simp] theorem State.setWarp_launches (s : State) (k : Nat) (w : Warp) : (s.setWarp k w).launches = s.launches := rfl
@[simp] theorem State.setWarp_graphs (s : State) (k : Nat) (w : Warp) : (s.setWarp k w).graphs = s.graphs := rfl
@[simp] theorem State.setWarp_jobs (s : State) (k : Nat) (w : Warp) : (s.setWarp k w).jobs = s.jobs := rfl
@[simp] theorem State.setWarp_subs (s : State) (k : Nat) (w : Warp) : (s.setWarp k w).subs = s.subs := rfl
@[simp] theorem State.setWarp_results (s : State) (k : Nat) (w : Warp) : (s.setWarp k w).results = s.results := rfl
@[simp] theorem State.setWarp_lstats (s : State) (k : Nat) (w : Warp) : (s.setWarp k w).lstats = s.lstats := rfl
@[simp] theorem State.setWarp_cancels (s : State) (k : Nat) (w : Warp) : (s.setWarp k w).cancels = s.cancels := rfl
@[simp] theorem State.setWarp_domains (s : State) (k : Nat) (w : Warp) : (s.setWarp k w).domains = s.domains := rfl
@[simp] theorem State.setWarp_saved (s : State) (k : Nat) (w : Warp) : (s.setWarp k w).saved = s.saved := rfl
@[simp] theorem State.setWarp_saveReqs (s : State) (k : Nat) (w : Warp) : (s.setWarp k w).saveReqs = s.saveReqs := rfl
@[simp] theorem State.setWarp_holds (s : State) (k : Nat) (w : Warp) : (s.setWarp k w).holds = s.holds := rfl
@[simp] theorem State.setWarp_unsplices (s : State) (k : Nat) (w : Warp) : (s.setWarp k w).unsplices = s.unsplices := rfl
@[simp] theorem State.setWarp_host (s : State) (k : Nat) (w : Warp) : (s.setWarp k w).host = s.host := rfl

@[simp] theorem State.updWarp_now (s : State) (k : Nat) (f : Warp → Warp) : (s.updWarp k f).now = s.now := rfl
@[simp] theorem State.updWarp_turns (s : State) (k : Nat) (f : Warp → Warp) : (s.updWarp k f).turns = s.turns := rfl
@[simp] theorem State.updWarp_steps (s : State) (k : Nat) (f : Warp → Warp) : (s.updWarp k f).steps = s.steps := rfl
@[simp] theorem State.updWarp_draws (s : State) (k : Nat) (f : Warp → Warp) : (s.updWarp k f).draws = s.draws := rfl
@[simp] theorem State.updWarp_serial (s : State) (k : Nat) (f : Warp → Warp) : (s.updWarp k f).serial = s.serial := rfl
@[simp] theorem State.updWarp_cur (s : State) (k : Nat) (f : Warp → Warp) : (s.updWarp k f).cur = s.cur := rfl
@[simp] theorem State.updWarp_groups (s : State) (k : Nat) (f : Warp → Warp) : (s.updWarp k f).groups = s.groups := rfl
@[simp] theorem State.updWarp_mem (s : State) (k : Nat) (f : Warp → Warp) : (s.updWarp k f).mem = s.mem := rfl
@[simp] theorem State.updWarp_hbm (s : State) (k : Nat) (f : Warp → Warp) : (s.updWarp k f).hbm = s.hbm := rfl
@[simp] theorem State.updWarp_scratch (s : State) (k : Nat) (f : Warp → Warp) : (s.updWarp k f).scratch = s.scratch := rfl
@[simp] theorem State.updWarp_wbuf (s : State) (k : Nat) (f : Warp → Warp) : (s.updWarp k f).wbuf = s.wbuf := rfl
@[simp] theorem State.updWarp_acc (s : State) (k : Nat) (f : Warp → Warp) : (s.updWarp k f).acc = s.acc := rfl
@[simp] theorem State.updWarp_hostMem (s : State) (k : Nat) (f : Warp → Warp) : (s.updWarp k f).hostMem = s.hostMem := rfl
@[simp] theorem State.updWarp_hostIn (s : State) (k : Nat) (f : Warp → Warp) : (s.updWarp k f).hostIn = s.hostIn := rfl
@[simp] theorem State.updWarp_lend (s : State) (k : Nat) (f : Warp → Warp) : (s.updWarp k f).lend = s.lend := rfl
@[simp] theorem State.updWarp_tags (s : State) (k : Nat) (f : Warp → Warp) : (s.updWarp k f).tags = s.tags := rfl
@[simp] theorem State.updWarp_monitors (s : State) (k : Nat) (f : Warp → Warp) : (s.updWarp k f).monitors = s.monitors := rfl
@[simp] theorem State.updWarp_monEvents (s : State) (k : Nat) (f : Warp → Warp) : (s.updWarp k f).monEvents = s.monEvents := rfl
@[simp] theorem State.updWarp_net (s : State) (k : Nat) (f : Warp → Warp) : (s.updWarp k f).net = s.net := rfl
@[simp] theorem State.updWarp_answers (s : State) (k : Nat) (f : Warp → Warp) : (s.updWarp k f).answers = s.answers := rfl
@[simp] theorem State.updWarp_ctimes (s : State) (k : Nat) (f : Warp → Warp) : (s.updWarp k f).ctimes = s.ctimes := rfl
@[simp] theorem State.updWarp_coreC (s : State) (k : Nat) (f : Warp → Warp) : (s.updWarp k f).coreC = s.coreC := rfl
@[simp] theorem State.updWarp_coreCP (s : State) (k : Nat) (f : Warp → Warp) : (s.updWarp k f).coreCP = s.coreCP := rfl
@[simp] theorem State.updWarp_tlb (s : State) (k : Nat) (f : Warp → Warp) : (s.updWarp k f).tlb = s.tlb := rfl
@[simp] theorem State.updWarp_walks (s : State) (k : Nat) (f : Warp → Warp) : (s.updWarp k f).walks = s.walks := rfl
@[simp] theorem State.updWarp_walkFails (s : State) (k : Nat) (f : Warp → Warp) : (s.updWarp k f).walkFails = s.walkFails := rfl
@[simp] theorem State.updWarp_leases (s : State) (k : Nat) (f : Warp → Warp) : (s.updWarp k f).leases = s.leases := rfl
@[simp] theorem State.updWarp_olds (s : State) (k : Nat) (f : Warp → Warp) : (s.updWarp k f).olds = s.olds := rfl
@[simp] theorem State.updWarp_decodes (s : State) (k : Nat) (f : Warp → Warp) : (s.updWarp k f).decodes = s.decodes := rfl
@[simp] theorem State.updWarp_cbWrites (s : State) (k : Nat) (f : Warp → Warp) : (s.updWarp k f).cbWrites = s.cbWrites := rfl
@[simp] theorem State.updWarp_nymphs (s : State) (k : Nat) (f : Warp → Warp) : (s.updWarp k f).nymphs = s.nymphs := rfl
@[simp] theorem State.updWarp_children (s : State) (k : Nat) (f : Warp → Warp) : (s.updWarp k f).children = s.children := rfl
@[simp] theorem State.updWarp_resends (s : State) (k : Nat) (f : Warp → Warp) : (s.updWarp k f).resends = s.resends := rfl
@[simp] theorem State.updWarp_arrival (s : State) (k : Nat) (f : Warp → Warp) : (s.updWarp k f).arrival = s.arrival := rfl
@[simp] theorem State.updWarp_pools (s : State) (k : Nat) (f : Warp → Warp) : (s.updWarp k f).pools = s.pools := rfl
@[simp] theorem State.updWarp_flushes (s : State) (k : Nat) (f : Warp → Warp) : (s.updWarp k f).flushes = s.flushes := rfl
@[simp] theorem State.updWarp_cvs (s : State) (k : Nat) (f : Warp → Warp) : (s.updWarp k f).cvs = s.cvs := rfl
@[simp] theorem State.updWarp_parts (s : State) (k : Nat) (f : Warp → Warp) : (s.updWarp k f).parts = s.parts := rfl
@[simp] theorem State.updWarp_cmds (s : State) (k : Nat) (f : Warp → Warp) : (s.updWarp k f).cmds = s.cmds := rfl
@[simp] theorem State.updWarp_recs (s : State) (k : Nat) (f : Warp → Warp) : (s.updWarp k f).recs = s.recs := rfl
@[simp] theorem State.updWarp_mjoins (s : State) (k : Nat) (f : Warp → Warp) : (s.updWarp k f).mjoins = s.mjoins := rfl
@[simp] theorem State.updWarp_mgroups (s : State) (k : Nat) (f : Warp → Warp) : (s.updWarp k f).mgroups = s.mgroups := rfl
@[simp] theorem State.updWarp_launches (s : State) (k : Nat) (f : Warp → Warp) : (s.updWarp k f).launches = s.launches := rfl
@[simp] theorem State.updWarp_graphs (s : State) (k : Nat) (f : Warp → Warp) : (s.updWarp k f).graphs = s.graphs := rfl
@[simp] theorem State.updWarp_jobs (s : State) (k : Nat) (f : Warp → Warp) : (s.updWarp k f).jobs = s.jobs := rfl
@[simp] theorem State.updWarp_subs (s : State) (k : Nat) (f : Warp → Warp) : (s.updWarp k f).subs = s.subs := rfl
@[simp] theorem State.updWarp_results (s : State) (k : Nat) (f : Warp → Warp) : (s.updWarp k f).results = s.results := rfl
@[simp] theorem State.updWarp_lstats (s : State) (k : Nat) (f : Warp → Warp) : (s.updWarp k f).lstats = s.lstats := rfl
@[simp] theorem State.updWarp_cancels (s : State) (k : Nat) (f : Warp → Warp) : (s.updWarp k f).cancels = s.cancels := rfl
@[simp] theorem State.updWarp_domains (s : State) (k : Nat) (f : Warp → Warp) : (s.updWarp k f).domains = s.domains := rfl
@[simp] theorem State.updWarp_saved (s : State) (k : Nat) (f : Warp → Warp) : (s.updWarp k f).saved = s.saved := rfl
@[simp] theorem State.updWarp_saveReqs (s : State) (k : Nat) (f : Warp → Warp) : (s.updWarp k f).saveReqs = s.saveReqs := rfl
@[simp] theorem State.updWarp_holds (s : State) (k : Nat) (f : Warp → Warp) : (s.updWarp k f).holds = s.holds := rfl
@[simp] theorem State.updWarp_unsplices (s : State) (k : Nat) (f : Warp → Warp) : (s.updWarp k f).unsplices = s.unsplices := rfl
@[simp] theorem State.updWarp_host (s : State) (k : Nat) (f : Warp → Warp) : (s.updWarp k f).host = s.host := rfl

@[simp] theorem State.updLane_now (s : State) (k L : Nat) (f : Lane → Lane) : (s.updLane k L f).now = s.now := rfl
@[simp] theorem State.updLane_turns (s : State) (k L : Nat) (f : Lane → Lane) : (s.updLane k L f).turns = s.turns := rfl
@[simp] theorem State.updLane_steps (s : State) (k L : Nat) (f : Lane → Lane) : (s.updLane k L f).steps = s.steps := rfl
@[simp] theorem State.updLane_draws (s : State) (k L : Nat) (f : Lane → Lane) : (s.updLane k L f).draws = s.draws := rfl
@[simp] theorem State.updLane_serial (s : State) (k L : Nat) (f : Lane → Lane) : (s.updLane k L f).serial = s.serial := rfl
@[simp] theorem State.updLane_cur (s : State) (k L : Nat) (f : Lane → Lane) : (s.updLane k L f).cur = s.cur := rfl
@[simp] theorem State.updLane_groups (s : State) (k L : Nat) (f : Lane → Lane) : (s.updLane k L f).groups = s.groups := rfl
@[simp] theorem State.updLane_mem (s : State) (k L : Nat) (f : Lane → Lane) : (s.updLane k L f).mem = s.mem := rfl
@[simp] theorem State.updLane_hbm (s : State) (k L : Nat) (f : Lane → Lane) : (s.updLane k L f).hbm = s.hbm := rfl
@[simp] theorem State.updLane_scratch (s : State) (k L : Nat) (f : Lane → Lane) : (s.updLane k L f).scratch = s.scratch := rfl
@[simp] theorem State.updLane_wbuf (s : State) (k L : Nat) (f : Lane → Lane) : (s.updLane k L f).wbuf = s.wbuf := rfl
@[simp] theorem State.updLane_acc (s : State) (k L : Nat) (f : Lane → Lane) : (s.updLane k L f).acc = s.acc := rfl
@[simp] theorem State.updLane_hostMem (s : State) (k L : Nat) (f : Lane → Lane) : (s.updLane k L f).hostMem = s.hostMem := rfl
@[simp] theorem State.updLane_hostIn (s : State) (k L : Nat) (f : Lane → Lane) : (s.updLane k L f).hostIn = s.hostIn := rfl
@[simp] theorem State.updLane_lend (s : State) (k L : Nat) (f : Lane → Lane) : (s.updLane k L f).lend = s.lend := rfl
@[simp] theorem State.updLane_tags (s : State) (k L : Nat) (f : Lane → Lane) : (s.updLane k L f).tags = s.tags := rfl
@[simp] theorem State.updLane_monitors (s : State) (k L : Nat) (f : Lane → Lane) : (s.updLane k L f).monitors = s.monitors := rfl
@[simp] theorem State.updLane_monEvents (s : State) (k L : Nat) (f : Lane → Lane) : (s.updLane k L f).monEvents = s.monEvents := rfl
@[simp] theorem State.updLane_net (s : State) (k L : Nat) (f : Lane → Lane) : (s.updLane k L f).net = s.net := rfl
@[simp] theorem State.updLane_answers (s : State) (k L : Nat) (f : Lane → Lane) : (s.updLane k L f).answers = s.answers := rfl
@[simp] theorem State.updLane_ctimes (s : State) (k L : Nat) (f : Lane → Lane) : (s.updLane k L f).ctimes = s.ctimes := rfl
@[simp] theorem State.updLane_coreC (s : State) (k L : Nat) (f : Lane → Lane) : (s.updLane k L f).coreC = s.coreC := rfl
@[simp] theorem State.updLane_coreCP (s : State) (k L : Nat) (f : Lane → Lane) : (s.updLane k L f).coreCP = s.coreCP := rfl
@[simp] theorem State.updLane_tlb (s : State) (k L : Nat) (f : Lane → Lane) : (s.updLane k L f).tlb = s.tlb := rfl
@[simp] theorem State.updLane_walks (s : State) (k L : Nat) (f : Lane → Lane) : (s.updLane k L f).walks = s.walks := rfl
@[simp] theorem State.updLane_walkFails (s : State) (k L : Nat) (f : Lane → Lane) : (s.updLane k L f).walkFails = s.walkFails := rfl
@[simp] theorem State.updLane_leases (s : State) (k L : Nat) (f : Lane → Lane) : (s.updLane k L f).leases = s.leases := rfl
@[simp] theorem State.updLane_olds (s : State) (k L : Nat) (f : Lane → Lane) : (s.updLane k L f).olds = s.olds := rfl
@[simp] theorem State.updLane_decodes (s : State) (k L : Nat) (f : Lane → Lane) : (s.updLane k L f).decodes = s.decodes := rfl
@[simp] theorem State.updLane_cbWrites (s : State) (k L : Nat) (f : Lane → Lane) : (s.updLane k L f).cbWrites = s.cbWrites := rfl
@[simp] theorem State.updLane_nymphs (s : State) (k L : Nat) (f : Lane → Lane) : (s.updLane k L f).nymphs = s.nymphs := rfl
@[simp] theorem State.updLane_children (s : State) (k L : Nat) (f : Lane → Lane) : (s.updLane k L f).children = s.children := rfl
@[simp] theorem State.updLane_resends (s : State) (k L : Nat) (f : Lane → Lane) : (s.updLane k L f).resends = s.resends := rfl
@[simp] theorem State.updLane_arrival (s : State) (k L : Nat) (f : Lane → Lane) : (s.updLane k L f).arrival = s.arrival := rfl
@[simp] theorem State.updLane_pools (s : State) (k L : Nat) (f : Lane → Lane) : (s.updLane k L f).pools = s.pools := rfl
@[simp] theorem State.updLane_flushes (s : State) (k L : Nat) (f : Lane → Lane) : (s.updLane k L f).flushes = s.flushes := rfl
@[simp] theorem State.updLane_cvs (s : State) (k L : Nat) (f : Lane → Lane) : (s.updLane k L f).cvs = s.cvs := rfl
@[simp] theorem State.updLane_parts (s : State) (k L : Nat) (f : Lane → Lane) : (s.updLane k L f).parts = s.parts := rfl
@[simp] theorem State.updLane_cmds (s : State) (k L : Nat) (f : Lane → Lane) : (s.updLane k L f).cmds = s.cmds := rfl
@[simp] theorem State.updLane_recs (s : State) (k L : Nat) (f : Lane → Lane) : (s.updLane k L f).recs = s.recs := rfl
@[simp] theorem State.updLane_mjoins (s : State) (k L : Nat) (f : Lane → Lane) : (s.updLane k L f).mjoins = s.mjoins := rfl
@[simp] theorem State.updLane_mgroups (s : State) (k L : Nat) (f : Lane → Lane) : (s.updLane k L f).mgroups = s.mgroups := rfl
@[simp] theorem State.updLane_launches (s : State) (k L : Nat) (f : Lane → Lane) : (s.updLane k L f).launches = s.launches := rfl
@[simp] theorem State.updLane_graphs (s : State) (k L : Nat) (f : Lane → Lane) : (s.updLane k L f).graphs = s.graphs := rfl
@[simp] theorem State.updLane_jobs (s : State) (k L : Nat) (f : Lane → Lane) : (s.updLane k L f).jobs = s.jobs := rfl
@[simp] theorem State.updLane_subs (s : State) (k L : Nat) (f : Lane → Lane) : (s.updLane k L f).subs = s.subs := rfl
@[simp] theorem State.updLane_results (s : State) (k L : Nat) (f : Lane → Lane) : (s.updLane k L f).results = s.results := rfl
@[simp] theorem State.updLane_lstats (s : State) (k L : Nat) (f : Lane → Lane) : (s.updLane k L f).lstats = s.lstats := rfl
@[simp] theorem State.updLane_cancels (s : State) (k L : Nat) (f : Lane → Lane) : (s.updLane k L f).cancels = s.cancels := rfl
@[simp] theorem State.updLane_domains (s : State) (k L : Nat) (f : Lane → Lane) : (s.updLane k L f).domains = s.domains := rfl
@[simp] theorem State.updLane_saved (s : State) (k L : Nat) (f : Lane → Lane) : (s.updLane k L f).saved = s.saved := rfl
@[simp] theorem State.updLane_saveReqs (s : State) (k L : Nat) (f : Lane → Lane) : (s.updLane k L f).saveReqs = s.saveReqs := rfl
@[simp] theorem State.updLane_holds (s : State) (k L : Nat) (f : Lane → Lane) : (s.updLane k L f).holds = s.holds := rfl
@[simp] theorem State.updLane_unsplices (s : State) (k L : Nat) (f : Lane → Lane) : (s.updLane k L f).unsplices = s.unsplices := rfl
@[simp] theorem State.updLane_host (s : State) (k L : Nat) (f : Lane → Lane) : (s.updLane k L f).host = s.host := rfl

@[simp] theorem State.updGroup_now (s : State) (k : Nat) (f : Group → Group) : (s.updGroup k f).now = s.now := rfl
@[simp] theorem State.updGroup_turns (s : State) (k : Nat) (f : Group → Group) : (s.updGroup k f).turns = s.turns := rfl
@[simp] theorem State.updGroup_steps (s : State) (k : Nat) (f : Group → Group) : (s.updGroup k f).steps = s.steps := rfl
@[simp] theorem State.updGroup_draws (s : State) (k : Nat) (f : Group → Group) : (s.updGroup k f).draws = s.draws := rfl
@[simp] theorem State.updGroup_serial (s : State) (k : Nat) (f : Group → Group) : (s.updGroup k f).serial = s.serial := rfl
@[simp] theorem State.updGroup_cur (s : State) (k : Nat) (f : Group → Group) : (s.updGroup k f).cur = s.cur := rfl
@[simp] theorem State.updGroup_warps (s : State) (k : Nat) (f : Group → Group) : (s.updGroup k f).warps = s.warps := rfl
@[simp] theorem State.updGroup_mem (s : State) (k : Nat) (f : Group → Group) : (s.updGroup k f).mem = s.mem := rfl
@[simp] theorem State.updGroup_hbm (s : State) (k : Nat) (f : Group → Group) : (s.updGroup k f).hbm = s.hbm := rfl
@[simp] theorem State.updGroup_scratch (s : State) (k : Nat) (f : Group → Group) : (s.updGroup k f).scratch = s.scratch := rfl
@[simp] theorem State.updGroup_wbuf (s : State) (k : Nat) (f : Group → Group) : (s.updGroup k f).wbuf = s.wbuf := rfl
@[simp] theorem State.updGroup_acc (s : State) (k : Nat) (f : Group → Group) : (s.updGroup k f).acc = s.acc := rfl
@[simp] theorem State.updGroup_hostMem (s : State) (k : Nat) (f : Group → Group) : (s.updGroup k f).hostMem = s.hostMem := rfl
@[simp] theorem State.updGroup_hostIn (s : State) (k : Nat) (f : Group → Group) : (s.updGroup k f).hostIn = s.hostIn := rfl
@[simp] theorem State.updGroup_lend (s : State) (k : Nat) (f : Group → Group) : (s.updGroup k f).lend = s.lend := rfl
@[simp] theorem State.updGroup_tags (s : State) (k : Nat) (f : Group → Group) : (s.updGroup k f).tags = s.tags := rfl
@[simp] theorem State.updGroup_monitors (s : State) (k : Nat) (f : Group → Group) : (s.updGroup k f).monitors = s.monitors := rfl
@[simp] theorem State.updGroup_monEvents (s : State) (k : Nat) (f : Group → Group) : (s.updGroup k f).monEvents = s.monEvents := rfl
@[simp] theorem State.updGroup_net (s : State) (k : Nat) (f : Group → Group) : (s.updGroup k f).net = s.net := rfl
@[simp] theorem State.updGroup_answers (s : State) (k : Nat) (f : Group → Group) : (s.updGroup k f).answers = s.answers := rfl
@[simp] theorem State.updGroup_ctimes (s : State) (k : Nat) (f : Group → Group) : (s.updGroup k f).ctimes = s.ctimes := rfl
@[simp] theorem State.updGroup_coreC (s : State) (k : Nat) (f : Group → Group) : (s.updGroup k f).coreC = s.coreC := rfl
@[simp] theorem State.updGroup_coreCP (s : State) (k : Nat) (f : Group → Group) : (s.updGroup k f).coreCP = s.coreCP := rfl
@[simp] theorem State.updGroup_tlb (s : State) (k : Nat) (f : Group → Group) : (s.updGroup k f).tlb = s.tlb := rfl
@[simp] theorem State.updGroup_walks (s : State) (k : Nat) (f : Group → Group) : (s.updGroup k f).walks = s.walks := rfl
@[simp] theorem State.updGroup_walkFails (s : State) (k : Nat) (f : Group → Group) : (s.updGroup k f).walkFails = s.walkFails := rfl
@[simp] theorem State.updGroup_leases (s : State) (k : Nat) (f : Group → Group) : (s.updGroup k f).leases = s.leases := rfl
@[simp] theorem State.updGroup_olds (s : State) (k : Nat) (f : Group → Group) : (s.updGroup k f).olds = s.olds := rfl
@[simp] theorem State.updGroup_decodes (s : State) (k : Nat) (f : Group → Group) : (s.updGroup k f).decodes = s.decodes := rfl
@[simp] theorem State.updGroup_cbWrites (s : State) (k : Nat) (f : Group → Group) : (s.updGroup k f).cbWrites = s.cbWrites := rfl
@[simp] theorem State.updGroup_nymphs (s : State) (k : Nat) (f : Group → Group) : (s.updGroup k f).nymphs = s.nymphs := rfl
@[simp] theorem State.updGroup_children (s : State) (k : Nat) (f : Group → Group) : (s.updGroup k f).children = s.children := rfl
@[simp] theorem State.updGroup_resends (s : State) (k : Nat) (f : Group → Group) : (s.updGroup k f).resends = s.resends := rfl
@[simp] theorem State.updGroup_arrival (s : State) (k : Nat) (f : Group → Group) : (s.updGroup k f).arrival = s.arrival := rfl
@[simp] theorem State.updGroup_pools (s : State) (k : Nat) (f : Group → Group) : (s.updGroup k f).pools = s.pools := rfl
@[simp] theorem State.updGroup_flushes (s : State) (k : Nat) (f : Group → Group) : (s.updGroup k f).flushes = s.flushes := rfl
@[simp] theorem State.updGroup_cvs (s : State) (k : Nat) (f : Group → Group) : (s.updGroup k f).cvs = s.cvs := rfl
@[simp] theorem State.updGroup_parts (s : State) (k : Nat) (f : Group → Group) : (s.updGroup k f).parts = s.parts := rfl
@[simp] theorem State.updGroup_cmds (s : State) (k : Nat) (f : Group → Group) : (s.updGroup k f).cmds = s.cmds := rfl
@[simp] theorem State.updGroup_recs (s : State) (k : Nat) (f : Group → Group) : (s.updGroup k f).recs = s.recs := rfl
@[simp] theorem State.updGroup_mjoins (s : State) (k : Nat) (f : Group → Group) : (s.updGroup k f).mjoins = s.mjoins := rfl
@[simp] theorem State.updGroup_mgroups (s : State) (k : Nat) (f : Group → Group) : (s.updGroup k f).mgroups = s.mgroups := rfl
@[simp] theorem State.updGroup_launches (s : State) (k : Nat) (f : Group → Group) : (s.updGroup k f).launches = s.launches := rfl
@[simp] theorem State.updGroup_graphs (s : State) (k : Nat) (f : Group → Group) : (s.updGroup k f).graphs = s.graphs := rfl
@[simp] theorem State.updGroup_jobs (s : State) (k : Nat) (f : Group → Group) : (s.updGroup k f).jobs = s.jobs := rfl
@[simp] theorem State.updGroup_subs (s : State) (k : Nat) (f : Group → Group) : (s.updGroup k f).subs = s.subs := rfl
@[simp] theorem State.updGroup_results (s : State) (k : Nat) (f : Group → Group) : (s.updGroup k f).results = s.results := rfl
@[simp] theorem State.updGroup_lstats (s : State) (k : Nat) (f : Group → Group) : (s.updGroup k f).lstats = s.lstats := rfl
@[simp] theorem State.updGroup_cancels (s : State) (k : Nat) (f : Group → Group) : (s.updGroup k f).cancels = s.cancels := rfl
@[simp] theorem State.updGroup_domains (s : State) (k : Nat) (f : Group → Group) : (s.updGroup k f).domains = s.domains := rfl
@[simp] theorem State.updGroup_saved (s : State) (k : Nat) (f : Group → Group) : (s.updGroup k f).saved = s.saved := rfl
@[simp] theorem State.updGroup_saveReqs (s : State) (k : Nat) (f : Group → Group) : (s.updGroup k f).saveReqs = s.saveReqs := rfl
@[simp] theorem State.updGroup_holds (s : State) (k : Nat) (f : Group → Group) : (s.updGroup k f).holds = s.holds := rfl
@[simp] theorem State.updGroup_unsplices (s : State) (k : Nat) (f : Group → Group) : (s.updGroup k f).unsplices = s.unsplices := rfl
@[simp] theorem State.updGroup_host (s : State) (k : Nat) (f : Group → Group) : (s.updGroup k f).host = s.host := rfl

@[simp] theorem State.updLaunch_now (s : State) (k : Nat) (f : Launch → Launch) : (s.updLaunch k f).now = s.now := rfl
@[simp] theorem State.updLaunch_turns (s : State) (k : Nat) (f : Launch → Launch) : (s.updLaunch k f).turns = s.turns := rfl
@[simp] theorem State.updLaunch_steps (s : State) (k : Nat) (f : Launch → Launch) : (s.updLaunch k f).steps = s.steps := rfl
@[simp] theorem State.updLaunch_draws (s : State) (k : Nat) (f : Launch → Launch) : (s.updLaunch k f).draws = s.draws := rfl
@[simp] theorem State.updLaunch_serial (s : State) (k : Nat) (f : Launch → Launch) : (s.updLaunch k f).serial = s.serial := rfl
@[simp] theorem State.updLaunch_cur (s : State) (k : Nat) (f : Launch → Launch) : (s.updLaunch k f).cur = s.cur := rfl
@[simp] theorem State.updLaunch_warps (s : State) (k : Nat) (f : Launch → Launch) : (s.updLaunch k f).warps = s.warps := rfl
@[simp] theorem State.updLaunch_groups (s : State) (k : Nat) (f : Launch → Launch) : (s.updLaunch k f).groups = s.groups := rfl
@[simp] theorem State.updLaunch_mem (s : State) (k : Nat) (f : Launch → Launch) : (s.updLaunch k f).mem = s.mem := rfl
@[simp] theorem State.updLaunch_hbm (s : State) (k : Nat) (f : Launch → Launch) : (s.updLaunch k f).hbm = s.hbm := rfl
@[simp] theorem State.updLaunch_scratch (s : State) (k : Nat) (f : Launch → Launch) : (s.updLaunch k f).scratch = s.scratch := rfl
@[simp] theorem State.updLaunch_wbuf (s : State) (k : Nat) (f : Launch → Launch) : (s.updLaunch k f).wbuf = s.wbuf := rfl
@[simp] theorem State.updLaunch_acc (s : State) (k : Nat) (f : Launch → Launch) : (s.updLaunch k f).acc = s.acc := rfl
@[simp] theorem State.updLaunch_hostMem (s : State) (k : Nat) (f : Launch → Launch) : (s.updLaunch k f).hostMem = s.hostMem := rfl
@[simp] theorem State.updLaunch_hostIn (s : State) (k : Nat) (f : Launch → Launch) : (s.updLaunch k f).hostIn = s.hostIn := rfl
@[simp] theorem State.updLaunch_lend (s : State) (k : Nat) (f : Launch → Launch) : (s.updLaunch k f).lend = s.lend := rfl
@[simp] theorem State.updLaunch_tags (s : State) (k : Nat) (f : Launch → Launch) : (s.updLaunch k f).tags = s.tags := rfl
@[simp] theorem State.updLaunch_monitors (s : State) (k : Nat) (f : Launch → Launch) : (s.updLaunch k f).monitors = s.monitors := rfl
@[simp] theorem State.updLaunch_monEvents (s : State) (k : Nat) (f : Launch → Launch) : (s.updLaunch k f).monEvents = s.monEvents := rfl
@[simp] theorem State.updLaunch_net (s : State) (k : Nat) (f : Launch → Launch) : (s.updLaunch k f).net = s.net := rfl
@[simp] theorem State.updLaunch_answers (s : State) (k : Nat) (f : Launch → Launch) : (s.updLaunch k f).answers = s.answers := rfl
@[simp] theorem State.updLaunch_ctimes (s : State) (k : Nat) (f : Launch → Launch) : (s.updLaunch k f).ctimes = s.ctimes := rfl
@[simp] theorem State.updLaunch_coreC (s : State) (k : Nat) (f : Launch → Launch) : (s.updLaunch k f).coreC = s.coreC := rfl
@[simp] theorem State.updLaunch_coreCP (s : State) (k : Nat) (f : Launch → Launch) : (s.updLaunch k f).coreCP = s.coreCP := rfl
@[simp] theorem State.updLaunch_tlb (s : State) (k : Nat) (f : Launch → Launch) : (s.updLaunch k f).tlb = s.tlb := rfl
@[simp] theorem State.updLaunch_walks (s : State) (k : Nat) (f : Launch → Launch) : (s.updLaunch k f).walks = s.walks := rfl
@[simp] theorem State.updLaunch_walkFails (s : State) (k : Nat) (f : Launch → Launch) : (s.updLaunch k f).walkFails = s.walkFails := rfl
@[simp] theorem State.updLaunch_leases (s : State) (k : Nat) (f : Launch → Launch) : (s.updLaunch k f).leases = s.leases := rfl
@[simp] theorem State.updLaunch_olds (s : State) (k : Nat) (f : Launch → Launch) : (s.updLaunch k f).olds = s.olds := rfl
@[simp] theorem State.updLaunch_decodes (s : State) (k : Nat) (f : Launch → Launch) : (s.updLaunch k f).decodes = s.decodes := rfl
@[simp] theorem State.updLaunch_cbWrites (s : State) (k : Nat) (f : Launch → Launch) : (s.updLaunch k f).cbWrites = s.cbWrites := rfl
@[simp] theorem State.updLaunch_nymphs (s : State) (k : Nat) (f : Launch → Launch) : (s.updLaunch k f).nymphs = s.nymphs := rfl
@[simp] theorem State.updLaunch_children (s : State) (k : Nat) (f : Launch → Launch) : (s.updLaunch k f).children = s.children := rfl
@[simp] theorem State.updLaunch_resends (s : State) (k : Nat) (f : Launch → Launch) : (s.updLaunch k f).resends = s.resends := rfl
@[simp] theorem State.updLaunch_arrival (s : State) (k : Nat) (f : Launch → Launch) : (s.updLaunch k f).arrival = s.arrival := rfl
@[simp] theorem State.updLaunch_pools (s : State) (k : Nat) (f : Launch → Launch) : (s.updLaunch k f).pools = s.pools := rfl
@[simp] theorem State.updLaunch_flushes (s : State) (k : Nat) (f : Launch → Launch) : (s.updLaunch k f).flushes = s.flushes := rfl
@[simp] theorem State.updLaunch_cvs (s : State) (k : Nat) (f : Launch → Launch) : (s.updLaunch k f).cvs = s.cvs := rfl
@[simp] theorem State.updLaunch_parts (s : State) (k : Nat) (f : Launch → Launch) : (s.updLaunch k f).parts = s.parts := rfl
@[simp] theorem State.updLaunch_cmds (s : State) (k : Nat) (f : Launch → Launch) : (s.updLaunch k f).cmds = s.cmds := rfl
@[simp] theorem State.updLaunch_recs (s : State) (k : Nat) (f : Launch → Launch) : (s.updLaunch k f).recs = s.recs := rfl
@[simp] theorem State.updLaunch_mjoins (s : State) (k : Nat) (f : Launch → Launch) : (s.updLaunch k f).mjoins = s.mjoins := rfl
@[simp] theorem State.updLaunch_mgroups (s : State) (k : Nat) (f : Launch → Launch) : (s.updLaunch k f).mgroups = s.mgroups := rfl
@[simp] theorem State.updLaunch_graphs (s : State) (k : Nat) (f : Launch → Launch) : (s.updLaunch k f).graphs = s.graphs := rfl
@[simp] theorem State.updLaunch_jobs (s : State) (k : Nat) (f : Launch → Launch) : (s.updLaunch k f).jobs = s.jobs := rfl
@[simp] theorem State.updLaunch_subs (s : State) (k : Nat) (f : Launch → Launch) : (s.updLaunch k f).subs = s.subs := rfl
@[simp] theorem State.updLaunch_results (s : State) (k : Nat) (f : Launch → Launch) : (s.updLaunch k f).results = s.results := rfl
@[simp] theorem State.updLaunch_lstats (s : State) (k : Nat) (f : Launch → Launch) : (s.updLaunch k f).lstats = s.lstats := rfl
@[simp] theorem State.updLaunch_cancels (s : State) (k : Nat) (f : Launch → Launch) : (s.updLaunch k f).cancels = s.cancels := rfl
@[simp] theorem State.updLaunch_domains (s : State) (k : Nat) (f : Launch → Launch) : (s.updLaunch k f).domains = s.domains := rfl
@[simp] theorem State.updLaunch_saved (s : State) (k : Nat) (f : Launch → Launch) : (s.updLaunch k f).saved = s.saved := rfl
@[simp] theorem State.updLaunch_saveReqs (s : State) (k : Nat) (f : Launch → Launch) : (s.updLaunch k f).saveReqs = s.saveReqs := rfl
@[simp] theorem State.updLaunch_holds (s : State) (k : Nat) (f : Launch → Launch) : (s.updLaunch k f).holds = s.holds := rfl
@[simp] theorem State.updLaunch_unsplices (s : State) (k : Nat) (f : Launch → Launch) : (s.updLaunch k f).unsplices = s.unsplices := rfl
@[simp] theorem State.updLaunch_host (s : State) (k : Nat) (f : Launch → Launch) : (s.updLaunch k f).host = s.host := rfl

@[simp] theorem State.updDomain_now (s : State) (k : Nat) (f : Domain → Domain) : (s.updDomain k f).now = s.now := rfl
@[simp] theorem State.updDomain_turns (s : State) (k : Nat) (f : Domain → Domain) : (s.updDomain k f).turns = s.turns := rfl
@[simp] theorem State.updDomain_steps (s : State) (k : Nat) (f : Domain → Domain) : (s.updDomain k f).steps = s.steps := rfl
@[simp] theorem State.updDomain_draws (s : State) (k : Nat) (f : Domain → Domain) : (s.updDomain k f).draws = s.draws := rfl
@[simp] theorem State.updDomain_serial (s : State) (k : Nat) (f : Domain → Domain) : (s.updDomain k f).serial = s.serial := rfl
@[simp] theorem State.updDomain_cur (s : State) (k : Nat) (f : Domain → Domain) : (s.updDomain k f).cur = s.cur := rfl
@[simp] theorem State.updDomain_warps (s : State) (k : Nat) (f : Domain → Domain) : (s.updDomain k f).warps = s.warps := rfl
@[simp] theorem State.updDomain_groups (s : State) (k : Nat) (f : Domain → Domain) : (s.updDomain k f).groups = s.groups := rfl
@[simp] theorem State.updDomain_mem (s : State) (k : Nat) (f : Domain → Domain) : (s.updDomain k f).mem = s.mem := rfl
@[simp] theorem State.updDomain_hbm (s : State) (k : Nat) (f : Domain → Domain) : (s.updDomain k f).hbm = s.hbm := rfl
@[simp] theorem State.updDomain_scratch (s : State) (k : Nat) (f : Domain → Domain) : (s.updDomain k f).scratch = s.scratch := rfl
@[simp] theorem State.updDomain_wbuf (s : State) (k : Nat) (f : Domain → Domain) : (s.updDomain k f).wbuf = s.wbuf := rfl
@[simp] theorem State.updDomain_acc (s : State) (k : Nat) (f : Domain → Domain) : (s.updDomain k f).acc = s.acc := rfl
@[simp] theorem State.updDomain_hostMem (s : State) (k : Nat) (f : Domain → Domain) : (s.updDomain k f).hostMem = s.hostMem := rfl
@[simp] theorem State.updDomain_hostIn (s : State) (k : Nat) (f : Domain → Domain) : (s.updDomain k f).hostIn = s.hostIn := rfl
@[simp] theorem State.updDomain_lend (s : State) (k : Nat) (f : Domain → Domain) : (s.updDomain k f).lend = s.lend := rfl
@[simp] theorem State.updDomain_tags (s : State) (k : Nat) (f : Domain → Domain) : (s.updDomain k f).tags = s.tags := rfl
@[simp] theorem State.updDomain_monitors (s : State) (k : Nat) (f : Domain → Domain) : (s.updDomain k f).monitors = s.monitors := rfl
@[simp] theorem State.updDomain_monEvents (s : State) (k : Nat) (f : Domain → Domain) : (s.updDomain k f).monEvents = s.monEvents := rfl
@[simp] theorem State.updDomain_net (s : State) (k : Nat) (f : Domain → Domain) : (s.updDomain k f).net = s.net := rfl
@[simp] theorem State.updDomain_answers (s : State) (k : Nat) (f : Domain → Domain) : (s.updDomain k f).answers = s.answers := rfl
@[simp] theorem State.updDomain_ctimes (s : State) (k : Nat) (f : Domain → Domain) : (s.updDomain k f).ctimes = s.ctimes := rfl
@[simp] theorem State.updDomain_coreC (s : State) (k : Nat) (f : Domain → Domain) : (s.updDomain k f).coreC = s.coreC := rfl
@[simp] theorem State.updDomain_coreCP (s : State) (k : Nat) (f : Domain → Domain) : (s.updDomain k f).coreCP = s.coreCP := rfl
@[simp] theorem State.updDomain_tlb (s : State) (k : Nat) (f : Domain → Domain) : (s.updDomain k f).tlb = s.tlb := rfl
@[simp] theorem State.updDomain_walks (s : State) (k : Nat) (f : Domain → Domain) : (s.updDomain k f).walks = s.walks := rfl
@[simp] theorem State.updDomain_walkFails (s : State) (k : Nat) (f : Domain → Domain) : (s.updDomain k f).walkFails = s.walkFails := rfl
@[simp] theorem State.updDomain_leases (s : State) (k : Nat) (f : Domain → Domain) : (s.updDomain k f).leases = s.leases := rfl
@[simp] theorem State.updDomain_olds (s : State) (k : Nat) (f : Domain → Domain) : (s.updDomain k f).olds = s.olds := rfl
@[simp] theorem State.updDomain_decodes (s : State) (k : Nat) (f : Domain → Domain) : (s.updDomain k f).decodes = s.decodes := rfl
@[simp] theorem State.updDomain_cbWrites (s : State) (k : Nat) (f : Domain → Domain) : (s.updDomain k f).cbWrites = s.cbWrites := rfl
@[simp] theorem State.updDomain_nymphs (s : State) (k : Nat) (f : Domain → Domain) : (s.updDomain k f).nymphs = s.nymphs := rfl
@[simp] theorem State.updDomain_children (s : State) (k : Nat) (f : Domain → Domain) : (s.updDomain k f).children = s.children := rfl
@[simp] theorem State.updDomain_resends (s : State) (k : Nat) (f : Domain → Domain) : (s.updDomain k f).resends = s.resends := rfl
@[simp] theorem State.updDomain_arrival (s : State) (k : Nat) (f : Domain → Domain) : (s.updDomain k f).arrival = s.arrival := rfl
@[simp] theorem State.updDomain_pools (s : State) (k : Nat) (f : Domain → Domain) : (s.updDomain k f).pools = s.pools := rfl
@[simp] theorem State.updDomain_flushes (s : State) (k : Nat) (f : Domain → Domain) : (s.updDomain k f).flushes = s.flushes := rfl
@[simp] theorem State.updDomain_cvs (s : State) (k : Nat) (f : Domain → Domain) : (s.updDomain k f).cvs = s.cvs := rfl
@[simp] theorem State.updDomain_parts (s : State) (k : Nat) (f : Domain → Domain) : (s.updDomain k f).parts = s.parts := rfl
@[simp] theorem State.updDomain_cmds (s : State) (k : Nat) (f : Domain → Domain) : (s.updDomain k f).cmds = s.cmds := rfl
@[simp] theorem State.updDomain_recs (s : State) (k : Nat) (f : Domain → Domain) : (s.updDomain k f).recs = s.recs := rfl
@[simp] theorem State.updDomain_mjoins (s : State) (k : Nat) (f : Domain → Domain) : (s.updDomain k f).mjoins = s.mjoins := rfl
@[simp] theorem State.updDomain_mgroups (s : State) (k : Nat) (f : Domain → Domain) : (s.updDomain k f).mgroups = s.mgroups := rfl
@[simp] theorem State.updDomain_launches (s : State) (k : Nat) (f : Domain → Domain) : (s.updDomain k f).launches = s.launches := rfl
@[simp] theorem State.updDomain_graphs (s : State) (k : Nat) (f : Domain → Domain) : (s.updDomain k f).graphs = s.graphs := rfl
@[simp] theorem State.updDomain_jobs (s : State) (k : Nat) (f : Domain → Domain) : (s.updDomain k f).jobs = s.jobs := rfl
@[simp] theorem State.updDomain_subs (s : State) (k : Nat) (f : Domain → Domain) : (s.updDomain k f).subs = s.subs := rfl
@[simp] theorem State.updDomain_results (s : State) (k : Nat) (f : Domain → Domain) : (s.updDomain k f).results = s.results := rfl
@[simp] theorem State.updDomain_lstats (s : State) (k : Nat) (f : Domain → Domain) : (s.updDomain k f).lstats = s.lstats := rfl
@[simp] theorem State.updDomain_cancels (s : State) (k : Nat) (f : Domain → Domain) : (s.updDomain k f).cancels = s.cancels := rfl
@[simp] theorem State.updDomain_saved (s : State) (k : Nat) (f : Domain → Domain) : (s.updDomain k f).saved = s.saved := rfl
@[simp] theorem State.updDomain_saveReqs (s : State) (k : Nat) (f : Domain → Domain) : (s.updDomain k f).saveReqs = s.saveReqs := rfl
@[simp] theorem State.updDomain_holds (s : State) (k : Nat) (f : Domain → Domain) : (s.updDomain k f).holds = s.holds := rfl
@[simp] theorem State.updDomain_unsplices (s : State) (k : Nat) (f : Domain → Domain) : (s.updDomain k f).unsplices = s.unsplices := rfl
@[simp] theorem State.updDomain_host (s : State) (k : Nat) (f : Domain → Domain) : (s.updDomain k f).host = s.host := rfl

@[simp] theorem State.updHost_now (s : State) (f : HostRegs → HostRegs) : (s.updHost f).now = s.now := rfl
@[simp] theorem State.updHost_turns (s : State) (f : HostRegs → HostRegs) : (s.updHost f).turns = s.turns := rfl
@[simp] theorem State.updHost_steps (s : State) (f : HostRegs → HostRegs) : (s.updHost f).steps = s.steps := rfl
@[simp] theorem State.updHost_draws (s : State) (f : HostRegs → HostRegs) : (s.updHost f).draws = s.draws := rfl
@[simp] theorem State.updHost_serial (s : State) (f : HostRegs → HostRegs) : (s.updHost f).serial = s.serial := rfl
@[simp] theorem State.updHost_cur (s : State) (f : HostRegs → HostRegs) : (s.updHost f).cur = s.cur := rfl
@[simp] theorem State.updHost_warps (s : State) (f : HostRegs → HostRegs) : (s.updHost f).warps = s.warps := rfl
@[simp] theorem State.updHost_groups (s : State) (f : HostRegs → HostRegs) : (s.updHost f).groups = s.groups := rfl
@[simp] theorem State.updHost_mem (s : State) (f : HostRegs → HostRegs) : (s.updHost f).mem = s.mem := rfl
@[simp] theorem State.updHost_hbm (s : State) (f : HostRegs → HostRegs) : (s.updHost f).hbm = s.hbm := rfl
@[simp] theorem State.updHost_scratch (s : State) (f : HostRegs → HostRegs) : (s.updHost f).scratch = s.scratch := rfl
@[simp] theorem State.updHost_wbuf (s : State) (f : HostRegs → HostRegs) : (s.updHost f).wbuf = s.wbuf := rfl
@[simp] theorem State.updHost_acc (s : State) (f : HostRegs → HostRegs) : (s.updHost f).acc = s.acc := rfl
@[simp] theorem State.updHost_hostMem (s : State) (f : HostRegs → HostRegs) : (s.updHost f).hostMem = s.hostMem := rfl
@[simp] theorem State.updHost_hostIn (s : State) (f : HostRegs → HostRegs) : (s.updHost f).hostIn = s.hostIn := rfl
@[simp] theorem State.updHost_lend (s : State) (f : HostRegs → HostRegs) : (s.updHost f).lend = s.lend := rfl
@[simp] theorem State.updHost_tags (s : State) (f : HostRegs → HostRegs) : (s.updHost f).tags = s.tags := rfl
@[simp] theorem State.updHost_monitors (s : State) (f : HostRegs → HostRegs) : (s.updHost f).monitors = s.monitors := rfl
@[simp] theorem State.updHost_monEvents (s : State) (f : HostRegs → HostRegs) : (s.updHost f).monEvents = s.monEvents := rfl
@[simp] theorem State.updHost_net (s : State) (f : HostRegs → HostRegs) : (s.updHost f).net = s.net := rfl
@[simp] theorem State.updHost_answers (s : State) (f : HostRegs → HostRegs) : (s.updHost f).answers = s.answers := rfl
@[simp] theorem State.updHost_ctimes (s : State) (f : HostRegs → HostRegs) : (s.updHost f).ctimes = s.ctimes := rfl
@[simp] theorem State.updHost_coreC (s : State) (f : HostRegs → HostRegs) : (s.updHost f).coreC = s.coreC := rfl
@[simp] theorem State.updHost_coreCP (s : State) (f : HostRegs → HostRegs) : (s.updHost f).coreCP = s.coreCP := rfl
@[simp] theorem State.updHost_tlb (s : State) (f : HostRegs → HostRegs) : (s.updHost f).tlb = s.tlb := rfl
@[simp] theorem State.updHost_walks (s : State) (f : HostRegs → HostRegs) : (s.updHost f).walks = s.walks := rfl
@[simp] theorem State.updHost_walkFails (s : State) (f : HostRegs → HostRegs) : (s.updHost f).walkFails = s.walkFails := rfl
@[simp] theorem State.updHost_leases (s : State) (f : HostRegs → HostRegs) : (s.updHost f).leases = s.leases := rfl
@[simp] theorem State.updHost_olds (s : State) (f : HostRegs → HostRegs) : (s.updHost f).olds = s.olds := rfl
@[simp] theorem State.updHost_decodes (s : State) (f : HostRegs → HostRegs) : (s.updHost f).decodes = s.decodes := rfl
@[simp] theorem State.updHost_cbWrites (s : State) (f : HostRegs → HostRegs) : (s.updHost f).cbWrites = s.cbWrites := rfl
@[simp] theorem State.updHost_nymphs (s : State) (f : HostRegs → HostRegs) : (s.updHost f).nymphs = s.nymphs := rfl
@[simp] theorem State.updHost_children (s : State) (f : HostRegs → HostRegs) : (s.updHost f).children = s.children := rfl
@[simp] theorem State.updHost_resends (s : State) (f : HostRegs → HostRegs) : (s.updHost f).resends = s.resends := rfl
@[simp] theorem State.updHost_arrival (s : State) (f : HostRegs → HostRegs) : (s.updHost f).arrival = s.arrival := rfl
@[simp] theorem State.updHost_pools (s : State) (f : HostRegs → HostRegs) : (s.updHost f).pools = s.pools := rfl
@[simp] theorem State.updHost_flushes (s : State) (f : HostRegs → HostRegs) : (s.updHost f).flushes = s.flushes := rfl
@[simp] theorem State.updHost_cvs (s : State) (f : HostRegs → HostRegs) : (s.updHost f).cvs = s.cvs := rfl
@[simp] theorem State.updHost_parts (s : State) (f : HostRegs → HostRegs) : (s.updHost f).parts = s.parts := rfl
@[simp] theorem State.updHost_cmds (s : State) (f : HostRegs → HostRegs) : (s.updHost f).cmds = s.cmds := rfl
@[simp] theorem State.updHost_recs (s : State) (f : HostRegs → HostRegs) : (s.updHost f).recs = s.recs := rfl
@[simp] theorem State.updHost_mjoins (s : State) (f : HostRegs → HostRegs) : (s.updHost f).mjoins = s.mjoins := rfl
@[simp] theorem State.updHost_mgroups (s : State) (f : HostRegs → HostRegs) : (s.updHost f).mgroups = s.mgroups := rfl
@[simp] theorem State.updHost_launches (s : State) (f : HostRegs → HostRegs) : (s.updHost f).launches = s.launches := rfl
@[simp] theorem State.updHost_graphs (s : State) (f : HostRegs → HostRegs) : (s.updHost f).graphs = s.graphs := rfl
@[simp] theorem State.updHost_jobs (s : State) (f : HostRegs → HostRegs) : (s.updHost f).jobs = s.jobs := rfl
@[simp] theorem State.updHost_subs (s : State) (f : HostRegs → HostRegs) : (s.updHost f).subs = s.subs := rfl
@[simp] theorem State.updHost_results (s : State) (f : HostRegs → HostRegs) : (s.updHost f).results = s.results := rfl
@[simp] theorem State.updHost_lstats (s : State) (f : HostRegs → HostRegs) : (s.updHost f).lstats = s.lstats := rfl
@[simp] theorem State.updHost_cancels (s : State) (f : HostRegs → HostRegs) : (s.updHost f).cancels = s.cancels := rfl
@[simp] theorem State.updHost_domains (s : State) (f : HostRegs → HostRegs) : (s.updHost f).domains = s.domains := rfl
@[simp] theorem State.updHost_saved (s : State) (f : HostRegs → HostRegs) : (s.updHost f).saved = s.saved := rfl
@[simp] theorem State.updHost_saveReqs (s : State) (f : HostRegs → HostRegs) : (s.updHost f).saveReqs = s.saveReqs := rfl
@[simp] theorem State.updHost_holds (s : State) (f : HostRegs → HostRegs) : (s.updHost f).holds = s.holds := rfl
@[simp] theorem State.updHost_unsplices (s : State) (f : HostRegs → HostRegs) : (s.updHost f).unsplices = s.unsplices := rfl

/-- An update of several lanes changes the table of warps and nothing else. -/
theorem State.updLanes_eq (s : State) (k : Nat) (ls : List Nat) (f : Lane → Lane) :
    s.updLanes k ls f = { s with warps := (s.updLanes k ls f).warps } := by
  induction ls generalizing s with
  | nil => rfl
  | cons L ls ih => exact (ih (s.updLane k L f)).trans rfl

@[simp] theorem State.updLanes_now (s : State) (k : Nat) (ls : List Nat) (f : Lane → Lane) :
    (s.updLanes k ls f).now = s.now := by rw [State.updLanes_eq]
@[simp] theorem State.updLanes_turns (s : State) (k : Nat) (ls : List Nat) (f : Lane → Lane) :
    (s.updLanes k ls f).turns = s.turns := by rw [State.updLanes_eq]
@[simp] theorem State.updLanes_steps (s : State) (k : Nat) (ls : List Nat) (f : Lane → Lane) :
    (s.updLanes k ls f).steps = s.steps := by rw [State.updLanes_eq]
@[simp] theorem State.updLanes_draws (s : State) (k : Nat) (ls : List Nat) (f : Lane → Lane) :
    (s.updLanes k ls f).draws = s.draws := by rw [State.updLanes_eq]
@[simp] theorem State.updLanes_serial (s : State) (k : Nat) (ls : List Nat) (f : Lane → Lane) :
    (s.updLanes k ls f).serial = s.serial := by rw [State.updLanes_eq]
@[simp] theorem State.updLanes_cur (s : State) (k : Nat) (ls : List Nat) (f : Lane → Lane) :
    (s.updLanes k ls f).cur = s.cur := by rw [State.updLanes_eq]
@[simp] theorem State.updLanes_groups (s : State) (k : Nat) (ls : List Nat) (f : Lane → Lane) :
    (s.updLanes k ls f).groups = s.groups := by rw [State.updLanes_eq]
@[simp] theorem State.updLanes_mem (s : State) (k : Nat) (ls : List Nat) (f : Lane → Lane) :
    (s.updLanes k ls f).mem = s.mem := by rw [State.updLanes_eq]
@[simp] theorem State.updLanes_hbm (s : State) (k : Nat) (ls : List Nat) (f : Lane → Lane) :
    (s.updLanes k ls f).hbm = s.hbm := by rw [State.updLanes_eq]
@[simp] theorem State.updLanes_scratch (s : State) (k : Nat) (ls : List Nat) (f : Lane → Lane) :
    (s.updLanes k ls f).scratch = s.scratch := by rw [State.updLanes_eq]
@[simp] theorem State.updLanes_wbuf (s : State) (k : Nat) (ls : List Nat) (f : Lane → Lane) :
    (s.updLanes k ls f).wbuf = s.wbuf := by rw [State.updLanes_eq]
@[simp] theorem State.updLanes_acc (s : State) (k : Nat) (ls : List Nat) (f : Lane → Lane) :
    (s.updLanes k ls f).acc = s.acc := by rw [State.updLanes_eq]
@[simp] theorem State.updLanes_hostMem (s : State) (k : Nat) (ls : List Nat) (f : Lane → Lane) :
    (s.updLanes k ls f).hostMem = s.hostMem := by rw [State.updLanes_eq]
@[simp] theorem State.updLanes_hostIn (s : State) (k : Nat) (ls : List Nat) (f : Lane → Lane) :
    (s.updLanes k ls f).hostIn = s.hostIn := by rw [State.updLanes_eq]
@[simp] theorem State.updLanes_lend (s : State) (k : Nat) (ls : List Nat) (f : Lane → Lane) :
    (s.updLanes k ls f).lend = s.lend := by rw [State.updLanes_eq]
@[simp] theorem State.updLanes_tags (s : State) (k : Nat) (ls : List Nat) (f : Lane → Lane) :
    (s.updLanes k ls f).tags = s.tags := by rw [State.updLanes_eq]
@[simp] theorem State.updLanes_monitors (s : State) (k : Nat) (ls : List Nat) (f : Lane → Lane) :
    (s.updLanes k ls f).monitors = s.monitors := by rw [State.updLanes_eq]
@[simp] theorem State.updLanes_monEvents (s : State) (k : Nat) (ls : List Nat) (f : Lane → Lane) :
    (s.updLanes k ls f).monEvents = s.monEvents := by rw [State.updLanes_eq]
@[simp] theorem State.updLanes_net (s : State) (k : Nat) (ls : List Nat) (f : Lane → Lane) :
    (s.updLanes k ls f).net = s.net := by rw [State.updLanes_eq]
@[simp] theorem State.updLanes_answers (s : State) (k : Nat) (ls : List Nat) (f : Lane → Lane) :
    (s.updLanes k ls f).answers = s.answers := by rw [State.updLanes_eq]
@[simp] theorem State.updLanes_ctimes (s : State) (k : Nat) (ls : List Nat) (f : Lane → Lane) :
    (s.updLanes k ls f).ctimes = s.ctimes := by rw [State.updLanes_eq]
@[simp] theorem State.updLanes_coreC (s : State) (k : Nat) (ls : List Nat) (f : Lane → Lane) :
    (s.updLanes k ls f).coreC = s.coreC := by rw [State.updLanes_eq]
@[simp] theorem State.updLanes_coreCP (s : State) (k : Nat) (ls : List Nat) (f : Lane → Lane) :
    (s.updLanes k ls f).coreCP = s.coreCP := by rw [State.updLanes_eq]
@[simp] theorem State.updLanes_tlb (s : State) (k : Nat) (ls : List Nat) (f : Lane → Lane) :
    (s.updLanes k ls f).tlb = s.tlb := by rw [State.updLanes_eq]
@[simp] theorem State.updLanes_walks (s : State) (k : Nat) (ls : List Nat) (f : Lane → Lane) :
    (s.updLanes k ls f).walks = s.walks := by rw [State.updLanes_eq]
@[simp] theorem State.updLanes_walkFails (s : State) (k : Nat) (ls : List Nat) (f : Lane → Lane) :
    (s.updLanes k ls f).walkFails = s.walkFails := by rw [State.updLanes_eq]
@[simp] theorem State.updLanes_leases (s : State) (k : Nat) (ls : List Nat) (f : Lane → Lane) :
    (s.updLanes k ls f).leases = s.leases := by rw [State.updLanes_eq]
@[simp] theorem State.updLanes_olds (s : State) (k : Nat) (ls : List Nat) (f : Lane → Lane) :
    (s.updLanes k ls f).olds = s.olds := by rw [State.updLanes_eq]
@[simp] theorem State.updLanes_decodes (s : State) (k : Nat) (ls : List Nat) (f : Lane → Lane) :
    (s.updLanes k ls f).decodes = s.decodes := by rw [State.updLanes_eq]
@[simp] theorem State.updLanes_cbWrites (s : State) (k : Nat) (ls : List Nat) (f : Lane → Lane) :
    (s.updLanes k ls f).cbWrites = s.cbWrites := by rw [State.updLanes_eq]
@[simp] theorem State.updLanes_nymphs (s : State) (k : Nat) (ls : List Nat) (f : Lane → Lane) :
    (s.updLanes k ls f).nymphs = s.nymphs := by rw [State.updLanes_eq]
@[simp] theorem State.updLanes_children (s : State) (k : Nat) (ls : List Nat) (f : Lane → Lane) :
    (s.updLanes k ls f).children = s.children := by rw [State.updLanes_eq]
@[simp] theorem State.updLanes_resends (s : State) (k : Nat) (ls : List Nat) (f : Lane → Lane) :
    (s.updLanes k ls f).resends = s.resends := by rw [State.updLanes_eq]
@[simp] theorem State.updLanes_arrival (s : State) (k : Nat) (ls : List Nat) (f : Lane → Lane) :
    (s.updLanes k ls f).arrival = s.arrival := by rw [State.updLanes_eq]
@[simp] theorem State.updLanes_pools (s : State) (k : Nat) (ls : List Nat) (f : Lane → Lane) :
    (s.updLanes k ls f).pools = s.pools := by rw [State.updLanes_eq]
@[simp] theorem State.updLanes_flushes (s : State) (k : Nat) (ls : List Nat) (f : Lane → Lane) :
    (s.updLanes k ls f).flushes = s.flushes := by rw [State.updLanes_eq]
@[simp] theorem State.updLanes_cvs (s : State) (k : Nat) (ls : List Nat) (f : Lane → Lane) :
    (s.updLanes k ls f).cvs = s.cvs := by rw [State.updLanes_eq]
@[simp] theorem State.updLanes_parts (s : State) (k : Nat) (ls : List Nat) (f : Lane → Lane) :
    (s.updLanes k ls f).parts = s.parts := by rw [State.updLanes_eq]
@[simp] theorem State.updLanes_cmds (s : State) (k : Nat) (ls : List Nat) (f : Lane → Lane) :
    (s.updLanes k ls f).cmds = s.cmds := by rw [State.updLanes_eq]
@[simp] theorem State.updLanes_recs (s : State) (k : Nat) (ls : List Nat) (f : Lane → Lane) :
    (s.updLanes k ls f).recs = s.recs := by rw [State.updLanes_eq]
@[simp] theorem State.updLanes_mjoins (s : State) (k : Nat) (ls : List Nat) (f : Lane → Lane) :
    (s.updLanes k ls f).mjoins = s.mjoins := by rw [State.updLanes_eq]
@[simp] theorem State.updLanes_mgroups (s : State) (k : Nat) (ls : List Nat) (f : Lane → Lane) :
    (s.updLanes k ls f).mgroups = s.mgroups := by rw [State.updLanes_eq]
@[simp] theorem State.updLanes_launches (s : State) (k : Nat) (ls : List Nat) (f : Lane → Lane) :
    (s.updLanes k ls f).launches = s.launches := by rw [State.updLanes_eq]
@[simp] theorem State.updLanes_graphs (s : State) (k : Nat) (ls : List Nat) (f : Lane → Lane) :
    (s.updLanes k ls f).graphs = s.graphs := by rw [State.updLanes_eq]
@[simp] theorem State.updLanes_jobs (s : State) (k : Nat) (ls : List Nat) (f : Lane → Lane) :
    (s.updLanes k ls f).jobs = s.jobs := by rw [State.updLanes_eq]
@[simp] theorem State.updLanes_subs (s : State) (k : Nat) (ls : List Nat) (f : Lane → Lane) :
    (s.updLanes k ls f).subs = s.subs := by rw [State.updLanes_eq]
@[simp] theorem State.updLanes_results (s : State) (k : Nat) (ls : List Nat) (f : Lane → Lane) :
    (s.updLanes k ls f).results = s.results := by rw [State.updLanes_eq]
@[simp] theorem State.updLanes_lstats (s : State) (k : Nat) (ls : List Nat) (f : Lane → Lane) :
    (s.updLanes k ls f).lstats = s.lstats := by rw [State.updLanes_eq]
@[simp] theorem State.updLanes_cancels (s : State) (k : Nat) (ls : List Nat) (f : Lane → Lane) :
    (s.updLanes k ls f).cancels = s.cancels := by rw [State.updLanes_eq]
@[simp] theorem State.updLanes_domains (s : State) (k : Nat) (ls : List Nat) (f : Lane → Lane) :
    (s.updLanes k ls f).domains = s.domains := by rw [State.updLanes_eq]
@[simp] theorem State.updLanes_saved (s : State) (k : Nat) (ls : List Nat) (f : Lane → Lane) :
    (s.updLanes k ls f).saved = s.saved := by rw [State.updLanes_eq]
@[simp] theorem State.updLanes_saveReqs (s : State) (k : Nat) (ls : List Nat) (f : Lane → Lane) :
    (s.updLanes k ls f).saveReqs = s.saveReqs := by rw [State.updLanes_eq]
@[simp] theorem State.updLanes_holds (s : State) (k : Nat) (ls : List Nat) (f : Lane → Lane) :
    (s.updLanes k ls f).holds = s.holds := by rw [State.updLanes_eq]
@[simp] theorem State.updLanes_unsplices (s : State) (k : Nat) (ls : List Nat) (f : Lane → Lane) :
    (s.updLanes k ls f).unsplices = s.unsplices := by rw [State.updLanes_eq]
@[simp] theorem State.updLanes_host (s : State) (k : Nat) (ls : List Nat) (f : Lane → Lane) :
    (s.updLanes k ls f).host = s.host := by rw [State.updLanes_eq]

/-! ### Warps and lanes -/

theorem State.warp_setWarp (s : State) (k j : Nat) (w : Warp) :
    (s.setWarp k w).warp j = if j = k then w else s.warp j := Tab.get_set _ _ _ _ _

@[simp] theorem State.warp_setWarp_self (s : State) (k : Nat) (w : Warp) : (s.setWarp k w).warp k = w := by
  simp [State.warp_setWarp]

theorem State.warp_updWarp (s : State) (k j : Nat) (f : Warp → Warp) :
    (s.updWarp k f).warp j = if j = k then f (s.warp k) else s.warp j := State.warp_setWarp ..

theorem Warp.lane_setLane (w : Warp) (L K : Nat) (l : Lane) :
    (w.setLane L l).lane K = if K = L then l else w.lane K := Tab.get_set _ _ _ _ _

theorem State.warp_updLane (s : State) (k L j : Nat) (f : Lane → Lane) :
    (s.updLane k L f).warp j = if j = k then (s.warp k).setLane L (f (s.lane k L)) else s.warp j :=
  State.warp_setWarp ..

theorem State.warp_updLane_ne (s : State) {k j : Nat} (L : Nat) (f : Lane → Lane) (h : j ≠ k) :
    (s.updLane k L f).warp j = s.warp j := by simp [State.warp_updLane, h]

/-- A lane after one lane of a warp has been changed. -/
theorem State.lane_updLane (s : State) (k L j K : Nat) (f : Lane → Lane) :
    (s.updLane k L f).lane j K = if j = k ∧ K = L then f (s.lane k L) else s.lane j K := by
  unfold State.lane
  rw [State.warp_updLane]
  by_cases hj : j = k
  · subst hj; simp [Warp.lane_setLane, State.lane]
  · simp [hj]

/-- Changing lanes leaves a warp's own fields. -/
theorem State.warp_updLane_own (s : State) (k L j : Nat) (f : Lane → Lane) :
    { (s.updLane k L f).warp j with lanes := (s.warp j).lanes } = s.warp j := by
  rw [State.warp_updLane]
  by_cases hj : j = k
  · subst hj; simp [Warp.setLane]
  · simp [hj]

theorem State.warp_updLanes_ne (s : State) {k j : Nat} (ls : List Nat) (f : Lane → Lane) (h : j ≠ k) :
    (s.updLanes k ls f).warp j = s.warp j := by
  induction ls generalizing s with
  | nil => rfl
  | cons L ls ih => exact (ih _).trans (State.warp_updLane_ne s L f h)

theorem State.warp_updLanes_own (s : State) (k j : Nat) (ls : List Nat) (f : Lane → Lane) :
    { (s.updLanes k ls f).warp j with lanes := (s.warp j).lanes } = s.warp j := by
  induction ls generalizing s with
  | nil => rfl
  | cons L ls ih =>
    have h1 := ih (s.updLane k L f)
    have h2 := State.warp_updLane_own s k L j f
    simp only [State.updLanes, List.foldl_cons] at h1 ⊢
    rw [← h2, ← h1]

/-- A lane after several distinct lanes of a warp have been changed. -/
theorem State.lane_updLanes (s : State) (k : Nat) (ls : List Nat) (f : Lane → Lane) (j K : Nat) (hn : ls.Nodup) :
    (s.updLanes k ls f).lane j K = if j = k ∧ K ∈ ls then f (s.lane k K) else s.lane j K := by
  induction ls generalizing s with
  | nil => simp [State.updLanes]
  | cons L ls ih =>
    have hn' := List.nodup_cons.1 hn
    show ((s.updLane k L f).updLanes k ls f).lane j K = _
    rw [ih _ hn'.2, State.lane_updLane, State.lane_updLane]
    by_cases hj : j = k
    · by_cases hK : K = L
      · subst hK; simp [hj, hn'.1]
      · simp [hj, hK]
    · simp [hj]

/-! ### The gang -/

theorem lanesOf_nodup (m : LaneMask) : (lanesOf m).Nodup := List.nodup_range.filter _

theorem State.gang_nodup (s : State) : s.gang.Nodup := lanesOf_nodup _

theorem State.active_nodup (s : State) (h : Head) : (s.active h).Nodup := (State.gang_nodup s).filter _

theorem State.active_sub (s : State) (h : Head) {L : Nat} (hL : L ∈ s.active h) : L ∈ s.gang := (List.mem_filter.1 hL).1

@[simp] theorem State.advance_cur (s : State) (ls : List Nat) : (s.advance ls).cur = s.cur := by simp [State.advance]

theorem State.advance_eq (s : State) (ls : List Nat) :
    s.advance ls = { s with warps := (s.advance ls).warps } := State.updLanes_eq ..

end Sys2Proof.Machine
end

