-- ==== Sys2Proof/Laws/Access.lean ====
section
/-! SUPPORT. The shared shape of an instruction that accesses memory lane by lane (State.runAccess, State.runWhole): what it
does where every access goes on, said once; requests and answers gathered one after another. -/

namespace Sys2Proof.Machine

/-- The change that moving on makes to a lane. -/
theorem State.advance_moves (s : State) (ls : List Nat) (hn : ls.Nodup) : s.MovesOn (s.advance ls) ls := by
  refine ⟨⟨by simp, fun k hk => ?_, ?_⟩, fun L => ?_⟩
  · exact State.warp_updLanes_ne _ _ _ hk
  · have := State.warp_updLanes_own s s.cur.wid s.cur.wid ls (fun l => { l with pc := nextPc l.pc, st := .ready, wait := none })
    simp only [State.cw, State.advance, State.updLanes_cur]
    rw [← this]
  · simp only [State.cl, State.advance, State.updLanes_cur]
    rw [State.lane_updLanes _ _ _ _ _ _ hn]
    simp [Lane.moved]

/-- Changes of one kind to several lanes of the issue's warp. -/
theorem State.updLanes_lanes (s : State) (ls : List Nat) (hn : ls.Nodup) (f : Lane → Lane) :
    s.LanesOnly (s.updLanes s.cur.wid ls f) ∧
      ∀ L, (s.updLanes s.cur.wid ls f).cl L = if L ∈ ls then f (s.cl L) else s.cl L := by
  refine ⟨⟨by simp, fun k hk => State.warp_updLanes_ne _ _ _ hk, ?_⟩, fun L => ?_⟩
  · have := State.warp_updLanes_own s s.cur.wid s.cur.wid ls f
    simp only [State.cw, State.updLanes_cur]
    rw [← this]
  · simp only [State.cl, State.updLanes_cur]
    rw [State.lane_updLanes _ _ _ _ _ _ hn]
    simp

theorem State.updLanes_append (s : State) (k : Nat) (ls ms : List Nat) (f : Lane → Lane) :
    s.updLanes k (ls ++ ms) f = (s.updLanes k ls f).updLanes k ms f := List.foldl_append ..

theorem State.advance_append (s : State) (ls ms : List Nat) : s.advance (ls ++ ms) = (s.advance ls).advance ms := by
  simp [State.advance, State.updLanes_append]

theorem State.LanesOnly.trans {s t u : State} (h : s.LanesOnly t) (k : t.LanesOnly u) : s.LanesOnly u := by
  refine ⟨k.1.trans h.1, fun j hj => ?_, ?_⟩
  · rw [k.2.1 j (by rw [h.1]; exact hj), h.2.1 j hj]
  · rw [k.2.2, h.2.2]

/-- Two disjoint lists of lanes that move on one after the other. -/
theorem State.MovesOn.append {s t : State} {ls ms : List Nat} (h : s.MovesOn t ls) (hm : ms.Nodup)
    (hd : ∀ L ∈ ms, L ∉ ls) : s.MovesOn (t.advance ms) (ls ++ ms) := by
  have k := t.advance_moves ms hm
  refine ⟨h.1.trans k.1, fun L => ?_⟩
  rw [k.2 L, h.2 L]
  by_cases h1 : L ∈ ms
  · simp [h1, hd L h1]
  · simp [h1]

theorem State.MovesOn.congr {s t : State} {ls ms : List Nat} (h : s.MovesOn t ls) (hm : ∀ L, L ∈ ms ↔ L ∈ ls) :
    s.MovesOn t ms := ⟨h.1, fun L => by rw [h.2 L]; simp [hm L]⟩

theorem State.mem_active (s : State) (h : Head) (L : Nat) : L ∈ s.active h ↔ L ∈ s.gang ∧ s.guardOf L h.g = true := by
  simp [State.active]

theorem State.runs_sub (s : State) (h : Head) {L : Nat} (hL : L ∈ s.runs h) : L ∈ s.active h := by
  unfold State.runs execFor at hL
  split at hL
  · exact List.mem_of_mem_take hL
  · exact hL

theorem State.execFor_active (s : State) (h : Head) : execFor h (s.active h) = s.runs h := rfl

theorem State.runs_nodup (s : State) (h : Head) : (s.runs h).Nodup := by
  unfold State.runs execFor
  split
  · exact (s.active_nodup h).sublist (List.take_sublist ..)
  · exact s.active_nodup h

/-- The lanes that share the fate of the executing lanes are the active lanes (R54). -/
theorem State.fate_runs (s : State) (h : Head) : (s.runs h).flatMap (fateOf h (s.active h)) = s.active h := by
  unfold State.runs execFor fateOf
  by_cases hu : h.u
  · simp only [hu, ↓reduceIte]
    cases s.active h <;> simp
  · simp [hu]

/-- Where every access goes on, no lane traps or migrates and the executing lanes have the effect. -/
theorem goesOf_go {h : Head} {act : List Nat} {acc : Nat → Acc} {f : Nat → Leaf}
    (hgo : ∀ L ∈ execFor h act, acc L = .go (f L)) :
    goesOf h act acc = (execFor h act).map (fun L => (L, f L)) ∧ migrantsOf h act acc = [] ∧ failsOf h act acc = [] := by
  refine ⟨?_, ?_, ?_⟩
  · unfold goesOf
    rw [← List.filterMap_eq_map]
    exact List.filterMap_congr fun L hL => by simp [hgo L hL]
  · unfold migrantsOf
    rw [List.filterMap_eq_nil_iff]
    intro L hL; simp [hgo L hL]
  · unfold failsOf
    rw [List.flatMap_eq_nil_iff]
    intro L hL; simp [hgo L hL]

theorem State.raise_nil (s : State) : s.raise [] = s := rfl

/-- The bystanders of a gang. -/
theorem State.skipIdle_eq (s : State) (h : Head) : s.skipIdle h = s.advance (s.bystanders h) := by
  unfold State.skipIdle State.bystanders
  congr 1
  refine List.filter_congr fun L hL => ?_
  simp [State.active, hL]

theorem State.bystanders_nodup (s : State) (h : Head) : (s.bystanders h).Nodup := s.gang_nodup.filter _

/-- The bystanders and the active lanes make up the gang. -/
theorem State.mem_gang (s : State) (h : Head) (L : Nat) : L ∈ s.bystanders h ++ s.active h ↔ L ∈ s.gang := by
  by_cases ha : s.guardOf L h.g = true <;> simp [State.bystanders, State.active, ha]

/-- A state that differs only outside what a gang's moves read. -/
structure State.SameIssue (s t : State) : Prop where
  cur : t.cur = s.cur
  warps : t.warps = s.warps
  groups : t.groups = s.groups
  launches : t.launches = s.launches

namespace State.SameIssue
variable {s t : State}
theorem cw (h : s.SameIssue t) : t.cw = s.cw := by simp [State.cw, State.warp, h.cur, h.warps]
theorem cl (h : s.SameIssue t) (L : Nat) : t.cl L = s.cl L := by simp [State.cl, State.lane, State.warp, h.cur, h.warps]
theorem gang (h : s.SameIssue t) : t.gang = s.gang := by simp [State.gang, h.cur]
theorem guardOf (h : s.SameIssue t) (L : Nat) (g : Guard) : t.guardOf L g = s.guardOf L g := by
  simp [State.guardOf, State.predOf, State.offsOf, State.launch, h.cur, h.cl, h.cw, h.launches]
theorem active (h : s.SameIssue t) (hd : Head) : t.active hd = s.active hd := by
  simp [State.active, h.gang, h.guardOf]
theorem bystanders (h : s.SameIssue t) (hd : Head) : t.bystanders hd = s.bystanders hd := by
  simp [State.bystanders, h.gang, h.active]
theorem lanesOnly (h : s.SameIssue t) {u : State} (k : t.LanesOnly u) : s.LanesOnly u := by
  refine ⟨k.1.trans h.cur, fun j hj => ?_, ?_⟩
  · rw [k.2.1 j (by rw [h.cur]; exact hj)]; simp [State.warp, h.warps]
  · rw [k.2.2, h.cw]
theorem movesOn (h : s.SameIssue t) {u : State} {ls : List Nat} (k : t.MovesOn u ls) : s.MovesOn u ls :=
  ⟨h.lanesOnly k.1, fun L => by rw [k.2 L, h.cl L]⟩
end State.SameIssue

/-- The gang of an issue moves on in two groups, bystanders first. -/
theorem State.moves_gang {s t : State} (hs : s.SameIssue t) (h : Head) :
    s.MovesOn ((t.skipIdle h).advance (s.active h)) s.gang := by
  rw [State.skipIdle_eq, hs.bystanders]
  have k := (hs.movesOn (t.advance_moves _ (s.bystanders_nodup h))).append (s.active_nodup h)
    (fun L hL hb => by simp [State.bystanders] at hb; exact hb.2 hL)
  exact k.congr fun L => (s.mem_gang h L).symm

/-- `runAccess` where every access goes on: the effects in ascending lane order, then the whole gang moves on. -/
theorem State.runAccess_go (s : State) (h : Head) (i : Instr) (acc : Nat → Acc)
    (eff : State → Nat → Leaf → Bool → State) (f : Nat → Leaf) (hgo : ∀ L ∈ s.runs h, acc L = .go (f L)) :
    s.runAccess h i acc eff =
      ((((s.runs h).foldl (fun t L => eff t L (f L) ((s.runs h).getLast? == some L)) s).skipIdle h).advance (s.active h)) := by
  obtain ⟨h1, h2, h3⟩ := goesOf_go (h := h) (act := s.active h) hgo
  have hx : (((s.runs h).map (fun L => (L, f L))).getLast?).map (·.1) = (s.runs h).getLast? := by
    cases hr : (s.runs h).getLast? <;> simp [List.getLast?_map, hr]
  simp only [State.runAccess, h1, h2, h3, List.foldl_nil, State.raise_nil, State.execFor_active, hx, List.foldl_map,
    List.flatMap_map, State.fate_runs]

theorem allOrNothing_none {act : List Nat} {cs : List (Nat → Option Event)} (hc : ∀ c ∈ cs, ∀ L ∈ act, c L = none) :
    allOrNothing act cs = [] := by
  induction cs with
  | nil => rfl
  | cons c cs ih =>
    have h0 : act.filterMap (fun L => (c L).map (fun e => (L, e))) = [] := by
      rw [List.filterMap_eq_nil_iff]; intro L hL; simp [hc c (by simp) L hL]
    simp only [allOrNothing, h0]
    exact ih fun c' hc' => hc c' (by simp [hc'])

/-- `runWhole` where every check passes. -/
theorem State.runWhole_go (s : State) (h : Head) (checks : List (Nat → Option Event)) (eff : State → Nat → Bool → State)
    (hc : ∀ c ∈ checks, ∀ L ∈ s.runs h, c L = none) :
    s.runWhole h checks eff =
      (((s.runs h).foldl (fun t L => eff t L ((s.runs h).getLast? == some L)) s).advance s.gang) := by
  simp only [State.runWhole, State.execFor_active, allOrNothing_none hc]

/-! ### Requests and answers gathered -/

/-- What has left and what was answered so far in an instruction. -/
structure Sent (s t : State) (as : List Ask) (ans : List Answer) : Prop extends Sends s t as ans where
  rest : t = { s with net := t.net, serial := t.serial, leases := t.leases, answers := t.answers }

theorem State.msgsFrom_append (s : State) (as bs : List Ask) (n : Nat) :
    s.msgsFrom (as ++ bs) n = s.msgsFrom as n ++ s.msgsFrom bs (n + as.length) := by
  induction as generalizing n with
  | nil => simp [State.msgsFrom]
  | cons a as ih => simp [State.msgsFrom, ih, Nat.add_assoc, Nat.add_comm 1]

/-- What a request changes. -/
theorem State.request_eq (s : State) (L key : Nat) (req : Req) (ret : Option Ret) :
    s.request L key req ret =
      { s with net := (s.request L key req ret).net, serial := (s.request L key req ret).serial,
               leases := (s.request L key req ret).leases } := by
  simp only [State.request, State.dropLease]
  split <;> rfl

namespace Sent
variable {s t : State} {as : List Ask} {ans : List Answer}

theorem same (h : Sent s t as ans) : s.SameIssue t := by
  have := h.rest
  constructor <;> rw [this]

theorem warps_rest (h : Sent s t as ans) (ws : Tab Warp) : { t with warps := ws } =
    { s with warps := ws, net := t.net, serial := t.serial, leases := t.leases, answers := t.answers } := by rw [h.rest]

theorem net_rest (h : Sent s t as ans) (n : List Msg) (k : Nat) (ls : List Lease) :
    { t with net := n, serial := k, leases := ls } =
      { s with net := n, serial := k, leases := ls, answers := t.answers } := by rw [h.rest]

theorem start (s : State) : Sent s s [] [] where
  net := by simp [State.msgsFrom]
  serial := rfl
  leases := by simp
  answers := by simp
  rest := rfl

theorem request (h : Sent s t as ans) (L key : Nat) (req : Req) (ret : Option Ret) :
    Sent s (t.request L key req ret) (as ++ [⟨L, key, req, ret⟩]) ans := by
  have hcw := h.same.cw
  have hcl := h.same.cl L
  have hcur := h.same.cur
  have hm : t.msgOf ⟨L, key, req, ret⟩ t.serial = s.msgOf ⟨L, key, req, ret⟩ t.serial := by
    simp [State.msgOf, hcw, hcl, hcur]
  rw [State.msgOf] at hm
  have hw : (s.msgOf ⟨L, key, req, ret⟩ t.serial).writes = (s.msgOf ⟨L, key, req, ret⟩ 0).writes := rfl
  have hleases : (s.leases.filter (fun l => (as ++ [(⟨L, key, req, ret⟩ : Ask)]).all fun a =>
      !((s.msgOf a 0).writes && decide (l.core = s.cw.core) && decide (l.line = lineOf a.key)))) =
      t.leases.filter (fun l =>
        !((s.msgOf ⟨L, key, req, ret⟩ 0).writes && decide (l.core = s.cw.core) && decide (l.line = lineOf key))) := by
    rw [h.leases, List.filter_filter]
    congr 1; funext l
    simp [Bool.and_comm]
  refine ⟨⟨?_, ?_, ?_, ?_⟩, ?_⟩
  · simp only [State.request, hm]
    rw [State.msgsFrom_append, ← List.append_assoc, ← h.net, ← h.serial]
    split <;> rfl
  · simp only [State.request]
    split <;> simp [State.dropLease, h.serial, Nat.add_assoc]
  · rw [hleases]
    simp only [State.request, hm, hw]
    split
    · rename_i hx
      simp only [State.dropLease, hcw, hx, Bool.true_and]
      congr 1; funext l; simp
    · rename_i hx
      simp [hx]
  · simp only [State.request]
    split <;> exact h.answers
  · have ha : (t.request L key req ret).answers = t.answers := by rw [State.request_eq]
    rw [ha]
    conv_lhs => rw [State.request_eq]
    exact h.net_rest _ _ _

theorem answer (h : Sent s t as ans) (ret : Ret) (vals : List Word) (flags : BitVec 5) :
    Sent s (t.answer ret vals flags) as (ans ++ [{ ret := ret, vals := vals, flags := flags }]) where
  net := h.net
  serial := h.serial
  leases := h.leases
  answers := by simp [State.answer, h.answers]
  rest := by conv_lhs => rw [h.rest]
             rfl

/-- What has left before the gang moves on is what the instruction has sent. -/
theorem issues (h : Sent s t as ans) (i : Instr) (hd : Head)
    (hi : exec i s = .next ((t.skipIdle hd).advance (s.active hd))) : s.Issues i as ans := by
  refine ⟨_, hi, ?_, State.moves_gang h.same hd, ?_⟩
  · rw [State.advance_eq, State.skipIdle_eq, State.advance_eq]
    exact h.warps_rest _
  · refine ⟨?_, ?_, ?_, ?_⟩ <;> simp only [State.skipIdle_eq, State.advance, State.updLanes_net, State.updLanes_serial,
      State.updLanes_leases, State.updLanes_answers]
    · exact h.net
    · exact h.serial
    · exact h.leases
    · exact h.answers

/-- The same where the whole gang moves on at once. -/
theorem issues_gang (h : Sent s t as ans) (i : Instr) (hi : exec i s = .next (t.advance s.gang)) : s.Issues i as ans := by
  refine ⟨_, hi, ?_, h.same.movesOn (t.advance_moves _ s.gang_nodup), ?_⟩
  · rw [State.advance_eq]
    exact h.warps_rest _
  · refine ⟨?_, ?_, ?_, ?_⟩ <;> simp only [State.advance, State.updLanes_net, State.updLanes_serial,
      State.updLanes_leases, State.updLanes_answers]
    · exact h.net
    · exact h.serial
    · exact h.leases
    · exact h.answers

/-- One request for each lane, in order. -/
theorem requests (h : Sent s t as ans) (ls : List Nat) (key : Nat → Nat) (req : Nat → Req) (ret : Nat → Option Ret) :
    Sent s (ls.foldl (fun t L => t.request L (key L) (req L) (ret L)) t)
      (as ++ ls.map fun L => ⟨L, key L, req L, ret L⟩) ans := by
  induction ls generalizing t as with
  | nil => simpa using h
  | cons L ls ih => simpa using ih (h.request L (key L) (req L) (ret L))

end Sent

end Sys2Proof.Machine
end

