-- ==== Sys2Proof/Laws/Alu.lean ====
section
/-! SUPPORT. The shared shape of an instruction that computes lane by lane (State.runAlu): everything it can do, said once. -/

namespace Sys2Proof.Machine

@[simp] theorem Lane.setPred_handler (l : Lane) (o : Offs) (p : Fin 8) (b : Bool) :
    (l.setPred o p b).handler = l.handler := by unfold Lane.setPred; split <;> rfl

@[simp] theorem Lane.setPred_frag (l : Lane) (o : Offs) (p : Fin 8) (b : Bool) :
    (l.setPred o p b).frag = l.frag := by unfold Lane.setPred; split <;> rfl

theorem Lane.foldPred_keeps (o : Offs) (ps : List (Fin 8 × Bool)) (l : Lane) :
    (ps.foldl (fun l p => l.setPred o p.1 p.2) l).handler = l.handler ∧
    (ps.foldl (fun l p => l.setPred o p.1 p.2) l).frag = l.frag := by
  induction ps generalizing l with
  | nil => exact ⟨rfl, rfl⟩
  | cons p ps ih => simpa using ih (l.setPred o p.1 p.2)

@[simp] theorem Lane.putBits_handler (l : Lane) (o : Offs) (e : Eff) : (l.putBits o e).handler = l.handler :=
  (Lane.foldPred_keeps o e.preds l).1
@[simp] theorem Lane.putBits_frag (l : Lane) (o : Offs) (e : Eff) : (l.putBits o e).frag = l.frag :=
  (Lane.foldPred_keeps o e.preds l).2
@[simp] theorem Lane.putWin_handler (l : Lane) (d : Spec) (e : Eff) : (l.putWin d e).handler = l.handler := by
  unfold Lane.putWin; split <;> rfl
@[simp] theorem Lane.putWin_frag (l : Lane) (d : Spec) (e : Eff) : (l.putWin d e).frag = l.frag := by
  unfold Lane.putWin; split <;> rfl

/-- Two lanes of two states have the same offsets where their mode, their fragment and the launch agree. -/
theorem State.offsOf_congr (s t : State) (w v : Warp) (l m : Lane) (hh : m.handler = l.handler) (hf : m.frag = l.frag)
    (hw : v.frags = w.frags) (hl : v.launch = w.launch) (hs : t.launches = s.launches) :
    t.offsOf v m = s.offsOf w l := by
  simp [State.offsOf, Warp.fragOf, State.launch, hh, hf, hw, hl, hs]

/-- The effects written so far: destinations of the lanes `W`, predicates and flags of the lanes `B`. -/
structure Written (s t : State) (d : Spec) (W B : List Nat) (e b : Nat → Eff) : Prop where
  rest : t = { s with warps := t.warps, groups := t.groups }
  warps : ∀ k, k ≠ s.cur.wid → t.warp k = s.warp k
  own : t.cw = { s.cw with lanes := t.cw.lanes, sregs := t.cw.sregs }
  scalars : t.cw.sregs = s.scaAfter d W e
  groups : ∀ g, g ≠ s.cw.group → t.group g = s.group g
  shared : t.group s.cw.group = { s.group s.cw.group with gregs := s.grpAfter d W e }
  lanes : ∀ L, t.cl L =
    let l := if L ∈ W then (s.cl L).putWin d (e L) else s.cl L
    if L ∈ B then l.putBits (s.offsOf s.cw (s.cl L)) (b L) else l

namespace Written

variable {s t : State} {d : Spec} {W B : List Nat} {e b : Nat → Eff}

theorem cur (h : Written s t d W B e b) : t.cur = s.cur := by rw [h.rest]
theorem launches (h : Written s t d W B e b) : t.launches = s.launches := by rw [h.rest]
theorem cw_frags (h : Written s t d W B e b) : t.cw.frags = s.cw.frags := by rw [h.own]
theorem cw_launch (h : Written s t d W B e b) : t.cw.launch = s.cw.launch := by rw [h.own]
theorem cw_group (h : Written s t d W B e b) : t.cw.group = s.cw.group := by rw [h.own]

theorem handler (h : Written s t d W B e b) (L : Nat) : (t.cl L).handler = (s.cl L).handler := by
  rw [h.lanes]; by_cases h1 : L ∈ W <;> by_cases h2 : L ∈ B <;> simp [h1, h2]

theorem frag (h : Written s t d W B e b) (L : Nat) : (t.cl L).frag = (s.cl L).frag := by
  rw [h.lanes]; by_cases h1 : L ∈ W <;> by_cases h2 : L ∈ B <;> simp [h1, h2]

theorem offs (h : Written s t d W B e b) (L : Nat) : t.offsOf t.cw (t.cl L) = s.offsOf s.cw (s.cl L) :=
  State.offsOf_congr s t s.cw t.cw _ _ (h.handler L) (h.frag L) h.cw_frags h.cw_launch h.launches

theorem start (s : State) (d : Spec) (e b : Nat → Eff) : Written s s d [] [] e b where
  rest := rfl
  warps _ _ := rfl
  own := rfl
  scalars := by cases d <;> rfl
  groups _ _ := rfl
  shared := by cases d <;> rfl
  lanes _ := by simp

end Written

theorem State.cl_updLane (s : State) (L K : Nat) (f : Lane → Lane) :
    (s.updLane s.cur.wid L f).cl K = if K = L then f (s.cl L) else s.cl K := by
  simp [State.cl, State.lane_updLane]

theorem State.cw_updLane (s : State) (L : Nat) (f : Lane → Lane) :
    (s.updLane s.cur.wid L f).cw = s.cw.setLane L (f (s.cl L)) := by
  simp [State.cw, State.cl, State.warp_updLane]

theorem State.rest_congr {s t : State} (h : t = { s with warps := t.warps, groups := t.groups }) (ws : Tab Warp)
    (gs : Tab Group) : { t with warps := ws, groups := gs } = { s with warps := ws, groups := gs } := by rw [h]

/-- A change of a lane of the issue's warp, in terms of what is written so far. -/
theorem Written.lane {s t : State} {d : Spec} {W B W' B' : List Nat} {e b b' : Nat → Eff} (h : Written s t d W B e b)
    (L : Nat) (f : Lane → Lane) (hs : s.scaAfter d W' e = s.scaAfter d W e)
    (hg : s.grpAfter d W' e = s.grpAfter d W e)
    (hl : ∀ K, (if K = L then f (t.cl L) else t.cl K) =
      let l := if K ∈ W' then (s.cl K).putWin d (e K) else s.cl K
      if K ∈ B' then l.putBits (s.offsOf s.cw (s.cl K)) (b' K) else l) :
    Written s (t.updLane s.cur.wid L f) d W' B' e b' := by
  have hc := h.cur
  have hcw : (t.updLane s.cur.wid L f).cw = t.cw.setLane L (f (t.cl L)) := by rw [← hc]; exact State.cw_updLane ..
  refine ⟨?_, ?_, ?_, ?_, ?_, ?_, ?_⟩
  · exact State.rest_congr h.rest _ _
  · intro k hk
    rw [State.warp_updLane_ne _ _ _ hk, h.warps k hk]
  · rw [hcw]
    conv_lhs => rw [h.own]
    rfl
  · rw [hcw, hs, ← h.scalars]; rfl
  · intro g hg'
    rw [← h.groups g hg']; rfl
  · rw [hg, ← h.shared]; rfl
  · intro K
    rw [← hl K, ← hc, State.cl_updLane]

/-- A destination written in one more lane. -/
theorem Written.dest {s t : State} {d : Spec} {W B : List Nat} {e b : Nat → Eff} (h : Written s t d W B e b) (L : Nat)
    (hW : L ∉ W) (hB : L ∉ B) :
    Written s (match (e L).d with | some v => t.setDest L d v | none => t) d (W ++ [L]) B e b := by
  have hcl : t.cl L = s.cl L := by rw [h.lanes]; simp [hW, hB]
  cases hv : (e L).d with
  | none =>
    refine ⟨h.rest, h.warps, h.own, ?_, h.groups, ?_, ?_⟩
    · rw [h.scalars]; cases d <;> simp [State.scaAfter, hv]
    · rw [h.shared]; cases d <;> simp [State.grpAfter, hv]
    · intro K
      rw [h.lanes K]
      by_cases hK : K = L
      · subst hK; simp [hW, hB, Lane.putWin, hv]
      · simp [hK]
  | some v =>
    have noS : (∀ k, d ≠ .sca k) → s.scaAfter d (W ++ [L]) e = s.scaAfter d W e := by
      intro hd; cases d <;> first | rfl | exact absurd rfl (hd _)
    have noG : (∀ k, d ≠ .grp k) → s.grpAfter d (W ++ [L]) e = s.grpAfter d W e := by
      intro hd; cases d <;> first | rfl | exact absurd rfl (hd _)
    have noL : (∀ k, d ≠ .win k) → ∀ K, t.cl K =
        let l := if K ∈ W ++ [L] then (s.cl K).putWin d (e K) else s.cl K
        if K ∈ B then l.putBits (s.offsOf s.cw (s.cl K)) (b K) else l := by
      intro hd K
      have : ∀ l : Lane, l.putWin d (e K) = l := by
        intro l; unfold Lane.putWin; split
        · exact absurd rfl (hd _)
        · rfl
      rw [h.lanes K]; simp [this]
    cases d with
    | win k =>
      show Written s (t.updLane t.cur.wid L (fun l => l.setWin k.val v)) (.win k) (W ++ [L]) B e b
      rw [h.cur]
      refine h.lane L _ (noS (by simp)) (noG (by simp)) ?_
      intro K
      by_cases hK : K = L
      · subst hK; simp [hB, hcl, Lane.putWin, hv]
      · rw [if_neg hK, h.lanes K]; simp [hK]
    | sca k =>
      simp only [State.setDest, h.offs, h.handler]
      by_cases hh : (s.cl L).handler ∧ k.val = 63
      · rw [if_pos hh]
        refine ⟨h.rest, h.warps, h.own, ?_, h.groups, h.shared, noL (by simp)⟩
        rw [h.scalars]; simp [State.scaAfter, hv, hh]
      · rw [if_neg hh]
        have hcw : (t.updWarp t.cur.wid (fun w =>
            { w with sregs := w.sregs.set 0 (k.val + (s.offsOf s.cw (s.cl L)).s) v })).cw =
            { t.cw with sregs := t.cw.sregs.set 0 (k.val + (s.offsOf s.cw (s.cl L)).s) v } := by
          simp [State.cw, State.warp_updWarp]
        refine ⟨?_, ?_, ?_, ?_, ?_, ?_, ?_⟩
        · exact State.rest_congr h.rest _ _
        · intro j hj
          rw [State.warp_updWarp, h.cur, if_neg hj, h.warps j hj]
        · rw [hcw]
          conv_lhs => rw [h.own]
        · rw [hcw, h.scalars]; simp [State.scaAfter, hv, hh]
        · intro g hg; rw [← h.groups g hg]; rfl
        · exact h.shared
        · intro K
          rw [← noL (by simp) K]
          simp [State.cl, State.lane, State.warp_updWarp, Warp.lane]
    | grp k =>
      simp only [State.setDest, h.offs, h.cw_group]
      refine ⟨?_, h.warps, h.own, h.scalars, ?_, ?_, noL (by simp)⟩
      · exact State.rest_congr h.rest _ _
      · intro g hg
        rw [← h.groups g hg]
        simp [State.group, State.updGroup, Tab.get_upd, hg]
      · have hx : (t.updGroup s.cw.group (fun g =>
            { g with gregs := g.gregs.set 0 (k.val + (s.offsOf s.cw (s.cl L)).g) v })).group s.cw.group =
            { t.group s.cw.group with
              gregs := (t.group s.cw.group).gregs.set 0 (k.val + (s.offsOf s.cw (s.cl L)).g) v } := by
          simp [State.group, State.updGroup, Tab.get_upd]
        rw [hx, h.shared]
        simp [State.grpAfter, hv]
    | _ =>
      exact ⟨h.rest, h.warps, h.own, h.scalars, h.groups, h.shared, noL (by simp)⟩

theorem Lane.putBits_flags (l : Lane) (o : Offs) (e : Eff) :
    l.putBits o e = { l.putBits o { preds := e.preds } with fstat := (l.putBits o { preds := e.preds }).fstat ||| e.flags } := by
  simp [Lane.putBits]

theorem Lane.putBits_snoc (l : Lane) (o : Offs) (qs : List (Fin 8 × Bool)) (p : Fin 8 × Bool) :
    l.putBits o { preds := qs ++ [p] } = (l.putBits o { preds := qs }).setPred o p.1 p.2 := by
  have hz : ∀ m : Lane, ({ m with fstat := m.fstat ||| 0 } : Lane) = m := by intro m; simp
  show ({ (qs ++ [p]).foldl _ l with fstat := _ ||| 0 } : Lane) = Lane.setPred { qs.foldl _ l with fstat := _ ||| 0 } o p.1 p.2
  rw [hz, hz, List.foldl_append]; rfl

theorem Lane.putBits_none (l : Lane) (o : Offs) : l.putBits o { preds := [] } = l := by simp [Lane.putBits]

theorem State.setPredOf_eq {s t : State} {d : Spec} {W B : List Nat} {e b : Nat → Eff} (h : Written s t d W B e b)
    (L : Nat) (p : Fin 8) (x : Bool) :
    t.setPredOf L p x = t.updLane s.cur.wid L (fun l => l.setPred (s.offsOf s.cw (s.cl L)) p x) := by
  rw [State.setPredOf, h.offs, h.cur]

/-- Predicates written one after another in one more lane. -/
theorem Written.preds {s t : State} {d : Spec} {W B : List Nat} {e b : Nat → Eff} (h : Written s t d W B e b) (L : Nat)
    (hB : L ∉ B) (ps : List (Fin 8 × Bool)) :
    Written s (ps.foldl (fun s p => s.setPredOf L p.1 p.2) t) d W (B ++ [L]) e
      (fun K => if K = L then { preds := ps } else b K) := by
  induction ps using List.reverseRecOn with
  | nil =>
    refine ⟨h.rest, h.warps, h.own, h.scalars, h.groups, h.shared, fun K => ?_⟩
    rw [List.foldl_nil, h.lanes K]
    by_cases hK : K = L
    · subst hK
      simp only [hB, ↓reduceIte, List.mem_append, List.mem_singleton, or_true, Lane.putBits_none]
    · simp [hK]
  | append_singleton qs p ih =>
    rw [List.foldl_append, List.foldl_cons, List.foldl_nil, State.setPredOf_eq ih]
    refine ih.lane L _ rfl rfl fun K => ?_
    by_cases hK : K = L
    · subst hK
      rw [if_pos rfl, ih.lanes K]
      simp only [List.mem_append, List.mem_singleton, or_true, ↓reduceIte, Lane.putBits_snoc]
    · rw [if_neg hK, ih.lanes K]; simp [hK]

/-- Predicates and flags written in one more lane. -/
theorem Written.bits {s t : State} {d : Spec} {W B : List Nat} {e b : Nat → Eff} (h : Written s t d W B e b) (L : Nat)
    (hB : L ∉ B) (x : Eff) (hx : b L = x) :
    Written s
      (let t' := x.preds.foldl (fun s p => s.setPredOf L p.1 p.2) t
        if x.flags = 0 then t' else t'.orFlags L x.flags) d W (B ++ [L]) e b := by
  have hp := h.preds L hB x.preds
  have hlast : ∀ K, K ≠ L → (if K ∈ B ++ [L] then
      (if K ∈ W then (s.cl K).putWin d (e K) else s.cl K).putBits (s.offsOf s.cw (s.cl K))
        (if K = L then { preds := x.preds } else b K)
      else (if K ∈ W then (s.cl K).putWin d (e K) else s.cl K)) = (if K ∈ B ++ [L] then
      (if K ∈ W then (s.cl K).putWin d (e K) else s.cl K).putBits (s.offsOf s.cw (s.cl K)) (b K)
      else (if K ∈ W then (s.cl K).putWin d (e K) else s.cl K)) := by
    intro K hK; simp [hK]
  by_cases hf : x.flags = 0
  · simp only [hf, ↓reduceIte]
    refine ⟨hp.rest, hp.warps, hp.own, hp.scalars, hp.groups, hp.shared, fun K => ?_⟩
    rw [hp.lanes K]
    by_cases hK : K = L
    · subst hK
      simp only [List.mem_append, List.mem_singleton, or_true, ↓reduceIte, hx]
      rw [Lane.putBits_flags _ _ x, hf]
      have hz : ∀ m : Lane, m = ({ m with fstat := m.fstat ||| 0 } : Lane) := by intro m; simp
      exact hz _
    · exact hlast K hK
  · simp only [hf, ↓reduceIte, State.orFlags, hp.cur]
    refine hp.lane L _ rfl rfl fun K => ?_
    by_cases hK : K = L
    · subst hK
      rw [if_pos rfl, hp.lanes K]
      simp only [List.mem_append, List.mem_singleton, or_true, ↓reduceIte, hx]
      rw [← Lane.putBits_flags]
    · rw [if_neg hK, hp.lanes K]; exact hlast K hK

/-- The effects of lanes written one after another, each in its lane. -/
theorem Written.run {s : State} {d : Spec} {e : Nat → Eff} (ls : List Nat) (hn : ls.Nodup) :
    Written s (ls.foldl (fun t L => t.putEff d L (e L)) s) d ls ls e e := by
  induction ls using List.reverseRecOn with
  | nil => exact .start ..
  | append_singleton ls L ih =>
    rw [List.nodup_append] at hn
    have hL : L ∉ ls := fun hm => hn.2.2 L hm L (by simp) rfl
    rw [List.foldl_append, List.foldl_cons, List.foldl_nil]
    exact ((ih hn.1).dest L hL hL).bits L hL (e L) rfl

/-- Predicates and flags of lanes written one after another. -/
theorem Written.runBits {s t : State} {d : Spec} {W : List Nat} {e b : Nat → Eff} (h : Written s t d W [] e b)
    (ls : List Nat) (hn : ls.Nodup) (x : Nat → Eff) (hb : ∀ L ∈ ls, x L = { b L with d := none }) :
    Written s (ls.foldl (fun t L => t.putEff .zero L (x L)) t) d W ls e b := by
  induction ls using List.reverseRecOn with
  | nil => exact h
  | append_singleton ls L ih =>
    rw [List.nodup_append] at hn
    have hL : L ∉ ls := fun hm => hn.2.2 L hm L (by simp) rfl
    rw [List.foldl_append, List.foldl_cons, List.foldl_nil]
    have hbits := (ih hn.1 (fun K hK => hb K (by simp [hK]))).bits L hL (b L) rfl
    have hxL := hb L (by simp)
    simpa [State.putEff, hxL] using hbits

/-- Destinations written in lanes one after another, each after whatever else was written. -/
theorem Written.runDest {s : State} {d : Spec} {e b : Nat → Eff} (ls : List Nat) (hn : ls.Nodup) :
    Written s (ls.foldl (fun t L => match (e L).d with | some v => t.setDest L d v | none => t) s) d ls [] e b := by
  induction ls using List.reverseRecOn with
  | nil => exact .start ..
  | append_singleton ls L ih =>
    rw [List.nodup_append] at hn
    have hL : L ∉ ls := fun hm => hn.2.2 L hm L (by simp) rfl
    rw [List.foldl_append, List.foldl_cons, List.foldl_nil]
    exact (ih hn.1).dest L hL (by simp)

/-- The whole gang moves on after the effects. -/
theorem Written.done {s t : State} {h : Head} {d : Spec} {eff b : Nat → Eff}
    (w : Written s t d (execFor h (s.active h)) (s.active h) eff b) : AluPost s (t.advance s.gang) h d eff b := by
  have hc := w.cur
  have hcw : (t.advance s.gang).cw = { t.cw with lanes := (t.advance s.gang).cw.lanes } := by
    have := State.warp_updLanes_own t t.cur.wid t.cur.wid s.gang (fun l => { l with pc := nextPc l.pc, st := .ready, wait := none })
    simp only [State.cw, State.advance, State.updLanes_cur]
    rw [← this]
  refine ⟨?_, ?_, ?_, ?_, ?_, ?_, ?_⟩
  · rw [State.advance_eq]; exact State.rest_congr w.rest _ _
  · intro k hk
    rw [State.advance, hc, State.warp_updLanes_ne _ _ _ hk, w.warps k hk]
  · rw [hcw]; conv_lhs => rw [w.own]
  · rw [hcw]; exact w.scalars
  · intro g hg
    rw [← w.groups g hg]; simp [State.group, State.advance]
  · rw [← w.shared]; simp [State.group, State.advance]
  · intro L
    have hl : (t.advance s.gang).cl L = if L ∈ s.gang then (t.cl L).moved else t.cl L := by
      simp only [State.cl, State.advance, State.updLanes_cur]
      rw [State.lane_updLanes _ _ _ _ _ _ s.gang_nodup]
      simp [Lane.moved]
    rw [hl, w.lanes L]

/-- Everything that `runAlu` can do (R9, R54, R81, R115). -/
theorem State.runAlu_post (s : State) (h : Head) (d : Spec) (eff : Nat → Eff) :
    AluPost s (s.runAlu h d eff) h d eff (fun L => eff (if h.u then (s.active h).headD 0 else L)) := by
  unfold State.runAlu
  by_cases hu : h.u
  · simp only [hu, ↓reduceIte]
    cases hact : s.active h with
    | nil =>
      refine Written.done ?_
      simpa [execFor, hact] using Written.start s d eff _
    | cons L ls =>
      have hn : (L :: ls).Nodup := hact ▸ s.active_nodup h
      have h1 : Written s (match (eff L).d with | some v => s.setDest L d v | none => s) d [L] [] eff
          (fun _ => eff L) := by simpa using (Written.start s d eff _).dest L (by simp) (by simp)
      have h2 := h1.runBits (L :: ls) hn (fun _ => { eff L with d := none }) (fun _ _ => rfl)
      refine Written.done ?_
      rw [show execFor h (s.active h) = [L] by simp [execFor, hu, hact], hact]
      exact h2
  · simp only [hu]
    refine Written.done ?_
    simpa [execFor, hu] using Written.run (s.active h) (s.active_nodup h)

/-- An instruction whose meaning is `runAlu` completes with its effect. -/
theorem State.computes_of (s : State) (i : Instr) (h : Head) (d : Spec) (eff : Nat → Eff)
    (hi : exec i s = .next (s.runAlu h d eff)) : s.Computes i h d eff :=
  ⟨_, hi, s.runAlu_post h d eff⟩

/-- Values given to lanes by `putLanes` are a per-lane effect on D (R168). -/
theorem State.putLanes_alu (s : State) (h : Head) (d : Spec) (v : Nat → Word) :
    (s.putLanes h d (s.active h) v).advance s.gang = s.runAlu h d (fun L => { d := some (v L) }) := by
  have hz : ∀ (t : State) (L : Nat), t.putEff .zero L { d := none } = t := fun _ _ => rfl
  have hw : ∀ (t : State) (L : Nat), t.putEff d L { d := some (v L) } = t.setDest L d (v L) := fun _ _ => rfl
  unfold State.putLanes State.runAlu
  by_cases hu : h.u
  · simp only [hu, ↓reduceIte]
    cases s.active h with
    | nil => rfl
    | cons L ls =>
      simp only [hz]
      congr 1
      generalize s.setDest L d (v L) = t
      induction (L :: ls) with
      | nil => rfl
      | cons K ks ih => exact ih
  · simp only [hu, hw]; rfl

end Sys2Proof.Machine
end

