-- ==== Sys2Proof/Laws/Memory.lean ====
section
/-! SUPPORT. Memory: what each operation over the bytes at the homes leaves in them, said once, and that each keeps the
canonical form; the same for the scratchpads, the accumulators, the weight buffers and the host's memory. -/

namespace Sys2Proof.Machine

/-! ### What an operation leaves in memory -/

@[simp] theorem State.drawn_mem (s : State) : s.drawn.mem = s.mem := rfl
@[simp] theorem State.writeBack_mem (s : State) (line : Nat) : (s.writeBack line).mem = s.mem := rfl
@[simp] theorem State.wakeLine_mem (s : State) (line : Nat) : (s.wakeLine line).mem = s.mem := rfl
@[simp] theorem State.dropLease_mem (s : State) (core line : Nat) : (s.dropLease core line).mem = s.mem := rfl

@[simp] theorem State.mayWriteBack_mem (s : State) (line : Nat) : (s.mayWriteBack line).mem = s.mem := by
  simp only [State.mayWriteBack]
  split <;> rfl

@[simp] theorem State.tagLine_mem (s : State) (line launch : Nat) : (s.tagLine line launch).mem = s.mem := by
  simp only [State.tagLine]
  split
  · rfl
  · split <;> rfl

/-- A write applied at its home stores exactly its bytes (R219). -/
@[simp] theorem State.applyWrite_mem (s : State) (key : Nat) (bytes : List Byte) (tag : Option (Nat × Nat)) :
    (s.applyWrite key bytes tag).1.mem = s.mem.setN unwritten key bytes := by
  cases tag with
  | none => simp [State.applyWrite]
  | some t => simp only [State.applyWrite]; split <;> simp

/-- A dropped line takes the bytes last written back (R234). -/
theorem State.dropLine_mem (s : State) (line : Nat) :
    (s.dropLine line).mem = s.mem.setN unwritten (64 * line) (s.hbm.getN unwritten (64 * line) 64) := rfl

/-- A read at the home leaves memory as it is, or drops the line that it read (R234). -/
theorem State.readHome_mem (s : State) (key n launch : Nat) :
    (s.readHome key n launch).2.mem = s.mem ∨ (s.readHome key n launch).2.mem = (s.dropLine (lineOf key)).mem := by
  simp only [State.readHome]
  split
  · split
    · exact .inr rfl
    · exact .inl rfl
  · exact .inl rfl

/-- The bytes that a read at the home returns are those that stood there. -/
@[simp] theorem State.readHome_bytes (s : State) (key n launch : Nat) :
    (s.readHome key n launch).1 = s.bytesAt key n := by
  simp only [State.readHome]
  split
  · split <;> rfl
  · rfl

/-- The device's own write to a virtual address stores its bytes at the address that the leaf gives. -/
theorem State.writeVa_mem {s : State} {dom va : Nat} {bytes : List Byte} {r : State × Nat}
    (h : s.writeVa dom va bytes = .ok r) :
    ∃ f, s.translate dom va = .ok f ∧ r.1.mem = s.mem.setN unwritten (f.key va) bytes := by
  simp only [State.writeVa] at h
  split at h
  · next f _ hf => cases h; exact ⟨f, hf, State.applyWrite_mem ..⟩
  · cases h
  · cases h

/-! ### Read after write, byte by byte -/

theorem State.byteAt_of_mem {s t : State} {key : Nat} {bytes : List Byte} (h : t.mem = s.mem.setN unwritten key bytes)
    (a : Nat) : t.byteAt a = if key ≤ a ∧ a < key + bytes.length then bytes.getD (a - key) unwritten else s.byteAt a := by
  rw [State.byteAt, h, Tab.get_setN]; rfl

theorem State.byteAt_applyWrite (s : State) (key : Nat) (bytes : List Byte) (tag : Option (Nat × Nat)) (a : Nat) :
    (s.applyWrite key bytes tag).1.byteAt a =
      if key ≤ a ∧ a < key + bytes.length then bytes.getD (a - key) unwritten else s.byteAt a :=
  State.byteAt_of_mem (State.applyWrite_mem ..) a

/-- The bytes written read back. -/
theorem State.bytesAt_applyWrite (s : State) (key : Nat) (bytes : List Byte) (tag : Option (Nat × Nat)) :
    (s.applyWrite key bytes tag).1.bytesAt key bytes.length = bytes := by
  rw [State.bytesAt, State.applyWrite_mem, Tab.getN_setN]

/-- Bytes apart from the ones written read as before. -/
theorem State.bytesAt_applyWrite_apart (s : State) (key : Nat) (bytes : List Byte) (tag : Option (Nat × Nat)) (a n : Nat)
    (h : a + n ≤ key ∨ key + bytes.length ≤ a) : (s.applyWrite key bytes tag).1.bytesAt a n = s.bytesAt a n := by
  rw [State.bytesAt, State.applyWrite_mem, Tab.getN_setN_apart _ _ _ _ _ _ h, State.bytesAt]

/-- Two canonical memories that read alike are one list. -/
theorem Memory.ext {m k : Tab Byte} (hm : Memory.wf m = true) (hk : Memory.wf k = true)
    (h : ∀ a, m.get unwritten a = k.get unwritten a) : m = k := Tab.ext_wf unwritten m k hm hk h

/-! ### The canonical form -/

theorem Memory.setN_wf {m : Tab Byte} (h : Memory.wf m = true) (key : Nat) (bytes : List Byte) :
    Memory.wf (m.setN unwritten key bytes) = true := Tab.setN_wf unwritten bytes m key h

theorem Memory.wf_of_mem {s t : State} {key : Nat} {bytes : List Byte} (hm : t.mem = s.mem.setN unwritten key bytes)
    (h : Memory.wf s.mem = true) : Memory.wf t.mem = true := hm ▸ Memory.setN_wf h key bytes

theorem State.applyWrite_wf {s : State} (h : Memory.wf s.mem = true) (key : Nat) (bytes : List Byte)
    (tag : Option (Nat × Nat)) : Memory.wf (s.applyWrite key bytes tag).1.mem = true :=
  Memory.wf_of_mem (State.applyWrite_mem ..) h

theorem State.dropLine_wf {s : State} (h : Memory.wf s.mem = true) (line : Nat) :
    Memory.wf (s.dropLine line).mem = true := Memory.wf_of_mem (s.dropLine_mem line) h

theorem State.dropTagsOf_wf {s : State} (h : Memory.wf s.mem = true) (launch : Nat) :
    Memory.wf (s.dropTagsOf launch).mem = true := by
  simp only [State.dropTagsOf]
  generalize (s.tags.filter fun t => t.launch = launch).map (·.line) = ls
  induction ls generalizing s with
  | nil => exact h
  | cons l ls ih => exact ih (State.dropLine_wf h l)

theorem State.readHome_wf {s : State} (h : Memory.wf s.mem = true) (key n launch : Nat) :
    Memory.wf (s.readHome key n launch).2.mem = true := by
  rcases s.readHome_mem key n launch with e | e
  · rw [e]; exact h
  · rw [e]; exact State.dropLine_wf h _

theorem State.writeVa_wf {s : State} (h : Memory.wf s.mem = true) {dom va : Nat} {bytes : List Byte} {r : State × Nat}
    (hr : s.writeVa dom va bytes = .ok r) : Memory.wf r.1.mem = true := by
  obtain ⟨f, -, hm⟩ := State.writeVa_mem hr
  exact Memory.wf_of_mem hm h

theorem State.writeVaLines_wf {s : State} (h : Memory.wf s.mem = true) {dom va : Nat} {parts : List (List Byte)}
    {r : State × Nat} (hr : s.writeVaLines dom va parts = .ok r) : Memory.wf r.1.mem = true := by
  simp only [State.writeVaLines] at hr
  split at hr
  · cases hr
  · cases hr
    generalize ((List.range parts.length).map (fun i => va + 64 * i)).zip parts = ps
    suffices ∀ q : State × Nat, Memory.wf q.1.mem = true → Memory.wf (ps.foldl (fun r p =>
        match s.translate dom p.1 with
        | .ok f => ((r.1.applyWrite (f.key p.1) p.2).1, Nat.max r.2 (r.1.applyWrite (f.key p.1) p.2).2)
        | .fail _ => r) q).1.mem = true from this (s, 0) h
    induction ps with
    | nil => exact fun q hq => hq
    | cons p ps ih =>
      intro q hq
      rw [List.foldl_cons]
      refine ih _ ?_
      cases s.translate dom p.1 with
      | ok f => simpa only using State.applyWrite_wf hq (f.key p.1) p.2 none
      | fail _ => exact hq

theorem State.patch_wf {s : State} (h : Memory.wf s.mem = true) (dom va : Nat) (bytes : List Byte) :
    Memory.wf (s.patch dom va bytes).mem = true := by
  simp only [State.patch]
  split
  · next r hr => exact State.writeVa_wf h hr
  · exact h

theorem State.putCounter_wf {s : State} (h : Memory.wf s.mem = true) (dom : Nat) (va : Word) (w : Nat) :
    Memory.wf (s.putCounter dom va w).mem = true := by
  simp only [State.putCounter]
  split
  · next r hr => exact State.writeVa_wf h hr
  · exact h

theorem State.writeSpan_wf (fuel : Nat) {s : State} (h : Memory.wf s.mem = true) (dom va : Nat) (bs : List Byte) :
    Memory.wf (s.writeSpan dom fuel va bs).mem = true := by
  induction fuel generalizing s va bs with
  | zero => exact h
  | succ n ih =>
    simp only [State.writeSpan]
    split
    · exact h
    · exact ih (State.patch_wf h ..) ..

theorem State.placed_wf {s : State} (h : Memory.wf s.mem = true) (w : InstrWord) :
    Memory.wf (s.placed w).mem = true := Memory.setN_wf h ..

theorem State.withFetchWord_wf {s : State} (h : Memory.wf s.mem = true) (nbits w : Nat) :
    Memory.wf (s.withFetchWord nbits w).mem = true := State.placed_wf h _

/-- Memory after reset lists nothing. -/
theorem State.reset_wf : Memory.wf State.reset.mem = true := rfl

/-! ### The other byte stores -/

theorem State.writeBack_hbm_wf {s : State} (h : Memory.wf s.hbm = true) (line : Nat) :
    Memory.wf (s.writeBack line).hbm = true := Memory.setN_wf h ..

theorem State.putScratch_wf {s : State} (h : Memory.wf s.scratch = true) (core addr : Nat) (bs : List Byte) :
    Memory.wf (s.putScratch core addr bs).scratch = true := Memory.setN_wf h ..

theorem State.putAcc_wf {s : State} (h : Memory.wf s.acc = true) (part addr : Nat) (bs : List Byte) :
    Memory.wf (s.putAcc part addr bs).acc = true := Memory.setN_wf h ..

end Sys2Proof.Machine
end

