-- ==== Sys2Proof/Laws/Moves.lean ====
section
/-! SUPPORT. Changes of the lanes of the issue's warp, composed: what a state holds after several of them, said once for the
transfers, the waits and the ends of waits. -/

namespace Sys2Proof.Machine

/-- Only lanes of the issue's warp have changed, lane L into `g L`. -/
structure Lanewise (s t : State) (g : Nat → Lane) : Prop where
  rest : t = { s with warps := t.warps }
  only : s.LanesOnly t
  lanes : ∀ L, t.cl L = g L

namespace Lanewise
variable {s t u : State} {g f : Nat → Lane}

theorem refl (s : State) : Lanewise s s s.cl := ⟨rfl, ⟨rfl, fun _ _ => rfl, rfl⟩, fun _ => rfl⟩

theorem cur (h : Lanewise s t g) : t.cur = s.cur := h.only.1
theorem launches (h : Lanewise s t g) : t.launches = s.launches := by rw [h.rest]
theorem groups (h : Lanewise s t g) : t.groups = s.groups := by rw [h.rest]
theorem gang (h : Lanewise s t g) : t.gang = s.gang := by simp [State.gang, h.cur]

theorem trans (h : Lanewise s t g) (k : Lanewise t u f) : Lanewise s u f := by
  refine ⟨?_, ⟨k.cur.trans h.cur, fun j hj => ?_, ?_⟩, k.lanes⟩
  · rw [k.rest, h.rest]
  · rw [k.only.2.1 j (by rw [h.cur]; exact hj), h.only.2.1 j hj]
  · rw [k.only.2.2, h.only.2.2]

theorem congr (h : Lanewise s t g) (e : ∀ L, g L = f L) : Lanewise s t f := ⟨h.rest, h.only, fun L => (h.lanes L).trans (e L)⟩

/-- One lane changed. -/
theorem lane (s : State) (L : Nat) (f : Lane → Lane) :
    Lanewise s (s.updLane s.cur.wid L f) fun K => if K = L then f (s.cl L) else s.cl K := by
  refine ⟨rfl, ⟨rfl, fun j hj => State.warp_updLane_ne s L f hj, ?_⟩, fun K => ?_⟩
  · simp [State.cw, State.warp_updLane, Warp.setLane]
  · simp [State.cl, State.lane_updLane]

/-- Distinct lanes changed in one way. -/
theorem lanes' (s : State) (ls : List Nat) (hn : ls.Nodup) (f : Lane → Lane) :
    Lanewise s (s.updLanes s.cur.wid ls f) fun K => if K ∈ ls then f (s.cl K) else s.cl K := by
  refine ⟨State.updLanes_eq .., ⟨by simp, fun j hj => State.warp_updLanes_ne _ _ _ hj, ?_⟩, fun K => ?_⟩
  · have := State.warp_updLanes_own s s.cur.wid s.cur.wid ls f
    simp only [State.cw, State.updLanes_cur]
    rw [← this]
  · simp only [State.cl, State.updLanes_cur, State.lane_updLanes _ _ _ _ _ _ hn]
    simp

/-- Distinct lanes changed, each in its own way. -/
theorem fold (s : State) (ls : List Nat) (hn : ls.Nodup) (f : Nat → Lane → Lane) :
    Lanewise s (ls.foldl (fun t L => t.updLane s.cur.wid L (f L)) s) fun K => if K ∈ ls then f K (s.cl K) else s.cl K := by
  induction ls using List.reverseRecOn with
  | nil => exact (refl s).congr fun L => by simp
  | append_singleton ls L ih =>
    rw [List.nodup_append] at hn
    have h := ih hn.1
    have k := lane (ls.foldl (fun t L => t.updLane s.cur.wid L (f L)) s) L (f L)
    rw [h.cur] at k
    rw [List.foldl_append]
    refine (h.trans k).congr fun K => ?_
    have hL : L ∉ ls := fun hm => hn.2.2 L hm L (by simp) rfl
    rw [h.lanes, h.lanes]
    by_cases hK : K = L
    · subst hK; simp [hL]
    · simp [hK]

/-- Lanes that move on (R53). -/
theorem advance (s : State) (ls : List Nat) (hn : ls.Nodup) :
    Lanewise s (s.advance ls) fun K => if K ∈ ls then (s.cl K).moved else s.cl K := lanes' s ls hn _

theorem movesOn {ls : List Nat} (h : Lanewise s t fun K => if K ∈ ls then (s.cl K).moved else s.cl K) : s.MovesOn t ls :=
  ⟨h.only, h.lanes⟩

end Lanewise

end Sys2Proof.Machine
end

