-- ==== Sys2Proof/Tests/Slice0.lean ====
section
/-! SUPPORT. Tests: words written out from the encodings of spec/ decode to the instructions they stand for; terms and words that
R63 refuses; single steps against the spec's own worked values; and, for every obligation with hypotheses, a concrete state and
operands that meet them (witness_<obligation>). -/

namespace Sys2Proof.Tests
open Sys2Proof Machine

-- One evaluation at a time: the kernel's memory for many at once exceeds what the check allows.
set_option Elab.async false

/-! ### Words written out from the encodings (R46, R59 and the class tables) -/

theorem test_decode_integer :
    decode 0x800000000000000000000000#96 = .instr (.nop ⟨true, false, ⟨false, 0⟩⟩) ∧
    decode 0x1C04001FE000040080000000#96 = .instr (.mov ⟨false, false, ⟨false, 7⟩⟩ .i32 (.win 1) .imm 0x80000000) ∧
    decode 0x280800506470060000000000#96 = .instr (.add ⟨false, false, ⟨true, 2⟩⟩ .i64 (.win 5) (.win 6) (.sca 7) 0) ∧
    decode 0x5C0C04142FF0070000000009#96 = .instr (.sub ⟨false, true, ⟨false, 7⟩⟩ .n64 (.sca 1) (.sca 2) .immhi 9) ∧
    decode 0x1C1000001028310000000000#96 = .instr (.addc ⟨false, false, ⟨false, 7⟩⟩ .n8 (.win 0) (.win 1) (.win 2) 3 0) ∧
    decode 0x1C1400001028620000000000#96 = .instr (.subb ⟨false, false, ⟨false, 7⟩⟩ .i16 (.win 0) (.win 1) (.win 2) 6 0) ∧
    decode 0x1C1808BF1F20050000000000#96 = .instr (.mul ⟨false, false, ⟨false, 7⟩⟩ .n32 (.grp 3) .lane .wslot 0) ∧
    decode 0x1C1C0F0F3F40030000000000#96 = .instr (.mulh ⟨false, false, ⟨false, 7⟩⟩ .n16 .zero .core .pcv 0) ∧
    decode 0x1C2001F1E1D1C00000000000#96 = .instr (.mad ⟨false, false, ⟨false, 7⟩⟩ .i8 (.win 31) (.win 30) (.win 29) (.win 28) 0) ∧
    decode 0x1C240019CF00040000000000#96 = .instr (.div ⟨false, false, ⟨false, 7⟩⟩ .i32 (.win 1) (.tl 4) .zero 0) ∧
    decode 0x1C2800102030050000000000#96 = .instr (.rem ⟨false, false, ⟨false, 7⟩⟩ .n32 (.win 1) (.win 2) (.win 3) 0) ∧
    decode 0x1C2C00102030060000000000#96 = .instr (.min ⟨false, false, ⟨false, 7⟩⟩ .i64 (.win 1) (.win 2) (.win 3) 0) ∧
    decode 0x1C3000102030060000000000#96 = .instr (.max ⟨false, false, ⟨false, 7⟩⟩ .i64 (.win 1) (.win 2) (.win 3) 0) ∧
    decode 0x1C3400102000000000000000#96 = .instr (.abs ⟨false, false, ⟨false, 7⟩⟩ .i8 (.win 1) (.win 2) 0) := by decide

theorem test_decode_integer_2 :
    decode 0x1C3800102000020000000000#96 = .instr (.neg ⟨false, false, ⟨false, 7⟩⟩ .i16 (.win 1) (.win 2) 0) ∧
    decode 0x1C3C00102030070000000000#96 = .instr (.and ⟨false, false, ⟨false, 7⟩⟩ .n64 (.win 1) (.win 2) (.win 3) 0) ∧
    decode 0x1C4000102030070000000000#96 = .instr (.or ⟨false, false, ⟨false, 7⟩⟩ .n64 (.win 1) (.win 2) (.win 3) 0) ∧
    decode 0x1C4400102030070000000000#96 = .instr (.xor ⟨false, false, ⟨false, 7⟩⟩ .n64 (.win 1) (.win 2) (.win 3) 0) ∧
    decode 0x1C4800102030070000000000#96 = .instr (.andn ⟨false, false, ⟨false, 7⟩⟩ .n64 (.win 1) (.win 2) (.win 3) 0) ∧
    decode 0x1C4C00102000070000000000#96 = .instr (.not ⟨false, false, ⟨false, 7⟩⟩ .n64 (.win 1) (.win 2) 0) := by decide

theorem test_decode_shift :
    decode 0x1C5000102FE007000000003F#96 = .instr (.shl ⟨false, false, ⟨false, 7⟩⟩ .n64 (.win 1) (.win 2) .imm 63) ∧
    decode 0x1C5400102030050000000000#96 = .instr (.shr ⟨false, false, ⟨false, 7⟩⟩ .n32 (.win 1) (.win 2) (.win 3) 0) ∧
    decode 0x1C5800102030040000000000#96 = .instr (.sar ⟨false, false, ⟨false, 7⟩⟩ .i32 (.win 1) (.win 2) (.win 3) 0) ∧
    decode 0x1C5C00102030050000000000#96 = .instr (.rotL ⟨false, false, ⟨false, 7⟩⟩ .n32 (.win 1) (.win 2) (.win 3) 0) ∧
    decode 0x1C5C10102030050000000000#96 = .instr (.rotR ⟨false, false, ⟨false, 7⟩⟩ .n32 (.win 1) (.win 2) (.win 3) 0) ∧
    decode 0x1C6000102030060000000000#96 = .instr (.bfx ⟨false, false, ⟨false, 7⟩⟩ .i64 (.win 1) (.win 2) (.win 3) 0) ∧
    decode 0x1C6400102030460000000000#96 = .instr (.bfi ⟨false, false, ⟨false, 7⟩⟩ .i64 (.win 1) (.win 2) (.win 3) (.win 4) 0) ∧
    decode 0x1C6800102000070000000000#96 = .instr (.popc ⟨false, false, ⟨false, 7⟩⟩ .n64 (.win 1) (.win 2) 0) ∧
    decode 0x1C6C00102000070000000000#96 = .instr (.clz ⟨false, false, ⟨false, 7⟩⟩ .n64 (.win 1) (.win 2) 0) ∧
    decode 0x1C7000102000070000000000#96 = .instr (.ctz ⟨false, false, ⟨false, 7⟩⟩ .n64 (.win 1) (.win 2) 0) ∧
    decode 0x1C7400102000070000000000#96 = .instr (.brev ⟨false, false, ⟨false, 7⟩⟩ .n64 (.win 1) (.win 2) 0) ∧
    decode 0x1C7838102030040000000000#96 = .instr (.cmp ⟨false, false, ⟨false, 7⟩⟩ .le .i32 (.pred 1) (.win 2) (.win 3) 0) ∧
    decode 0x1C7C00102038460000000000#96 = .instr (.sel ⟨false, false, ⟨false, 7⟩⟩ .i64 (.win 1) (.win 2) (.win 3) 4 0) ∧
    decode 0x1C80001000000000FFFFFFC1#96 = .instr (.lea ⟨false, false, ⟨false, 7⟩⟩ (.win 1) 0xFFFFFFC1) := by decide

theorem test_decode_shift_2 :
    decode 0x1C8400102030060000000000#96 = .instr (.ext ⟨false, false, ⟨false, 7⟩⟩ .i64 (.win 1) (.win 2) (.win 3) 0) ∧
    decode 0x1C880010203FE60000000005#96 = .instr (.clamp ⟨false, false, ⟨false, 7⟩⟩ .i64 (.win 1) (.win 2) (.win 3) .imm 5) ∧
    decode 0x1C8C00102030050000000000#96 = .instr (.mulw ⟨false, false, ⟨false, 7⟩⟩ .n32 (.win 1) (.win 2) (.win 3) 0) ∧
    decode 0x1C9000102030400000000000#96 = .instr (.prmt ⟨false, false, ⟨false, 7⟩⟩ (.win 1) (.win 2) (.win 3) (.win 4) 0) ∧
    decode 0x1C9400102030050000000000#96 = .instr (.hmix ⟨false, false, ⟨false, 7⟩⟩ (.win 1) (.win 2) (.win 3) 0) ∧
    decode 0x1C9858182870000000000000#96 = .instr (.plog ⟨false, false, ⟨false, 7⟩⟩ .xnor 1 2 7) ∧
    decode 0x1C9C00100000000000000000#96 = .instr (.pmovGet ⟨false, false, ⟨false, 7⟩⟩ (.win 1)) ∧
    decode 0x1C9C100FE000000000000055#96 = .instr (.pmovSet ⟨false, false, ⟨false, 7⟩⟩ .imm 0x55) := by decide

theorem test_decode_float :
    decode 0x1CA00010203008A000000000#96 = .instr (.fadd ⟨false, false, ⟨false, 7⟩⟩ .f64 .dyn (.win 1) (.win 2) (.win 3) 0) ∧
    decode 0x1CA400102030092000000000#96 = .instr (.fsub ⟨false, false, ⟨false, 7⟩⟩ .f32 .rtz (.win 1) (.win 2) (.win 3) 0) ∧
    decode 0x1CA8001020300A4000000000#96 = .instr (.fmul ⟨false, false, ⟨false, 7⟩⟩ .h4 .rup (.win 1) (.win 2) (.win 3) 0) ∧
    decode 0x1CAC001020304B6000000000#96 = .instr (.ffma ⟨false, false, ⟨false, 7⟩⟩ .b4 .rdn (.win 1) (.win 2) (.win 3) (.win 4) 0) ∧
    decode 0x1CB000102030080000000000#96 = .instr (.fmin ⟨false, false, ⟨false, 7⟩⟩ .f64 (.win 1) (.win 2) (.win 3) 0) ∧
    decode 0x1CB400102030080000000000#96 = .instr (.fmax ⟨false, false, ⟨false, 7⟩⟩ .f64 (.win 1) (.win 2) (.win 3) 0) ∧
    decode 0x1CB800102000090000000000#96 = .instr (.fabs ⟨false, false, ⟨false, 7⟩⟩ .f32 (.win 1) (.win 2) 0) ∧
    decode 0x1CBC00102000090000000000#96 = .instr (.fneg ⟨false, false, ⟨false, 7⟩⟩ .f32 (.win 1) (.win 2) 0) ∧
    decode 0x1CC068102030090000000000#96 = .instr (.fcmp ⟨false, false, ⟨false, 7⟩⟩ .un .f32 (.pred 1) (.win 2) (.win 3) 0) ∧
    decode 0x1CC400102000090000000000#96 = .instr (.fclass ⟨false, false, ⟨false, 7⟩⟩ .f32 (.win 1) (.win 2) 0) ∧
    decode 0x1CC800102030098000000000#96 = .instr (.fdiv ⟨false, false, ⟨false, 7⟩⟩ .f32 .rna (.win 1) (.win 2) (.win 3) 0) ∧
    decode 0x1CCC00102000090000000000#96 = .instr (.fsqrt ⟨false, false, ⟨false, 7⟩⟩ .f32 .rne (.win 1) (.win 2) 0) ∧
    decode 0x1CD000102000090000000000#96 = .instr (.frcp ⟨false, false, ⟨false, 7⟩⟩ .f32 (.win 1) (.win 2) 0) ∧
    decode 0x1CD400102000090000000000#96 = .instr (.frsq ⟨false, false, ⟨false, 7⟩⟩ .f32 (.win 1) (.win 2) 0) := by decide

theorem test_decode_float_2 :
    decode 0x1CD800102000090000000000#96 = .instr (.fexp2 ⟨false, false, ⟨false, 7⟩⟩ .f32 (.win 1) (.win 2) 0) ∧
    decode 0x1CDC00102000090000000000#96 = .instr (.flog2 ⟨false, false, ⟨false, 7⟩⟩ .f32 (.win 1) (.win 2) 0) ∧
    decode 0x1CE0901020100A0000000003#96 = .instr (.fcvt ⟨false, false, ⟨false, 7⟩⟩ .f32 .h4 .rne (.win 1) (.win 2) (.win 1) 3) ∧
    decode 0x1CE480102000042000000000#96 = .instr (.ftoi ⟨false, false, ⟨false, 7⟩⟩ .f64 .i32 .rtz (.win 1) (.win 2) 0) ∧
    decode 0x1CE850102000090000000000#96 = .instr (.itof ⟨false, false, ⟨false, 7⟩⟩ .n32 .f32 .rne (.win 1) (.win 2) 0) ∧
    decode 0x1CEC00102000094000000000#96 = .instr (.frnd ⟨false, false, ⟨false, 7⟩⟩ .f32 .rup (.win 1) (.win 2) 0) ∧
    decode 0x1CF000102030090000000000#96 = .instr (.fscl ⟨false, false, ⟨false, 7⟩⟩ .f32 .rne (.win 1) (.win 2) (.win 3) 0) ∧
    decode 0x1CF4001020304A0000000000#96 = .instr (.fdot ⟨false, false, ⟨false, 7⟩⟩ .h4 .rne (.win 1) (.win 2) (.win 3) (.win 4) 0) ∧
    decode 0x1CF820102030080000000000#96 = .instr (.fcps ⟨false, false, ⟨false, 7⟩⟩ .xsgn .f64 (.win 1) (.win 2) (.win 3) 0) := by decide

theorem test_decode_control :
    decode 0x1D2000000000000000000042#96 = .instr (.bra ⟨false, false, ⟨false, 7⟩⟩ 0x42) ∧
    decode 0x1D2400049000000000000000#96 = .instr (.brx ⟨false, false, ⟨false, 7⟩⟩ (.sca 9)) ∧
    decode 0x1D28000000000000FFFFFFF8#96 = .instr (.call ⟨false, false, ⟨false, 7⟩⟩ 0xFFFFFFF8) ∧
    decode 0x1D2C00009000000000000000#96 = .instr (.callx ⟨false, false, ⟨false, 7⟩⟩ (.win 9)) ∧
    decode 0x1D3000000000000000000000#96 = .instr (.ret ⟨false, false, ⟨false, 7⟩⟩) ∧
    decode 0x053400000000000000000000#96 = .instr (.exit ⟨false, false, ⟨false, 1⟩⟩) ∧
    decode 0x1D3800000000000000000103#96 = .instr (.barHold ⟨false, false, ⟨false, 7⟩⟩ 3 32) ∧
    decode 0x1D381000000000000000000F#96 = .instr (.barPass ⟨false, false, ⟨false, 7⟩⟩ 7 1) ∧
    decode 0x1D3C081B741FE00000000007#96 = .instr (.cvarm ⟨false, false, ⟨false, 7⟩⟩ 1 15 (.sca 1) .imm 7) ∧
    decode 0x1D40082ABF00000000000000#96 = .instr (.cvsign ⟨false, false, ⟨false, 7⟩⟩ 2 3 .zero 0) ∧
    decode 0x1D44002AB000000000000000#96 = .instr (.cvwait ⟨false, false, ⟨false, 7⟩⟩ (.win 2) 3) ∧
    decode 0x1D4800000000000000000000#96 = .instr (.yield ⟨false, false, ⟨false, 7⟩⟩) ∧
    decode 0x1D4C00000000000000000000#96 = .instr (.wspill ⟨false, false, ⟨false, 7⟩⟩) ∧
    decode 0x1D5000000000000000000000#96 = .instr (.wfill ⟨false, false, ⟨false, 7⟩⟩) := by decide

theorem test_decode_lanes :
    decode 0x1D603010203FE0000000001F#96 = .instr (.shfl ⟨false, false, ⟨false, 7⟩⟩ .xor (.win 1) (.win 2) (.win 3) .imm 31) ∧
    decode 0x1D6400118030000000000000#96 = .instr (.shfx ⟨false, false, ⟨false, 7⟩⟩ (.win 1) 24 (.win 3) 0) ∧
    decode 0x5D6804102430000000000000#96 = .instr (.bcast ⟨false, true, ⟨false, 7⟩⟩ (.sca 1) (.win 2) (.sca 3) 0) ∧
    decode 0x1D6C18182000000000000000#96 = .instr (.vote ⟨false, false, ⟨false, 7⟩⟩ .some (.pred 1) 2) ∧
    decode 0x1D7000182000000000000000#96 = .instr (.ballot ⟨false, false, ⟨false, 7⟩⟩ (.win 1) 2) ∧
    decode 0x1D7400102438400000000000#96 = .instr (.bpcnt ⟨false, false, ⟨false, 7⟩⟩ (.win 1) (.win 2) (.sca 3) 4 0) ∧
    decode 0x1D7860102000090000000000#96 = .instr (.reduce ⟨false, false, ⟨false, 7⟩⟩ .fadd .f32 (.win 1) (.win 2) 0) ∧
    decode 0x1D7C20102000040000000000#96 = .instr (.scan ⟨false, false, ⟨false, 7⟩⟩ .max .i32 (.win 1) (.win 2) 0) ∧
    decode 0x1D7D50102000070000000000#96 = .instr (.scanEx ⟨false, false, ⟨false, 7⟩⟩ .xor .n64 (.win 1) (.win 2) 0) := by decide

theorem test_decode_memory :
    decode 0x1D8000102F00060300000010#96 = .instr (.ld ⟨false, false, ⟨false, 7⟩⟩ .i64 3 (.win 1) (.win 2) .zero 0x10) ∧
    decode 0x1D8400042030490200000000#96 = .instr (.st ⟨false, false, ⟨false, 7⟩⟩ .f32 2 (.sca 2) (.win 3) (.win 4) 0) ∧
    decode 0x1D8800102F000B0000000000#96 = .instr (.ldl ⟨false, false, ⟨false, 7⟩⟩ .b4 0 (.win 1) (.win 2) .zero 0) ∧
    decode 0x1D8C00002F0F0A0000000000#96 = .instr (.stp ⟨false, false, ⟨false, 7⟩⟩ .h4 0 (.win 2) .zero .zero 0) ∧
    decode 0x1D9000102F00000000000000#96 = .instr (.lds ⟨false, false, ⟨false, 7⟩⟩ .i8 0 (.win 1) (.win 2) .zero 0) ∧
    decode 0x1D9400002F00110000000000#96 = .instr (.sts ⟨false, false, ⟨false, 7⟩⟩ .n8 0 (.win 2) .zero (.win 1) 0) ∧
    decode 0x1D9801802F00000100000000#96 = .instr (.ldln ⟨false, false, ⟨false, 7⟩⟩ 1 24 (.win 2) .zero 0) ∧
    decode 0x1D9C00102F00090000000000#96 = .instr (.lda ⟨false, false, ⟨false, 7⟩⟩ .f32 0 (.win 1) (.win 2) .zero 0) ∧
    decode 0x1DA000002F00180000000000#96 = .instr (.sta ⟨false, false, ⟨false, 7⟩⟩ .f64 0 (.win 2) .zero (.win 1) 0) ∧
    decode 0x1DA404100000000000000007#96 = .instr (.cbget ⟨false, false, ⟨false, 7⟩⟩ (.sca 1) 7) ∧
    decode 0x1DA800000000000000000003#96 = .instr (.cbfree ⟨false, false, ⟨false, 7⟩⟩ 3) ∧
    decode 0x1DAC00002F00000000000008#96 = .instr (.migr ⟨false, false, ⟨false, 7⟩⟩ 0 (.win 2) .zero 8) ∧
    decode 0x1DB000102F00000000000000#96 = .instr (.home ⟨false, false, ⟨false, 7⟩⟩ 0 (.win 1) (.win 2) .zero 0) ∧
    decode 0x1DB400002030000000000000#96 = .instr (.pfl ⟨false, false, ⟨false, 7⟩⟩ 0 (.win 2) (.win 3) 0) := by decide

theorem test_decode_memory_2 :
    decode 0x1DB800000000001400000000#96 = .instr (.fence ⟨false, false, ⟨false, 7⟩⟩ .package) ∧
    decode 0x1DBC00002F00360000000ABC#96 = .instr (.stf ⟨false, false, ⟨false, 7⟩⟩ .i64 0 (.win 2) .zero (.win 3) 0xABC) ∧
    decode 0x1DC001F02F00370000000000#96 = .instr (.mwait ⟨false, false, ⟨false, 7⟩⟩ .n64 0 31 (.win 2) .zero (.win 3) 0) ∧
    decode 0x1DC4000A7FE0000000000004#96 = .instr (.tlwait ⟨false, false, ⟨false, 7⟩⟩ 15 .imm 4) ∧
    decode 0x1DC80019A000000000000002#96 = .instr (.tlread ⟨false, false, ⟨false, 7⟩⟩ (.win 1) 2 2) ∧
    decode 0x1DCC00002F0180000000003D#96 = .instr (.tsto ⟨false, false, ⟨false, 7⟩⟩ 5 7 (.win 2) .zero 24) ∧
    decode 0x1DD001E02F0000000000000A#96 = .instr (.tlod ⟨false, false, ⟨false, 7⟩⟩ 2 1 30 (.win 2) .zero) := by decide

theorem test_decode_spawn :
    decode 0x1DE090102F00381B00000000#96 = .instr (.atom ⟨false, false, ⟨false, 7⟩⟩ .fadd .f64 .system 3 (.win 1) (.win 2) .zero (.win 3) 0) ∧
    decode 0x1DE400102F00371000000000#96 = .instr (.cas ⟨false, false, ⟨false, 7⟩⟩ .n64 .die 0 (.win 1) (.win 2) .zero (.win 3) 0) ∧
    decode 0x1DE880002F00350C00000000#96 = .instr (.red ⟨false, false, ⟨false, 7⟩⟩ .dec .n32 .cluster 0 (.win 2) .zero (.win 3) 0) ∧
    decode 0x1DEC60102F00340000000000#96 = .instr (.atoms ⟨false, false, ⟨false, 7⟩⟩ .exch .i32 0 (.win 1) (.win 2) .zero (.win 3) 0) ∧
    decode 0x1DF000102F00360000000000#96 = .instr (.cass ⟨false, false, ⟨false, 7⟩⟩ .i64 0 (.win 1) (.win 2) .zero (.win 3) 0) ∧
    decode 0x1DF400001020300000000077#96 = .instr (.spawn ⟨false, false, ⟨false, 7⟩⟩ (.win 1) (.win 2) (.win 3) 0x77) ∧
    decode 0x1DF800001F04300000000077#96 = .instr (.spawna ⟨false, false, ⟨false, 7⟩⟩ (.win 1) .zero (.sca 3) 0x77) ∧
    decode 0x1DFC0000002F000000000077#96 = .instr (.spawnd ⟨false, false, ⟨false, 7⟩⟩ (.win 2) .zero 0x77) ∧
    decode 0x1E0000001020000000000001#96 = .instr (.record ⟨false, false, ⟨false, 7⟩⟩ (.win 1) 2 true) ∧
    decode 0x1E04000010000000000001FE#96 = .instr (.cflush ⟨false, false, ⟨false, 7⟩⟩ (.win 1) true 0xFE) ∧
    decode 0x1E0800401F0F000000000000#96 = .instr (.ccwait ⟨false, false, ⟨false, 7⟩⟩ (.win 4) (.win 1) .zero .zero 0) ∧
    decode 0x1E0C08102000000000000000#96 = .instr (.cancelLaunch ⟨false, false, ⟨false, 7⟩⟩ 1 (.win 2)) ∧
    decode 0x1E0C18102000000000000000#96 = .instr (.cancelGraph ⟨false, false, ⟨false, 7⟩⟩ 1 (.win 2)) ∧
    decode 0x1E0C28102000000000000000#96 = .instr (.cancelJob ⟨false, false, ⟨false, 7⟩⟩ 1 (.win 2)) := by decide

theorem test_decode_engine :
    decode 0x5E20081789B0000000000002#96 = .instr (.push ⟨false, true, ⟨false, 7⟩⟩ 1 (.sca 56) (some 3) .disp) ∧
    decode 0x1E2008118F00000000000001#96 = .instr (.push ⟨false, false, ⟨false, 7⟩⟩ 1 (.win 24) none .cond) ∧
    decode 0x1E2400000000000000000000#96 = .instr (.rcfence ⟨false, false, ⟨false, 7⟩⟩) ∧
    decode 0x1E280019B0200000000000F2#96 = .instr (.engq ⟨false, false, ⟨false, 7⟩⟩ (.win 1) 3 (.win 2) 2 15) ∧
    decode 0x1E40000410000A0000000000#96 = .instr (.mls ⟨false, false, ⟨false, 7⟩⟩ .f16 (.sca 1) 0) ∧
    decode 0x1E4400000000000000000000#96 = .instr (.mswap ⟨false, false, ⟨false, 7⟩⟩) ∧
    decode 0x1E4B100AA41FE00000000003#96 = .instr (.mma ⟨false, false, ⟨false, 7⟩⟩ (.bfp 48) (some 2) (.sca 1) .imm 3) ∧
    decode 0x1E4C07DF0414280000000000#96 = .instr (.mmas ⟨false, false, ⟨false, 7⟩⟩ .f64 61 none (.sca 1) (.sca 2) 0) ∧
    decode 0x1E5000041000000000000000#96 = .instr (.mza ⟨false, false, ⟨false, 7⟩⟩ (.sca 1) 0) ∧
    decode 0x1E5400100000000000000002#96 = .instr (.mstat ⟨false, false, ⟨false, 7⟩⟩ (.win 1) 2) ∧
    decode 0x1E5800178000000000000000#96 = .instr (.mcond ⟨false, false, ⟨false, 7⟩⟩ (.win 1) 56) := by decide

theorem test_decode_system :
    decode 0x1E8000102000000000000000#96 = .instr (.launch ⟨false, false, ⟨false, 7⟩⟩ (.win 1) (.win 2)) ∧
    decode 0x1E8400100000000000000000#96 = .instr (.time ⟨false, false, ⟨false, 7⟩⟩ (.win 1)) ∧
    decode 0x1E88000FE000000000000064#96 = .instr (.sleep ⟨false, false, ⟨false, 7⟩⟩ .imm 100) ∧
    decode 0x1E8C00100000000000000000#96 = .instr (.budget ⟨false, false, ⟨false, 7⟩⟩ (.win 1)) ∧
    decode 0x1E9000102000000000000003#96 = .instr (.lstat ⟨false, false, ⟨false, 7⟩⟩ (.win 1) (.win 2) 3) ∧
    decode 0x1EC000000000000012345678#96 = .instr (.trap ⟨false, false, ⟨false, 7⟩⟩ 0x12345678) ∧
    decode 0x1EC400000000000000000000#96 = .instr (.rett ⟨false, false, ⟨false, 7⟩⟩) ∧
    decode 0x1EC800100000000000000013#96 = .instr (.krd ⟨false, false, ⟨false, 7⟩⟩ (.win 1) 0x13) ∧
    decode 0x1ECC00001000000000000010#96 = .instr (.kwr ⟨false, false, ⟨false, 7⟩⟩ (.win 1) 0x10) ∧
    decode 0x1ED000001000001400000001#96 = .instr (.tlbinv ⟨false, false, ⟨false, 7⟩⟩ .package (.win 1) true) ∧
    decode 0x1ED400000000000000000001#96 = .instr (.brk ⟨false, false, ⟨false, 7⟩⟩ 1) ∧
    decode 0x1ED800001000000000000000#96 = .instr (.trace ⟨false, false, ⟨false, 7⟩⟩ (.win 1) 0) ∧
    decode 0x1EDC00000000000000000000#96 = .instr (.halt ⟨false, false, ⟨false, 7⟩⟩) ∧
    decode 0x1EE000041000000000000000#96 = .instr (.ctxsave ⟨false, false, ⟨false, 7⟩⟩ (.sca 1) 0) := by decide

theorem test_decode_system_2 :
    decode 0x1EE408141000000000000000#96 = .instr (.ctxrest ⟨false, false, ⟨false, 7⟩⟩ 1 (.sca 1) 0) := by decide

/-! ### Small states -/

/-- A plain head: no S, no U, guard p7. -/
def h0 : Head := ⟨false, false, ⟨false, 7⟩⟩

/-- A leaf over one 64 KiB page that maps it to itself, with the low bits of its entry. -/
def leafOf (page bits : Nat) : Leaf := ⟨3, BitVec.ofNat 64 (65536 * page + bits)⟩

/-- The leaf of the page tables of `base`: the first 256 MiB mapped to themselves, readable, writable, executable. -/
def wide : Leaf := ⟨2, 0x1F⟩

/-- Memory: a line of five NOPs at 0x10000 whose slot 0 is a target, eight bytes at 0x20000, the page tables at 0x800000. -/
def mem0 : Tab Byte :=
  [(0x1003D, 0x80), (0x1003F, 0x80), (0x20000, 1), (0x20001, 2), (0x20007, 8), (0x800000, 1), (0x800002, 0x81),
    (0x810000, 1), (0x810002, 0x82), (0x820000, 0x1F)]

/-- A launch that runs, with a program at 0x10000. -/
def launch0 : Launch :=
  { live := true, st := .running, units := 1, total := 1, placed := 1, created := true, dl := 2 ^ 63, budget := 2 ^ 32,
    r := { warps := 1, scratch := 4096, frame := 32, entry := 0x10000, traph := 0x10000, suph := 0x10000, save := 0x100000,
           grid := 1, maxlive := 8, cc := 0x50000 } }

/-- Core 0 with one warp, key 1, of two ready threads in a workgroup, key 2, of launch 4; pages 1 and 2 may be read, written and
executed, page 3 lets STF through, page 4 may only be read, page 6 holds blocks; s1 to s6 hold addresses and small numbers.  The
warp issues. -/
def base : State :=
  { State.reset with
    serial := 20
    mem := mem0
    domains := [(0, { root := 0x800000, rsave := 0x200000 })]
    tlb := [⟨0, 0, 1, leafOf 1 0x1F⟩, ⟨0, 0, 2, leafOf 2 0x1F⟩, ⟨0, 0, 3, leafOf 3 0x41F⟩, ⟨0, 0, 4, leafOf 4 0x05⟩,
      ⟨0, 0, 6, leafOf 6 (3 * 2 ^ 52 + 0x1F)⟩]
    warps := [(1, { live := true, launch := 4, group := 2,
                    sregs := [(1, 0x20000), (2, 0x30000), (3, 0x40000), (4, 64), (5, 2), (6, 0x60000), (7, 0x10000)],
                    lanes := [(0, { tid := 10, st := .ready, pc := 0x10000 }), (1, { tid := 11, st := .ready, pc := 0x10000 })] })]
    groups := [(2, { live := true, launch := 4, warps := [1], ssize := 4096 })]
    launches := [(4, launch0)]
    cur := { wid := 1, pc := 0x10000, a1 := 3, origpc := 0x10000, gang := 10, serial := 10 } }

/-- `base` with its lanes changed. -/
def lanesAre (f : Lane → Lane) : State := base.updLanes 1 [0, 1] f

theorem lane_base (L : Nat) (h : 2 ≤ L) : base.cl L = {} := by
  have h0 : ¬0 = L := by omega
  have h1 : ¬1 = L := by omega
  simp [State.cl, State.lane, State.warp, Warp.lane, base, Tab.get, h0, h1]

/-- The state after an instruction. -/
def after (i : Instr) (s : State) : State :=
  match exec i s with
  | .next t => t
  | _ => s

/-! ### What the decoder and `Instr.wf` refuse (R63) -/

/-- 0x02: reserved major opcodes (R60). -/
theorem test_refuse_reserved_opcode :
    decode 0x1CFC00000000000000000000#96 = .illegal 0x02#8 ∧
    decode 0x1D5400000000000000000000#96 = .illegal 0x02#8 ∧
    decode 0x1DD400000000000000000000#96 = .illegal 0x02#8 ∧
    decode 0x1E2C00000000000000000000#96 = .illegal 0x02#8 ∧
    decode 0x1FF800000000000000000000#96 = .illegal 0x02#8 := by decide

/-- 0x03: ADD has no FN 1, CMP no FN 6, SCAN no FN 9, MMA no FN 50 (R59, R61). -/
theorem test_refuse_unassigned_fn :
    decode 0x1C0810301020040000000000#96 = .illegal 0x03#8 ∧
    decode 0x1C7868102030040000000000#96 = .illegal 0x03#8 ∧
    decode 0x1D7C90102000040000000000#96 = .illegal 0x03#8 ∧
    decode 0x1E4B20000000000000000000#96 = .illegal 0x03#8 := by decide

/-- 0x04: TY 0xC; ADD with a floating-point type; XS, SC or RM where they are not used; RM 6; SC 7; FCVT from its own type; MULW with I64; HMIX with I32; REDUCE.ADD of F32 (R47, R59). -/
theorem test_refuse_type_fields :
    decode 0x1C08003010200C0000000000#96 = .illegal 0x04#8 ∧
    decode 0x1C0800301020080000000000#96 = .illegal 0x04#8 ∧
    decode 0x1C0800301020040100000000#96 = .illegal 0x04#8 ∧
    decode 0x1C0800301020040400000000#96 = .illegal 0x04#8 ∧
    decode 0x1C0800301020042000000000#96 = .illegal 0x04#8 ∧
    decode 0x1CA00010203008C000000000#96 = .illegal 0x04#8 ∧
    decode 0x1DB800000000001C00000000#96 = .illegal 0x04#8 ∧
    decode 0x1CE090102000090000000000#96 = .illegal 0x04#8 ∧
    decode 0x1C8C00102030060000000000#96 = .illegal 0x04#8 ∧
    decode 0x1C9400102030040000000000#96 = .illegal 0x04#8 ∧
    decode 0x1D7800603000090000000000#96 = .illegal 0x04#8 := by decide

/-- 0x05: the reserved specifiers 0x20 and 0xB8; LANE, IMM or a predicate as a destination; a predicate as a source; a window register where U is 1 (R49, R52, R54); CVSIGN with 0x04 in B. -/
theorem test_refuse_specifiers :
    decode 0x1C0802001020040000000000#96 = .illegal 0x05#8 ∧
    decode 0x1C08001B8020040000000000#96 = .illegal 0x05#8 ∧
    decode 0x1C080F101020040000000000#96 = .illegal 0x05#8 ∧
    decode 0x1C080FE01020040000000000#96 = .illegal 0x05#8 ∧
    decode 0x1C0808101020040000000000#96 = .illegal 0x05#8 ∧
    decode 0x1C0800181020040000000000#96 = .illegal 0x05#8 ∧
    decode 0x5C0804141020040000000000#96 = .illegal 0x05#8 ∧
    decode 0x1D40081AB040000000000000#96 = .illegal 0x05#8 := by decide

/-- 0x06: a C that ADD does not use; an IMM that no operand names; U on EXIT; bit 94 and a count out of BAR (R50, R51, R63, R168). -/
theorem test_refuse_unused_fields :
    decode 0x1C0800301020140000000000#96 = .illegal 0x06#8 ∧
    decode 0x1C0800301020040000000001#96 = .illegal 0x06#8 ∧
    decode 0x5D3400000000000000000000#96 = .illegal 0x06#8 ∧
    decode 0x1D380000000000000000010A#96 = .illegal 0x06#8 ∧
    decode 0x5D3800000000000000000022#96 = .illegal 0x06#8 := by decide

/-- The all-zero word is NOP with guard p0 and the all-ones word is BRK: neither is refused (R64, R65). -/
theorem test_blank_words :
    decode 0#96 = .instr (.nop ⟨false, false, ⟨false, 0⟩⟩) ∧
    decode 0xFFFFFFFFFFFFFFFFFFFFFFFF#96 = .instr (.brk ⟨true, false, ⟨false, 7⟩⟩ 0xFFFFFFFF) := by decide

/-- Terms whose words the checks above refuse are not well formed: a type, a specifier, an immediate that no operand names and a
U bit that the instruction does not take. -/
theorem test_wf_words :
    (Instr.add h0 .f32 (.win 3) (.win 1) (.win 2) 0).wf = false ∧ (Instr.add h0 .i32 .lane (.win 1) (.win 2) 0).wf = false ∧
    (Instr.add h0 .i32 (.win 3) (.pred 1) (.win 2) 0).wf = false ∧ (Instr.add h0 .i32 (.win 3) (.win 1) (.win 2) 1).wf = false ∧
    (Instr.exit { h0 with u := true }).wf = false ∧ (Instr.mulw h0 .i64 (.win 1) (.win 2) (.win 3) 0).wf = false ∧
    (Instr.fcvt h0 .f32 .f32 .rne (.win 1) (.win 2) .zero 0).wf = false ∧ (Instr.hmix h0 (.pred 1) (.win 1) (.win 2) 0).wf = false := by
  decide

/-- Events outside the device are not well formed: core 384, cluster 24, domain 128, function 65, launch 4096, die 4, port 8, an
offset of BAR0 that is not a multiple of 8, bytes past the aperture's window, the held list 0. -/
theorem test_wf_events :
    (Instr.tload 384).wf = false ∧ (Instr.stealStart 24).wf = false ∧ (Instr.engineStep .disp 24).wf = false ∧
    (Instr.engineStep .copy 384).wf = false ∧ (Instr.fanswer 128).wf = false ∧ (Instr.ownerWrite true 65 0 0).wf = false ∧
    (Instr.ringTailWrite true 0 0 7 0).wf = false ∧ (Instr.deadlineMiss 4096).wf = false ∧ (Instr.fwTakeover 4).wf = false ∧
    (Instr.uePortChange 8 true).wf = false ∧ (Instr.registerWrite true 0 4 0).wf = false ∧
    (Instr.apertureRead true 0 0xFFFFFFFF 8).wf = false ∧ (Instr.heldEntryWrite 0 0).wf = false ∧
    (Instr.functionLevelReset true 65).wf = false ∧ (Instr.ucieModuleFail 4 0).wf = false := by decide

/-- Their neighbours inside the device are. -/
theorem test_wf_events_inside :
    (Instr.tload 383).wf = true ∧ (Instr.stealStart 23).wf = true ∧ (Instr.fanswer 127).wf = true ∧
    (Instr.deadlineMiss 4095).wf = true ∧ (Instr.registerWrite true 0 8 0).wf = true := by decide

/-! ### One step on fixed values: the spec's own worked values -/

/-- `base` whose two lanes hold these window registers. -/
def holding (rs : Tab Word) : State := lanesAre fun l => { l with regs := rs }

/-- A window register of lane 0 after an instruction. -/
def wAfter (i : Instr) (s : State) (k : Fin 32) : Word := ((after i s).cl 0).win k.val

/-- R82's example: ADD.I32 of 0x7FFF_FFFF and 1 writes 0xFFFF_FFFF_8000_0000, ADD.N32 writes 0x0000_0000_8000_0000. -/
theorem test_add :
    wAfter (.add h0 .i32 (.win 3) (.win 1) .imm 1) (holding [(1, 0x7FFFFFFF)]) 3 = 0xFFFFFFFF80000000 ∧
    wAfter (.add h0 .n32 (.win 3) (.win 1) .imm 1) (holding [(1, 0x7FFFFFFF)]) 3 = 0x80000000 := by decide

/-- R89: MULW.I32 of −1 and 3 writes 0xFFFF_FFFF_FFFF_FFFD, MULW.N32 writes 0x0000_0002_FFFF_FFFD. -/
theorem test_mulw :
    wAfter (.mulw h0 .i32 (.win 3) (.win 1) .imm 3) (holding [(1, 0xFFFFFFFF)]) 3 = 0xFFFFFFFFFFFFFFFD ∧
    wAfter (.mulw h0 .n32 (.win 3) (.win 1) .imm 3) (holding [(1, 0xFFFFFFFF)]) 3 = 0x2FFFFFFFD := by decide

/-- The worked BFX: 0x0F30 with position 4 and length 8 (R94). -/
theorem test_bfx :
    wAfter (.bfx h0 .i32 (.win 1) (.win 2) .imm 0x0804) (holding [(2, 0x0F30)]) 1 = 0xFFFFFFFFFFFFFFF3 ∧
    wAfter (.bfx h0 .n32 (.win 1) (.win 2) .imm 0x0804) (holding [(2, 0x0F30)]) 1 = 0xF3 := by decide

/-- PRMT's worked selectors: 0x0123_4567 reverses the bytes of a, 0xFEDC_BA98 copies b (R98). -/
theorem test_prmt :
    wAfter (.prmt h0 (.win 1) (.win 2) (.win 3) .imm 0x01234567) (holding [(2, 0x1122334455667788), (3, 9)]) 1 =
      0x8877665544332211 ∧
    wAfter (.prmt h0 (.win 1) (.win 2) (.win 3) .imm 0xFEDCBA98) (holding [(2, 7), (3, 0x1122334455667788)]) 1 =
      0x1122334455667788 := by decide

/-- The worked HMIX: key 1, seed 0 (R100). -/
theorem test_hmix : wAfter (.hmix h0 (.win 1) (.win 2) (.win 3) 0) (holding [(2, 1), (3, 0)]) 1 = 0x309D0683 := by decide

/-- The worked rounding: FMUL ties to even and raises NX; FADD gives +0; FFMA rounds once. -/
theorem test_float_rounding :
    (let t := after (.fmul h0 .f32 .rne (.win 4) (.win 1) (.win 2) 0) (holding [(1, 0x3F800800), (2, 0x3F800800), (3, 0xBF801000)])
     (t.cl 0).win 4 = 0x3F801000 ∧ (t.cl 0).fstat = 1) ∧
    wAfter (.fadd h0 .f32 .rne (.win 5) (.win 4) (.win 3) 0) (holding [(4, 0x3F801000), (3, 0xBF801000)]) 5 = 0 ∧
    (let t := after (.ffma h0 .f32 .rne (.win 6) (.win 1) (.win 2) (.win 3) 0)
       (holding [(1, 0x3F800800), (2, 0x3F800800), (3, 0xBF801000)])
     (t.cl 0).win 6 = 0x33800000 ∧ (t.cl 0).fstat = 0) := by decide

/-- FADD.F32.DYN with FMODE.RM 3 gives −0. -/
theorem test_float_dyn :
    wAfter (.fadd h0 .f32 .dyn (.win 5) (.win 4) (.win 3) 0)
      (lanesAre fun l => { l with regs := [(4, 0x3F801000), (3, 0xBF801000)], fmode := 3 }) 5 = 0x80000000 := by decide

/-- FTOI.N32 of −0.7: 0 and NX under RTZ, 0 and NV under RDN (R127). -/
theorem test_ftoi :
    (let t := after (.ftoi h0 .f32 .n32 .rtz (.win 1) (.win 2) 0) (holding [(2, 0xBF333333)])
     (t.cl 0).win 1 = 0 ∧ (t.cl 0).fstat = 0x01) ∧
    (let t := after (.ftoi h0 .f32 .n32 .rdn (.win 1) (.win 2) 0) (holding [(2, 0xBF333333)])
     (t.cl 0).win 1 = 0 ∧ (t.cl 0).fstat = 0x10) := by decide

/-- The E4M3 byte 0x5C is 24 as F32; 0x7F decodes to 0x7FF0_0000 in F32 and 0x7FF0 in BF16, the E5M2 byte 0xFD to 0xFFE0_0000
(R188). -/
theorem test_fp8 :
    (PutAs.f8F32 false).apply 0x5C = 0x41C00000 ∧ (PutAs.f8F32 false).apply 0x7F = 0x7FF00000 ∧
    (PutAs.f8B4 false).apply 0x7F = 0x7FF0 ∧ (PutAs.f8F32 true).apply 0xFD = 0xFFE00000 ∧
    storeBytes 1 .f32 0x7F800000 = [0x7E] ∧ storeBytes 2 .f32 0x7F800000 = [0x7C] := by decide

/-- The worked homes: 0x0_00A1_2345_6780 lives at core 322, 0x4_0040_0007_0000 at core 112 (the example at R23). -/
theorem test_homes : homeOf 0x000A123456780 = 322 ∧ homeOf 0x4004000070000 = 112 := by decide

/-- The worked BFP4 block (R322): 5.0, −5.0, 0.5, 3.2, zeros, 7.5. -/
theorem test_bfp4 :
    bfpEncode 4 ([fp32.value 0x40A00000, fp32.value 0xC0A00000, fp32.value 0x3F000000, fp32.value 0x404CCCCD] ++
      List.replicate 11 (fp32.value 0) ++ [fp32.value 0x40F00000]) =
      [3, 0, 0, 0, 0, 0, 0, 0, 0xB5, 0x30, 0, 0, 0, 0, 0, 0x70] := by decide

/-- A store leaves the core as a write at its line's home; nothing is written yet (R23). -/
theorem test_store_leaves :
    (let t := after (.st h0 .i64 0 (.sca 1) .zero (.win 1) 0) (holding [(1, 0x55)])
     t.mem = base.mem ∧ t.net.map (fun m => m.addr) = [0x20000, 0x20000]) := by decide

/-- BAR.HOLD #2 with one of two lanes marks the lane and holds it (R160). -/
theorem test_bar_hold :
    (let t := after (.barHold h0 2 4) { base with cur := { base.cur with a1 := 1 } }
     (t.cl 0).marks.getLsbD 2 = true ∧ (t.cl 0).pc = 0x10000 ∧ (t.cl 1).marks.getLsbD 2 = false) := by decide

/-- EXIT ends the lanes of the issuing gang only (R157). -/
theorem test_exit :
    (let t := after (.exit h0) { base with cur := { base.cur with a1 := 1 } }
     (t.cl 0).st = .exited ∧ (t.cl 1).st = .ready) := by decide +kernel

/-- TRAP records its code and the PC of the trapping instruction, and the lanes no longer run (R249). -/
theorem test_trap :
    (let t := after (.trap h0 5) base
     (t.cl 0).st ≠ .ready ∧ (t.warp 1).frags.map (fun f => (f.pc, f.st)) = [(0x10000, .pending)]) := by decide

/-- The first instruction after reset, `ADD.I64 w0, w1, #7` as a word (R46): step fetches it and runs it. -/
theorem test_step_from_reset :
    (match step (State.reset.withFetchWord 96 0x1C0800001FE0060000000007) with
     | .next t => (t.lane 1 0).win 0
     | _ => 0) = 7 := by decide +kernel

/-! ### Witnesses: states that meet the hypotheses of the obligations -/

/-- A pattern that decodes to a finite value holds it. -/
theorem holds_value {F : Fmt} {x m : Nat} {neg : Bool} {e : Int} {v : ℝ} (h : F.value x = .fin neg m e)
    (k : v = (if neg then -1 else 1) * (m : ℝ) * 2 ^ e) : F.Holds x v := ⟨neg, m, e, h, k⟩

theorem witness_RoundingIsCorrect :
    (fp32 ∈ [fp64, fp32, fp16, bf16] ∧ (2 ^ 24 + 1 : Nat) ≠ 0 ∧
      (fp32.round .rne false (2 ^ 24 + 1) (-24)).res.flags.getLsbD 2 = false) ∧
    fp32 ∈ [fp64, fp32] ∧ 0x40000000 < 2 ^ fp32.width ∧ fp32.Holds 0x40000000 2 ∧ (0 : ℝ) < 2 ∧ (2 : ℝ) ≠ 1 ∧ (-150 : ℝ) ≤ 2 :=
  ⟨by decide, by decide, by decide, holds_value (by decide : _ = FVal.fin false (2 ^ 23) (-22)) (by norm_num), by norm_num,
    by norm_num, by norm_num⟩

/-- NaNs of both kinds, infinities, zeros, a flushed subnormal number and their neighbours; a list of a dot product with one NaN. -/
theorem witness_FloatArithmetic : fp32 ∈ [fp64, fp32, fp16, bf16] ∧ (∀ x ∈ [0x7FC00000, 0xFF800001], fp32.IsNan x ∧ x < 2 ^ fp32.width) ∧
    fp32.IsSnan 0xFF800001 ∧ ¬fp32.IsSnan 0x7FC00000 ∧
    (∀ x ∈ [0x3F800000, 0xBF800000], ¬fp32.IsNan x ∧ ¬fp32.IsInf x ∧ ¬fp32.IsZero true x) ∧
    (∀ x ∈ [0x7F800000, 0xFF800000], fp32.IsInf x ∧ ¬fp32.IsNan x ∧ ¬fp32.IsZero true x) ∧
    (∀ x ∈ [0, 0x80000000], fp32.IsZero false x) ∧ fp32.IsZero true 1 ∧ ¬fp32.IsZero false 1 ∧
    fp32.minus 0x80000000 = true ∧ fp32.minus 0xFF800000 = true ∧ fp32.minus 0x7F800000 = false ∧ fp32.minus 0xBF800000 = true ∧
    (fp16.IsSnan 0x7C01 ∧ ([0, 0, 0, 0x7C01, 0, 0, 0, 0] : List Nat) = [0, 0, 0] ++ 0x7C01 :: [0, 0, 0, 0] ∧
      (∀ w ∈ [0, 0, 0], ¬fp16.IsNan w) ∧ fp32.IsSnan 0x7F800001) ∧
    ((∀ w ∈ List.replicate 8 0, ¬fp16.IsNan w) ∧ ¬fp32.IsNan 0 ∧ fp16.IsZero false 0 ∧ fp16.IsInf 0x7C00 ∧ ¬fp16.IsNan 0x7C00) := by
  unfold Fmt.IsSnan Fmt.IsNan Fmt.IsInf Fmt.IsZero
  and_intros <;> decide

/-- The flags of each form of FCVT; patterns of every class; −1, 128 and 1/2 below, above and within the range of a conversion. -/
theorem witness_FloatSignsComparesAndConversions :
    (let wide (x : Ty) : Bool := x == .h4 || x == .b4
     wide .f32 = wide .f64 ∧ wide .f32 = false ∧ wide .h4 = true) ∧
    (fp32 ∈ [fp64, fp32, fp16, bf16] ∧ fp32.IsSnan 0xFF800001 ∧ fp32.IsNan 0x7FC00000 ∧ ¬fp32.IsSnan 0x7FC00000 ∧ fp32.IsInf 0xFF800000 ∧
      fp32.IsZero true 1 ∧ ¬fp32.IsZero false 1 ∧
      (∀ x ∈ [0xBF800000, 0x43000000, 0x3F000000], x < 2 ^ fp32.width ∧ ¬fp32.IsNan x ∧ ¬fp32.IsInf x ∧ ¬fp32.IsZero true x ∧
        x / 2 ^ fp32.fb % 2 ^ fp32.eb ≠ 0 ∧ x / 2 ^ fp32.fb % 2 ^ fp32.eb ≠ 2 ^ fp32.eb - 1) ∧ FCc.lt ∉ [FCc.eq, .ne, .un, .ord]) ∧
    (fp32.num 0xBF800000 = -1 ∧ -1 * Rm.rtz.integer true |(-1 : ℝ)| < 0) ∧
    (fp32.num 0x43000000 = 128 ∧ 2 ^ (Ty.i8.width - 1) - 1 < 1 * Rm.rtz.integer false |(128 : ℝ)|) ∧
    (fp32.num 0x3F000000 = 1 / 2 ∧ 1 * Rm.rtz.integer false |(1 / 2 : ℝ)| = 0) := by
  refine ⟨by decide, ?_, ⟨?_, ?_⟩, ⟨?_, ?_⟩, ?_, ?_⟩
  · unfold Fmt.IsSnan Fmt.IsNan Fmt.IsInf Fmt.IsZero
    decide
  all_goals norm_num [Fmt.num, Fmt.minus, Fmt.bias, fp32, Rm.integer, Ty.width]

theorem witness_FloatApproximations :
    (fp32 ∈ [fp64, fp32] ∧ (∀ x ∈ [0x7FC00000, 0xFF800001], fp32.IsNan x) ∧ (∀ x ∈ [0, 0x80000000, 1], fp32.IsZero true x) ∧
      (∀ x ∈ [0x7F800000, 0xFF800000], fp32.IsInf x) ∧ fp32.minus 0xBF800000 = true ∧ ¬fp32.IsNan 0xBF800000 ∧
      (∀ x ∈ [0xBF800000, 0x43000000, 0xC3180000, 0x40000000, 0x40800000, 0x3F800000], ¬fp32.IsZero true x) ∧
      ∀ r ∈ [0x3F000000, 0x40800000, 0x3F800000], r < 2 ^ fp32.width ∧ r / 2 ^ fp32.fb % 2 ^ fp32.eb ≠ 0) ∧
    (fp32.Holds 0x43000000 128 ∧ (fp32.bias : ℝ) + 1 ≤ 128) ∧ (fp32.Holds 0xC3180000 (-152) ∧ (-152 : ℝ) < -150) ∧
    (fp32.Holds 0x40000000 2 ∧ |(2 : ℝ)| = 2 ^ (1 : ℤ) ∧ fp32.Holds 0x3F000000 (1 / 2)) ∧
    (fp32.Holds 0x40800000 4 ∧ (4 : ℝ) = 2 ^ (2 * 1 : ℤ) ∧ fp32.Holds 0x3F000000 (2 ^ (-1 : ℤ))) ∧
    ((2 : ℝ) = (2 : ℤ) ∧ fp32.Holds 0x40800000 (2 ^ (2 : ℤ))) ∧ fp32.Holds 0x3F800000 (1 : ℤ) := by
  have two : fp32.Holds 0x40000000 2 := holds_value (by decide : _ = FVal.fin false (2 ^ 23) (-22)) (by norm_num)
  have four : fp32.Holds 0x40800000 4 := holds_value (by decide : _ = FVal.fin false (2 ^ 23) (-21)) (by norm_num)
  have half : fp32.Holds 0x3F000000 (1 / 2) := holds_value (by decide : _ = FVal.fin false (2 ^ 23) (-24)) (by norm_num)
  refine ⟨?_, ⟨holds_value (by decide : _ = FVal.fin false (2 ^ 23) (-16)) (by norm_num), by norm_num [Fmt.bias, fp32]⟩,
    ⟨holds_value (by decide : _ = FVal.fin true (19 * 2 ^ 19) (-16)) (by norm_num), by norm_num⟩, ⟨two, by norm_num, half⟩,
    ⟨four, by norm_num, by simpa using half⟩, ⟨by norm_num, by norm_num; exact four⟩,
    holds_value (by decide : _ = FVal.fin false (2 ^ 23) (-23)) (by norm_num)⟩
  unfold Fmt.IsNan Fmt.IsInf Fmt.IsZero
  decide

theorem witness_CarriesProductsAndQuotients : Ty.n32.width ≤ 32 := by decide

theorem witness_Reductions : RedOp.add ∉ [RedOp.fadd, .fmin, .fmax] ∧ RedOp.fadd ∈ [RedOp.fadd, .fmin, .fmax] ∧
    base.active h0 ≠ [] ∧ { base with cur := {} }.active h0 = [] := by decide

theorem witness_Transfers :
    (∀ L ∈ base.active h0, base.targetCheck base.cw.core base.cw.dom 0x10000 = none) ∧
    (base.launch base.cw.launch).splice = none ∧
    (let s := base.updLaunch 4 fun l => { l with splice := some { p := {}, q := {}, loopBra := 0x10000 } }
     ∃ p, (s.launch s.cw.launch).splice = some p ∧ s.cur.pc = p.loopBra ∧
       ∀ L ∈ s.active h0, s.targetCheck s.cw.core s.cw.dom 0x10000 = none) ∧
    (∀ L ∈ base.active h0, base.opnd L (.sca 7) 0 = 0x10000 ∧ (base.cl L).resf ≠ 2 ∧ (base.cl L).depth ≠ BitVec.allOnes 32) ∧
    (let s := lanesAre fun l => { l with depth := 1, resf := 2, wb := 24, regs := [(31, 0x10000)] }
     ∀ L ∈ s.active h0, (s.cl L).depth ≠ 0 ∧ (s.cl L).resf ≠ 1 ∧ s.targetCheck s.cw.core s.cw.dom ((s.cl L).win 7) = none) ∧
    (∀ L ∈ base.active h0, (base.cl L).depth = 0) := by decide

theorem witness_ThreadsExitAndYield :
    base.cw.roaming = false ∧ base.cur.wid ∈ (base.group base.cw.group).warps ∧
    (let s := { base with cur := { base.cur with a1 := 1 } }
     (1 : Nat) < 32 ∧ 1 ∉ s.active h0 ∧ (s.cl 1).st ≠ .exited) ∧
    (base.updWarp 1 fun w => { w with roaming := true }).cw.roaming = true := by decide

theorem witness_SpillAndFill :
    (let s := lanesAre fun l => { l with resf := 2, wsp := 0x20100 }
     (s.active h0).filter (fun L => (s.cl L).resf = 2) = [0, 1] ∧ ∀ L ∈ s.active h0, ∀ j, j < 24 →
       s.tr ((s.cl L).wsp - 192 + BitVec.ofNat 64 (8 * j)) = .ok (leafOf 2 0x1F)) ∧
    (let s := lanesAre fun l => { l with depth := 1, wsp := 0x20000 }
     (s.active h0).filter (fun L => (s.cl L).resf = 1 ∧ (s.cl L).depth ≠ 0) = [0, 1] ∧ ∀ L ∈ s.active h0, ∀ j, j < 24 →
       s.tr ((s.cl L).wsp + BitVec.ofNat 64 (8 * j)) = .ok (leafOf 2 0x1F)) ∧
    (leafOf 2 0x1F).w = true ∧ (leafOf 2 0x1F).r = true ∧ (leafOf 2 0x1F).fmt = 0 := by decide

/-- One lane of two issues, both, both in a roaming warp, both behind a first arrival of two. -/
theorem witness_Barriers :
    let marks (s : State) : Prop := ∀ L, L < 32 → (s.cl L).st = .exited ∨
      L ∈ (s.active h0).filter (fun L => (s.cl L).handler = false) ∨ (s.cl L).markedAt 3 = true
    let owed (s : State) (before : Nat) : Prop :=
      ∃ L, L < 32 ∧ (s.cl L).st ≠ .exited ∧ s.governedOf (s.cl L).tid before = true
    let full (s : State) : Prop := marks s ∧ ¬owed s s.serial
    let ready (s : State) : Prop := (s.active h0).filter (fun L => (s.cl L).handler = false) ≠ [] ∧
      (∀ L ∈ s.gang, (s.cl L).st = .ready ∧ (s.cl L).abandoned = none) ∧ ∀ a ∈ s.cw.barDue, owed s a.2.2
    (let s := { base with cur := { base.cur with a1 := 1 } }
     ready s ∧ ¬marks s) ∧
    (let s := { base with answers := [{ ret := { wid := 1, tid := (base.cl 0).tid, lane := 0, dst := .none, serial := 0 }, vals := [0] }] }
     ready s ∧ marks s ∧ owed s s.serial) ∧
    (ready base ∧ full base ∧ base.cw.roaming = false ∧ base.cur.wid ∈ (base.group base.cw.group).warps ∧
      ((base.group base.cw.group).bars.get {} 3).arrived + 1 < (2#6).toNat ∧
      base.liveWarps base.cw.group ≤ ((base.group base.cw.group).bars.get {} 3).arrived + 1) ∧
    (let s := base.updWarp 1 fun w => { w with roaming := true }
     ready s ∧ full s ∧ s.cw.roaming = true) ∧
    (let s := base.updGroup 2 fun g => { g with bars := [(3, { arrived := 1, expect := 2 })] }
     ready s ∧ full s ∧ ((s.group s.cw.group).bars.get {} 3).expect ≤ ((s.group s.cw.group).bars.get {} 3).arrived + 1) := by
  and_intros <;> decide +kernel

/-- `base` with a convergence register that has one member and is armed, the warp's launch granted it. -/
def armed (members : BitVec 32) : State :=
  { (base.updLaunch 4 fun l => { l with cvgrant := 4 }) with
    cvs := [(2, { armed := true, launch := 4, members := members, tag := 64 })] }

theorem witness_ConvergenceRegisters :
    ((armed 1).active h0 ≠ [] ∧ ((armed 1).launch (armed 1).cw.launch).cvgrant.getLsbD 2 = true) ∧
    (((armed 1).cv 2).armed = true ∧ (armed 1).coreWrites (armed 1).cw.core (armed 1).cur.serial = false) ∧
    ((armed 1).opnd 0 (.sca 4) 0 = 64 ∧ ((armed 1).cv 2).dom = (armed 1).cw.dom ∧
      ((armed 1).cv 2).members.getLsbD (2 * ((armed 1).cw.core % 16) + (armed 1).cw.part) = true) ∧
    ((0 : BitVec 32) ||| BitVec.ofNat 32 (2 ^ 0) = ((armed 1).cv 2).members) ∧
    ((0 : BitVec 32) ||| BitVec.ofNat 32 (2 ^ 0) ≠ ((armed 3).cv 2).members) ∧
    ((armed 1).cw.signs.get .none 2 ≠ .pending) ∧ (armed 1).Released ∧ (base.cv 2).armed = false ∧
    (let s := { armed 1 with net := [{ serial := 3, src := 0, home := 1, addr := 64, req := .write [1] none, issue := 5 }] }
     ¬s.Released) ∧ ((armed 2).cv 2).members.getLsbD (2 * ((armed 2).cw.core % 16) + (armed 2).cw.part) = false ∧
    (let s := (armed 1).updWarp 1 fun w => { w with signs := [(2, .pending)] }
     s.cw.signs.get .none 2 = .pending) := by
  have r : (armed 1).Released := by
    unfold State.Released
    decide +kernel
  refine ⟨by decide, by decide, by decide, by decide, by decide, by decide, r, by decide, fun h => ?_, by decide, by decide⟩
  exact absurd (h 0 (by decide) (by decide)).2.1 (by decide)

theorem witness_StoresLeave : ∀ L ∈ base.runs h0,
    (base.tr (base.opnd L (.sca 1) 0) = .ok (leafOf 2 0x1F) ∧ storeSize (leafOf 2 0x1F).fmt .i64 = some 8 ∧
      (base.opnd L (.sca 1) 0).toNat % 8 = 0 ∧ (leafOf 2 0x1F).w = true ∧ (leafOf 2 0x1F).fmt = 0) ∧
    (base.tr (base.opnd L (.sca 2) 0) = .ok (leafOf 3 0x41F) ∧ (leafOf 3 0x41F).fwd = true) ∧ base.roams h0 L = false := by
  decide

theorem witness_LoadsLeave : ∀ L ∈ base.runs h0,
    (base.tr (base.opnd L (.sca 1) 0) = .ok (leafOf 2 0x1F) ∧ loadSize (leafOf 2 0x1F).fmt .i64 = some 8 ∧
      (leafOf 2 0x1F).r = true ∧ (leafOf 2 0x1F).fmt = 0) ∧
    (base.tr (base.opnd L (.sca 6) 0) = .ok (leafOf 6 (3 * 2 ^ 52 + 0x1F)) ∧ 3 ≤ (leafOf 6 (3 * 2 ^ 52 + 0x1F)).fmt ∧
      loadSize (leafOf 6 (3 * 2 ^ 52 + 0x1F)).fmt .f32 = some 4 ∧ (leafOf 6 (3 * 2 ^ 52 + 0x1F)).r = true ∧
      elemIndex (leafOf 6 (3 * 2 ^ 52 + 0x1F)) 0x60000 / (leafOf 6 (3 * 2 ^ 52 + 0x1F)).blkElems <
        65536 / (leafOf 6 (3 * 2 ^ 52 + 0x1F)).slotBytes) ∧ base.roams h0 L = false := by decide

theorem witness_LinesAndTiles : ∀ L ∈ base.runs h0,
    base.tr (base.opnd L (.sca 1) 0 + base.opnd L .zero 0) = .ok (leafOf 2 0x1F) ∧ (0x20000 : Nat) % 64 + 8 * (7 + 1) ≤ 64 ∧
    base.roams h0 L = false := by decide

theorem witness_ScratchpadAndAccumulator :
    (∀ L ∈ base.runs h0, ∀ a ∈ [0, 4088], (a : Nat) % Ty.i64.size = 0 ∧ a + Ty.i64.size ≤ 1572864 ∧
      (base.scratchRange base.cw (base.originOf L)).1 ≤ a ∧
      a + Ty.i64.size ≤ (base.scratchRange base.cw (base.originOf L)).1 + (base.scratchRange base.cw (base.originOf L)).2) ∧
    (let s := base.updGroup 2 fun g => { g with acc := true }
     s.cw.roaming = false ∧ (s.group s.cw.group).acc = true ∧ ∀ a ∈ [0, 131064], (a : Nat) % 8 = 0 ∧ a + 8 ≤ 131072) := by
  decide

theorem witness_CircularBuffers :
    (let s := base.updGroup 2 fun g => { g with cbufs := [(0, { nslots := 2, slotb := 64, free := 0, filled := 1, taken := 1 })] }
     let b := (s.group s.cw.group).cbufs.get {} 0
     s.active h0 ≠ [] ∧ s.cw.roaming = false ∧ b.nslots ≠ 0 ∧ b.filled ≠ 0 ∧ b.taken ≠ 0) ∧
    (let s := base.updGroup 2 fun g => { g with cbufs := [(0, { nslots := 2, slotb := 64, free := 2 })] }
     let b := (s.group s.cw.group).cbufs.get {} 0
     b.nslots ≠ 0 ∧ b.filled = 0 ∧ b.taken = 0) := by decide

theorem witness_MigrationHomesAndPrefetch :
    (∀ L ∈ base.runs h0, base.trAny (base.opnd L (.sca 1) 0) = .ok (leafOf 2 0x1F) ∧ base.roams h0 L = false) ∧
    (let s := base.updWarp 1 fun w => { w with roaming := true, core := 1 }
     let s := { s with tlb := [⟨1, 0, 2, leafOf 2 0x1F⟩] }
     ∀ L ∈ s.runs h0, s.tr (s.opnd L (.sca 1) 0) = .ok (leafOf 2 0x1F) ∧ s.roams h0 L = true ∧
       isLocal s.cw.core (leafOf 2 0x1F) (s.opnd L (.sca 1) 0) = false) ∧
    homeOf ((leafOf 2 0x1F).key 0x20000) = 0 := by decide

/-- `base` with a result of thread 10 still to be written. -/
def owing : State :=
  { base with answers := [{ ret := { wid := 1, tid := 10, lane := 0, dst := .phys 0, serial := 5 }, vals := [0] }] }

theorem fenced_base : ∀ sc ∈ [Sc.group, .die], ∀ L ∈ base.active h0, base.Fenced sc L := by
  unfold State.Fenced
  decide

theorem not_fenced_owing : ∀ sc : Sc, ¬∀ L ∈ owing.active h0, owing.Fenced sc L :=
  fun _ h => absurd (h 0 (by decide)).1 (by decide)

theorem witness_AtomicsLeave :
    (Sc.die ≠ .thread ∧ ∀ L ∈ base.active h0, base.Fenced .die L) ∧ (¬∀ L ∈ owing.active h0, owing.Fenced .die L) ∧
    (∀ L ∈ base.runs h0, base.tr (base.heldOpnd L (.sca 1) 0) = .ok (leafOf 2 0x1F) ∧
      (base.heldOpnd L (.sca 1) 0).toNat % 8 = 0 ∧ (leafOf 2 0x1F).r = true ∧ (leafOf 2 0x1F).w = true) :=
  ⟨⟨by decide, fenced_base _ (by decide)⟩, not_fenced_owing _, by decide⟩

theorem witness_FencesAndWaits :
    (∀ L ∈ base.active h0, base.Fenced .group L) ∧ (¬∀ L ∈ owing.active h0, owing.Fenced .group L) ∧
    (∀ L ∈ base.runs h0, base.tr (base.opnd L (.sca 1) 0) = .ok (leafOf 2 0x1F) ∧ (base.opnd L (.sca 1) 0).toNat % 8 = 0) ∧
    (let s := base.updGroup 2 fun g => { g with tls := [(0, { issued := 3, done := 2 }), (1, { issued := 3, done := 1 }),
        (2, { issued := 3, done := 3, errq := [⟨2, 0x0A, 1, 0, 0, []⟩, ⟨3, 0x0A, 1, 0, 0, []⟩] })] }
     let tl (k : Nat) : Timeline := (s.group s.cw.group).tls.get {} k
     s.active h0 ≠ [] ∧ (s.heldOpnd 0 (.sca 5) 0).toNat = 2 ∧ (tl 0).done = 2 ∧ (tl 0).errq = [] ∧ (tl 1).done < 2 ∧
       (∀ L ∈ s.active h0, (s.cl L).handler = false) ∧ 2 ≤ (tl 2).done ∧
       ∃ e ∈ (tl 2).errq, e.n ≤ 2 ∧ ∀ x ∈ (tl 2).errq, e.n < x.n ∨ x = e) :=
  ⟨fenced_base _ (by decide), not_fenced_owing _, by decide, by decide⟩

/-- The page-table leaf of `base` as a translation finds it without a TLB. -/
theorem translate_base : base.translate 0 0x50000 = .ok wide ∧ base.translate 0 0x20000 = .ok wide ∧ wide.w = true ∧ wide.fmt = 0 := by
  decide

theorem witness_ChildrenAreSpawned :
    let s := lanesAre fun l => { l with regs := [(0, 0x100)] }
    let u := { s with mem := s.mem.setN unwritten 0x20100 [0, 0, 2] }
    (s.launch s.cw.launch).roamers + 2 ≤ (s.launch s.cw.launch).r.maxlive ∧
    (∀ L ∈ s.active h0, 4 ≤ (s.launch s.cw.launch).r.frame ∧ ((s.opnd L (.win 0) 0).extractLsb' 0 4).toNat = 0 ∧
      s.trAny (s.opnd L (.sca 1) 0) = .ok (leafOf 2 0x1F) ∧ (leafOf 2 0x1F).remote = false) ∧
    (∀ L ∈ u.active h0, ((u.opnd L (.sca 5) 0 + 0x10000).extractLsb' 16 6).toNat = 1 ∧
      u.tr (u.opnd L (.sca 1) 0 + 0x100) = .ok (leafOf 2 0x1F) ∧
      u.trAny (BitVec.ofNat 64 (u.natAt ((leafOf 2 0x1F).key 0x20100) 8)) = .ok (leafOf 2 0x1F)) := by decide

theorem witness_UnitsRecordsFlushesAndCancels :
    ((base.launch 4).splice = none ∧ (base.launch 4).ccaddr = 0 ∧ base.translate (base.launch 4).r.dom (base.launch 4).r.cc.toNat = .ok wide) ∧
    (∀ L ∈ base.runs h0, base.tr (base.opnd L (.sca 1) 0) = .ok (leafOf 2 0x1F) ∧ (base.opnd L (.sca 1) 0).toNat % 64 = 0) ∧
    (base.unitAt .launch base.cw.dom 0x50000 = some 4 ∧ base.unitCancelled .launch 4 = false) := by decide

theorem witness_CommandsArePushedAndQueried :
    (32 ≤ ({ base with cmds := (List.range 32).map fun i =>
      { serial := i, bytes := [], engine := .copy, core := 0, part := 0, dom := 0, launch := 4, wid := 1, tid := 10, group := 2,
        lane := none } } : State).queueUsed .copy 0) ∧
    (base.queueUsed .copy 0 + 2 ≤ 32 ∧ base.queueUsed .disp 0 + 2 ≤ 64 ∧
      (base.unretired 2 3).length + ((base.group 2).tls.get {} 3).errq.length + 2 ≤ 16) ∧
    (∀ L ∈ base.active h0, base.writesOf (base.cl L).tid base.cur.serial = false) ∧ base.active h0 ≠ [] := by decide

/-- `base` whose workgroup holds the accumulator. -/
def withAcc : State := base.updGroup 2 fun g => { g with acc := true }

theorem witness_MatrixInstructions :
    (withAcc.active h0 ≠ [] ∧ withAcc.cw.roaming = false ∧ (withAcc.group withAcc.cw.group).acc = true) ∧
    (let x : Word := withAcc.opnd 0 .zero 0
     x.extractLsb' 31 33 = 0 ∧ x.extractLsb' 24 7 = 0 ∧ x.extractLsb' 19 3 = 0 ∧ MatMode.f64.codeOk (wdWbb x) = true ∧
     (x.extractLsb' 0 19).toNat % 64 = 0 ∧ 262144 * (withAcc.cw.part % 2) ≤ (x.extractLsb' 0 19).toNat ∧
     (x.extractLsb' 0 19).toNat + MatMode.f64.pb (wdWbb x) ≤ 262144) ∧
    (let x : Word := 0x800000000
     x.extractLsb' 50 14 = 0 ∧ x.extractLsb' 17 15 = 0 ∧ (x.extractLsb' 32 18).toNat = 8 ∧ (x.extractLsb' 0 17).toNat + 8 ≤ 131072) ∧
    (let o (cv : Option Nat) (tag : Word) : MatOp :=
      { serial := 10, word := 0, mode := .f64, sparse := false, wid := 1, group := 2, launch := 4, act := 0x8000000000,
        accd := tag * 2 ^ 32, tag := tag.setWidth 32, cv := cv }
     let s (members : BitVec 32) : State :=
       { (armed members).updGroup 2 (fun g => { g with acc := true }) with
         parts := [(0, { mat := { active := { mode := some .f64 }, waiting := [o (some 2) 64] } })] }
     firstFail ((s 1).matChecks 0 (o none 0)) = none ∧ firstFail ((s 1).matChecks 0 (o (some 2) 64)) = none ∧
     ((s 1).cv 2).armed = true ∧ ((s 1).cv 2).dom = (s 1).cw.dom ∧ ((s 1).cv 2).tag = (o (some 2) 64).accd.extractLsb' 32 32 ∧
     ((s 1).cv 2).members.getLsbD 0 = true ∧ ((s 2).cv 2).members.getLsbD 0 = false ∧ (base.cv 2).armed = false ∧
     (∀ L ∈ (s 2).active h0, ((s 2).cl L).handler = false) ∧ (s 1).Released ∧
     (let t := { s 1 with cur := { (s 1).cur with retry := true } }
      (t.part 0).mat.waiting.find? (fun x => decide (x.serial = t.cur.serial)) = some (o (some 2) 64))) := by
  unfold State.Released
  exact ⟨by decide, by decide, by decide, by decide +kernel⟩

theorem witness_LaunchAndTime : ∀ L ∈ base.runs h0,
    (base.opnd L (.sca 1) 0).toNat % 128 = 0 ∧ base.tr (base.opnd L (.sca 1) 0) = .ok (leafOf 2 0x1F) ∧
    base.tr (base.opnd L (.sca 1) 0 + 64) = .ok (leafOf 2 0x1F) := by decide

/-- `base` with its lanes in the handler of a fragment. -/
def handling (sup : Bool) : State :=
  (lanesAre fun l => { l with handler := true, sup := sup, frag := 7, fslot := 0 }).updWarp 1 fun w =>
    { w with slots := 1, frags :=
        [{ id := 7, lanes := 3, sib := 0, parent := 0, slot := 0, st := .handler, ev := { cause := 0x0D, sub := 1 } }] }

theorem witness_SoftwareTraps :
    (base.active h0 ≠ [] ∧ ∀ L ∈ base.active h0, (base.cl L).handler = false) ∧
    ({ base with cur := {} }.active h0 = []) ∧
    (let s := handling false
     (∀ L ∈ s.active h0, (s.cl L).handler = true ∧ (s.cl L).st ≠ .exited ∧ (s.cl L).frag = 7) ∧
     (∃ f, s.cw.frags.find? (fun x => x.id = 7) = some f ∧ f.id = 7) ∧ s.walk s.cw.dom (s.frameVa s.cur.wid 0) = .ok wide) := by
  decide

/-- `handling` with the frame's page in the TLB, some bytes in its RESUME, and OVERRUN held or not. -/
def returning (sup held : Bool) (resume : List Byte) : State :=
  let s := (handling sup).updLanes 1 [0, 1] fun l => { l with heldOverrun := held }
  { s with tlb := [⟨0, 0, pageOf (s.frameVa 1 0 + 0x50), wide⟩], mem := s.mem.setN unwritten (wide.key (s.frameVa 1 0 + 0x50)) resume }

theorem witness_ReturnFromHandler :
    (∀ x ∈ [(false, false, []), (false, true, []), (false, false, [7]), (true, false, [])],
      let s := returning x.1 x.2.1 x.2.2
      s.active h0 ≠ [] ∧
      (∀ L ∈ s.active h0, (s.cl L).handler = true ∧ (s.cl L).st ≠ .exited ∧ (s.cl L).frag = 7 ∧ (s.cl L).sup = x.1 ∧
        (s.cl L).heldOverrun = x.2.1) ∧
      (∃ f, s.cw.frags.find? (fun x => x.id = 7) = some f ∧ f.id = 7 ∧ f.slot = 0 ∧ f.origin = 0) ∧
      s.tr (BitVec.ofNat 64 (s.frameVa 1 0 + 0x50)) = .ok wide ∧
      s.natAt (wide.key (s.frameVa 1 0 + 0x50)) 8 = (x.2.2.headD 0).toNat ∧ (s.launch s.cw.launch).splice = none ∧
      s.walk s.cw.dom (s.frameVa 1 0) = .ok wide ∧ s.frameVa 1 0 % 128 = 0 ∧ s.Unarrived s.cur.wid) ∧
    (0 : Word).extractLsb' 3 3 = 0 ∧ ((0 : Word).extractLsb' 0 3).toNat ≤ 4 ∧ ¬((7 : Word).extractLsb' 0 3).toNat ≤ 4 ∧
    (let s := (returning true false []).updLaunch 4 fun l => { l with splice := some { p := {}, q := {}, retained := true } }
     let t := { s with mem := s.mem.setN unwritten (wide.key (s.frameVa 1 0 + 0x50) - 0x4D) [3] }
     (∃ p, (t.launch t.cw.launch).splice = some p ∧ p.retained = true ∧ p.unsplicing = false) ∧
     t.natAt (wide.key (t.frameVa 1 0 + 0x50) - 0x4D) 1 = 3 ∧ t.freeIndex.isSome ∧ t.cw.launch ∉ t.unsplices) := by
  unfold State.Unarrived
  refine ⟨by decide +kernel, by decide, by decide, by decide, ⟨_, rfl, by decide, by decide⟩, by decide, by decide +kernel, by decide⟩

theorem witness_KernelRegistersInvalidationAndTrace :
    (base.cl 0).sup = false ∧ (∀ L ∈ (handling true).active h0, ((handling true).cl L).sup = true) ∧
    (base.cw.launch < 2 ^ 12 ∧ base.cw.core < 2 ^ 9 ∧ base.cw.part < 2 ∧ base.cw.slot < 2 ^ 5) ∧
    (let s : State := { base with
       now := 5, host := { activities := true }, domains := [(1, { trace := [List.replicate 32 1], rings := [(6, { base := 0x1004 })] })] }
     s.host.activities = true ∧ s.host.runAt + 100000 * s.host.drains.get 0 1 ≤ s.feTime ∧
     ((s.domain 0).rings.get {} 6).present = false ∧ ((s.domain 1).rings.get {} 6).present = true ∧
     (((s.domain 1).rings.get {} 6).tail - ((s.domain 1).rings.get {} 6).head).toNat + (s.domain 1).trace.length ≤ 2 ^ 4 ∧
     ∀ e ∈ (s.domain 1).trace, e.length = 32) := by decide

theorem witness_HaltParks :
    (base.active h0 ≠ [] ∧ (∀ L ∈ base.active h0, (base.cl L).handler = false) ∧ base.cw.roaming = false ∧
      (let va := base.frameVa base.cur.wid (freeSlot base.cw.slots).toNat
       base.translate base.cw.dom va = .ok wide ∧ wide.w = true ∧ wide.fmt = 0 ∧ va % 128 = 0)) ∧
    (∀ L ∈ (handling false).active h0, ((handling false).cl L).handler = true ∧ ((handling false).cl L).frag = 7) ∧
    (∃ f, (handling false).cw.frags.find? (fun x => x.id = 7) = some f ∧ f.id = 7) := by decide

theorem witness_ContextSaveAndRestore :
    let s := lanesAre fun l => { l with handler := true, sup := true }
    s.active h0 ≠ [] ∧ (∀ L ∈ s.active h0, (s.cl L).sup = true) ∧ (∀ L ∈ s.gang, (s.cl L).st ≠ .exited) ∧
    s.cur.wid ∈ (s.group s.cw.group).warps ∧ (s.opnd 0 (.sca 1) 0).toNat % 64 = 0 ∧
    (∀ i ∈ [0, 319], s.tr (s.opnd 0 (.sca 1) 0 + BitVec.ofNat 64 (0x1000 + 64 * i)) = .ok (leafOf 2 0x1F)) ∧
    (∀ bs, recField bs 0x1A00 8 = 0 → recordOk bs s.cw.dom s.cw.launch = false) ∧ s.natAt 0x21A00 8 = 0 := by
  refine ⟨by decide, by decide, by decide, by decide, by decide, by decide, fun bs h => ?_, by decide⟩
  simp only [recordOk, h]
  rfl

theorem witness_ResultsAreWritten :
    let r : Ret := { wid := 1, tid := 10, lane := 0, dst := .phys 0, serial := 5 }
    let s := { base with answers := [{ ret := r, vals := [0] }, { ret := { r with finish := true }, vals := [1] }]
                         ctimes := [{ wid := 1, tid := 10, c := 9, here := true }] }
    s.answers[0]? = some { ret := r, vals := [0] } ∧ s.findLane 1 10 = some (1, 0) ∧
    ({ s with answers := removeAt s.answers 1 } : State).more { r with finish := true } = false ∧
    s.ctimes[0]? = some { wid := 1, tid := 10, c := 9, here := true } ∧ s.outbid r = false ∧ s.Unarrived 1 ∧
    (∀ i ∈ ({ r with others := [11] } : Ret).others, ∃ K, s.findLane 1 i = some (1, K)) ∧
    (let o : Ret := { r with dst := .sca 9 }
     let d : DecodeLoad := { ret := { o with tid := 11, lane := 1 }, core := 0, serial := 5, dom := 0, ea := 0x60000, ty := .f32 }
     ({ s with decodes := [d] } : State).outbid o = true) := by
  unfold State.Unarrived
  refine ⟨by decide, by decide, by decide, by decide, by decide, by decide, ?_, by decide⟩
  simp only [List.mem_singleton, forall_eq]
  exact ⟨1, by decide⟩

/-- A request of thread 10 for the line at 0x20000. -/
def ask (req : Req) : Msg :=
  { serial := 7, src := 0, home := 0, addr := 0x20000, req := req, wid := 1, tid := 10, launch := 4,
    ret := some { wid := 1, tid := 10, lane := 0, dst := .phys 0, serial := 5 }, issue := 5 }

/-- `base` with one request under way. -/
def asked (req : Req) : State := { base with net := [ask req] }

theorem witness_HomesServeRequests :
    (asked (.read 8)).frontMsg 0 = some (ask (.read 8)) ∧ (asked (.read 8)).earlyFor (ask (.read 8)) = none ∧
    (let u := (asked (.read 8)).updLane 1 0 fun l => { l with early := some (0x800, List.replicate 64 7) }
     u.frontMsg 0 = some (ask (.read 8)) ∧ u.findLane (ask (.read 8)).wid (ask (.read 8)).tid = some (1, 0) ∧
     (u.lane 1 0).early = some ((ask (.read 8)).addr / 64, List.replicate 64 7) ∧ u.leases = []) ∧ (ask (.read 8)).home = homeOf (ask (.read 8)).addr ∧
    (asked (.write [1] none)).frontMsg 0 = some (ask (.write [1] none)) ∧ 10 ∉ (base.launch 4).ending ∧
    (asked (.write [1] (some 4))).frontMsg 0 = some (ask (.write [1] (some 4))) ∧ (base.launch 4).live = true ∧
    (base.launch 4).r.dom = 0 ∧ (base.tags.filter fun y => homeOf (64 * y.line) = homeOf 0x20000).length < 4096 ∧
    (asked (.grant 8 1)).frontMsg 0 = some (ask (.grant 8 1)) ∧ base.tagOf (0x20000 / 64) = none ∧ (ask (.grant 8 1)).home < 384 ∧
    (base.leases.filter fun x => x.core = 0).length < 8192 := by
  decide

theorem witness_AtomicsAtHome :
    let s := asked (.atom .add .i64 1 true)
    let u := asked (.cas .i64 0x0800000000000201 5)
    s.frontMsg 0 = some (ask (.atom .add .i64 1 true)) ∧
    s.net.filter (ask (.atom .add .i64 1 true)).sameAtomic = [ask (.atom .add .i64 1 true)] ∧ 10 ∉ (s.launch 4).ending ∧
    u.frontMsg 0 = some (ask (.cas .i64 0x0800000000000201 5)) ∧ u.natAt 0x20000 8 = 0x0800000000000201 ∧
    u.natAt 0x20000 8 ≠ 0 := by decide

/-- Lanes of `base` that wait in an instruction of issue 5. -/
def waiting (i : Instr) (phase : Phase) (dl : Word) : State :=
  lanesAre fun l =>
    { l with st := .waiting, wait := some { instr := i, word := 0, gang := 5, serial := 5, phase := phase, dl := dl } }

theorem witness_WalksAndWaitsEnd :
    (let s := { base with walks := [⟨0, 0, 5, 1⟩, ⟨0, 0, 0x10000, 2⟩] }
     s.walks[0]? = some ⟨0, 0, 5, 1⟩ ∧ s.walk 0 (65536 * 5) = .ok wide ∧ s.walk 0 (65536 * 0x10000) = .fail 1) ∧
    (let s := waiting (.tlbinv h0 .system (.sca 1) false) .sent 0x20000
     (s.waiters 1 5).head? = some 0 ∧ (s.lane 1 0).wait ≠ none ∧ s.walks = []) ∧
    (let r : Ret := { wid := 1, tid := 10, lane := 0, dst := .none, finish := true, serial := 5 }
     let fit : Word := 0x0020004000000000
     let s := { waiting (.kwr h0 (.sca 1) 0x20) .sent 0 with cbWrites := [(r, 0, fit)] }
     s.cbWrites[0]? = some (r, 0, fit) ∧ (s.warp 1).roaming = false ∧ s.cmds = [] ∧ (s.lane 1 0).tid = 10 ∧
     (s.lane 1 0).st = .waiting ∧ (∀ L ∈ r.lanes, (s.lane 1 L).wait ≠ none ∧ (s.lane 1 L).handler = false) ∧
     fit.extractLsb' 52 12 ≠ 0 ∧ (s.allocOf 1 0).1 ≤ (fit.extractLsb' 0 21).toNat ∧
     (fit.extractLsb' 0 21).toNat + (fit.extractLsb' 52 12).toNat * (fit.extractLsb' 32 20).toNat ≤
       (s.allocOf 1 0).1 + (s.allocOf 1 0).2 ∧ 4097 > (s.allocOf 1 0).1 + (s.allocOf 1 0).2) ∧
    (let f := leafOf 6 (3 * 2 ^ 52 + 0x1F)
     let d : DecodeLoad := { ret := { wid := 1, tid := 10, lane := 0, dst := .phys 0 }, core := 0, serial := 5, dom := 0, ea := 0x60000, ty := .f32 }
     let s := { waiting (.ld h0 .f32 0 (.win 0) (.sca 6) .zero 0) .sent 0 with decodes := [d] }
     s.decodes[0]? = some d ∧ s.writesOf 10 5 = false ∧ s.tags = [] ∧
     (∀ L ∈ d.ret.lanes, (s.lane 1 L).st = .waiting ∧ (s.lane 1 L).wait ≠ none) ∧ s.xlate 0 0 0x60000 = .ok f ∧
     loadCheck f .f32 0x60000 = none ∧ f.w = true ∧ 3 ≤ f.fmt ∧
     f.blockOk ((List.range f.slotBytes).map fun i => s.byteAt (f.key (blockVa f 0x60000 + i))) = true) ∧
    (let s := waiting (.fence h0 .group) .sent 0
     let due (t : State) (L : Nat) : Bool := t.fenceReady .group 0 (t.lane 1 L) 5
     let u : State := { s with answers := [{ ret := { wid := 1, tid := 10, lane := 0, dst := .phys 0, serial := 3 }, vals := [0] }] }
     (∃ L ∈ s.waiters 1 5, (s.lane 1 L).inFence = true) ∧
     (∀ L ∈ s.waiters 1 5, (s.lane 1 L).fenceScope = some (.group, 5) ∧ due s L = true) ∧
     (∃ L ∈ u.waiters 1 5, (u.lane 1 L).fenceScope = some (.group, 5) ∧ due u L = false)) := by decide

theorem witness_Monitors :
    (let i : Instr := .mwait h0 .i64 0 0 (.sca 1) .zero .zero 0
     let r : Ret := { wid := 1, tid := 10, lane := 0, dst := .phys 0, serial := 5 }
     let v : Word := 0x0800000000000201
     let s (x : Word) (cc : Bool) : State := { waiting i .sent 0 with net := [ask (.monitor 8 x cc)] }
     let away : State := { base with net := [ask (.monitor 8 0 false)] }
     let woken := (s v false).updLane 1 0 fun l => { l with wake := true }
     let m : Monitor := { home := 0, line := 1, addr := 64, n := 8, ret := { r with tid := 12 }, cc := false }
     let full : State := { s v false with monitors := m :: List.replicate 1023 { m with line := 2 } }
     (∀ same cc : Bool, let x := if same then v else 0
       (s x cc).frontMsg 0 = some (ask (.monitor 8 x cc)) ∧ (ask (.monitor 8 x cc)).ret = some r ∧
       (s x cc).watcher r = some (1, 0)) ∧
     BitVec.ofNat 64 (base.natAt 0x20000 8) = v ∧ v ≠ 0 ∧ v.getLsbD 63 = false ∧
     (woken.frontMsg 0 = some (ask (.monitor 8 v false)) ∧ woken.watcher r = some (1, 0) ∧ (woken.lane 1 0).wake = true ∧
       ((s v false).lane 1 0).wake = false) ∧
     (away.frontMsg 0 = some (ask (.monitor 8 0 false)) ∧ away.watcher r = none) ∧
     ((s v false).monitors.filter fun y => y.home = 0).length < 1024 ∧ full.watcher r = some (1, 0) ∧
     full.frontMsg 0 = some (ask (.monitor 8 v false)) ∧
     (let here := (full.monitors.filter fun y => ¬(y.ret.tid = r.tid ∧ y.ret.serial ≠ r.serial)).filter fun y => y.home = 0
      1024 ≤ here.length ∧ here.head? = some m)) ∧
    (let r : Ret := { wid := 1, tid := 10, lane := 0, dst := .phys 0, finish := true, serial := 5 }
     let m : Monitor := { home := 0, line := 0x800, addr := 0x20000, n := 8, ret := r, cc := false }
     let s := { waiting (.mwait h0 .i64 0 0 (.sca 1) .zero .zero 0) .watching 0 with
       monEvents := [⟨r, false, 0x20000, false, false⟩, ⟨r, true, 0x20000, true, false⟩], monitors := [m] }
     s.monEvents[0]? = some ⟨r, false, 0x20000, false, false⟩ ∧ s.watcher r = some (1, 0) ∧
     s.monEvents[1]? = some ⟨r, true, 0x20000, true, false⟩ ∧ (∀ K ∈ r.lanes, (s.lane 1 K).wait ≠ none) ∧
     s.monitors.filter (fun x => x.ret.tid = 10) = [m] ∧ s.watcher m.ret = some (1, 0) ∧ m.dl.toNat ≤ s.localTime 0 ∧
     (let e : MonEvent := ⟨r, false, 0x20000, false, false⟩
      let u : State := { s with monitors := [], monEvents := [e] }
      u.monitors = [] ∧ u.monEvents.filter (fun x => x.ret.tid = 10) = [e] ∧ u.watcher e.ret = some (1, 0) ∧
      ((u.lane 1 0).wait.map (·.dl.toNat)).any (· ≤ u.localTime 0) = true) ∧
     (let u := { base.updLane 1 0 (fun l => { l with monitor := true }) with monEvents := s.monEvents }
      u.monEvents[0]? = some ⟨r, false, 0x20000, false, false⟩ ∧ u.watcher r = none ∧ u.findLane 1 10 = some (1, 0) ∧
      (u.lane 1 0).monitor = true)) := by
  refine ⟨by and_intros <;> decide +kernel, ?_⟩
  and_intros <;> decide

/-- A record of launch 4, from 0x21000 on, whose lanes have one resident frame and stand at 0. -/
def savedRecord : Tab Byte := (List.range 32).map (fun L => (0x21021 + 64 * L, 1#8)) ++ [(0x21A02, 8#8)]

theorem recField_getN (m : Tab Byte) (x off n : Nat) (h : off - 0x1000 + n ≤ 20480) :
    recField (m.getN unwritten x 20480) off n = leNat (m.getN unwritten (x + (off - 0x1000)) n) := by
  have : ((m.getN unwritten x 20480).drop (off - 0x1000)).take n = m.getN unwritten (x + (off - 0x1000)) n := by
    rw [Tab.getN_eq, Tab.getN_eq]
    apply List.ext_getElem?
    intro i
    by_cases hi : i < n
    · rw [List.getElem?_take_of_lt hi]
      simp only [List.getElem?_drop, List.getElem?_map]
      rw [List.getElem?_range (by omega), List.getElem?_range hi]
      simp [Nat.add_assoc]
    · simp [hi]
  rw [recField, this]

theorem witness_ContextSaveAndRestore_good :
    let rec' := savedRecord.getN unwritten 0x21000 20480
    recordOk rec' 0 4 = true ∧ recPending rec' = 0 ∧ (∀ L, L < 32 → laneOk rec' L = true) ∧
      ∀ L, L < 32 → recField rec' (0x1000 + 64 * L + 0x28) 4 % 4 ≠ 3 := by
  refine ⟨?_, ?_, fun L hL => ?_, fun L hL => ?_⟩
  · rw [recordOk]
    simp (disch := decide) only [recField_getN]
    decide +kernel
  · rw [recPending, recField_getN _ _ _ _ (by decide)]
    decide +kernel
  · rw [laneOk, blockReserved]
    simp (disch := omega) only [recField_getN]
    revert L
    decide +kernel
  · simp (disch := omega) only [recField_getN]
    revert L
    decide +kernel

/-- A nymph of launch 4 at its entry, bound for core 0. -/
def nymph : Nymph := { tid := 30, dom := 0, hdr := NymphHdr.pack { launch := 4, fm1 := 31, pc := 0x10000 }, words := [] }

/-- A comb that holds it. -/
def comb (ready : Bool) : Comb := { key := nymph.key, nymphs := [nymph], due := 0, ready := ready, born := 5, order := 5 }

/-- The state right after reset with launch 4 running on core 0. -/
def idle : State :=
  { State.reset with
    serial := 20, mem := mem0, domains := [(0, { root := 0x800000 })]
    launches := [(4, { launch0 with r := { launch0.r with clusters := 1, cores := 1 } })] }

theorem witness_NymphsTravel :
    (let w : Wait := { instr := .migr h0 0 (.sca 1) .zero 0, word := 0, gang := 5, serial := 5, dl := 0 }
     let s := (lanesAre fun l => { l with st := .departing, wait := some w }).updWarp 1 fun w => { w with roaming := true }
     let u := (lanesAre fun l => { l with st := .departing, wait := some { w with phase := .sent } }).updWarp 1 fun w =>
       { w with roaming := true }
     let two := s.updLane 1 0 fun l => { l with resf := 2, wsp := 0x20100 }
     let parked := s.updLaunch 4 fun l => { l with st := .parked }
     s.departing[0]? = some (1, 0) ∧ (s.lane 1 0).wait = some w ∧ (s.warp 1).roaming = true ∧ (s.launch 4).st ≠ .parked ∧
     w.phase = .hold ∧ s.governed 1 s.serial = false ∧ (s.lane 1 0).resf ≠ 2 ∧
     (two.departing[0]? = some (1, 0) ∧ (two.lane 1 0).resf = 2 ∧
       (two.resume 1 [0]).spillAcc (fun j => 0x20040 + BitVec.ofNat 64 (8 * j)) 1 false true = none) ∧
     (parked.departing[0]? = some (1, 0) ∧ (parked.launch 4).st = .parked) ∧
     u.departing[0]? = some (1, 0) ∧ u.writesOf 10 u.serial = false ∧ u.ctimeDue 10 = false ∧
     (u.lane 1 0).cmaxs.toNat < u.localTime 0 + 2 ^ 20) ∧
    (let s := { idle with nymphs := [nymph] }
     let u := { s with arrival := [(0, { combs := [comb false] })] }
     let p := { idle with nymphs := [{ nymph with pool := some 0 }] }
     let many : List Comb := List.replicate 32 { comb true with nymphs := List.replicate 32 nymph }
     let v := { s with arrival := [(0, { combs := many })] }
     let q := { p with pools := [(0, { combs := many })] }
     s.nymphs[0]? = some nymph ∧ nymph.dest < 384 ∧ s.launchLives 0 nymph.fields.launch = true ∧ (s.arr 0).used < 1024 ∧
     u.nymphs[0]? = some nymph ∧ (u.arr 0).slots = [] ∧ (u.arr 0).hive = [] ∧ (u.arr 0).combs = [] ++ comb false :: [] ∧
     (comb false).key = nymph.key ∧ (comb false).nymphs.length < 32 ∧
     (v.nymphs[0]? = some nymph ∧ (v.arr 0).slots = [] ∧ (v.arr 0).due = [] ∧ (v.arr 0).hive = [] ∧ 1024 ≤ (v.arr 0).used) ∧
     p.nymphs[0]? = some { nymph with pool := some 0 } ∧ (p.arr 0).hive = [] ∧ (p.arr 0).due = [] ∧ (p.arr 0).slots = [] ∧
     (p.pool 0).used < 1024 ∧ (q.nymphs[0]? = some { nymph with pool := some 0 } ∧ 1024 ≤ (q.pool 0).used) ∧
     ({ idle with nymphs := [{ nymph with dest := 400 }] } : State).nymphs[0]? = some { nymph with dest := 400 } ∧
     idle.nymphs[0]? = none ∧
     ({ idle with nymphs := [nymph], launches := [] } : State).launchLives 0 nymph.fields.launch = false) ∧
    (let s := { idle with arrival := [(0, { combs := [comb false] })], pools := [(0, { combs := [comb false] })] }
     s.timers[0]? = some (false, 0, comb false) ∧ s.timers[1]? = some (true, 0, comb false) ∧ (comb false).due ≤ s.localTime 0) ∧
    (let s := { idle with flushes := [(0, 4, none)] }
     s.flushes[0]? = some (0, 4, none)) ∧
    (let s := { idle with resends := [(nymph, 0)], children := [nymph] }
     s.resends[0]? = some (nymph, 0) ∧ s.children[0]? = some nymph ∧ s.writesOf nymph.parent nymph.parentSerial = false) := by
  and_intros <;> decide +kernel

theorem witness_NymphsTravel_form :
    let s := { idle with arrival := [(0, { combs := [comb true] })] }
    s.items = [.comb 0 (comb true)] ∧ s.combSees (comb true) = true ∧ s.launchLives 0 (comb true).key.launch = true ∧
    (s.arr 0).slots = [] ∧ (s.arr 0).hive = [] ∧ (s.arr 0).due = [] ∧ s.cmds = [] ∧
    (∃ others, s.slotsFor (.comb 0 (comb true)) 0 0 = 0 :: others) ∧ (s.launch (comb true).key.launch).st ≠ .grace :=
  ⟨rfl, by decide, by decide, by decide, by decide, by decide, rfl, ⟨_, rfl⟩, by decide⟩

/-- A node of launch 5 whose descriptor stands at 0x20040: records of one word, a queue of `cap` at 0x30000, TILE 2, one open
producer, `count` records queued. -/
def node (cap count : Nat) : Tab Byte :=
  (mem0.setN unwritten 0x20040 (leBytes 8 0x30000 ++ leBytes 8 (2 ^ 40 + 2 * 2 ^ 32 + cap) ++ leBytes 8 (count % cap * 2 ^ 32) ++
    leBytes 8 (2 ^ 32 + count) ++ leBytes 8 5))

/-- `base` with a node and a record under way to it. -/
def recording (cap count : Nat) : State :=
  { waiting (.record h0 (.sca 1) 31 false) .sent 0 with
    mem := node cap count
    launches := [(4, launch0), (5, { launch0 with flushAt := some 0, r := { launch0.r with kind := 2, arg := 0x20040 } })]
    net := [{ ask (.record [9] false 31) with addr := 0x20040, ret := none }] }

/-- A state lists no arrival unit, so that every hive is empty. -/
theorem hives_empty (s : State) (h : s.arrival = []) (k : Nat) : ∀ j, j / 16 = k → (s.arr j).hive = [] := by
  intro j _
  simp [State.arr, h]

theorem witness_PoolsAndNodes :
    (idle.idle 0 = true ∧ (idle.pool 0).steal = .none) ∧
    (let old : Comb := { comb false with born := 4, order := 9 }
     let s := { idle with pools := [(0, { steal := .asking 1 0 }), (1, { combs := [comb true, old] })] }
     (s.pool 0).steal = .asking 1 0 ∧ s.arrival = [] ∧ old ∈ (s.pool 1).combs ∧
     (∃ y ∈ (s.launch old.key.launch).r.set, clusterOf y = 0) ∧ (∀ d ∈ (s.pool 1).combs, d = old ∨ old.born < d.born) ∧
     ({ idle with pools := [(0, { steal := .asking 1 0 })] }.pool 1).combs = []) ∧
    (let s := { idle with pools := [(0, { steal := .answered (some (comb true)) 0 }), (1, { steal := .answered none 0 })] }
     (s.pool 0).steal = .answered (some (comb true)) 0 ∧ s.launchLives 0 (comb true).key.launch = true ∧
     (let a := s.arr (s.roomiest 0 (some 0))
      a.slots = [] ∧ a.hive = [] ∧ a.due = []) ∧
     ({ s with launches := [] } : State).launchLives 0 (comb true).key.launch = false ∧ (s.pool 1).steal = .answered none 0) ∧
    (let s := recording 4 0
     let d := parseNode (s.bytesAt 0x20040 64)
     (∃ m, s.frontMsg 0 = some m ∧ m.req = .record [9] false 31 ∧ m.lane ∈ s.waiters m.wid m.issue ∧ m.addr = 0x20040 ∧
       s.net = [m] ∧ m.issue = 5 ∧ m.wid = 1) ∧
     d.index = 5 ∧ s.launchLives 0 5 = true ∧ (s.launch 5).r.kind = 2 ∧ 31 + d.recw ≤ 32 ∧ 31 + d.recw ≤ s.frameSize (s.warp 1) ∧
     d.opens ≠ 0 ∧ d.count < d.qcap ∧ d.count + 1 < d.tile ∧ s.findLane 1 10 = some (1, 0) ∧ (s.lane 1 0).handler = false ∧
     (parseNode ((recording 4 4).bytesAt 0x20040 64)).qcap ≤ (parseNode ((recording 4 4).bytesAt 0x20040 64)).count ∧
     (let e := parseNode ((recording 4 1).bytesAt 0x20040 64)
      e.count < e.qcap ∧ e.tile ≤ e.count + 1) ∧
     ¬({ s with launches := [(4, launch0)] } : State).launchLives 0 5 = true) ∧
    (let s := recording 4 1
     (s.launch 5).flushAt = some 0 ∧ 0 ≤ s.feTime ∧ (s.launch 5).live = true ∧
     s.nodeAt 0 0x20040 = some (parseNode (s.bytesAt 0x20040 64)) ∧
     (parseNode (s.bytesAt 0x20040 64)).count ≠ 0 ∧ s.translate 0 0x20040 = .ok wide ∧
     (let a := s.arr (homeOf (wide.key 0x20040) % 384)
      a.slots = [] ∧ a.hive = [] ∧ a.due = [])) := by
  refine ⟨by decide +kernel, by decide +kernel, by decide +kernel, ⟨⟨_, rfl, by decide⟩, by decide +kernel⟩, by decide +kernel⟩

theorem witness_PoolsAndNodes_place :
    let s := { idle with pools := [(0, { combs := [comb true] })] }
    s.items = [.pool 0 (comb true)] ∧ s.roomiest 0 (some 0) = 0 ∧ s.arrival = [] ∧ s.launchLives 0 (comb true).key.launch = true ∧
      (∃ others, s.slotsFor (.pool 0 (comb true)) 0 0 = 0 :: others) :=
  ⟨rfl, by decide +kernel, rfl, by decide, ⟨_, rfl⟩⟩

/-! ### Splicing -/

/-- A line of code with a SPLICE mark. -/
def codeLine (mark : Nat) (words : List InstrWord) : List Byte :=
  let body := words.flatMap (fun w => leBytes 12 w.toNat) ++ leBytes (60 - 12 * words.length) 0 ++ leBytes 3 (mark * 2 ^ 13)
  body ++ [xorBytes body]

/-- The cells of bytes at an address. -/
def cells (at' : Nat) (bs : List Byte) : Tab Byte :=
  (((List.range bs.length).map (at' + ·)).zip bs).filter fun (e : Nat × Byte) => e.2 ≠ 0

/-- A kernel at an address: its body, a tile move and the tail of R408, and its epilogue, an EXIT. -/
def kernel (at' : Nat) (tile : InstrWord) : Tab Byte :=
  cells at' (codeLine 2 [tile] ++
    codeLine 3 [0x5C0C04949FE0060000000001#96, 0x1C7818049F00060000000000#96, 0x0120000000000000FFFFFFF8#96] ++
    codeLine 0 [0x1D3400000000000000000000#96])

/-- A record of 128 bytes for a kernel at an address. -/
def recordOf (at' flags links : Nat) : List Byte :=
  [0, BitVec.ofNat 8 flags, 32, 1] ++ leBytes 4 0 ++ leBytes 8 at' ++ leBytes 8 1 ++ leBytes 8 0 ++ leBytes 8 (2 ^ 40) ++
    leBytes 8 5 ++ leBytes 48 0 ++ leBytes 8 0x50000 ++ leBytes 8 0 ++ leBytes 8 (2 ^ 40 + 2 ^ 24) ++ leBytes 8 links

/-- A submission of domain 0 whose record has been read. -/
def submitted (serial : Nat) (bs : List Byte) : Submission :=
  { route := .queue 0 0 0, dom := 0, line := some (true, bs), serial := serial }

/-- An idle package with submissions of a domain that has room for a fused kernel. -/
def submitting (subs : List Submission) : State :=
  { State.reset with
    serial := 20, now := 5, subs := subs
    mem := kernel 0x30000 0x1DCC00041F00000000000000#96 ++ kernel 0x38000 0x1DD000041F00000000000000#96 ++
      [(0x800000, 1), (0x800002, 0x81), (0x810000, 1), (0x810002, 0x82), (0x820000, 0x1F)]
    domains := [(0, { root := 0x800000, owner := 0x8000000000000000, quota := 0x270F00000FFF, splbase := 0x100000, splsize := 1 })] }

/-- Records of a producer and a consumer that ask to be spliced: LINKS names register 9 and lines 0 to 1. -/
def recP : List Byte := recordOf 0x30000 4 (9 * 2 ^ 42 + 2 ^ 18)
def recQ : List Byte := recordOf 0x38000 4 (9 * 2 ^ 42 + 2 ^ 18)

/-- The consumer's submission: the entry after the producer's. -/
def submittedQ : Submission := { submitted 2 recQ with pos := 1 }

def pairOf : State := submitting [submitted 1 recP, submittedQ]

/-- A kernel of this shape: its body of a tile move and the tail of R408, and an EXIT. -/
def kernOf (r : Record) (tile : InstrWord) : Kern :=
  ⟨r, 2, [], [⟨0, 0, tile⟩, ⟨1, 0, 0x5C0C04949FE0060000000001#96⟩, ⟨1, 1, 0x1C7818049F00060000000000#96⟩,
    ⟨1, 2, 0x0120000000000000FFFFFFF8#96⟩], [⟨2, 0, 0x1D3400000000000000000000#96⟩]⟩

/-- The two kernels. -/
@[irreducible] def kernP : Kern := kernOf (parseRecord recP) 0x1DCC00041F00000000000000#96
@[irreducible] def kernQ : Kern := kernOf (parseRecord recQ) 0x1DD000041F00000000000000#96

theorem witness_LaunchesAreServed_pair :
    let u := submitted 1 recP
    let a := parseRecord recP
    let b := parseRecord recQ
    pairOf.subs[0]? = some u ∧ pairOf.issuerDone u = true ∧ u.record = some a ∧ pairOf.subCancelled u a = false ∧
    u.unpaired = false ∧ u.code = 0 ∧ u.line = some (true, recP) ∧ recP.length = 128 ∧
    (pairOf.subs.filter fun x => decide (u.serial < x.serial) && u.fellow x).head? = some submittedQ ∧
    submittedQ.pos = (u.pos + 1) % 2 ^ 32 ∧ submittedQ.record = some b ∧ pairOf.issuerDone submittedQ = true ∧
    pairOf.subCancelled submittedQ b = false ∧ a.spl = true ∧ b.spl = true := by
  and_intros <;> decide +kernel

theorem witness_LaunchesAreServed_check (r : Record) (h : r = parseRecord recP ∨ r = parseRecord recQ) :
    pairOf.Check (fun _ => 0) (r.candidate 0 true) 1 := by
  have w : pairOf.walk 0 0x50000 = .ok wide := by decide +kernel
  rcases h with rfl | rfl <;>
    exact ⟨by decide +kernel, by decide +kernel, by decide +kernel, ⟨wide, w⟩, fun e => absurd (by decide +kernel) e, fun e => absurd e (by decide +kernel)⟩

theorem witness_LaunchesAreServed_kernels :
    (pairOf.Produces (parseRecord recP) ∧ pairOf.Consumes (parseRecord recQ)) ∧
    (pairOf.EndsAt (parseRecord recP) 2 ∧ pairOf.EndsAt (parseRecord recQ) 2) ∧
    (pairOf.Marked (parseRecord recP) 2 ∧ pairOf.Marked (parseRecord recQ) 2) := by
  unfold State.Produces State.Consumes State.EndsAt State.Marked
  and_intros <;> decide +kernel

/-- The kernels stand in memory. -/
theorem witness_LaunchesAreServed_stand :
    pairOf.kern (parseRecord recP) 2 = kernP ∧ pairOf.kern (parseRecord recQ) 2 = kernQ := by
  have p : (pairOf.kern (parseRecord recP) 2).pro = kernP.pro ∧ (pairOf.kern (parseRecord recP) 2).body = kernP.body ∧
      (pairOf.kern (parseRecord recP) 2).epi = kernP.epi := by decide +kernel
  have q : (pairOf.kern (parseRecord recQ) 2).pro = kernQ.pro ∧ (pairOf.kern (parseRecord recQ) 2).body = kernQ.body ∧
      (pairOf.kern (parseRecord recQ) 2).epi = kernQ.epi := by decide +kernel
  have rp : kernP.r = parseRecord recP ∧ kernP.e = 2 := by decide +kernel
  have rq : kernQ.r = parseRecord recQ ∧ kernQ.e = 2 := by decide +kernel
  have same (x y : Kern) (h : x.pro = y.pro ∧ x.body = y.body ∧ x.epi = y.epi) (r : y.r = x.r ∧ y.e = x.e) : x = y := by
    cases x
    cases y
    simp_all
  exact ⟨same _ _ p rp, same _ _ q rq⟩

/-- A canonical body of one tile move. -/
theorem canonical (k : Kern) (m : InstrWord) (i : Instr)
    (hi : (match i with
      | .bra .. | .brx .. | .call .. | .callx .. | .ret .. | .exit .. | .rett .. | .ctxrest .. | .wspill .. | .wfill .. => false
      | _ => true) = true) (hd : i.destSpecs.all (fun x => match x with | .win _ => true | _ => false) = true)
    (hm : Slot.instr ⟨0, 0, m⟩ = some i) (hb : k.body = [⟨0, 0, m⟩, ⟨1, 0, 0x5C0C04949FE0060000000001#96⟩, ⟨1, 1, 0x1C7818049F00060000000000#96⟩,
      ⟨1, 2, 0x0120000000000000FFFFFFF8#96⟩]) (hc : k.r.creg = 9)
    (ht : relTarget (pcIn k.r 1 2) 0xFFFFFFF8 = pcIn k.r k.r.first 0) : k.Canonical := by
  have b : Slot.instr ⟨1, 2, 0x0120000000000000FFFFFFF8#96⟩ = some (.bra ⟨false, false, ⟨false, 0⟩⟩ 0xFFFFFFF8) := by decide +kernel
  have c : Slot.instr ⟨1, 1, 0x1C7818049F00060000000000#96⟩ =
      some (.cmp h0 .ne .i64 (.pred 0) (.sca 9) .zero 0) := by decide +kernel
  have d : Slot.instr ⟨1, 0, 0x5C0C04949FE0060000000001#96⟩ =
      some (.sub { h0 with u := true } .i64 (.sca 9) (.sca 9) .imm 1) := by decide +kernel
  simp only [Kern.Canonical, hb, List.reverse_cons, List.reverse_nil, List.nil_append, List.cons_append, b, c, d, hc, hm,
    List.filterMap_cons, List.filterMap_nil, List.mem_singleton, forall_eq, ht]
  refine ⟨by decide, trivial, trivial, .inl trivial, trivial, rfl, by decide, trivial, .inl trivial, .inl trivial, rfl, trivial,
    trivial, hi, fun x hx => ?_⟩
  have := List.all_eq_true.mp hd x hx
  cases x <;> simp_all

theorem witness_LaunchesAreServed_canonical : kernP.Canonical ∧ kernQ.Canonical := by
  have i : Slot.instr ⟨0, 0, 0x1DCC00041F00000000000000#96⟩ = some (.tsto h0 0 0 (.sca 1) .zero 0) := by decide +kernel
  have j : Slot.instr ⟨0, 0, 0x1DD000041F00000000000000#96⟩ = some (.tlod h0 0 0 0 (.sca 1) .zero) := by decide +kernel
  exact ⟨canonical kernP 0x1DCC00041F00000000000000#96 (.tsto h0 0 0 (.sca 1) .zero 0) rfl rfl i (by decide +kernel) (by decide +kernel) (by decide +kernel),
    canonical kernQ 0x1DD000041F00000000000000#96 (.tlod h0 0 0 0 (.sca 1) .zero) rfl rfl j (by decide +kernel) (by decide +kernel) (by decide +kernel)⟩

theorem witness_LaunchesAreServed_tiles : TilesApart kernP kernQ 1 0 0 := by
  have e : ((kernQ.body.takeWhile fun x => x.tlod.isNone).filterMap Slot.instr ++
      ((kernQ.body.dropWhile fun x => x.tlod.isNone).drop 1).filterMap Slot.instr).flatMap Instr.blocks = [] := by decide +kernel
  refine ⟨by decide +kernel, by decide +kernel, by decide +kernel, by decide +kernel, fun i hi b hb => ?_⟩
  have := List.mem_flatMap.mpr ⟨i, hi, hb⟩
  rw [e] at this
  exact absurd this List.not_mem_nil

theorem witness_LaunchesAreServed_flows : pairOf.Flows kernP ∧ pairOf.Flows kernQ := by
  unfold State.Flows
  and_intros <;> decide +kernel

theorem witness_LaunchesAreServed_shaped : pairOf.Shaped kernP kernQ := by
  have t : tileOf kernP kernQ = some (0, 1, 0, 0) := by decide +kernel
  refine ⟨by decide +kernel, witness_LaunchesAreServed_canonical.1, witness_LaunchesAreServed_canonical.2,
    witness_LaunchesAreServed_flows.1, witness_LaunchesAreServed_flows.2, by decide +kernel, by rw [t]; rfl, ?_, by decide +kernel⟩
  rw [t]
  exact witness_LaunchesAreServed_tiles

/-- The pair's code fits its limits, and the region's first byte is a place for it. -/
theorem witness_LaunchesAreServed_room :
    Limits kernP kernQ ∧ (pairOf.domain 0).splsize ≠ 0 ∧ pairOf.Room kernP kernQ 0x100000 := by
  have t : ∀ i, i < (0x100000 % 65536 + 128 * startOf (fusedParts kernP kernQ) 5 + 65535) / 65536 →
      pairOf.translate 0 ((0x100000 / 65536 + i) * 65536) = .ok wide := by decide +kernel
  have far : (fusedParts kernP kernQ).all (fun p => p.all fun x => match x.2.instr with
      | some (.spawn ..) | some (.spawna ..) | some (.spawnd ..) | some (.lea ..) => false | _ => true) = true := by decide +kernel
  have d : kernP.r.dom = 0 := by decide +kernel
  refine ⟨by unfold Limits; decide +kernel, by decide +kernel, by decide +kernel, by decide +kernel, by decide +kernel,
    fun e h => absurd h (List.not_mem_nil), fun i hi => ?_, fun k hk i x hx => ?_⟩
  · rw [d, t i hi]
    decide +kernel
  · obtain ⟨p, hp, hm⟩ : ∃ p, p ∈ fusedParts kernP kernQ ∧ x ∈ p := by
      rw [List.getD_eq_getElem?_getD] at hx
      cases e : (fusedParts kernP kernQ)[k]? with
      | none => simp [e] at hx
      | some p => exact ⟨p, List.mem_of_getElem? e, by rw [e] at hx; exact List.mem_of_getElem? hx⟩
    have := List.all_eq_true.mp (List.all_eq_true.mp far p hp) x hm
    clear t far hx hp hm
    unfold Reaches'
    dsimp only
    split <;> first | trivial | (rename_i h; simp [h] at this)

/-- Marks that do not follow R40; records of different grids; a region of no size. -/
theorem witness_LaunchesAreServed_refused :
    (let s := { pairOf with mem := pairOf.mem.setN unwritten 0x30000 (codeLine 0 [0x1DCC00041F00000000000000#96]) }
     s.EndsAt (parseRecord recP) 2 ∧ ¬s.Marked (parseRecord recP) 2 ∧ s.Produces (parseRecord recP)) ∧
    ¬pairOf.Shaped kernP { kernQ with r := { kernQ.r with grid := 2 } } ∧
    (pairOf.updDomain 0 fun d => { d with splsize := 0 }).domain 0 = { pairOf.domain 0 with splsize := 0 } ∧
    (∀ e, ¬({ pairOf with domains := [] } : State).EndsAt (parseRecord recP) e) := by
  refine ⟨?_, fun h => ?_, by decide +kernel, fun e h => ?_⟩
  · unfold State.EndsAt State.Marked State.Produces
    and_intros <;> decide +kernel
  · exact absurd h.1.2.1 (by decide +kernel)
  · have l : (parseRecord recP).last = 1 := by decide +kernel
    have := h.1
    exact absurd (h.2.2 2 (by omega) (by omega)).1 (by decide +kernel)

/-! ### The front end -/

/-- A record that stands alone. -/
def recA : List Byte := recordOf 0x10000 0 0

theorem free_index (s : State) (h : s.launches = []) : s.freeIndex = some 4 := by
  have k : List.range 4092 = 0 :: (List.range 4091).map Nat.succ := List.range_succ_eq_map
  simp only [State.freeIndex, k, State.launch, h, Tab.get, List.map_cons, List.find?_cons]
  rfl

/-- The checks of R385 but the last, whose sum counts the free budgets of the internal activities. -/
theorem witness_LaunchesAreServed_checks :
    let s := (submitting [submitted 1 recA]).dropSubs [submitted 1 recA]
    let r := parseRecord recA
    s.recordFits 0 r = true ∧ r.budget ≠ 0 ∧ Nat.max s.now r.release < r.deadline ∧ s.sealedHit 0 r true = false ∧
    s.quotaOk 0 none (density r.budget r.release r.deadline s.now r.period r.budget) = true ∧ s.hiveOk none r.maxlive = true := by
  decide +kernel

theorem witness_LaunchesAreServed_index (s : State) (h : s.launches = []) : s.freeIndex = some 4 := free_index s h

theorem witness_LaunchesAreServed :
    (let s := (submitting []).updDomain 0 fun d => { d with rings := [(0, { base := 0x1004, tail := 1 })] }
     ({ s with host := { run := true } } : State).ringReady 0 0 = true) ∧
    (let s := submitting [{ submitted 1 [] with line := none }]
     s.subs[0]? = some { submitted 1 [] with line := none } ∧ ({ submitted 1 [] with line := none } : Submission).record = none) ∧
    (let s := submitting [submitted 1 recA]
     let r := parseRecord recA
     (submitted 1 recA).record = some r ∧ s.subCancelled (submitted 1 recA) r = false ∧ r.spl = false ∧
     ({ s.dropSubs [submitted 1 recA] with domains := [] } : State).testRecord 0 r true ≠ 0) ∧
    (let s := { submitting [submitted 1 recA] with jobs := [(9, { live := true, cancelled := true })] }
     let u : Submission := { submitted 1 recA with job := some 9 }
     s.subCancelled u (parseRecord recA) = true ∧ (parseRecord recA).feed = 0 ∧
     s.translate 0 (parseRecord recA).cc.toNat = .ok wide ∧ wide.w = true ∧ wide.fmt = 0) ∧
    (let q : Route := .queue 0 0 7
     let s : State := { base with results := [⟨q, 1⟩] }
     let t : State := s.updDomain 0 fun d => { d with rings := [(1, { held := List.replicate 64 [] })] }
     s.results[0]? = some ⟨q, 1⟩ ∧ ((s.domain 0).rings.get {} 1).held.length < 64 ∧ t.results[0]? = some ⟨q, 1⟩ ∧
     64 ≤ ((t.domain 0).rings.get {} 1).held.length) ∧
    (let r : Ret := { wid := 1, tid := 10, lane := 0, dst := .phys 0, finish := true, serial := 5 }
     let s := { waiting (.launch h0 (.win 0) (.sca 1)) .sent 0 with
       results := [⟨.thread r 0 0 4 0 0 0 none none, 1⟩], lstats := [⟨r, 0, 4, 0⟩] }
     s.results[0]? = some ⟨.thread r 0 0 4 0 0 0 none none, 1⟩ ∧ s.findLane 1 10 = some (1, 0) ∧ r.share = 0 ∧
     ({ s with results := [], lstats := [] } : State).more r = false ∧ (s.lane 1 0).st = .waiting ∧ s.lstats[0]? = some ⟨r, 0, 4, 0⟩ ∧
     (s.launch 4).live = true ∧ (s.launch 4).r.dom = 0 ∧ (s.launch 4).cancelled = false ∧ s.cancelDue 4 = false ∧
     ((s.updLaunch 4 fun l => { l with dl := 0 }).launch 4).dl ≤ s.feTime) ∧
    (let s := { idle with launches := [(4, { launch0 with st := .admitted }), (5, { launch0 with st := .admitted, r := { launch0.r with kind := 1 } }),
       (6, { launch0 with st := .admitted, inst := 1 }),
       (7, { launch0 with st := .admitted, r := { launch0.r with kind := 1, list := true, arg := 0x20000 } })] }
     (∀ k ∈ [4, 5, 6, 7], (s.launch k).live = true ∧ (s.launch k).st = .admitted ∧ (s.launch k).cancelled = false ∧
       (s.launch k).rel ≤ s.feTime ∧ s.cancelDue k = false) ∧ (s.launch 7).r.list = true ∧ (s.launch 7).inst = 0 ∧
     (let t := { s with mem := s.mem.setN unwritten 0x20000 (leBytes 8 0x40000) }
      BitVec.ofNat 64 (leNat ((t.readVa 0 0x20000 8).getD [])) = 0x40000 ∧ t.walk 0 0x40000 = .ok wide ∧ wide.remote = false) ∧
     (s.launch 4).inst = 0 ∧ (s.launch 4).r.kind ≠ 1 ∧ (s.launch 5).inst = 0 ∧ (s.launch 5).r.kind = 1 ∧ (s.launch 5).r.list = false ∧
     (s.launch 6).inst ≠ 0 ∧ (s.launch 6).r.kind ≠ 1) := by decide +kernel

/-- Launch 4 with all its units ended, at device time 9. -/
def ended (period : Nat) : State :=
  { idle with now := 9, launches := [(4, { launch0 with units := 0, r := { launch0.r with period := period } })] }

theorem witness_UnitsEnd :
    (∀ p ∈ [0, 100], let s := ended p
     (s.launch 4).live = true ∧ (s.launch 4).units = 0 ∧ (s.launch 4).spent = true ∧ s.cancelDue 4 = false ∧ (s.launch 4).r.feed = 0 ∧
     (s.launch 4).splice = none ∧ (s.launch 4).r.period = p ∧ (s.launch 4).cancelled = false ∧ (s.launch 4).graph = none ∧
     (s.launch 4).job = none ∧ s.tags = [] ∧ s.cvs = [] ∧ s.translate 0 0x50000 = .ok wide ∧ (s.launch 4).ccaddr = 0 ∧
     (s.launch 4).late = false ∧ (s.domain 0).trace.length < 4096 ∧ s.writesDone 4 = true) ∧
    (let s := { ended 0 with tags := [⟨0x50000 / 64, 9⟩] }.updLaunch 4 fun l => { l with dl := 3, r := { l.r with kind := 2 }, ccaddr := 0x50100, closed := true }
     (s.launch 4).dl ≤ s.feTime ∧ (s.launch 4).spent = true ∧ s.writesDone 4 = true ∧
     (s.putCounter 0 0x50000 (counterWord true false 1 0)).translate 0 0x50100 = .ok wide) ∧
    (let u : UnitRec := { live := true, cc := 0x50000, sealed := true }
     let s : State := { ended 0 with graphs := [(7, u)], jobs := [(8, u)] }
     s.graphs.get {} 7 = u ∧ s.jobs.get {} 8 = u ∧ s.cancels = [] ∧ s.subs = [] ∧ 0 < s.timeAt 0 0x50000) ∧
    (let s : State := { base with
       cancels := [⟨.launch, 4⟩, ⟨.graph, 7⟩, ⟨.job, 8⟩], jobs := [(8, { live := true })]
       graphs := [(7, { live := true, job := some 8 })], launches := [(4, { launch0 with graph := some 7 })] }
     s.cancels[0]? = some ⟨.launch, 4⟩ ∧ (s.launch 4).live = true ∧ (s.launch 4).cancelled = false ∧ (s.warp 1).launch = 4 ∧
     s.cancels[1]? = some ⟨.graph, 7⟩ ∧ (s.graphs.get {} 7).live = true ∧ (s.launch 4).graph = some 7 ∧
     s.cancels[2]? = some ⟨.job, 8⟩ ∧ (s.jobs.get {} 8).live = true ∧ (s.graphs.get {} 7).job = some 8) := by
  exact ⟨by decide +kernel, by decide +kernel, by decide +kernel, by decide⟩

theorem witness_Overruns :
    (let s : State := { base with launches := [(4, { launch0 with dl := 0 }), (5, { launch0 with charges := 2 ^ 32 }),
        (6, { launch0 with charges := 2 ^ 32, r := { launch0.r with suph := 0 } }), (7, { launch0 with st := .grace, grace := 16384 })] }
     ((s.launch 4).live = true ∧ (s.launch 4).late = false ∧ (s.launch 4).cancelled = false ∧ (s.launch 4).dl ≤ s.feTime ∧
       s.cancelDue 4 = false ∧ (s.domain 0).trace.length < 4096) ∧
     (∀ k ∈ [5, 6], (s.launch k).live = true ∧ (s.launch k).st = .running ∧ (s.launch k).cancelled = false ∧
       (s.launch k).budget ≤ (s.launch k).charges ∧ s.cancelDue k = false) ∧
     (s.launch 5).noSup = false ∧ (s.launch 6).noSup = true ∧
     (s.launch 7).st = .grace ∧ 16384 ≤ (s.launch 7).grace ∧ (s.launch 7).live = true ∧
     (let t := (s.updLaunch 6 fun l => { l with r := { l.r with policy := 1 } }).updDomain 0 fun d =>
        { d with rings := [(3, { held := List.replicate 64 [] })] }
      (t.launch 6).r.policy = 1 ∧ 64 ≤ ((t.domain 0).rings.get {} 3).held.length ∧ (t.launch 6).noSup = true ∧
      (t.launch 6).budget ≤ (t.launch 6).charges)) ∧
    (let s := base.updLaunch 4 fun l => { l with st := .grace, pendingOvr := [1] }
     (s.warp 1).live = true ∧ (s.warp 1).launch = 4 ∧ s.overrunLater 1 = false ∧ s.cancelDue 4 = false ∧
     s.overrunLanes 1 = ([0, 1], []) ∧
     ∀ L ∈ [0, 1], (s.lane 1 L).pc = 0x10000 ∧ (s.lane 1 L).st = .ready ∧ (s.lane 1 L).wait = none) := by decide

/-! ### Places -/

/-- An item is not placed before itself. -/
theorem kept_alone (s : State) (x : Item) (h : s.items = [x]) : s.kept x = [] := by
  simp [State.kept, h]

/-- No front end's copy of device time is behind the common one (R27). -/
theorem now_le_feTime (s : State) : s.now ≤ s.feTime := by
  simp only [State.feTime, State.copyTime]
  split <;> omega

/-- An idle package with one launch whose next workgroup is due, and what it needs of the scratchpad. -/
def placing (scratch : Nat) : State :=
  { idle with launches := [(4, { launch0 with placed := 0, r := { launch0.r with clusters := 1, cores := 1, scratch := scratch } })] }

theorem witness_WorkIsPlaced :
    ((placing 4096).items = [.group 4] ∧ (placing 4096).saveReqs = [] ∧ (placing 4096).candidates (.group 4) = [(0, 0), (0, 1)] ∧
      (placing 4096).fits (.group 4) 0 0 = true) ∧
    ((placing (2 ^ 21)).items = [.group 4] ∧ (placing (2 ^ 21)).target (.group 4) = none ∧
      (let r : SaveReq := { core := 0, part := 0, target := 2, roaming := false, since := 0, item := some ((placing (2 ^ 21)).itemId (.group 4)) }
       ∃ x ∈ ({ placing (2 ^ 21) with saveReqs := [r] } : State).saveReqs, x.item = some ((placing (2 ^ 21)).itemId (.group 4)))) ∧
    (let r : SaveReq := { core := 0, part := 0, target := 2, roaming := false, since := 0 }
     let s : State := { base with saveReqs := [r] }
     let late : State := { s with now := 8000 }
     s.saveReqs[0]? = some r ∧ r.roaming = false ∧ (s.group 2).live = true ∧ (s.group 2).warps.any s.settling = false ∧
     s.feTime < r.since + 8000 ∧ r.since + 8000 ≤ late.feTime ∧ (late.launch (late.group 2).launch).live = true ∧
     ((late.domain 0).rings.get {} 3).held.length < 64 ∧
     (({ s with groups := [] } : State).group r.target).live = false) ∧
    (let c : Saved := { id := 9, group := { base.group 2 with live := true }, warps := [(1, base.warp 1)], base := 0x100000, roaming := false,
                        pieces := [(0x100000, [1])] }
     let s : State := { base with saved := [c] }
     s.draining[0]? = some c ∧ s.feTime < c.since + 8000 ∧ s.translate c.dom 0x100000 = .ok wide ∧ wide.w = true ∧ wide.fmt = 0 ∧
     c.since + 8000 ≤ ({ s with now := 8000 } : State).feTime ∧ (s.launch c.launchOf).live = true) ∧
    (let s : State := { idle with launches := [(4, { launch0 with splice := some { p := {}, q := {} } })], unsplices := [4] }
     4 ∈ s.unsplices ∧ s.inHandler 4 = false ∧ s.writesStill 4 = false ∧ s.groups = [] ∧ s.saved = [] ∧ s.cmds = [] ∧
     s.freeIndex = some 5) := by
  have n (t : State) (h : t.now = 8000) : 0 + 8000 ≤ t.feTime := by have := now_le_feTime t; omega
  refine ⟨⟨rfl, rfl, by decide +kernel, ?_⟩, ⟨rfl, ?_, by decide⟩,
    ⟨by decide, by decide, by decide, by decide, by decide, n _ rfl, by decide, by decide, by decide⟩,
    ⟨by decide, by decide, by decide, by decide, by decide, n _ rfl, by decide⟩,
    ⟨by decide, by decide, by decide, by decide, by decide, by decide, by decide +kernel⟩⟩
  · simp only [State.fits, State.slotsFor, State.ranges, kept_alone _ _ (rfl : (placing 4096).items = [.group 4])]
    decide
  · simp only [State.target, State.fits, State.slotsFor, State.ranges, kept_alone _ _ (rfl : (placing (2 ^ 21)).items = [.group 4])]
    decide

/-- A fused launch whose next workgroup is due. -/
def placingFused : State :=
  (placing 4096).updLaunch 4 fun l => { l with splice := some { p := {}, q := { arg := 7 }, offW := 8, offS := 3, namesW0 := true, namesS1 := true } }

theorem witness_WorkIsPlaced_fused :
    placingFused.items = [.group 4] ∧ placingFused.candidates (.group 4) = [(0, 0), (0, 1)] ∧
    placingFused.fits (.group 4) 0 0 = true ∧ (∃ p, (placingFused.launch 4).splice = some p) := by
  refine ⟨rfl, by decide +kernel, ?_, ⟨_, rfl⟩⟩
  simp only [State.fits, State.slotsFor, State.ranges, kept_alone _ _ (rfl : placingFused.items = [.group 4])]
  decide

/-- A roaming warp of launch 4 that was saved. -/
def savedWarp : Warp := { live := true, launch := 4, roaming := true, lanes := [(0, { tid := 10, st := .ready })] }

def context : Saved := { id := 9, roaming := true, base := 0x20000, warps := [(1, savedWarp)] }

/-- The package in which it waits, with its record in memory. -/
def restoring : State :=
  { idle with
    saved := [context], launches := [(4, { launch0 with r := { launch0.r with kind := 1 } })]
    mem := [(0x1003D, 0x80), (0x1003F, 0x80)] ++ savedRecord ++ [(0x800000, 1), (0x800002, 0x81), (0x810000, 1), (0x810002, 0x82),
      (0x820000, 0x1F)] }

theorem getN_append (m : Tab Byte) (a k n : Nat) :
    m.getN unwritten a (k + n) = m.getN unwritten a k ++ m.getN unwritten (a + k) n := by
  simp [Tab.getN_eq, List.range_add, Nat.add_assoc, Function.comp_def]

/-- Lines that can be read one by one are read as one string. -/
theorem readSpan_lines (s : State) (dom : Nat) : ∀ fuel k va, k ≤ fuel → va % 64 = 0 →
    (∀ i, i < k → s.readVa dom (va + 64 * i) 64 = some (s.mem.getN unwritten (va + 64 * i) 64)) →
    s.readSpan dom fuel va (64 * k) = s.mem.getN unwritten va (64 * k) := by
  intro fuel
  induction fuel with
  | zero =>
    intro k va hk _ _
    obtain rfl : k = 0 := by omega
    rfl
  | succ n ih =>
    intro k va hk hv h
    cases k with
    | zero => rfl
    | succ j =>
      have e : Nat.min (64 * (j + 1)) (64 - va % 64) = 64 := by rw [hv]; simp only [Nat.min_def]; split <;> omega
      have h0 := h 0 (by omega)
      simp only [Nat.mul_zero, Nat.add_zero] at h0
      have step := ih j (va + 64) (by omega) (by omega) fun i hi => by
        have := h (i + 1) (by omega)
        rw [show va + 64 + 64 * i = va + 64 * (i + 1) by omega]
        exact this
      rw [State.readSpan, if_neg (by omega)]
      simp only [e, h0, show 64 * (j + 1) - 64 = 64 * j by omega, step, Option.getD_some]
      rw [show 64 * (j + 1) = 64 + 64 * j by omega, getN_append]

/-- The page tables of `restoring` map the first 256 MiB to themselves. -/
theorem restoring_translate (va : Nat) (h : va < 2 ^ 28) : restoring.translate 0 va = .ok wide := by
  have a : va / 2 ^ (52 - 12 * 0) % 4096 = 0 := by omega
  have b : va / 2 ^ (52 - 12 * (0 + 1)) % 4096 = 0 := by omega
  have c : va / 2 ^ (52 - 12 * (0 + 1 + 1)) % 4096 = 0 := by omega
  have r : restoring.walk 0 va = .ok wide := by
    have root : (restoring.domain 0).root.toNat % 2 ^ 52 = 0x800000 := by decide
    have e0 : restoring.natAt (0x800000 + 8 * 0) 8 = 0x810001 := by decide +kernel
    have e1 : restoring.natAt (0x810000 + 8 * 0) 8 = 0x820001 := by decide +kernel
    have e2 : restoring.natAt (0x820000 + 8 * 0) 8 = 0x1F := by decide +kernel
    simp only [State.walk, root, State.walkFrom, a, b, c, e0]
    rw [if_neg (by decide), if_neg (by decide), if_neg (by decide), if_neg (by decide), if_neg (by decide), if_neg (by decide),
      show fld (BitVec.ofNat 64 0x810001) 51 16 * 2 ^ 16 = 0x810000 by decide, e1, if_neg (by decide), if_neg (by decide),
      if_neg (by decide), if_neg (by decide), if_neg (by decide),
      show fld (BitVec.ofNat 64 0x820001) 51 16 * 2 ^ 16 = 0x820000 by decide, e2, if_neg (by decide), if_pos (by decide),
      if_neg (by decide)]
    decide
  simp only [State.translate, r]
  rfl

theorem restoring_record : restoring.readSpan 0 400 0x21000 0x5000 = restoring.mem.getN unwritten 0x21000 20480 :=
  readSpan_lines _ _ 400 320 _ (by decide) (by decide) fun i hi => by
    have t : ∀ i, i < 320 → wide.key (0x21000 + 64 * i) = 0x21000 + 64 * i := by decide +kernel
    have r : wide.r = true := by decide
    simp only [State.readVa, restoring_translate _ (by omega : 0x21000 + 64 * i < 2 ^ 28), t i hi, r, if_true]
    rfl

theorem restoring_ok : let rec' := restoring.mem.getN unwritten 0x21000 20480
    recordOk rec' 0 4 = true ∧ (∀ L, L < 32 → laneOk rec' L = true) ∧ ∀ L, L < 32 → recField rec' (0x1000 + 64 * L + 0x28) 4 % 4 = 0 := by
  refine ⟨?_, fun L hL => ?_, fun L hL => ?_⟩
  · rw [recordOk]
    simp (disch := decide) only [recField_getN]
    decide +kernel
  · rw [laneOk, blockReserved]
    simp (disch := omega) only [recField_getN]
    revert L
    decide +kernel
  · rw [show 0x1000 + 64 * L + 0x28 = 0x1028 + 64 * L by omega]
    simp (disch := omega) only [recField_getN]
    revert L
    decide +kernel

/-- A lane whose record says that it is ready comes back without a wait. -/
theorem laneBack_ready (bs : List Byte) (L : Nat) (held : Lane) (tid : Nat) (h : recField bs (0x1000 + 64 * L + 0x28) 4 % 4 = 0) :
    (laneBack bs L held tid).wait = none ∧ (laneBack bs L held tid).st ≠ .exited := by
  have r : (laneFrom bs L held true).st = .ready := by
    unfold laneFrom
    simp only [h]
  unfold laneBack
  generalize laneFrom bs L held true = l at r
  generalize recField bs _ _ = dl
  have p : (if l.st = .parked then { l with st := held.st } else l) = l := if_neg (by rw [r]; decide)
  simp only [p]
  have t : (if l.tid = 0 ∧ l.st ≠ .exited then { l with tid := tid } else l).st = .ready := by
    split <;> exact r
  generalize (if l.tid = 0 ∧ l.st ≠ .exited then { l with tid := tid } else l) = m at t
  simp only [t]
  by_cases k : held.st = .entering ∧ m.frag = held.frag
  · rw [if_pos k]
    exact ⟨rfl, fun e => LaneSt.noConfusion (e : LaneSt.entering = .exited)⟩
  · rw [if_neg k]
    exact ⟨rfl, fun e => LaneSt.noConfusion (e : LaneSt.ready = .exited)⟩

theorem lanes_set (f : Nat → Lane) (ls : List Nat) : ∀ (t : Tab Lane) (L : Nat),
    (ls.foldl (fun t L => t.set {} L (f L)) t).get {} L = if L ∈ ls then f L else t.get {} L := by
  induction ls with
  | nil => simp
  | cons a as ih =>
    intro t L
    rw [List.foldl_cons, ih, Tab.get_set]
    by_cases h : L ∈ as <;> by_cases k : L = a <;> simp [h, k]

theorem context_record (w : Warp) : context.recordVa w + 0x1000 = 0x21000 := by
  simp [Saved.recordVa, context]

theorem acq_wait (l : Lane) (t : Word) : (if l.st = .exited then l else { l with acq := t }).wait = l.wait ∧
    (if l.st = .exited then l else { l with acq := t }).st = l.st := by
  split <;> exact ⟨rfl, rfl⟩

theorem witness_WorkIsPlaced_restore :
    restoring.saved[0]? = some context ∧ context.roaming = true ∧ restoring.restoreDue context = true ∧
    restoring.items = [.restore context] ∧ restoring.fits (.restore context) 0 0 = true ∧
    ∃ w x, context.warps = [(1, w)] ∧ restoring.readWarp context w false = (x, []) ∧ (∀ L, L < 32 → (x.lane L).wait = none) ∧
      ∀ L, L < 32 → (w.lane L).st ≠ .exited → (x.lane L).st ≠ .exited := by
  have ok := restoring_ok
  have lane (w : Warp) (hw : w.dom = 0) (L : Nat) (h : L < 32) : ((restoring.readWarp context w false).1.lane L).wait = none ∧
      ((restoring.readWarp context w false).1.lane L).st ≠ .exited := by
    have b := laneBack_ready (restoring.mem.getN unwritten 0x21000 20480) L (w.lane L) (restoring.serial + 32 * w.index + L) (ok.2.2 L h)
    rw [State.readWarp]
    simp only [Warp.lane, Warp.refrag]
    rw [lanes_set, if_pos (List.mem_range.mpr h), context_record, hw, restoring_record]
    have e := acq_wait (laneBack (restoring.mem.getN unwritten 0x21000 20480) L (w.lane L) (restoring.serial + 32 * w.index + L))
      (BitVec.ofNat 64 (Nat.max (laneBack (restoring.mem.getN unwritten 0x21000 20480) L (w.lane L)
        (restoring.serial + 32 * w.index + L)).acq.toNat context.time.toNat))
    exact ⟨e.1.trans b.1, fun k => b.2 (e.2.symm.trans k)⟩
  have fails (w : Warp) (hw : w.dom = 0) (hl : w.launch = 4) : (restoring.readWarp context w false).2 = [] := by
    rw [State.readWarp]
    simp only []
    rw [context_record, hw, hl, restoring_record, List.filter_eq_nil_iff]
    intro L h
    rw [ok.1, ok.2.1 L (List.mem_range.mp h)]
    simp
  refine ⟨by decide, rfl, by decide, rfl, ?_, savedWarp, (restoring.readWarp context savedWarp false).1, rfl,
    Prod.ext rfl (fails savedWarp rfl rfl), fun L h => (lane savedWarp rfl L h).1, fun L h _ => (lane savedWarp rfl L h).2⟩
  simp only [State.fits, State.slotsFor, State.ranges, kept_alone _ _ (rfl : restoring.items = [.restore context])]
  decide

/-! ### Engines, the matrix unit, the host -/

/-- A tile record: a base at 0x20080, two elements of F64 in one row. -/
def tileRecord : List Byte :=
  leBytes 8 0x20080 ++ leBytes 4 2 ++ leBytes 4 1 ++ leBytes 4 1 ++ leBytes 4 1 ++ leBytes 24 0 ++ leBytes 2 2 ++ leBytes 2 1 ++
    leBytes 12 8

/-- The bytes of a tile command with its record at 0x20040, rows 16 bytes apart. -/
def tileBytes (opc : Byte) (tail : List Byte) : List Byte :=
  [opc, 0, 8] ++ leBytes 5 0 ++ leBytes 8 0x20040 ++ leBytes 20 0 ++ leBytes 4 16 ++ tail ++ leBytes (24 - tail.length) 0

/-- A command of the workgroup of `base`. -/
def cmd (bytes : List Byte) (e : EngineKind) : Cmd :=
  { serial := 15, bytes := bytes, engine := e, core := 0, part := 0, dom := 0, launch := 4, wid := 1, tid := 10, group := 2, lane := none }

/-- `base` with one command. -/
def withCmd (c : Cmd) : State := { base.updGroup 2 (fun g => { g with acc := true }) with mem := mem0.setN unwritten 0x20040 tileRecord, cmds := [c] }

/-- MASK 1 and MWIN 1 of a multicast. -/
def mcTail : List Byte := leBytes 4 7 ++ leBytes 2 1 ++ leBytes 2 1

theorem witness_EngineCommandsRun_tiles : ∀ x ∈ [(1, []), (2, []), (3, []), (4, mcTail)],
    let c := cmd (tileBytes (BitVec.ofNat 8 x.1) x.2) .copy
    (withCmd c).TileStarts 0 c (leafOf 2 0x1F) (fun _ => leafOf 2 0x1F) ∧ c.opc = x.1 := by
  unfold State.TileStarts State.Mapped Cmd.Fresh
  decide

/-- An LCOPY of eight bytes from 0x20000 to 0x20100. -/
def lcopyCmd : Cmd := cmd ([5] ++ leBytes 7 0 ++ leBytes 8 0x20000 ++ leBytes 8 0x20100 ++ leBytes 4 8 ++ leBytes 36 0) .copy

/-- A CONDENSE of two passes of one element of F64. -/
def condCmd : Cmd :=
  cmd ([0x10, 0, 8] ++ leBytes 5 0 ++ leBytes 4 0 ++ leBytes 4 16 ++ leBytes 2 1 ++ leBytes 2 1 ++ leBytes 4 2 ++ leBytes 4 64 ++
    leBytes 4 128 ++ leBytes 8 0 ++ leBytes 24 0) .cond

/-- A DISPATCH of one token of eight bytes to peer 0, whose table row stands at 0x20040. -/
def dispCmd (flags src : Nat) : Cmd :=
  cmd ([0x20, BitVec.ofNat 8 flags] ++ leBytes 6 0 ++ leBytes 8 src ++ leBytes 8 0x20200 ++ leBytes 8 0x20040 ++ leBytes 4 1 ++
    leBytes 4 8 ++ leBytes 24 0) .disp

/-- `base` with that CONDENSE in s8 to s15. -/
def condensing : State :=
  base.updWarp 1 fun w => { w with
    sregs := (List.range 8).map fun i => (8 + i, BitVec.ofNat 64 (leNat ((condCmd.bytes.drop (8 * i)).take 8))) }

theorem witness_MatrixInstructions_mcond :
    let cond := parseCondense (((List.range 8).map fun i => condensing.heldOpnd 0 (.sca (Fin.ofNat 64 (8 + i))) 0).flatMap
      fun y => leBytes 8 y.toNat)
    condensing.active h0 = [0, 1] ∧ condensing.cur.retry = false ∧
    (cond.any fun c => c.inside (condensing.scratchRange condensing.cw (condensing.originOf 0))) = true := by decide

theorem witness_EngineCommandsRun :
    (let s := withCmd lcopyCmd
     s.engineNext .copy 0 = some lcopyCmd ∧ lcopyCmd.opc = 5 ∧ lcopyCmd.lcopyBad = false ∧ s.tags = [] ∧
     s.tlbHit 0 0 0x20000 = some (leafOf 2 0x1F) ∧ s.tlbHit 0 0 0x20100 = some (leafOf 2 0x1F)) ∧
    (let s := withCmd condCmd
     ∃ x, parseCondense condCmd.bytes = some x ∧ s.engineNext .cond 0 = some condCmd ∧ condCmd.core = 0 ∧
       x.inside (s.scratchRange (s.warp 1) condCmd.origin) = true ∧ overlap x.dst x.dstLen x.mout 8 = false ∧ x.npass = 2 ∧
       s.condBusy .cond 0 = false ∧ (waiting (.mcond h0 (.win 1) 8) .hold 0).condBusy .cond 0 = true ∧
       (let c := { condCmd with st := .running, total := 2 }
        (withCmd c).engineNext .cond 0 = some c ∧ c.prog < c.total ∧ c.sub < x.rows)) ∧
    (∀ y ∈ [(128, 0), (0, 0x20000)],
      let c := dispCmd y.1 y.2
      let row : List Byte := leBytes 8 0x30000 ++ leBytes 4 64 ++ leBytes 4 1
      let s : State := { base with mem := mem0.setN unwritten 0x20040 row, cmds := [c] }
      s.engineNext .disp 0 = some c ∧ c.opc = 0x20 ∧ c.dispatchBad = false ∧ c.f 0x20 4 = 1 ∧ s.natAt 0x20200 8 = 0 ∧
      s.bytesAt 0x20040 16 = row ∧ 0 < leNat ((row.drop 12).take 4) ∧ c.f 8 8 = y.2 ∧ c.f 1 1 = y.1 ∧
      s.tlbHit 0 0 0x30000 = some (leafOf 3 0x41F)) := by
  exact ⟨by decide, ⟨_, rfl, by decide⟩, by decide⟩

/-- A multicast that joined, of two elements. -/
def mcCmd : Cmd := { cmd (tileBytes 4 mcTail) .copy with st := .joined, record := tileRecord, esize := 8, total := 2 }

/-- Its join, and the group that core 0 alone makes up. -/
def mcJoin : McJoin := { cmd := 15, core := 0, home := 0, dom := 0, key := 7, desc := [] }

def mcGroup : McGroup :=
  { id := 3, home := 0, dom := 0, cluster := 0, desc := [], key := 7, mask := 1, members := [{ cmd := 15, core := 0 }], streamAt := 0, closeAt := 0 }

/-- `base` with multicasts and groups. -/
def casting (cs : List Cmd) (gs : List McGroup) : State := { base with cmds := cs, mjoins := [mcJoin], mgroups := gs }

theorem witness_CommandsRetire :
    (let c := { lcopyCmd with st := .finished, track := some (3, 1) }
     let s : State := { base with cmds := [c] }
     (s.cmds.filter fun x => x.st = .finished)[0]? = some c ∧ c.error = none ∧ (s.warp 1).live = true ∧ (s.warp 1).roaming = false ∧
     (s.warp 1).group = c.group ∧ (s.group 2).live = true ∧ 1 ∈ (s.group 2).warps ∧ (∃ L, L < 32 ∧ ((s.warp 1).lane L).st ≠ .exited) ∧
     ((s.group 2).tls.get {} 3).retired = [] ∧ 1 = ((s.group 2).tls.get {} 3).done + 1) ∧
    (let e : TlErr := { n := 1, cause := 0x0A, sub := 0x03, info0 := 0 }
     let c := { lcopyCmd with st := .finished, wid := 2, error := some e }
     let s : State := { base with cmds := [c] }
     (s.cmds.filter fun x => x.st = .finished)[0]? = some c ∧ c.error = some e ∧ c.track = none ∧ (s.warp c.wid).live = false) ∧
    (let s := casting [mcCmd] []
     s.mjoins[0]? = some mcJoin ∧ s.cmds.find? (fun x => decide (x.serial = mcJoin.cmd) && decide (x.st ≠ .finished)) = some mcCmd ∧
     ∀ d ∈ [[], [1]], ({ mcGroup with desc := d, pos := 1 } : McGroup).key = mcJoin.key ∧ mcGroup.dom = mcJoin.dom ∧
       mcGroup.cluster = mcJoin.core / 16 ∧ mcGroup.home = mcJoin.home ∧ ([] = mcJoin.desc ∧ [1] ≠ mcJoin.desc)) := by decide

theorem witness_CommandsRetire_stream :
    (let away := casting [{ mcCmd with st := .paused }] [mcGroup]
     away.mgroups[0]? = some mcGroup ∧ mcGroup.whole = true ∧ mcGroup.pos < away.mcTotal mcGroup ∧
     (∀ m ∈ mcGroup.members, away.attached m = none) ∧
     ¬({ mcGroup with mask := 3, streamAt := 2000 } : McGroup).whole = true ∧ ¬2000 ≤ away.homeTime 0) ∧
    (let g := { mcGroup with pos := 2, streaming := true }
     let s := casting [{ mcCmd with prog := 2 }] [g]
     g.streaming = true ∧ s.mcTotal g ≤ g.pos ∧ s.mcReplay g = none ∧ g.whole = true ∧
     ∀ c ∈ s.cmds.filter (fun c => g.members.any (fun m => m.cmd = c.serial) && decide (c.st ≠ .finished)),
       c.prog = c.total ∧ c.st = .joined ∧ c.note = none) ∧
    (let s := casting [mcCmd] [mcGroup]
     mcGroup.pos = 0 ∧ 0 < s.mcTotal mcGroup ∧ mcGroup.lines = [] ∧
     mcGroup.members.Pairwise (fun _ _ => (mcCmd.core : Nat) ≠ mcCmd.core) ∧
     ∀ m ∈ mcGroup.members, s.attached m = some mcCmd ∧ mcCmd.Ready s (fun _ => leafOf 2 0x1F) ∧ mcCmd.total = s.mcTotal mcGroup) := by
  unfold Cmd.Ready State.Mapped
  exact ⟨by decide, by decide, by decide⟩

/-- An operation of F64 at partition 0 with one row of activations at address 0. -/
def matOp (sparse : Bool) (amap wmap wd : Word) : MatOp :=
  { serial := 5, sparse := sparse, wid := 1, group := 2, launch := 4, act := 0x8000000000, streamAct := 0x8000000000, amap := amap,
    wmap := wmap, wd := wd }

/-- `base` while partition 0 runs it. -/
def computing (o : MatOp) : State := { base with parts := [(0, { mat := { st := .running, op := o } })] }

theorem witness_MatrixOperationsRun :
    (let o := matOp false 0 0 0
     let s : State := { waiting (.mma h0 .f64 none .zero .zero 0) .sent 0 with parts := [(0, { mat := { waiting := [o] } })] }
     (s.part 0).mat.waiting = [o] ∧ o.cv = none ∧ o.signed = true ∧ (s.part 0).mat.free = true ∧ s.waiters 1 5 ≠ []) ∧
    (let o := matOp false 0 0 0
     let s := computing o
     (s.part 0).mat.st = .running ∧ o.row < actM o.act ∧ 0 ∈ s.mates o 0 ∧
     ∀ q ∈ s.mates o 0, (s.part q).mat.st = .running ∧ (s.part q).mat.op.mode = o.mode ∧ (s.part q).mat.op.row = o.row ∧
       actM (s.part q).mat.op.act = actM o.act ∧
       accAddr (s.part q).mat.op.accd + (actM o.act * o.mode.N + 0) * o.mode.asize ≤ 131072) ∧
    (∀ m ∈ [MatMode.f64, .bf16, .bfp 0], m.codeOk 0 = true ∧ (List.replicate (m.rb 0) (0 : Byte)).length = m.rb 0 ∧
      (List.replicate (m.pb 0) (0 : Byte)).length = m.pb 0) := by
  refine ⟨by decide, by decide, fun m h => ⟨?_, by simp, by simp⟩⟩
  revert m
  decide

theorem witness_MatrixOperationsRun_sparse :
    (∀ x ∈ [((1 : Nat), (1 : Nat), true, true), (0, 0, false, false), (1, 0, true, false)],
      let o := matOp true (BitVec.ofNat 64 x.1) (BitVec.ofNat 64 x.2.1) 0
      let s := computing o
      (s.part 0).mat.st = .running ∧ o.sparse = true ∧ o.cv = none ∧ o.row = 0 ∧ 0 < actM o.act ∧
      o.amap.getLsbD o.pass = x.2.2.1 ∧ o.wmap.getLsbD o.pass = x.2.2.2 ∧
      (o.rowOf (s.actBytes o 0 0)).any FVal.special = false) ∧
    (let o := matOp true 1 0 0
     let s : State := { computing o with scratch := Tab.setN unwritten [] 0 (List.replicate 8 0xFF) }
     (o.rowOf (s.actBytes o 0 0)).any FVal.special = true) := by
  exact ⟨by decide +kernel, by decide +kernel⟩

/-- A domain owned by port 0's function 3, with a ring of 16 entries. -/
def owned (ring : Nat) (g : Ring) : State :=
  { base with
    domains := [(0, { root := 0x800000, owner := 0x8000000000000003, aperva := 0x20000, rings := [(ring, g)] })]
    host := { apersel := [(3, 0x80)] } }

theorem witness_HostAccesses :
    (let s := owned 0 { base := 0x1004 }
     let g := (s.domain 0).rings.get {} 0
     ((s.domain 0).owner.getLsbD 63 = true ∧ ((s.domain 0).owner.extractLsb' 7 1).toNat = false.toNat ∧
       ((s.domain 0).owner.extractLsb' 0 7).toNat = 3 ∧ ((s.domain 0).owner.extractLsb' 0 7).toNat ≠ 4) ∧
     g.present = true ∧ ((16 : BitVec 32) - g.head).toNat ≤ 2 ^ (g.base.extractLsb' 0 5).toNat ∧
     2 ^ (g.base.extractLsb' 0 5).toNat < ((17 : BitVec 32) - g.head).toNat) ∧
    (let s := owned 1 { base := 0x1004, held := [[1], [2]] }
     let g := (s.domain 0).rings.get {} 1
     g.held = [[1], [2]] ∧ g.present = true ∧ (g.tail - g.head).toNat < 2 ^ (g.base.extractLsb' 0 5).toNat ∧ g.held.length < 64 ∧
     ((owned 1 {}).domain 0).rings.get {} 1 = {} ∧
     64 ≤ (((owned 1 { held := List.replicate 64 [1] }).domain 0).rings.get {} 1).held.length ∧
     (((owned 5 { base := 0x1004, held := [[1]], waits := [[2]] }).domain 0).rings.get {} 5).waits ≠ []) ∧
    (let s := owned 0 {}
     s.host.apersel.get 0 (128 * false.toNat + 3) = 0x80 ||| BitVec.ofNat 8 0 ∧ s.translate 0 ((s.domain 0).aperva.toNat + 8) = .ok wide ∧
     wide.r = true ∧ wide.w = true ∧ wide.fmt = 0 ∧ (s.domain 0).aperva.toNat + 8 < 2 ^ 64 ∧
     ((s.domain 0).aperva.toNat + 8) % 64 + 8 ≤ 64) ∧
    ((base.domain 0).owner.getLsbD 63 = false ∧ ∃ e ∈ base.launches, e.2.live = true ∧ e.2.r.dom = 0) ∧
    ((owned 0 {}).domain 0).owner.getLsbD 63 = true ∧ (0 : BitVec 64).getLsbD 63 = false ∧ ¬(4 = 8 ∧ 0 % 8 = 0) := by
  refine ⟨by decide, by decide, by decide, by decide, by decide, by decide, by decide⟩

theorem witness_BringUpAndFirmware :
    State.reset.host.run = false ∧ ({ run := true } : HostRegs).run = true ∧ (State.reset.host.fw.get {} 0).st = 0 ∧
    (∀ d, d < 4 → (State.reset.host.fw.get {} d).loading = false ∧ (State.reset.host.fw.get {} d).st ≠ 2 ∧
      (State.reset.host.fw.get {} d).st ≠ 3) ∧
    (let h : HostRegs := { fw := [(0, { st := 2, loading := true }), (1, { st := 3, loading := true, taking := true })] }
     (h.fw.get {} 0).loading = true ∧ (h.fw.get {} 0).taking = false ∧ (h.fw.get {} 1).loading = true ∧
     (h.fw.get {} 1).taking = true ∧ (h.fw.get {} 0).st ≠ 0) := by decide

/-- `base` with a command in domain 0's CQ, whose bytes the host places. -/
def commanded (cmd : List Byte) (f : Domain → Domain) : State :=
  { base with
    hostIn := [cmd]
    domains := [(0, f { root := 0x800000, rings := [(2, { base := 0x1004, tail := 1 })] })] }

/-- A command of CQ: its code, its selector, its launch, and its operands. -/
def cqBytes (op sel launch : Nat) (x : Nat) : List Byte :=
  leBytes 1 op ++ leBytes 1 sel ++ leBytes 2 launch ++ leBytes 4 0 ++ leBytes 8 x ++ leBytes 16 0

theorem witness_HostCommands :
    (∀ op ∈ List.range 8, let s := commanded (cqBytes op 0 0 0) id
     s.ringReady 0 2 = true ∧ s.hostIn = [cqBytes op 0 0 0] ∧ (cqBytes op 0 0 0).length = 32 ∧
     leNat ((cqBytes op 0 0 0).take 1) = op) ∧
    (let f : Frag := { id := 7, lanes := 3, sib := 0, parent := 0, slot := 0, st := .parked, ev := { cause := 6, sub := 1 }, serial := 5 }
     let s : State := { (commanded (cqBytes 1 0 0 0x101400) id) with
       warps := [(1, { base.warp 1 with frags := [f], lanes := (base.warp 1).lanes.map fun (e : Nat × Lane) => (e.1, { e.2 with st := .parked, frag := 7 }) })] }
     (s.parkedAt 0 0x101400) = some (1, f) ∧ s.cancelDue (s.warp 1).launch = false ∧ s.Unarrived 1 ∧ f.ev.kind ≠ 3) ∧
    (let s : State := { (commanded (cqBytes 2 0 4 0) id) with launches := [(4, { launch0 with st := .parked })] }
     (s.launch 4).live = true ∧ (s.launch 4).r.dom = 0 ∧ (s.launch 4).st = .parked ∧ (s.launch 4).cancelled = false ∧
     s.cancelDue 4 = false) ∧
    (let s : State := { (commanded (cqBytes 3 0 4 0) id) with
       launches := [(4, { launch0 with splice := some { p := {}, q := {}, retained := true } })] }
     (∃ p, (s.launch 4).splice = some p ∧ p.retained = true ∧ p.unsplicing = false) ∧ 4 ∉ s.unsplices ∧
     ((commanded (cqBytes 3 0 4 0) id).launch 4).splice = none) ∧
    (let s := commanded (cqBytes 4 0 0 0x50000) id
     s.unitAt .launch 0 0x50000 = some 4 ∧ s.unitCancelled .launch 4 = false ∧ s.walks = [] ∧ s.walk 0 0x50000 = .ok wide ∧
     (s.domain 0).job = none) ∧
    ((commanded (cqBytes 7 0 0 0) fun d => { d with job := some 9 }).domain 0).job = some 9 ∧
    (((commanded (cqBytes 1 3 0 0) id).domain 0).rings.get {} 3).held.length < 64 ∧
    64 ≤ (((commanded (cqBytes 1 3 0 0) fun d =>
      { d with rings := d.rings.set {} 3 { held := List.replicate 64 [1] } }).domain 0).rings.get {} 3).held.length := by
  unfold State.Unarrived
  refine ⟨by decide, by decide, by decide, ⟨⟨_, rfl, by decide⟩, by decide⟩, ?_⟩
  and_intros <;> decide

theorem witness_PowerLinksAndTime :
    let h : HostRegs := { timesrc := 9 }
    h.timesrc.toNat = 9 ∧ h.alarm = false ∧ ({ alarm := true } : HostRegs).alarm = true ∧
    ({ narrowDue := true } : HostRegs).narrowDue = true ∧
    (let s : State := { State.reset with now := 100000, host := { narrow := true } }
     s.host.narrow = true ∧ s.host.alarm = false ∧ ({ alarm := true, pwr := 3000 } : HostRegs).pwr.toNat > 2000 ∧
     ¬2000 < ({ alarm := true } : HostRegs).pwr.toNat ∧ s.host.alarmAt + 100000 ≤ s.now) ∧
    (h.ucie.get 0 3).getLsbD 3 = false ∧ h.uePorts.getLsbD 7 ≠ true ∧
    ((owned 0 {}).domain 0).owner.getLsbD 63 = true := by decide

theorem witness_HandlersAreEntered :
    let f : Frag := { id := 7, lanes := 3, sib := 0, parent := 0, slot := 0, st := .pending, ev := { cause := 0x0D, sub := 1 }, serial := 5 }
    let s := (lanesAre fun l => { l with st := .entering, frag := 7 }).updWarp 1 fun w => { w with frags := [f], slots := 1 }
    let away := { s.updWarp 1 fun w => { w with roaming := true } with domains := [(0, { root := 0x800000 })] }
    (s.warp 1).frags.find? (fun x => x.id.toNat = 7 ∧ x.st = .pending) = some f ∧ (s.warp 1).live = true ∧ s.governed 1 s.serial = false ∧
    (s.launch 4).st ≠ .parked ∧ s.tags = [] ∧ (s.launch 4).r.traph ≠ 0 ∧ s.targetCheck 0 0 (s.launch 4).r.traph = none ∧
    s.translate 0 (s.frameVa 1 0) = .ok wide ∧ wide.w = true ∧ wide.fmt = 0 ∧ s.frameVa 1 0 % 128 = 0 ∧
    (s.warp 1).roaming = false ∧ s.writeFault 0 (s.frameVa 1 0) = none ∧ s.writeFault 0 (s.frameVa 1 0 + 64) = none ∧
    ((s.updLaunch 4 fun l => { l with r := { l.r with traph := 0 } }).launch 4).r.traph = 0 ∧
    (s.targetCheck 0 0 0x10007).isSome = true ∧
    ((away.warp 1).roaming = true ∧ (away.domain 0).rsave = 0 ∧ (away.warp 1).frags = [f]) ∧
    (let t : State := { s with domains := [] }
     (t.writeFault 0 (t.frameVa 1 0)).isSome = true ∧ (t.warp 1).roaming = false ∧ (t.warp 1).frags = [f]) := by
  and_intros <;> decide

theorem witness_ChecksRaiseTraps :
    let s := { base with cur := { base.cur with a1 := 1 }, walkFails := [⟨0, 0, 7, 0x01⟩] }
    s.active h0 = [0] ∧ (s.cl 0).handler = false ∧ (s.cl 0).sup = false ∧
    (s.tr (s.ea 0 (.sca 3) .zero 0 0) = .ok (leafOf 4 0x05) ∧ (leafOf 4 0x05).w = false ∧ (leafOf 4 0x01).r = false) ∧
    (s.tr (s.ea 0 (.sca 6) .zero 0 0) = .ok (leafOf 6 (3 * 2 ^ 52 + 0x1F)) ∧ 3 ≤ (leafOf 6 (3 * 2 ^ 52 + 0x1F)).fmt) ∧
    (s.tr (s.ea 0 (.sca 1) .zero 0 1) = .ok (leafOf 2 0x1F) ∧ (s.ea 0 (.sca 1) .zero 0 1).toNat % 8 ≠ 0) ∧
    (1572864 < (s.ea 0 .zero .zero 0 1572864).toNat + 8 ∧ (s.ea 0 .zero .zero 0 4096).toNat + 8 ≤ 1572864 ∧
      ¬(s.ea 0 .zero .zero 0 4096).toNat + 8 ≤ (s.scratchRange s.cw s.cur.origin).1 + (s.scratchRange s.cw s.cur.origin).2) ∧
    ((5 : Word).extractLsb' 0 3).toNat > 4 ∧ ((8 : Word).extractLsb' 0 3).toNat ≤ 4 ∧ (8 : Word).extractLsb' 3 3 ≠ 0 ∧
    (((lanesAre fun l => { l with resf := 2 }).cl 0).resf = 2 ∧ ((lanesAre fun l => { l with depth := 1 }).cl 0).depth ≠ 0) ∧
    s.tr 0x70000 = .fail 0x01 ∧
    (let va := s.frameVa s.cur.wid (freeSlot s.cw.slots).toNat
     s.writeFault s.cw.dom va = none ∧ s.writeFault s.cw.dom (va + 64) = none) := by
  and_intros <;> decide

/-- ADD w1 = w0 + 7. -/
def addWord : InstrWord := 0x1C0800100FE0060000000007

/-- Reset with it placed for the next step. -/
def added : State := State.reset.withFetchWord 96 0x1C0800100FE0060000000007

theorem witness_StepRunsTheDecodedInstruction :
    let u := added.turnTaken
    let line := lineWith addWord
    let i : Instr := .add h0 .i64 (.win 1) (.win 0) .imm 7
    added.turns = [.issue 0 0] ∧ (u.part 0).pair = none ∧
    u.warpsWhere (fun k => k.live && decide (k.core = 0) && decide (k.part = 0)) = [1] ∧ u.select 1 = some (0x10000, [0], false) ∧
    u.Fetches 1 0x10000 [0] (leafOf 1 0x1F) line ∧ BitVec.ofNat 96 (leNat (line.take 12)) = addWord ∧ decode addWord = .instr i ∧
    u.MayIssue 1 0x10000 [0] addWord i := by
  unfold State.Fetches State.MayIssue
  decide +kernel

theorem witness_StepRunsTheDecodedInstruction_second :
    let u : State := { added.turnTaken with parts := [(0, { pair := some (1, 0x10000, 1) })] }
    let v := u.updPart 0 (fun q => { q with pair := none })
    let stand (m : LaneMask) := (v.undeferred 1).1.filter fun L => m.getLsbD L && decide ((v.lane 1 L).pc = 0x10000)
    (u.part 0).pair = some (1, 0x10000, 1) ∧ stand 1 = [0] ∧ stand 2 = [] ∧ v.Fetches 1 0x10000 [0] (leafOf 1 0x1F) (lineWith addWord) ∧
    v.MayIssue 1 0x10000 [0] addWord (.add h0 .i64 (.win 1) (.win 0) .imm 7) := by
  unfold State.Fetches State.MayIssue
  decide +kernel

theorem witness_StepRunsTheDecodedInstruction_illegal :
    let bad : InstrWord := BitVec.ofNat 96 (2 * 2 ^ 82 + 1)
    let u := (State.reset.withFetchWord 96 (2 * 2 ^ 82 + 1)).turnTaken
    u.select 1 = some (0x10000, [0], false) ∧ u.Fetches 1 0x10000 [0] (leafOf 1 0x1F) (lineWith bad) ∧
    BitVec.ofNat 96 (leNat ((lineWith bad).take 12)) = bad ∧ decode bad = .illegal 0x06 := by
  unfold State.Fetches
  decide +kernel

theorem witness_StepRunsTheDecodedInstruction_turns :
    (let s : State := { waiting (.fence h0 .group) .hold 0 with turns := [.retry 1 5, .event (.tlbWalk 0), .tick 7], host := { run := true } }
     (∃ i y, s.turnTaken.retryOf 1 5 = some (i, y)) ∧ (Instr.tlbWalk 0).isWord = false ∧ (Instr.tlbWalk 0).wf = true ∧
     s.host.run = true) := ⟨⟨_, _, rfl⟩, by decide⟩

theorem witness_DecodeAndEncodeAgree :
    (pack (unpack 0x1C0800100FE0060000000007) ≠ BitVec.allOnes 96 ∧ illegalSub (unpack 0x1C0800100FE0060000000007) = none) ∧
    (pack (unpack (BitVec.ofNat 96 (2 * 2 ^ 82 + 1))) ≠ BitVec.allOnes 96 ∧
      illegalSub (unpack (BitVec.ofNat 96 (2 * 2 ^ 82 + 1))) = some 0x06) := by decide

theorem witness_StepKeepsMemoryCanonical : Memory.wf added.mem = true ∧ ∃ t, step added = .next t := by
  refine ⟨by decide, ?_⟩
  have h : (match step added with | .next _ => true | _ => false) = true := by decide
  split at h
  · next t e => exact ⟨t, e⟩
  · simp at h

theorem witness_CompareSelectPermute : (base.launch base.cw.launch).splice = none := by decide

theorem witness_Attestation :
    (let s := { base with host := { base.host with spdm := [(3, { version := true, caps := true, algs := true })] } }
     (s.conn 3).version = true ∧ (s.conn 3).caps = true ∧ (s.conn 3).algs = true ∧ (base.conn 3).version = false) := by decide

end Sys2Proof.Tests
end

section
/-! The turns of the machine: what a fetch that passes its checks makes of a warp's attempt, what the choice among the warps of a
partition makes of a warp that is alone there, and what one step is in each kind of turn. -/

namespace Sys2Proof.Machine

/-- The instruction or the sub-cause that a fetched word stands for: the all-zero word is NOP (R63). -/
def fetched (word : InstrWord) : Decoded :=
  if word = 0 then .instr (.nop ⟨false, false, ⟨false, 7⟩⟩) else decode word

/-! ### A fetch that passes its checks -/

theorem fld_slot (pc : Word) : fld pc 2 0 = (pc.extractLsb' 0 3).toNat := by simp [fld]

theorem fld_inLine (pc : Word) : fld pc 5 3 = (pc.extractLsb' 3 3).toNat := by simp [fld, Nat.shiftRight_eq_div_pow]

/-- A line that passes its checks, entered at a slot that the entering lanes may enter, fails in no lane (R44, R62). -/
theorem State.fetchFault_of_fetches {u : State} {wid : Nat} {pc : Word} {ls : List Nat} {f : Leaf} {line : List Byte}
    (hf : u.Fetches wid pc ls f line) :
    u.fetchFault (u.warp wid) pc ls (fun L => ((u.warp wid).lane L).entry) =
      ([], slotWord line (pc.extractLsb' 0 3).toNat) := by
  obtain ⟨-, -, hslot, hzero, hline, hentry⟩ := hf
  have hentries : lineWord line / 2 ^ (15 + (pc.extractLsb' 0 3).toNat) % 2 = 0 →
      ls.filter (fun L => ((u.warp wid).lane L).entry) = [] := by
    intro hclear
    rcases hentry with hset | hnone
    · rw [Nat.testBit_eq_decide_div_mod_eq] at hset
      simp [lineWord] at hclear hset
      omega
    · simpa [List.filter_eq_nil_iff] using hnone
  unfold State.fetchFault
  rw [fld_slot, fld_inLine, hzero, if_neg (by omega), if_neg (by simp), hline]
  generalize (pc.extractLsb' 0 3).toNat = slot at *
  by_cases hclear : lineWord line / 2 ^ (15 + slot) % 2 = 0
  · simp only [if_pos hclear, hentries hclear, List.map_nil]
  · simp only [if_neg hclear]

/-- The attempt of a gang whose fetch passes its checks, the word being one that decodes. -/
theorem State.attemptAt_of_instr {u : State} {wid : Nat} {pc : Word} {ls : List Nat} {f : Leaf} {line : List Byte} {i : Instr}
    (hf : u.Fetches wid pc ls f line) (hi : fetched (slotWord line (pc.extractLsb' 0 3).toNat) = .instr i) (undefer second : Bool) :
    u.attemptAt wid pc ls undefer second =
      u.tryInstr wid pc ls undefer second (slotWord line (pc.extractLsb' 0 3).toNat) i := by
  have ⟨_, hmiss, _⟩ := hf
  unfold State.attemptAt
  simp only [hmiss, ne_eq, not_true_eq_false, ↓reduceIte, State.fetchFault_of_fetches hf]
  generalize slotWord line (pc.extractLsb' 0 3).toNat = word at *
  unfold fetched at hi
  split at hi
  · next hzero => cases hi; simp only [if_pos hzero]
  · next hzero => simp only [if_neg hzero, hi]

/-- The same with a word that is none: the whole gang traps with ILLEGAL (R63). -/
theorem State.attemptAt_of_illegal {u : State} {wid : Nat} {pc : Word} {ls : List Nat} {f : Leaf} {line : List Byte}
    {sub : BitVec 8} (hf : u.Fetches wid pc ls f line)
    (hi : fetched (slotWord line (pc.extractLsb' 0 3).toNat) = .illegal sub) (undefer second : Bool) :
    u.attemptAt wid pc ls undefer second =
      u.fetchTrap wid pc ls undefer (slotWord line (pc.extractLsb' 0 3).toNat)
        (ls.map fun L => (L, { cause := 0x01, sub := sub })) := by
  have ⟨_, hmiss, _⟩ := hf
  unfold State.attemptAt
  simp only [hmiss, ne_eq, not_true_eq_false, ↓reduceIte, State.fetchFault_of_fetches hf]
  generalize slotWord line (pc.extractLsb' 0 3).toNat = word at *
  unfold fetched at hi
  split at hi
  · cases hi
  · next hzero => simp only [if_neg hzero, hi]

/-- An instruction that nothing holds back goes, in the state in which its issue is made. -/
theorem State.tryInstr_of_mayIssue {u : State} {wid : Nat} {pc : Word} {ls : List Nat} {word : InstrWord} {i : Instr}
    (hm : u.MayIssue wid pc ls word i) (undefer second : Bool) :
    u.tryInstr wid pc ls undefer second word i = .go i (u.toExecute wid pc ls undefer second word i) := by
  obtain ⟨hcross, hkind, hgoverned, hwait, hdue, hmiss⟩ := hm
  have hwhole : ¬(isCross i && ls.any fun L => ((u.warp wid).lane L).handler) = true := by
    simpa using hcross
  have hfree : ¬((i.head.s || waitsLikeS i) && u.governed wid u.serial) = true := by
    simpa using hgoverned
  have hroom : ¬((u.setIssue wid pc ls word).mustWait i || (governs i && decide (16 ≤ u.resultsDue wid))) = true := by
    simpa [hwait] using hdue
  unfold State.tryInstr
  simp only [if_neg hwhole, hkind, if_neg hfree, if_neg hroom, hmiss, ↓reduceIte]
  rfl

/-! ### The choice among the warps of a partition -/

theorem State.attempt_of_select {u : State} {wid : Nat} {pc : Word} {ls : List Nat} {undefer : Bool}
    (hb : u.heldBack wid = false) (hsel : u.select wid = some (pc, ls, undefer)) :
    u.attempt wid = u.attemptAt wid pc ls undefer false := by
  simp [State.attempt, hb, hsel]

/-- A warp that alone can issue is chosen (R393). -/
theorem State.choose_singleton (s : State) (e : Nat × Attempt) : s.choose [e] = some e.2 := by
  simp [State.choose, minBy]

/-- The turn of a partition, no pair under way, in which one warp lives and executes an instruction: the free choice of a second
gang is taken with it (R137). -/
theorem State.pick_of_alone_go {u : State} {core part wid : Nat} {i : Instr} {t : State}
    (hp : (u.part (2 * core + part)).pair = none)
    (hw : u.warpsWhere (fun k => k.live && decide (k.core = core) && decide (k.part = part)) = [wid])
    (ha : u.attempt wid = .go i t) : u.pick core part = some (.go i (u.notePair t i)) := by
  simp [State.pick, hp, hw, ha, State.choose_singleton]

/-- The same where its fetch makes it trap. -/
theorem State.pick_of_alone_went {u : State} {core part wid : Nat} {t : State}
    (hp : (u.part (2 * core + part)).pair = none)
    (hw : u.warpsWhere (fun k => k.live && decide (k.core = core) && decide (k.part = part)) = [wid])
    (ha : u.attempt wid = .went t) : u.pick core part = some (.went t) := by
  simp [State.pick, hp, hw, ha, State.choose_singleton]

/-- The lanes of a mask that may issue and still stand at a PC: those that a pair's second gang goes with. -/
def State.standing (s : State) (wid : Nat) (pc : Word) (m : LaneMask) : List Nat :=
  (s.undeferred wid).1.filter fun L => m.getLsbD L && decide ((s.lane wid L).pc = pc)

theorem State.pickSecond_of_none {v : State} {wid : Nat} {pc : Word} {m : LaneMask} (h : v.standing wid pc m = []) :
    v.pickSecond wid pc m = .blocked := if_pos (Or.inr h)

theorem State.pickSecond_of_stand {v : State} {wid : Nat} {pc : Word} {m : LaneMask} {ls : List Nat}
    (hb : v.heldBack wid = false) (h : v.standing wid pc m = ls) (hls : ls ≠ []) :
    v.pickSecond wid pc m = v.attemptAt wid pc ls false true := by
  subst h
  exact if_neg (not_or.2 ⟨by simp [hb], hls⟩)

/-- The turn of a partition with a pair under way whose second gang cannot go: the pair is forgotten (R137). -/
theorem State.pick_of_pair_blocked {u : State} {core part wid : Nat} {pc : Word} {m : LaneMask}
    (hp : (u.part (2 * core + part)).pair = some (wid, pc, m))
    (hb : (u.updPart (2 * core + part) (fun q => { q with pair := none })).pickSecond wid pc m = .blocked) :
    u.pick core part = some (.went (u.updPart (2 * core + part) fun q => { q with pair := none })) := by
  simp only [State.pick, hp, hb]

/-- The same where it goes: no third gang is chosen. -/
theorem State.pick_of_pair_go {u t : State} {core part wid : Nat} {pc : Word} {m : LaneMask} {i : Instr}
    (hp : (u.part (2 * core + part)).pair = some (wid, pc, m))
    (hg : (u.updPart (2 * core + part) (fun q => { q with pair := none })).pickSecond wid pc m = .go i t) :
    u.pick core part = some (.go i t) := by
  simp only [State.pick, hp, hg]

/-! ### One step in each kind of turn -/

theorem step_issue {s : State} {core part : Nat} {later : List Turn} (ht : s.turns = .issue core part :: later) :
    step s = stepIssue core part s.turnTaken := by
  simp only [step, State.nextTurn, ht]

theorem step_retry {s : State} {wid gang : Nat} {later : List Turn} (ht : s.turns = .retry wid gang :: later) :
    step s = stepRetry wid gang s.turnTaken := by
  simp only [step, State.nextTurn, ht]

theorem step_event {s : State} {i : Instr} {later : List Turn} (ht : s.turns = .event i :: later) :
    step s = stepEvent i s.turnTaken := by
  simp only [step, State.nextTurn, ht]

theorem step_tick {s : State} {dt : Nat} {later : List Turn} (ht : s.turns = .tick dt :: later) :
    step s = .next (s.turnTaken.elapse dt) := by
  simp only [step, State.nextTurn, ht]

theorem stepIssue_of_go {u t : State} {core part : Nat} {i : Instr} (hc : core < 384) (hp : part < 2)
    (h : u.pick core part = some (.go i t)) : stepIssue core part u = runInstr i t := by
  simp only [stepIssue, hc, hp, and_self, ↓reduceIte, h]

theorem stepIssue_of_went {u t : State} {core part : Nat} (hc : core < 384) (hp : part < 2)
    (h : u.pick core part = some (.went t)) : stepIssue core part u = .next t := by
  simp only [stepIssue, hc, hp, and_self, ↓reduceIte, h]

theorem stepRetry_of_retryOf {u y : State} {wid gang : Nat} {i : Instr} (h : u.retryOf wid gang = some (i, y)) :
    stepRetry wid gang u = runInstr i y := by
  simp only [stepRetry, h]

/-- An event acts, unless it is one of the front end and the die that acts for it is in a takeover (R450). -/
theorem stepEvent_of_wf {u : State} {i : Instr} (hi : i.isWord = false) (hwf : i.wf = true) :
    stepEvent i u = if frontEvent i = true ∧ u.feHeld = true then .next u else exec i u := by
  simp only [stepEvent, hi, hwf]
  cases frontEvent i <;> cases u.feHeld <;> rfl

theorem State.alarmRise_host_only (s : State) : s.alarmRise = { s with host := s.alarmRise.host } := by
  unfold State.alarmRise; split <;> rfl

/-- Device time that passes in a package that runs moves `now`, and leaves the warps and memory (R27). -/
theorem State.elapse_of_run {u : State} (hrun : u.host.run = true) (dt : Nat) :
    (u.elapse dt).now = u.now + dt ∧ (u.elapse dt).warps = u.warps ∧ (u.elapse dt).mem = u.mem := by
  unfold State.elapse
  simp only [hrun, ↓reduceIte]
  split
  · rw [State.alarmRise_host_only]; exact ⟨rfl, rfl, rfl⟩
  · exact ⟨rfl, rfl, rfl⟩

end Sys2Proof.Machine

namespace Sys2Proof

open Machine

/-- Settles O56: the turns of one step, by the attempt of the warp that is alone in its partition. -/
theorem stepRunsTheDecodedInstruction : Obligations.StepRunsTheDecodedInstruction := by
  unfold Obligations.StepRunsTheDecodedInstruction
  intro s core part wid pc ls undefer f line i m later u p w word decoded after
  refine ⟨fun ht hcore hpart hpair halone hsel hf => ⟨fun hdec hmay => ?_, fun sub hdec => ?_⟩,
    fun ht hcore hpart hpair => ?_, fun gang y ht hretry => ?_, fun ht hi hwf => ?_, fun dt ht hrun => ?_⟩
  · have hgo : u.attempt wid = .go i (u.toExecute wid pc ls undefer false word i) :=
      (State.attempt_of_select hf.1 hsel).trans
        ((State.attemptAt_of_instr hf hdec undefer false).trans (State.tryInstr_of_mayIssue hmay undefer false))
    exact (step_issue ht).trans (stepIssue_of_go hcore hpart (State.pick_of_alone_go hpair halone hgo))
  · have hwent := (State.attempt_of_select hf.1 hsel).trans (State.attemptAt_of_illegal hf hdec undefer false)
    exact (step_issue ht).trans (stepIssue_of_went hcore hpart (State.pick_of_alone_went hpair halone hwent))
  · intro v stand
    refine ⟨fun hnone => ?_, fun hstand hls hf hdec hmay => ?_⟩
    · have hblocked := State.pickSecond_of_none hnone
      exact (step_issue ht).trans (stepIssue_of_went hcore hpart (State.pick_of_pair_blocked hpair hblocked))
    · have hgo : v.pickSecond wid pc m = .go i (v.toExecute wid pc ls false true word i) :=
        (State.pickSecond_of_stand hf.1 hstand hls).trans
          ((State.attemptAt_of_instr hf hdec false true).trans (State.tryInstr_of_mayIssue hmay false true))
      exact (step_issue ht).trans (stepIssue_of_go hcore hpart (State.pick_of_pair_go hpair hgo))
  · exact (step_retry ht).trans (stepRetry_of_retryOf hretry)
  · exact ⟨Config.skew 400 u.steps % 4, Nat.mod_lt _ (by decide), (step_event ht).trans (stepEvent_of_wf hi hwf)⟩
  · exact ⟨_, step_tick ht, State.elapse_of_run (u := s.turnTaken) hrun dt⟩

end Sys2Proof
end

section
/-! `Put` of R82 as shifts: what the arithmetic of the model makes of a pattern is what the statements say of it (`Ty.fit`). -/

namespace Sys2Proof

theorem zx_lt (n : Nat) (v : Word) : zx n v < 2 ^ n := Nat.mod_lt _ (Nat.two_pow_pos n)

theorem two_pow_split {n : Nat} (hn : n ≤ 64) : 2 ^ 64 = 2 ^ n * 2 ^ (64 - n) := by
  rw [← Nat.pow_add, Nat.add_sub_cancel' hn]

/-- The low bits of a word, shifted to its top. -/
theorem toNat_shiftLeft_top {n : Nat} (hn : n ≤ 64) (v : Word) : (v <<< (64 - n)).toNat = zx n v * 2 ^ (64 - n) := by
  rw [BitVec.toNat_shiftLeft, Nat.shiftLeft_eq, two_pow_split hn, Nat.mul_mod_mul_right, zx]

theorem ofInt_zx_toNat {n : Nat} (hn : n ≤ 64) (v : Word) : (BitVec.ofInt 64 (zx n v)).toNat = zx n v := by
  have hlt : zx n v < 2 ^ 64 := (zx_lt n v).trans_le (Nat.pow_le_pow_right (by decide) hn)
  rw [BitVec.ofInt_natCast, BitVec.toNat_ofNat, Nat.mod_eq_of_lt hlt]

theorem sx_emod (n : Nat) (v : Word) : sx n v % 2 ^ n = zx n v := by
  have hz : (zx n v : Int) % 2 ^ n = zx n v := Int.emod_eq_of_lt (by omega) (by exact_mod_cast zx_lt n v)
  rw [sx]
  split
  · exact hz
  · rw [Int.sub_emod_right, hz]

theorem sx_zx {n : Nat} (hn : n ≤ 64) (v : Word) : sx n (BitVec.ofInt 64 (zx n v)) = sx n v := by
  have hz : zx n (BitVec.ofInt 64 (zx n v)) = zx n v := by
    rw [zx, ofInt_zx_toNat hn]; exact Nat.mod_eq_of_lt (zx_lt n v)
  simp only [sx, hz]

/-- The low bits, shifted to the top of the word and read as signed, are the signed value times the weight of the shift. -/
theorem toInt_shiftLeft_top {n : Nat} (hn : n ≤ 64) (v : Word) : (v <<< (64 - n)).toInt = sx n v * 2 ^ (64 - n) := by
  have hs := two_pow_split hn
  have hk := Nat.two_pow_pos (64 - n)
  have hhalf : 2 * (zx n v * 2 ^ (64 - n)) < 2 ^ 64 ↔ 2 * zx n v < 2 ^ n := by
    rw [hs, ← Nat.mul_assoc, Nat.mul_lt_mul_right hk]
  rw [BitVec.toInt_eq_toNat_cond, toNat_shiftLeft_top hn, sx]
  simp only [hhalf]
  split
  · push_cast; rfl
  · rw [hs]; push_cast; ring

theorem extend_eq_cut (signed : Bool) {n : Nat} (hn : n ≤ 64) (v : Word) (x : Int) (hx : x % 2 ^ n = zx n v) :
    extend n signed x = cut signed n v := by
  cases signed
  · apply BitVec.eq_of_toNat_eq
    simp only [extend, cut, hx, Bool.false_eq_true, ↓reduceIte, ofInt_zx_toNat hn, BitVec.toNat_ushiftRight,
      toNat_shiftLeft_top hn, Nat.shiftRight_eq_div_pow]
    rw [Nat.mul_div_cancel _ (Nat.two_pow_pos _)]
  · have hword : BitVec.ofInt 64 (sx n v) = BitVec.ofInt 64 ((v <<< (64 - n)).sshiftRight (64 - n)).toInt := by
      rw [BitVec.toInt_sshiftRight, toInt_shiftLeft_top hn, Int.shiftRight_eq_div_pow]
      push_cast
      rw [Int.mul_ediv_cancel _ (by positivity)]
    simp only [extend, cut, hx, ↓reduceIte, sx_zx hn, hword, BitVec.ofInt_toInt]

theorem Ty.width_le (ty : Ty) : ty.width ≤ 64 := by cases ty <;> decide

/-- `Put` of what `Src` reads is the pattern as a register of the type holds it (R82). -/
theorem Ty.put_src (ty : Ty) (v : Word) : ty.put (ty.src v) = ty.fit v := by
  refine extend_eq_cut ty.signed ty.width_le v _ ?_
  unfold Ty.src
  split
  · exact sx_emod _ v
  · exact Int.emod_eq_of_lt (by omega) (by exact_mod_cast zx_lt _ v)

end Sys2Proof
end

section
/-! Answers and completion times on their way back to the registers: a search of the table of warps, the barriers that such an
answer looks at again, the value, the flags and the end of the wait; and O35, which fails where two entries of the table have one
key. -/

namespace Sys2Proof

/-! ### Tables with rising keys -/

variable {α β : Type}

theorem Tab.erase_of_rising (t : Tab α) (lo x : Nat) (h : t.rising (some lo) = true) (hx : x ≤ lo) : t.erase x = t := by
  induction t generalizing lo with
  | nil => rfl
  | cons e t ih =>
    obtain ⟨k, v⟩ := e
    simp only [Tab.rising, Bool.and_eq_true, decide_eq_true_eq] at h
    rw [Tab.erase, if_neg (by omega), ih k h.2 (by omega)]

theorem Tab.set_rising [DecidableEq α] (d : α) (t : Tab α) (x : Nat) (w : α) (h : t.rising none = true) :
    (t.set d x w).rising none = true := by
  rw [Tab.set]
  split
  · exact Tab.erase_rising t x none h
  · exact Tab.insert_rising _ x w none (Tab.erase_rising t x none h) (fun e he => (Tab.erase_keys t x e he).1) (by simp)

theorem Tab.insert_of_rising (t : Tab α) (lo x : Nat) (w : α) (h : t.rising (some lo) = true) (hx : x ≤ lo) :
    t.insert x w = (x, w) :: t := by
  cases t with
  | nil => rfl
  | cons e t =>
    obtain ⟨k, v⟩ := e
    simp only [Tab.rising, Bool.and_eq_true, decide_eq_true_eq] at h
    rw [Tab.insert, if_pos (by omega)]

/-- A search that finds nothing in the default, and the same in the new entry of a key as in the old one, finds the same in the
whole table after the write. -/
theorem Tab.findSome_set [DecidableEq α] (d : α) (g : Nat → α → Option β) (t : Tab α) (lo : Option Nat) (x : Nat) (w : α)
    (h : t.rising lo = true) (hd : ∀ k, g k d = none) (hw : g x w = g x (t.get d x)) :
    (t.set d x w).findSome? (fun e => g e.1 e.2) = t.findSome? (fun e => g e.1 e.2) := by
  induction t generalizing lo with
  | nil =>
    by_cases hwd : w = d
    · simp [Tab.set, hwd, Tab.erase]
    · simpa [Tab.set, hwd, Tab.erase, Tab.insert, Tab.get, hd] using hw
  | cons e t ih =>
    obtain ⟨k, v⟩ := e
    have ht : Tab.rising (some k) t = true := by simp only [Tab.rising, Bool.and_eq_true] at h; exact h.2
    rcases Nat.lt_trichotomy k x with hk | hk | hk
    · have hset : Tab.set d ((k, v) :: t) x w = (k, v) :: Tab.set d t x w := by
        by_cases hwd : w = d <;> simp [Tab.set, hwd, Tab.erase, Tab.insert, hk.ne, hk.not_gt]
      rw [Tab.get, if_neg hk.ne] at hw
      rw [hset, List.findSome?_cons, List.findSome?_cons, ih _ ht hw]
    · subst hk
      rw [Tab.get, if_pos rfl] at hw
      by_cases hwd : w = d
      · have hv : g k v = none := by rw [← hw, hwd, hd]
        simp [Tab.set, hwd, Tab.erase, Tab.erase_of_rising t k k ht le_rfl, hv]
      · simp [Tab.set, hwd, Tab.erase, Tab.erase_of_rising t k k ht le_rfl, Tab.insert_of_rising t k k w ht le_rfl,
          List.findSome?_cons, hw]
    · have habsent : Tab.rising (some x) ((k, v) :: t) = true := by
        simpa [Tab.rising, hk] using ht
      have hnone : g x w = none := by rw [hw, Tab.rising_get d _ x x habsent le_rfl, hd]
      by_cases hwd : w = d
      · rw [Tab.set, if_pos hwd, Tab.erase_of_rising _ x x habsent le_rfl]
      · rw [Tab.set, if_neg hwd, Tab.erase_of_rising _ x x habsent le_rfl, Tab.insert_of_rising _ x x w habsent le_rfl,
          List.findSome?_cons, hnone]

end Sys2Proof

namespace Sys2Proof.Machine

/-! ### Where threads stand -/

/-- The place of a thread in a warp whose key is `k`. -/
def Warp.threadPlace (w : Warp) (tid k : Nat) : Option (Nat × Nat) :=
  (w.liveLanes.find? fun L => decide ((w.lane L).tid = tid)).map fun L => (k, L)

theorem State.findLane_eq (s : State) (wid tid : Nat) :
    s.findLane wid tid = ((s.warp wid).threadPlace tid wid).or (s.warps.findSome? fun e => e.2.threadPlace tid e.1) := by
  unfold State.findLane
  show (match (s.warp wid).threadPlace tid wid with | some x => some x | none => _) = _
  cases (s.warp wid).threadPlace tid wid <;> rfl

/-- Warps in whose lanes the same threads live hold each thread at the same place. -/
theorem Warp.threadPlace_congr {v w : Warp} (h : ∀ L, (v.lane L).tid = (w.lane L).tid ∧ (v.lane L).st = (w.lane L).st) :
    v.threadPlace = w.threadPlace := by
  have hlive : v.liveLanes = w.liveLanes := by
    simp only [Warp.liveLanes, Warp.lanesWhere, fun L => (h L).2]
  funext tid k
  simp only [Warp.threadPlace, hlive, fun L => (h L).1]

/-- A change of a lane that leaves its thread there, living or not. -/
def KeepsThread (f : Lane → Lane) : Prop := ∀ l, (f l).tid = l.tid ∧ (f l).st = l.st

theorem State.findLane_setWarp {s : State} (hs : s.warps.rising none = true) (j : Nat) (w : Warp)
    (hw : w.threadPlace = (s.warp j).threadPlace) (wid tid : Nat) : (s.setWarp j w).findLane wid tid = s.findLane wid tid := by
  rw [State.findLane_eq, State.findLane_eq]
  congr 1
  · rw [State.warp_setWarp]
    split
    · next h => rw [h, hw]
    · rfl
  · exact Tab.findSome_set {} (fun k v => v.threadPlace tid k) s.warps none j w hs (fun _ => rfl) (congrFun₂ hw tid j)

theorem State.findLane_updLane {s : State} (hs : s.warps.rising none = true) (j L : Nat) {f : Lane → Lane}
    (hf : KeepsThread f) (wid tid : Nat) : (s.updLane j L f).findLane wid tid = s.findLane wid tid := by
  refine State.findLane_setWarp hs j _ (Warp.threadPlace_congr fun K => ?_) wid tid
  rw [Warp.lane_setLane]
  split
  · next h => subst h; exact hf _
  · exact ⟨rfl, rfl⟩

theorem State.updLane_rising {s : State} (hs : s.warps.rising none = true) (j L : Nat) (f : Lane → Lane) :
    (s.updLane j L f).warps.rising none = true := Tab.set_rising _ _ _ _ hs

/-- A lane after some lanes of a warp have been changed in a way that a second time adds nothing to. -/
theorem State.lane_updLanes_idem (s : State) (k : Nat) (ls : List Nat) {f : Lane → Lane} (hf : ∀ l, f (f l) = f l) (K : Nat) :
    (s.updLanes k ls f).lane k K = if K ∈ ls then f (s.lane k K) else s.lane k K := by
  induction ls generalizing s with
  | nil => simp [State.updLanes]
  | cons L ls ih =>
    show ((s.updLane k L f).updLanes k ls f).lane k K = _
    rw [ih, State.lane_updLane]
    by_cases hK : K = L
    · subst hK; simp [hf]
    · simp [hK]

/-! ### Barriers at which no arrival is in question (R144, R147) -/

theorem Lane.markedAt_of_unmarked {l : Lane} {b : Nat} (h : l.marks.getLsbD b = false) : l.markedAt b = false := by
  simp [Lane.markedAt, h]

theorem State.barArrive_of_unarrived {s : State} {wid b : Nat} (h : s.Unarrived wid) (hb : b < 8) :
    s.barArrive wid b = s := by
  obtain ⟨K, hK, hmark⟩ := h.2 b hb
  refine if_pos (.inr fun hall => ?_)
  exact Bool.false_ne_true ((Lane.markedAt_of_unmarked hmark).symm.trans (List.all_eq_true.1 hall K hK))

/-- Looked at again, the barriers of such a warp are as they were. -/
theorem State.barRetest_of_unarrived {s : State} {wid : Nat} (h : s.Unarrived wid) : s.barRetest wid = s := by
  have harrive : ∀ bs : List Nat, (∀ b ∈ bs, b < 8) → bs.foldl (fun (t : State) b => t.barArrive wid b) s = s := by
    intro bs hbs
    induction bs with
    | nil => rfl
    | cons b bs ih =>
      rw [List.foldl_cons, s.barArrive_of_unarrived h (hbs b (by simp)), ih fun c hc => hbs c (by simp [hc])]
  rw [State.barRetest, harrive _ fun b hb => List.mem_range.1 hb]
  simp [State.barSettle, h.1]

theorem State.Unarrived.congr {s t : State} {wid : Nat} (h : s.Unarrived wid) (hdue : (t.warp wid).barDue = (s.warp wid).barDue)
    (hl : ∀ K, (t.lane wid K).marks = (s.lane wid K).marks ∧ ((t.lane wid K).st = .exited ↔ (s.lane wid K).st = .exited)) :
    t.Unarrived wid := by
  refine ⟨hdue.trans h.1, fun b hb => ?_⟩
  obtain ⟨K, hK, hmark⟩ := h.2 b hb
  refine ⟨K, ?_, by rw [(hl K).1, hmark]⟩
  have hst : ((t.warp wid).lane K).st = .exited ↔ ((s.warp wid).lane K).st = .exited := (hl K).2
  simpa only [Warp.liveLanes, Warp.lanesWhere, List.mem_filter, decide_eq_true_eq, ne_eq, hst] using hK

/-! ### What an answer leaves (R55, R82) -/

/-- The word that an answer of one value puts into its register. -/
def Answer.word (a : Answer) : Word :=
  match a.ret.put with
  | .raw => a.vals.headD 0
  | .int ty => ty.fit (a.vals.headD 0)
  | p => p.apply (a.vals.headD 0)

theorem Answer.apply_eq_word (a : Answer) : a.ret.put.apply (a.vals.headD 0) = a.word := by
  unfold Answer.word
  cases a.ret.put with
  | int ty => exact Ty.put_src ty _
  | _ => rfl

/-- The thread's lane after the answer. -/
def Answer.putIn (a : Answer) (l : Lane) : Lane :=
  match a.ret.dst with
  | .phys j => { l with regs := l.regs.set 0 j a.word }
  | .block j n => { l with regs := (List.range n).foldl (fun t i => t.set 0 ((j + i) % 64) (a.vals.getD i 0)) l.regs }
  | .pred j => { l with preds :=
      if a.word = 0 then l.preds &&& ~~~(BitVec.ofNat 7 (2 ^ j)) else l.preds ||| BitVec.ofNat 7 (2 ^ j) }
  | _ => l

/-- The scalar registers of the thread's warp after the answer. -/
def Answer.scalars (a : Answer) (w : Warp) : Tab Word :=
  match a.ret.dst with
  | .sca j => w.sregs.set 0 j a.word
  | _ => w.sregs

/-- The shared registers of a workgroup after the answer; `own` says that the thread is of it. -/
def Answer.shared (a : Answer) (own : Bool) (g : Group) : Tab Word :=
  match a.ret.dst with
  | .grp j => if own then g.gregs.set 0 j a.word else g.gregs
  | _ => g.gregs

theorem Answer.putIn_keeps (a : Answer) (l : Lane) :
    (a.putIn l).tid = l.tid ∧ (a.putIn l).st = l.st ∧ (a.putIn l).marks = l.marks := by
  unfold Answer.putIn; split <;> exact ⟨rfl, rfl, rfl⟩

/-- An answer has reached the register that it names, and the lanes of its thread's warp hold `g`. -/
structure Delivered (s t : State) (a : Answer) (wid : Nat) (g : Nat → Lane) : Prop where
  rest : t = { s with warps := t.warps, groups := t.groups, cur := t.cur }
  others : ∀ j, j ≠ wid → t.warp j = s.warp j
  own : t.warp wid = { s.warp wid with lanes := (t.warp wid).lanes, sregs := a.scalars (s.warp wid) }
  groups : ∀ k, t.group k = { s.group k with gregs := a.shared (decide (k = (s.warp wid).group)) (s.group k) }
  lanes : ∀ K, t.lane wid K = g K

theorem Delivered.updLanes {s t : State} {a : Answer} {wid : Nat} {g g' : Nat → Lane} (h : Delivered s t a wid g)
    (ls : List Nat) (f : Lane → Lane) (hg : ∀ K, (t.updLanes wid ls f).lane wid K = g' K) :
    Delivered s (t.updLanes wid ls f) a wid g' where
  rest := by rw [State.updLanes_eq, h.rest]
  others j hj := (State.warp_updLanes_ne t ls f hj).trans (h.others j hj)
  own := by
    have hown := State.warp_updLanes_own t wid wid ls f
    have hlanes := congrArg (fun w : Warp => { w with lanes := ((t.updLanes wid ls f).warp wid).lanes }) hown
    exact hlanes.trans (by rw [h.own])
  groups k := by
    rw [← h.groups k]; simp [State.group]
  lanes := hg

/-- A value put into the register of a thread. -/
theorem State.putVals_delivered (s : State) (a : Answer) (wid L : Nat) :
    Delivered s (s.putVals wid L a.ret.dst a.ret.put a.vals) a wid
      (fun K => if K = L then a.putIn (s.lane wid L) else s.lane wid K) := by
  have hlane (f : Lane → Lane) (hs : a.scalars (s.warp wid) = (s.warp wid).sregs)
      (hg : ∀ own g, a.shared own g = g.gregs) (hf : f (s.lane wid L) = a.putIn (s.lane wid L)) :
      Delivered s (s.updLane wid L f) a wid (fun K => if K = L then a.putIn (s.lane wid L) else s.lane wid K) :=
    { rest := rfl
      others := fun j hj => State.warp_updLane_ne s L f hj
      own := by simp [State.warp_updLane, Warp.setLane, hs]
      groups := fun k => by rw [hg]; rfl
      lanes := fun K => by simp [State.lane_updLane, hf] }
  simp only [State.putVals, a.apply_eq_word]
  cases hd : a.ret.dst with
  | none =>
    refine ⟨rfl, fun _ _ => rfl, by simp [Answer.scalars, hd], fun k => by simp [Answer.shared, hd], fun K => ?_⟩
    by_cases hK : K = L <;> simp [Answer.putIn, hd, hK]
  | phys j => exact hlane _ (by simp [Answer.scalars, hd]) (by simp [Answer.shared, hd]) (by simp [Answer.putIn, hd])
  | block j n => exact hlane _ (by simp [Answer.scalars, hd]) (by simp [Answer.shared, hd]) (by simp [Answer.putIn, hd])
  | pred j => exact hlane _ (by simp [Answer.scalars, hd]) (by simp [Answer.shared, hd]) (by simp [Answer.putIn, hd])
  | sca j =>
    refine ⟨rfl, fun k hk => by simp [State.warp_updWarp, hk], by simp [State.warp_updWarp, Answer.scalars, hd],
      fun k => by simp [Answer.shared, hd, State.group], fun K => ?_⟩
    by_cases hK : K = L <;> simp [Answer.putIn, hd, hK, State.lane, State.warp_updWarp, Warp.lane]
  | grp j =>
    refine ⟨rfl, fun _ _ => rfl, by simp [Answer.scalars, hd, State.updGroup, State.warp], fun k => ?_, fun K => ?_⟩
    · by_cases hk : k = (s.warp wid).group <;> simp [Answer.shared, hd, State.group, State.updGroup, Tab.get_upd, hk]
    · by_cases hK : K = L <;> simp [Answer.putIn, hd, hK, State.updGroup, State.lane, State.warp]

/-! ### Flags of an answer (R54, R278) -/

/-- Sticky flags ORed into a lane. -/
def Lane.withFlags (flags : BitVec 5) (l : Lane) : Lane := { l with fstat := l.fstat ||| flags }

theorem Lane.withFlags_idem (flags : BitVec 5) (l : Lane) : (l.withFlags flags).withFlags flags = l.withFlags flags := by
  simp [Lane.withFlags, BitVec.or_assoc]

theorem Lane.withFlags_zero (l : Lane) : l.withFlags 0 = l := by simp [Lane.withFlags]

/-- The lanes of some threads. -/
def State.lanesOfThreads (s : State) (wid : Nat) (tids : List Nat) : List Nat :=
  tids.filterMap fun i => (s.findLane wid i).map (·.2)

/-- Threads that stand in one warp take flags in their lanes of it. -/
theorem State.foldl_flagThread {s : State} (hs : s.warps.rising none = true) (r wid : Nat) (flags : BitVec 5) (tids : List Nat)
    (h : ∀ i ∈ tids, ∃ K, s.findLane r i = some (wid, K)) :
    tids.foldl (fun t i => t.flagThread r i flags) s = s.updLanes wid (s.lanesOfThreads r tids) (Lane.withFlags flags) := by
  induction tids generalizing s with
  | nil => rfl
  | cons i tids ih =>
    obtain ⟨K, hK⟩ := h i (by simp)
    have hkeep : ∀ j, (s.updLane wid K (Lane.withFlags flags)).findLane r j = s.findLane r j :=
      State.findLane_updLane hs wid K (f := Lane.withFlags flags) (fun _ => ⟨rfl, rfl⟩) r
    have hfirst : s.flagThread r i flags = s.updLane wid K (Lane.withFlags flags) := by
      simp only [State.flagThread, hK]; rfl
    rw [List.foldl_cons, hfirst, ih (State.updLane_rising hs ..) fun j hj => by rw [hkeep]; exact h j (by simp [hj])]
    simp only [State.lanesOfThreads, hkeep, List.filterMap_cons, hK]
    rfl

theorem State.lane_flagThreads {s : State} (hs : s.warps.rising none = true) (r : Ret) (wid : Nat) (flags : BitVec 5)
    (h : ∀ i ∈ r.tids, ∃ K, s.findLane r.wid i = some (wid, K)) :
    ∃ ls, s.flagThreads r flags = s.updLanes wid ls (Lane.withFlags flags) ∧
      ∀ K, (s.flagThreads r flags).lane wid K =
        if K ∈ s.lanesOfThreads r.wid r.tids then (s.lane wid K).withFlags flags else s.lane wid K := by
  by_cases hz : flags = 0
  · refine ⟨[], by simp [State.flagThreads, hz, State.updLanes], fun K => ?_⟩
    simp only [State.flagThreads, hz, ↓reduceIte, Lane.withFlags_zero, ite_self]
  · have hfold := State.foldl_flagThread hs r.wid wid flags r.tids h
    refine ⟨_, by rw [State.flagThreads, if_neg hz, hfold], fun K => ?_⟩
    rw [State.flagThreads, if_neg hz, hfold, State.lane_updLanes_idem _ _ _ (Lane.withFlags_idem flags)]

/-! ### The end of a wait (R133, R159) -/

/-- Does a lane wait in the issue that a serial number names? -/
def Lane.awaits (serial : Nat) (l : Lane) : Bool :=
  decide (l.st = .waiting) && (match l.wait with | some w => decide (w.serial = serial) | none => false)

/-- Does a lane wait in WFILL? -/
def Lane.fills (l : Lane) : Bool := match l.wait with | some { instr := .wfill _, .. } => true | _ => false

/-- WFILL takes the filled frame (R159). -/
def Lane.filled (l : Lane) : Lane := { l with wsp := l.wsp + 192, resf := 2 }

/-- A lane after the last answer of its issue: it moves on, WFILL with the filled frame. -/
def Lane.answered (serial : Nat) (l : Lane) : Lane :=
  if l.awaits serial then (if l.fills then l.filled else l).moved else l

theorem Ret.lanes_nodup (r : Ret) : r.lanes.Nodup := by
  unfold Ret.lanes
  split
  · exact List.nodup_singleton _
  · exact lanesOf_nodup _

theorem State.updLanes_setCur (s : State) (c : Issue) (wid : Nat) (ls : List Nat) (f : Lane → Lane) :
    ({ s with cur := c } : State).updLanes wid ls f = { s.updLanes wid ls f with cur := c } := by
  induction ls generalizing s with
  | nil => rfl
  | cons L ls ih => exact ih (s.updLane wid L f)

/-- Lanes that wait move on, and no issue is in progress. -/
theorem State.finishWait_eq (s : State) (wid : Nat) (ls : List Nat) (h : ∀ L ∈ ls, (s.lane wid L).wait ≠ none) :
    s.finishWait wid ls = { s.updLanes wid ls Lane.moved with cur := {} } := by
  cases ls with
  | nil => rfl
  | cons L ls =>
    obtain ⟨w, hw⟩ := Option.ne_none_iff_exists'.1 (h L (by simp))
    simp only [State.finishWait, State.resume, hw, State.advance, State.updLanes_setCur]
    rfl

/-- The lanes whose wait an answer ends. -/
def State.ended (s : State) (wid : Nat) (r : Ret) : List Nat := r.lanes.filter fun L => (s.lane wid L).awaits r.serial

theorem State.ended_nodup (s : State) (wid : Nat) (r : Ret) : (s.ended wid r).Nodup := r.lanes_nodup.filter _

theorem State.endWait_eq (s : State) (wid : Nat) (r : Ret) :
    s.endWait wid r = { (s.updLanes wid ((s.ended wid r).filter fun L => (s.lane wid L).fills) Lane.filled).updLanes wid
      (s.ended wid r) Lane.moved with cur := {} } := by
  have hfinish : s.endWait wid r = (s.updLanes wid ((s.ended wid r).filter fun L => (s.lane wid L).fills)
      Lane.filled).finishWait wid (s.ended wid r) := rfl
  rw [hfinish]
  refine State.finishWait_eq _ wid (s.ended wid r) fun L hL => ?_
  have hawaits := (List.mem_filter.1 hL).2
  have hwait : (s.lane wid L).wait ≠ none := fun hnone => by simp [Lane.awaits, hnone] at hawaits
  rw [State.lane_updLanes _ _ _ _ _ _ ((s.ended_nodup wid r).filter _)]
  split <;> exact hwait

theorem Delivered.endWait {s t : State} {a : Answer} {wid : Nat} {g : Nat → Lane} (h : Delivered s t a wid g) (r : Ret) :
    Delivered s (t.endWait wid r) a wid fun K => if K ∈ r.lanes then (g K).answered r.serial else g K := by
  have hn := t.ended_nodup wid r
  have hfill := h.updLanes ((t.ended wid r).filter fun L => (t.lane wid L).fills) Lane.filled fun K => rfl
  have hmove := hfill.updLanes (t.ended wid r) Lane.moved fun K => rfl
  rw [State.endWait_eq]
  refine ⟨by conv_lhs => rw [hmove.rest], hmove.others, hmove.own, hmove.groups, fun K => ?_⟩
  show ((t.updLanes wid _ Lane.filled).updLanes wid _ Lane.moved).lane wid K = _
  rw [State.lane_updLanes _ _ _ _ _ _ hn, State.lane_updLanes _ _ _ _ _ _ (hn.filter _), h.lanes]
  by_cases hK : K ∈ r.lanes <;> by_cases hw : (g K).awaits r.serial <;> by_cases hf : (g K).fills <;>
    simp [State.ended, h.lanes, hK, hw, hf, Lane.answered]

/-! ### Answers and completion times that reach a resident thread -/

/-- A lane of the thread's warp after the value and the flags of an answer to the thread in lane `L`. -/
def State.written (s : State) (a : Answer) (wid L K : Nat) : Lane :=
  let l := if K = L then a.putIn (s.lane wid L) else s.lane wid K
  if K ∈ s.lanesOfThreads a.ret.wid a.ret.tids then l.withFlags a.flags else l

/-- A lane of the thread's warp after everything that an answer does to it. -/
def State.afterAnswer (s : State) (a : Answer) (wid L K : Nat) : Lane :=
  if a.ret.finish = true ∧ s.more a.ret = false ∧ K ∈ a.ret.lanes then (s.written a wid L K).answered a.ret.serial
  else s.written a wid L K

theorem State.putVals_threads {s : State} (hs : s.warps.rising none = true) (wid L : Nat) (dst : Dst) (put : PutAs)
    (vals : List Word) :
    (s.putVals wid L dst put vals).warps.rising none = true ∧
      ∀ r i, (s.putVals wid L dst put vals).findLane r i = s.findLane r i := by
  have hlane {f : Lane → Lane} (hf : KeepsThread f) : (s.updLane wid L f).warps.rising none = true ∧
      ∀ r i, (s.updLane wid L f).findLane r i = s.findLane r i :=
    ⟨State.updLane_rising hs .., State.findLane_updLane hs wid L hf⟩
  cases dst with
  | none => exact ⟨hs, fun _ _ => rfl⟩
  | phys j => exact hlane fun _ => ⟨rfl, rfl⟩
  | block j n => exact hlane fun _ => ⟨rfl, rfl⟩
  | pred j => exact hlane fun _ => ⟨rfl, rfl⟩
  | sca j => exact ⟨Tab.set_rising _ _ _ _ hs, State.findLane_setWarp hs _ _ (Warp.threadPlace_congr fun _ => ⟨rfl, rfl⟩)⟩
  | grp j => exact ⟨hs, fun _ _ => rfl⟩

/-- The value and the flags of an answer, written. -/
theorem State.flagThreads_putVals {s : State} (hs : s.warps.rising none = true) {a : Answer} {wid L : Nat}
    (h : ∀ i ∈ a.ret.tids, ∃ K, s.findLane a.ret.wid i = some (wid, K)) :
    Delivered s ((s.putVals wid L a.ret.dst a.ret.put a.vals).flagThreads a.ret a.flags) a wid (s.written a wid L) := by
  have hput := s.putVals_delivered a wid L
  obtain ⟨hrising, hfind⟩ := State.putVals_threads hs wid L a.ret.dst a.ret.put a.vals
  obtain ⟨ls, heq, hlanes⟩ := State.lane_flagThreads hrising a.ret wid a.flags fun i hi => by rw [hfind]; exact h i hi
  rw [heq] at hlanes ⊢
  have hsharers : (s.putVals wid L a.ret.dst a.ret.put a.vals).lanesOfThreads a.ret.wid a.ret.tids =
      s.lanesOfThreads a.ret.wid a.ret.tids := by simp only [State.lanesOfThreads, hfind]
  refine hput.updLanes ls _ fun K => ?_
  rw [hlanes, hput.lanes, hsharers]
  rfl

theorem State.written_keeps (s : State) (a : Answer) (wid L K : Nat) :
    (s.written a wid L K).marks = (s.lane wid K).marks ∧ (s.written a wid L K).st = (s.lane wid K).st := by
  obtain ⟨-, hst, hmarks⟩ := a.putIn_keeps (s.lane wid L)
  unfold State.written
  by_cases hK : K = L
  · subst hK; simp only [↓reduceIte]; split <;> exact ⟨hmarks, hst⟩
  · simp only [hK, ↓reduceIte]; split <;> exact ⟨rfl, rfl⟩

theorem Lane.answered_keeps (serial : Nat) (l : Lane) :
    (l.answered serial).marks = l.marks ∧ ((l.answered serial).st = .exited ↔ l.st = .exited) := by
  unfold Lane.answered
  split
  · next h =>
    have hst : l.st = .waiting := by simp only [Lane.awaits, Bool.and_eq_true, decide_eq_true_eq] at h; exact h.1
    split <;> simp [Lane.moved, Lane.filled, hst]
  · exact ⟨rfl, Iff.rfl⟩

theorem State.afterAnswer_keeps (s : State) (a : Answer) (wid L K : Nat) :
    (s.afterAnswer a wid L K).marks = (s.lane wid K).marks ∧
      ((s.afterAnswer a wid L K).st = .exited ↔ (s.lane wid K).st = .exited) := by
  obtain ⟨hmarks, hst⟩ := s.written_keeps a wid L K
  obtain ⟨hmarks', hst'⟩ := Lane.answered_keeps a.ret.serial (s.written a wid L K)
  unfold State.afterAnswer
  split
  · exact ⟨hmarks'.trans hmarks, hst'.trans (by rw [hst])⟩
  · exact ⟨hmarks, by rw [hst]⟩

/-- R55: an answer to a thread that stands in a warp, the warps' keys rising, reaches its register; the threads that share it take
its flags; the last one ends the wait. -/
theorem State.deliver_resident {s : State} (hs : s.warps.rising none = true) {a : Answer} {wid L : Nat}
    (hL : s.findLane a.ret.wid a.ret.tid = some (wid, L))
    (ho : ∀ i ∈ a.ret.others, ∃ K, s.findLane a.ret.wid i = some (wid, K)) (hu : s.Unarrived wid) :
    Delivered s (s.deliver a) a wid (s.afterAnswer a wid L) := by
  have hall : ∀ i ∈ a.ret.tids, ∃ K, s.findLane a.ret.wid i = some (wid, K) := by
    intro i hi
    rcases List.mem_cons.1 hi with h | h
    · exact ⟨L, h ▸ hL⟩
    · exact ho i h
  have hfirst : a.ret.tids.findSome? (s.findLane a.ret.wid) = some (wid, L) := by
    simp only [Ret.tids, List.findSome?_cons, hL]
  let flagged : State := (s.putVals wid L a.ret.dst a.ret.put a.vals).flagThreads a.ret a.flags
  let settled : State := if a.ret.finish ∧ ¬s.more a.ret then flagged.endWait wid a.ret else flagged
  have hput : Delivered s flagged a wid (s.written a wid L) := State.flagThreads_putVals hs hall
  have hdone : Delivered s settled a wid (s.afterAnswer a wid L) := by
    by_cases hend : a.ret.finish ∧ ¬s.more a.ret
    · have hg : s.afterAnswer a wid L = fun K =>
          if K ∈ a.ret.lanes then (s.written a wid L K).answered a.ret.serial else s.written a wid L K := by
        funext K; simp only [State.afterAnswer, hend.1, Bool.eq_false_iff.2 hend.2, true_and]
      rw [show settled = flagged.endWait wid a.ret from if_pos hend, hg]
      exact hput.endWait a.ret
    · have hg : s.afterAnswer a wid L = s.written a wid L :=
        funext fun K => if_neg fun h => hend ⟨h.1, Bool.eq_false_iff.1 h.2.1⟩
      rw [show settled = flagged from if_neg hend, hg]
      exact hput
  have hquiet : settled.Unarrived wid :=
    hu.congr (by rw [hdone.own]) fun K => by rw [hdone.lanes]; exact s.afterAnswer_keeps a wid L K
  have hdeliver : s.deliver a = settled.barRetest wid := by simp only [State.deliver, hfirst, settled, flagged]
  rwa [hdeliver, State.barRetest_of_unarrived hquiet]

/-- R55: an answer for a scalar or group-shared register is held while a higher lane of its decoding load is outstanding. -/
theorem governedResultWrite_of_outbid {s : State} {k : Nat} {a : Answer} (ha : s.answers[k]? = some a)
    (hb : s.outbid a.ret = true) : exec (.governedResultWrite k) s = .next s := by
  show execGovernedResultWrite k s = _
  simp only [execGovernedResultWrite, ha, hb, ↓reduceIte]

theorem governedResultWrite_of_free {s : State} {k : Nat} {a : Answer} (ha : s.answers[k]? = some a)
    (hb : s.outbid a.ret = false) :
    exec (.governedResultWrite k) s = .next (({ s with answers := removeAt s.answers k } : State).deliver a) := by
  show execGovernedResultWrite k s = _
  simp only [execGovernedResultWrite, ha, hb, Bool.false_eq_true, ↓reduceIte]

/-- The larger of two completion times, as the maxima hold it (R226). -/
theorem ofNat_max_toNat (x y : Word) : BitVec.ofNat 64 (Nat.max x.toNat y.toNat) = if x < y then y else x := by
  by_cases h : x < y
  · have hmax : Nat.max x.toNat y.toNat = y.toNat := Nat.max_eq_right (BitVec.lt_def.1 h).le
    rw [if_pos h, hmax, BitVec.ofNat_toNat, BitVec.setWidth_eq]
  · have hmax : Nat.max x.toNat y.toNat = x.toNat := Nat.max_eq_left (not_lt.1 fun hlt => h (BitVec.lt_def.2 hlt))
    rw [if_neg h, hmax, BitVec.ofNat_toNat, BitVec.setWidth_eq]

/-- A lane that takes a completion time into its maxima (R226). -/
def Lane.takesC (c : CTime) (l : Lane) : Lane :=
  { l with
    cmaxs := if l.cmaxs < c.c then c.c else l.cmaxs
    cmaxp := if c.here ∧ l.cmaxp < c.c then c.c else l.cmaxp }

theorem completionTimeReturn_resident {s : State} {k : Nat} {c : CTime} {wid L : Nat} (hc : s.ctimes[k]? = some c)
    (hL : s.findLane c.wid c.tid = some (wid, L)) :
    exec (.completionTimeReturn k) s =
      .next (({ s with ctimes := removeAt s.ctimes k } : State).updLane wid L (Lane.takesC c)) := by
  show execCompletionTimeReturn k s = _
  have hfind : ({ s with ctimes := removeAt s.ctimes k } : State).findLane c.wid c.tid = some (wid, L) := hL
  simp only [execCompletionTimeReturn, hc, State.takeC, hfind, ofNat_max_toNat]
  congr 2
  funext l
  cases hh : c.here <;> simp [Lane.takesC, hh]

/-- What stands of O35, for a table of warps whose keys rise: an answer that is outbid waits; another reaches its register, its
flags the threads that share it, and the last of a waiting instruction ends the wait; a completion time raises the maxima. -/
theorem resultsAreWritten_of_rising {s : State} (hs : s.warps.rising none = true) (k wid L : Nat) (a : Answer) (c : CTime) :
    (s.answers[k]? = some a → s.outbid a.ret = true → exec (.governedResultWrite k) s = .next s) ∧
    (s.answers[k]? = some a → s.outbid a.ret = false → s.findLane a.ret.wid a.ret.tid = some (wid, L) →
      (∀ i ∈ a.ret.others, ∃ K, s.findLane a.ret.wid i = some (wid, K)) → s.Unarrived wid →
      let left : State := { s with answers := removeAt s.answers k }
      ∃ t, exec (.governedResultWrite k) s = .next t ∧ Delivered left t a wid (left.afterAnswer a wid L)) ∧
    (s.ctimes[k]? = some c → s.findLane c.wid c.tid = some (wid, L) →
      exec (.completionTimeReturn k) s =
        .next (({ s with ctimes := removeAt s.ctimes k } : State).updLane wid L (Lane.takesC c))) := by
  refine ⟨governedResultWrite_of_outbid, fun ha hb hL ho hu => ?_, completionTimeReturn_resident⟩
  let left : State := { s with answers := removeAt s.answers k }
  exact ⟨_, governedResultWrite_of_free ha hb, State.deliver_resident (s := left) hs hL ho hu⟩

/-! ### Two entries of one key -/

/-- Two entries of the table of warps have the key 1: the first is what the key reads as, with thread 11 in lane 0, and a search
for thread 10 comes to the second.  An answer with a value and a flag is under way to thread 10. -/
def twoEntries : State :=
  { State.reset with
    warps := [(1, { live := true, lanes := [(0, { tid := 11, st := .ready })] }),
              (1, { live := true, lanes := [(0, { tid := 10, st := .ready })] })]
    answers := [{ ret := { wid := 1, tid := 10, lane := 0, dst := .phys 0 }, vals := [7], flags := 1 }] }

/-- The write of the value merges the two entries, so that the flag no longer finds its thread. -/
theorem twoEntries_loses_flag :
    ∀ t, exec (.governedResultWrite 0) twoEntries = .next t → (t.lane 1 0).fstat = 0 := by
  have hflag : (match exec (.governedResultWrite 0) twoEntries with | .next t => (t.lane 1 0).fstat | _ => 0) = 0 := by decide
  intro t ht
  rwa [ht] at hflag

end Sys2Proof.Machine

namespace Sys2Proof

open Machine

/-- Refutes O35: the statement asks nothing of the table of warps.  Where two of its entries have one key, the write of an answer's
value merges them, and the flags that come with it are lost (`twoEntries`).  On tables whose keys rise it holds
(`resultsAreWritten_of_rising`). -/
theorem not_resultsAreWritten : ¬ Obligations.ResultsAreWritten := by
  unfold Obligations.ResultsAreWritten
  intro h
  let a : Answer := { ret := { wid := 1, tid := 10, lane := 0, dst := .phys 0 }, vals := [7], flags := 1 }
  obtain ⟨-, hfree, -⟩ := h twoEntries 0 a { wid := 0, tid := 0, c := 0, here := true } 1 0
  have hunmarked : (twoEntries.lane 1 0).marks = 0 := by decide
  have hquiet : twoEntries.Unarrived 1 := ⟨rfl, fun b _ => ⟨0, by decide, by simp [hunmarked]⟩⟩
  obtain ⟨hwritten, -⟩ := hfree rfl rfl (by decide) (by simp [a]) hquiet
  obtain ⟨t, ht, -, hlanes⟩ := hwritten (.inl rfl)
  have hset : (t.lane 1 0).fstat = 1 := by rw [hlanes 0]; decide
  rw [twoEntries_loses_flag t ht] at hset
  cases hset

end Sys2Proof
end

section
/-! The integer class (R82, R85 to R90): the arithmetic of the model is on integers, the statements' on words; a word stands for
an integer when their low bits agree, and that is all that `Put` looks at. -/

namespace Sys2Proof

/-! ### Words that stand for integers -/

/-- The low `n` bits of a word are those of an integer. -/
def LowBits (n : Nat) (x : Int) (v : Word) : Prop := BitVec.ofInt n x = v.setWidth n

theorem lowBits_iff_emod {n : Nat} {x : Int} {v : Word} : LowBits n x v ↔ x % 2 ^ n = zx n v := by
  have hx : 0 ≤ x % (2 ^ n : ℕ) := Int.emod_nonneg _ (by positivity)
  rw [LowBits, ← BitVec.toNat_inj, BitVec.toNat_ofInt, BitVec.toNat_setWidth, ← Nat.cast_inj (R := ℤ),
    Int.toNat_of_nonneg hx]
  push_cast
  rfl

/-- `Put` of an integer is the pattern of a word that stands for it (R82). -/
theorem LowBits.put {ty : Ty} {x : Int} {v : Word} (h : LowBits ty.width x v) : ty.put x = ty.fit v :=
  extend_eq_cut ty.signed ty.width_le v x (lowBits_iff_emod.1 h)

/-- Of an integer's pattern, fewer low bits are its shorter pattern. -/
theorem setWidth_ofInt {n w : Nat} (hn : n ≤ w) (x : Int) : (BitVec.ofInt w x).setWidth n = BitVec.ofInt n x := by
  apply BitVec.eq_of_toInt_eq
  rw [← BitVec.signExtend_eq_setWidth_of_le _ hn, BitVec.toInt_signExtend, BitVec.toInt_ofInt, BitVec.toInt_ofInt,
    min_eq_left hn, Int.bmod_bmod_of_dvd (pow_dvd_pow 2 hn)]

theorem lowBits_ofInt {n : Nat} (hn : n ≤ 64) (x : Int) : LowBits n x (BitVec.ofInt 64 x) := (setWidth_ofInt hn x).symm

theorem lowBits_toInt {n : Nat} (hn : n ≤ 64) (v : Word) : LowBits n v.toInt v := by
  simpa using lowBits_ofInt hn v.toInt

theorem lowBits_toNat {n : Nat} (hn : n ≤ 64) (v : Word) : LowBits n v.toNat v := by
  simpa using lowBits_ofInt hn v.toNat

theorem lowBits_natCast {n m : Nat} {v : Word} : LowBits n m v ↔ m % 2 ^ n = zx n v := by
  rw [lowBits_iff_emod]; norm_cast

theorem lowBits_zx (n : Nat) (v : Word) : LowBits n (zx n v) v := lowBits_natCast.2 (Nat.mod_eq_of_lt (zx_lt n v))

theorem lowBits_sx (n : Nat) (v : Word) : LowBits n (sx n v) v := lowBits_iff_emod.2 (sx_emod n v)

theorem Ty.lowBits_src (ty : Ty) (v : Word) : LowBits ty.width (ty.src v) v := by
  unfold Ty.src
  split
  · exact lowBits_sx _ v
  · exact lowBits_zx _ v

section

variable {n : Nat} {x y : Int} {v w : Word}

theorem LowBits.add (hn : n ≤ 64) (hx : LowBits n x v) (hy : LowBits n y w) : LowBits n (x + y) (v + w) := by
  rw [LowBits, BitVec.ofInt_add, hx, hy, BitVec.setWidth_add v w hn]

theorem LowBits.neg (hn : n ≤ 64) (hx : LowBits n x v) : LowBits n (-x) (-v) := by
  rw [LowBits, BitVec.ofInt_neg, hx, BitVec.setWidth_neg_of_le hn]

theorem LowBits.sub (hn : n ≤ 64) (hx : LowBits n x v) (hy : LowBits n y w) : LowBits n (x - y) (v - w) := by
  rw [Int.sub_eq_add_neg, BitVec.sub_eq_add_neg]
  exact hx.add hn (hy.neg hn)

theorem LowBits.mul (hn : n ≤ 64) (hx : LowBits n x v) (hy : LowBits n y w) : LowBits n (x * y) (v * w) := by
  rw [LowBits, BitVec.ofInt_mul, hx, hy, BitVec.setWidth_mul v w hn]

end

/-! ### The pattern of a type, read as a number -/

theorem toInt_cut_true {n : Nat} (hn : n ≤ 64) (v : Word) : (cut true n v).toInt = sx n v := by
  rw [cut, if_pos rfl, BitVec.toInt_sshiftRight, toInt_shiftLeft_top hn, Int.shiftRight_eq_div_pow]
  push_cast
  exact Int.mul_ediv_cancel _ (by positivity)

theorem toNat_cut_false {n : Nat} (hn : n ≤ 64) (v : Word) : (cut false n v).toNat = zx n v := by
  rw [cut, if_neg Bool.false_ne_true, BitVec.toNat_ushiftRight, toNat_shiftLeft_top hn, Nat.shiftRight_eq_div_pow]
  exact Nat.mul_div_cancel _ (Nat.two_pow_pos _)

theorem Ty.src_of_signed {ty : Ty} (h : ty.signed = true) (v : Word) : ty.src v = (ty.fit v).toInt := by
  rw [Ty.fit, h, toInt_cut_true ty.width_le, Ty.src, if_pos h]

theorem Ty.src_of_unsigned {ty : Ty} (h : ty.signed = false) (v : Word) : ty.src v = (ty.fit v).toNat := by
  rw [Ty.fit, h, toNat_cut_false ty.width_le, Ty.src, if_neg (by simp [h])]

theorem Ty.less_eq (ty : Ty) (v w : Word) : ty.less v w = decide (ty.src v < ty.src w) := by
  cases h : ty.signed
  · simp [Ty.less, h, Ty.src_of_unsigned h, BitVec.ult]
  · simp [Ty.less, h, Ty.src_of_signed h, BitVec.slt]

/-- The larger of two operands, as a pattern (R87). -/
theorem Ty.src_max (ty : Ty) (v w : Word) : ty.src (if ty.less v w then w else v) = max (ty.src v) (ty.src w) := by
  rw [apply_ite ty.src, ty.less_eq]
  simp only [decide_eq_true_eq]
  omega

/-- The smaller of two operands, as a pattern (R87). -/
theorem Ty.src_min (ty : Ty) (v w : Word) : ty.src (if ty.less w v then w else v) = min (ty.src v) (ty.src w) := by
  rw [apply_ite ty.src, ty.less_eq]
  simp only [decide_eq_true_eq]
  omega

theorem Ty.put_natAbs (ty : Ty) (v : Word) :
    ty.put (ty.src v).natAbs = if ty.signed && (ty.fit v).msb then ty.fit (-v) else ty.fit v := by
  have hneg : (ty.signed && (ty.fit v).msb) = decide (ty.src v < 0) := by
    cases h : ty.signed
    · have := ty.src_of_unsigned h v
      simp; omega
    · rw [Bool.true_and, BitVec.msb_eq_toInt, ty.src_of_signed h]
  simp only [hneg, decide_eq_true_eq]
  split
  · rw [Int.ofNat_natAbs_of_nonpos (by omega)]
    exact ((ty.lowBits_src v).neg ty.width_le).put
  · rw [Int.natAbs_of_nonneg (by omega)]
    exact ty.put_src v

end Sys2Proof

namespace Sys2Proof.Machine

/-- An instruction completes with the effect of each lane, however that is written. -/
theorem State.computes_alu {s : State} {i : Instr} {h : Head} {d : Spec} {f g : Nat → Eff}
    (hi : exec i s = .next (s.runAlu h d f)) (hfg : ∀ L, f L = g L) : s.Computes i h d g :=
  s.computes_of i h d g (funext hfg ▸ hi)

/-- An instruction of the class completes with the value of each lane in D. -/
theorem State.computes_int {s : State} {i : Instr} {h : Head} {d : Spec} {f g : Nat → Word}
    (hi : exec i s = .next (s.runInt h d f)) (hfg : ∀ L, f L = g L) : s.Computes i h d fun L => { d := some (g L) } :=
  State.computes_alu hi fun L => by rw [hfg]

end Sys2Proof.Machine

namespace Sys2Proof

open Machine

/-- Settles O1: sums, differences and products keep the low bits, comparisons see the whole value. -/
theorem integerArithmetic : Obligations.IntegerArithmetic := by
  unfold Obligations.IntegerArithmetic
  intro s h ty d a b c imm x y z top
  have hn := ty.width_le
  have hsrc := ty.lowBits_src
  refine ⟨?mov, ?add, ?sub, ?mul, ?mad, ?neg, ?abs, ?min, ?max, ?clamp⟩
  case mov => exact State.computes_int rfl fun L => ty.put_src _
  case add => exact State.computes_int rfl fun L => ((hsrc _).add hn (hsrc _)).put
  case sub => exact State.computes_int rfl fun L => ((hsrc _).sub hn (hsrc _)).put
  case mul => exact State.computes_int rfl fun L => ((hsrc _).mul hn (hsrc _)).put
  case mad => exact State.computes_int rfl fun L => (((hsrc _).mul hn (hsrc _)).add hn (hsrc _)).put
  case neg => exact State.computes_int rfl fun L => ((hsrc _).neg hn).put
  case abs => exact State.computes_int rfl fun L => ty.put_natAbs _
  case min => exact State.computes_int rfl fun L => by rw [← ty.src_min, ty.put_src]
  case max => exact State.computes_int rfl fun L => by rw [← ty.src_max, ty.put_src]
  case clamp => exact State.computes_int rfl fun L => by rw [← ty.src_max, ← ty.src_min, ty.put_src]

end Sys2Proof
end

section
/-! Carries, wide products and quotients (R86, R89, R90). -/

namespace Sys2Proof

/-! ### Carry and borrow -/

theorem lowBits_bit {n : Nat} (hn : n ≤ 64) (b : Bool) : LowBits n b.toNat ((BitVec.ofBool b).setWidth 64) := by
  cases b
  · exact lowBits_toNat hn 0
  · exact lowBits_toNat hn 1

/-- The low bits of a word, in one bit more than a word has (R86). -/
theorem setWidth_cut_false {n : Nat} (hn : n ≤ 64) (v : Word) : (cut false n v).setWidth 65 = BitVec.ofInt 65 (zx n v) := by
  rw [← toNat_cut_false hn, BitVec.ofInt_natCast]
  exact (BitVec.ofNat_toNat ..).symm

theorem setWidth_bit (b : Bool) : ((BitVec.ofBool b).setWidth 64).setWidth 65 = BitVec.ofInt 65 b.toNat := by cases b <;> rfl

/-- The carry is bit `n` of the sum in 65 bits. -/
theorem carry_eq {n : Nat} (hn : n ≤ 64) (v w : Word) (b : Bool) :
    ((cut false n v).setWidth 65 + (cut false n w).setWidth 65 + ((BitVec.ofBool b).setWidth 64).setWidth 65).getLsbD n =
      decide (2 ^ n ≤ zx n v + zx n w + b.toNat) := by
  have hv := zx_lt n v
  have hw := zx_lt n w
  have hb := b.toNat_le
  rw [setWidth_cut_false hn, setWidth_cut_false hn, setWidth_bit, ← BitVec.ofInt_add, ← BitVec.ofInt_add]
  norm_cast
  rw [BitVec.ofInt_natCast, BitVec.getLsbD_ofNat, decide_eq_true (by omega : n < 65), Bool.true_and]
  by_cases hle : 2 ^ n ≤ zx n v + zx n w + b.toNat
  · obtain ⟨r, hr⟩ := Nat.exists_eq_add_of_le hle
    rw [decide_eq_true hle, hr, Nat.testBit_two_pow_add_eq, Nat.testBit_lt_two_pow (by omega), Bool.not_false]
  · rw [decide_eq_false hle, Nat.testBit_lt_two_pow (by omega)]

/-- The borrow is the sign of the difference in 65 bits. -/
theorem borrow_eq {n : Nat} (hn : n ≤ 64) (v w : Word) (b : Bool) :
    ((cut false n v).setWidth 65 - (cut false n w).setWidth 65 - ((BitVec.ofBool b).setWidth 64).setWidth 65).msb =
      decide ((zx n v : Int) - zx n w - b.toNat < 0) := by
  have hpow : 2 ^ n ≤ 2 ^ 64 := Nat.pow_le_pow_right (by decide) hn
  have hv := zx_lt n v
  have hw := zx_lt n w
  have hb := b.toNat_le
  have hdiff : (cut false n v).setWidth 65 - (cut false n w).setWidth 65 - ((BitVec.ofBool b).setWidth 64).setWidth 65 =
      BitVec.ofInt 65 ((zx n v : Int) - zx n w - b.toNat) := by
    rw [setWidth_cut_false hn, setWidth_cut_false hn, setWidth_bit]
    simp only [Int.sub_eq_add_neg, BitVec.ofInt_add, BitVec.ofInt_neg, BitVec.sub_eq_add_neg]
  rw [hdiff, BitVec.msb_eq_toInt, BitVec.toInt_ofInt, Int.bmod_eq_of_le_mul_two (by omega) (by omega)]

/-! ### Products -/

theorem Ty.prod_eq (ty : Ty) (v w : Word) : ty.prod v w = BitVec.ofInt 128 (ty.src v * ty.src w) := by
  rw [BitVec.ofInt_mul]
  cases h : ty.signed
  · simp only [Ty.prod, h, Bool.false_eq_true, ↓reduceIte, Ty.src_of_unsigned h, BitVec.ofInt_natCast, BitVec.ofNat_toNat]
  · simp only [Ty.prod, h, ↓reduceIte, Ty.src_of_signed h, BitVec.signExtend]

/-- The bits of an integer from bit `n` on. -/
theorem lowBits_ushiftRight {n : Nat} (hn : n ≤ 64) (x : Int) :
    LowBits n (x / (2 ^ n : ℕ)) ((BitVec.ofInt 128 x >>> n).setWidth 64) := by
  let r : ℕ := (BitVec.ofInt 128 x).toNat
  have hsplit : x = r + 2 ^ n * (2 ^ n * (2 ^ (128 - 2 * n) * (x / 2 ^ 128))) := by
    have hr : (r : Int) = x % 2 ^ 128 := by
      rw [show r = _ from BitVec.toNat_ofInt x, Int.toNat_of_nonneg (Int.emod_nonneg _ (by positivity))]; norm_cast
    have hpow : (2 : Int) ^ n * (2 ^ n * 2 ^ (128 - 2 * n)) = 2 ^ 128 := by
      rw [← pow_add, ← pow_add]; congr 1; omega
    rw [hr, ← mul_assoc (2 ^ n), ← mul_assoc, mul_assoc (2 ^ n), hpow]
    exact (Int.emod_add_mul_ediv x _).symm
  have hquot : x / (2 ^ n : ℕ) = (r / 2 ^ n : ℕ) + 2 ^ n * (2 ^ (128 - 2 * n) * (x / 2 ^ 128)) := by
    conv_lhs => rw [hsplit]
    push_cast
    exact Int.add_mul_ediv_left _ _ (by positivity)
  have hzx : zx n ((BitVec.ofInt 128 x >>> n).setWidth 64) = r / 2 ^ n % 2 ^ n := by
    rw [zx, BitVec.toNat_setWidth, Nat.mod_mod_of_dvd _ (Nat.pow_dvd_pow 2 hn), BitVec.toNat_ushiftRight,
      Nat.shiftRight_eq_div_pow]
  rw [lowBits_iff_emod, hquot, Int.add_mul_emod_self_left, hzx]
  norm_cast

theorem mulw_eq {ty : Ty} (hn : ty.width ≤ 32) (v w : Word) :
    extend (2 * ty.width) ty.signed (ty.src v * ty.src w) = cut ty.signed (2 * ty.width) ((ty.prod v w).setWidth 64) := by
  rw [ty.prod_eq, setWidth_ofInt (by decide)]
  exact extend_eq_cut ty.signed (by omega) _ _ (lowBits_iff_emod.1 (lowBits_ofInt (by omega) _))

/-! ### Quotients and remainders -/

theorem Ty.fit_eq_zero_iff (ty : Ty) (v : Word) : ty.fit v = 0 ↔ ty.src v = 0 := by
  cases h : ty.signed
  · rw [Ty.src_of_unsigned h, Nat.cast_eq_zero, BitVec.toNat_eq]; rfl
  · rw [Ty.src_of_signed h, ← BitVec.toInt_inj]; rfl

/-- The quotient of R90 as a word. -/
theorem Ty.put_divQ (ty : Ty) (v w : Word) : ty.put (Machine.divQ ty.width (ty.src v) (ty.src w)) =
    ty.fit (if ty.fit w = 0 then BitVec.allOnes 64
      else if ty.signed then (ty.fit v).sdiv (ty.fit w) else (ty.fit v).udiv (ty.fit w)) := by
  have hn := ty.width_le
  refine LowBits.put ?_
  unfold Machine.divQ
  simp only [ty.fit_eq_zero_iff]
  split
  · have hones := lowBits_iff_emod.1 (lowBits_ofInt hn (-1))
    rw [lowBits_iff_emod, Int.sub_eq_add_neg, Int.add_emod_left]
    exact hones
  · cases h : ty.signed
    · rw [Ty.src_of_unsigned h, Ty.src_of_unsigned h, if_neg Bool.false_ne_true, BitVec.udiv_eq]
      exact lowBits_toNat hn (ty.fit v / ty.fit w)
    · rw [Ty.src_of_signed h, Ty.src_of_signed h, if_pos rfl]
      have hdiv : BitVec.ofInt 64 ((ty.fit v).toInt.tdiv (ty.fit w).toInt) = (ty.fit v).sdiv (ty.fit w) := by
        apply BitVec.eq_of_toInt_eq
        rw [BitVec.toInt_ofInt, BitVec.toInt_sdiv]
      exact hdiv ▸ lowBits_ofInt hn _

theorem divM_eq_tmod (x y : Int) : Machine.divM x y = x.tmod y := by
  unfold Machine.divM
  split
  · next h => rw [h, Int.tmod_zero]
  · exact (Int.tmod_def x y).symm

/-- The remainder of R90 as a word. -/
theorem Ty.put_divM (ty : Ty) (v w : Word) : ty.put (Machine.divM (ty.src v) (ty.src w)) =
    ty.fit (if ty.signed then (ty.fit v).srem (ty.fit w) else (ty.fit v).umod (ty.fit w)) := by
  have hn := ty.width_le
  refine LowBits.put ?_
  rw [divM_eq_tmod]
  cases h : ty.signed
  · rw [Ty.src_of_unsigned h, Ty.src_of_unsigned h, if_neg Bool.false_ne_true, BitVec.umod_eq]
    exact lowBits_toNat hn (ty.fit v % ty.fit w)
  · rw [Ty.src_of_signed h, Ty.src_of_signed h, if_pos rfl, ← BitVec.toInt_srem]
    exact lowBits_toInt hn _

open Machine

/-- Settles O2: carries and borrows are read off the exact sum and difference, products and quotients are those of the operands'
exact values. -/
theorem carriesProductsAndQuotients : Obligations.CarriesProductsAndQuotients := by
  unfold Obligations.CarriesProductsAndQuotients
  refine ⟨fun s h ty d a b p imm => ?_, fun s h ty d a b imm => ?_⟩
  · intro x y k low
    have hn := ty.width_le
    constructor
    case left =>
      refine State.computes_alu rfl fun L => ?_
      have hsum := (((lowBits_zx _ (x L)).add hn (lowBits_zx _ (y L))).add hn (lowBits_bit hn (s.predOf L p))).put
      rw [carry_eq hn, ← hsum]
      rfl
    case right =>
      refine State.computes_alu rfl fun L => ?_
      have hdiff := (((lowBits_zx _ (x L)).sub hn (lowBits_zx _ (y L))).sub hn (lowBits_bit hn (s.predOf L p))).put
      rw [borrow_eq hn, ← hdiff]
      rfl
  · intro x y q m
    refine ⟨?mulh, fun hn => ?mulw, ?div, ?rem⟩
    case mulh => exact State.computes_int rfl fun L => by rw [ty.prod_eq]; exact (lowBits_ushiftRight ty.width_le _).put
    case mulw => exact State.computes_int rfl fun L => mulw_eq hn _ _
    case div => exact State.computes_int rfl fun L => ty.put_divQ _ _
    case rem => exact State.computes_int rfl fun L => ty.put_divM _ _

end Sys2Proof
end

section
/-! Logic, shifts, rotations, bit fields and counts (R91 to R95), bit by bit. -/

namespace Sys2Proof

/-! ### Bits -/

theorem testBit_zx (n : Nat) (v : Word) (i : Nat) : (zx n v).testBit i = (decide (i < n) && v.getLsbD i) := by
  rw [zx, Nat.testBit_mod_two_pow, BitVec.testBit_toNat]

/-- A word stands for the numbers whose low bits are its own. -/
theorem lowBits_iff_testBit {n m : Nat} {v : Word} : LowBits n m v ↔ ∀ i < n, m.testBit i = v.getLsbD i := by
  rw [lowBits_natCast]
  constructor
  · intro h i hi
    have hbit := congrArg (Nat.testBit · i) h
    simpa [Nat.testBit_mod_two_pow, testBit_zx, hi] using hbit
  · intro h
    refine Nat.eq_of_testBit_eq fun i => ?_
    rw [Nat.testBit_mod_two_pow, testBit_zx]
    by_cases hi : i < n
    · rw [h i hi]
    · simp [hi]

theorem getLsbD_cut_false {n : Nat} (hn : n ≤ 64) (v : Word) (i : Nat) :
    (cut false n v).getLsbD i = (decide (i < n) && v.getLsbD i) := by
  rw [← BitVec.testBit_toNat, toNat_cut_false hn, testBit_zx]

theorem Ty.lowBits_src_fit (ty : Ty) (v : Word) : LowBits ty.width (ty.src v) (ty.fit v) := by
  cases h : ty.signed
  · rw [ty.src_of_unsigned h]; exact lowBits_toNat ty.width_le _
  · rw [ty.src_of_signed h]; exact lowBits_toInt ty.width_le _

/-- What `Put` writes stands for the integer that it was given. -/
theorem Ty.lowBits_put (ty : Ty) (x : Int) : LowBits ty.width x (ty.put x) := by
  have hx := lowBits_ofInt ty.width_le x
  rw [hx.put]
  exact hx.trans ((ty.lowBits_src _).symm.trans (ty.lowBits_src_fit _))

theorem Ty.fit_put (ty : Ty) (x : Int) : ty.fit (ty.put x) = ty.put x := (ty.lowBits_put x).put.symm

theorem Ty.getLsbD_put (ty : Ty) (m : Nat) {i : Nat} (hi : i < ty.width) : (ty.put m).getLsbD i = m.testBit i :=
  (lowBits_iff_testBit.1 (ty.lowBits_put m) i hi).symm

theorem Machine.putBits_eq_fit (ty : Ty) (v : Word) : Machine.putBits ty v = ty.fit v := (lowBits_zx _ v).put

/-! ### Shifts (R92) -/

theorem lowBits_shlBits {n : Nat} (hn : n ≤ 64) (v c : Word) : LowBits n (Machine.shlBits n v c) (v <<< c.toNat) := by
  refine lowBits_iff_testBit.2 fun i hi => ?_
  rw [BitVec.getLsbD_shiftLeft]
  unfold Machine.shlBits
  split
  · simp [show i < c.toNat by omega]
  · rw [Nat.testBit_mod_two_pow, Nat.testBit_mul_two_pow, testBit_zx]
    simp only [hi, (by omega : i < 64), (by omega : i - c.toNat < n), decide_true, Bool.true_and, ← Nat.not_lt, decide_not]

theorem lowBits_shrBits {n : Nat} (hn : n ≤ 64) (v c : Word) :
    LowBits n (Machine.shrBits n v c) (cut false n v >>> c.toNat) := by
  refine lowBits_iff_testBit.2 fun i hi => ?_
  rw [BitVec.getLsbD_ushiftRight, getLsbD_cut_false hn]
  unfold Machine.shrBits
  split
  · simp [show ¬c.toNat + i < n by omega]
  · rw [Nat.testBit_div_two_pow, testBit_zx, Nat.add_comm]

theorem sx_bounds {n : Nat} (hn : 0 < n) (v : Word) : -2 ^ (n - 1) ≤ sx n v ∧ sx n v < 2 ^ (n - 1) := by
  obtain ⟨m, rfl⟩ := Nat.exists_eq_add_of_lt hn
  have hz := zx_lt (0 + m + 1) v
  unfold sx
  simp only [Nat.zero_add, Nat.add_sub_cancel, Nat.pow_succ, Int.pow_succ] at hz ⊢
  zify at hz ⊢
  split <;> omega

/-- Divided by more than its size, a number leaves its sign. -/
theorem ediv_of_bounds {x k : Int} (hlow : -k ≤ x) (hhigh : x < k) : x / k = if x < 0 then -1 else 0 := by
  split
  · next h => exact Int.ediv_eq_neg_one_of_neg_of_le h (by omega)
  · exact Int.ediv_eq_zero_of_lt (by omega) hhigh

/-- A shift by `n` or more leaves the sign alone (R92). -/
theorem sarBits_eq {n : Nat} (hn : 0 < n) (hle : n ≤ 64) (v c : Word) :
    Machine.sarBits n v c = ((cut true n v).sshiftRight c.toNat).toInt := by
  rw [BitVec.toInt_sshiftRight, toInt_cut_true hle, Int.shiftRight_eq_div_pow, Machine.sarBits]
  rcases Nat.le_total c.toNat (n - 1) with hc | hc
  · rw [show Nat.min c.toNat (n - 1) = c.toNat from Nat.min_eq_left hc]
  · rw [show Nat.min c.toNat (n - 1) = n - 1 from Nat.min_eq_right hc]
    obtain ⟨hlow, hhigh⟩ := sx_bounds hn v
    have hpow : (2 : Int) ^ (n - 1) ≤ 2 ^ c.toNat := pow_le_pow_right₀ (by decide) hc
    push_cast
    rw [ediv_of_bounds hlow hhigh, ediv_of_bounds (by omega) (by omega)]

/-! ### Rotations (R93) -/

theorem Ty.width_pos (ty : Ty) : 0 < ty.width := by cases ty <;> decide

theorem rotateRight_eq_rotateLeft {n : Nat} (hn : 0 < n) (x : BitVec n) (c : Nat) :
    x.rotateRight c = x.rotateLeft (n - c % n) := by
  rw [BitVec.rotateRight_def, BitVec.rotateLeft_def, BitVec.or_comm]
  rcases Nat.eq_zero_or_pos (c % n) with hc | hc
  · simp [hc, BitVec.ushiftRight_eq_zero]
  · rw [Nat.mod_eq_of_lt (by omega : n - c % n < n), Nat.sub_sub_self (Nat.mod_lt c hn).le]

theorem rotBits_eq {n : Nat} (hn : 0 < n) (v : Word) (c : Nat) : Machine.rotBits n v c = ((v.setWidth n).rotateLeft c).toNat := by
  have hk : c % n < n := Nat.mod_lt c hn
  have hpow : 2 ^ n = 2 ^ (c % n) * 2 ^ (n - c % n) := by rw [← Nat.pow_add, Nat.add_sub_cancel' hk.le]
  have htop : zx n v / 2 ^ (n - c % n) < 2 ^ (c % n) := Nat.div_lt_of_lt_mul (by rw [Nat.mul_comm, ← hpow]; exact zx_lt n v)
  have hlow : zx n v * 2 ^ (c % n) % 2 ^ n = 2 ^ (c % n) * (zx n v % 2 ^ (n - c % n)) := by
    rw [hpow, Nat.mul_comm, Nat.mul_mod_mul_left]
  rw [BitVec.toNat_rotateLeft, BitVec.toNat_setWidth, Nat.shiftLeft_eq, Nat.shiftRight_eq_div_pow]
  change zx n v * 2 ^ (c % n) % 2 ^ n + zx n v / 2 ^ (n - c % n) = zx n v * 2 ^ (c % n) % 2 ^ n ||| zx n v / 2 ^ (n - c % n)
  rw [hlow, Nat.two_pow_add_eq_or_of_lt htop]

theorem lowBits_rotBits {n : Nat} (hn : 0 < n) (hle : n ≤ 64) (v : Word) (c : Nat) :
    LowBits n (Machine.rotBits n v c) (((v.setWidth n).rotateLeft c).setWidth 64) := by
  refine lowBits_iff_testBit.2 fun i hi => ?_
  rw [rotBits_eq hn, BitVec.testBit_toNat, BitVec.getLsbD_setWidth, decide_eq_true (by omega), Bool.true_and]

/-! ### Bit fields (R94) -/

theorem fieldVal_of_pos {len : Nat} (hlen : len ≠ 0) (signed : Bool) (v : Word) :
    Machine.fieldVal signed len v.toNat = if signed then sx len v else zx len v := by
  rw [Machine.fieldVal, if_neg hlen]
  cases signed
  · simp [zx]
  · by_cases h : 2 * (v.toNat % 2 ^ len) < 2 ^ len
    · simp [sx, zx, h]
    · simp [sx, zx, h, Nat.le_of_not_lt h]

/-- A field of `len` bits read as a number stands for the field cut out of the word. -/
theorem lowBits_fieldVal {n len : Nat} (hn : n ≤ 64) (hlen : len ≤ 64) (signed : Bool) (v : Word) :
    LowBits n (Machine.fieldVal signed len v.toNat) (if len = 0 then 0 else cut signed len v) := by
  by_cases hz : len = 0
  · subst hz; exact lowBits_toInt hn 0
  · rw [if_neg hz, fieldVal_of_pos hz]
    cases signed
    · rw [if_neg Bool.false_ne_true, ← toNat_cut_false hlen]
      exact lowBits_toNat hn _
    · rw [if_pos rfl, ← toInt_cut_true hlen]
      exact lowBits_toInt hn _

theorem lowBits_bfiBits {n : Nat} (hn : n ≤ 64) (a base k : Word) :
    let mask : Word := BitVec.ofNat 64 ((1 <<< Machine.ctlLen n k - 1) <<< Machine.ctlPos n k)
    LowBits n (Machine.bfiBits n a base k) ((base &&& ~~~mask) ||| (a <<< Machine.ctlPos n k &&& mask)) := by
  have hpos : Machine.ctlPos n k ≤ n := Nat.min_le_right _ _
  have hlen : Machine.ctlLen n k ≤ n - Machine.ctlPos n k := Nat.min_le_right _ _
  simp only [Machine.bfiBits, Nat.shiftLeft_eq, Nat.one_mul]
  generalize Machine.ctlPos n k = pos at *
  generalize Machine.ctlLen n k = len at *
  have hm : (2 ^ len - 1) * 2 ^ pos < 2 ^ n := by
    calc (2 ^ len - 1) * 2 ^ pos < 2 ^ len * 2 ^ pos := by have := Nat.two_pow_pos len; gcongr; omega
      _ = 2 ^ (len + pos) := (Nat.pow_add ..).symm
      _ ≤ 2 ^ n := Nat.pow_le_pow_right (by decide) (by omega)
  generalize (2 ^ len - 1) * 2 ^ pos = m at *
  refine lowBits_iff_testBit.2 fun i hi => ?_
  rw [Nat.sub_sub, Nat.add_comm 1, Nat.testBit_or, Nat.testBit_and, Nat.testBit_and, testBit_zx,
    Nat.testBit_two_pow_sub_succ hm, Nat.testBit_mul_two_pow, BitVec.testBit_toNat]
  simp only [BitVec.getLsbD_or, BitVec.getLsbD_and, BitVec.getLsbD_not, BitVec.getLsbD_shiftLeft, BitVec.getLsbD_ofNat, hi,
    (by omega : i < 64), decide_true, Bool.true_and, ← Nat.not_lt, decide_not]

theorem ctlPos_eq (n : Nat) (k : Word) : min (k.extractLsb' 0 7).toNat n = Machine.ctlPos n k := by
  simp [Machine.ctlPos, Machine.fld]

theorem ctlLen_eq (n : Nat) (k : Word) : min (k.extractLsb' 8 7).toNat (n - Machine.ctlPos n k) = Machine.ctlLen n k := by
  simp [Machine.ctlLen, Machine.fld, Nat.shiftRight_eq_div_pow]

/-! ### Counts and the reverse order (R95) -/

/-- A number that a type holds with room for its sign is written as it is. -/
theorem Ty.put_of_small {ty : Ty} {m : Nat} (h : 2 * m < 2 ^ ty.width) : ty.put m = BitVec.ofNat 64 m := by
  have hmod : m % 2 ^ ty.width = m := Nat.mod_eq_of_lt (by omega)
  have hz : zx ty.width (BitVec.ofInt 64 m) = m := (lowBits_natCast.1 (lowBits_ofInt ty.width_le m)).symm.trans hmod
  have hsx : sx ty.width (BitVec.ofNat 64 m) = m := by rw [← BitVec.ofInt_natCast, sx, hz, if_pos h]
  have hemod : (m : Int) % 2 ^ ty.width = m := by exact_mod_cast hmod
  rw [Ty.put, extend]
  simp only [hemod, hsx, BitVec.ofInt_natCast, ite_self]

theorem Ty.put_count (ty : Ty) {m : Nat} (h : m ≤ ty.width) : ty.put m = BitVec.ofNat 64 m :=
  Ty.put_of_small <| (Nat.mul_le_mul_left 2 h).trans_lt (by cases ty <;> decide)

/-- The first number below `n` that passes a test, or `n`. -/
theorem find_range_getD (p : Nat → Bool) (n : Nat) :
    let m := ((List.range n).find? p).getD n
    m ≤ n ∧ (∀ i, i < m → p i = false) ∧ (m < n → p m = true) := by
  intro m
  cases h : (List.range n).find? p with
  | none =>
    have hnone := List.find?_range_eq_none.1 h
    simpa [m, h] using hnone
  | some i =>
    obtain ⟨hp, hi, hmin⟩ := List.find?_range_eq_some.1 h
    simpa [m, h, hp, (List.mem_range.1 hi).le] using hmin

theorem Machine.clz_eq (n : Nat) (v : Word) :
    Machine.clz n v = ((List.range n).find? fun i => v.getLsbD (n - 1 - i)).getD n := by
  rw [Machine.clz]; cases (List.range n).find? fun i => v.getLsbD (n - 1 - i) <;> rfl

theorem Machine.ctz_eq (n : Nat) (v : Word) : Machine.ctz n v = ((List.range n).find? fun i => v.getLsbD i).getD n := by
  rw [Machine.ctz]; cases (List.range n).find? fun i => v.getLsbD i <;> rfl

theorem Machine.popc_eq (n : Nat) (v : Word) : Machine.popc n v = (List.range n).countP fun i => v.getLsbD i :=
  List.countP_eq_length_filter.symm

/-- Digits taken in from the lowest end stand in reverse order. -/
theorem testBit_brev (n : Nat) (v : Word) : ∀ i < n, (Machine.brev n v).testBit i = v.getLsbD (n - 1 - i) := by
  induction n with
  | zero => intro i hi; omega
  | succ n ih =>
    have hstep : Machine.brev (n + 1) v = 2 * Machine.brev n v + (v.getLsbD n).toNat := by
      simp only [Machine.brev, List.range_succ, List.foldl_append, List.foldl_cons, List.foldl_nil]
    intro i hi
    rw [hstep]
    cases i with
    | zero => cases hbit : v.getLsbD n <;> simp [Nat.testBit_zero, hbit]
    | succ i =>
      have hhalf : (2 * Machine.brev n v + (v.getLsbD n).toNat) / 2 = Machine.brev n v := by
        have := (v.getLsbD n).toNat_le; omega
      rw [Nat.testBit_succ, hhalf, ih i (by omega)]
      congr 1; omega

open Machine

/-- A count up to the width is written as it is, whatever the type (R95). -/
theorem Machine.State.computes_count {s : State} {i : Instr} {h : Head} {ty : Ty} {d : Spec} {v : Nat → Nat}
    (hv : ∀ L, v L ≤ ty.width) (hi : exec i s = .next (s.runInt h d fun L => ty.put (v L))) :
    s.Computes i h d fun L => { d := some (BitVec.ofNat 64 (v L)) } :=
  State.computes_int hi fun L => ty.put_count (hv L)

/-- Settles O3: every result is compared with the stated word bit by bit below the width. -/
theorem logicShiftsAndBitFields : Obligations.LogicShiftsAndBitFields := by
  unfold Obligations.LogicShiftsAndBitFields
  refine ⟨fun s h ty d a b imm => ?_, fun s h ty d a b c imm => ?_⟩
  · intro x y part
    have hn := ty.width_le
    have hpos := ty.width_pos
    refine ⟨?and, ?or, ?xor, ?andn, ?not, ?shl, ?shr, ?sar, ?rotL, ?rotR⟩
    case and => exact State.computes_int rfl fun L => putBits_eq_fit ty _
    case or => exact State.computes_int rfl fun L => putBits_eq_fit ty _
    case xor => exact State.computes_int rfl fun L => putBits_eq_fit ty _
    case andn => exact State.computes_int rfl fun L => putBits_eq_fit ty _
    case not => exact State.computes_int rfl fun L => putBits_eq_fit ty _
    case shl => exact State.computes_int rfl fun L => (lowBits_shlBits hn _ _).put
    case shr => exact State.computes_int rfl fun L => (lowBits_shrBits hn _ _).put
    case sar => exact State.computes_int rfl fun L => by rw [sarBits_eq hpos hn]; exact (lowBits_toInt hn _).put
    case rotL => exact State.computes_int rfl fun L => (lowBits_rotBits hpos hn _ _).put
    case rotR =>
      exact State.computes_int rfl fun L => by
        rw [rotateRight_eq_rotateLeft hpos]; exact (lowBits_rotBits hpos hn _ _).put
  · intro n x pos len mask
    have hn : n ≤ 64 := ty.width_le
    have hpos (k : Word) : pos k = ctlPos n k := ctlPos_eq n k
    have hlen (k : Word) : len k = ctlLen n k := by simp only [len, hpos, ctlLen_eq]
    have hle (k : Word) : ctlLen n k ≤ 64 := (Nat.min_le_right ..).trans ((Nat.sub_le ..).trans hn)
    refine ⟨?bfx, ?bfi, ?ext, ?popc, ?clz, ?ctz, ?brev⟩
    case bfx =>
      refine State.computes_int rfl fun L => ?_
      have hfield := lowBits_fieldVal hn (hle (s.opnd L b imm)) ty.signed (x L >>> ctlPos n (s.opnd L b imm))
      rw [BitVec.toNat_ushiftRight, Nat.shiftRight_eq_div_pow] at hfield
      simp only [hpos, hlen]
      exact hfield.put
    case bfi =>
      refine State.computes_int rfl fun L => ?_
      simp only [mask, hpos, hlen]
      exact (lowBits_bfiBits hn _ _ _).put
    case ext =>
      refine State.computes_int rfl fun L => ?_
      have hfield := lowBits_fieldVal hn (len := min (s.opnd L b imm).toNat (n - 1) + 1) (by omega) ty.signed (x L)
      rw [if_neg (by omega)] at hfield
      exact hfield.put
    case popc =>
      refine ⟨fun L => popc n (x L), State.computes_count (fun L => ?_) rfl, fun L => popc_eq n (x L)⟩
      rw [popc_eq]
      exact List.countP_le_length.trans_eq List.length_range
    case clz =>
      have hspec (L : Nat) := find_range_getD (fun i => (x L).getLsbD (n - 1 - i)) n
      simp only [← clz_eq] at hspec
      exact ⟨fun L => clz n (x L), State.computes_count (fun L => (hspec L).1) rfl, hspec⟩
    case ctz =>
      have hspec (L : Nat) := find_range_getD (fun i => (x L).getLsbD i) n
      simp only [← ctz_eq] at hspec
      exact ⟨fun L => ctz n (x L), State.computes_count (fun L => (hspec L).1) rfl, hspec⟩
    case brev =>
      refine ⟨fun L => ty.put (brev n (x L)), State.computes_int rfl fun _ => rfl, fun L => ⟨(ty.fit_put _).symm, ?_⟩⟩
      exact fun i hi => (ty.getLsbD_put _ hi).trans (testBit_brev n (x L) i hi)

end Sys2Proof
end

section
/-! HMIX permutes the keys (R100): each of its steps can be undone. -/

namespace Sys2Proof

/-- A word is told by its exclusive or with its own bits shifted down: their difference would be its own shift. -/
theorem xor_ushiftRight_injective {w k : Nat} (hk : 0 < k) : Function.Injective fun x : BitVec w => x ^^^ (x >>> k) := by
  intro x y hxy
  have hfix : (x ^^^ y) >>> k = x ^^^ y := by
    have hxy : x ^^^ x >>> k = y ^^^ y >>> k := hxy
    rw [BitVec.ushiftRight_xor_distrib]
    calc x >>> k ^^^ y >>> k = x ^^^ (x ^^^ x >>> k) ^^^ y >>> k := by rw [← BitVec.xor_assoc, BitVec.xor_self, BitVec.zero_xor]
      _ = x ^^^ y := by rw [hxy, BitVec.xor_assoc, BitVec.xor_assoc, BitVec.xor_self, BitVec.xor_zero]
  have hzero : (x ^^^ y).toNat = 0 := by
    by_contra hne
    have hlt := Nat.div_lt_self (Nat.pos_of_ne_zero hne) (Nat.one_lt_two_pow hk.ne')
    rw [← Nat.shiftRight_eq_div_pow, ← BitVec.toNat_ushiftRight, hfix] at hlt
    exact hlt.false
  exact BitVec.xor_eq_zero_iff.1 (BitVec.eq_of_toNat_eq hzero)

/-- Multiplication by a word that has an inverse can be undone. -/
theorem mul_injective_of_inverse {w : Nat} {c d : BitVec w} (h : c * d = 1#w) : Function.Injective fun x => x * c := by
  intro x y hxy
  have hxy : x * c = y * c := hxy
  calc x = x * c * d := by rw [BitVec.mul_assoc, h, BitVec.mul_one]
    _ = y := by rw [hxy, BitVec.mul_assoc, h, BitVec.mul_one]

theorem hmix_injective (seed : BitVec 32) : Function.Injective fun key => Machine.hmix key seed := by
  have hseed : Function.Injective fun key : BitVec 32 => key ^^^ seed := fun _ _ h => BitVec.xor_left_inj seed |>.1 h
  have hfirst : Function.Injective fun x : BitVec 32 => x * 0xB4E39A6D#32 :=
    mul_injective_of_inverse (d := 0x3BF87F65#32) (by decide)
  have hsecond : Function.Injective fun x : BitVec 32 => x * 0x6C8E2F53#32 :=
    mul_injective_of_inverse (d := 0xD7AFECDB#32) (by decide)
  have hshift {k : Nat} (hk : 0 < k) := xor_ushiftRight_injective (w := 32) hk
  exact (hshift (k := 16) (by decide)).comp <| hsecond.comp <| (hshift (k := 15) (by decide)).comp <| hfirst.comp <|
    (hshift (k := 16) (by decide)).comp hseed

/-- Settles O5: an injective function on a finite type is a bijection. -/
theorem hashMixPermutes : Obligations.HashMixPermutes := by
  unfold Obligations.HashMixPermutes
  exact fun seed => Finite.injective_iff_bijective.1 (hmix_injective seed)

end Sys2Proof
end

section
/-! A magnitude rounded to an integer (R107): bounds of the result, and when two magnitudes give the same one. -/

namespace Sys2Proof

open Machine

namespace Rm

variable (rm : Rm) (neg : Bool)

theorem ceil_eq (x : ℝ) : ⌈x⌉ = ⌊x⌋ + if Int.fract x = 0 then 0 else 1 := by
  have hsplit := Int.floor_add_fract x
  have h0 := Int.fract_nonneg x
  have h1 := Int.fract_lt_one x
  rw [Int.ceil_eq_iff]
  split
  next h => push_cast; constructor <;> linarith
  next h =>
    have hpos := lt_of_le_of_ne h0 (Ne.symm h)
    push_cast
    constructor <;> linarith

/-- Rounding to the nearest goes up where the fraction passes a half, and at a half to the even integer. -/
theorem integer_nearest (x : ℝ) :
    Rm.rne.integer neg x = if Int.fract x < 1 / 2 ∨ (Int.fract x = 1 / 2 ∧ ⌊x⌋ % 2 = 0) then ⌊x⌋ else ⌊x⌋ + 1 := rfl

theorem integer_dyn (x : ℝ) : Rm.dyn.integer neg x = Rm.rne.integer neg x := rfl

theorem floor_add_half (x : ℝ) : ⌊x + 1 / 2⌋ = if Int.fract x < 1 / 2 then ⌊x⌋ else ⌊x⌋ + 1 := by
  have hsplit := Int.floor_add_fract x
  have h0 := Int.fract_nonneg x
  have h1 := Int.fract_lt_one x
  split <;> rw [Int.floor_eq_iff] <;> push_cast <;> constructor <;> linarith

theorem integer_eq_floor_or_ceil (x : ℝ) : rm.integer neg x = ⌊x⌋ ∨ rm.integer neg x = ⌈x⌉ := by
  have hup : 1 / 2 ≤ Int.fract x → ⌊x⌋ + 1 = ⌈x⌉ := fun h => by rw [ceil_eq, if_neg (by linarith)]
  cases rm
  case rtz => exact .inl rfl
  case rup => cases neg <;> simp [integer]
  case rdn => cases neg <;> simp [integer]
  case rna =>
    simp only [integer, floor_add_half]
    split
    · exact .inl rfl
    · exact .inr (hup (by linarith))
  all_goals
    simp only [integer]
    split
    next => exact .inl rfl
    next h => exact .inr (hup (not_lt.1 fun hlt => h (.inl hlt)))

theorem floor_le_integer (x : ℝ) : ⌊x⌋ ≤ rm.integer neg x := by
  rcases rm.integer_eq_floor_or_ceil neg x with h | h
  · exact h.ge
  · exact h ▸ Int.floor_le_ceil x

theorem integer_le_ceil (x : ℝ) : rm.integer neg x ≤ ⌈x⌉ := by
  rcases rm.integer_eq_floor_or_ceil neg x with h | h
  · exact h ▸ Int.floor_le_ceil x
  · exact h.le

theorem le_integer {x : ℝ} {n : ℤ} (h : (n : ℝ) ≤ x) : n ≤ rm.integer neg x :=
  (Int.le_floor.2 h).trans (rm.floor_le_integer neg x)

theorem integer_le {x : ℝ} {n : ℤ} (h : x ≤ n) : rm.integer neg x ≤ n :=
  (rm.integer_le_ceil neg x).trans (Int.ceil_le.2 h)

@[simp] theorem integer_intCast (n : ℤ) : rm.integer neg (n : ℝ) = n :=
  le_antisymm (rm.integer_le neg le_rfl) (rm.le_integer neg le_rfl)

@[simp] theorem integer_natCast (n : ℕ) : rm.integer neg (n : ℝ) = n := by
  exact_mod_cast rm.integer_intCast neg n

@[simp] theorem integer_zero : rm.integer neg 0 = 0 := by exact_mod_cast rm.integer_intCast neg 0

theorem integer_nonneg {x : ℝ} (h : 0 ≤ x) : 0 ≤ rm.integer neg x := rm.le_integer neg (by exact_mod_cast h)

theorem integer_eq_self_iff (x : ℝ) : (rm.integer neg x : ℝ) = x ↔ Int.fract x = 0 := by
  constructor
  · intro h
    rw [← h, Int.fract_intCast]
  · intro h
    have hx := Int.floor_add_fract x
    rw [h, add_zero] at hx
    rw [← hx, integer_intCast]

theorem toUnit_eq_self_iff (x : ℝ) (q : ℤ) : rm.toUnit neg x q = x ↔ Int.fract (x / 2 ^ q) = 0 := by
  rw [← rm.integer_eq_self_iff neg, toUnit, eq_div_iff (by positivity)]

/-- Rounding to the nearest is at most a half off, and at a half to the even integer (R107). -/
theorem nearest_spec (x : ℝ) :
    |(Rm.rne.integer neg x : ℝ) - x| ≤ 1 / 2 ∧ (|(Rm.rne.integer neg x : ℝ) - x| = 1 / 2 → Rm.rne.integer neg x % 2 = 0) := by
  have hsplit := Int.floor_add_fract x
  have h0 := Int.fract_nonneg x
  have h1 := Int.fract_lt_one x
  rw [integer_nearest]
  split
  next h =>
    have hdist : |(⌊x⌋ : ℝ) - x| = Int.fract x := by rw [abs_sub_comm, Int.self_sub_floor, abs_of_nonneg h0]
    rw [hdist]
    rcases h with hlt | ⟨heq, heven⟩
    · exact ⟨hlt.le, fun h => absurd h hlt.ne⟩
    · exact ⟨heq.le, fun _ => heven⟩
  next h =>
    push Not at h
    obtain ⟨hle, hodd⟩ := h
    have hdist : |((⌊x⌋ + 1 : ℤ) : ℝ) - x| = 1 - Int.fract x := by
      push_cast
      rw [abs_of_nonneg] <;> linarith
    rw [hdist]
    exact ⟨by linarith, fun heq => by have := hodd (by linarith); omega⟩

/-- Rounding to the nearest away from zero is at most a half off, and at a half goes up (R107). -/
theorem away_spec (x : ℝ) :
    |(Rm.rna.integer neg x : ℝ) - x| ≤ 1 / 2 ∧ (|(Rm.rna.integer neg x : ℝ) - x| = 1 / 2 → x < Rm.rna.integer neg x) := by
  have hlo := Int.floor_le (x + 1 / 2)
  have hhi := Int.lt_floor_add_one (x + 1 / 2)
  have hval : Rm.rna.integer neg x = ⌊x + 1 / 2⌋ := rfl
  rw [hval]
  refine ⟨abs_le.2 ⟨by linarith, by linarith⟩, fun h => ?_⟩
  rcases abs_eq (by norm_num) |>.1 h with h | h <;> linarith

end Rm

/-! ### Magnitudes that no multiple of a unit separates -/

/-- Two values stand on the same side of every multiple of 2^g. -/
def SameSide (g : ℤ) (x y : ℝ) : Prop := ∀ n : ℤ, (n * 2 ^ g ≤ x ↔ n * 2 ^ g ≤ y) ∧ (x ≤ n * 2 ^ g ↔ y ≤ n * 2 ^ g)

namespace SameSide

variable {g q : ℤ} {x y : ℝ}

theorem refl (g : ℤ) (x : ℝ) : SameSide g x x := fun _ => ⟨Iff.rfl, Iff.rfl⟩

theorem symm (h : SameSide g x y) : SameSide g y x := fun n => ⟨(h n).1.symm, (h n).2.symm⟩

theorem zpow_split (h : g ≤ q) : (2 : ℝ) ^ q = ((2 ^ (q - g).toNat : ℤ) : ℝ) * 2 ^ g := by
  push_cast
  rw [← zpow_natCast, ← zpow_add₀ two_ne_zero]
  congr 1
  omega

theorem mono (h : SameSide g x y) (hq : g ≤ q) : SameSide q x y := by
  intro n
  have hn : (n : ℝ) * 2 ^ q = ((n * 2 ^ (q - g).toNat : ℤ) : ℝ) * 2 ^ g := by
    rw [zpow_split hq]; push_cast; ring
  rw [hn]
  exact h _

theorem zpow_le (h : SameSide g x y) (hq : g ≤ q) : (2 : ℝ) ^ q ≤ x ↔ (2 : ℝ) ^ q ≤ y := by
  simpa using (h.mono hq 1).1

theorem lt_zpow (h : SameSide g x y) (hq : g ≤ q) : x < (2 : ℝ) ^ q ↔ y < (2 : ℝ) ^ q := by
  simpa using not_congr (h.zpow_le hq)

theorem div (h : SameSide g x y) : SameSide (g - q) (x / 2 ^ q) (y / 2 ^ q) := by
  intro n
  have hpos : (0 : ℝ) < 2 ^ q := by positivity
  have hn : (n : ℝ) * 2 ^ g = n * 2 ^ (g - q) * 2 ^ q := by
    rw [mul_assoc, ← zpow_add₀ two_ne_zero, Int.sub_add_cancel]
  have := h n
  rw [hn] at this
  rwa [le_div_iff₀ hpos, le_div_iff₀ hpos, div_le_iff₀ hpos, div_le_iff₀ hpos]

theorem floor_eq (h : SameSide 0 x y) : ⌊x⌋ = ⌊y⌋ := by
  have key (n : ℤ) : (n : ℝ) ≤ x ↔ (n : ℝ) ≤ y := by simpa using (h n).1
  exact le_antisymm (Int.le_floor.2 ((key _).1 (Int.floor_le x))) (Int.le_floor.2 ((key _).2 (Int.floor_le y)))

theorem ceil_eq (h : SameSide 0 x y) : ⌈x⌉ = ⌈y⌉ := by
  have key (n : ℤ) : x ≤ (n : ℝ) ↔ y ≤ (n : ℝ) := by simpa using (h n).2
  exact le_antisymm (Int.ceil_le.2 ((key _).2 (Int.le_ceil y))) (Int.ceil_le.2 ((key _).1 (Int.le_ceil x)))

/-- Magnitudes on the same side of every half round to the same integer. -/
theorem integer_eq (h : SameSide (-1) x y) (rm : Rm) (neg : Bool) : rm.integer neg x = rm.integer neg y := by
  have hint : SameSide 0 x y := h.mono (by decide)
  have hfloor := hint.floor_eq
  have half : ((2 * ⌊x⌋ + 1 : ℤ) : ℝ) * 2 ^ (-1 : ℤ) = ⌊x⌋ + 1 / 2 := by push_cast; rw [zpow_neg_one]; ring
  obtain ⟨hge, hle⟩ := h (2 * ⌊x⌋ + 1)
  rw [half] at hge hle
  have hlt : Int.fract x < 1 / 2 ↔ Int.fract y < 1 / 2 := by
    rw [Int.fract, Int.fract, sub_lt_iff_lt_add', sub_lt_iff_lt_add', ← hfloor]
    exact (by simpa using not_congr hge)
  have heq : Int.fract x = 1 / 2 ↔ Int.fract y = 1 / 2 := by
    rw [Int.fract, Int.fract, sub_eq_iff_eq_add', sub_eq_iff_eq_add', ← hfloor, le_antisymm_iff, le_antisymm_iff]
    exact and_congr hle hge
  cases rm <;> simp only [Rm.integer, Rm.floor_add_half, hfloor, hint.ceil_eq, hlt, heq]

theorem toUnit_eq (h : SameSide g x y) (hq : g < q) (rm : Rm) (neg : Bool) : rm.toUnit neg x q = rm.toUnit neg y q := by
  rw [Rm.toUnit, Rm.toUnit, (h.div.mono (by omega : g - q ≤ -1)).integer_eq]

/-- A rounded magnitude differs from both values or from neither. -/
theorem toUnit_ne_iff (h : SameSide g x y) (hq : g < q) (rm : Rm) (neg : Bool) :
    rm.toUnit neg x q ≠ x ↔ rm.toUnit neg x q ≠ y := by
  obtain ⟨hge, hle⟩ := h.mono hq.le (rm.integer neg (x / 2 ^ q))
  rw [Rm.toUnit, not_iff_not, le_antisymm_iff, le_antisymm_iff]
  exact and_congr hge hle

theorem log_eq (h : SameSide g x y) (hx : 0 < x) (hy : 0 < y) (hg : (2 : ℝ) ^ g ≤ x) : Int.log 2 x = Int.log 2 y := by
  have hlog : g ≤ Int.log 2 x := (Int.zpow_le_iff_le_log one_lt_two hx).1 (by exact_mod_cast hg)
  have hlo := Int.zpow_log_le_self (b := 2) one_lt_two hx
  have hhi := Int.lt_zpow_succ_log_self (b := 2) one_lt_two x
  rw [Nat.cast_ofNat] at hlo hhi
  apply le_antisymm
  · exact (Int.zpow_le_iff_le_log one_lt_two hy).1 (by exact_mod_cast (h.zpow_le hlog).1 hlo)
  · have := (Int.lt_zpow_iff_log_lt (b := 2) one_lt_two hy).1 (by exact_mod_cast (h.lt_zpow (by omega)).1 hhi)
    omega

end SameSide

/-- Values strictly inside one interval between neighbouring multiples of 2^g. -/
theorem SameSide.of_between {g n : ℤ} {x y : ℝ} (hx : n * 2 ^ g < x) (hx' : x < (n + 1) * 2 ^ g) (hy : n * 2 ^ g < y)
    (hy' : y < (n + 1) * 2 ^ g) : SameSide g x y := by
  intro k
  have hpos : (0 : ℝ) < 2 ^ g := by positivity
  rcases le_or_gt k n with hk | hk
  · have hle : (k : ℝ) * 2 ^ g ≤ n * 2 ^ g := mul_le_mul_of_nonneg_right (by exact_mod_cast hk) hpos.le
    exact ⟨iff_of_true (hle.trans hx.le) (hle.trans hy.le), iff_of_false (hle.trans_lt hx).not_ge (hle.trans_lt hy).not_ge⟩
  · have hle : ((n : ℝ) + 1) * 2 ^ g ≤ k * 2 ^ g := mul_le_mul_of_nonneg_right (by exact_mod_cast hk) hpos.le
    exact ⟨iff_of_false (hx'.trans_le hle).not_ge (hy'.trans_le hle).not_ge, iff_of_true (hx'.le.trans hle) (hy'.le.trans hle)⟩

/-! ### The model's rounding of a shifted number -/

theorem fract_shift (m k : ℕ) : Int.fract ((m : ℝ) / 2 ^ k) = ((m % 2 ^ k : ℕ) : ℝ) / 2 ^ k := by
  exact_mod_cast Int.fract_div_natCast_eq_div_natCast_mod (k := ℝ) (m := m) (n := 2 ^ k)

theorem floor_shift (m k : ℕ) : ⌊(m : ℝ) / 2 ^ k⌋ = ((m / 2 ^ k : ℕ) : ℤ) := by
  have hpos : (0 : ℝ) < 2 ^ k := by positivity
  rw [Int.floor_eq_iff, le_div_iff₀ hpos, div_lt_iff₀ hpos]
  exact_mod_cast And.intro (Nat.div_mul_le_self m (2 ^ k)) (Nat.lt_mul_of_div_lt (Nat.lt_succ_self _) (Nat.two_pow_pos k))

theorem ceil_shift (m k : ℕ) : ⌈(m : ℝ) / 2 ^ k⌉ = ((m / 2 ^ k : ℕ) : ℤ) + if m % 2 ^ k = 0 then 0 else 1 := by
  have hpos : (2 : ℝ) ^ k ≠ 0 := by positivity
  rw [Rm.ceil_eq, floor_shift, fract_shift]
  simp only [div_eq_zero_iff, hpos, or_false, Nat.cast_eq_zero]

/-- Rounding `m / 2^k` in the model is rounding the quotient (R107). -/
theorem Machine.roundShift_eq (rm : Rm) (neg : Bool) (m k : ℕ) :
    (roundShift rm neg m k : ℤ) = rm.integer neg ((m : ℝ) / 2 ^ k) := by
  have hpos : (0 : ℝ) < 2 ^ k := by positivity
  have hlt : Int.fract ((m : ℝ) / 2 ^ k) < 1 / 2 ↔ 2 * (m % 2 ^ k) < 2 ^ k := by
    rw [fract_shift, div_lt_div_iff₀ hpos two_pos, one_mul, mul_comm]
    exact_mod_cast Iff.rfl
  have heq : Int.fract ((m : ℝ) / 2 ^ k) = 1 / 2 ↔ 2 * (m % 2 ^ k) = 2 ^ k := by
    rw [fract_shift, div_eq_div_iff hpos.ne' two_ne_zero, one_mul, mul_comm]
    exact_mod_cast Iff.rfl
  have nearest : (roundShift .rne neg m k : ℤ) = Rm.rne.integer neg ((m : ℝ) / 2 ^ k) := by
    simp only [roundShift, roundsUp, Rm.integer, floor_shift, hlt, heq, Bool.or_eq_true, Bool.and_eq_true, decide_eq_true_eq]
    split_ifs <;> omega
  cases rm
  case rne => exact nearest
  case dyn => exact nearest
  case rna =>
    simp only [roundShift, roundsUp, Rm.integer, Rm.floor_add_half, floor_shift, hlt, decide_eq_true_eq]
    split_ifs <;> omega
  all_goals
    cases neg <;> simp [roundShift, roundsUp, Rm.integer, floor_shift, ceil_shift]
  all_goals split_ifs <;> simp_all

end Sys2Proof
end

section
/-! Patterns of the four formats (R103): the significand and exponent that a pattern stands for, and the way back. -/

namespace Sys2Proof.Machine

/-- What the four formats have in common (R103). -/
structure Fmt.Usual (F : Fmt) : Prop where
  fb_pos : 2 ≤ F.fb
  fb_le : F.fb ≤ 52
  eb_pos : 3 ≤ F.eb
  eb_le : F.eb ≤ 11
  fb_le_bias : (F.fb : ℤ) ≤ F.bias

theorem Fmt.usual_of_mem {F : Fmt} (h : F ∈ [fp64, fp32, fp16, bf16]) : F.Usual := by
  simp only [List.mem_cons, List.not_mem_nil, or_false] at h
  rcases h with rfl | rfl | rfl | rfl <;> constructor <;> decide

namespace Fmt

variable {F : Fmt} {x y : ℕ}

/-- The significand of a finite pattern. -/
def sigOf (F : Fmt) (x : ℕ) : ℕ := if F.expField x = 0 then F.frac x else 2 ^ F.fb + F.frac x

/-- The exponent of a finite pattern. -/
def expOf (F : Fmt) (x : ℕ) : ℤ := F.qmin + (F.expField x - 1 : ℕ)

/-- The pattern without its sign. -/
def magOf (F : Fmt) (x : ℕ) : ℕ := x % 2 ^ (F.eb + F.fb)

theorem neg_eq_minus (x : ℕ) : F.neg x = F.minus x := rfl

theorem infBits_eq : F.infBits = (2 ^ F.eb - 1) * 2 ^ F.fb := rfl

theorem frac_lt (x : ℕ) : F.frac x < 2 ^ F.fb := Nat.mod_lt _ (Nat.two_pow_pos _)

theorem expField_lt (x : ℕ) : F.expField x < 2 ^ F.eb := Nat.mod_lt _ (Nat.two_pow_pos _)

theorem magOf_eq (x : ℕ) : F.magOf x = F.expField x * 2 ^ F.fb + F.frac x := by
  rw [magOf, expField, frac, Nat.add_comm F.eb, pow_add, Nat.mod_mul]
  ring

theorem magOf_lt (x : ℕ) : F.magOf x < 2 ^ (F.eb + F.fb) := Nat.mod_lt _ (Nat.two_pow_pos _)

theorem infBits_lt : F.infBits < 2 ^ (F.eb + F.fb) := by
  rw [infBits, pow_add]
  exact Nat.mul_lt_mul_of_pos_right (Nat.sub_lt (Nat.two_pow_pos _) one_pos) (Nat.two_pow_pos _)

/-! ### Fields of a magnitude with a sign -/

theorem sign_eq (neg : Bool) : F.sign neg = neg.toNat * 2 ^ (F.eb + F.fb) := by cases neg <;> simp [sign]

variable {b : ℕ}

theorem magOf_add_sign (hb : b < 2 ^ (F.eb + F.fb)) (neg : Bool) : F.magOf (b + F.sign neg) = b := by
  rw [sign_eq, magOf, Nat.add_mul_mod_self_right, Nat.mod_eq_of_lt hb]

theorem minus_add_sign (hb : b < 2 ^ (F.eb + F.fb)) (neg : Bool) : F.minus (b + F.sign neg) = neg := by
  rw [sign_eq, minus, Nat.add_mul_div_right _ _ (Nat.two_pow_pos _), Nat.div_eq_of_lt hb]
  cases neg <;> rfl

theorem add_sign_lt (hb : b < 2 ^ (F.eb + F.fb)) (neg : Bool) : b + F.sign neg < 2 ^ F.width := by
  have hw : 2 ^ F.width = 2 * 2 ^ (F.eb + F.fb) := by rw [width, ← pow_succ']; congr 1; omega
  rw [sign_eq]
  have := neg.toNat_le
  nlinarith

/-- A pattern is its magnitude with its sign. -/
theorem eq_magOf_add_sign (hx : x < 2 ^ F.width) : x = F.magOf x + F.sign (F.minus x) := by
  have hw : 2 ^ F.width = 2 ^ (F.eb + F.fb) * 2 := by rw [width, ← pow_succ]; congr 1; omega
  have hhi : x / 2 ^ (F.eb + F.fb) < 2 := Nat.div_lt_of_lt_mul (hw ▸ hx)
  have hsplit := Nat.mod_add_div x (2 ^ (F.eb + F.fb))
  rw [sign_eq, magOf, minus, Nat.mod_eq_of_lt hhi]
  rcases Nat.lt_succ_iff.1 hhi |>.lt_or_eq with h | h
  · rw [Nat.lt_one_iff.1 h] at hsplit ⊢
    simpa using hsplit.symm
  · rw [h] at hsplit ⊢
    simpa using hsplit.symm

theorem expField_eq_div (x : ℕ) : F.expField x = F.magOf x / 2 ^ F.fb := by
  rw [magOf_eq, mul_comm, Nat.mul_add_div (Nat.two_pow_pos _), Nat.div_eq_of_lt (F.frac_lt x), add_zero]

theorem frac_eq_mod (x : ℕ) : F.frac x = F.magOf x % 2 ^ F.fb := by
  rw [magOf_eq, mul_comm, Nat.mul_add_mod, Nat.mod_eq_of_lt (F.frac_lt x)]

theorem expField_eq_zero_iff : F.expField x = 0 ↔ F.magOf x < 2 ^ F.fb := by
  rw [expField_eq_div, Nat.div_eq_zero_iff]
  simp

theorem expField_eq_max_iff : F.expField x = 2 ^ F.eb - 1 ↔ F.infBits ≤ F.magOf x := by
  rw [infBits, ← Nat.le_div_iff_mul_le (Nat.two_pow_pos _), ← expField_eq_div]
  have := F.expField_lt x
  omega

/-! ### The kinds of patterns -/

theorem isNan_iff : F.IsNan x ↔ F.infBits < F.magOf x := by
  show F.expField x = 2 ^ F.eb - 1 ∧ F.frac x ≠ 0 ↔ _
  have hmag := F.magOf_eq x
  constructor
  · rintro ⟨he, hf⟩
    rw [he, ← infBits_eq] at hmag
    omega
  · intro h
    have he := expField_eq_max_iff.2 h.le
    rw [he, ← infBits_eq] at hmag
    exact ⟨he, by omega⟩

theorem isInf_iff : F.IsInf x ↔ F.magOf x = F.infBits := Iff.rfl

/-- Does a pattern hold a number? -/
def IsFinite (F : Fmt) (x : ℕ) : Prop := F.magOf x < F.infBits

theorem isFinite_iff : F.IsFinite x ↔ ¬F.IsNan x ∧ ¬F.IsInf x := by
  rw [isNan_iff, isInf_iff, IsFinite]
  omega

theorem IsFinite.not_isNan (h : F.IsFinite x) : ¬F.IsNan x := (isFinite_iff.1 h).1

theorem IsFinite.not_isInf (h : F.IsFinite x) : ¬F.IsInf x := (isFinite_iff.1 h).2

theorem IsNan.not_isInf (h : F.IsNan x) : ¬F.IsInf x := (isNan_iff.1 h).ne'

theorem kinds (F : Fmt) (x : ℕ) : F.IsNan x ∨ F.IsInf x ∨ F.IsFinite x := by
  rw [isNan_iff, isInf_iff, IsFinite]
  omega

theorem value_of_isNan (h : F.IsNan x) : F.value x = .nan x := by
  obtain ⟨he, hf⟩ : F.expField x = 2 ^ F.eb - 1 ∧ F.frac x ≠ 0 := h
  simp only [value, he, hf, ↓reduceIte]

theorem value_of_isInf (h : F.IsInf x) : F.value x = .inf (F.minus x) := by
  have hmag := isInf_iff.1 h
  have hf : F.frac x = 0 := by rw [frac_eq_mod, hmag, infBits, Nat.mul_mod_left]
  simp only [value, expField_eq_max_iff.2 hmag.ge, hf, ↓reduceIte, neg_eq_minus]

theorem value_of_isFinite (h : F.IsFinite x) : F.value x = .fin (F.minus x) (F.sigOf x) (F.expOf x) := by
  have he : F.expField x ≠ 2 ^ F.eb - 1 := fun h' => h.not_ge (expField_eq_max_iff.1 h')
  by_cases h0 : F.expField x = 0
  · rw [value, if_neg he, if_pos h0, sigOf, if_pos h0, expOf, h0]
    simp [neg_eq_minus]
  · rw [value, if_neg he, if_neg h0, sigOf, if_neg h0, expOf]
    rfl

theorem num_eq (x : ℕ) : F.num x = (if F.minus x then -1 else 1) * (F.sigOf x * 2 ^ F.expOf x) := by
  show (if F.minus x then -1 else 1) * (if F.expField x = 0 then (F.frac x : ℝ) * 2 ^ (F.emin - F.fb)
    else ((2 ^ F.fb + F.frac x : ℕ) : ℝ) * 2 ^ ((F.expField x : ℤ) - F.bias - F.fb)) = _
  congr 1
  by_cases h0 : F.expField x = 0
  · rw [if_pos h0, sigOf, if_pos h0, expOf, h0, qmin]
    simp
  · rw [if_neg h0, sigOf, if_neg h0, expOf, qmin, emin]
    congr 2
    omega

theorem abs_num (x : ℕ) : |F.num x| = F.sigOf x * 2 ^ F.expOf x := by
  rw [num_eq, abs_mul, abs_of_nonneg (by positivity : (0 : ℝ) ≤ F.sigOf x * 2 ^ F.expOf x)]
  split <;> simp

/-! ### Significands and exponents -/

theorem sigOf_lt (x : ℕ) : F.sigOf x < 2 ^ (F.fb + 1) := by
  have := F.frac_lt x
  rw [sigOf, pow_succ]
  split <;> omega

theorem qmin_le_expOf (x : ℕ) : F.qmin ≤ F.expOf x := by rw [expOf]; omega

theorem expOf_or_sigOf (x : ℕ) : F.expOf x = F.qmin ∨ 2 ^ F.fb ≤ F.sigOf x := by
  by_cases h0 : F.expField x = 0
  · left; rw [expOf, h0]; simp
  · right; rw [sigOf, if_neg h0]; omega

/-- A magnitude is the significand moved up by its exponent. -/
theorem magOf_eq_sigOf (x : ℕ) : F.magOf x = F.sigOf x + (F.expOf x - F.qmin).toNat * 2 ^ F.fb := by
  have hexp : (F.expOf x - F.qmin).toNat = F.expField x - 1 := by rw [expOf]; omega
  rw [magOf_eq, hexp, sigOf]
  by_cases h0 : F.expField x = 0
  · simp [h0]
  · obtain ⟨e, he⟩ := Nat.exists_eq_succ_of_ne_zero h0
    rw [if_neg h0, he]
    simp only [Nat.succ_eq_add_one, Nat.add_sub_cancel]
    ring

theorem sigOf_eq_zero_iff : F.sigOf x = 0 ↔ F.magOf x = 0 := by
  have hmag := F.magOf_eq_sigOf x
  have hpow := Nat.two_pow_pos F.fb
  rcases F.expOf_or_sigOf x with h | h
  · rw [h] at hmag; simp at hmag; omega
  · omega

/-- A number has one significand and exponent: the exponent least, or the significand's top bit set. -/
theorem sig_exp_unique {q r q' : ℤ} {s t k : ℕ} (hs : s < 2 ^ (k + 1)) (ht : t < 2 ^ (k + 1)) (hq : r ≤ q) (hq' : r ≤ q')
    (h : q = r ∨ 2 ^ k ≤ s) (h' : q' = r ∨ 2 ^ k ≤ t) (heq : (s : ℝ) * 2 ^ q = t * 2 ^ q') : s = t ∧ q = q' := by
  have key {s t : ℕ} {q q' : ℤ} (hs : s < 2 ^ (k + 1)) (hq : r ≤ q) (h' : q' = r ∨ 2 ^ k ≤ t)
      (heq : (s : ℝ) * 2 ^ q = t * 2 ^ q') : q' ≤ q := by
    by_contra hlt
    have ht : 2 ^ k ≤ t := h'.resolve_left (by omega)
    have hnat : s = t * 2 ^ (q' - q).toNat := by
      rw [SameSide.zpow_split (show q ≤ q' by omega), ← mul_assoc] at heq
      exact_mod_cast mul_right_cancel₀ (by positivity) heq
    have hpow : 2 ^ 1 ≤ 2 ^ (q' - q).toNat := Nat.pow_le_pow_right two_pos (by omega)
    have := Nat.mul_le_mul ht hpow
    rw [← pow_add] at this
    omega
  obtain rfl : q = q' := le_antisymm (key ht hq' h heq.symm) (key hs hq h' heq)
  exact ⟨by exact_mod_cast mul_right_cancel₀ (by positivity) heq, rfl⟩

/-- Finite patterns of one sign and one value are the same. -/
theorem eq_of_num_eq (hx : x < 2 ^ F.width) (hy : y < 2 ^ F.width) (hs : F.minus x = F.minus y)
    (h : |F.num x| = |F.num y|) : x = y := by
  rw [abs_num, abs_num] at h
  obtain ⟨hsig, hexp⟩ := sig_exp_unique (F.sigOf_lt x) (F.sigOf_lt y) (F.qmin_le_expOf x) (F.qmin_le_expOf y)
    (F.expOf_or_sigOf x) (F.expOf_or_sigOf y) h
  rw [eq_magOf_add_sign hx, eq_magOf_add_sign hy, magOf_eq_sigOf, magOf_eq_sigOf, hsig, hexp, hs]

/-- The pattern of a significand and exponent holds their number; a significand may have grown by a carry. -/
theorem sig_exp_encode {s j : ℕ} (hs : s ≤ 2 ^ (F.fb + 1)) (hj : j = 0 ∨ 2 ^ F.fb ≤ s)
    (hx : F.magOf x = s + j * 2 ^ F.fb) : (F.sigOf x : ℝ) * 2 ^ F.expOf x = s * 2 ^ (F.qmin + j) := by
  have hpow := Nat.two_pow_pos F.fb
  rw [pow_succ] at hs
  rcases lt_or_ge s (2 ^ F.fb) with hlt | hge
  · obtain rfl := hj.resolve_right (by omega)
    rw [Nat.zero_mul, add_zero] at hx
    have he : F.expField x = 0 := expField_eq_zero_iff.2 (by omega)
    rw [sigOf, if_pos he, expOf, he, frac_eq_mod, hx, Nat.mod_eq_of_lt hlt]
  · obtain ⟨t, rfl⟩ := Nat.exists_eq_add_of_le hge
    have hexp : F.expField x = (if t < 2 ^ F.fb then j + 1 else j + 2) := by
      rw [expField_eq_div, hx, show 2 ^ F.fb + t + j * 2 ^ F.fb = t + (j + 1) * 2 ^ F.fb by ring,
        Nat.add_mul_div_right _ _ hpow]
      split
      next h => rw [Nat.div_eq_of_lt h]; omega
      next h => rw [show t = 2 ^ F.fb by omega, Nat.div_self hpow]; omega
    have hfrac : F.frac x = t % 2 ^ F.fb := by
      rw [frac_eq_mod, hx, show 2 ^ F.fb + t + j * 2 ^ F.fb = t + (j + 1) * 2 ^ F.fb by ring, Nat.add_mul_mod_self_right]
    rw [sigOf, if_neg (by rw [hexp]; split <;> omega), expOf, hexp, hfrac]
    split
    next h => rw [Nat.mod_eq_of_lt h, Nat.add_sub_cancel]
    next h =>
      rw [show t = 2 ^ F.fb by omega, Nat.mod_self, show (j + 2 - 1 : ℕ) = j + 1 by omega, Nat.cast_succ, ← add_assoc,
        zpow_add_one₀ two_ne_zero]
      push_cast
      ring

end Fmt
end Sys2Proof.Machine
end

section
/-! The model's rounding of a number `m × 2^e` (R107 to R109, R114): what each part of it is of the exact value. -/

namespace Sys2Proof.Machine

theorem log_natCast (m : ℕ) : Int.log 2 (m : ℝ) = m.log2 := by
  rw [Int.log_natCast, Nat.log2_eq_log_two]

theorem log_mul_zpow {x : ℝ} (hx : 0 < x) (e : ℤ) : Int.log 2 (x * 2 ^ e) = Int.log 2 x + e := by
  have hlo := Int.zpow_log_le_self (b := 2) one_lt_two hx
  have hhi := Int.lt_zpow_succ_log_self (b := 2) one_lt_two x
  rw [Nat.cast_ofNat] at hlo hhi
  have hpos : (0 : ℝ) < 2 ^ e := by positivity
  apply le_antisymm
  · refine Int.lt_add_one_iff.1 ((Int.lt_zpow_iff_log_lt one_lt_two (by positivity)).1 ?_)
    rw [Nat.cast_ofNat, show Int.log 2 x + e + 1 = Int.log 2 x + 1 + e by ring, zpow_add₀ two_ne_zero]
    exact mul_lt_mul_of_pos_right hhi hpos
  · refine (Int.zpow_le_iff_le_log one_lt_two (by positivity)).1 ?_
    rw [Nat.cast_ofNat, zpow_add₀ two_ne_zero]
    exact mul_le_mul_of_nonneg_right hlo hpos.le

/-! ### Rounding to a unit -/

section

variable (rm : Rm) (neg : Bool) (m : ℕ) {e q : ℤ}

theorem div_zpow_of_le (h : q ≤ e) : (m : ℝ) * 2 ^ e / 2 ^ q = ((m * 2 ^ (e - q).toNat : ℕ) : ℝ) := by
  rw [SameSide.zpow_split h]
  push_cast
  field_simp

theorem div_zpow_of_ge (h : e ≤ q) : (m : ℝ) * 2 ^ e / 2 ^ q = m / 2 ^ (q - e).toNat := by
  rw [SameSide.zpow_split h]
  push_cast
  field_simp

variable (e q)

/-- The model's significand at a unit: the exact multiple, or the shifted number rounded. -/
theorem scaled_eq :
    ((if q ≤ e then m * 2 ^ (e - q).toNat else roundShift rm neg m (q - e).toNat : ℕ) : ℤ) =
      rm.integer neg ((m : ℝ) * 2 ^ e / 2 ^ q) := by
  split
  next h => rw [div_zpow_of_le m h, Rm.integer_natCast]
  next h => rw [div_zpow_of_ge m (by omega), roundShift_eq]

/-- The model's test for a result that differs from the exact value. -/
theorem inexact_iff :
    (decide (e < q) && decide (m % 2 ^ (q - e).toNat ≠ 0)) = true ↔ rm.toUnit neg ((m : ℝ) * 2 ^ e) q ≠ (m : ℝ) * 2 ^ e := by
  have hexact : rm.toUnit neg ((m : ℝ) * 2 ^ e) q ≠ (m : ℝ) * 2 ^ e ↔ Int.fract ((m : ℝ) * 2 ^ e / 2 ^ q) ≠ 0 :=
    not_congr (rm.toUnit_eq_self_iff neg _ q)
  rw [hexact]
  rcases le_or_gt q e with h | h
  · rw [div_zpow_of_le m h, Int.fract_natCast, decide_eq_false (by omega)]
    simp
  · have hpos : (2 : ℝ) ^ (q - e).toNat ≠ 0 := by positivity
    simp [div_zpow_of_ge m h.le, fract_shift, h]

end

/-! ### The parts of a rounded result -/

namespace Fmt

variable (F : Fmt) (rm : Rm) (neg : Bool) (x : ℝ)

/-- The largest finite value (R103). -/
noncomputable def largest : ℝ := (2 ^ (F.fb + 1) - 1) * 2 ^ (F.bias - F.fb)

/-- The exponent of the unit of a value's binade, however small the value is. -/
noncomputable def unit : ℤ := Int.log 2 x - F.fb

/-- A magnitude rounded to the format, as if there were no largest value (R107). -/
noncomputable def rounded : ℝ := rm.toUnit neg x (max (F.unit x) F.qmin)

/-- Is a magnitude tiny (R109)? -/
def IsTiny : Prop := rm.toUnit neg x (F.unit x) < 2 ^ F.emin

/-- Does a mode round an overflow to the largest finite value (R108)? -/
def Inward (rm : Rm) (neg : Bool) : Prop := rm = .rtz ∨ (rm = .rup ∧ neg = true) ∨ (rm = .rdn ∧ neg = false)

/-- A result is a magnitude of a sign, rounded: what `Rounds` says, for the magnitude and the sign apart. -/
def RoundsTo (ftz : Bool) (r : FRes) : Prop :=
  let flush : Prop := ftz = true ∧ F = fp32 ∧ F.IsTiny rm neg x
  (flush → r.bits = F.sign neg ∧ r.flags = fUF ||| fNX) ∧
  (¬flush → F.largest < F.rounded rm neg x → (Inward rm neg → r.bits = F.sign neg + F.infBits - 1) ∧
    (¬Inward rm neg → r.bits = F.sign neg + F.infBits) ∧ r.flags = fOF ||| fNX) ∧
  (¬flush → F.rounded rm neg x ≤ F.largest → r.bits < 2 ^ F.width ∧ F.minus r.bits = neg ∧ F.IsFinite r.bits ∧
    |F.num r.bits| = F.rounded rm neg x ∧ (r.flags.getLsbD 0 = true ↔ F.rounded rm neg x ≠ x) ∧
    (r.flags.getLsbD 1 = true ↔ F.rounded rm neg x ≠ x ∧ F.IsTiny rm neg x) ∧ r.flags &&& 0x1C = 0)

theorem rounds_iff (ftz : Bool) (v : ℝ) (r : FRes) : F.Rounds rm ftz v r ↔ F.RoundsTo rm (decide (v < 0)) |v| ftz r := Iff.rfl

variable {F} {rm} {neg} {x}

theorem two_pow_eb (hF : F.Usual) : (2 : ℤ) ^ F.eb = 2 * F.bias + 2 := by
  obtain ⟨k, hk⟩ := Nat.exists_eq_add_of_le (show 1 ≤ F.eb by have := hF.eb_pos; omega)
  rw [bias, hk, Nat.add_sub_cancel_left, pow_add]
  ring

/-- The magnitude of a significand and exponent passes the largest finite value exactly if its pattern is not below infinity's. -/
theorem infBits_le_iff (hF : F.Usual) {s j : ℕ} (hs : s ≤ 2 ^ (F.fb + 1)) (hj : j = 0 ∨ 2 ^ F.fb ≤ s) :
    F.infBits ≤ s + j * 2 ^ F.fb ↔ F.largest < (s : ℝ) * 2 ^ (F.qmin + j) := by
  obtain ⟨J, hJ⟩ : ∃ J : ℕ, 2 ^ F.eb = J + 3 :=
    Nat.exists_eq_add_of_le' ((by decide : 3 ≤ 2 ^ 3).trans (Nat.pow_le_pow_right two_pos hF.eb_pos))
  have hinf : F.infBits = (J + 2) * 2 ^ F.fb := by rw [infBits, hJ]; rfl
  have htop : F.bias - F.fb = F.qmin + J := by
    have heb := two_pow_eb hF
    rw [qmin, emin]
    zify at hJ
    omega
  set P := 2 ^ F.fb with hP
  have hP1 : 1 ≤ P := Nat.one_le_two_pow
  set u : ℝ := 2 ^ (F.qmin + J) with hu
  have hupos : 0 < u := by positivity
  have hlargest : F.largest = (2 * P - 1) * u := by rw [largest, htop, ← hu, pow_succ, hP]; push_cast; ring
  rw [pow_succ] at hs
  have hsR : (s : ℝ) ≤ P * 2 := by exact_mod_cast hs
  have hPR : (1 : ℝ) ≤ P := by exact_mod_cast hP1
  rw [hinf, hlargest]
  rcases lt_trichotomy j J with hlt | rfl | hgt
  · have hle : (2 : ℝ) ^ (F.qmin + j) * 2 ≤ u := by
      rw [← zpow_add_one₀ two_ne_zero]
      exact zpow_le_zpow_right₀ one_le_two (by omega)
    refine iff_of_false ?_ ?_
    · have := Nat.mul_le_mul_right P (show j + 1 ≤ J from hlt)
      nlinarith
    · have hpos : (0 : ℝ) < 2 ^ (F.qmin + j) := by positivity
      nlinarith
  · rw [mul_lt_mul_iff_left₀ hupos, show (j + 2) * P = 2 * P + j * P by ring, Nat.add_le_add_iff_right, sub_lt_iff_lt_add]
    exact_mod_cast Nat.lt_succ_iff.symm
  · have hge : u * 2 ≤ (2 : ℝ) ^ (F.qmin + j) := by
      rw [hu, ← zpow_add_one₀ two_ne_zero]
      exact zpow_le_zpow_right₀ one_le_two (by omega)
    have hsP : P ≤ s := hj.resolve_left (by omega)
    have hsPR : (P : ℝ) ≤ s := by exact_mod_cast hsP
    refine iff_of_true ?_ ?_
    · have := Nat.mul_le_mul_right P (show J + 1 ≤ j from hgt)
      nlinarith
    · nlinarith

theorem log_bounds (hx : 0 < x) : (2 : ℝ) ^ Int.log 2 x ≤ x ∧ x < 2 ^ (Int.log 2 x + 1) := by
  have hlo := Int.zpow_log_le_self (b := 2) one_lt_two hx
  have hhi := Int.lt_zpow_succ_log_self (b := 2) one_lt_two x
  exact ⟨by exact_mod_cast hlo, by exact_mod_cast hhi⟩

theorem zpow_add_natCast (q : ℤ) (n : ℕ) : (2 : ℝ) ^ (q + n) = ((2 ^ n : ℤ) : ℝ) * 2 ^ q := by
  rw [zpow_add₀ two_ne_zero, zpow_natCast, mul_comm]
  push_cast
  rfl

theorem integer_le_two_pow (hx : 0 < x) {q : ℤ} (hq : F.unit x ≤ q) : rm.integer neg (x / 2 ^ q) ≤ 2 ^ (F.fb + 1) := by
  apply Rm.integer_le
  rw [div_le_iff₀ (by positivity), ← zpow_add_natCast]
  refine (log_bounds hx).2.le.trans (zpow_le_zpow_right₀ one_le_two ?_)
  rw [unit] at hq
  push_cast
  omega

theorem two_pow_le_integer (hx : 0 < x) : 2 ^ F.fb ≤ rm.integer neg (x / 2 ^ F.unit x) := by
  apply Rm.le_integer
  rw [le_div_iff₀ (by positivity), ← zpow_add_natCast, unit, Int.sub_add_cancel]
  exact (log_bounds hx).1

/-- Rounding to the precision keeps a value in its binade, or takes it to the next power of two. -/
theorem toUnit_bounds (hx : 0 < x) :
    (2 : ℝ) ^ Int.log 2 x ≤ rm.toUnit neg x (F.unit x) ∧ rm.toUnit neg x (F.unit x) ≤ 2 ^ (Int.log 2 x + 1) := by
  have hpos : (0 : ℝ) < 2 ^ F.unit x := by positivity
  have hlo : ((2 ^ F.fb : ℤ) : ℝ) ≤ rm.integer neg (x / 2 ^ F.unit x) := by exact_mod_cast two_pow_le_integer hx
  have hhi : (rm.integer neg (x / 2 ^ F.unit x) : ℝ) ≤ ((2 ^ (F.fb + 1) : ℤ) : ℝ) := by
    exact_mod_cast integer_le_two_pow hx le_rfl
  have h1 : Int.log 2 x = F.unit x + F.fb := by rw [unit, Int.sub_add_cancel]
  have h2 : Int.log 2 x + 1 = F.unit x + (F.fb + 1 : ℕ) := by rw [unit]; push_cast; ring
  rw [h2, h1, zpow_add_natCast, zpow_add_natCast]
  exact ⟨mul_le_mul_of_nonneg_right hlo hpos.le, mul_le_mul_of_nonneg_right hhi hpos.le⟩

theorem qmin_le_unit (h : F.emin ≤ Int.log 2 x) : F.qmin ≤ F.unit x := by
  rw [qmin, unit]; omega

theorem emin_le_bias (hF : F.Usual) : F.emin ≤ F.bias := by
  have := hF.fb_le_bias
  have := hF.fb_pos
  rw [emin]; omega

theorem rounded_of_normal (h : F.emin ≤ Int.log 2 x) : F.rounded rm neg x = rm.toUnit neg x (F.unit x) := by
  rw [rounded, max_eq_left (qmin_le_unit h)]

/-- The largest finite value is below the next power of two. -/
theorem largest_lt (F : Fmt) : F.largest < 2 ^ (F.bias + 1) := by
  have hpow : (2 : ℝ) ^ (F.bias + 1) = 2 ^ (F.fb + 1) * 2 ^ (F.bias - F.fb) := by
    rw [← zpow_natCast, ← zpow_add₀ two_ne_zero]
    congr 1
    push_cast
    ring
  rw [hpow, largest]
  exact mul_lt_mul_of_pos_right (by linarith) (by positivity)

theorem largest_lt_rounded (hF : F.Usual) (hx : 0 < x) (h : F.bias < Int.log 2 x) : F.largest < F.rounded rm neg x := by
  rw [rounded_of_normal ((emin_le_bias hF).trans h.le)]
  exact F.largest_lt.trans_le ((zpow_le_zpow_right₀ one_le_two (by omega)).trans (toUnit_bounds hx).1)

theorem not_isTiny_of_normal (hx : 0 < x) (h : F.emin ≤ Int.log 2 x) : ¬F.IsTiny rm neg x :=
  not_lt.2 ((zpow_le_zpow_right₀ one_le_two h).trans (toUnit_bounds hx).1)

theorem isTiny_of_small (hx : 0 < x) (h : Int.log 2 x < F.emin - 1) : F.IsTiny rm neg x :=
  (toUnit_bounds hx).2.trans_lt (zpow_lt_zpow_right₀ one_lt_two (by omega))

/-- The pattern of a rounded magnitude, as if there were no largest value. -/
noncomputable def roundBits (F : Fmt) (rm : Rm) (neg : Bool) (x : ℝ) : ℕ :=
  let q := max (F.unit x) F.qmin
  (rm.integer neg (x / 2 ^ q)).toNat + (q - F.qmin).toNat * 2 ^ F.fb

section

variable (F rm neg)

/-- A rounded magnitude in units: the significand fits but for a carry, and has its top bit above the subnormals. -/
theorem exists_sig_of_rounded (hx : 0 < x) : ∃ s j : ℕ, s ≤ 2 ^ (F.fb + 1) ∧ (j = 0 ∨ 2 ^ F.fb ≤ s) ∧
    F.roundBits rm neg x = s + j * 2 ^ F.fb ∧ F.rounded rm neg x = s * 2 ^ (F.qmin + j) ∧
    F.qmin + j = max (F.unit x) F.qmin ∧ (s : ℤ) = rm.integer neg (x / 2 ^ (F.qmin + j)) := by
  have hexp : F.qmin + ((max (F.unit x) F.qmin - F.qmin).toNat : ℤ) = max (F.unit x) F.qmin := by omega
  obtain ⟨s, hs⟩ := Int.eq_ofNat_of_zero_le (rm.integer_nonneg neg (show 0 ≤ x / 2 ^ max (F.unit x) F.qmin by positivity))
  refine ⟨s, _, ?_, ?_, by rw [roundBits, hs, Int.toNat_natCast], ?_, hexp, ?_⟩
  · have := integer_le_two_pow (F := F) (rm := rm) (neg := neg) hx (le_max_left _ F.qmin)
    rw [hs] at this
    exact_mod_cast this
  · rcases le_total (F.unit x) F.qmin with h | h
    · left; omega
    · right
      have := two_pow_le_integer (F := F) (rm := rm) (neg := neg) hx
      rw [max_eq_left h] at hs
      rw [hs] at this
      exact_mod_cast this
  · rw [hexp, rounded, Rm.toUnit, hs, Int.cast_natCast]
  · rw [hexp, hs]

theorem infBits_le_roundBits_iff (hF : F.Usual) (hx : 0 < x) :
    F.infBits ≤ F.roundBits rm neg x ↔ F.largest < F.rounded rm neg x := by
  obtain ⟨s, j, hs, hj, hbits, hval, -⟩ := F.exists_sig_of_rounded rm neg hx
  rw [hbits, hval]
  exact infBits_le_iff hF hs hj

theorem abs_num_of_roundBits (hx : 0 < x) {y : ℕ} (hy : F.magOf y = F.roundBits rm neg x) :
    |F.num y| = F.rounded rm neg x := by
  obtain ⟨s, j, hs, hj, hbits, hval, -⟩ := F.exists_sig_of_rounded rm neg hx
  rw [abs_num, hval]
  exact sig_exp_encode hs hj (hy.trans hbits)

end

theorem two_pow_bias_le_largest (F : Fmt) : 2 ^ F.bias ≤ F.largest := by
  have hpow : (2 : ℝ) ^ F.bias = 2 ^ F.fb * 2 ^ (F.bias - F.fb) := by
    rw [← zpow_natCast, ← zpow_add₀ two_ne_zero]
    congr 1
    ring
  have hone : (1 : ℝ) ≤ 2 ^ F.fb := one_le_pow₀ one_le_two
  rw [hpow, largest, pow_succ]
  exact mul_le_mul_of_nonneg_right (by linarith) (by positivity)

/-- A value below the normal ones is at most rounded to the least normal one. -/
theorem rounded_le_of_subnormal (hx : 0 < x) (h : Int.log 2 x < F.emin) : F.rounded rm neg x ≤ 2 ^ F.emin := by
  have hemin : (2 : ℝ) ^ F.emin = ((2 ^ F.fb : ℤ) : ℝ) * 2 ^ F.qmin := by
    rw [← zpow_add_natCast, qmin, Int.sub_add_cancel]
  have hle : rm.integer neg (x / 2 ^ F.qmin) ≤ 2 ^ F.fb := by
    apply Rm.integer_le
    rw [div_le_iff₀ (by positivity), ← hemin]
    exact (log_bounds hx).2.le.trans (zpow_le_zpow_right₀ one_le_two (by omega))
  rw [rounded, max_eq_right (by rw [unit, qmin]; omega), Rm.toUnit, hemin]
  exact mul_le_mul_of_nonneg_right (by exact_mod_cast hle) (by positivity)

theorem IsTiny.rounded_le_largest (hF : F.Usual) (hx : 0 < x) (h : F.IsTiny rm neg x) : F.rounded rm neg x ≤ F.largest := by
  have hlog : Int.log 2 x < F.emin := not_le.1 fun hle => not_isTiny_of_normal hx hle h
  exact (rounded_le_of_subnormal hx hlog).trans
    ((zpow_le_zpow_right₀ one_le_two (emin_le_bias hF)).trans F.two_pow_bias_le_largest)

/-- What an overflow gives (R108). -/
theorem overflow_spec (hF : F.Usual) (rm : Rm) (neg : Bool) :
    (Inward rm neg → (F.overflow rm neg).bits = F.sign neg + F.infBits - 1) ∧
    (¬Inward rm neg → (F.overflow rm neg).bits = F.sign neg + F.infBits) ∧ (F.overflow rm neg).flags = fOF ||| fNX := by
  have hinf : 0 < F.infBits := Nat.mul_pos (Nat.sub_pos_of_lt (Nat.one_lt_two_pow (by have := hF.eb_pos; omega))) (Nat.two_pow_pos _)
  rw [Nat.add_sub_assoc hinf]
  cases rm <;> cases neg <;> simp [Inward, overflow]

/-- The flags of a result that did not overflow (R109). -/
theorem inexact_flags (inexact tiny : Bool) :
    let flags : BitVec 5 := (if inexact then fNX else 0) ||| (if inexact && tiny then fUF else 0)
    (flags.getLsbD 0 = true ↔ inexact = true) ∧ (flags.getLsbD 1 = true ↔ inexact = true ∧ tiny = true) ∧
      flags &&& 0x1C = 0 := by
  cases inexact <;> cases tiny <;> decide

/-! ### The model's rounding -/

section

variable (F rm neg) {m : ℕ} (hm : m ≠ 0) (e : ℤ)
include hm

theorem log_number : Int.log 2 ((m : ℝ) * 2 ^ e) = e + m.log2 := by
  rw [log_mul_zpow (by positivity), log_natCast, add_comm]

theorem tinyVal_iff : F.tinyVal rm neg m e = true ↔ F.IsTiny rm neg (m * 2 ^ e) := by
  have hx : (0 : ℝ) < m * 2 ^ e := by positivity
  have hlog := log_number hm e
  have hunit : F.unit (m * 2 ^ e) = e + m.log2 - F.fb := by rw [unit, hlog]
  simp only [tinyVal]
  split
  next h => exact iff_of_false Bool.false_ne_true (not_isTiny_of_normal hx (hlog ▸ h))
  split
  next h => exact iff_of_true rfl (isTiny_of_small hx (hlog ▸ h))
  have hemin : (2 : ℝ) ^ F.emin = 2 ^ (Int.log 2 ((m : ℝ) * 2 ^ e) + 1) := by rw [hlog]; congr 1; omega
  split
  next h =>
    have hexact : rm.toUnit neg ((m : ℝ) * 2 ^ e) (F.unit (m * 2 ^ e)) = m * 2 ^ e :=
      (Rm.toUnit_eq_self_iff ..).2 (by rw [hunit, div_zpow_of_le m (by omega), Int.fract_natCast])
    rw [IsTiny, hexact, hemin]
    exact iff_of_true rfl (log_bounds hx).2
  next h =>
    have hshift : (F.unit ((m : ℝ) * 2 ^ e) - e).toNat = m.log2 - F.fb := by omega
    have hcarry : (2 : ℝ) ^ F.emin = ((2 ^ (F.fb + 1) : ℤ) : ℝ) * 2 ^ F.unit (m * 2 ^ e) := by
      rw [hemin, ← zpow_add_natCast, unit]
      congr 1
      push_cast
      ring
    rw [IsTiny, Rm.toUnit, hcarry, mul_lt_mul_iff_left₀ (by positivity), Int.cast_lt, div_zpow_of_ge m (by omega), ← roundShift_eq,
      hshift, decide_eq_true_eq]
    exact_mod_cast Iff.rfl

theorem round_of_overflow (hF : F.Usual) (h : F.largest < F.rounded rm neg (m * 2 ^ e)) :
    F.round rm neg m e = { res := F.overflow rm neg } := by
  have hx : (0 : ℝ) < m * 2 ^ e := by positivity
  have hbits := (F.infBits_le_roundBits_iff rm neg hF hx).2 h
  rw [roundBits, ← scaled_eq, Int.toNat_natCast, unit, log_number hm] at hbits
  simp only [round, if_pos hbits, ite_self]

theorem round_of_fits (hF : F.Usual) (h : F.rounded rm neg (m * 2 ^ e) ≤ F.largest) :
    ∃ inexact : Bool, (inexact = true ↔ F.rounded rm neg (m * 2 ^ e) ≠ m * 2 ^ e) ∧
      F.round rm neg m e =
        { res := { bits := F.roundBits rm neg (m * 2 ^ e) + F.sign neg
                   flags := (if inexact then fNX else 0) ||| (if inexact && F.tinyVal rm neg m e then fUF else 0) }
          tiny := F.tinyVal rm neg m e } := by
  have hx : (0 : ℝ) < m * 2 ^ e := by positivity
  have hlog : ¬F.bias < e + m.log2 := fun hlt => (largest_lt_rounded hF hx (by rwa [log_number hm])).not_ge h
  have hbits := mt (F.infBits_le_roundBits_iff rm neg hF hx).1 h.not_gt
  refine ⟨_, inexact_iff rm neg m e _, ?_⟩
  rw [roundBits, ← scaled_eq, Int.toNat_natCast, unit, log_number hm] at hbits ⊢
  simp only [round]
  rw [if_neg hlog, if_neg hbits]

/-- The model's rounding of a number is the rounding of its value (R107 to R109, R114). -/
theorem round_roundsTo (hF : F.Usual) (ftz : Bool) :
    F.RoundsTo rm neg (m * 2 ^ e) ftz (F.flushOut ftz neg (F.round rm neg m e)) := by
  have hx : (0 : ℝ) < m * 2 ^ e := by positivity
  rcases lt_or_ge F.largest (F.rounded rm neg (m * 2 ^ e)) with h | h
  · have hnot : ¬F.IsTiny rm neg (m * 2 ^ e) := fun ht => (ht.rounded_le_largest hF hx).not_gt h
    rw [F.round_of_overflow rm neg hm e hF h]
    simp only [flushOut, Bool.false_eq_true, and_false, ↓reduceIte]
    exact ⟨fun hflush => absurd hflush.2.2 hnot, fun _ _ => overflow_spec hF rm neg, fun _ hle => absurd h hle.not_gt⟩
  · obtain ⟨inexact, hinexact, hround⟩ := F.round_of_fits rm neg hm e hF h
    have hbits : F.roundBits rm neg (m * 2 ^ e) < F.infBits :=
      not_le.1 (mt (F.infBits_le_roundBits_iff rm neg hF hx).1 h.not_gt)
    have hlt := hbits.trans F.infBits_lt
    have hmag := magOf_add_sign hlt neg
    have htiny := F.tinyVal_iff rm neg hm e
    refine ⟨fun hflush => ?_, fun _ hgt => absurd h hgt.not_ge, fun hnot _ => ?_⟩
    · obtain ⟨hftz, hfmt, hsmall⟩ := hflush
      rw [hround, flushOut, if_pos ⟨hftz, hfmt, htiny.2 hsmall⟩]
      exact ⟨rfl, rfl⟩
    · rw [hround, flushOut, if_neg (by simpa only [htiny] using hnot)]
      refine ⟨add_sign_lt hlt neg, minus_add_sign hlt neg, ?_, F.abs_num_of_roundBits rm neg hx hmag, ?_⟩
      · exact hmag.trans_lt hbits
      · rw [← hinexact, ← htiny]
        exact inexact_flags inexact (F.tinyVal rm neg m e)

end

end Fmt

end Sys2Proof.Machine
end

section
/-! Rounded results (R107 to R109, R114): values that round alike, values that are exact, and what the model delivers. -/

namespace Sys2Proof.Machine.Fmt

variable {F : Fmt} {rm : Rm} {neg ftz : Bool} {x y v : ℝ} {r : FRes}

/-- The value of a sign and a magnitude. -/
noncomputable def signed (neg : Bool) (x : ℝ) : ℝ := (if neg then -1 else 1) * x

@[simp] theorem signed_false (x : ℝ) : signed false x = x := one_mul x

@[simp] theorem signed_true (x : ℝ) : signed true x = -x := neg_one_mul x

theorem abs_signed (neg : Bool) (hx : 0 ≤ x) : |signed neg x| = x := by
  cases neg <;> simp [abs_of_nonneg hx]

theorem signed_lt_zero_iff (hx : 0 < x) : signed neg x < 0 ↔ neg = true := by
  cases neg <;> simp [hx, hx.le]

theorem rounds_signed (hx : 0 < x) : F.Rounds rm ftz (signed neg x) r ↔ F.RoundsTo rm neg x ftz r := by
  rw [rounds_iff, abs_signed neg hx.le]
  simp only [signed_lt_zero_iff hx, Bool.decide_eq_true]

theorem deliver_zero (e : ℤ) : F.deliver rm ftz neg 0 e = { bits := F.sign neg } := rfl

theorem deliver_of_ne_zero {m : ℕ} (hm : m ≠ 0) (e : ℤ) :
    F.deliver rm ftz neg m e = F.flushOut ftz neg (F.round rm neg m e) := if_neg hm

/-- A number that is delivered is its value rounded. -/
theorem deliver_rounds (hF : F.Usual) {m : ℕ} (hm : m ≠ 0) {e : ℤ} (hv : v = signed neg (m * 2 ^ e)) :
    F.Rounds rm ftz v (F.deliver rm ftz neg m e) := by
  rw [hv, rounds_signed (by positivity), deliver_of_ne_zero hm]
  exact F.round_roundsTo rm neg hm e hF ftz

/-! ### Values that round alike -/

/-- Of two values, one rounds to a result as soon as the other does, if what they round to is the same in every respect. -/
theorem RoundsTo.congr (h : F.RoundsTo rm neg x ftz r) (htiny : F.IsTiny rm neg x ↔ F.IsTiny rm neg y)
    (hval : F.rounded rm neg x = F.rounded rm neg y) (hne : F.rounded rm neg x ≠ x ↔ F.rounded rm neg y ≠ y) :
    F.RoundsTo rm neg y ftz r := by
  rw [hval] at hne
  rw [RoundsTo, htiny, hval] at h
  simpa only [RoundsTo, hne] using h

/-- Values that no half unit separates round alike. -/
theorem RoundsTo.sameSide {g : ℤ} (h : F.RoundsTo rm neg x ftz r) (hxy : SameSide g x y) (hx : 0 < x) (hy : 0 < y)
    (hg : g < F.unit x) : F.RoundsTo rm neg y ftz r := by
  have hle : (2 : ℝ) ^ g ≤ x := (zpow_le_zpow_right₀ one_le_two (by rw [unit] at hg; omega)).trans (log_bounds hx).1
  have hunit : F.unit x = F.unit y := by rw [unit, unit, hxy.log_eq hx hy hle]
  have hmax : g < max (F.unit x) F.qmin := lt_max_of_lt_left hg
  have hval : F.rounded rm neg x = F.rounded rm neg y := by rw [rounded, rounded, ← hunit, hxy.toUnit_eq hmax]
  refine h.congr ?_ hval ?_
  · rw [IsTiny, IsTiny, ← hunit, hxy.toUnit_eq hg]
  · rw [← hval]
    exact hxy.toUnit_ne_iff hmax rm neg

/-- Values beyond the largest finite one by a power of two overflow alike. -/
theorem RoundsTo.large (h : F.RoundsTo rm neg x ftz r) (hF : F.Usual) (hx : 0 < x) (hy : 0 < y)
    (hxb : F.bias < Int.log 2 x) (hyb : F.bias < Int.log 2 y) : F.RoundsTo rm neg y ftz r := by
  have hbias := (emin_le_bias hF).trans hxb.le
  have hbias' := (emin_le_bias hF).trans hyb.le
  have hx' : F.largest < F.rounded rm neg x := largest_lt_rounded hF hx hxb
  have hy' : F.largest < F.rounded rm neg y := largest_lt_rounded hF hy hyb
  have hnot : ¬F.IsTiny rm neg x := not_isTiny_of_normal hx hbias
  have hnot' : ¬F.IsTiny rm neg y := not_isTiny_of_normal hy hbias'
  exact ⟨fun hf => absurd hf.2.2 hnot', fun _ _ => h.2.1 (fun hf => hnot hf.2.2) hx', fun _ hle => absurd hy' hle.not_gt⟩

/-- Values below half the least one round alike. -/
theorem RoundsTo.small (h : F.RoundsTo rm neg x ftz r) (hF : F.Usual) (hx : 0 < x) (hy : 0 < y)
    (hxq : x < 2 ^ (F.qmin - 1)) (hyq : y < 2 ^ (F.qmin - 1)) : F.RoundsTo rm neg y ftz r := by
  have hfb := hF.fb_pos
  have hlog {z : ℝ} (hz : 0 < z) (hzq : z < 2 ^ (F.qmin - 1)) : Int.log 2 z < F.qmin - 1 :=
    (Int.lt_zpow_iff_log_lt one_lt_two hz).1 (by exact_mod_cast hzq)
  have hunit {z : ℝ} (hz : 0 < z) (hzq : z < 2 ^ (F.qmin - 1)) : max (F.unit z) F.qmin = F.qmin :=
    max_eq_right (by have := hlog hz hzq; rw [unit]; omega)
  have htiny {z : ℝ} (hz : 0 < z) (hzq : z < 2 ^ (F.qmin - 1)) : F.IsTiny rm neg z :=
    isTiny_of_small hz (by have := hlog hz hzq; rw [qmin] at this; omega)
  have hxy : SameSide (F.qmin - 1) x y := by
    apply SameSide.of_between (n := 0) <;> simpa
  have hval : F.rounded rm neg x = F.rounded rm neg y := by
    rw [rounded, rounded, hunit hx hxq, hunit hy hyq, hxy.toUnit_eq (by omega)]
  refine h.congr (iff_of_true (htiny hx hxq) (htiny hy hyq)) hval ?_
  rw [← hval, rounded, hunit hx hxq]
  exact hxy.toUnit_ne_iff (by omega) rm neg

/-! ### Values that are exact -/

/-- A value of the format is rounded to itself. -/
theorem rounded_eq_self {s : ℕ} {q : ℤ} (hs : s < 2 ^ (F.fb + 1)) (hs0 : s ≠ 0) (hq : F.qmin ≤ q) :
    F.rounded rm neg (s * 2 ^ q) = s * 2 ^ q := by
  have hlog : s.log2 < F.fb + 1 := (Nat.log2_lt hs0).2 hs
  have hunit : max (F.unit (s * 2 ^ q)) F.qmin ≤ q := by
    rw [unit, log_number hs0]
    omega
  exact (Rm.toUnit_eq_self_iff ..).2 (by rw [div_zpow_of_le s hunit, Int.fract_natCast])

theorem abs_num_le_largest (hF : F.Usual) {a : ℕ} (ha : F.IsFinite a) : |F.num a| ≤ F.largest := by
  rw [abs_num, ← not_lt]
  have hexp : F.qmin + ((F.expOf a - F.qmin).toNat : ℤ) = F.expOf a := by have := F.qmin_le_expOf a; omega
  have hj : (F.expOf a - F.qmin).toNat = 0 ∨ 2 ^ F.fb ≤ F.sigOf a := (F.expOf_or_sigOf a).imp_left (by omega)
  rw [← hexp, ← infBits_le_iff hF (F.sigOf_lt a).le hj, ← magOf_eq_sigOf]
  exact not_le.2 ha

theorem sigOf_ne_zero_iff {a : ℕ} : F.sigOf a ≠ 0 ↔ F.num a ≠ 0 := by
  rw [← abs_ne_zero (a := F.num a), abs_num]
  simp [zpow_ne_zero]

theorem flags_eq_zero {f : BitVec 5} (hnx : f.getLsbD 0 = false) (huf : f.getLsbD 1 = false) (h : f &&& 0x1C = 0) : f = 0 := by
  revert f
  decide

/-- A value that is rounded to itself is delivered without a flag, unless FTZ flushes it. -/
theorem RoundsTo.exact (h : F.RoundsTo rm neg x ftz r) (hx : 0 < x) (hself : F.rounded rm neg x = x) (hle : x ≤ F.largest)
    (hftz : ftz = true → F.emin ≤ Int.log 2 x) :
    r.flags = 0 ∧ r.bits < 2 ^ F.width ∧ F.minus r.bits = neg ∧ F.IsFinite r.bits ∧ |F.num r.bits| = x := by
  have hnot : ¬(ftz = true ∧ F = fp32 ∧ F.IsTiny rm neg x) := fun ⟨hz, _, ht⟩ => not_isTiny_of_normal hx (hftz hz) ht
  obtain ⟨hlt, hsign, hfin, hnum, hnx, huf, hrest⟩ := h.2.2 hnot (by rwa [hself])
  exact ⟨flags_eq_zero (by simpa [hself] using hnx) (by simpa [hself] using huf) hrest, hlt, hsign, hfin, hnum.trans hself⟩

/-- The value of a finite pattern, not zero, is rounded to itself. -/
theorem rounded_abs_num {a : ℕ} (h0 : F.num a ≠ 0) : F.rounded rm neg |F.num a| = |F.num a| := by
  rw [abs_num]
  exact rounded_eq_self (F.sigOf_lt a) (sigOf_ne_zero_iff.2 h0) (F.qmin_le_expOf a)

/-- A pattern whose exponent field is not zero has a normal value. -/
theorem emin_le_log_of_expField {a : ℕ} (h : F.expField a ≠ 0) : F.emin ≤ Int.log 2 |F.num a| := by
  have hnormal : 2 ^ F.fb ≤ F.sigOf a := by rw [sigOf, if_neg h]; exact Nat.le_add_right ..
  have hpos : 0 < F.sigOf a := (Nat.two_pow_pos _).trans_le hnormal
  refine (Int.zpow_le_iff_le_log one_lt_two (by rw [abs_num]; positivity)).1 ?_
  rw [abs_num, Nat.cast_ofNat, show F.emin = F.qmin + F.fb by rw [qmin]; ring, zpow_add_natCast]
  exact mul_le_mul (by exact_mod_cast hnormal) (zpow_le_zpow_right₀ one_le_two (F.qmin_le_expOf a)) (by positivity) (by positivity)

/-- The value of a finite pattern rounds to that pattern, without a flag; where FTZ acts, not if it is subnormal. -/
theorem RoundsTo.eq_of_num (h : F.RoundsTo rm neg x ftz r) (hF : F.Usual) {a : ℕ} (ha : a < 2 ^ F.width) (hfin : F.IsFinite a)
    (hneg : F.minus a = neg) (hx : |F.num a| = x) (hx0 : x ≠ 0) (hftz : ftz = true → F.expField a ≠ 0) : r.Is a 0 True := by
  subst hx
  obtain ⟨hflags, hlt, hsign, -, hnum⟩ := h.exact (lt_of_le_of_ne (abs_nonneg _) hx0.symm) (rounded_abs_num (abs_ne_zero.1 hx0))
    (abs_num_le_largest hF hfin) fun hz => emin_le_log_of_expField (hftz hz)
  exact ⟨eq_of_num_eq hlt ha (hsign.trans hneg.symm) hnum, fun _ => hflags, fun _ => hflags⟩

end Sys2Proof.Machine.Fmt
end

section
/-! A rounded result is the neighbour of the exact value that its mode names (R107 to R109). -/

namespace Sys2Proof.Machine.Fmt

variable {F : Fmt} {rm : Rm} {neg : Bool} {x : ℝ}

/-- The exponent of a rounded value is that of the unit it was rounded to, or one more after a carry. -/
theorem expOf_of_rounded (hx : 0 < x) {y : ℕ} (h : |F.num y| = F.rounded rm neg x) :
    let q := max (F.unit x) F.qmin
    ((F.sigOf y : ℤ) = rm.integer neg (x / 2 ^ q) ∧ F.expOf y = q) ∨ F.expOf y = q + 1 := by
  obtain ⟨s, j, hs, hj, -, hval, hq, hsig⟩ := F.exists_sig_of_rounded rm neg hx
  rw [hval, abs_num] at h
  have hj' : F.qmin + (j : ℤ) = F.qmin ∨ 2 ^ F.fb ≤ s := hj.imp_left (by omega)
  intro q
  rw [hq] at h hsig hj'
  have unique {t : ℕ} {p : ℤ} := sig_exp_unique (t := t) (q' := p) (F.sigOf_lt y) (r := F.qmin) (hq := F.qmin_le_expOf y)
    (h := F.expOf_or_sigOf y)
  rcases hs.lt_or_eq with hlt | rfl
  · obtain ⟨h1, h2⟩ := unique hlt (le_max_right ..) hj' h
    exact .inl ⟨by rw [h1, hsig], h2⟩
  · refine .inr (unique (t := 2 ^ F.fb) (p := q + 1) (by rw [pow_succ]; have := Nat.two_pow_pos F.fb; omega) ?_ (.inr le_rfl) ?_).2
    · have := le_max_right (F.unit x) F.qmin
      omega
    · rw [h, zpow_add_one₀ two_ne_zero]
      push_cast
      ring

/-- What a mode makes of a magnitude, in terms of the distance in units in the last place (R107). -/
def Neighbour {K : Type} [Field K] [LinearOrder K] (rm : Rm) (neg : Bool) (w v u : K) (sig : ℕ) : Prop :=
  match rm with
  | .rne | .dyn => |w - v| ≤ u / 2 ∧ (|w - v| = u / 2 → sig % 2 = 0)
  | .rna => |w - v| ≤ u / 2 ∧ (|w - v| = u / 2 → v < w)
  | .rtz => w ≤ v ∧ v - w < u
  | .rup => if neg then w ≤ v ∧ v - w < u else v ≤ w ∧ w - v < u
  | .rdn => if neg then v ≤ w ∧ w - v < u else w ≤ v ∧ v - w < u

theorem neighbour_integer (rm : Rm) (neg : Bool) (t : ℝ) {sig : ℕ} (hsig : (sig : ℤ) = rm.integer neg t) :
    Neighbour rm neg (rm.integer neg t : ℝ) t 1 sig := by
  have hfloor : (⌊t⌋ : ℝ) ≤ t ∧ t - ⌊t⌋ < 1 := ⟨Int.floor_le t, by linarith [Int.lt_floor_add_one t]⟩
  have hceil : t ≤ (⌈t⌉ : ℝ) ∧ (⌈t⌉ : ℝ) - t < 1 := ⟨Int.le_ceil t, by linarith [Int.ceil_lt_add_one t]⟩
  cases rm
  case rne => exact ⟨(Rm.nearest_spec neg t).1, fun h => by have := (Rm.nearest_spec neg t).2 h; omega⟩
  case dyn => exact ⟨(Rm.nearest_spec neg t).1, fun h => by have := (Rm.nearest_spec neg t).2 h; rw [Rm.integer_dyn] at hsig; omega⟩
  case rna => exact Rm.away_spec neg t
  case rtz => exact hfloor
  case rup =>
    cases neg
    · exact hceil
    · exact hfloor
  case rdn =>
    cases neg
    · exact hfloor
    · exact hceil

theorem Neighbour.scale {w v u : ℝ} {sig : ℕ} (hu : 0 < u) (h : Neighbour rm neg w v 1 sig) :
    Neighbour rm neg (w * u) (v * u) u sig := by
  have hdist : |w * u - v * u| = |w - v| * u := by rw [← sub_mul, abs_mul, abs_of_pos hu]
  have hhalf : |w - v| ≤ 1 / 2 → |w * u - v * u| ≤ u / 2 := fun h => by rw [hdist]; nlinarith
  have htie : |w * u - v * u| = u / 2 → |w - v| = 1 / 2 := fun h => by
    rw [hdist] at h
    exact mul_right_cancel₀ hu.ne' (by linarith)
  have hbelow : w ≤ v ∧ v - w < 1 → w * u ≤ v * u ∧ v * u - w * u < u := fun h => ⟨by nlinarith, by nlinarith⟩
  have habove : v ≤ w ∧ w - v < 1 → v * u ≤ w * u ∧ w * u - v * u < u := fun h => ⟨by nlinarith, by nlinarith⟩
  cases rm
  case rne => exact ⟨hhalf h.1, fun ht => h.2 (htie ht)⟩
  case dyn => exact ⟨hhalf h.1, fun ht => h.2 (htie ht)⟩
  case rna => exact ⟨hhalf h.1, fun ht => mul_lt_mul_of_pos_right (h.2 (htie ht)) hu⟩
  case rtz => exact hbelow h
  case rup =>
    cases neg
    · exact habove h
    · exact hbelow h
  case rdn =>
    cases neg
    · exact hbelow h
    · exact habove h

/-- Within half a unit is within less than half of a unit twice as large, so that no tie is left. -/
theorem Neighbour.double {w v u : ℝ} {sig : ℕ} (hu : 0 < u) (h : Neighbour rm neg w v u sig) (sig' : ℕ) :
    Neighbour rm neg w v (2 * u) sig' := by
  have hbelow : w ≤ v ∧ v - w < u → w ≤ v ∧ v - w < 2 * u := fun h => ⟨h.1, by linarith⟩
  have habove : v ≤ w ∧ w - v < u → v ≤ w ∧ w - v < 2 * u := fun h => ⟨h.1, by linarith⟩
  have hfar : |w - v| ≤ u / 2 → |w - v| ≤ 2 * u / 2 ∧ |w - v| ≠ 2 * u / 2 := fun h => ⟨by linarith, by intro heq; linarith⟩
  cases rm
  case rne => exact ⟨(hfar h.1).1, fun ht => absurd ht (hfar h.1).2⟩
  case dyn => exact ⟨(hfar h.1).1, fun ht => absurd ht (hfar h.1).2⟩
  case rna => exact ⟨(hfar h.1).1, fun ht => absurd ht (hfar h.1).2⟩
  case rtz => exact hbelow h
  case rup =>
    cases neg
    · exact habove h
    · exact hbelow h
  case rdn =>
    cases neg
    · exact hbelow h
    · exact habove h

/-- A pattern that holds a rounded magnitude is the neighbour of the exact one. -/
theorem neighbour_of_rounded (hx : 0 < x) {y : ℕ} (h : |F.num y| = F.rounded rm neg x) :
    Neighbour rm neg (F.sigOf y * 2 ^ F.expOf y : ℝ) x (2 ^ F.expOf y) (F.sigOf y) := by
  have hpos : (0 : ℝ) < 2 ^ max (F.unit x) F.qmin := by positivity
  have hunits (s : ℕ) (hs : (s : ℤ) = rm.integer neg (x / 2 ^ max (F.unit x) F.qmin)) :
      Neighbour rm neg (F.rounded rm neg x) x (2 ^ max (F.unit x) F.qmin) s := by
    have := (neighbour_integer rm neg _ hs).scale hpos
    rwa [div_mul_cancel₀ _ hpos.ne'] at this
  rw [← abs_num, h]
  rcases expOf_of_rounded hx h with ⟨hsig, hexp⟩ | hexp
  · exact hexp ▸ hunits _ hsig
  · obtain ⟨s, hs⟩ := Int.eq_ofNat_of_zero_le (rm.integer_nonneg neg (show 0 ≤ x / 2 ^ max (F.unit x) F.qmin by positivity))
    rw [hexp, zpow_add_one₀ two_ne_zero, mul_comm (2 ^ _) 2]
    exact (hunits s hs.symm).double hpos _

theorem neighbour_cast {w v u : ℚ} {sig : ℕ} : Neighbour rm neg (w : ℝ) v u sig ↔ Neighbour rm neg w v u sig := by
  cases rm <;> simp only [Neighbour] <;> norm_cast

theorem RoundsTo.fits_of_flags {ftz : Bool} {r : FRes} (h : F.RoundsTo rm neg x ftz r) (hf : r.flags.getLsbD 2 = false) :
    ftz = true ∧ F = fp32 ∧ F.IsTiny rm neg x ∨ F.rounded rm neg x ≤ F.largest := by
  by_contra hnot
  push Not at hnot
  have := (h.2.1 (fun hflush => hnot.1 hflush.1 hflush.2.1 hflush.2.2) hnot.2).2.2
  rw [this] at hf
  exact absurd hf (by decide)

/-- A rounding that does not overflow gives the neighbour of the exact value that the mode names, and NX exactly where they differ. -/
theorem round_neighbour (hF : F.Usual) (rm : Rm) (neg : Bool) {m : ℕ} (hm : m ≠ 0) (e : ℤ)
    (hf : (F.round rm neg m e).res.flags.getLsbD 2 = false) :
    ∃ (sig : ℕ) (q : ℤ), F.value (F.round rm neg m e).res.bits = .fin neg sig q ∧
      ((F.round rm neg m e).res.flags.getLsbD 0 = true ↔ (sig * 2 ^ q : ℚ) ≠ m * 2 ^ e) ∧
      Neighbour rm neg (sig * 2 ^ q : ℚ) (m * 2 ^ e) (2 ^ q) sig := by
  have hx : (0 : ℝ) < m * 2 ^ e := by positivity
  have h : F.RoundsTo rm neg (m * 2 ^ e) false (F.round rm neg m e).res := F.round_roundsTo rm neg hm e hF false
  have hfits := (h.fits_of_flags hf).resolve_left (by simp)
  obtain ⟨-, hneg, hfin, hnum, hnx, -, -⟩ := h.2.2 (by simp) hfits
  have hnear := neighbour_of_rounded hx hnum
  rw [← hnum, abs_num] at hnx
  have hcast (n : ℕ) (k : ℤ) : (n : ℝ) * 2 ^ k = ((n * 2 ^ k : ℚ) : ℝ) := by push_cast; rfl
  have hunit (k : ℤ) : (2 : ℝ) ^ k = ((2 ^ k : ℚ) : ℝ) := by push_cast; rfl
  rw [hcast, hcast, hunit, neighbour_cast] at hnear
  rw [hcast, hcast, Ne.eq_def, Rat.cast_inj] at hnx
  refine ⟨_, _, ?_, hnx, hnear⟩
  rw [value_of_isFinite hfin, hneg]

end Sys2Proof.Machine.Fmt
end

section
/-! What an operation sees of an operand (R103 to R106, R114): the decoded value stands for the number or infinity of the pattern. -/

namespace Sys2Proof.Machine

/-- A value's sign, and the number or infinity that it is. -/
noncomputable def FVal.term (v : FVal) : Bool × EReal := (v.sign, v.ext)

theorem FVal.ext_fin (n : Bool) (m : ℕ) (e : ℤ) : (FVal.fin n m e).ext = (Fmt.signed n (m * 2 ^ e) : ℝ) := by
  rw [FVal.ext, Fmt.signed, mul_assoc]

namespace Fmt

variable {F : Fmt} {z : Bool} {a b : ℕ}

theorem flushIn_eq (F : Fmt) (z : Bool) (a : ℕ) : F.flushIn z a = F.flushed z a := rfl

theorem flushed_eq (F : Fmt) (z : Bool) (a : ℕ) :
    F.flushed z a = if z = true ∧ F = fp32 ∧ F.expField a = 0 then 0 + F.sign (F.minus a) else a := by
  rw [zero_add]; rfl

theorem minus_flushed (F : Fmt) (z : Bool) (a : ℕ) : F.minus (F.flushed z a) = F.minus a := by
  rw [flushed_eq]
  split
  · exact minus_add_sign (Nat.two_pow_pos _) _
  · rfl

theorem flushed_lt (ha : a < 2 ^ F.width) : F.flushed z a < 2 ^ F.width := by
  rw [flushed_eq]
  split
  · exact add_sign_lt (Nat.two_pow_pos _) _
  · exact ha

theorem magOf_flushed (F : Fmt) (z : Bool) (a : ℕ) :
    F.magOf (F.flushed z a) = if z = true ∧ F = fp32 ∧ F.expField a = 0 then 0 else F.magOf a := by
  rw [flushed_eq, apply_ite F.magOf, magOf_add_sign (Nat.two_pow_pos _)]

theorem magOf_flushed_eq_zero_iff : F.magOf (F.flushed z a) = 0 ↔ F.IsZero z a := by
  rw [magOf_flushed]
  show _ ↔ F.magOf a = 0 ∨ (z = true ∧ F = fp32 ∧ F.expField a = 0)
  split
  next h => exact iff_of_true rfl (.inr h)
  next h => exact (or_iff_left h).symm

theorem infBits_le_flushed_iff (hF : F.Usual) : F.infBits ≤ F.magOf (F.flushed z a) ↔ F.infBits ≤ F.magOf a := by
  rw [magOf_flushed]
  split
  next h =>
    have hmax : 1 < 2 ^ F.eb := Nat.one_lt_two_pow (by have := hF.eb_pos; omega)
    rw [← expField_eq_max_iff, h.2.2, infBits, Nat.le_zero, mul_eq_zero]
    have := Nat.two_pow_pos F.fb
    omega
  next => rfl

theorem flushed_of_infBits_le (hF : F.Usual) (h : F.infBits ≤ F.magOf a) : F.flushed z a = a := by
  rw [flushed_eq, if_neg]
  rintro ⟨-, -, he⟩
  have hmax : 1 < 2 ^ F.eb := Nat.one_lt_two_pow (by have := hF.eb_pos; omega)
  have := expField_eq_max_iff.2 h
  omega

theorem IsFinite.flushed (hF : F.Usual) (h : F.IsFinite a) (z : Bool) : F.IsFinite (F.flushed z a) :=
  not_le.1 fun hle => h.not_ge ((infBits_le_flushed_iff hF).1 hle)

theorem IsNan.value (hF : F.Usual) (h : F.IsNan a) (z : Bool) : F.value (F.flushIn z a) = .nan a := by
  rw [flushIn_eq, flushed_of_infBits_le hF (isNan_iff.1 h).le, value_of_isNan h]

theorem IsInf.value (hF : F.Usual) (h : F.IsInf a) (z : Bool) : F.value (F.flushIn z a) = .inf (F.minus a) := by
  rw [flushIn_eq, flushed_of_infBits_le hF (isInf_iff.1 h).ge, value_of_isInf h]

theorem IsFinite.value (hF : F.Usual) (h : F.IsFinite a) (z : Bool) :
    F.value (F.flushIn z a) = .fin (F.minus a) (F.sigOf (F.flushed z a)) (F.expOf (F.flushed z a)) := by
  rw [flushIn_eq, value_of_isFinite (h.flushed hF z), minus_flushed]

theorem num_flushed (F : Fmt) (z : Bool) (a : ℕ) :
    F.num (F.flushed z a) = signed (F.minus a) (F.sigOf (F.flushed z a) * 2 ^ F.expOf (F.flushed z a)) := by
  rw [num_eq, minus_flushed, signed]

theorem sigOf_flushed_eq_zero_iff : F.sigOf (F.flushed z a) = 0 ↔ F.IsZero z a := by
  rw [sigOf_eq_zero_iff, magOf_flushed_eq_zero_iff]

theorem IsZero.isFinite (hF : F.Usual) (h : F.IsZero z a) : F.IsFinite a := by
  have hinf : 0 < F.infBits := Nat.mul_pos (Nat.sub_pos_of_lt (Nat.one_lt_two_pow (by have := hF.eb_pos; omega))) (Nat.two_pow_pos _)
  refine not_le.1 fun hle => ?_
  have := (infBits_le_flushed_iff (z := z) hF).2 hle
  rw [magOf_flushed_eq_zero_iff.2 h] at this
  omega

theorem IsZero.value (hF : F.Usual) (h : F.IsZero z a) : F.value (F.flushIn z a) = .fin (F.minus a) 0 (F.expOf (F.flushed z a)) := by
  rw [(h.isFinite hF).value hF, sigOf_flushed_eq_zero_iff.2 h]

theorem ext_of_isInf (h : F.IsInf a) : F.ext z a = if F.minus a then ⊥ else ⊤ := if_pos h

theorem ext_of_isFinite (h : F.IsFinite a) : F.ext z a = (F.num (F.flushed z a) : ℝ) := if_neg h.not_isInf

theorem isNan_value (hF : F.Usual) (z : Bool) (a : ℕ) : (F.value (F.flushIn z a)).isNan = true ↔ F.IsNan a := by
  rcases F.kinds a with h | h | h
  · rw [h.value hF]; exact iff_of_true rfl h
  · rw [h.value hF]; exact iff_of_false Bool.false_ne_true fun hn => hn.not_isInf h
  · rw [h.value hF]; exact iff_of_false Bool.false_ne_true h.not_isNan

theorem not_isNan_value (hF : F.Usual) (h : ¬F.IsNan a) (z : Bool) : (F.value (F.flushIn z a)).isNan = false :=
  Bool.eq_false_iff.2 (mt (isNan_value hF z a).1 h)

/-- An operand that is no NaN is the term that the statements take for it. -/
theorem term_value (hF : F.Usual) (h : ¬F.IsNan a) (z : Bool) : (F.value (F.flushIn z a)).term = F.term z a := by
  rcases (F.kinds a).resolve_left h with h | h
  · rw [h.value hF, term, ext_of_isInf h]; rfl
  · rw [h.value hF, term, ext_of_isFinite h, num_flushed, FVal.term, FVal.ext_fin]; rfl

theorem signalling_value (hF : F.Usual) (z : Bool) (a : ℕ) : F.signalling (F.value (F.flushIn z a)) = true ↔ F.IsSnan a := by
  rcases F.kinds a with h | h | h
  · rw [h.value hF, signalling, decide_eq_true_eq, Nat.div_eq_zero_iff]
    exact ⟨fun hf => ⟨h, hf.resolve_left (Nat.two_pow_pos _).ne'⟩, fun hs => .inr hs.2⟩
  · rw [h.value hF]; exact iff_of_false Bool.false_ne_true fun hs => hs.1.not_isInf h
  · rw [h.value hF]; exact iff_of_false Bool.false_ne_true fun hs => h.not_isNan hs.1

end Fmt

/-! ### Flags of a NaN -/

theorem FRes.is_true {r : FRes} {bits : ℕ} {flags : BitVec 5} (h : r = { bits := bits, flags := flags }) : r.Is bits flags True := by
  subst h
  exact ⟨rfl, fun _ => rfl, fun hf => absurd trivial hf⟩

/-- NV raised where a test of the model passes. -/
theorem FRes.is_nv {bits : ℕ} {test : Bool} {p : Prop} (h : test = true ↔ p) :
    FRes.Is { bits := bits, flags := if test then fNV else 0 } bits 0x10 p :=
  ⟨rfl, fun hp => if_pos (h.2 hp), fun hp => if_neg (mt h.1 hp)⟩

namespace Fmt

variable {F : Fmt} {rm : Rm} {z : Bool}

theorem invalid_spec (F : Fmt) : F.Invalid F.invalid := ⟨rfl, rfl⟩

theorem firstNan_cons {v : FVal} (h : v.isNan = false) (vs : List FVal) : F.firstNan (v :: vs) = F.firstNan vs := by
  cases v
  · cases h
  · rfl
  · rfl

theorem firstNan_nan (b : ℕ) (vs : List FVal) : F.firstNan (.nan b :: vs) = some (F.quiet b) := rfl

/-- A result where the first NaN among the operands is passed on (R105). -/
def passNan (F : Fmt) (vs : List FVal) (other : FRes) : FRes :=
  match F.firstNan vs with
  | some n => { bits := n, flags := F.snan vs }
  | none => other

theorem passNan_two_left {a b : ℕ} (hF : F.Usual) (ha : F.IsNan a) {other : FRes} {y : FVal} (hy : F.signalling y = true ↔ F.IsSnan b) :
    (F.passNan [F.value (F.flushIn z a), y] other).Is (a ||| 2 ^ (F.fb - 1)) 0x10 (F.IsSnan a ∨ F.IsSnan b) := by
  have hs := signalling_value hF z a
  rw [ha.value hF] at hs ⊢
  rw [passNan, firstNan_nan]
  refine FRes.is_nv ?_
  simp [hs, hy]

theorem passNan_two_right {a b : ℕ} (hF : F.Usual) (ha : ¬F.IsNan a) (hb : F.IsNan b) {other : FRes} :
    (F.passNan [F.value (F.flushIn z a), .nan b] other).Is (b ||| 2 ^ (F.fb - 1)) 0x10 (F.IsSnan b) := by
  have hs := signalling_value hF z b
  have hsa := signalling_value hF z a
  have hnot : ¬F.IsSnan a := fun h => ha h.1
  rw [hb.value hF] at hs
  rw [passNan, firstNan_cons (not_isNan_value hF ha z), firstNan_nan]
  refine FRes.is_nv ?_
  simp [hs, hsa, hnot]

theorem passNan_two_none {a : ℕ} (hF : F.Usual) (ha : ¬F.IsNan a) {y : FVal} (hy : y.isNan = false) (other : FRes) :
    F.passNan [F.value (F.flushIn z a), y] other = other := by
  rw [passNan, firstNan_cons (not_isNan_value hF ha z), firstNan_cons hy]
  rfl

end Fmt
end Sys2Proof.Machine
end

section
/-! Sums and products of exact values, rounded once (R106, R110, R118, R131). -/

namespace Sys2Proof.Machine

/-! ### The exact sum -/

/-- What one term gives to a sum at an exponent. -/
def FVal.share (x : ℤ) (t : FVal) : ℤ :=
  match t with
  | .fin n m e => if m = 0 then 0 else (if n then -1 else 1) * (m * 2 ^ (e - x).toNat : ℕ)
  | _ => 0

theorem sumAt_concat (x : ℤ) (ts : List FVal) (t : FVal) : sumAt x (ts ++ [t]) = sumAt x ts + t.share x := by
  refine (List.foldl_concat ..).trans ?_
  rcases t with b | n | ⟨n, m, e⟩
  · exact (add_zero _).symm
  · exact (add_zero _).symm
  · by_cases hm : m = 0
    · simp [FVal.share, hm, sumAt]
    · simp [FVal.share, hm, sumAt]

theorem sumAt_eq (x : ℤ) (ts : List FVal) : sumAt x ts = (ts.map (FVal.share x)).sum := by
  induction ts using List.reverseRecOn with
  | nil => rfl
  | append_singleton ts t ih => simp [sumAt_concat, ih]

theorem FVal.share_spec {x : ℤ} {n : Bool} {m : ℕ} {e : ℤ} (h : m ≠ 0 → x ≤ e) :
    ((FVal.fin n m e).share x : ℝ) * 2 ^ x = Fmt.signed n (m * 2 ^ e) := by
  by_cases hm : m = 0
  · simp [FVal.share, hm, Fmt.signed]
  · rw [SameSide.zpow_split (h hm), FVal.share, if_neg hm, Fmt.signed]
    push_cast
    ring

theorem minExp_concat (ts : List FVal) (t : FVal) : minExp (ts ++ [t]) ≤ minExp ts := by
  refine (List.foldl_concat ..).trans_le ?_
  rcases t with b | n | ⟨n, m, e⟩
  · exact le_rfl
  · exact le_rfl
  · by_cases hm : m = 0 <;> simp [hm, minExp]

/-- The least exponent is at most that of each term that is not zero. -/
theorem minExp_le {n : Bool} {m : ℕ} {e : ℤ} {ts : List FVal} (h : FVal.fin n m e ∈ ts) (hm : m ≠ 0) : minExp ts ≤ e := by
  induction ts using List.reverseRecOn with
  | nil => cases h
  | append_singleton ts t ih =>
    rcases List.mem_append.1 h with h | h
    · exact (minExp_concat ts t).trans (ih h)
    · rw [← List.mem_singleton.1 h]
      refine (List.foldl_concat ..).trans_le ?_
      simp [hm]

/-- The exact sum of terms that are no infinity. -/
theorem sumAt_spec {ts : List FVal} {x : ℤ} (hx : ∀ n m e, FVal.fin n m e ∈ ts → m ≠ 0 → x ≤ e)
    (hfin : ∀ t ∈ ts, ∃ n m e, t = .fin n m e) : (sumAt x ts : ℝ) * 2 ^ x = (ts.map fun t => t.ext.toReal).sum := by
  rw [sumAt_eq, Int.cast_list_sum, List.map_map, ← List.sum_map_mul_right]
  congr 1
  refine List.map_congr_left fun t ht => ?_
  obtain ⟨n, m, e, rfl⟩ := hfin t ht
  rw [FVal.ext_fin, EReal.toReal_coe]
  exact FVal.share_spec (hx n m e ht)

/-! ### Terms -/

theorem FVal.ext_eq_top_iff {t : FVal} (h : t.isNan = false) : t.ext = ⊤ ↔ t = .inf false := by
  rcases t with b | n | ⟨n, m, e⟩
  · cases h
  · cases n <;> simp [FVal.ext]
  · simp [FVal.ext_fin]

theorem FVal.ext_eq_bot_iff {t : FVal} (h : t.isNan = false) : t.ext = ⊥ ↔ t = .inf true := by
  rcases t with b | n | ⟨n, m, e⟩
  · cases h
  · cases n <;> simp [FVal.ext]
  · simp [FVal.ext_fin]

theorem Fmt.signed_eq_zero_iff {n : Bool} {x : ℝ} : Fmt.signed n x = 0 ↔ x = 0 := by cases n <;> simp

theorem FVal.term_eq_zero_iff {t : FVal} (h : t.isNan = false) (n : Bool) : t.term = (n, 0) ↔ ∃ e, t = .fin n 0 e := by
  rcases t with b | k | ⟨k, m, e⟩
  · cases h
  · cases k <;> simp [FVal.term, FVal.ext]
  · simp [FVal.term, FVal.ext_fin, FVal.sign, Fmt.signed_eq_zero_iff, zpow_ne_zero]

theorem hasInf_iff {n : Bool} {ts : List FVal} : hasInf n ts = true ↔ FVal.inf n ∈ ts := by
  rw [hasInf, List.contains_iff_mem]

/-- Is a value −0? -/
def FVal.isNegZero (t : FVal) : Bool :=
  match t with
  | .fin n m _ => n && decide (m = 0)
  | _ => false

/-- Is a value +0? -/
def FVal.isPosZero (t : FVal) : Bool :=
  match t with
  | .fin n m _ => !n && decide (m = 0)
  | _ => false

theorem zeroSign_eq (rm : Rm) (ts : List FVal) : zeroSign rm ts =
    if ts.all FVal.isNegZero then true else if ts.all FVal.isPosZero then false else decide (rm = .rdn) := rfl

theorem FVal.isNegZero_iff {t : FVal} (h : t.isNan = false) : t.isNegZero = true ↔ t.term = (true, 0) := by
  rw [FVal.term_eq_zero_iff h]
  rcases t with b | k | ⟨k, m, e⟩ <;> simp [FVal.isNegZero]

theorem FVal.isPosZero_iff {t : FVal} (h : t.isNan = false) : t.isPosZero = true ↔ t.term = (false, 0) := by
  rw [FVal.term_eq_zero_iff h]
  rcases t with b | k | ⟨k, m, e⟩ <;> simp [FVal.isPosZero]

theorem zeroSign_iff {rm : Rm} {ts : List FVal} (hnan : ∀ t ∈ ts, t.isNan = false) :
    zeroSign rm ts = true ↔ (∀ t ∈ ts.map FVal.term, t = (true, 0)) ∨ (rm = .rdn ∧ ¬∀ t ∈ ts.map FVal.term, t = (false, 0)) := by
  have hneg : ts.all FVal.isNegZero = true ↔ ∀ t ∈ ts.map FVal.term, t = (true, 0) := by
    rw [List.all_eq_true, List.forall_mem_map]
    exact forall₂_congr fun t ht => FVal.isNegZero_iff (hnan t ht)
  have hpos : ts.all FVal.isPosZero = true ↔ ∀ t ∈ ts.map FVal.term, t = (false, 0) := by
    rw [List.all_eq_true, List.forall_mem_map]
    exact forall₂_congr fun t ht => FVal.isPosZero_iff (hnan t ht)
  rw [zeroSign_eq, ← hneg, ← hpos]
  cases ts.all FVal.isNegZero <;> cases ts.all FVal.isPosZero <;> simp

/-- An integer as a sign and a magnitude. -/
theorem Fmt.signed_natAbs (i : ℤ) (u : ℝ) : Fmt.signed (decide (i < 0)) ((i.natAbs : ℝ) * u) = i * u := by
  have habs : ((i.natAbs : ℤ) : ℝ) = |(i : ℝ)| := by rw [Int.natCast_natAbs, Int.cast_abs]
  rw [Int.cast_natCast] at habs
  rw [habs]
  by_cases h : i < 0
  · rw [decide_eq_true h, Fmt.signed_true, abs_of_neg (by exact_mod_cast h)]
    ring
  · rw [decide_eq_false h, Fmt.signed_false, abs_of_nonneg (by exact_mod_cast not_lt.1 h)]

/-- The model's sum of terms is their exact sum rounded once. -/
theorem Fmt.sum_sums {F : Fmt} (hF : F.Usual) (rm : Rm) (z : Bool) {ts : List FVal} (hnan : ∀ t ∈ ts, t.isNan = false) :
    F.Sums rm z (ts.map FVal.term) (F.sum rm z ts) := by
  have hvs : (ts.map FVal.term).map (·.2) = ts.map FVal.ext := by rw [List.map_map]; rfl
  have htop : ⊤ ∈ ts.map FVal.ext ↔ hasInf false ts = true := by
    rw [hasInf_iff, List.mem_map]
    exact ⟨fun ⟨t, ht, h⟩ => (FVal.ext_eq_top_iff (hnan t ht)).1 h ▸ ht, fun h => ⟨_, h, rfl⟩⟩
  have hbot : ⊥ ∈ ts.map FVal.ext ↔ hasInf true ts = true := by
    rw [hasInf_iff, List.mem_map]
    exact ⟨fun ⟨t, ht, h⟩ => (FVal.ext_eq_bot_iff (hnan t ht)).1 h ▸ ht, fun h => ⟨_, h, rfl⟩⟩
  rw [Sums, hvs, htop, hbot, sum]
  refine ⟨fun hp hn => ?_, fun hp hn => ?_, fun hn hp => ?_, fun hp hn => ?_⟩
  · rw [hp, hn]
    exact F.invalid_spec
  · rw [hp, Bool.eq_false_iff.2 hn]
    exact FRes.is_true rfl
  · rw [hn, Bool.eq_false_iff.2 hp]
    exact FRes.is_true rfl
  · have hfin : ∀ t ∈ ts, ∃ n m e, t = FVal.fin n m e := by
      intro t ht
      rcases t with b | n | ⟨n, m, e⟩
      · cases hnan _ ht
      · cases n
        · exact absurd (hasInf_iff.2 ht) hp
        · exact absurd (hasInf_iff.2 ht) hn
      · exact ⟨n, m, e, rfl⟩
    have hsum := sumAt_spec (fun n m e h hm => minExp_le h hm) hfin
    rw [Bool.eq_false_iff.2 hp, Bool.eq_false_iff.2 hn, List.map_map]
    have hv : (ts.map (EReal.toReal ∘ FVal.ext)).sum = (sumAt (minExp ts) ts : ℝ) * 2 ^ minExp ts := hsum.symm
    rw [hv]
    have hzero : (sumAt (minExp ts) ts : ℝ) * 2 ^ minExp ts = 0 ↔ sumAt (minExp ts) ts = 0 := by
      simp [zpow_ne_zero]
    have hvalue : sumAt (minExp ts) ts ≠ 0 → F.Rounds rm z ((sumAt (minExp ts) ts : ℝ) * 2 ^ minExp ts)
        (F.deliver rm z (decide (sumAt (minExp ts) ts < 0)) (sumAt (minExp ts) ts).natAbs (minExp ts)) := by
      intro hne
      refine deliver_rounds hF (Int.natAbs_ne_zero.2 hne) ?_
      rw [signed_natAbs]
    have hsign := zeroSign_iff (rm := rm) hnan
    refine ⟨fun hne => ?_, fun heq hdown => ?_, fun heq hdown => ?_⟩
    · have hne' := mt hzero.2 hne
      simpa [hne'] using hvalue hne'
    · rw [if_pos (hzero.1 heq), hsign.2 hdown]
      exact FRes.is_true rfl
    · rw [if_pos (hzero.1 heq), Bool.eq_false_iff.2 (mt hsign.1 hdown)]
      exact FRes.is_true rfl

end Sys2Proof.Machine
end

section
/-! FADD, FSUB, FMUL and FFMA on patterns (R105, R106, R118). -/

namespace Sys2Proof.Machine

theorem FVal.negate_isNan (t : FVal) : t.negate.isNan = t.isNan := by cases t <;> rfl

theorem FVal.negate_term {t : FVal} (h : t.isNan = false) : t.negate.term = (!t.term.1, -t.term.2) := by
  rcases t with b | n | ⟨n, m, e⟩
  · cases h
  · cases n <;> simp [FVal.negate, FVal.term, FVal.sign, FVal.ext]
  · cases n <;> simp [FVal.negate, FVal.term, FVal.sign, FVal.ext_fin]

theorem Fmt.signalling_negate (F : Fmt) (t : FVal) : F.signalling t.negate = F.signalling t := by cases t <;> rfl

/-! ### Products -/

/-- Is a value a zero? -/
def FVal.IsZero (t : FVal) : Prop := ∃ n e, t = .fin n 0 e

/-- Is a value an infinity? -/
def FVal.IsInf (t : FVal) : Prop := ∃ n, t = .inf n

/-- Are two factors a zero and an infinity (R106)? -/
def FVal.ZeroTimesInf (x y : FVal) : Prop := (x.IsZero ∧ y.IsInf) ∨ (x.IsInf ∧ y.IsZero)

@[simp] theorem FVal.isZero_fin {n : Bool} {m : ℕ} {e : ℤ} : (FVal.fin n m e).IsZero ↔ m = 0 := by simp [FVal.IsZero]

@[simp] theorem FVal.not_isZero_inf {n : Bool} : ¬(FVal.inf n).IsZero := by simp [FVal.IsZero]

@[simp] theorem FVal.isInf_inf {n : Bool} : (FVal.inf n).IsInf := ⟨n, rfl⟩

@[simp] theorem FVal.not_isInf_fin {n : Bool} {m : ℕ} {e : ℤ} : ¬(FVal.fin n m e).IsInf := by simp [FVal.IsInf]

theorem FVal.mul_eq_none_iff {x y : FVal} (hx : x.isNan = false) (hy : y.isNan = false) :
    x.mul y = none ↔ x.ZeroTimesInf y := by
  rcases x with b | n | ⟨n, m, e⟩
  · cases hx
  all_goals
    rcases y with b' | n' | ⟨n', m', e'⟩
    · cases hy
    · simp [FVal.mul, FVal.ZeroTimesInf]
    · simp [FVal.mul, FVal.ZeroTimesInf]

/-- An infinity times a number that is not zero. -/
theorem inf_mul_ext (n k : Bool) {x : ℝ} (hx : 0 < x) :
    (FVal.inf n).ext * ((Fmt.signed k x : ℝ) : EReal) = (FVal.inf (n ^^ k)).ext := by
  have hneg : -x < 0 := neg_lt_zero.2 hx
  cases n <;> cases k <;>
    simp [FVal.ext, EReal.top_mul_coe_of_pos, EReal.bot_mul_coe_of_pos, hx, EReal.top_mul_coe_of_neg, EReal.bot_mul_coe_of_neg,
      hneg, -EReal.coe_neg]

theorem Fmt.signed_mul_signed (n k : Bool) (x y : ℝ) : Fmt.signed n x * Fmt.signed k y = Fmt.signed (n ^^ k) (x * y) := by
  cases n <;> cases k <;> simp

/-- A product that exists is the product of the terms. -/
theorem FVal.mul_term {x y t : FVal} (hx : x.isNan = false) (hy : y.isNan = false) (h : x.mul y = some t) :
    t.isNan = false ∧ t.term = termMul x.term y.term := by
  rcases x with b | n | ⟨n, m, e⟩
  · cases hx
  all_goals rcases y with b' | n' | ⟨n', m', e'⟩
  · cases hy
  · obtain rfl := Option.some.inj h
    refine ⟨rfl, Prod.ext rfl ?_⟩
    cases n <;> cases n' <;> simp [FVal.term, FVal.ext, termMul]
  · simp only [FVal.mul] at h
    split at h
    next => cases h
    next hm =>
      obtain rfl := Option.some.inj h
      refine ⟨rfl, Prod.ext rfl ?_⟩
      show (FVal.inf (n ^^ n')).ext = (FVal.inf n).ext * (FVal.fin n' m' e').ext
      rw [FVal.ext_fin, inf_mul_ext n n' (by positivity)]
  · cases hy
  · simp only [FVal.mul] at h
    split at h
    next => cases h
    next hm =>
      obtain rfl := Option.some.inj h
      refine ⟨rfl, Prod.ext rfl ?_⟩
      show (FVal.inf (n ^^ n')).ext = (FVal.fin n m e).ext * (FVal.inf n').ext
      rw [FVal.ext_fin, mul_comm (Real.toEReal _), inf_mul_ext n' n (by positivity), Bool.xor_comm]
  · obtain rfl := Option.some.inj h
    refine ⟨rfl, Prod.ext rfl ?_⟩
    show (FVal.fin (n ^^ n') (m * m') (e + e')).ext = (FVal.fin n m e).ext * (FVal.fin n' m' e').ext
    rw [FVal.ext_fin, FVal.ext_fin, FVal.ext_fin, ← EReal.coe_mul, Fmt.signed_mul_signed, zpow_add₀ two_ne_zero]
    congr 2
    push_cast
    ring

theorem nv_or (s t : Bool) : ((if s then fNV else 0) ||| (if t then fNV else 0) : BitVec 5) = if s || t then fNV else 0 := by
  revert s t
  decide

/-- NV raised by either of two tests of the model. -/
theorem FRes.is_nv_or {bits : ℕ} {s t : Bool} {p : Prop} (h : s = true ∨ t = true ↔ p) :
    FRes.Is { bits := bits, flags := (if s then fNV else 0) ||| (if t then fNV else 0) } bits 0x10 p := by
  rw [nv_or]
  exact FRes.is_nv (by rwa [Bool.or_eq_true])

namespace Fmt

variable {F : Fmt} {z : Bool} {a b c : ℕ} {rm : Rm}

theorem isZero_value (hF : F.Usual) (z : Bool) (a : ℕ) : (F.value (F.flushIn z a)).IsZero ↔ F.IsZero z a := by
  have hnot {v : FVal} (hv : ¬v.IsZero) (hfin : ¬F.IsFinite a) : v.IsZero ↔ F.IsZero z a :=
    iff_of_false hv fun h => hfin (h.isFinite hF)
  rcases F.kinds a with h | h | h
  · rw [h.value hF]; exact hnot (by simp [FVal.IsZero]) fun hf => hf.not_isNan h
  · rw [h.value hF]; exact hnot (by simp) fun hf => hf.not_isInf h
  · rw [h.value hF, FVal.isZero_fin, sigOf_flushed_eq_zero_iff]

theorem isInf_value (hF : F.Usual) (z : Bool) (a : ℕ) : (F.value (F.flushIn z a)).IsInf ↔ F.IsInf a := by
  rcases F.kinds a with h | h | h
  · rw [h.value hF]; exact iff_of_false (by simp [FVal.IsInf]) h.not_isInf
  · rw [h.value hF]; exact iff_of_true (by simp) h
  · rw [h.value hF]; exact iff_of_false (by simp) h.not_isInf

/-- Are two operands a zero and an infinity? -/
def ZeroTimesInf (F : Fmt) (z : Bool) (a b : ℕ) : Prop := (F.IsZero z a ∧ F.IsInf b) ∨ (F.IsInf a ∧ F.IsZero z b)

theorem IsInf.not_isNan (h : F.IsInf a) : ¬F.IsNan a := fun hn => hn.not_isInf h

theorem ZeroTimesInf.not_isNan (hF : F.Usual) (h : F.ZeroTimesInf z a b) : ¬F.IsNan a ∧ ¬F.IsNan b := by
  rcases h with ⟨h0, hi⟩ | ⟨hi, h0⟩
  · exact ⟨(h0.isFinite hF).not_isNan, hi.not_isNan⟩
  · exact ⟨hi.not_isNan, (h0.isFinite hF).not_isNan⟩

theorem mul_eq_none_iff (hF : F.Usual) (ha : ¬F.IsNan a) (hb : ¬F.IsNan b) :
    (F.value (F.flushIn z a)).mul (F.value (F.flushIn z b)) = none ↔ F.ZeroTimesInf z a b := by
  rw [FVal.mul_eq_none_iff (not_isNan_value hF ha z) (not_isNan_value hF hb z), FVal.ZeroTimesInf, isZero_value hF, isZero_value hF,
    isInf_value hF, isInf_value hF, ZeroTimesInf]

/-- The product of two operands that are no NaN, and no zero and infinity. -/
theorem exists_mul (hF : F.Usual) (ha : ¬F.IsNan a) (hb : ¬F.IsNan b) (h : ¬F.ZeroTimesInf z a b) :
    ∃ t, (F.value (F.flushIn z a)).mul (F.value (F.flushIn z b)) = some t ∧ t.isNan = false ∧
      t.term = termMul (F.term z a) (F.term z b) := by
  obtain ⟨t, ht⟩ := Option.ne_none_iff_exists'.1 (mt (mul_eq_none_iff hF ha hb).1 h)
  obtain ⟨hnan, hterm⟩ := FVal.mul_term (not_isNan_value hF ha z) (not_isNan_value hF hb z) ht
  exact ⟨t, ht, hnan, by rw [hterm, term_value hF ha, term_value hF hb]⟩

theorem sum_sums_one (hF : F.Usual) (rm : Rm) (z : Bool) {t : FVal} (h : t.isNan = false) :
    F.Sums rm z [t.term] (F.sum rm z [t]) :=
  sum_sums hF rm z (ts := [t]) (by simpa using h)

theorem sum_sums_two (hF : F.Usual) (rm : Rm) (z : Bool) {t u : FVal} (ht : t.isNan = false) (hu : u.isNan = false) :
    F.Sums rm z [t.term, u.term] (F.sum rm z [t, u]) :=
  sum_sums hF rm z (ts := [t, u]) (by simp [ht, hu])

/-! ### The operations -/

theorem add_eq (rm : Rm) (z : Bool) (a b : ℕ) : F.add rm z a b =
    F.passNan [F.value (F.flushIn z a), F.value (F.flushIn z b)] (F.sum rm z [F.value (F.flushIn z a), F.value (F.flushIn z b)]) := rfl

theorem sub_eq (rm : Rm) (z : Bool) (a b : ℕ) : F.sub rm z a b =
    F.passNan [F.value (F.flushIn z a), (F.value (F.flushIn z b)).negate]
      (F.sum rm z [F.value (F.flushIn z a), (F.value (F.flushIn z b)).negate]) := rfl

/-- A product rounded, or the invalid operation where there is none. -/
def sumOfProduct (F : Fmt) (rm : Rm) (z : Bool) (product : Option FVal) (others : List FVal) : FRes :=
  match product with
  | none => F.invalid
  | some t => F.sum rm z (t :: others)

theorem mul_eq (rm : Rm) (z : Bool) (a b : ℕ) : F.mul rm z a b =
    F.passNan [F.value (F.flushIn z a), F.value (F.flushIn z b)]
      (F.sumOfProduct rm z ((F.value (F.flushIn z a)).mul (F.value (F.flushIn z b))) []) := rfl

/-- FADD passes a NaN on or rounds the sum (R105, R118). -/
theorem add_adds (hF : F.Usual) (rm : Rm) (z : Bool) (a b : ℕ) : F.Adds rm z a b (F.add rm z a b) := by
  rw [add_eq]
  refine ⟨fun ha => passNan_two_left hF ha (signalling_value hF z b), fun ha hb => ?_, fun ha hb => ?_⟩
  · rw [hb.value hF]
    exact passNan_two_right hF ha hb
  · have hna := not_isNan_value hF ha z
    have hnb := not_isNan_value hF hb z
    rw [passNan_two_none hF ha hnb, ← term_value hF ha, ← term_value hF hb]
    exact sum_sums_two hF rm z hna hnb

theorem sub_nan_left (hF : F.Usual) (ha : F.IsNan a) :
    (F.sub rm z a b).Is (a ||| 2 ^ (F.fb - 1)) 0x10 (F.IsSnan a ∨ F.IsSnan b) := by
  rw [sub_eq]
  exact passNan_two_left hF ha (by rw [signalling_negate, signalling_value hF])

theorem sub_nan_right (hF : F.Usual) (ha : ¬F.IsNan a) (hb : F.IsNan b) :
    (F.sub rm z a b).Is (b ||| 2 ^ (F.fb - 1)) 0x10 (F.IsSnan b) := by
  rw [sub_eq, hb.value hF]
  exact passNan_two_right hF ha hb

theorem sub_sums (hF : F.Usual) (ha : ¬F.IsNan a) (hb : ¬F.IsNan b) :
    F.Sums rm z [F.term z a, (!F.minus b, -F.ext z b)] (F.sub rm z a b) := by
  have hna := not_isNan_value hF ha z
  have hnb := not_isNan_value hF hb z
  have hneg := FVal.negate_term hnb
  rw [term_value hF hb, term] at hneg
  rw [sub_eq, passNan_two_none hF ha (by rwa [FVal.negate_isNan]), ← term_value hF ha, ← hneg]
  exact sum_sums_two hF rm z hna (by rwa [FVal.negate_isNan])

theorem mul_nan_left (hF : F.Usual) (ha : F.IsNan a) :
    (F.mul rm z a b).Is (a ||| 2 ^ (F.fb - 1)) 0x10 (F.IsSnan a ∨ F.IsSnan b) := by
  rw [mul_eq]
  exact passNan_two_left hF ha (signalling_value hF z b)

theorem mul_nan_right (hF : F.Usual) (ha : ¬F.IsNan a) (hb : F.IsNan b) :
    (F.mul rm z a b).Is (b ||| 2 ^ (F.fb - 1)) 0x10 (F.IsSnan b) := by
  rw [mul_eq, hb.value hF]
  exact passNan_two_right hF ha hb

theorem mul_invalid (hF : F.Usual) (h : F.ZeroTimesInf z a b) : F.Invalid (F.mul rm z a b) := by
  obtain ⟨ha, hb⟩ := h.not_isNan hF
  rw [mul_eq, passNan_two_none hF ha (not_isNan_value hF hb z), (mul_eq_none_iff hF ha hb).2 h]
  exact F.invalid_spec

theorem mul_sums (hF : F.Usual) (ha : ¬F.IsNan a) (hb : ¬F.IsNan b) (h : ¬F.ZeroTimesInf z a b) :
    F.Sums rm z [termMul (F.term z a) (F.term z b)] (F.mul rm z a b) := by
  obtain ⟨t, ht, hnan, hterm⟩ := exists_mul hF ha hb h
  rw [mul_eq, passNan_two_none hF ha (not_isNan_value hF hb z), ht, ← hterm]
  exact sum_sums_one hF rm z hnan

/-- FFMA, by the values of its operands and whether the first two are a zero and an infinity. -/
theorem fma_eq (rm : Rm) (z : Bool) (a b c : ℕ) : F.fma rm z a b c =
    let x := F.value (F.flushIn z a)
    let y := F.value (F.flushIn z b)
    let w := F.value (F.flushIn z c)
    match F.firstNan [x, y, w] with
    | some n =>
      { bits := n
        flags := F.snan [x, y, w] ||| (if decide (F.firstNan [x, y] = none) && decide (x.mul y = none) then fNV else 0) }
    | none => F.sumOfProduct rm z (x.mul y) [w] := rfl

/-- The NaN rules of FFMA and its sum (R105, R106, R118). -/
theorem fma_spec (hF : F.Usual) (rm : Rm) (z : Bool) (a b c : ℕ) :
    let r := F.fma rm z a b c
    (F.IsNan a → r.Is (a ||| 2 ^ (F.fb - 1)) 0x10 (F.IsSnan a ∨ F.IsSnan b ∨ F.IsSnan c)) ∧
    (¬F.IsNan a → F.IsNan b → r.Is (b ||| 2 ^ (F.fb - 1)) 0x10 (F.IsSnan b ∨ F.IsSnan c)) ∧
    (¬F.IsNan a → ¬F.IsNan b → F.IsNan c → r.Is (c ||| 2 ^ (F.fb - 1)) 0x10 (F.IsSnan c ∨ F.ZeroTimesInf z a b)) ∧
    (F.ZeroTimesInf z a b → ¬F.IsNan c → F.Invalid r) ∧
    (¬F.IsNan a → ¬F.IsNan b → ¬F.IsNan c → ¬F.ZeroTimesInf z a b →
      F.Sums rm z [termMul (F.term z a) (F.term z b), F.term z c] r) := by
  intro r
  have hsa := signalling_value hF z a
  have hsb := signalling_value hF z b
  have hsc := signalling_value hF z c
  have hnot {d : ℕ} (h : ¬F.IsNan d) : ¬F.IsSnan d := fun hs => h hs.1
  have hr : r = F.fma rm z a b c := rfl
  rw [fma_eq] at hr
  refine ⟨fun ha => ?_, fun ha hb => ?_, fun ha hb hc => ?_, fun hzi hc => ?_, fun ha hb hc hzi => ?_⟩
  · rw [ha.value hF] at hr hsa
    rw [hr]
    refine FRes.is_nv_or ?_
    simp [firstNan_nan, hsa, hsb, hsc]
  · have hna := not_isNan_value hF ha z
    rw [hb.value hF] at hr hsb
    simp only [firstNan_cons hna, firstNan_nan] at hr
    rw [hr]
    refine FRes.is_nv_or ?_
    simp [hsa, hsb, hsc, hnot ha]
  · have hna := not_isNan_value hF ha z
    have hnb := not_isNan_value hF hb z
    rw [hc.value hF] at hr hsc
    simp only [firstNan_cons hna, firstNan_cons hnb, firstNan_nan] at hr
    rw [hr]
    refine FRes.is_nv_or ?_
    simp [firstNan, hsa, hsb, hsc, hnot ha, hnot hb, mul_eq_none_iff hF ha hb]
  · obtain ⟨ha, hb⟩ := hzi.not_isNan hF
    simp only [firstNan_cons (not_isNan_value hF ha z), firstNan_cons (not_isNan_value hF hb z),
      firstNan_cons (not_isNan_value hF hc z), (mul_eq_none_iff hF ha hb).2 hzi] at hr
    rw [hr]
    exact F.invalid_spec
  · obtain ⟨t, ht, hnan, hterm⟩ := exists_mul hF ha hb hzi
    have hnc := not_isNan_value hF hc z
    simp only [firstNan_cons (not_isNan_value hF ha z), firstNan_cons (not_isNan_value hF hb z), firstNan_cons hnc, ht] at hr
    rw [hr, ← hterm, ← term_value hF hc]
    exact sum_sums_two hF rm z hnan hnc

end Fmt
end Sys2Proof.Machine
end

section
/-! FDIV and FSQRT (R119): a quotient or root cut short, with a last bit that says whether anything is missing, rounds as the
exact value does. -/

namespace Sys2Proof.Machine

/-! ### Values cut short -/

/-- A value between two neighbouring multiples of 2^g, or at the lower one, is on the same side of every multiple of 2^g as the
lower one with a last bit for the rest. -/
theorem sameSide_sticky {q : ℕ} {g : ℤ} {v : ℝ} (exact : Prop) [Decidable exact] (heq : exact → v = q * 2 ^ g)
    (hlt : ¬exact → q * 2 ^ g < v ∧ v < (q + 1) * 2 ^ g) :
    SameSide g ((2 * q + (if exact then 0 else 1) : ℕ) * 2 ^ (g - 1)) v := by
  have hpos : (0 : ℝ) < 2 ^ (g - 1) := by positivity
  have hg : (2 : ℝ) ^ g = 2 * 2 ^ (g - 1) := by rw [mul_comm, ← zpow_add_one₀ two_ne_zero, Int.sub_add_cancel]
  split
  next h =>
    have hv : ((2 * q + 0 : ℕ) : ℝ) * 2 ^ (g - 1) = v := by rw [heq h, hg]; push_cast; ring
    rw [hv]
    exact SameSide.refl g v
  next h =>
    obtain ⟨hlo, hhi⟩ := hlt h
    apply SameSide.of_between (n := q)
    · rw [hg]; push_cast; nlinarith
    · rw [hg]; push_cast; nlinarith
    · exact_mod_cast hlo
    · exact_mod_cast hhi

/-- A number cut short with enough bits has the binade of the value that it was cut from, and rounds as that one. -/
theorem Fmt.round_sticky {F : Fmt} (hF : F.Usual) (rm : Rm) (neg z : Bool) {q : ℕ} {g : ℤ} {v : ℝ} (hq : 2 ^ (F.fb + 2) ≤ q) (hv : 0 < v)
    {exact : Prop} [Decidable exact] (heq : exact → v = q * 2 ^ g) (hlt : ¬exact → q * 2 ^ g < v ∧ v < (q + 1) * 2 ^ g) :
    let m := 2 * q + (if exact then 0 else 1)
    m ≠ 0 ∧ Int.log 2 ((m : ℝ) * 2 ^ (g - 1)) = Int.log 2 v ∧
      F.RoundsTo rm neg v z (F.flushOut z neg (F.round rm neg m (g - 1))) := by
  intro m
  have hq0 : 0 < q := (Nat.two_pow_pos _).trans_le hq
  have hm : m ≠ 0 := by omega
  have hside := sameSide_sticky exact heq hlt
  have hlog : F.fb + 2 ≤ m.log2 := (Nat.le_log2 hm).2 (by omega)
  have hunit : g < F.unit ((m : ℝ) * 2 ^ (g - 1)) := by
    rw [unit, log_number hm]
    omega
  refine ⟨hm, hside.log_eq (by positivity) hv ?_, (F.round_roundsTo rm neg hm (g - 1) hF z).sameSide hside (by positivity) hv hunit⟩
  show (2 : ℝ) ^ g ≤ m * 2 ^ (g - 1)
  refine (zpow_le_zpow_right₀ one_le_two ?_).trans (log_bounds (by positivity)).1
  rw [unit] at hunit
  omega

/-! ### Quotients -/

section

variable {m₁ m₂ : ℕ} (h₁ : m₁ ≠ 0) (h₂ : m₂ ≠ 0) (e₁ e₂ : ℤ) (bits : ℕ)
include h₁ h₂

theorem two_pow_le_quotient : 2 ^ (bits + 1) ≤ m₁ * 2 ^ (bits + m₂.log2 + 2) / m₂ := by
  rw [Nat.le_div_iff_mul_le (Nat.pos_of_ne_zero h₂)]
  have hlt : m₂ ≤ 2 ^ (m₂.log2 + 1) := Nat.lt_log2_self.le
  calc 2 ^ (bits + 1) * m₂ ≤ 2 ^ (bits + 1) * 2 ^ (m₂.log2 + 1) := Nat.mul_le_mul_left _ hlt
    _ = 2 ^ (bits + m₂.log2 + 2) := by rw [← pow_add]; congr 1; omega
    _ ≤ m₁ * 2 ^ (bits + m₂.log2 + 2) := Nat.le_mul_of_pos_left _ (Nat.pos_of_ne_zero h₁)

/-- The quotient of the model rounds as the exact quotient does. -/
theorem Fmt.round_quotient {F : Fmt} (hF : F.Usual) (rm : Rm) (neg z : Bool) (hbits : F.fb + 1 ≤ bits) :
    let q := quotient m₁ e₁ m₂ e₂ bits
    q.1 ≠ 0 ∧ Int.log 2 ((q.1 : ℝ) * 2 ^ q.2) = Int.log 2 ((m₁ : ℝ) * 2 ^ e₁ / (m₂ * 2 ^ e₂)) ∧
      F.RoundsTo rm neg (m₁ * 2 ^ e₁ / (m₂ * 2 ^ e₂)) z (F.flushOut z neg (F.round rm neg q.1 q.2)) := by
  have hm₂ : (0 : ℝ) < m₂ := by positivity
  set k := bits + m₂.log2 + 2 with hk
  have hv : (m₁ : ℝ) * 2 ^ e₁ / (m₂ * 2 ^ e₂) = ((m₁ * 2 ^ k : ℕ) : ℝ) / m₂ * 2 ^ (e₁ - e₂ - k) := by
    rw [zpow_sub₀ two_ne_zero, zpow_sub₀ two_ne_zero, zpow_natCast]
    push_cast
    field_simp
  refine Fmt.round_sticky hF rm neg z (exact := m₁ * 2 ^ k % m₂ = 0)
    ((Nat.pow_le_pow_right two_pos (by omega)).trans (two_pow_le_quotient h₁ h₂ bits)) (by positivity) ?_ ?_
  · intro hmod
    rw [hv, Nat.cast_div (Nat.dvd_of_mod_eq_zero hmod) hm₂.ne']
  · intro hmod
    have hsplit := Nat.div_add_mod (m₁ * 2 ^ k) m₂
    have hlt := Nat.mod_lt (m₁ * 2 ^ k) (Nat.pos_of_ne_zero h₂)
    rw [hv]
    constructor
    · refine mul_lt_mul_of_pos_right ?_ (by positivity)
      rw [lt_div_iff₀ hm₂]
      exact_mod_cast (by rw [mul_comm]; omega : m₁ * 2 ^ k / m₂ * m₂ < m₁ * 2 ^ k)
    · refine mul_lt_mul_of_pos_right ?_ (by positivity)
      rw [div_lt_iff₀ hm₂]
      exact_mod_cast (by rw [add_mul, mul_comm (_ / _)]; omega : m₁ * 2 ^ k < (m₁ * 2 ^ k / m₂ + 1) * m₂)

end

/-! ### Square roots -/

/-- Newton's iteration ends at the integer square root: every step halves the distance at least. -/
theorem isqrtFrom_eq {n : ℕ} (hn : 0 < Nat.sqrt n) (fuel x : ℕ) (hle : Nat.sqrt n ≤ x) (hfuel : x < Nat.sqrt n + 2 ^ fuel) :
    isqrtFrom fuel n x = Nat.sqrt n := by
  induction fuel generalizing x with
  | zero => rw [isqrtFrom]; omega
  | succ fuel ih =>
    have hx := hn.trans_le hle
    have hmean : Nat.sqrt n ≤ (x + n / x) / 2 := by
      have hprod : (2 * Nat.sqrt n - x) * x ≤ n := by
        refine le_trans ?_ (Nat.sqrt_le n)
        rcases Nat.le_total (2 * Nat.sqrt n) x with h | h
        · rw [Nat.sub_eq_zero_of_le h, Nat.zero_mul]; exact Nat.zero_le _
        · zify [h]
          nlinarith [sq_nonneg ((Nat.sqrt n : ℤ) - x)]
      have := (Nat.le_div_iff_mul_le hx).2 hprod
      omega
    have hhalf : Nat.sqrt n < x → n / x ≤ Nat.sqrt n := fun h => by
      rw [← Nat.lt_succ_iff, Nat.div_lt_iff_lt_mul hx]
      exact (Nat.lt_succ_sqrt n).trans_le (Nat.mul_le_mul_left _ h)
    rw [isqrtFrom]
    rcases hle.eq_or_lt with heq | hlt
    · rw [if_neg (by omega), heq]
    · have hdown := hhalf hlt
      rw [pow_succ] at hfuel
      simp only [show (x + n / x) / 2 < x by omega, ↓reduceIte]
      exact ih _ hmean (by omega)

theorem isqrt_eq (n : ℕ) : isqrt n = Nat.sqrt n := by
  by_cases h : n = 0
  · rw [h]; rfl
  · rw [isqrt, if_neg h]
    have hlt : Nat.sqrt n < 2 ^ (n.log2 / 2 + 1) := by
      rw [Nat.sqrt_lt', ← pow_mul]
      exact Nat.lt_log2_self.trans_le (Nat.pow_le_pow_right two_pos (by omega))
    refine isqrtFrom_eq (Nat.sqrt_pos.2 (Nat.pos_of_ne_zero h)) _ _ hlt.le ?_
    have : 2 ^ (n.log2 / 2 + 1) < 2 ^ (n.log2 + 2) := Nat.pow_lt_pow_right one_lt_two (by omega)
    omega

theorem sqrt_bounds (n : ℕ) : (Nat.sqrt n : ℝ) ≤ √n ∧ √n < Nat.sqrt n + 1 :=
  ⟨Real.nat_sqrt_le_real_sqrt, Real.real_sqrt_lt_nat_sqrt_succ⟩

/-- A square root with the exponent made even. -/
theorem sqrt_mul_zpow (m : ℕ) (e : ℤ) :
    √((m : ℝ) * 2 ^ e) = √((if e % 2 = 0 then m else 2 * m : ℕ) : ℝ) * 2 ^ ((if e % 2 = 0 then e else e - 1) / 2) := by
  have hsq (x : ℝ) (k : ℤ) : √(x * 2 ^ (2 * k)) = √x * 2 ^ k := by
    rw [mul_comm 2 k, zpow_mul, Real.sqrt_mul' _ (by positivity)]
    congr 1
    exact_mod_cast Real.sqrt_sq (by positivity : (0 : ℝ) ≤ 2 ^ k)
  split
  next h =>
    obtain ⟨k, rfl⟩ : ∃ k, e = 2 * k := ⟨e / 2, by omega⟩
    rw [hsq, Int.mul_ediv_cancel_left _ two_ne_zero]
  next h =>
    obtain ⟨k, rfl⟩ : ∃ k, e = 2 * k + 1 := ⟨e / 2, by omega⟩
    rw [add_sub_cancel_right, Int.mul_ediv_cancel_left _ two_ne_zero, ← hsq, zpow_add_one₀ two_ne_zero]
    congr 1
    push_cast
    ring

/-- The root of the model rounds as the exact root does. -/
theorem Fmt.round_root {F : Fmt} (hF : F.Usual) (rm : Rm) (neg z : Bool) {m : ℕ} (hm : m ≠ 0) (e : ℤ) {bits : ℕ} (hbits : F.fb + 2 ≤ bits) :
    let r := root m e bits
    r.1 ≠ 0 ∧ Int.log 2 ((r.1 : ℝ) * 2 ^ r.2) = Int.log 2 √((m : ℝ) * 2 ^ e) ∧
      F.RoundsTo rm neg √((m : ℝ) * 2 ^ e) z (F.flushOut z neg (F.round rm neg r.1 r.2)) := by
  set m' := if e % 2 = 0 then m else 2 * m with hm'
  set e' := if e % 2 = 0 then e else e - 1 with he'
  have hm'0 : m' ≠ 0 := by rw [hm']; split <;> omega
  set n := m' * 2 ^ (2 * bits) with hn
  have hsqrt : √(n : ℝ) = √(m' : ℝ) * 2 ^ bits := by
    rw [hn, mul_comm 2 bits, pow_mul, Nat.cast_mul, Nat.cast_pow, Real.sqrt_mul' _ (by positivity), Real.sqrt_sq (by positivity)]
    push_cast
    rfl
  have hv : √((m : ℝ) * 2 ^ e) = √(n : ℝ) * 2 ^ (e' / 2 - bits) := by
    rw [sqrt_mul_zpow, ← hm', ← he', hsqrt, zpow_sub₀ two_ne_zero, zpow_natCast]
    field_simp
  have hroot : root m e bits = (2 * Nat.sqrt n + (if Nat.sqrt n * Nat.sqrt n = n then 0 else 1), e' / 2 - bits - 1) := by
    rw [root, isqrt_eq]
  have hbig : 2 ^ (F.fb + 2) ≤ Nat.sqrt n := by
    rw [Nat.le_sqrt, ← pow_add]
    exact (Nat.pow_le_pow_right two_pos (by omega)).trans (Nat.le_mul_of_pos_left _ (Nat.pos_of_ne_zero hm'0))
  rw [hroot]
  refine Fmt.round_sticky hF rm neg z (exact := Nat.sqrt n * Nat.sqrt n = n) hbig (by positivity) (fun h => ?_) (fun h => ?_)
  · rw [hv]
    congr 1
    nth_rewrite 1 [← h]
    rw [Nat.cast_mul, Real.sqrt_mul_self (Nat.cast_nonneg _)]
  · obtain ⟨hlo, hhi⟩ := sqrt_bounds n
    have hne : (Nat.sqrt n : ℝ) ≠ √n := fun heq => h (by
      have := Real.mul_self_sqrt (Nat.cast_nonneg (α := ℝ) n)
      rw [← heq] at this
      exact_mod_cast this)
    rw [hv]
    exact ⟨mul_lt_mul_of_pos_right (lt_of_le_of_ne hlo hne) (by positivity), mul_lt_mul_of_pos_right hhi (by positivity)⟩

/-! ### The operations -/

namespace Fmt

variable {F : Fmt} {rm : Rm} {z : Bool} {a b : ℕ}

theorem div_passNan (rm : Rm) (z : Bool) (a b : ℕ) : ∃ other, F.div rm z a b =
    F.passNan [F.value (F.flushIn z a), F.value (F.flushIn z b)] other := ⟨_, rfl⟩

theorem div_nan_left (hF : F.Usual) (ha : F.IsNan a) :
    (F.div rm z a b).Is (a ||| 2 ^ (F.fb - 1)) 0x10 (F.IsSnan a ∨ F.IsSnan b) := by
  obtain ⟨other, h⟩ := div_passNan (F := F) rm z a b
  rw [h]
  exact passNan_two_left hF ha (signalling_value hF z b)

theorem div_nan_right (hF : F.Usual) (ha : ¬F.IsNan a) (hb : F.IsNan b) :
    (F.div rm z a b).Is (b ||| 2 ^ (F.fb - 1)) 0x10 (F.IsSnan b) := by
  obtain ⟨other, h⟩ := div_passNan (F := F) rm z a b
  rw [h, hb.value hF]
  exact passNan_two_right hF ha hb

theorem div_inf_inf (hF : F.Usual) (ha : F.IsInf a) (hb : F.IsInf b) : F.Invalid (F.div rm z a b) := by
  rw [div, ha.value hF, hb.value hF]
  exact F.invalid_spec

theorem div_inf_finite (hF : F.Usual) (ha : F.IsInf a) (hb : F.IsFinite b) :
    (F.div rm z a b).Is (F.inf (F.minus a ^^ F.minus b)) 0 True := by
  rw [div, ha.value hF, hb.value hF]
  exact FRes.is_true rfl

theorem div_finite_inf (hF : F.Usual) (ha : F.IsFinite a) (hb : F.IsInf b) :
    (F.div rm z a b).Is (F.sign (F.minus a ^^ F.minus b)) 0 True := by
  rw [div, ha.value hF, hb.value hF]
  exact FRes.is_true rfl

/-- FDIV of two finite operands, by their significands. -/
theorem div_finite (hF : F.Usual) (ha : F.IsFinite a) (hb : F.IsFinite b) : F.div rm z a b =
    if F.sigOf (F.flushed z b) = 0 then
      (if F.sigOf (F.flushed z a) = 0 then F.invalid else { bits := F.inf (F.minus a ^^ F.minus b), flags := fDZ })
    else if F.sigOf (F.flushed z a) = 0 then { bits := F.sign (F.minus a ^^ F.minus b) }
    else
      let q := quotient (F.sigOf (F.flushed z a)) (F.expOf (F.flushed z a)) (F.sigOf (F.flushed z b)) (F.expOf (F.flushed z b)) (F.fb + 4)
      F.deliver rm z (F.minus a ^^ F.minus b) q.1 q.2 := by
  rw [div, ha.value hF, hb.value hF]
  rfl

theorem div_zero_zero (hF : F.Usual) (ha : F.IsZero z a) (hb : F.IsZero z b) : F.Invalid (F.div rm z a b) := by
  rw [div_finite hF (ha.isFinite hF) (hb.isFinite hF), if_pos (sigOf_flushed_eq_zero_iff.2 hb), if_pos (sigOf_flushed_eq_zero_iff.2 ha)]
  exact F.invalid_spec

theorem div_by_zero (hF : F.Usual) (ha : F.IsFinite a) (ha0 : ¬F.IsZero z a) (hb : F.IsZero z b) :
    (F.div rm z a b).Is (F.inf (F.minus a ^^ F.minus b)) 0x08 True := by
  rw [div_finite hF ha (hb.isFinite hF), if_pos (sigOf_flushed_eq_zero_iff.2 hb), if_neg (mt sigOf_flushed_eq_zero_iff.1 ha0)]
  exact FRes.is_true rfl

theorem div_zero_left (hF : F.Usual) (ha : F.IsZero z a) (hb : F.IsFinite b) (hb0 : ¬F.IsZero z b) :
    (F.div rm z a b).Is (F.sign (F.minus a ^^ F.minus b)) 0 True := by
  rw [div_finite hF (ha.isFinite hF) hb, if_neg (mt sigOf_flushed_eq_zero_iff.1 hb0), if_pos (sigOf_flushed_eq_zero_iff.2 ha)]
  exact FRes.is_true rfl

theorem signed_div_signed (n k : Bool) (x y : ℝ) : signed n x / signed k y = signed (n ^^ k) (x / y) := by
  cases n <;> cases k <;> simp [neg_div, div_neg]

theorem div_rounds (hF : F.Usual) (ha : F.IsFinite a) (ha0 : ¬F.IsZero z a) (hb : F.IsFinite b) (hb0 : ¬F.IsZero z b) :
    F.Rounds rm z (F.num (F.flushed z a) / F.num (F.flushed z b)) (F.div rm z a b) := by
  have hsa : F.sigOf (F.flushed z a) ≠ 0 := mt sigOf_flushed_eq_zero_iff.1 ha0
  have hsb : F.sigOf (F.flushed z b) ≠ 0 := mt sigOf_flushed_eq_zero_iff.1 hb0
  obtain ⟨hq, -, hround⟩ := round_quotient hsa hsb (F.expOf (F.flushed z a)) (F.expOf (F.flushed z b)) (F.fb + 4) hF rm
    (F.minus a ^^ F.minus b) z (by omega)
  rw [div_finite hF ha hb, if_neg hsb, if_neg hsa, num_flushed, num_flushed, signed_div_signed, rounds_signed (by positivity)]
  simpa only [deliver_of_ne_zero hq] using hround

theorem sqrt_nan (hF : F.Usual) (ha : F.IsNan a) : (F.sqrt rm z a).Is (a ||| 2 ^ (F.fb - 1)) 0x10 (F.IsSnan a) := by
  have hs := signalling_value hF z a
  rw [ha.value hF] at hs
  rw [sqrt, ha.value hF]
  refine FRes.is_nv ?_
  simpa using hs

theorem sqrt_inf (hF : F.Usual) (ha : F.IsInf a) (hs : F.minus a = false) (hlt : a < 2 ^ F.width) : (F.sqrt rm z a).Is a 0 True := by
  have hbits : a = F.inf false := by rw [eq_magOf_add_sign hlt, isInf_iff.1 ha, hs]; rfl
  rw [sqrt, ha.value hF, hs]
  show FRes.Is { bits := F.inf false } a 0 True
  rw [← hbits]
  exact FRes.is_true rfl

/-- FSQRT of a finite operand, by its significand. -/
theorem sqrt_finite (hF : F.Usual) (ha : F.IsFinite a) : F.sqrt rm z a =
    if F.sigOf (F.flushed z a) = 0 then { bits := F.sign (F.minus a) }
    else if F.minus a then F.invalid
    else
      let r := root (F.sigOf (F.flushed z a)) (F.expOf (F.flushed z a)) (F.fb + 4)
      F.deliver rm z false r.1 r.2 := by
  rw [sqrt, ha.value hF]

theorem sqrt_zero (hF : F.Usual) (ha : F.IsZero z a) : (F.sqrt rm z a).Is (F.sign (F.minus a)) 0 True := by
  rw [sqrt_finite hF (ha.isFinite hF), if_pos (sigOf_flushed_eq_zero_iff.2 ha)]
  exact FRes.is_true rfl

theorem sqrt_minus (hF : F.Usual) (hs : F.minus a = true) (h0 : ¬F.IsZero z a) (hnan : ¬F.IsNan a) : F.Invalid (F.sqrt rm z a) := by
  rcases (F.kinds a).resolve_left hnan with ha | ha
  · rw [sqrt, ha.value hF, hs]
    exact F.invalid_spec
  · rw [sqrt_finite hF ha, if_neg (mt sigOf_flushed_eq_zero_iff.1 h0), if_pos hs]
    exact F.invalid_spec

theorem sqrt_rounds (hF : F.Usual) (ha : F.IsFinite a) (h0 : ¬F.IsZero z a) (hs : F.minus a = false) :
    F.Rounds rm z √(F.num (F.flushed z a)) (F.sqrt rm z a) := by
  have hsig : F.sigOf (F.flushed z a) ≠ 0 := mt sigOf_flushed_eq_zero_iff.1 h0
  obtain ⟨hr, -, hround⟩ := round_root hF rm false z hsig (F.expOf (F.flushed z a)) (bits := F.fb + 4) (by omega)
  rw [sqrt_finite hF ha, if_neg hsig, hs, num_flushed, hs, signed_false, ← signed_false (√_), rounds_signed (by positivity)]
  simpa only [deliver_of_ne_zero hr, Bool.false_eq_true, ↓reduceIte] using hround

end Fmt

end Sys2Proof.Machine
end

section
/-! FRND, FSCL, FMIN and FMAX on patterns (R120, R129, R130), and the order of values. -/

namespace Sys2Proof.Machine

/-! ### Rounding to an integer -/

section

variable (rm : Rm) (neg : Bool) (m : ℕ) (e : ℤ)

theorem integral_fst : ((integral rm neg m e).1 : ℤ) = rm.integer neg ((m : ℝ) * 2 ^ e) := by
  have h := scaled_eq rm neg m e 0
  rw [zpow_zero, div_one, sub_zero, zero_sub] at h
  rw [← h, integral]
  split <;> rfl

theorem integral_snd : (integral rm neg m e).2 = true ↔ (rm.integer neg ((m : ℝ) * 2 ^ e) : ℝ) ≠ m * 2 ^ e := by
  have h := inexact_iff rm neg m e 0
  rw [Rm.toUnit, zpow_zero, div_one, mul_one, zero_sub] at h
  rw [← h, integral]
  split
  next hle => rw [decide_eq_false (by omega)]; simp
  next hlt => rw [decide_eq_true (by omega : e < 0)]; simp

end

namespace Fmt

variable {F : Fmt} {rm : Rm} {z : Bool} {a b : ℕ}

theorem rint_nan (hF : F.Usual) (ha : F.IsNan a) : (F.rint rm z a).Is (a ||| 2 ^ (F.fb - 1)) 0x10 (F.IsSnan a) := by
  have hs := signalling_value hF z a
  rw [ha.value hF] at hs
  simp only [rint, ha.value hF]
  refine FRes.is_nv ?_
  simpa using hs

theorem flushIn_of_isInf (hF : F.Usual) (ha : F.IsInf a) : F.flushIn z a = a :=
  flushed_of_infBits_le hF (isInf_iff.1 ha).ge

theorem rint_inf (hF : F.Usual) (ha : F.IsInf a) : (F.rint rm z a).Is a 0 True := by
  have h := ha.value hF z
  rw [flushIn_of_isInf hF ha] at h
  simp only [rint, flushIn_of_isInf hF ha, h]
  exact FRes.is_true rfl

/-- FRND of a finite operand, by its significand and exponent. -/
theorem rint_finite (hF : F.Usual) (ha : F.IsFinite a) : F.rint rm z a =
    let m := F.sigOf (F.flushed z a)
    let e := F.expOf (F.flushed z a)
    if m = 0 ∨ 0 ≤ e then { bits := F.flushed z a }
    else
      { bits := (F.deliver rm false (F.minus a) (integral rm (F.minus a) m e).1 0).bits
        flags := if (integral rm (F.minus a) m e).2 then fNX else 0 } := by
  simp only [rint, ha.value hF]
  rfl

theorem flushed_of_isZero (hlt : a < 2 ^ F.width) (h : F.IsZero z a) : F.flushed z a = F.sign (F.minus a) := by
  have := eq_magOf_add_sign (flushed_lt (z := z) hlt)
  rwa [magOf_flushed_eq_zero_iff.2 h, zero_add, minus_flushed] at this

theorem rint_zero (hF : F.Usual) (hlt : a < 2 ^ F.width) (h : F.IsZero z a) : (F.rint rm z a).Is (F.sign (F.minus a)) 0 True := by
  rw [rint_finite hF (h.isFinite hF), ← flushed_of_isZero hlt h]
  simp only [sigOf_flushed_eq_zero_iff.2 h, true_or, ↓reduceIte]
  exact FRes.is_true rfl

theorem num_eq_signed (x : ℕ) : F.num x = signed (F.minus x) |F.num x| := by
  rw [abs_num, num_eq, signed]

theorem isFinite_sign (hF : F.Usual) (neg : Bool) : F.IsFinite (F.sign neg) := by
  have h := magOf_add_sign (F := F) (b := 0) (Nat.two_pow_pos _) neg
  rw [zero_add] at h
  rw [IsFinite, h, infBits]
  exact Nat.mul_pos (Nat.sub_pos_of_lt (Nat.one_lt_two_pow (by have := hF.eb_pos; omega))) (Nat.two_pow_pos _)

theorem num_sign (neg : Bool) : F.num (F.sign neg) = 0 := by
  have h := magOf_add_sign (F := F) (b := 0) (Nat.two_pow_pos _) neg
  rw [zero_add] at h
  rw [num_eq, sigOf_eq_zero_iff.2 h]
  simp

/-- An integer that the format holds is delivered as it is. -/
theorem deliver_integer (hF : F.Usual) (rm : Rm) (neg : Bool) {n : ℕ} (hn : n ≤ 2 ^ F.fb) :
    let bits := (F.deliver rm false neg n 0).bits
    bits < 2 ^ F.width ∧ F.IsFinite bits ∧ F.minus bits = neg ∧ |F.num bits| = n := by
  by_cases h0 : n = 0
  · rw [h0, deliver_zero]
    have hlt := add_sign_lt (F := F) (b := 0) (Nat.two_pow_pos _) neg
    have hminus := minus_add_sign (F := F) (b := 0) (Nat.two_pow_pos _) neg
    rw [zero_add] at hlt hminus
    exact ⟨hlt, isFinite_sign hF neg, hminus, by rw [num_sign, abs_zero, Nat.cast_zero]⟩
  · have hround := F.round_roundsTo rm neg h0 0 hF false
    have hqmin : F.qmin ≤ 0 := by
      have := hF.fb_le_bias
      have := hF.fb_pos
      rw [qmin, emin]; omega
    have hself : F.rounded rm neg ((n : ℝ) * 2 ^ (0 : ℤ)) = (n : ℝ) * 2 ^ (0 : ℤ) :=
      rounded_eq_self (by rw [pow_succ]; have := Nat.two_pow_pos F.fb; omega) h0 hqmin
    have hfits : (n : ℝ) * 2 ^ (0 : ℤ) ≤ F.largest := by
      rw [zpow_zero, mul_one]
      refine le_trans ?_ ((zpow_le_zpow_right₀ one_le_two hF.fb_le_bias).trans F.two_pow_bias_le_largest)
      exact_mod_cast hn
    obtain ⟨hlt, hminus, hfin, hnum, -⟩ := hround.2.2 (by simp) (by rwa [hself])
    rw [deliver_of_ne_zero h0]
    refine ⟨hlt, hfin, hminus, ?_⟩
    rw [hnum, hself, zpow_zero, mul_one]

theorem rint_spec (hF : F.Usual) (hlt : a < 2 ^ F.width) (ha : F.IsFinite a) :
    let r := F.rint rm z a
    r.bits < 2 ^ F.width ∧ F.IsFinite r.bits ∧ F.minus r.bits = F.minus a ∧
      |F.num r.bits| = rm.integer (F.minus a) |F.num (F.flushed z a)| ∧
      (F.num r.bits = F.num (F.flushed z a) → r.flags = 0) ∧ (F.num r.bits ≠ F.num (F.flushed z a) → r.flags = 0x01) := by
  intro r
  have hr : r = _ := rint_finite (rm := rm) (z := z) hF ha
  have habs := F.abs_num (F.flushed z a)
  set m := F.sigOf (F.flushed z a)
  set e := F.expOf (F.flushed z a)
  have hfst := integral_fst rm (F.minus a) m e
  have hsnd := integral_snd rm (F.minus a) m e
  rw [← habs] at hfst hsnd
  by_cases hint : m = 0 ∨ 0 ≤ e
  · simp only [if_pos hint] at hr
    have hself : (rm.integer (F.minus a) |F.num (F.flushed z a)| : ℝ) = |F.num (F.flushed z a)| := by
      rcases hint with h0 | hle
      · simp [habs, h0]
      · by_contra hne
        have := hsnd.2 hne
        simp [integral, hle] at this
    rw [hr, hself]
    exact ⟨flushed_lt hlt, ha.flushed hF z, minus_flushed F z a, rfl, fun _ => rfl, fun h => absurd rfl h⟩
  · simp only [if_neg hint] at hr
    push Not at hint
    have hsmall : (integral rm (F.minus a) m e).1 ≤ 2 ^ F.fb := by
      have hle : rm.integer (F.minus a) |F.num (F.flushed z a)| ≤ ((2 ^ F.fb : ℕ) : ℤ) := by
        apply Rm.integer_le
        rw [habs]
        have hm : (m : ℝ) ≤ 2 ^ F.fb * 2 := by exact_mod_cast (pow_succ 2 F.fb ▸ F.sigOf_lt (F.flushed z a)).le
        have he : (2 : ℝ) ^ e ≤ 2⁻¹ := by
          rw [← zpow_neg_one]
          exact zpow_le_zpow_right₀ one_le_two (by omega)
        have hpos : (0 : ℝ) < 2 ^ e := by positivity
        push_cast
        nlinarith
      rw [← hfst] at hle
      exact_mod_cast hle
    obtain ⟨hbits, hfin, hminus, hnum⟩ := deliver_integer hF rm (F.minus a) hsmall
    have hval : |F.num r.bits| = rm.integer (F.minus a) |F.num (F.flushed z a)| := by
      rw [hr, hnum, ← hfst, Int.cast_natCast]
    have hneg : F.minus r.bits = F.minus (F.flushed z a) := by rw [hr, minus_flushed]; exact hminus
    have heq : F.num r.bits = F.num (F.flushed z a) ↔ (rm.integer (F.minus a) |F.num (F.flushed z a)| : ℝ) = |F.num (F.flushed z a)| := by
      rw [← hval]
      constructor
      · intro h; rw [h]
      · intro h; rw [num_eq_signed r.bits, hneg, h, ← num_eq_signed]
    refine ⟨hr ▸ hbits, hr ▸ hfin, hr ▸ hminus, hval, fun h => ?_, fun h => ?_⟩
    · rw [hr]
      exact if_neg fun h' => hsnd.1 h' (heq.1 h)
    · rw [hr]
      exact if_pos (hsnd.2 (mt heq.2 h))

/-! ### Multiples by powers of two -/

theorem bias_le (hF : F.Usual) : F.bias ≤ 1023 := by
  have h : (2 : ℤ) ^ (F.eb - 1) ≤ 2 ^ 10 := pow_le_pow_right₀ (by decide) (by have := hF.eb_le; omega)
  rw [bias]
  omega

theorem expOf_le (hF : F.Usual) (ha : F.IsFinite a) : F.expOf a ≤ F.bias - F.fb := by
  have heb := two_pow_eb hF
  have hlt := F.expField_lt a
  have hne : F.expField a ≠ 2 ^ F.eb - 1 := fun h => (expField_eq_max_iff.1 h).not_gt ha
  have hbias := hF.fb_le_bias
  have hfb := hF.fb_pos
  obtain ⟨n, hn⟩ : ∃ n, n = 2 ^ F.eb := ⟨_, rfl⟩
  have hcast : (n : ℤ) = 2 * F.bias + 2 := by rw [← heb, hn]; push_cast; rfl
  rw [← hn] at hlt hne
  rw [expOf, qmin, emin]
  omega

theorem scale_nan (hF : F.Usual) (ha : F.IsNan a) (j : ℤ) :
    (F.scale rm z a j).Is (a ||| 2 ^ (F.fb - 1)) 0x10 (F.IsSnan a) := by
  have hs := signalling_value hF z a
  rw [ha.value hF] at hs
  simp only [scale, ha.value hF]
  refine FRes.is_nv ?_
  simpa using hs

theorem scale_inf (hF : F.Usual) (ha : F.IsInf a) (j : ℤ) : (F.scale rm z a j).Is a 0 True := by
  have h := ha.value hF z
  rw [flushIn_of_isInf hF ha] at h
  simp only [scale, flushIn_of_isInf hF ha, h]
  exact FRes.is_true rfl

/-- FSCL of a finite operand, by its significand and exponent. -/
theorem scale_finite (hF : F.Usual) (ha : F.IsFinite a) (j : ℤ) : F.scale rm z a j =
    F.deliver rm z (F.minus a) (F.sigOf (F.flushed z a)) (F.expOf (F.flushed z a) + sat j (-5000) 5000) := by
  simp only [scale, ha.value hF]

theorem scale_zero (hF : F.Usual) (h : F.IsZero z a) (j : ℤ) : (F.scale rm z a j).Is (F.sign (F.minus a)) 0 True := by
  rw [scale_finite hF (h.isFinite hF), sigOf_flushed_eq_zero_iff.2 h, deliver_zero]
  exact FRes.is_true rfl

/-- FSCL rounds the multiple; a factor that is cut off at 2^±5000 is past every number of the format (R130). -/
theorem scale_rounds (hF : F.Usual) (ha : F.IsFinite a) (h0 : ¬F.IsZero z a) (j : ℤ) :
    F.Rounds rm z (F.num (F.flushed z a) * 2 ^ j) (F.scale rm z a j) := by
  have hfin := ha.flushed hF z
  have hm : F.sigOf (F.flushed z a) ≠ 0 := mt sigOf_flushed_eq_zero_iff.1 h0
  have hlog : (F.sigOf (F.flushed z a)).log2 < F.fb + 1 := (Nat.log2_lt hm).2 (F.sigOf_lt _)
  have hmin := F.qmin_le_expOf (F.flushed z a)
  have hmax := expOf_le hF hfin
  have hbias := bias_le hF
  have hfb := hF.fb_le
  have hqmin : F.qmin = 1 - F.bias - F.fb := rfl
  set m := F.sigOf (F.flushed z a)
  set e := F.expOf (F.flushed z a)
  have hpos (k : ℤ) : (0 : ℝ) < m * 2 ^ k := by positivity
  have hv : F.num (F.flushed z a) * 2 ^ j = signed (F.minus a) (m * 2 ^ (e + j)) := by
    rw [num_flushed, signed, signed, zpow_add₀ two_ne_zero]; ring
  have hround : F.RoundsTo rm (F.minus a) (m * 2 ^ (e + sat j (-5000) 5000)) z (F.scale rm z a j) := by
    rw [scale_finite hF ha, deliver_of_ne_zero hm]
    exact F.round_roundsTo rm _ hm _ hF z
  rw [hv, rounds_signed (hpos _)]
  rw [sat] at hround
  split_ifs at hround with hlo hhi
  · refine hround.small hF (hpos _) (hpos _) ?_ ?_ <;>
    · rw [← Nat.cast_ofNat (n := 2), Int.lt_zpow_iff_log_lt one_lt_two (by positivity), Nat.cast_ofNat, log_number hm]
      omega
  · refine hround.large hF (hpos _) (hpos _) ?_ ?_ <;>
    · rw [log_number hm]
      omega
  · exact hround

end Fmt

/-! ### The order of values -/

theorem sumAt_singleton (x : ℤ) (t : FVal) : sumAt x [t] = t.share x := by
  rw [sumAt_eq, List.map_singleton, List.sum_singleton]

/-- The order of values that are no NaN is that of the numbers and infinities that they are (R120, R122). -/
theorem FVal.lt_iff {x y : FVal} (hx : x.isNan = false) (hy : y.isNan = false) : x.lt y = true ↔ x.ext < y.ext := by
  rcases x with b | n | ⟨n, m, e⟩
  · cases hx
  all_goals rcases y with b' | n' | ⟨n', m', e'⟩
  · cases hy
  · cases n <;> cases n' <;> simp [FVal.lt, FVal.ext]
  · cases n <;> simp [FVal.lt, FVal.ext_fin] <;> simp [FVal.ext]
  · cases hy
  · cases n' <;> simp [FVal.lt, FVal.ext_fin] <;> simp [FVal.ext]
  · have hpos : (0 : ℝ) < 2 ^ min e e' := by positivity
    rw [FVal.ext_fin, FVal.ext_fin, EReal.coe_lt_coe_iff, ← FVal.share_spec (fun _ => min_le_left e e'),
      ← FVal.share_spec (fun _ => min_le_right e e'), mul_lt_mul_iff_left₀ hpos, Int.cast_lt, FVal.lt, sumAt_singleton,
      sumAt_singleton, decide_eq_true_eq]

theorem FVal.before_iff {x y : FVal} (hx : x.isNan = false) (hy : y.isNan = false) :
    x.before y = true ↔ x.ext < y.ext ∨ (x.ext = y.ext ∧ x.sign = true ∧ y.sign = false) := by
  have hxy := FVal.lt_iff hx hy
  have hyx := FVal.lt_iff hy hx
  rw [FVal.before, Bool.or_eq_true, hxy, Bool.and_eq_true, Bool.and_eq_true, Bool.not_eq_true', Bool.not_eq_true', Bool.eq_false_iff,
    Ne.eq_def, hyx]
  rcases lt_trichotomy x.ext y.ext with h | h | h
  · simp [h]
  · simp [h]
  · simp [h, h.not_gt, h.ne']

namespace Fmt

variable {F : Fmt} {rm : Rm} {z : Bool} {a b : ℕ}

theorem ext_value (hF : F.Usual) (h : ¬F.IsNan a) (z : Bool) : (F.value (F.flushIn z a)).ext = F.ext z a :=
  congrArg Prod.snd (term_value hF h z)

theorem sign_value (hF : F.Usual) (h : ¬F.IsNan a) (z : Bool) : (F.value (F.flushIn z a)).sign = F.minus a :=
  congrArg Prod.fst (term_value hF h z)

/-- Operands of one sign and one value are one pattern. -/
theorem flushed_eq_of_ext_eq (ha : a < 2 ^ F.width) (hb : b < 2 ^ F.width) (hna : ¬F.IsNan a) (hnb : ¬F.IsNan b)
    (hs : F.minus a = F.minus b) (h : F.ext z a = F.ext z b) : F.flushed z a = F.flushed z b := by
  have hnum {x : ℕ} (hx : F.IsInf x) (r : ℝ) : F.ext z x ≠ r := by
    rw [ext_of_isInf hx]
    split <;> simp
  rcases (F.kinds a).resolve_left hna with ha' | ha' <;> rcases (F.kinds b).resolve_left hnb with hb' | hb'
  · have heq : a = b := by rw [eq_magOf_add_sign ha, eq_magOf_add_sign hb, isInf_iff.1 ha', isInf_iff.1 hb', hs]
    rw [heq]
  · exact absurd (h.trans (ext_of_isFinite hb')) (hnum ha' _)
  · exact absurd (h.symm.trans (ext_of_isFinite ha')) (hnum hb' _)
  · rw [ext_of_isFinite ha', ext_of_isFinite hb', EReal.coe_eq_coe_iff] at h
    exact eq_of_num_eq (flushed_lt ha) (flushed_lt hb) (by rw [minus_flushed, minus_flushed, hs]) (by rw [h])

/-- FMIN and FMAX of operands that are no NaN. -/
theorem minmax_numbers (hF : F.Usual) (hna : ¬F.IsNan a) (hnb : ¬F.IsNan b) (larger : Bool) : F.minmax larger z a b =
    { bits := if larger then (if (F.value (F.flushIn z a)).before (F.value (F.flushIn z b)) then F.flushed z b else F.flushed z a)
        else (if (F.value (F.flushIn z b)).before (F.value (F.flushIn z a)) then F.flushed z b else F.flushed z a) } := by
  simp only [minmax, not_isNan_value hF hna, not_isNan_value hF hnb]
  rfl

/-- FMIN and FMAX give one of their operands (R120). -/
theorem minmax_picks (hF : F.Usual) (ha : a < 2 ^ F.width) (hb : b < 2 ^ F.width) (larger : Bool) :
    F.Picks z larger a b (F.minmax larger z a b) := by
  have hsnan : (F.snan [F.value (F.flushIn z a), F.value (F.flushIn z b)] : BitVec 5) =
      if F.signalling (F.value (F.flushIn z a)) || F.signalling (F.value (F.flushIn z b)) then fNV else 0 := by
    simp [snan]
  have hnv : (F.signalling (F.value (F.flushIn z a)) || F.signalling (F.value (F.flushIn z b))) = true ↔ F.IsSnan a ∨ F.IsSnan b := by
    rw [Bool.or_eq_true, signalling_value hF, signalling_value hF]
  have hnan {x : ℕ} (hx : F.IsNan x) : (F.value (F.flushIn z x)).isNan = true := (isNan_value hF z x).2 hx
  refine ⟨fun hna hnb => ?_, fun hna hnb => ?_, fun hna hnb => ?_, fun hna hnb => ?_⟩
  · have hbits : F.quiet (F.flushIn z a) = a ||| 2 ^ (F.fb - 1) := by
      rw [flushIn_eq, flushed_of_infBits_le hF (isNan_iff.1 hna).le, quiet]
    simp only [minmax, hnan hna, hnan hnb, hsnan, hbits]
    exact FRes.is_nv hnv
  · simp only [minmax, hnan hna, not_isNan_value hF hnb, hsnan]
    exact FRes.is_nv hnv
  · simp only [minmax, hnan hnb, not_isNan_value hF hna, hsnan]
    exact FRes.is_nv hnv
  · have hab := FVal.before_iff (not_isNan_value hF hna z) (not_isNan_value hF hnb z)
    have hba := FVal.before_iff (not_isNan_value hF hnb z) (not_isNan_value hF hna z)
    have hsame := flushed_eq_of_ext_eq (z := z) ha hb hna hnb
    rw [ext_value hF hna, ext_value hF hnb, sign_value hF hna, sign_value hF hnb] at hab hba
    have htie (h : ¬(F.ext z a < F.ext z b)) (h' : ¬(F.ext z b < F.ext z a)) (hs : F.minus a = F.minus b) :
        F.flushed z b = F.flushed z a := (hsame hs (le_antisymm (not_lt.1 h') (not_lt.1 h))).symm
    rw [minmax_numbers hF hna hnb]
    refine ⟨fun hless => FRes.is_true ?_, fun hless => FRes.is_true ?_⟩ <;> congr 1 <;> cases larger
    · have hnot : ¬((F.value (F.flushIn z b)).before (F.value (F.flushIn z a)) = true) := by
        rw [hba]
        rcases hless with h | ⟨h, hs⟩
        · simp [h.not_gt, h.ne']
        · simp [h, hs]
      simp [hnot]
    · rcases hless with h | ⟨h, hs⟩
      · simp [hab.2 (.inl h)]
      · cases hs' : F.minus b
        · simp [hab.2 (.inr ⟨h, hs, hs'⟩)]
        · simp [htie (by simp [h]) (by simp [h]) (hs.trans hs'.symm)]
    · push Not at hless
      obtain ⟨hle, hs⟩ := hless
      rcases hle.lt_or_eq with h | h
      · simp [hba.2 (.inl h)]
      · have hs := Bool.eq_false_iff.2 (hs h.symm)
        cases hs' : F.minus b
        · simp [htie (by simp [h]) (by simp [h]) (hs.trans hs'.symm)]
        · simp [hba.2 (.inr ⟨h, hs', hs⟩)]
    · have hnot : ¬((F.value (F.flushIn z a)).before (F.value (F.flushIn z b)) = true) := by
        rw [hab]
        push Not at hless ⊢
        exact ⟨hless.1, fun h hs => absurd hs (hless.2 h)⟩
      simp [hnot]

end Fmt
end Sys2Proof.Machine
end

section
/-! Comparisons, classes and conversions of patterns (R122, R123, R126 to R128). -/

namespace Sys2Proof.Machine.Fmt

variable {F G : Fmt} {rm : Rm} {z : Bool} {a b : ℕ}

/-! ### Comparisons -/

/-- FCMP: the outcome of each condition, and NV (R122). -/
theorem cmp_spec (hF : F.Usual) (cc : FCc) (z : Bool) (a b : ℕ) :
    let x := F.ext z a
    let y := F.ext z b
    let un : Prop := F.IsNan a ∨ F.IsNan b
    let t := F.cmp cc z a b
    let quiet : Prop := cc ∈ [FCc.eq, .ne, .un, .ord]
    let nv : Prop := if quiet then F.IsSnan a ∨ F.IsSnan b else un
    (t.1 = true ↔ match cc with
      | .eq => ¬un ∧ x = y
      | .ne => un ∨ x ≠ y
      | .lt => ¬un ∧ x < y
      | .le => ¬un ∧ x ≤ y
      | .gt => ¬un ∧ y < x
      | .ge => ¬un ∧ y ≤ x
      | .un => un
      | .ord => ¬un) ∧ (nv → t.2 = 0x10) ∧ (¬nv → t.2 = 0) := by
  intro x y un t quiet nv
  set X := F.value (F.flushIn z a) with hX
  set Y := F.value (F.flushIn z b) with hY
  have hun : (X.isNan || Y.isNan) = true ↔ un := by rw [Bool.or_eq_true, isNan_value hF, isNan_value hF]
  refine ⟨?outcome, ?flags⟩
  case outcome =>
    by_cases h : un
    · cases cc <;> simp [t, cmp, ← hX, ← hY, hun.2 h, h]
    · obtain ⟨hna, hnb⟩ := not_or.1 h
      have hlt : X.lt Y = true ↔ x < y := by
        rw [FVal.lt_iff (not_isNan_value hF hna z) (not_isNan_value hF hnb z), ext_value hF hna, ext_value hF hnb]
      have hgt : Y.lt X = true ↔ y < x := by
        rw [FVal.lt_iff (not_isNan_value hF hnb z) (not_isNan_value hF hna z), ext_value hF hna, ext_value hF hnb]
      have hle : X.lt Y = false ↔ y ≤ x := by rw [← not_lt, ← hlt, Bool.not_eq_true]
      have hge : Y.lt X = false ↔ x ≤ y := by rw [← not_lt, ← hgt, Bool.not_eq_true]
      have hnan : (X.isNan || Y.isNan) = false := Bool.eq_false_iff.2 (mt hun.1 h)
      cases cc <;> simp only [t, cmp, ← hX, ← hY, hnan, h]
      case eq =>
        rw [Bool.and_eq_true, Bool.and_eq_true, Bool.not_eq_true', Bool.not_eq_true', Bool.not_eq_true', hle, hge]
        simpa [and_comm] using le_antisymm_iff.symm
      case ne => simp [hlt, hgt, lt_or_lt_iff_ne]
      case lt => simp [hlt]
      case le => simp [hge]
      case gt => simp [hgt]
      case ge => simp [hle]
      case un => simp
      case ord => simp
  case flags =>
    have hs : (F.signalling X || F.signalling Y) = true ↔ F.IsSnan a ∨ F.IsSnan b := by
      rw [Bool.or_eq_true, signalling_value hF, signalling_value hF]
    have hsnan : F.snan [X, Y] = if F.signalling X || F.signalling Y then fNV else 0 := by simp [snan]
    cases cc
    case eq => simpa [quiet, nv, t, cmp, ← hX, ← hY, hsnan] using (FRes.is_nv (bits := 0) hs).2
    case ne => simpa [quiet, nv, t, cmp, ← hX, ← hY, hsnan] using (FRes.is_nv (bits := 0) hs).2
    case un => simpa [quiet, nv, t, cmp, ← hX, ← hY, hsnan] using (FRes.is_nv (bits := 0) hs).2
    case ord => simpa [quiet, nv, t, cmp, ← hX, ← hY, hsnan] using (FRes.is_nv (bits := 0) hs).2
    all_goals simpa [quiet, nv, t, cmp, ← hX, ← hY] using (FRes.is_nv (bits := 0) hun).2

/-! ### Classes -/

theorem classOf_snan (h : F.IsSnan a) : F.classOf a = 2 ^ 8 := by
  have hs : F.frac a / 2 ^ (F.fb - 1) = 0 := Nat.div_eq_of_lt h.2
  simp [classOf, value_of_isNan h.1, signalling, hs]

theorem classOf_qnan (h : F.IsNan a) (hs : ¬F.IsSnan a) : F.classOf a = 2 ^ 9 := by
  have hs : F.frac a / 2 ^ (F.fb - 1) ≠ 0 := fun h0 =>
    hs ⟨h, ((Nat.div_eq_zero_iff).1 h0).resolve_left (Nat.two_pow_pos _).ne'⟩
  simp [classOf, value_of_isNan h, signalling, hs]

theorem classOf_inf (h : F.IsInf a) : F.classOf a = 2 ^ (if F.minus a then 0 else 7) := by
  simp only [classOf, value_of_isInf h]
  rfl

theorem classOf_finite (h : F.expField a ≠ 2 ^ F.eb - 1) : F.classOf a =
    if F.sigOf a = 0 then 2 ^ (if F.minus a then 3 else 4)
    else if F.expField a = 0 then 2 ^ (if F.minus a then 2 else 5) else 2 ^ (if F.minus a then 1 else 6) := by
  have hfin : F.IsFinite a := not_le.1 (mt expField_eq_max_iff.2 h)
  simp only [classOf, value_of_isFinite hfin]
  rfl

theorem classOf_normal (h0 : F.expField a ≠ 0) (h : F.expField a ≠ 2 ^ F.eb - 1) :
    F.classOf a = 2 ^ (if F.minus a then 1 else 6) := by
  have hsig : F.sigOf a ≠ 0 := by
    rw [sigOf, if_neg h0]
    have := Nat.two_pow_pos F.fb
    omega
  rw [classOf_finite h, if_neg hsig, if_neg h0]

theorem max_ne_zero (hF : F.Usual) : 0 ≠ 2 ^ F.eb - 1 := by
  have : 1 < 2 ^ F.eb := Nat.one_lt_two_pow (by have := hF.eb_pos; omega)
  omega

theorem classOf_subnormal (hF : F.Usual) (h0 : F.expField a = 0) (hf : F.frac a ≠ 0) :
    F.classOf a = 2 ^ (if F.minus a then 2 else 5) := by
  have hsig : F.sigOf a ≠ 0 := by rwa [sigOf, if_pos h0]
  rw [classOf_finite (h0 ▸ max_ne_zero hF), if_neg hsig, if_pos h0]

theorem classOf_zero (hF : F.Usual) (h0 : F.expField a = 0) (hf : F.frac a = 0) :
    F.classOf a = 2 ^ (if F.minus a then 3 else 4) := by
  have hsig : F.sigOf a = 0 := by rwa [sigOf, if_pos h0]
  rw [classOf_finite (h0 ▸ max_ne_zero hF), if_pos hsig]

/-! ### Conversions between formats -/

/-- The top bit of the fraction, set in a pattern of more fields. -/
theorem quiet_add (hG : G.Usual) {f : ℕ} (hf : f < 2 ^ G.fb) (neg : Bool) :
    G.quiet (G.infBits + f + G.sign neg) = G.sign neg + G.infBits + (f ||| 2 ^ (G.fb - 1)) := by
  have htop : 2 ^ (G.fb - 1) < 2 ^ G.fb := Nat.pow_lt_pow_right one_lt_two (by have := hG.fb_pos; omega)
  have hhigh : G.sign neg + G.infBits = 2 ^ G.fb * (neg.toNat * 2 ^ G.eb + (2 ^ G.eb - 1)) := by
    rw [sign_eq, infBits, pow_add]; ring
  rw [quiet, show G.infBits + f + G.sign neg = G.sign neg + G.infBits + f by ring, hhigh, Nat.two_pow_add_eq_or_of_lt hf,
    Nat.or_assoc, ← Nat.two_pow_add_eq_or_of_lt (Nat.or_lt_two_pow hf htop)]

/-- The fraction of a NaN in another format (R126). -/
def carriedFrac (F G : Fmt) (a : ℕ) : ℕ :=
  if F.fb ≤ G.fb then a % 2 ^ F.fb * 2 ^ (G.fb - F.fb) else a % 2 ^ F.fb / 2 ^ (F.fb - G.fb)

theorem carriedFrac_lt (F G : Fmt) (a : ℕ) : carriedFrac F G a < 2 ^ G.fb := by
  have hf := F.frac_lt a
  rw [frac] at hf
  rw [carriedFrac]
  split
  next h =>
    rw [show 2 ^ G.fb = 2 ^ F.fb * 2 ^ (G.fb - F.fb) by rw [← pow_add]; congr 1; omega]
    exact Nat.mul_lt_mul_of_pos_right hf (Nat.two_pow_pos _)
  next h =>
    rw [Nat.div_lt_iff_lt_mul (Nat.two_pow_pos _), ← pow_add, show G.fb + (F.fb - G.fb) = F.fb by omega]
    exact hf

theorem carryNan_eq (hG : G.Usual) (a : ℕ) :
    carryNan F G a = G.sign (F.minus a) + G.infBits + (carriedFrac F G a ||| 2 ^ (G.fb - 1)) :=
  quiet_add hG (carriedFrac_lt F G a) _

theorem cvt_nan (hF : F.Usual) (hG : G.Usual) (h : F.IsNan a) : (cvt F G rm z a).Is
    (G.sign (F.minus a) + G.infBits + (carriedFrac F G a ||| 2 ^ (G.fb - 1))) 0x10 (F.IsSnan a) := by
  have hs := signalling_value hF z a
  rw [h.value hF] at hs
  simp only [cvt, h.value hF, carryNan_eq hG]
  refine FRes.is_nv ?_
  simpa using hs

theorem cvt_inf (hF : F.Usual) (h : F.IsInf a) : (cvt F G rm z a).Is (G.sign (F.minus a) + G.infBits) 0 True := by
  simp only [cvt, h.value hF, inf, Nat.add_comm G.infBits]
  exact FRes.is_true rfl

theorem cvt_finite (hF : F.Usual) (h : F.IsFinite a) : cvt F G rm z a =
    G.deliver rm z (F.minus a) (F.sigOf (F.flushed z a)) (F.expOf (F.flushed z a)) := by
  simp only [cvt, h.value hF]

theorem cvt_zero (hF : F.Usual) (h : F.IsZero z a) : (cvt F G rm z a).Is (G.sign (F.minus a)) 0 True := by
  rw [cvt_finite hF (h.isFinite hF), sigOf_flushed_eq_zero_iff.2 h, deliver_zero]
  exact FRes.is_true rfl

theorem cvt_rounds (hF : F.Usual) (hG : G.Usual) (h : F.IsFinite a) (h0 : ¬F.IsZero z a) :
    G.Rounds rm z (F.num (F.flushed z a)) (cvt F G rm z a) := by
  rw [cvt_finite hF h]
  exact deliver_rounds hG (mt sigOf_flushed_eq_zero_iff.1 h0) (num_flushed F z a)

/-! ### Conversions to and from integers -/

/-- FTOI saturates with NV, gives 0 for a NaN, and else the value rounded to an integer (R127). -/
theorem toInt_spec (hF : F.Usual) (ty : Ty) (rm : Rm) (z : Bool) (a : ℕ) :
    let lo : ℤ := if ty.signed then -(2 ^ (ty.width - 1)) else 0
    let hi : ℤ := if ty.signed then 2 ^ (ty.width - 1) - 1 else 2 ^ ty.width - 1
    let v := F.num (F.flushed z a)
    let i : ℤ := (if F.minus a then -1 else 1) * rm.integer (F.minus a) |v|
    let r := F.toInt ty rm z a
    (F.IsNan a → r = (0, 0x10)) ∧ (F.IsInf a → r = (if F.minus a then lo else hi, 0x10)) ∧
    (¬F.IsNan a → ¬F.IsInf a → (i < lo → r = (lo, 0x10)) ∧ (hi < i → r = (hi, 0x10)) ∧
      (lo ≤ i → i ≤ hi → r.1 = i ∧ ((i : ℝ) = v → r.2 = 0) ∧ ((i : ℝ) ≠ v → r.2 = 0x01))) := by
  intro lo hi v i r
  refine ⟨fun h => ?_, fun h => ?_, fun hnan hinf => ?_⟩
  · simp only [r, toInt, h.value hF]
    rfl
  · simp only [r, toInt, h.value hF]
    rfl
  · have hfin := isFinite_iff.2 ⟨hnan, hinf⟩
    have hfst := integral_fst rm (F.minus a) (F.sigOf (F.flushed z a)) (F.expOf (F.flushed z a))
    have hsnd := integral_snd rm (F.minus a) (F.sigOf (F.flushed z a)) (F.expOf (F.flushed z a))
    rw [← abs_num] at hfst hsnd
    have hi' : (if F.minus a then -((integral rm (F.minus a) (F.sigOf (F.flushed z a)) (F.expOf (F.flushed z a))).1 : ℤ)
        else (integral rm (F.minus a) (F.sigOf (F.flushed z a)) (F.expOf (F.flushed z a))).1) = i := by
      rw [hfst]
      cases h : F.minus a <;> simp [i, v, h]
    have hr : r = if i < lo then (lo, fNV) else if hi < i then (hi, fNV) else
        (i, if (integral rm (F.minus a) (F.sigOf (F.flushed z a)) (F.expOf (F.flushed z a))).2 then fNX else 0) := by
      simp only [r, toInt, hfin.value hF, hi']
      rfl
    have hexact : (i : ℝ) = v ↔ (rm.integer (F.minus a) |v| : ℝ) = |v| := by
      have hv : v = signed (F.minus a) |v| := by rw [← minus_flushed F z a]; exact num_eq_signed _
      conv_lhs => rw [hv]
      cases h : F.minus a <;> simp [i, h]
    rw [hr]
    refine ⟨fun h => if_pos h, fun h => ?_, fun hlo hhi => ?_⟩
    · have hle : lo ≤ hi := by
        simp only [lo, hi]
        have h1 : (0 : ℤ) < 2 ^ (ty.width - 1) := by positivity
        have h2 : (0 : ℤ) < 2 ^ ty.width := by positivity
        split <;> omega
      rw [if_neg (by omega), if_pos h]
      rfl
    · rw [if_neg hlo.not_gt, if_neg hhi.not_gt]
      exact ⟨rfl, fun h => if_neg fun h' => hsnd.1 h' (hexact.1 h), fun h => if_pos (hsnd.2 (mt hexact.2 h))⟩

/-- ITOF rounds the integer (R128). -/
theorem ofInt_rounds (hF : F.Usual) {i : ℤ} (hi : i ≠ 0) : F.Rounds rm z i (F.ofInt rm z i) := by
  refine deliver_rounds hF (Int.natAbs_ne_zero.2 hi) ?_
  rw [signed_natAbs, zpow_zero, mul_one]

end Sys2Proof.Machine.Fmt
end

section
/-! Signs, comparisons, classes and conversions, element by element (R104, R111, R121 to R123, R126 to R128). -/

namespace Sys2Proof.Machine

/-! ### Elements and modes -/

theorem elemEff_congr (ty : Ty) {f g : ℕ → FRes} (h : ∀ k, f k = g k) : elemEff ty f = elemEff ty g :=
  congrArg _ (funext h)

theorem elemOf_lt (ty : Ty) (v : Word) (k : ℕ) : elemOf ty v k < 2 ^ (fmtOf ty).width := Nat.mod_lt _ (Nat.two_pow_pos _)

theorem packedTy_eq (ty : Ty) : packedTy ty = (ty == .h4 || ty == .b4) := by cases ty <;> rfl

/-- An instruction of one operand completes with the value of each element. -/
theorem State.computes_elem {s : State} {i : Instr} {h : Head} {ty : Ty} {d : Spec} {f g : ℕ → ℕ → FRes}
    (hi : exec i s = .next (s.runAlu h d fun L => elemEff ty (f L))) (hfg : ∀ L k, f L k = g L k) :
    s.Computes i h d fun L => elemEff ty (g L) :=
  State.computes_alu hi fun L => elemEff_congr ty (hfg L)

namespace Fmt

variable {F : Fmt}

theorem width_sub_one (F : Fmt) : F.width - 1 = F.eb + F.fb := by rw [width]; omega

theorem neg_eq_le {x : ℕ} (hx : x < 2 ^ F.width) : F.neg x = decide (2 ^ (F.width - 1) ≤ x) := by
  have hsplit := eq_magOf_add_sign hx
  have hlt := F.magOf_lt x
  rw [neg_eq_minus, width_sub_one]
  rw [sign_eq] at hsplit
  cases hs : F.minus x
  · rw [hs] at hsplit
    exact (decide_eq_false (by simp at hsplit; omega)).symm
  · rw [hs] at hsplit
    exact (decide_eq_true (by simp at hsplit; omega)).symm

theorem withSign_eq (x : ℕ) (n : Bool) : F.withSign x n =
    { bits := if n then x % 2 ^ (F.width - 1) + 2 ^ (F.width - 1) else x % 2 ^ (F.width - 1) } := by
  rw [withSign, width_sub_one, sign]
  cases n <;> rfl

end Fmt

theorem outcomeEff_eq (d : Spec) (t : Bool) (flags : BitVec 5) : outcomeEff d t flags =
    match d with
    | .pred p => { preds := [(p, t)], flags := flags }
    | _ => { d := some ((BitVec.ofBool t).setWidth 64), flags := flags } := by
  cases d <;> cases t <;> rfl

end Sys2Proof.Machine

namespace Sys2Proof

open Machine

theorem signs_computes (s : State) (h : Head) (ty : Ty) (o : CpsOp) (d a b : Spec) (imm : BitVec 32) :
    let el (x : Spec) (L k : Nat) : Nat := elemOf ty (s.opnd L x imm) k
    let F := fmtOf ty
    let sign : Nat := 2 ^ (F.width - 1)
    let mag (x : Nat) : Nat := x % sign
    let neg (x : Nat) : Bool := decide (sign ≤ x)
    let put (x : Nat) (n : Bool) : FRes := { bits := if n then mag x + sign else mag x }
    s.Computes (.fabs h ty d a imm) h d (fun L => elemEff ty fun k => put (el a L k) false) ∧
    s.Computes (.fneg h ty d a imm) h d (fun L => elemEff ty fun k => put (el a L k) (!neg (el a L k))) ∧
    s.Computes (.fcps h o ty d a b imm) h d (fun L => elemEff ty fun k => put (el a L k)
      (match o with
      | .copy => neg (el b L k) | .ncopy => !neg (el b L k) | .xsgn => neg (el a L k) ^^ neg (el b L k))) := by
  intro el F sign mag neg put
  have hneg (x : Spec) (L k : ℕ) : F.neg (el x L k) = neg (el x L k) := Fmt.neg_eq_le (elemOf_lt ..)
  refine ⟨?fabs, ?fneg, ?fcps⟩
  case fabs => exact State.computes_elem rfl fun L k => Fmt.withSign_eq _ _
  case fneg => exact State.computes_elem rfl fun L k => by rw [← hneg]; exact Fmt.withSign_eq _ _
  case fcps =>
    refine State.computes_elem rfl fun L k => ?_
    simp only [← hneg]
    cases o <;> exact Fmt.withSign_eq _ _

/-- FCVT between types of one size, of a scalar into one element, and of one element into a scalar (R126). -/
theorem fcvt_computes (s : State) (h : Head) (sty ty : Ty) (rm : Rm) (d a b : Spec) (imm : BitVec 32) :
    let k := (imm.extractLsb' 0 2).toNat
    let c (L : Nat) (x : Nat) : FRes := cvt (fmtOf sty) (fmtOf ty) (resolveRm rm (s.cl L).fmode) ((s.cl L).fmode.getLsbD 3) x
    (packedTy sty = packedTy ty → s.Computes (.fcvt h sty ty rm d a b imm) h d
      (fun L => elemEff ty fun j => c L (elemOf sty (s.opnd L a imm) j))) ∧
    (packedTy sty = false → packedTy ty = true → s.Computes (.fcvt h sty ty rm d a b imm) h d (fun L => elemEff ty fun j =>
      if j = k then c L (elemOf sty (s.opnd L a imm) 0) else { bits := elemOf ty (s.opnd L b imm) j })) ∧
    (packedTy sty = true → packedTy ty = false → s.Computes (.fcvt h sty ty rm d a b imm) h d (fun L =>
      let r := c L (elemOf sty (s.opnd L a imm) k)
      { d := some (BitVec.ofNat 64 r.bits), flags := r.flags })) := by
  intro k c
  have hk : fld imm 1 0 = k := by simp [fld, k]
  refine ⟨fun hsame => ?_, fun hsty hty => ?_, fun hsty hty => ?_⟩
  · refine State.computes_alu rfl fun L => ?_
    rw [hsame]
    cases packedTy ty <;> rfl
  · refine State.computes_alu rfl fun L => ?_
    rw [hsty, hty, hk]
    rfl
  · refine State.computes_alu rfl fun L => ?_
    rw [hsty, hty, hk]
    rfl

/-- A conversion of a pattern carries a NaN across and rounds a number once (R126). -/
theorem Machine.cvt_spec {F G : Fmt} (hF : F.Usual) (hG : G.Usual) (rm : Rm) (z : Bool) (a : ℕ) :
    let r := cvt F G rm z a
    (F.IsNan a → r.Is (G.sign (F.minus a) + G.infBits + (F.carriedFrac G a ||| 2 ^ (G.fb - 1))) 0x10 (F.IsSnan a)) ∧
    (F.IsInf a → r.Is (G.sign (F.minus a) + G.infBits) 0 True) ∧ (F.IsZero z a → r.Is (G.sign (F.minus a)) 0 True) ∧
    (¬F.IsNan a → ¬F.IsInf a → ¬F.IsZero z a → G.Rounds rm z (F.num (F.flushed z a)) r) :=
  ⟨Fmt.cvt_nan hF hG, Fmt.cvt_inf hF, Fmt.cvt_zero hF, fun hnan hinf => Fmt.cvt_rounds hF hG (Fmt.isFinite_iff.2 ⟨hnan, hinf⟩)⟩

/-- Settles O7: signs bit by bit, comparisons and classes of the decoded values, conversions by the rounding of the value. -/
theorem floatSignsComparesAndConversions : Obligations.FloatSignsComparesAndConversions := by
  unfold Obligations.FloatSignsComparesAndConversions
  refine ⟨fun s h ty o cc d a b imm => ?signs, fun s h sty ty rm d a b imm => ?conversions, fun F hF cc rm z a b ha hb => ?values⟩
  case signs =>
    intro el F sign mag neg put t
    obtain ⟨hfabs, hfneg, hfcps⟩ := signs_computes s h ty o d a b imm
    refine ⟨hfabs, hfneg, hfcps, ?fcmp, State.computes_elem rfl fun L k => rfl⟩
    refine State.computes_alu rfl fun L => if_congr (by simp [packedTy]) rfl ?_
    exact outcomeEff_eq d (t L 0).1 (t L 0).2
  case conversions =>
    intro z m wide k c
    obtain ⟨hsame, hin, hout⟩ := fcvt_computes s h sty ty rm d a b imm
    simp only [packedTy_eq] at hsame hin hout
    refine ⟨hsame, hin, hout, ?ftoi, ?itof⟩
    case ftoi =>
      have hput (i : ℤ) : ty.put i = ty.fit (BitVec.ofInt 64 i) := (lowBits_ofInt ty.width_le i).put
      exact State.computes_alu rfl fun L => by simp only [hput]; rfl
    case itof =>
      refine State.computes_elem rfl fun L _ => ?_
      cases hs : sty.signed
      · rw [Ty.src_of_unsigned hs]; rfl
      · rw [Ty.src_of_signed hs]; rfl
  case values =>
    have hU := Fmt.usual_of_mem hF
    intro x y un t quiet nv cls e
    obtain ⟨houtcome, hnv, hquiet⟩ := Fmt.cmp_spec hU cc z a b
    refine ⟨houtcome, hnv, hquiet, Fmt.classOf_snan, Fmt.classOf_qnan, Fmt.classOf_inf, Fmt.classOf_normal, Fmt.classOf_subnormal hU,
      Fmt.classOf_zero hU, fun G hG => cvt_spec hU (Fmt.usual_of_mem hG) rm z a, fun ty => Fmt.toInt_spec hU ty rm z a,
      FRes.is_true rfl, fun i hi => Fmt.ofInt_rounds hU hi⟩

end Sys2Proof
end

section
/-! FDOT on patterns (R131). -/

namespace Sys2Proof.Machine

theorem mem_products_iff {o : Option FVal} {xs ys : List FVal} : o ∈ products xs ys ↔
    ∃ p ∈ xs.zip ys, (p.1.isNan = false ∧ p.2.isNan = false) ∧ p.1.mul p.2 = o := by
  induction xs generalizing ys with
  | nil => simp [products]
  | cons x xs ih =>
    cases ys with
    | nil => simp [products]
    | cons y ys =>
      rw [products, List.mem_append, ih, List.zip_cons_cons, List.exists_mem_cons_iff]
      refine or_congr_left ?_
      cases x.isNan <;> cases y.isNan <;> simp [eq_comm]

namespace Fmt

variable {F : Fmt} {z : Bool} {a b : ℕ}

theorem flushIn_false (F : Fmt) (a : ℕ) : F.flushIn false a = a := by simp [flushIn]

/-- A zero times an infinity counts for nothing in the products of the statements. -/
theorem ZeroTimesInf.termMul_eq (h : F.ZeroTimesInf z a b) (hF : F.Usual) : (termMul (F.term z a) (F.term z b)).2 = 0 := by
  have hzero {c : ℕ} (hc : F.IsZero z c) : F.ext z c = 0 := by
    rw [ext_of_isFinite (hc.isFinite hF), num_flushed, sigOf_flushed_eq_zero_iff.2 hc]
    simp [signed]
  rcases h with ⟨h, -⟩ | ⟨-, h⟩ <;> simp [termMul, term, hzero h]

/-- A product of two operands that are no NaN is an infinity where the statements have one. -/
theorem mul_eq_inf_iff (hF : F.Usual) (ha : ¬F.IsNan a) (hb : ¬F.IsNan b) (n : Bool) :
    (F.value (F.flushIn z a)).mul (F.value (F.flushIn z b)) = some (.inf n) ↔
      (termMul (F.term z a) (F.term z b)).2 = (FVal.inf n).ext := by
  by_cases h : F.ZeroTimesInf z a b
  · rw [(mul_eq_none_iff hF ha hb).2 h, h.termMul_eq hF]
    cases n <;> simp [FVal.ext]
  · obtain ⟨t, ht, hnan, hterm⟩ := exists_mul hF ha hb h
    rw [ht, ← hterm, Option.some_inj]
    cases n
    · exact (FVal.ext_eq_top_iff hnan).symm
    · exact (FVal.ext_eq_bot_iff hnan).symm

theorem value_eq_inf_iff (hF : F.Usual) (ha : ¬F.IsNan a) (n : Bool) :
    F.value (F.flushIn z a) = .inf n ↔ F.ext z a = (FVal.inf n).ext := by
  rw [← ext_value hF ha]
  cases n
  · exact (FVal.ext_eq_top_iff (not_isNan_value hF ha z)).symm
  · exact (FVal.ext_eq_bot_iff (not_isNan_value hF ha z)).symm

end Fmt

/-! ### The four products and the addend -/

section

variable (F : Fmt) (rm : Rm) (z : Bool) (x y : ℕ → ℕ) (c : ℕ)

/-- The eight elements in the order in which FDOT looks for a NaN. -/
def dotElems : List ℕ := [x 0, y 0, x 1, y 1, x 2, y 2, x 3, y 3]

/-- The products of FDOT. -/
def dotProducts : List (Option FVal) :=
  products ([x 0, x 1, x 2, x 3].map F.value) ([y 0, y 1, y 2, y 3].map F.value)

/-- The terms of FDOT. -/
def dotTerms : List FVal :=
  (dotProducts F x y).filterMap id ++ (if (fp32.value (fp32.flushIn z c)).isNan then [] else [fp32.value (fp32.flushIn z c)])

/-- Does FDOT meet an invalid operation? -/
def dotInvalid : Bool :=
  (dotProducts F x y).contains none || (hasInf false (dotTerms F z x y c) && hasInf true (dotTerms F z x y c))

/-- The flags of FDOT where a NaN is the result. -/
def dotFlags : BitVec 5 :=
  F.snan ((dotElems x y).map F.value) ||| fp32.snan [fp32.value (fp32.flushIn z c)] ||| (if dotInvalid F z x y c then fNV else 0)

theorem dot_eq : F.dot rm z [x 0, x 1, x 2, x 3] [y 0, y 1, y 2, y 3] c =
    match ((dotElems x y).map F.value).find? FVal.isNan, fp32.value (fp32.flushIn z c) with
    | some (.nan b), _ => { bits := carryNan F fp32 b, flags := dotFlags F z x y c }
    | _, .nan b => { bits := fp32.quiet b, flags := dotFlags F z x y c }
    | _, _ => if dotInvalid F z x y c then fp32.invalid else fp32.sum rm z (dotTerms F z x y c) := rfl

variable {F rm z x y c}

theorem mem_dotProducts_iff (hF : F.Usual) {o : Option FVal} : o ∈ dotProducts F x y ↔
    ∃ k, k < 4 ∧ (¬F.IsNan (x k) ∧ ¬F.IsNan (y k)) ∧ (F.value (F.flushIn false (x k))).mul (F.value (F.flushIn false (y k))) = o := by
  have hzip : ([x 0, x 1, x 2, x 3].map F.value).zip ([y 0, y 1, y 2, y 3].map F.value) =
      (List.range 4).map fun k => (F.value (x k), F.value (y k)) := rfl
  have hnan (a : ℕ) : (F.value a).isNan = false ↔ ¬F.IsNan a := by
    rw [← Bool.not_eq_true, ← F.flushIn_false a, Fmt.isNan_value hF, F.flushIn_false]
  rw [dotProducts, mem_products_iff, hzip]
  simp [hnan, F.flushIn_false, -List.map_cons]

theorem none_mem_dotProducts_iff (hF : F.Usual) :
    none ∈ dotProducts F x y ↔ ∃ k, k < 4 ∧ F.ZeroTimesInf false (x k) (y k) := by
  rw [mem_dotProducts_iff hF]
  refine exists_congr fun k => and_congr_right fun _ => ⟨fun ⟨⟨ha, hb⟩, h⟩ => (Fmt.mul_eq_none_iff hF ha hb).1 h, fun h => ?_⟩
  obtain ⟨ha, hb⟩ := h.not_isNan hF
  exact ⟨⟨ha, hb⟩, (Fmt.mul_eq_none_iff hF ha hb).2 h⟩

theorem inf_mem_dotTerms_iff (hF : F.Usual) (n : Bool) : FVal.inf n ∈ dotTerms F z x y c ↔
    (∃ k, k < 4 ∧ (¬F.IsNan (x k) ∧ ¬F.IsNan (y k)) ∧
      (termMul (F.term false (x k)) (F.term false (y k))).2 = (FVal.inf n).ext) ∨
    (¬fp32.IsNan c ∧ fp32.ext z c = (FVal.inf n).ext) := by
  have h32 : fp32.Usual := Fmt.usual_of_mem (by simp)
  rw [dotTerms, List.mem_append]
  refine or_congr ?_ ?_
  · simp only [List.mem_filterMap, id_eq, exists_eq_right, mem_dotProducts_iff hF]
    refine exists_congr fun k => and_congr_right fun _ => and_congr_right fun h => ?_
    exact Fmt.mul_eq_inf_iff hF h.1 h.2 n
  · have hnan := Fmt.isNan_value h32 z c
    by_cases hc : fp32.IsNan c
    · simp [hnan.2 hc, hc]
    · rw [Fmt.not_isNan_value h32 hc]
      simp [hc, ← Fmt.value_eq_inf_iff h32 hc, eq_comm]

end

end Sys2Proof.Machine

namespace Sys2Proof

open Machine

/-- The conditions and the result of FDOT (R131). -/
theorem Machine.dot_spec {F : Fmt} (hF : F.Usual) (m : Rm) (z : Bool) (x y : ℕ → ℕ) (c : ℕ) :
    let r := F.dot m z [x 0, x 1, x 2, x 3] [y 0, y 1, y 2, y 3] c
    let all := [x 0, y 0, x 1, y 1, x 2, y 2, x 3, y 3]
    let product (k : Nat) : Bool × EReal := termMul (F.term false (x k)) (F.term false (y k))
    let clean (k : Nat) : Prop := ¬F.IsNan (x k) ∧ ¬F.IsNan (y k)
    let among (v : EReal) : Prop := (∃ k, k < 4 ∧ clean k ∧ (product k).2 = v) ∨ (¬fp32.IsNan c ∧ fp32.ext z c = v)
    let inv : Prop := (∃ k, k < 4 ∧ F.ZeroTimesInf false (x k) (y k)) ∨ (among ⊤ ∧ among ⊥)
    let nv : Prop := (∃ w ∈ all, F.IsSnan w) ∨ fp32.IsSnan c ∨ inv
    (∀ pre v post, all = pre ++ v :: post → (∀ w ∈ pre, ¬F.IsNan w) → F.IsNan v → r.Is (carryNan F fp32 v) 0x10 nv) ∧
    ((∀ w ∈ all, ¬F.IsNan w) → fp32.IsNan c → r.Is (c ||| 2 ^ 22) 0x10 nv) ∧
    ((∀ w ∈ all, ¬F.IsNan w) → ¬fp32.IsNan c → (inv → fp32.Invalid r) ∧
      (¬inv → fp32.Sums m z [product 0, product 1, product 2, product 3, fp32.term z c] r)) := by
  intro r all product clean among inv nv
  have h32 : fp32.Usual := Fmt.usual_of_mem (by simp)
  have hinv : dotInvalid F z x y c = true ↔ inv := by
    rw [dotInvalid, Bool.or_eq_true, Bool.and_eq_true, List.contains_iff_mem, hasInf_iff, hasInf_iff, none_mem_dotProducts_iff hF,
      inf_mem_dotTerms_iff hF, inf_mem_dotTerms_iff hF]
    rfl
  have hnan (w : ℕ) : (F.value w).isNan = true ↔ F.IsNan w := by
    have := Fmt.isNan_value hF false w
    rwa [F.flushIn_false] at this
  have hflags : ∃ test : Bool, (test = true ↔ nv) ∧ dotFlags F z x y c = if test then fNV else 0 := by
    refine ⟨((dotElems x y).map F.value).any F.signalling || [fp32.value (fp32.flushIn z c)].any fp32.signalling ||
      dotInvalid F z x y c, ?_, ?_⟩
    · have hsig (w : ℕ) : F.signalling (F.value w) = true ↔ F.IsSnan w := by
        have := Fmt.signalling_value hF false w
        rwa [F.flushIn_false] at this
      have hel : ((dotElems x y).map F.value).any F.signalling = true ↔ ∃ w ∈ all, F.IsSnan w := by
        rw [List.any_map, List.any_eq_true]
        exact exists_congr fun w => and_congr_right fun _ => hsig w
      rw [Bool.or_eq_true, Bool.or_eq_true, hel, hinv, List.any_cons, List.any_nil, Bool.or_false, Fmt.signalling_value h32, or_assoc]
    · rw [← nv_or, ← nv_or]
      rfl
  obtain ⟨test, htest, hflags⟩ := hflags
  have hr : r = _ := dot_eq F m z x y c
  have hnone (hall : ∀ w ∈ all, ¬F.IsNan w) : ((dotElems x y).map F.value).find? FVal.isNan = none := by
    rw [List.find?_eq_none, List.forall_mem_map]
    exact fun w hw h => hall w hw ((hnan w).1 h)
  refine ⟨fun pre v post hall hpre hv => ?_, fun hall hc => ?_, fun hall hc => ?_⟩
  · have hfind : ((dotElems x y).map F.value).find? FVal.isNan = some (.nan v) := by
      have hfirst : (dotElems x y).find? (FVal.isNan ∘ F.value) = some v :=
        List.find?_eq_some_iff_append.2 ⟨(hnan v).2 hv, pre, post, hall, fun w hw => by
          rw [Bool.not_eq_true', Bool.eq_false_iff]
          exact mt (hnan w).1 (hpre w hw)⟩
      rw [List.find?_map, hfirst, Option.map_some, Fmt.value_of_isNan hv]
    rw [hr, hfind, hflags]
    exact FRes.is_nv htest
  · rw [hr, hnone hall, hflags, hc.value h32]
    exact FRes.is_nv htest
  · have hmatch : r = if dotInvalid F z x y c then fp32.invalid else fp32.sum m z (dotTerms F z x y c) := by
      rw [hr, hnone hall]
      rcases (fp32.kinds c).resolve_left hc with h | h
      · rw [h.value h32]
      · rw [h.value h32]
    rw [hmatch]
    refine ⟨fun h => ?_, fun h => ?_⟩
    · rw [if_pos (hinv.2 h)]
      exact fp32.invalid_spec
    · have hmul (k : ℕ) (hk : k < 4) (hx : x k ∈ all) (hy : y k ∈ all) : ∃ t, (F.value (x k)).isNan = false ∧
          (F.value (y k)).isNan = false ∧ (F.value (x k)).mul (F.value (y k)) = some t ∧ t.isNan = false ∧ t.term = product k := by
        obtain ⟨t, ht, htn, hterm⟩ := Fmt.exists_mul hF (hall _ hx) (hall _ hy) fun h0 => h (.inl ⟨k, hk, h0⟩)
        have hnot {w : ℕ} (hw : w ∈ all) : (F.value w).isNan = false := Bool.eq_false_iff.2 (mt (hnan w).1 (hall w hw))
        rw [F.flushIn_false, F.flushIn_false] at ht
        exact ⟨t, hnot hx, hnot hy, ht, htn, hterm⟩
      obtain ⟨t₀, hx₀, hy₀, h₀, hn₀, he₀⟩ := hmul 0 (by decide) (by simp [all]) (by simp [all])
      obtain ⟨t₁, hx₁, hy₁, h₁, hn₁, he₁⟩ := hmul 1 (by decide) (by simp [all]) (by simp [all])
      obtain ⟨t₂, hx₂, hy₂, h₂, hn₂, he₂⟩ := hmul 2 (by decide) (by simp [all]) (by simp [all])
      obtain ⟨t₃, hx₃, hy₃, h₃, hn₃, he₃⟩ := hmul 3 (by decide) (by simp [all]) (by simp [all])
      have hnc := Fmt.not_isNan_value h32 hc z
      have hterms : dotTerms F z x y c = [t₀, t₁, t₂, t₃, fp32.value (fp32.flushIn z c)] := by
        simp [dotTerms, dotProducts, products, hnc, hx₀, hy₀, h₀, hx₁, hy₁, h₁, hx₂, hy₂, h₂, hx₃, hy₃, h₃]
      have hsums := Fmt.sum_sums h32 m z (ts := [t₀, t₁, t₂, t₃, fp32.value (fp32.flushIn z c)])
        (by simp [hn₀, hn₁, hn₂, hn₃, hnc])
      rw [if_neg (mt hinv.1 h), hterms, ← he₀, ← he₁, ← he₂, ← he₃, ← Fmt.term_value h32 hc]
      exact hsums

/-- A NaN of 16 bits as FDOT passes it on: its fraction moved up, with the top bit set. -/
theorem Machine.carryNan_of_lt {F : Fmt} (hF : F ∈ [fp16, bf16]) {v : ℕ} (hv : v < 2 ^ 16) : carryNan F fp32 v =
    v / 2 ^ 15 * 2 ^ 31 + 0xFF * 2 ^ 23 + (v % 2 ^ F.fb ||| 2 ^ (F.fb - 1)) * 2 ^ (23 - F.fb) := by
  have h32 : fp32.Usual := Fmt.usual_of_mem (by simp)
  have hfmt : F.fb ≤ 23 ∧ 1 ≤ F.fb ∧ F.eb + F.fb = 15 := by
    simp only [List.mem_cons, List.not_mem_nil, or_false] at hF
    rcases hF with rfl | rfl <;> decide
  obtain ⟨hfb, hpos, hwidth⟩ := hfmt
  have hsign : fp32.sign (F.minus v) = v / 2 ^ 15 * 2 ^ 31 := by
    have hone : v / 2 ^ 15 < 2 := Nat.div_lt_of_lt_mul hv
    rw [Fmt.sign_eq, Fmt.minus, hwidth, Nat.mod_eq_of_lt hone]
    interval_cases v / 2 ^ 15 <;> rfl
  have htop : 2 ^ (fp32.fb - 1) = 2 ^ (F.fb - 1) <<< (23 - F.fb) := by
    rw [Nat.shiftLeft_eq, ← pow_add]
    congr 1
    show 22 = _
    omega
  have hfrac : F.carriedFrac fp32 v = (v % 2 ^ F.fb) <<< (23 - F.fb) := by
    rw [Fmt.carriedFrac, if_pos (show F.fb ≤ fp32.fb from hfb), Nat.shiftLeft_eq]
    rfl
  rw [Fmt.carryNan_eq h32, hsign, htop, hfrac, ← Nat.shiftLeft_or_distrib, Nat.shiftLeft_eq]
  rfl

/-- The mode that RM names or FMODE holds, by the low bits of FMODE (R107, R111). -/
theorem Machine.resolveRm_eq (rm : Rm) (fmode : BitVec 4) : resolveRm rm fmode =
    if rm = .dyn then (match (fmode.extractLsb' 0 3).toNat with | 1 => .rtz | 2 => .rup | 3 => .rdn | 4 => .rna | _ => .rne)
    else rm := by
  have hlow : (fmode.extractLsb' 0 3).toNat = fmode.toNat % 8 := by simp
  cases rm
  case dyn =>
    rw [if_pos rfl, hlow]
    rfl
  all_goals rfl

/-- Settles O6: the values of sums, products, quotients and roots by the rounding of the exact value, NaNs by their patterns. -/
theorem floatArithmetic : Obligations.FloatArithmetic := by
  unfold Obligations.FloatArithmetic
  refine ⟨fun s h ty rm d a b c imm => ?elements, fun F hF m z a b c j ha hb hc => ?values, fun F hF m z x y c hxy hc => ?dot⟩
  case elements =>
    intro el z m F
    have hm (L : ℕ) : s.rmOf L rm = m L := resolveRm_eq rm _
    refine ⟨?_, ?_, ?_, ?_, ?_, ?_, ?_, ?_, ?_, ?_, ?_⟩
    all_goals exact State.computes_elem rfl fun L k => by simp only [← hm]; rfl
  case values =>
    have hU := Fmt.usual_of_mem hF
    intro quieted top zero inf sign finite nonzero seen noTimesInf
    have hfin {x : ℕ} (h : finite x) : F.IsFinite x := Fmt.isFinite_iff.2 h
    obtain ⟨hfma₁, hfma₂, hfma₃, hfma₄, hfma₅⟩ := Fmt.fma_spec hU m z a b c
    refine ⟨Fmt.add_adds hU m z a b, Fmt.minmax_picks hU ha hb false, Fmt.minmax_picks hU ha hb true, ?binaryNan, ?unaryNan,
      ⟨hfma₁, hfma₂, hfma₃, hfma₄, hfma₅⟩, Fmt.sub_sums hU, Fmt.mul_invalid hU, Fmt.mul_sums hU, Fmt.div_zero_zero hU,
      Fmt.div_inf_inf hU, fun hx => Fmt.div_by_zero hU (hfin hx.1) hx.2, fun hx => Fmt.div_finite_inf hU (hfin hx),
      fun hx hy => Fmt.div_inf_finite hU hx (hfin hy), fun hx hy => Fmt.div_zero_left hU hx (hfin hy.1) hy.2,
      fun hx hy => Fmt.div_rounds hU (hfin hx.1) hx.2 (hfin hy.1) hy.2, ?unaryZero,
      fun hx => ⟨fun hs => Fmt.sqrt_inf hU hx hs ha, Fmt.rint_inf hU hx, Fmt.scale_inf hU hx j⟩, Fmt.sqrt_minus hU,
      fun hx hs => Fmt.sqrt_rounds hU (hfin hx.1) hx.2 hs, fun hx => Fmt.scale_rounds hU (hfin hx.1) hx.2 j, fun hx => ?rint⟩
    case binaryNan =>
      simp only [List.forall_mem_cons, List.not_mem_nil, false_imp_iff, implies_true, and_true]
      exact ⟨⟨Fmt.sub_nan_left hU, Fmt.sub_nan_right hU⟩, ⟨Fmt.mul_nan_left hU, Fmt.mul_nan_right hU⟩,
        ⟨Fmt.div_nan_left hU, Fmt.div_nan_right hU⟩⟩
    case unaryNan =>
      intro hx
      simp only [List.forall_mem_cons, List.not_mem_nil, false_imp_iff, implies_true, and_true]
      exact ⟨Fmt.sqrt_nan hU hx, Fmt.rint_nan hU hx, Fmt.scale_nan hU hx j⟩
    case unaryZero =>
      intro hx
      simp only [List.forall_mem_cons, List.not_mem_nil, false_imp_iff, implies_true, and_true]
      exact ⟨Fmt.sqrt_zero hU hx, Fmt.rint_zero hU ha hx, Fmt.scale_zero hU hx j⟩
    case rint =>
      obtain ⟨hlt, hfinite, hrest⟩ := Fmt.rint_spec (rm := m) (z := z) hU ha (hfin hx.1)
      exact ⟨hlt, Fmt.isFinite_iff.1 hfinite, hrest⟩
  case dot =>
    have hU := Fmt.usual_of_mem (List.mem_cons_of_mem _ (List.mem_cons_of_mem _ hF))
    intro r all product clean noTimesInf among inv nv
    obtain ⟨hnan, haddend, hnumbers⟩ := dot_spec hU m z x y c
    refine ⟨fun pre v post hall hpre hv => ?_, haddend, hnumbers⟩
    have hlt : v < 2 ^ 16 := by
      have hmem : v ∈ all := hall ▸ List.mem_append_right pre List.mem_cons_self
      simp only [all, List.mem_cons, List.not_mem_nil, or_false] at hmem
      rcases hmem with rfl | rfl | rfl | rfl | rfl | rfl | rfl | rfl <;> simp only [hxy]
    rw [← carryNan_of_lt hF hlt]
    exact hnan pre v post hall hpre hv

end Sys2Proof
end

section
/-! The approximations (R124, R125): what is exact, and what lies within the bound with its flags. -/

namespace Sys2Proof.Machine

/-! ### Odd parts -/

/-- Halving takes every factor two out of a number that the fuel covers. -/
theorem oddPart_spec {fuel m : ℕ} (hm : m ≠ 0) (hlt : m < 2 ^ fuel) (e : ℤ) :
    (oddPart fuel m e).1 % 2 = 1 ∧ (m : ℝ) * 2 ^ e = (oddPart fuel m e).1 * 2 ^ (oddPart fuel m e).2 := by
  induction fuel generalizing m e with
  | zero => omega
  | succ fuel ih =>
    rw [oddPart]
    split
    next heven =>
      obtain ⟨hodd, hval⟩ := ih (m := m / 2) (by omega) (by rw [pow_succ] at hlt; omega) (e + 1)
      refine ⟨hodd, ?_⟩
      have hm2 : (m : ℝ) = (m / 2 : ℕ) * 2 := by exact_mod_cast (Nat.div_mul_cancel (Nat.dvd_of_mod_eq_zero heven)).symm
      rw [← hval, zpow_add_one₀ two_ne_zero, hm2]
      ring
    next hodd => exact ⟨by omega, rfl⟩

/-- A number has one odd part. -/
theorem odd_mul_zpow_unique {p q : ℕ} (hp : p % 2 = 1) (hq : q % 2 = 1) {i j : ℤ} (h : (p : ℝ) * 2 ^ i = q * 2 ^ j) : p = q ∧ i = j := by
  have key {p q : ℕ} {i j : ℤ} (hp : p % 2 = 1) (h : (p : ℝ) * 2 ^ i = q * 2 ^ j) : j ≤ i := by
    by_contra hlt
    rw [SameSide.zpow_split (show i ≤ j by omega), ← mul_assoc] at h
    have hnat : p = q * 2 ^ (j - i).toNat := by exact_mod_cast mul_right_cancel₀ (by positivity) h
    obtain ⟨k, hk⟩ := Nat.exists_eq_succ_of_ne_zero (show (j - i).toNat ≠ 0 by omega)
    rw [hnat, hk, pow_succ, ← mul_assoc, Nat.mul_mod_left] at hp
    omega
  obtain rfl : i = j := le_antisymm (key hq h.symm) (key hp h)
  exact ⟨by exact_mod_cast mul_right_cancel₀ (by positivity) h, rfl⟩

/-- A number that is not zero as an odd part and a power of two. -/
theorem exists_odd {m : ℕ} (hm : m ≠ 0) : ∃ p k : ℕ, p % 2 = 1 ∧ m = p * 2 ^ k := by
  obtain ⟨k, p, hp, h⟩ := Nat.exists_eq_two_pow_mul_odd hm
  exact ⟨p, k, Nat.odd_iff.1 hp, by rw [h, mul_comm]⟩

namespace Fmt

variable {F : Fmt} {a : ℕ} {v bound : ℝ} {r : FRes}

theorem holds_iff : F.Holds a v ↔ F.IsFinite a ∧ v = F.num a := by
  constructor
  · rintro ⟨neg, m, e, hval, rfl⟩
    rcases F.kinds a with h | h | h
    · rw [value_of_isNan h] at hval; cases hval
    · rw [value_of_isInf h] at hval; cases hval
    · rw [value_of_isFinite h] at hval
      cases hval
      exact ⟨h, by rw [num_eq, mul_assoc]⟩
  · rintro ⟨h, rfl⟩
    exact ⟨_, _, _, value_of_isFinite h, by rw [num_eq, mul_assoc]⟩

/-! ### Results within a bound -/

theorem approximates_exact (hfit : |v| ≤ F.largest) (hb : 0 ≤ bound) (hflags : r.flags = 0) (h : F.Holds r.bits v) :
    F.Approximates r v bound := by
  refine ⟨fun hgt => absurd hgt hfit.not_gt, fun _ => ⟨v, h, by simpa using hb, ?_⟩⟩
  rw [hflags]
  simp

theorem apx_flags (tiny : Bool) : let flags : BitVec 5 := fNX ||| (if tiny then fUF else 0)
    flags.getLsbD 0 = true ∧ flags.getLsbD 1 = tiny ∧ flags.getLsbD 2 = false := by
  cases tiny <;> decide

/-- A finite result near a value that the format does not hold. -/
theorem approximates_apxFlags {neg : Bool} {m : ℕ} {e : ℤ} {bits : ℕ} (hfit : |v| ≤ F.largest) (hno : ∀ b, ¬F.Holds b v)
    (hsmall : |v| < 2 ^ (F.emin - 1) → F.tinyVal .rne neg m e = true) (hnormal : 2 ^ F.emin ≤ |v| → F.tinyVal .rne neg m e = false)
    (hfin : F.IsFinite bits) (hnear : |F.num bits - v| ≤ bound) : F.Approximates (F.apxFlags false neg m e bits) v bound := by
  have hholds : F.Holds bits (F.num bits) := holds_iff.2 ⟨hfin, rfl⟩
  have hne : F.num bits ≠ v := fun h => hno bits (h ▸ hholds)
  have hres : F.apxFlags false neg m e bits = { bits := bits, flags := fNX ||| (if F.tinyVal .rne neg m e then fUF else 0) } := by
    simp [apxFlags, flushOut]
  obtain ⟨hnx, huf, hof⟩ := apx_flags (F.tinyVal .rne neg m e)
  rw [hres]
  exact ⟨fun hgt => absurd hgt hfit.not_gt, fun _ => ⟨F.num bits, hholds, hnear, iff_of_true hnx hne, hof,
    fun h => iff_of_true (huf.trans (hsmall h)) hne, fun h => huf.trans (hnormal h)⟩⟩

/-- The model's test for a tiny value, where its argument has the binade of the exact value. -/
theorem tinyVal_of_log {neg : Bool} {m : ℕ} {e : ℤ} (hm : m ≠ 0) (hv : v ≠ 0) (h : Int.log 2 ((m : ℝ) * 2 ^ e) = Int.log 2 |v|) :
    (|v| < 2 ^ (F.emin - 1) → F.tinyVal .rne neg m e = true) ∧ (2 ^ F.emin ≤ |v| → F.tinyVal .rne neg m e = false) := by
  have hpos : 0 < |v| := abs_pos.2 hv
  have hx : (0 : ℝ) < m * 2 ^ e := by positivity
  refine ⟨fun hlt => ?_, fun hle => ?_⟩
  · rw [F.tinyVal_iff .rne neg hm e]
    refine isTiny_of_small hx ?_
    rw [h]
    exact (Int.lt_zpow_iff_log_lt one_lt_two hpos).1 (by exact_mod_cast hlt)
  · rw [Bool.eq_false_iff]
    intro htiny
    refine not_isTiny_of_normal hx ?_ ((F.tinyVal_iff .rne neg hm e).1 htiny)
    rw [h]
    exact (Int.zpow_le_iff_le_log one_lt_two hpos).1 (by exact_mod_cast hle)

/-- `exactOr` gives the value itself where the format holds it, and else the other result. -/
theorem exactOr_cases (hF : F.Usual) {neg : Bool} {m : ℕ} (hm : m ≠ 0) (e : ℤ) (hfit : (m : ℝ) * 2 ^ e ≤ F.largest) (other : FRes) :
    ((F.exactOr false neg m e other).flags = 0 ∧ F.Holds (F.exactOr false neg m e other).bits (signed neg (m * 2 ^ e))) ∨
      (F.exactOr false neg m e other = other ∧ ∀ b, ¬F.Holds b (signed neg (m * 2 ^ e))) := by
  have hx : (0 : ℝ) < m * 2 ^ e := by positivity
  have hround : F.RoundsTo .rne neg (m * 2 ^ e) false (F.round .rne neg m e).res := F.round_roundsTo .rne neg hm e hF false
  by_cases hself : F.rounded .rne neg ((m : ℝ) * 2 ^ e) = m * 2 ^ e
  · left
    obtain ⟨hflags, -, hsign, hfin, hnum⟩ := hround.exact hx hself hfit (by simp)
    have hres : F.exactOr false neg m e other = (F.round .rne neg m e).res := by simp [exactOr, hflags, flushOut]
    rw [hres]
    exact ⟨hflags, holds_iff.2 ⟨hfin, by rw [num_eq_signed, hsign, hnum]⟩⟩
  · right
    have hno : ∀ b, ¬F.Holds b (signed neg (m * 2 ^ e)) := by
      intro b hb
      obtain ⟨-, hnum⟩ := holds_iff.1 hb
      have habs : |F.num b| = m * 2 ^ e := by rw [← hnum, abs_signed neg hx.le]
      exact hself (by rw [← habs]; exact rounded_abs_num (abs_pos.1 (habs ▸ hx)))
    refine ⟨if_neg fun hflags => ?_, hno⟩
    have hof : (F.round .rne neg m e).res.flags.getLsbD 2 = false := by rw [hflags]; rfl
    have hfits := (hround.fits_of_flags hof).resolve_left (by simp)
    have hnx := (hround.2.2 (by simp) hfits).2.2.2.2.1.2 hself
    rw [hflags] at hnx
    exact absurd hnx (by decide)

end Fmt
end Sys2Proof.Machine
end

section
/-! FRCP (R124, R125). -/

namespace Sys2Proof.Machine.Fmt

variable {F : Fmt} {rm : Rm} {neg z : Bool} {a : ℕ} {v x : ℝ} {r : FRes}

/-! ### Units and nearest values -/

/-- The unit in the last place of R124 as the model computes it, from the binade of the value. -/
theorem ulp_eq (v : ℝ) : F.ulp v = 2 ^ F.ulpExp (Int.log 2 |v|) := by
  rw [ulp, ulpExp]
  congr 1
  split
  next h => rw [max_eq_right h.le, qmin]
  next h => rw [max_eq_left (not_lt.1 h)]

theorem unit_eq_ulpExp (x : ℝ) : max (F.unit x) F.qmin = F.ulpExp (Int.log 2 x) := by
  rw [unit, ulpExp, qmin]
  split <;> omega

theorem nearest_dist (x : ℝ) (q : ℤ) : |Rm.rne.toUnit neg x q - x| ≤ 2 ^ q / 2 := by
  have hpos : (0 : ℝ) < 2 ^ q := by positivity
  have h := (Rm.nearest_spec neg (x / 2 ^ q)).1
  have hdist : Rm.rne.toUnit neg x q - x = (Rm.rne.integer neg (x / 2 ^ q) - x / 2 ^ q) * 2 ^ q := by
    rw [sub_mul, div_mul_cancel₀ _ hpos.ne', Rm.toUnit]
  rw [hdist, abs_mul, abs_of_pos hpos]
  nlinarith

/-- A value up to the largest finite one is rounded to a finite value. -/
theorem rounded_le_largest (hF : F.Usual) (hx : 0 < x) (h : x ≤ F.largest) : F.rounded rm neg x ≤ F.largest := by
  have hlog : Int.log 2 x < F.bias + 1 :=
    (Int.lt_zpow_iff_log_lt one_lt_two hx).1 (by exact_mod_cast h.trans_lt F.largest_lt)
  have hq : max (F.unit x) F.qmin ≤ F.bias - F.fb := by
    have := emin_le_bias hF
    rw [unit, qmin]
    omega
  have hpos : (0 : ℝ) < 2 ^ max (F.unit x) F.qmin := by positivity
  have hlargest : F.largest = (((2 ^ (F.fb + 1) - 1) * 2 ^ (F.bias - F.fb - max (F.unit x) F.qmin).toNat : ℤ) : ℝ) *
      2 ^ max (F.unit x) F.qmin := by
    rw [largest, SameSide.zpow_split hq]
    push_cast
    ring
  rw [hlargest] at h ⊢
  rw [rounded, Rm.toUnit]
  refine mul_le_mul_of_nonneg_right ?_ hpos.le
  exact_mod_cast Rm.integer_le rm neg ((div_le_iff₀ hpos).2 h)

/-- The nearest value of the format is finite and within half a unit. -/
theorem RoundsTo.near (h : F.RoundsTo .rne neg x false r) (hF : F.Usual) (hx : 0 < x) (hfit : x ≤ F.largest) :
    F.IsFinite r.bits ∧ |F.num r.bits - signed neg x| ≤ 2 ^ F.ulpExp (Int.log 2 x) / 2 ∧ r.flags &&& 0x1C = 0 := by
  obtain ⟨-, hsign, hfin, hnum, -, -, hflags⟩ := h.2.2 (by simp) (rounded_le_largest hF hx hfit)
  refine ⟨hfin, ?_, hflags⟩
  have hdist : |F.num r.bits - signed neg x| = |F.rounded .rne neg x - x| := by
    rw [num_eq_signed, hsign, hnum]
    cases neg
    · simp
    · rw [signed_true, signed_true, ← abs_neg]; congr 1; ring
  rw [hdist, ← unit_eq_ulpExp]
  exact nearest_dist x _

theorem flushOut_false (F : Fmt) (neg : Bool) (r : Rounded) : F.flushOut false neg r = r.res := by simp [flushOut]

theorem pick_cases {op code a nearest : ℕ} {ok : ℕ → Bool} {P : ℕ → Prop} (hok : ∀ r, ok r = true → P r) (hnear : P nearest) :
    P (F.pick op code a ok nearest) := by
  show P (if ok _ = true then _ else nearest)
  split
  next h => exact hok _ h
  next => exact hnear

theorem flushed_of_not_isZero (h : ¬F.IsZero z a) : F.flushed z a = a := if_neg fun hf => h (.inr hf)

theorem IsFinite.value_of_not_isZero (ha : F.IsFinite a) (h : ¬F.IsZero z a) :
    F.flushIn z a = a ∧ F.value a = .fin (F.minus a) (F.sigOf a) (F.expOf a) ∧ F.sigOf a ≠ 0 := by
  refine ⟨flushed_of_not_isZero h, value_of_isFinite ha, fun hs => h ?_⟩
  rw [← sigOf_flushed_eq_zero_iff, flushed_of_not_isZero h, hs]

theorem not_isZero_of_num_ne_zero (h : F.num a ≠ 0) : ¬F.IsZero false a := fun hz =>
  sigOf_ne_zero_iff.2 h (sigOf_eq_zero_iff.2 (by simpa [IsZero, magOf] using hz))

theorem minus_of_num_pos (h : 0 < F.num a) : F.minus a = false := by
  by_contra hs
  rw [Bool.not_eq_false] at hs
  rw [num_eq_signed] at h
  exact h.not_gt ((signed_lt_zero_iff (abs_pos.2 fun h0 => by simp [h0, signed] at h)).2 hs)

/-! ### Reciprocals -/

/-- The model's test that a pattern lies within 2^u of the reciprocal of `±m × 2^e`. -/
def frcpOk (F : Fmt) (neg : Bool) (m : ℕ) (e u : ℤ) (r : ℕ) : Bool :=
  match F.value r with
  | .fin s mr er =>
    let k := min (min (er + e) 0) (u + e)
    let d := (sumAt k [.fin s (mr * m) (er + e)] - (if neg then -1 else 1) * (2 ^ (0 - k).toNat : Nat)).natAbs
    decide (d ≤ m * 2 ^ (u + e - k).toNat)
  | _ => false

theorem natCast_natAbs (i : ℤ) : (i.natAbs : ℝ) = |(i : ℝ)| := by rw [Nat.cast_natAbs, Int.cast_abs]

theorem isFinite_of_value {s : Bool} {m : ℕ} {e : ℤ} (h : F.value a = .fin s m e) : F.IsFinite a ∧ F.num a = signed s (m * 2 ^ e) := by
  obtain ⟨hfin, hnum⟩ := holds_iff.1 ⟨s, m, e, h, rfl⟩
  exact ⟨hfin, by rw [← hnum, signed, mul_assoc]⟩

theorem frcpOk_spec {m : ℕ} (hm : m ≠ 0) {e u : ℤ} {r : ℕ} (h : F.frcpOk neg m e u r = true) :
    F.IsFinite r ∧ |F.num r - signed neg (1 / (m * 2 ^ e))| ≤ 2 ^ u := by
  rw [frcpOk] at h
  split at h
  next s mr er hval =>
    obtain ⟨hfin, hnum⟩ := isFinite_of_value hval
    refine ⟨hfin, ?_⟩
    simp only [decide_eq_true_eq] at h
    set k := min (min (er + e) 0) (u + e) with hk
    have hkpos : (0 : ℝ) < 2 ^ k := by positivity
    have hx : (0 : ℝ) < m * 2 ^ e := by positivity
    have hA : ((sumAt k [.fin s (mr * m) (er + e)] : ℤ) : ℝ) * 2 ^ k = F.num r * (m * 2 ^ e) := by
      rw [sumAt_singleton, FVal.share_spec (fun _ => (min_le_left _ _).trans (min_le_left _ _)), hnum, signed, signed, zpow_add₀ two_ne_zero]
      push_cast
      ring
    have hB : (((if neg then -1 else 1) * (2 ^ (0 - k).toNat : ℕ) : ℤ) : ℝ) * 2 ^ k = signed neg 1 := by
      have hone := SameSide.zpow_split (show k ≤ 0 from (min_le_left _ _).trans (min_le_right _ _))
      rw [zpow_zero] at hone
      push_cast at hone ⊢
      rw [signed, mul_assoc, ← hone]
    have hC : ((m * 2 ^ (u + e - k).toNat : ℕ) : ℝ) * 2 ^ k = 2 ^ u * (m * 2 ^ e) := by
      have := SameSide.zpow_split (show k ≤ u + e from min_le_right _ _)
      rw [mul_left_comm, ← zpow_add₀ two_ne_zero, this]
      push_cast
      ring
    have hle : |F.num r * (m * 2 ^ e) - signed neg 1| ≤ 2 ^ u * (m * 2 ^ e) := by
      rw [← hA, ← hB, ← hC, ← sub_mul, abs_mul, abs_of_pos hkpos, ← Int.cast_sub, ← natCast_natAbs]
      exact mul_le_mul_of_nonneg_right (by exact_mod_cast h) hkpos.le
    have hdist : F.num r - signed neg (1 / (m * 2 ^ e)) = (F.num r * (m * 2 ^ e) - signed neg 1) / (m * 2 ^ e) := by
      rw [signed, signed]
      field_simp
    rwa [hdist, abs_div, abs_of_pos hx, div_le_iff₀ hx]
  next => cases h

/-- FRCP of a finite operand that is not zero. -/
theorem frcp_finite (ha : F.IsFinite a) (h0 : ¬F.IsZero z a) : F.frcp z a =
    let n := F.minus a
    let m := F.sigOf a
    let e := F.expOf a
    let o := oddPart 64 m e
    let q := quotient 1 0 m e (F.fb + 4)
    let near := F.round .rne n q.1 q.2
    if near.res.flags &&& fOF ≠ 0 then { bits := F.inf n, flags := fOF ||| fNX }
    else
      let u := F.ulpExp (-e - (if o.1 = 1 then (m.log2 : Int) else m.log2 + 1))
      let r := F.apxFlags z n q.1 q.2 (F.pick 0 F.code a (F.frcpOk n m e u) near.res.bits)
      if o.1 = 1 then F.exactOr z n 1 (-o.2) r else r := by
  obtain ⟨hflush, hval, hm⟩ := ha.value_of_not_isZero h0
  simp only [frcp, hflush, hval, if_neg hm]
  rfl

theorem sigOf_lt_two_pow_64 (hF : F.Usual) (a : ℕ) : F.sigOf a < 2 ^ 64 :=
  (F.sigOf_lt a).trans_le (Nat.pow_le_pow_right two_pos (by have := hF.fb_le; omega))

theorem two_pow_mul_le {f t m : ℕ} (hm : m ≠ 0) (ht : t + 1 ≤ 2 * f) (h : (2 ^ (f + 1) - 1) * m < 2 ^ t) : 2 ^ (f + 1) * m ≤ 2 ^ t := by
  have hone : 1 ≤ 2 ^ f := Nat.one_le_two_pow
  have hle : 2 ^ (f + 1) - 1 ≤ (2 ^ (f + 1) - 1) * m := Nat.le_mul_of_pos_right _ (Nat.pos_of_ne_zero hm)
  have htf : f + 1 ≤ t := by
    by_contra hlt
    have := Nat.pow_le_pow_right two_pos (show t ≤ f by omega)
    rw [pow_succ] at hle h
    omega
  obtain ⟨k, rfl⟩ := Nat.exists_eq_add_of_le htf
  have hk : 2 ^ k < 2 ^ (f + 1) := Nat.pow_lt_pow_right one_lt_two (by omega)
  rw [pow_add 2 (f + 1) k] at h ⊢
  generalize 2 ^ (f + 1) = p at *
  generalize 2 ^ k = c at *
  refine Nat.mul_le_mul_left _ (not_lt.1 fun hlt => ?_)
  obtain ⟨j, rfl⟩ := Nat.exists_eq_add_of_lt hlt
  obtain ⟨p, rfl⟩ := Nat.exists_eq_add_of_lt hk
  rw [Nat.add_sub_cancel] at h
  nlinarith

/-- A reciprocal past the largest finite value is past the next power of two. -/
theorem two_pow_le_of_largest_lt {m : ℕ} (hm : m ≠ 0) {e : ℤ} (he : F.qmin ≤ e) (h : F.largest < 1 / (m * 2 ^ e)) :
    (2 : ℝ) ^ (F.bias + 1) ≤ 1 / (m * 2 ^ e) := by
  have hx : (0 : ℝ) < m * 2 ^ e := by positivity
  have hmpos : (1 : ℝ) ≤ m := by exact_mod_cast Nat.pos_of_ne_zero hm
  set t := F.fb - F.bias - e with ht
  have htpos : (0 : ℝ) < 2 ^ t := by positivity
  have hlow : F.largest * (m * 2 ^ e) = (2 ^ (F.fb + 1) - 1) * m / 2 ^ t := by
    rw [largest, eq_div_iff htpos.ne', ht, mul_assoc, mul_assoc, mul_assoc (m : ℝ), ← zpow_add₀ two_ne_zero, mul_left_comm (2 ^ _),
      ← zpow_add₀ two_ne_zero, show F.bias - F.fb + (e + (F.fb - F.bias - e)) = 0 by ring, zpow_zero, mul_one]
  have hhigh : (2 : ℝ) ^ (F.bias + 1) * (m * 2 ^ e) = 2 ^ (F.fb + 1) * m / 2 ^ t := by
    rw [eq_div_iff htpos.ne', ht, mul_assoc, mul_assoc, ← zpow_add₀ two_ne_zero, mul_left_comm, ← zpow_add₀ two_ne_zero,
      show F.bias + 1 + (e + (F.fb - F.bias - e)) = (F.fb + 1 : ℕ) by push_cast; ring, zpow_natCast, mul_comm]
  rw [lt_div_iff₀ hx, hlow, div_lt_one htpos] at h
  rw [le_div_iff₀ hx, hhigh, div_le_one htpos]
  have hpow : (2 : ℝ) ≤ 2 ^ (F.fb + 1) := by rw [pow_succ]; nlinarith [one_le_pow₀ (one_le_two (α := ℝ)) (n := F.fb)]
  have ht0 : 0 < t := by
    by_contra hle
    have := zpow_le_one_of_nonpos₀ (one_le_two (α := ℝ)) (not_lt.1 hle)
    nlinarith
  obtain ⟨n, hn⟩ := Int.eq_ofNat_of_zero_le ht0.le
  rw [hn, zpow_natCast] at h ⊢
  have hnat : (2 ^ (F.fb + 1) - 1) * m < 2 ^ n := by
    zify [Nat.one_le_two_pow (n := F.fb + 1)]
    exact_mod_cast h
  have hbound : n + 1 ≤ 2 * F.fb := by
    rw [qmin, emin] at he
    omega
  exact_mod_cast two_pow_mul_le hm hbound hnat

theorem log_eq_of_bounds {l : ℤ} (hlo : (2 : ℝ) ^ l ≤ x) (hhi : x < 2 ^ (l + 1)) : Int.log 2 x = l := by
  have hx : 0 < x := (by positivity : (0 : ℝ) < 2 ^ l).trans_le hlo
  have h1 := (Int.zpow_le_iff_le_log one_lt_two hx).1 (by exact_mod_cast hlo : ((2 : ℕ) : ℝ) ^ l ≤ x)
  have h2 := (Int.lt_zpow_iff_log_lt one_lt_two hx).1 (by exact_mod_cast hhi : x < ((2 : ℕ) : ℝ) ^ (l + 1))
  omega

theorem oddPart_of_two_pow {m fuel : ℕ} (hm : m ≠ 0) (hlt : m < 2 ^ fuel) {e k : ℤ} (h : (m : ℝ) * 2 ^ e = 2 ^ k) :
    oddPart fuel m e = (1, k) := by
  obtain ⟨hodd, hval⟩ := oddPart_spec hm hlt e
  have hone : ((oddPart fuel m e).1 : ℝ) * 2 ^ (oddPart fuel m e).2 = (1 : ℕ) * 2 ^ k := by rw [← hval, h, Nat.cast_one, one_mul]
  obtain ⟨h1, h2⟩ := odd_mul_zpow_unique hodd rfl hone
  exact Prod.ext h1 h2

/-- The odd part is one exactly of the powers of two. -/
theorem oddPart_eq_one_iff {m fuel : ℕ} (hm : m ≠ 0) (hlt : m < 2 ^ fuel) (e : ℤ) :
    (oddPart fuel m e).1 = 1 ↔ ∃ k : ℤ, (m : ℝ) * 2 ^ e = 2 ^ k := by
  constructor
  · intro h
    exact ⟨_, by rw [(oddPart_spec hm hlt e).2, h, Nat.cast_one, one_mul]⟩
  · rintro ⟨k, hk⟩
    rw [oddPart_of_two_pow hm hlt hk]

/-- The binade of a reciprocal. -/
theorem log_inv {m : ℕ} (hm : m ≠ 0) (e : ℤ) {fuel : ℕ} (hlt : m < 2 ^ fuel) :
    Int.log 2 (1 / ((m : ℝ) * 2 ^ e)) = -e - (if (oddPart fuel m e).1 = 1 then (m.log2 : ℤ) else m.log2 + 1) := by
  have hx : (0 : ℝ) < m * 2 ^ e := by positivity
  have hlog := log_number hm e
  obtain ⟨hlo, hhi⟩ := log_bounds hx
  split
  next h =>
    obtain ⟨k, hk⟩ := (oddPart_eq_one_iff hm hlt e).1 h
    have hkl : e + m.log2 = k := by
      rw [← hlog, hk]
      exact_mod_cast Int.log_zpow (R := ℝ) (b := 2) one_lt_two k
    rw [hk, one_div, ← zpow_neg]
    refine log_eq_of_bounds (zpow_le_zpow_right₀ one_le_two (by omega)) (zpow_lt_zpow_right₀ one_lt_two (by omega))
  next h =>
    have hne : (2 : ℝ) ^ Int.log 2 ((m : ℝ) * 2 ^ e) ≠ m * 2 ^ e := fun heq => h ((oddPart_eq_one_iff hm hlt e).2 ⟨_, heq.symm⟩)
    have hlt := lt_of_le_of_ne hlo hne
    rw [hlog] at hlt hhi
    apply log_eq_of_bounds
    · rw [show -e - ((m.log2 : ℤ) + 1) = -(e + m.log2 + 1) by ring, zpow_neg, ← one_div]
      exact one_div_le_one_div_of_le hx hhi.le
    · rw [show -e - ((m.log2 : ℤ) + 1) + 1 = -(e + m.log2) by ring, zpow_neg, ← one_div]
      exact one_div_lt_one_div_of_lt (by positivity) hlt

/-- A value picked within a bound, where the format does not hold the exact one. -/
theorem approximates_pick {m : ℕ} {e : ℤ} {op code nearest : ℕ} {ok : ℕ → Bool} {bound : ℝ} (hm : m ≠ 0) (hx : 0 < x)
    (hlog : Int.log 2 ((m : ℝ) * 2 ^ e) = Int.log 2 x) (hfit : x ≤ F.largest) (hno : ∀ b, ¬F.Holds b (signed neg x))
    (hok : ∀ r, ok r = true → F.IsFinite r ∧ |F.num r - signed neg x| ≤ bound)
    (hnear : F.IsFinite nearest ∧ |F.num nearest - signed neg x| ≤ bound) :
    F.Approximates (F.apxFlags false neg m e (F.pick op code a ok nearest)) (signed neg x) bound := by
  have habs : |signed neg x| = x := abs_signed neg hx.le
  obtain ⟨hfin, hdist⟩ :=
    pick_cases (P := fun r => F.IsFinite r ∧ |F.num r - signed neg x| ≤ bound) (op := op) (code := code) (a := a) hok hnear
  obtain ⟨hsmall, hnormal⟩ := F.tinyVal_of_log (neg := neg) (v := signed neg x) hm (abs_pos.1 (by rwa [habs])) (by rw [hlog, habs])
  exact approximates_apxFlags (by rwa [habs]) hno hsmall hnormal hfin hdist

/-- A number whose reciprocal the format holds is a power of two. -/
theorem pow_two_of_holds_inv {m fuel : ℕ} (hm : m ≠ 0) (hlt : m < 2 ^ fuel) (e : ℤ) {b : ℕ} (h : F.Holds b (signed neg (1 / (m * 2 ^ e)))) :
    (oddPart fuel m e).1 = 1 := by
  have hx : (0 : ℝ) < m * 2 ^ e := by positivity
  obtain ⟨-, hnum⟩ := holds_iff.1 h
  have habs : (F.sigOf b : ℝ) * 2 ^ F.expOf b = 1 / (m * 2 ^ e) := by
    rw [← abs_num, ← hnum, abs_signed neg (by positivity)]
  have hs : F.sigOf b ≠ 0 := fun hs => by
    rw [hs, Nat.cast_zero, zero_mul] at habs
    exact (one_div_pos.2 hx).ne habs
  obtain ⟨p, k, hp, hsig⟩ := exists_odd hs
  obtain ⟨hodd, hval⟩ := oddPart_spec hm hlt e
  rw [hval] at habs hx
  set o := oddPart fuel m e
  have hprod : ((o.1 * p : ℕ) : ℝ) * 2 ^ (o.2 + k + F.expOf b) = (1 : ℕ) * 2 ^ (0 : ℤ) := by
    rw [eq_div_iff hx.ne', hsig] at habs
    rw [zpow_add₀ two_ne_zero, zpow_add₀ two_ne_zero, zpow_natCast, zpow_zero, Nat.cast_one, one_mul, ← habs]
    push_cast
    ring
  have hmul : o.1 * p % 2 = 1 := by rw [Nat.mul_mod, hodd, hp]
  exact Nat.eq_one_of_mul_eq_one_right (odd_mul_zpow_unique hmul rfl hprod).1

theorem approximates_overflow (hx : 0 < x) (h : F.largest < x) (bound : ℝ) :
    F.Approximates { bits := F.inf neg, flags := fOF ||| fNX } (signed neg x) bound := by
  have habs : |signed neg x| = x := abs_signed neg hx.le
  refine ⟨fun _ => ⟨?_, rfl⟩, fun hle => absurd (habs ▸ hle) h.not_ge⟩
  simp only [inf, sign, signed_lt_zero_iff hx]
  rfl

theorem and_fOF_eq_zero {f : BitVec 5} (h : f &&& 0x1C = 0) : f &&& fOF = 0 := by
  revert f
  decide

/-- The exact result where there is one, else one within the bound. -/
theorem approximates_exactOr (hF : F.Usual) {m : ℕ} (hm : m ≠ 0) {e : ℤ} (hx : x = m * 2 ^ e) (hfit : x ≤ F.largest) {bound : ℝ}
    (hb : 0 ≤ bound) {other : FRes} (hother : (∀ b, ¬F.Holds b (signed neg x)) → F.Approximates other (signed neg x) bound) :
    F.Approximates (F.exactOr false neg m e other) (signed neg x) bound := by
  have hpos : 0 ≤ x := by rw [hx]; positivity
  obtain ⟨hflags, hholds⟩ | ⟨heq, hno⟩ := exactOr_cases hF (neg := neg) hm e (hx ▸ hfit) other
  · exact approximates_exact (by rwa [abs_signed neg hpos]) hb hflags (hx ▸ hholds)
  · rw [heq]
    exact hother (hx ▸ hno)

theorem one_div_num (F : Fmt) (a : ℕ) : 1 / F.num a = signed (F.minus a) (1 / (F.sigOf a * 2 ^ F.expOf a)) := by
  rw [num_eq_signed, abs_num, ← signed_false (1 : ℝ), signed_div_signed, Bool.false_xor, signed_false]

theorem frcp_approximates (hF : F.Usual) (ha : F.IsFinite a) (h0 : F.num a ≠ 0) :
    F.Approximates (F.frcp false a) (1 / F.num a) (F.ulp (1 / F.num a)) := by
  have hm : F.sigOf a ≠ 0 := sigOf_ne_zero_iff.2 h0
  have hz := not_isZero_of_num_ne_zero h0
  have hlt := sigOf_lt_two_pow_64 hF a
  have hy : (0 : ℝ) < 1 / (F.sigOf a * 2 ^ F.expOf a) := by positivity
  obtain ⟨hq, hlog, hround⟩ := round_quotient one_ne_zero hm 0 (F.expOf a) (F.fb + 4) hF .rne (F.minus a) false (by omega)
  rw [Nat.cast_one, zpow_zero, mul_one] at hlog hround
  rw [flushOut_false] at hround
  rw [frcp_finite ha hz, one_div_num, ulp_eq, abs_signed _ hy.le, log_inv hm (F.expOf a) hlt]
  simp only
  rcases lt_or_ge F.largest (1 / (F.sigOf a * 2 ^ F.expOf a) : ℝ) with hover | hfit
  · have hbig := two_pow_le_of_largest_lt hm (F.qmin_le_expOf a) hover
    have hbinade : F.bias < Int.log 2 (1 / (F.sigOf a * 2 ^ F.expOf a) : ℝ) :=
      Int.lt_of_add_one_le ((Int.zpow_le_iff_le_log one_lt_two hy).1 (by exact_mod_cast hbig))
    have hflags : (F.round .rne _ _ _).res.flags = _ := (hround.2.1 (by simp) (largest_lt_rounded hF hy hbinade)).2.2
    rw [if_pos (by rw [hflags]; decide)]
    exact approximates_overflow hy hover _
  · have hnear := hround.near hF hy hfit
    rw [log_inv hm (F.expOf a) hlt] at hnear
    rw [if_neg (not_not.2 (and_fOF_eq_zero hnear.2.2))]
    set u := F.ulpExp (-F.expOf a - if (oddPart 64 (F.sigOf a) (F.expOf a)).1 = 1 then ((F.sigOf a).log2 : ℤ) else (F.sigOf a).log2 + 1)
    have hunit : (0 : ℝ) < 2 ^ u := by positivity
    have hpicked (hno : ∀ b, ¬F.Holds b (signed (F.minus a) (1 / (F.sigOf a * 2 ^ F.expOf a)))) :=
      approximates_pick (op := 0) (code := F.code) (a := a) (bound := 2 ^ u) hq hy hlog hfit hno (fun r => frcpOk_spec hm)
        ⟨hnear.1, hnear.2.1.trans (by linarith)⟩
    split
    next hodd =>
      refine approximates_exactOr hF one_ne_zero ?_ hfit hunit.le hpicked
      rw [(oddPart_spec hm hlt _).2, hodd, zpow_neg, Nat.cast_one, one_mul, one_mul, one_div]
    next hodd => exact hpicked fun b hb => hodd (pow_two_of_holds_inv hm hlt _ hb)

end Sys2Proof.Machine.Fmt
end

section
/-! FRSQ (R124, R125). -/

namespace Sys2Proof.Machine.Fmt

variable {F : Fmt} {z : Bool} {a : ℕ} {x : ℝ}

theorem leScaled_iff {i j : ℕ} {a b : ℤ} : leScaled i a j b = true ↔ (i : ℝ) * 2 ^ a ≤ j * 2 ^ b := by
  have hpos : (0 : ℝ) < 2 ^ min a b := by positivity
  rw [leScaled, decide_eq_true_eq, SameSide.zpow_split (min_le_left a b), SameSide.zpow_split (min_le_right a b), ← mul_assoc,
    ← mul_assoc, mul_le_mul_iff_left₀ hpos]
  exact_mod_cast Iff.rfl

/-- The model's test that a pattern lies within 2^u of the reciprocal root of `m × 2^e`. -/
def frsqOk (F : Fmt) (m : ℕ) (e u : ℤ) (r : ℕ) : Bool :=
  match F.value r with
  | .fin false mr er =>
    let k := min er u
    let t := mr * 2 ^ (er - k).toNat
    let d := 2 ^ (u - k).toNat
    leScaled 1 0 ((t + d) * (t + d) * m) (2 * k + e) && leScaled ((t - d) * (t - d) * m) (2 * k + e) 1 0
  | _ => false

/-- The reciprocal root of the model, with a last bit for what is left of it. -/
def invRoot (F : Fmt) (m : ℕ) (e : ℤ) : ℕ × ℤ :=
  let m' := if e % 2 = 0 then m else 2 * m
  let e' := if e % 2 = 0 then e else e - 1
  let n := 2 * (F.fb + m'.log2 + 8)
  (2 * isqrt (2 ^ n / m') + 1, -(e' / 2) - (n / 2 : ℕ) - 1)

/-- FRSQ of a finite operand that is positive. -/
theorem frsq_finite (ha : F.IsFinite a) (h0 : ¬F.IsZero z a) (hneg : F.minus a = false) : F.frsq z a =
    let m := F.sigOf a
    let e := F.expOf a
    let o := oddPart 64 m e
    if o.1 = 1 ∧ o.2 % 2 = 0 then F.deliver .rne z false 1 (-(o.2 / 2))
    else
      let v := F.invRoot m e
      F.apxFlags z false v.1 v.2 (F.pick 1 F.code a (F.frsqOk m e (F.ulpExp (-((e + m.log2) / 2) - 1)))
        (F.round .rne false v.1 v.2).res.bits) := by
  obtain ⟨hflush, hval, hm⟩ := ha.value_of_not_isZero h0
  simp only [frsq, hflush, hval, if_neg hm, hneg]
  rfl

theorem le_one_div_sqrt_iff {w : ℝ} (hx : 0 < x) (hw : 0 ≤ w) : w ≤ 1 / √x ↔ w * w * x ≤ 1 := by
  rw [← Real.sqrt_one, ← Real.sqrt_div zero_le_one, Real.le_sqrt hw (by positivity), le_div_iff₀ hx, sq, Real.sqrt_one]

theorem one_div_sqrt_le_iff {w : ℝ} (hx : 0 < x) (hw : 0 ≤ w) : 1 / √x ≤ w ↔ 1 ≤ w * w * x := by
  rw [← Real.sqrt_one, ← Real.sqrt_div zero_le_one, Real.sqrt_le_left hw, div_le_iff₀ hx, sq, Real.sqrt_one]

theorem one_div_sqrt_eq {w : ℝ} (hx : 0 < x) (hw : 0 ≤ w) (h : w * w * x = 1) : 1 / √x = w :=
  le_antisymm ((one_div_sqrt_le_iff hx hw).2 h.ge) ((le_one_div_sqrt_iff hx hw).2 h.le)

theorem frsqOk_spec {m : ℕ} (hm : m ≠ 0) {e u : ℤ} {r : ℕ} (h : F.frsqOk m e u r = true) :
    F.IsFinite r ∧ |F.num r - 1 / √((m : ℝ) * 2 ^ e)| ≤ 2 ^ u := by
  have hx : (0 : ℝ) < m * 2 ^ e := by positivity
  rw [frsqOk] at h
  split at h
  next mr er hval =>
    obtain ⟨hfin, hnum⟩ := isFinite_of_value hval
    rw [signed_false] at hnum
    refine ⟨hfin, ?_⟩
    obtain ⟨habove, hbelow⟩ := Bool.and_eq_true_iff.1 h
    rw [leScaled_iff] at habove hbelow
    set k := min er u
    set t := mr * 2 ^ (er - k).toNat
    set d := 2 ^ (u - k).toNat
    have hk : (0 : ℝ) < 2 ^ k := by positivity
    have ht : F.num r = t * 2 ^ k := by
      simp only [t, hnum, SameSide.zpow_split (show k ≤ er from min_le_left ..)]
      push_cast
      ring
    have hd : (2 : ℝ) ^ u = d * 2 ^ k := by
      simp only [d, SameSide.zpow_split (show k ≤ u from min_le_right ..)]
      push_cast
      rfl
    have hscale (c : ℕ) : ((c * c * m : ℕ) : ℝ) * 2 ^ (2 * k + e) = c * 2 ^ k * (c * 2 ^ k) * (m * 2 ^ e) := by
      rw [two_mul, zpow_add₀ two_ne_zero, zpow_add₀ two_ne_zero]
      push_cast
      ring
    rw [hscale, Nat.cast_one, zpow_zero, one_mul] at habove hbelow
    rw [← one_div_sqrt_le_iff hx (by positivity)] at habove
    rw [← le_one_div_sqrt_iff hx (by positivity)] at hbelow
    rw [ht, hd, abs_sub_le_iff]
    have hsub : ((t : ℝ) - d) * 2 ^ k ≤ (t - d : ℕ) * 2 ^ k :=
      mul_le_mul_of_nonneg_right (by rw [sub_le_iff_le_add]; exact_mod_cast le_tsub_add) hk.le
    push_cast at habove
    constructor <;> nlinarith
  next => cases h

/-- The odd part is one with an even exponent exactly of the powers of four. -/
theorem oddPart_square_iff {m fuel : ℕ} (hm : m ≠ 0) (hlt : m < 2 ^ fuel) (e : ℤ) :
    ((oddPart fuel m e).1 = 1 ∧ (oddPart fuel m e).2 % 2 = 0) ↔ ∃ (s : ℕ) (j : ℤ), (m : ℝ) * 2 ^ e * (s * 2 ^ j * (s * 2 ^ j)) = 1 := by
  obtain ⟨hodd, hval⟩ := oddPart_spec hm hlt e
  rw [hval]
  set o := oddPart fuel m e
  constructor
  · rintro ⟨hone, heven⟩
    refine ⟨1, -(o.2 / 2), ?_⟩
    rw [hone, Nat.cast_one, one_mul, one_mul, ← zpow_add₀ two_ne_zero, ← zpow_add₀ two_ne_zero, ← zpow_zero (2 : ℝ)]
    congr 1
    omega
  · rintro ⟨s, j, h⟩
    have hs : s ≠ 0 := by
      rintro rfl
      simp at h
    obtain ⟨p, k, hp, rfl⟩ := exists_odd hs
    have hprod : ((o.1 * (p * p) : ℕ) : ℝ) * 2 ^ (o.2 + 2 * (k + j)) = (1 : ℕ) * 2 ^ (0 : ℤ) := by
      rw [two_mul, zpow_add₀ two_ne_zero, zpow_add₀ two_ne_zero, zpow_add₀ two_ne_zero, zpow_natCast, zpow_zero, Nat.cast_one, one_mul, ← h]
      push_cast
      ring
    have hmul : o.1 * (p * p) % 2 = 1 := by simp [Nat.mul_mod, hodd, hp]
    obtain ⟨h1, h2⟩ := odd_mul_zpow_unique hmul rfl hprod
    exact ⟨Nat.eq_one_of_mul_eq_one_right h1, by omega⟩

theorem one_div_sqrt_sq (hx : 0 < x) : x * (1 / √x * (1 / √x)) = 1 := by
  have hsq := Real.mul_self_sqrt hx.le
  have hs : √x ≠ 0 := (Real.sqrt_pos.2 hx).ne'
  field_simp
  rw [sq, hsq]

/-- The integer root of a quotient is within one of the root of the exact one. -/
theorem sqrt_div_bounds (n : ℕ) {m : ℕ} (hm : m ≠ 0) :
    (Nat.sqrt (n / m) : ℝ) ≤ √((n : ℝ) / m) ∧ √((n : ℝ) / m) < Nat.sqrt (n / m) + 1 := by
  have hpos : (0 : ℝ) < m := by positivity
  constructor
  · refine Real.le_sqrt_of_sq_le ?_
    rw [le_div_iff₀ hpos, sq]
    exact_mod_cast (Nat.mul_le_mul_right m (Nat.sqrt_le (n / m))).trans (Nat.div_mul_le_self n m)
  · rw [Real.sqrt_lt' (by positivity), div_lt_iff₀ hpos, sq]
    exact_mod_cast Nat.lt_mul_of_div_lt (Nat.lt_succ_sqrt (n / m)) (Nat.pos_of_ne_zero hm)

/-- The reciprocal root of the model rounds as the exact one does, which is no multiple of a power of two. -/
theorem invRoot_spec (hF : F.Usual) {m : ℕ} (hm : m ≠ 0) (e : ℤ)
    (hno : ¬∃ (s : ℕ) (j : ℤ), (m : ℝ) * 2 ^ e * (s * 2 ^ j * (s * 2 ^ j)) = 1) :
    let v := F.invRoot m e
    v.1 ≠ 0 ∧ Int.log 2 ((v.1 : ℝ) * 2 ^ v.2) = Int.log 2 (1 / √((m : ℝ) * 2 ^ e)) ∧
      F.RoundsTo .rne false (1 / √((m : ℝ) * 2 ^ e)) false (F.round .rne false v.1 v.2).res := by
  have hx : (0 : ℝ) < m * 2 ^ e := by positivity
  have hroot := sqrt_mul_zpow m e
  set m' := if e % 2 = 0 then m else 2 * m with hm'
  set e' := if e % 2 = 0 then e else e - 1 with he'
  have hm'0 : m' ≠ 0 := by rw [hm']; split <;> omega
  set k := F.fb + m'.log2 + 8 with hk
  set q := Nat.sqrt (2 ^ (2 * k) / m') with hq
  have hinv : F.invRoot m e = (2 * q + (if False then 0 else 1), -(e' / 2) - k - 1) := by
    simp only [invRoot, isqrt_eq, ← hm', ← he', ← hk, Nat.mul_div_cancel_left k two_pos, ← hq, if_false]
  have hy : 1 / √((m : ℝ) * 2 ^ e) = √(((2 ^ (2 * k) : ℕ) : ℝ) / m') * 2 ^ (-(e' / 2) - k) := by
    have hpow : √((2 ^ (2 * k) : ℕ) : ℝ) = 2 ^ k := by
      rw [mul_comm, pow_mul, Nat.cast_pow, Real.sqrt_sq (by positivity)]
      push_cast
      rfl
    rw [hroot, Real.sqrt_div (by positivity), hpow, zpow_sub₀ two_ne_zero, zpow_neg, zpow_natCast]
    field_simp
  obtain ⟨hlo, hhi⟩ := sqrt_div_bounds (2 ^ (2 * k)) hm'0
  have hbig : 2 ^ (F.fb + 2) ≤ q := by
    rw [hq, Nat.le_sqrt, Nat.le_div_iff_mul_le (Nat.pos_of_ne_zero hm'0), ← pow_add]
    calc 2 ^ (F.fb + 2 + (F.fb + 2)) * m' ≤ 2 ^ (F.fb + 2 + (F.fb + 2)) * 2 ^ (m'.log2 + 1) := Nat.mul_le_mul_left _ Nat.lt_log2_self.le
      _ = 2 ^ (F.fb + 2 + (F.fb + 2) + (m'.log2 + 1)) := (pow_add ..).symm
      _ ≤ 2 ^ (2 * k) := Nat.pow_le_pow_right two_pos (by omega)
  obtain ⟨hne, hlog, hround⟩ := round_sticky hF .rne false false (exact := False) (v := 1 / √((m : ℝ) * 2 ^ e))
    (g := -(e' / 2) - k) hbig (by positivity) False.elim fun _ => by
      rw [hy]
      refine ⟨mul_lt_mul_of_pos_right (lt_of_le_of_ne hlo fun heq => hno ⟨q, -(e' / 2) - k, ?_⟩) (by positivity),
        mul_lt_mul_of_pos_right hhi (by positivity)⟩
      rw [heq, ← hy]
      exact one_div_sqrt_sq hx
  rw [flushOut_false] at hround
  rw [hinv]
  exact ⟨hne, hlog, hround⟩

/-- The binade of a reciprocal root that is no power of two. -/
theorem log_one_div_sqrt {m : ℕ} (hm : m ≠ 0) (e : ℤ) (hno : ¬∃ (s : ℕ) (j : ℤ), (m : ℝ) * 2 ^ e * (s * 2 ^ j * (s * 2 ^ j)) = 1) :
    Int.log 2 (1 / √((m : ℝ) * 2 ^ e)) = -((e + m.log2) / 2) - 1 := by
  have hx : (0 : ℝ) < m * 2 ^ e := by positivity
  obtain ⟨hlo, hhi⟩ := log_bounds hx
  rw [log_number hm] at hlo hhi
  set h := (e + m.log2) / 2
  have hsq (j : ℤ) : (2 : ℝ) ^ j * 2 ^ j = 2 ^ (2 * j) := by rw [two_mul, zpow_add₀ two_ne_zero]
  have hpos (j : ℤ) : (0 : ℝ) < 2 ^ j := by positivity
  apply log_eq_of_bounds
  · rw [le_one_div_sqrt_iff hx (hpos _).le, hsq, ← le_div_iff₀' (hpos _), one_div, ← zpow_neg]
    exact hhi.le.trans (zpow_le_zpow_right₀ one_le_two (by omega))
  · rw [← not_le, le_one_div_sqrt_iff hx (hpos _).le, hsq, ← le_div_iff₀' (hpos _), one_div, ← zpow_neg, not_le]
    refine lt_of_le_of_ne ((zpow_le_zpow_right₀ one_le_two (by omega)).trans hlo) fun heq => hno ⟨1, -h, ?_⟩
    rw [← heq, Nat.cast_one, one_mul, hsq, ← zpow_add₀ two_ne_zero, ← zpow_zero (2 : ℝ)]
    congr 1
    omega

theorem one_div_sqrt_le_largest (hF : F.Usual) {m : ℕ} (hm : m ≠ 0) {e : ℤ} (he : F.qmin ≤ e) :
    1 / √((m : ℝ) * 2 ^ e) ≤ F.largest := by
  have hx : (0 : ℝ) < m * 2 ^ e := by positivity
  refine le_trans ?_ F.two_pow_bias_le_largest
  rw [one_div_sqrt_le_iff hx (by positivity), ← zpow_add₀ two_ne_zero, mul_left_comm, ← zpow_add₀ two_ne_zero]
  have hone : (1 : ℝ) ≤ m := by exact_mod_cast Nat.pos_of_ne_zero hm
  have hfb := hF.fb_le_bias
  have hpow : (1 : ℝ) ≤ 2 ^ (F.bias + F.bias + e) := one_le_zpow₀ one_le_two (by rw [qmin, emin] at he; omega)
  nlinarith

/-- A value of the format is delivered as it is. -/
theorem approximates_deliver (hF : F.Usual) {neg : Bool} {m : ℕ} (hm : m ≠ 0) (hlt : m < 2 ^ (F.fb + 1)) {e : ℤ} (he : F.qmin ≤ e)
    (hx : x = m * 2 ^ e) (hfit : x ≤ F.largest) {bound : ℝ} (hb : 0 ≤ bound) :
    F.Approximates (F.deliver .rne false neg m e) (signed neg x) bound := by
  have hpos : 0 < x := by rw [hx]; positivity
  have hround : F.RoundsTo .rne neg (m * 2 ^ e) false (F.deliver .rne false neg m e) := by
    rw [deliver_of_ne_zero hm]
    exact F.round_roundsTo .rne neg hm e hF false
  rw [← hx] at hround
  obtain ⟨hflags, -, hsign, hfin, hnum⟩ := hround.exact hpos (hx ▸ rounded_eq_self hlt hm he) hfit (by simp)
  exact approximates_exact (by rwa [abs_signed neg hpos.le]) hb hflags (holds_iff.2 ⟨hfin, by rw [num_eq_signed, hsign, hnum]⟩)

theorem frsq_approximates (hF : F.Usual) (ha : F.IsFinite a) (h0 : 0 < F.num a) :
    F.Approximates (F.frsq false a) (1 / √(F.num a)) (F.ulp (1 / √(F.num a))) := by
  have hm : F.sigOf a ≠ 0 := sigOf_ne_zero_iff.2 h0.ne'
  have hz := not_isZero_of_num_ne_zero h0.ne'
  have hneg := minus_of_num_pos h0
  have hnum : F.num a = F.sigOf a * 2 ^ F.expOf a := by rw [num_eq_signed, abs_num, hneg, signed_false]
  have hlt := sigOf_lt_two_pow_64 hF a
  have hy : (0 : ℝ) < 1 / √(F.sigOf a * 2 ^ F.expOf a) := by positivity
  have hfit := one_div_sqrt_le_largest hF hm (F.qmin_le_expOf a)
  have hsquare := oddPart_square_iff hm hlt (F.expOf a)
  rw [frsq_finite ha hz hneg, ulp_eq, hnum, abs_of_pos hy]
  nth_rw 1 [← signed_false (1 / √_)]
  simp only
  split
  next h =>
    obtain ⟨-, hval⟩ := oddPart_spec hm hlt (F.expOf a)
    rw [h.1, Nat.cast_one, one_mul] at hval
    have hle : (2 : ℝ) ^ (oddPart 64 (F.sigOf a) (F.expOf a)).2 < 2 ^ (F.bias + 1) := by
      rw [← hval, ← abs_num]
      exact (abs_num_le_largest hF ha).trans_lt F.largest_lt
    rw [zpow_lt_zpow_iff_right₀ one_lt_two] at hle
    have hfb := hF.fb_le_bias
    have hfb' := hF.fb_pos
    refine approximates_deliver hF one_ne_zero (Nat.one_lt_two_pow (by omega)) (by rw [qmin, emin]; omega) ?_ hfit (by positivity)
    refine one_div_sqrt_eq (by positivity) (by positivity) ?_
    rw [hval, Nat.cast_one, one_mul, ← zpow_add₀ two_ne_zero, ← zpow_add₀ two_ne_zero, ← zpow_zero (2 : ℝ)]
    congr 1
    omega
  next h =>
    have hno := mt hsquare.2 h
    obtain ⟨hne, hlog, hround⟩ := invRoot_spec hF hm (F.expOf a) hno
    have hbinade := log_one_div_sqrt hm (F.expOf a) hno
    have hnear := hround.near hF hy hfit
    rw [hbinade] at hnear ⊢
    have hunit : (0 : ℝ) < 2 ^ F.ulpExp (-((F.expOf a + (F.sigOf a).log2) / 2) - 1) := by positivity
    refine approximates_pick hne hy hlog hfit (fun b hb => hno ⟨F.sigOf b, F.expOf b, ?_⟩)
      (fun r hr => by rw [signed_false]; exact frsqOk_spec hm hr) ⟨hnear.1, hnear.2.1.trans (by linarith)⟩
    obtain ⟨-, hb⟩ := holds_iff.1 hb
    rw [← F.abs_num b, ← hb, signed_false, abs_of_pos hy]
    exact one_div_sqrt_sq (by positivity)

end Sys2Proof.Machine.Fmt
end

section
/-! The fixed-point evaluation of 2^x (R124): how far its result is from the exact power. -/

namespace Sys2Proof.Machine

theorem two_rpow_le {t : ℝ} (h0 : 0 ≤ t) (h1 : t ≤ 1) : (2 : ℝ) ^ t ≤ 1 + t := by
  have h := rpow_one_add_le_one_add_mul_self (s := 1) (by norm_num) h0 h1
  norm_num at h
  linarith

/-- The exact value of `root` with `n` bits of the fraction left. -/
noncomputable def expRoot (n : ℕ) : ℝ := (2 : ℝ) ^ ((2 : ℝ) ^ n / 2 ^ 129)

theorem one_le_expRoot (n : ℕ) : 1 ≤ expRoot n := Real.one_le_rpow one_le_two (by positivity)

theorem expRoot_mul_self (n : ℕ) : expRoot n * expRoot n = expRoot (n + 1) := by
  rw [expRoot, expRoot, ← Real.rpow_add two_pos]
  congr 1
  ring

/-- The exact factor of the low `n` bits of the fraction. -/
noncomputable def expPart (f n : ℕ) : ℝ := (2 : ℝ) ^ (((f % 2 ^ n : ℕ) : ℝ) / 2 ^ 128)

theorem expPart_zero (f : ℕ) : expPart f 0 = 1 := by simp [expPart, Nat.mod_one]

theorem one_le_expPart (f n : ℕ) : 1 ≤ expPart f n := Real.one_le_rpow one_le_two (by positivity)

theorem expPart_le_two (f : ℕ) {n : ℕ} (hn : n ≤ 128) : expPart f n ≤ 2 := by
  rw [expPart]
  conv_rhs => rw [← Real.rpow_one 2]
  refine Real.rpow_le_rpow_of_exponent_le one_le_two ?_
  rw [div_le_one (by positivity)]
  exact_mod_cast (Nat.mod_lt f (Nat.two_pow_pos n)).le.trans (Nat.pow_le_pow_right two_pos hn)

theorem expPart_succ (f n : ℕ) : expPart f (n + 1) = expPart f n * if f / 2 ^ n % 2 = 1 then expRoot (n + 1) else 1 := by
  have hmod : f % 2 ^ (n + 1) = f % 2 ^ n + 2 ^ n * (f / 2 ^ n % 2) := Nat.mod_pow_succ
  have hbit := Nat.mod_lt (f / 2 ^ n) two_pos
  rw [expPart, expPart, hmod]
  split
  next h =>
    rw [h, expRoot, ← Real.rpow_add two_pos]
    congr 1
    push_cast
    ring
  next h =>
    rw [show f / 2 ^ n % 2 = 0 by omega, mul_zero, add_zero, mul_one]

/-- The next root, from one that is at most three units short. -/
theorem isqrt_root {w n rt : ℕ} (hw : 2 ≤ w) (hrt : 2 ^ w ≤ rt) (hlo : 2 ^ w * expRoot (n + 1) - 3 ≤ rt) (hhi : rt ≤ 2 ^ w * expRoot (n + 1)) :
    2 ^ w ≤ isqrt (rt * 2 ^ w) ∧ 2 ^ w * expRoot n - 3 ≤ isqrt (rt * 2 ^ w) ∧ isqrt (rt * 2 ^ w) ≤ 2 ^ w * expRoot n := by
  have hone := one_le_expRoot n
  have hW : (2 : ℝ) ^ 2 ≤ 2 ^ w := pow_le_pow_right₀ one_le_two hw
  rw [← expRoot_mul_self] at hlo hhi
  rw [isqrt_eq]
  obtain ⟨hsq, hsq'⟩ := sqrt_bounds (rt * 2 ^ w)
  push_cast at hsq hsq'
  refine ⟨Nat.le_sqrt.2 (Nat.mul_le_mul_right _ hrt), ?_, ?_⟩
  · have h : 2 ^ w * expRoot n - 2 ≤ √((rt : ℝ) * 2 ^ w) := by
      refine Real.le_sqrt_of_sq_le ?_
      have := mul_le_mul_of_nonneg_right hlo (show (0 : ℝ) ≤ 2 ^ w by positivity)
      nlinarith
    linarith
  · refine hsq.trans (Real.sqrt_le_iff.2 ⟨by positivity, ?_⟩)
    nlinarith

/-- A factor taken into the product loses at most seven units. -/
theorem mul_root {w rt acc : ℕ} {ρ : ℝ} (hlo : 2 ^ w * ρ - 3 ≤ rt) (hhi : rt ≤ 2 ^ w * ρ) (hacc : (acc : ℝ) ≤ 2 * 2 ^ w) :
    acc * ρ - 7 ≤ (acc * rt / 2 ^ w : ℕ) ∧ ((acc * rt / 2 ^ w : ℕ) : ℝ) ≤ acc * ρ := by
  have hW : (0 : ℝ) < 2 ^ w := by positivity
  have hfloor : ((acc * rt / 2 ^ w : ℕ) : ℝ) * 2 ^ w ≤ acc * rt := by exact_mod_cast Nat.div_mul_le_self _ _
  have hnext : (acc * rt : ℝ) < ((acc * rt / 2 ^ w : ℕ) + 1) * 2 ^ w := by
    exact_mod_cast Nat.lt_mul_of_div_lt (Nat.lt_succ_self _) (Nat.two_pow_pos w)
  have hacc0 : (0 : ℝ) ≤ acc := Nat.cast_nonneg _
  constructor
  · refine le_of_mul_le_mul_right ?_ hW
    nlinarith
  · refine le_of_mul_le_mul_right ?_ hW
    nlinarith

/-- The product of the model: at most the exact one, and less by at most fourteen units for each bit. -/
theorem expBits_spec {w : ℕ} (hw : 2 ≤ w) {f : ℕ} : ∀ {n rt acc : ℕ}, n ≤ 128 → 2 ^ w ≤ rt → 2 ^ w * expRoot n - 3 ≤ rt → rt ≤ 2 ^ w * expRoot n →
    (acc : ℝ) * expPart f n ≤ 2 * 2 ^ w →
    acc ≤ expBits n w f rt acc ∧ acc * expPart f n - 14 * n ≤ expBits n w f rt acc ∧ expBits n w f rt acc ≤ acc * expPart f n
  | 0, rt, acc, _, _, _, _, _ => by simp [expBits, expPart_zero]
  | n + 1, rt, acc, hn, hrt, hlo, hhi, hacc => by
    have hone := one_le_expPart f n
    have htwo := expPart_le_two f (show n ≤ 128 by omega)
    have hacc0 : (0 : ℝ) ≤ acc := Nat.cast_nonneg _
    obtain ⟨hrt', hlo', hhi'⟩ := isqrt_root hw hrt hlo hhi
    rw [expBits]
    rw [expPart_succ] at hacc ⊢
    split
    next hbit =>
      rw [if_pos hbit] at hacc
      have hroot := one_le_expRoot (n + 1)
      have hle : (acc : ℝ) ≤ acc * (expPart f n * expRoot (n + 1)) := le_mul_of_one_le_right hacc0 (one_le_mul_of_one_le_of_one_le hone hroot)
      obtain ⟨hprod, hprod'⟩ := mul_root hlo hhi (hle.trans hacc)
      obtain ⟨hge, hlow, hhigh⟩ := expBits_spec hw (f := f) (acc := acc * rt / 2 ^ w) (show n ≤ 128 by omega) hrt' hlo' hhi' (by nlinarith)
      refine ⟨?_, ?_, ?_⟩
      · refine le_trans ((Nat.le_div_iff_mul_le (Nat.two_pow_pos w)).2 (Nat.mul_le_mul_left acc hrt)) hge
      · push_cast at *
        nlinarith
      · nlinarith
    next hbit =>
      rw [if_neg hbit, mul_one] at hacc
      obtain ⟨hge, hlow, hhigh⟩ := expBits_spec hw (f := f) (acc := acc) (show n ≤ 128 by omega) hrt' hlo' hhi' hacc
      refine ⟨hge, ?_, ?_⟩
      · push_cast
        linarith
      · linarith

/-- The power of a fraction in [0, 1), as the model evaluates it to `w` bits, and what it falls short of. -/
def expFixed (w f : ℕ) : ℕ := expBits 128 w f (isqrt (2 ^ (2 * w + 1))) (2 ^ w)

theorem expFixed_spec {w : ℕ} (hw : 2 ≤ w) {f : ℕ} (hf : f < 2 ^ 128) :
    2 ^ w ≤ expFixed w f ∧ 2 ^ w * (2 : ℝ) ^ ((f : ℝ) / 2 ^ 128) - 1792 ≤ expFixed w f ∧
      expFixed w f ≤ 2 ^ w * (2 : ℝ) ^ ((f : ℝ) / 2 ^ 128) := by
  have hpart : expPart f 128 = (2 : ℝ) ^ ((f : ℝ) / 2 ^ 128) := by rw [expPart, Nat.mod_eq_of_lt hf]
  have hroot : 2 ^ w * expRoot 128 = √((2 ^ (2 * w + 1) : ℕ) : ℝ) := by
    rw [eq_comm, Real.sqrt_eq_iff_mul_self_eq (by positivity) (mul_nonneg (by positivity) (zero_le_one.trans (one_le_expRoot _))),
      mul_mul_mul_comm, expRoot_mul_self, expRoot]
    norm_num
    ring
  obtain ⟨hlo, hhi⟩ := sqrt_bounds (2 ^ (2 * w + 1))
  rw [← hroot, ← isqrt_eq] at hlo hhi
  have hrt : 2 ^ w ≤ isqrt (2 ^ (2 * w + 1)) := by
    rw [isqrt_eq, Nat.le_sqrt, ← pow_add]
    exact Nat.pow_le_pow_right two_pos (by omega)
  have htwo := expPart_le_two f le_rfl
  have hW : (0 : ℝ) < 2 ^ w := by positivity
  obtain ⟨hge, hlow, hhigh⟩ := expBits_spec hw (f := f) (acc := 2 ^ w) le_rfl hrt (by linarith) hlo (by push_cast; nlinarith)
  rw [hpart, Nat.cast_pow, Nat.cast_ofNat] at hlow hhigh
  rw [show (14 : ℝ) * (128 : ℕ) = 1792 by norm_num] at hlow
  exact ⟨hge, hlow, hhigh⟩

/-- The same of the fraction's exact value, which the model cuts to 128 bits. -/
theorem expFixed_near {f : ℕ} {t : ℝ} (h0 : (f : ℝ) ≤ t * 2 ^ 128) (h1 : t * 2 ^ 128 < f + 1) (ht : t < 1) :
    2 ^ 192 ≤ expFixed 192 f ∧ expFixed 192 f ≤ 2 ^ 192 * (2 : ℝ) ^ t ∧ 2 ^ 192 * (2 : ℝ) ^ t ≤ expFixed 192 f + 2 ^ 66 := by
  have hf : f < 2 ^ 128 := by
    have : (f : ℝ) < 2 ^ 128 := by linarith
    exact_mod_cast this
  obtain ⟨hone, hlo, hhi⟩ := expFixed_spec (w := 192) (by norm_num) hf
  set s : ℝ := (f : ℝ) / 2 ^ 128 with hs
  have hst : s ≤ t := by rw [hs, div_le_iff₀ (by positivity)]; exact h0
  have hts : t - s ≤ 1 / 2 ^ 128 := by rw [hs]; linarith
  have hpow : (2 : ℝ) ^ s ≤ 2 ^ t := Real.rpow_le_rpow_of_exponent_le one_le_two hst
  have hs0 : 0 ≤ s := by positivity
  have hstep : (2 : ℝ) ^ t ≤ 2 ^ s * (1 + 1 / 2 ^ 128) := by
    have := two_rpow_le (sub_nonneg.2 hst) (by linarith)
    rw [show t = s + (t - s) by ring, Real.rpow_add two_pos]
    exact mul_le_mul_of_nonneg_left (by linarith) (by positivity)
  have htwo : (2 : ℝ) ^ s ≤ 2 := by
    conv_rhs => rw [← Real.rpow_one 2]
    exact Real.rpow_le_rpow_of_exponent_le one_le_two (by linarith)
  refine ⟨hone, hhi.trans (by linarith), ?_⟩
  norm_num at hstep hlo ⊢
  linarith

end Sys2Proof.Machine
end

section
/-! FEXP2 (R124, R125). -/

namespace Sys2Proof.Machine

/-- A power of two with a dyadic exponent is a dyadic number only where the exponent is an integer. -/
theorem two_rpow_dyadic {t : ℝ} {k : ℕ} {p : ℤ} (ht : t * 2 ^ k = p) {s : ℕ} (hs : s % 2 = 1) {q : ℤ} (h : (2 : ℝ) ^ t = s * 2 ^ q) :
    s = 1 ∧ t = q := by
  have hpow : (2 : ℝ) ^ p = (s * 2 ^ q) ^ 2 ^ k := by
    rw [← h, ← Real.rpow_mul_natCast two_pos.le, ← Real.rpow_intCast, ← ht]
    push_cast
    rfl
  have hprod : ((s ^ 2 ^ k : ℕ) : ℝ) * 2 ^ (q * (2 ^ k : ℕ)) = (1 : ℕ) * 2 ^ p := by
    rw [Nat.cast_one, one_mul, hpow, mul_pow, zpow_mul, zpow_natCast, Nat.cast_pow]
  have hodd : s ^ 2 ^ k % 2 = 1 := Nat.odd_iff.1 ((Nat.odd_iff.2 hs).pow)
  obtain ⟨hone, -⟩ := odd_mul_zpow_unique hodd rfl hprod
  obtain rfl : s = 1 := (Nat.pow_eq_one.1 hone).resolve_right (by positivity)
  rw [Nat.cast_one, one_mul, ← Real.rpow_intCast] at h
  exact ⟨rfl, (Real.strictMono_rpow_of_base_gt_one one_lt_two).injective h⟩

namespace Fmt

variable {F : Fmt} {z : Bool} {a : ℕ} {x : ℝ}

/-- What the model's test for nearness shows. -/
theorem near_spec {r n slack : ℕ} {v g u : ℤ} (h : F.near r v g n u slack = true) :
    F.IsFinite r ∧ |F.num r - v * 2 ^ g| + slack * 2 ^ g ≤ n * 2 ^ u := by
  rw [near] at h
  split at h
  next s m e hval =>
    obtain ⟨hfin, hnum⟩ := isFinite_of_value hval
    refine ⟨hfin, ?_⟩
    rw [decide_eq_true_eq] at h
    set k := min (min e g) u
    have hk : (0 : ℝ) < 2 ^ k := by positivity
    have hsum : ((sumAt k [.fin s m e] : ℤ) : ℝ) * 2 ^ k = F.num r := by
      rw [sumAt_singleton, FVal.share_spec (fun _ => (min_le_left _ _).trans (min_le_left _ _)), hnum]
    have hg := SameSide.zpow_split (show k ≤ g from (min_le_left _ _).trans (min_le_right _ _))
    have hu := SameSide.zpow_split (show k ≤ u from min_le_right _ _)
    have hdist : |((sumAt k [.fin s m e] - v * 2 ^ (g - k).toNat : ℤ) : ℝ)| * 2 ^ k = |F.num r - v * 2 ^ g| := by
      rw [hg, ← hsum, ← mul_assoc, ← sub_mul, abs_mul, abs_of_pos hk]
      push_cast
      rfl
    have hle : ((_ : ℕ) : ℝ) * 2 ^ k ≤ ((_ : ℕ) : ℝ) * 2 ^ k := mul_le_mul_of_nonneg_right (Nat.cast_le.2 h) hk.le
    have hslack : ((slack * 2 ^ (g - k).toNat : ℕ) : ℝ) * 2 ^ k = slack * 2 ^ g := by rw [hg]; push_cast; ring
    have hbound : ((n * 2 ^ (u - k).toNat : ℕ) : ℝ) * 2 ^ k = n * 2 ^ u := by rw [hu]; push_cast; ring
    rw [Nat.cast_add, natCast_natAbs, add_mul, hdist, hslack, hbound] at hle
    exact hle
  next => cases h

/-! ### The range of FEXP2 -/

theorem bias_add_one (F : Fmt) : ((F.bias + 1 : ℤ) : ℝ) = 2 ^ (F.eb - 1) := by
  rw [bias, sub_add_cancel]
  push_cast
  rfl

/-- Below a power of two, the values of the format keep a distance from it. -/
theorem num_le_of_lt_bias (hF : F.Usual) (h : F.num a < F.bias + 1) :
    F.num a ≤ F.bias + 1 - 2 ^ ((F.eb : ℤ) - 2 - F.fb) := by
  set g : ℤ := F.eb - 2 - F.fb with hg
  have hgpos : (0 : ℝ) < 2 ^ g := by positivity
  have hbias : (F.bias : ℝ) + 1 = ((2 ^ (F.fb + 1) : ℤ) : ℝ) * 2 ^ g := by
    have := F.bias_add_one
    push_cast at this
    rw [this, ← zpow_add_natCast, ← zpow_natCast]
    congr 1
    have := hF.eb_pos
    push_cast
    omega
  have hstep : F.bias + 1 - (2 : ℝ) ^ g = ((2 ^ (F.fb + 1) - 1 : ℤ) : ℝ) * 2 ^ g := by
    rw [hbias]
    push_cast
    ring
  rw [hstep]
  rcases le_or_gt (F.expOf a) g with hle | hlt
  · have hs : (F.sigOf a : ℝ) ≤ ((2 ^ (F.fb + 1) - 1 : ℤ) : ℝ) := by
      have hlt : (F.sigOf a : ℤ) < 2 ^ (F.fb + 1) := by exact_mod_cast F.sigOf_lt a
      exact_mod_cast Int.le_sub_one_of_lt hlt
    calc F.num a ≤ |F.num a| := le_abs_self _
      _ = F.sigOf a * 2 ^ F.expOf a := F.abs_num a
      _ ≤ _ := mul_le_mul hs (zpow_le_zpow_right₀ one_le_two hle) (by positivity) ((Nat.cast_nonneg _).trans hs)
  · have hint : ∃ n : ℤ, F.num a = n * 2 ^ g := by
      refine ⟨(if F.minus a then -1 else 1) * F.sigOf a * 2 ^ (F.expOf a - g).toNat, ?_⟩
      rw [num_eq, SameSide.zpow_split hlt.le]
      push_cast
      ring
    obtain ⟨n, hn⟩ := hint
    rw [hn, hbias, mul_lt_mul_iff_left₀ hgpos, Int.cast_lt] at h
    rw [hn]
    exact mul_le_mul_of_nonneg_right (by exact_mod_cast Int.le_sub_one_of_lt h) hgpos.le

/-- Two to a value below the overflow bound keeps a distance from the largest finite value. -/
theorem two_rpow_le_largest (hF : F.Usual) (heb : F.eb ≤ F.fb + 2) (h : x ≤ F.bias + 1 - 2 ^ ((F.eb : ℤ) - 2 - F.fb)) :
    (2 : ℝ) ^ x + 2 ^ (F.bias - 126) ≤ F.largest := by
  set δ : ℝ := 2 ^ ((F.eb : ℤ) - 2 - F.fb) with hδ
  have hδpos : 0 < δ := by positivity
  have hδle : δ ≤ 1 := zpow_le_one_of_nonpos₀ one_le_two (by omega)
  have hhalf : (2 : ℝ) ^ (-δ) ≤ 1 - δ / 2 := by
    have := rpow_one_add_le_one_add_mul_self (s := -(1 / 2)) (by norm_num) hδpos.le hδle
    norm_num at this
    rw [Real.rpow_neg two_pos.le, ← Real.inv_rpow two_pos.le]
    norm_num
    linarith
  have hpow : (2 : ℝ) ^ x ≤ 2 ^ (F.bias + 1) * (1 - δ / 2) := by
    calc (2 : ℝ) ^ x ≤ 2 ^ (((F.bias + 1 : ℤ) : ℝ) + -δ) := Real.rpow_le_rpow_of_exponent_le one_le_two (by push_cast; linarith)
      _ = 2 ^ (F.bias + 1) * 2 ^ (-δ) := by rw [Real.rpow_add two_pos, Real.rpow_intCast]
      _ ≤ _ := mul_le_mul_of_nonneg_left hhalf (by positivity)
  set B : ℝ := 2 ^ (F.bias - F.fb) with hB
  have hsmall : (2 : ℝ) ^ (F.bias - 126) ≤ B := zpow_le_zpow_right₀ one_le_two (by have := hF.fb_le; omega)
  have htop : (2 : ℝ) ^ (F.bias + 1) = 2 ^ (F.fb + 1) * B := by
    rw [hB, ← zpow_natCast, ← zpow_add₀ two_ne_zero]
    congr 1
    push_cast
    ring
  have hgap : 2 * B ≤ 2 ^ (F.bias + 1) * (δ / 2) := by
    have hfour : 2 * B * 2 = 2 ^ (F.bias - F.fb + 1 + 1) := by
      rw [zpow_add_one₀ two_ne_zero, zpow_add_one₀ two_ne_zero, ← hB]
      ring
    rw [hδ, mul_div_assoc', ← zpow_add₀ two_ne_zero, le_div_iff₀ two_pos, hfour]
    exact zpow_le_zpow_right₀ one_le_two (by have := hF.eb_pos; omega)
  rw [largest, ← hB]
  linarith

/-! ### The operation -/

/-- FEXP2 of `v / one`, in its range. -/
def expIn (F : Fmt) (z : Bool) (a : ℕ) (v one : ℤ) : FRes :=
  let i := v / one
  let w := apxQ + 64
  let y := expFixed w ((v - i * one) * 2 ^ apxQ / one).toNat
  let r := F.apxFlags z false (2 * y + 1) (i - w - 1)
    (F.pick 2 F.code a (fun r => F.near r y (i - w) 2 (F.ulpExp i) (2 ^ 72)) (F.round .rne false (2 * y + 1) (i - w - 1)).res.bits)
  if v = i * one then F.exactOr z false 1 i r else r

/-- The least exponent that FEXP2 does not take to zero (R125). -/
def expLow (F : Fmt) : ℤ := if F = fp64 then -1075 else -150

/-- FEXP2 of a finite operand that is not zero: the operand is an integer `v` over a power of two. -/
theorem fexp2_finite (ha : F.IsFinite a) (h0 : ¬F.IsZero z a) : ∃ (v : ℤ) (k : ℕ), F.num a * 2 ^ k = v ∧ F.fexp2 z a =
    if (F.bias + 1) * 2 ^ k ≤ v then { bits := F.inf false, flags := fOF ||| fNX }
    else if v < F.expLow * 2 ^ k then { bits := F.sign false, flags := fUF ||| fNX }
    else F.expIn z a v (2 ^ k) := by
  obtain ⟨hflush, hval, hm⟩ := ha.value_of_not_isZero h0
  refine ⟨sumAt (min (F.expOf a) 0) [.fin (F.minus a) (F.sigOf a) (F.expOf a)], (0 - min (F.expOf a) 0).toNat, ?_, ?_⟩
  · have hk : (2 : ℝ) ^ (0 - min (F.expOf a) 0).toNat * 2 ^ min (F.expOf a) 0 = 1 := by
      have := SameSide.zpow_split (min_le_right (F.expOf a) 0)
      push_cast at this
      rw [← this, zpow_zero]
    have hsum := FVal.share_spec (x := min (F.expOf a) 0) (n := F.minus a) (m := F.sigOf a) (e := F.expOf a) fun _ => min_le_left ..
    rw [sumAt_singleton, num_eq_signed, abs_num, ← hsum, mul_assoc, mul_comm (2 ^ min _ _), hk, mul_one]
  · simp only [fexp2, hflush, hval, if_neg hm]
    rfl

/-- The integer part of a dyadic number, and the first bits of its fraction. -/
theorem dyadic_parts {v : ℤ} {k : ℕ} (hv : x * 2 ^ k = v) :
    let i : ℤ := v / 2 ^ k
    let f : ℕ := ((v - i * 2 ^ k) * 2 ^ 128 / 2 ^ k).toNat
    i ≤ x ∧ x < i + 1 ∧ (f : ℝ) ≤ (x - i) * 2 ^ 128 ∧ (x - i) * 2 ^ 128 < f + 1 := by
  intro i f
  have hk : (0 : ℤ) < 2 ^ k := by positivity
  have hkR : (0 : ℝ) < 2 ^ k := by positivity
  have hlo : (i : ℝ) * 2 ^ k ≤ v := by exact_mod_cast Int.ediv_mul_le v hk.ne'
  have hhi : (v : ℝ) < (i + 1) * 2 ^ k := by exact_mod_cast Int.lt_ediv_add_one_mul_self v hk
  rw [← hv, mul_le_mul_iff_left₀ hkR] at hlo
  rw [← hv, mul_lt_mul_iff_left₀ hkR] at hhi
  have hfrac : (x - i) * 2 ^ 128 * 2 ^ k = (((v - i * 2 ^ k) * 2 ^ 128 : ℤ) : ℝ) := by
    push_cast
    rw [← hv]
    ring
  have hnonneg : 0 ≤ (v - i * 2 ^ k) * 2 ^ 128 :=
    mul_nonneg (sub_nonneg.2 (Int.ediv_mul_le v hk.ne')) (by positivity)
  have hf : (f : ℤ) = (v - i * 2 ^ k) * 2 ^ 128 / 2 ^ k := Int.toNat_of_nonneg (Int.ediv_nonneg hnonneg hk.le)
  have hf1 : (f : ℤ) * 2 ^ k ≤ (v - i * 2 ^ k) * 2 ^ 128 := hf ▸ Int.ediv_mul_le _ hk.ne'
  have hf2 : (v - i * 2 ^ k) * 2 ^ 128 < ((f : ℤ) + 1) * 2 ^ k := hf ▸ Int.lt_ediv_add_one_mul_self _ hk
  refine ⟨hlo, hhi, ?_, ?_⟩
  · refine le_of_mul_le_mul_right ?_ hkR
    rw [hfrac]
    exact_mod_cast hf1
  · refine lt_of_mul_lt_mul_right ?_ hkR.le
    rw [hfrac]
    exact_mod_cast hf2

/-- The integer part of an exponent is the binade of its power. -/
theorem log_two_rpow {i : ℤ} (hlo : i ≤ x) (hhi : x < i + 1) : Int.log 2 ((2 : ℝ) ^ x) = i := by
  refine log_eq_of_bounds ?_ ?_
  · rw [← Real.rpow_intCast]
    exact Real.rpow_le_rpow_of_exponent_le one_le_two hlo
  · rw [← Real.rpow_intCast]
    exact Real.rpow_lt_rpow_of_exponent_lt one_lt_two (by exact_mod_cast hhi)

theorem ulpExp_ge (hF : F.Usual) (l : ℤ) : l - 52 ≤ F.ulpExp l := by
  have hfb := hF.fb_le
  rw [ulpExp, qmin]
  split <;> omega

/-- The format holds a power with a dyadic exponent only where the exponent is an integer. -/
theorem eq_ediv_of_holds {v : ℤ} {k : ℕ} (hv : x * 2 ^ k = v) {b : ℕ} (hb : F.Holds b (2 ^ x)) : v = v / 2 ^ k * 2 ^ k := by
  have hpos : (0 : ℝ) < 2 ^ x := by positivity
  obtain ⟨-, hnum⟩ := holds_iff.1 hb
  have habs : (2 : ℝ) ^ x = F.sigOf b * 2 ^ F.expOf b := by rw [← abs_num, ← hnum, abs_of_pos hpos]
  obtain ⟨p, j, hp, hsig⟩ := exists_odd (sigOf_ne_zero_iff.2 (hnum ▸ hpos.ne'))
  obtain ⟨-, hx⟩ := two_rpow_dyadic hv hp (q := F.expOf b + j) (by
    rw [habs, hsig, zpow_add₀ two_ne_zero, zpow_natCast]
    push_cast
    ring)
  have hint : v = (F.expOf b + j) * 2 ^ k := by exact_mod_cast (hx ▸ hv).symm
  rw [hint, Int.mul_ediv_cancel _ (by positivity)]

/-- The middle of the last unit of the fixed-point power: its binade, and how near it is to the exact power. -/
theorem expFixed_scaled {v : ℤ} {k : ℕ} (hv : x * 2 ^ k = v) :
    let i : ℤ := v / 2 ^ k
    let y := expFixed (apxQ + 64) ((v - i * 2 ^ k) * 2 ^ apxQ / 2 ^ k).toNat
    let mid : ℝ := (2 * y + 1 : ℕ) * 2 ^ (i - (apxQ + 64 : ℕ) - 1)
    Int.log 2 mid = i ∧ |mid - 2 ^ x| ≤ 2 ^ (i - 126) := by
  intro i y mid
  obtain ⟨hi, hi', hf, hf'⟩ := dyadic_parts hv
  obtain ⟨hone, hy, hy'⟩ := expFixed_near hf hf' (by linarith)
  have hyeq : expFixed 192 ((v - i * 2 ^ k) * 2 ^ 128 / 2 ^ k).toNat = y := rfl
  rw [hyeq] at hone hy hy'
  have hexp : i - ((apxQ + 64 : ℕ) : ℤ) - 1 = i - 193 := by simp [apxQ]; ring
  have hscale (j : ℕ) : (2 : ℝ) ^ j * 2 ^ (i - 193) = 2 ^ (i - 193 + j) := by
    rw [← zpow_natCast, ← zpow_add₀ two_ne_zero, add_comm]
  simp only [mid, hexp]
  have hpow : (2 : ℝ) ^ x = 2 ^ (x - i) * (2 ^ 193 * 2 ^ (i - 193)) := by
    rw [hscale, show x = x - i + i by ring, Real.rpow_add two_pos, Real.rpow_intCast, sub_add_cancel]
    congr 2
    push_cast
    ring
  constructor
  · have htwo : (2 : ℝ) ^ (x - i) < 2 := by
      conv_rhs => rw [← Real.rpow_one 2]
      exact Real.rpow_lt_rpow_of_exponent_lt one_lt_two (by linarith)
    have hylt : y < 2 ^ 193 := by
      have : (y : ℝ) < 2 ^ 193 := hy.trans_lt (by norm_num; linarith)
      exact_mod_cast this
    apply log_eq_of_bounds
    · have hi : (2 : ℝ) ^ i = 2 ^ 193 * 2 ^ (i - 193) := by rw [hscale, Nat.cast_ofNat, sub_add_cancel]
      rw [hi]
      exact mul_le_mul_of_nonneg_right (by exact_mod_cast (by omega : 2 ^ 193 ≤ 2 * y + 1)) (by positivity)
    · have hi : (2 : ℝ) ^ (i + 1) = 2 ^ 194 * 2 ^ (i - 193) := by
        rw [hscale]
        congr 1
        push_cast
        ring
      rw [hi]
      exact mul_lt_mul_of_pos_right (by exact_mod_cast (by omega : 2 * y + 1 < 2 ^ 194)) (by positivity)
  · rw [hpow, show i - 126 = i - 193 + (67 : ℕ) by push_cast; ring, ← hscale, ← mul_assoc, ← sub_mul, abs_mul,
      abs_of_pos (by positivity : (0 : ℝ) < 2 ^ (i - 193))]
    refine mul_le_mul_of_nonneg_right ?_ (by positivity)
    push_cast
    rw [abs_le]
    constructor <;> linarith

theorem expIn_approximates (hF : F.Usual) {v : ℤ} {k : ℕ} (hv : x * 2 ^ k = v) (hlt : x < F.bias + 1)
    (hfit : (2 : ℝ) ^ x + 2 ^ (F.bias - 126) ≤ F.largest) :
    F.Approximates (F.expIn false a v (2 ^ k)) (2 ^ x) (2 * 2 ^ F.ulpExp (Int.log 2 ((2 : ℝ) ^ x))) := by
  obtain ⟨hi, hi', -, -⟩ := dyadic_parts hv
  obtain ⟨hlog, hclose⟩ := expFixed_scaled hv
  have hbinade := log_two_rpow hi hi'
  simp only [expIn]
  set i := v / 2 ^ k
  set y := expFixed (apxQ + 64) ((v - i * 2 ^ k) * 2 ^ apxQ / 2 ^ k).toNat
  have hpos : (0 : ℝ) < 2 ^ x := by positivity
  have hsmall : (0 : ℝ) < 2 ^ (F.bias - 126) := by positivity
  have hbias : i ≤ F.bias := Int.lt_add_one_iff.1 (by exact_mod_cast hi.trans_lt hlt)
  have hunit : (2 : ℝ) ^ (i - 126) ≤ 2 ^ F.ulpExp i / 2 := by
    rw [le_div_iff₀ two_pos, ← zpow_add_one₀ two_ne_zero]
    exact zpow_le_zpow_right₀ one_le_two (by have := ulpExp_ge hF i; omega)
  have hupos : (0 : ℝ) < 2 ^ F.ulpExp i := by positivity
  have hle : (2 : ℝ) ^ (i - 126) ≤ 2 ^ (F.bias - 126) := zpow_le_zpow_right₀ one_le_two (by omega)
  set g : ℤ := i - (apxQ + 64 : ℕ) with hg
  have hround : F.RoundsTo .rne false ((2 * y + 1 : ℕ) * 2 ^ (g - 1)) false (F.round .rne false (2 * y + 1) (g - 1)).res :=
    F.round_roundsTo .rne false (Nat.succ_ne_zero _) _ hF false
  obtain ⟨hfin, hnear, -⟩ := hround.near hF (by positivity) (by linarith [le_abs_self (((2 * y + 1 : ℕ) : ℝ) * 2 ^ (g - 1) - 2 ^ x)])
  rw [hlog, signed_false] at hnear
  have hok {r : ℕ} (h : F.near r y g 2 (F.ulpExp i) (2 ^ 72) = true) : F.IsFinite r ∧ |F.num r - 2 ^ x| ≤ 2 * 2 ^ F.ulpExp i := by
    obtain ⟨hr, hd⟩ := near_spec h
    refine ⟨hr, ?_⟩
    have hsplit : ((2 * y + 1 : ℕ) : ℝ) * 2 ^ (g - 1) = ((y : ℤ) : ℝ) * 2 ^ g + 2 ^ (g - 1) := by
      rw [show (2 : ℝ) ^ g = 2 ^ (g - 1) * 2 by rw [← zpow_add_one₀ two_ne_zero, sub_add_cancel]]
      push_cast
      ring
    have hslack : (2 : ℝ) ^ (i - 126) + 2 ^ (g - 1) ≤ (2 ^ 72 : ℕ) * 2 ^ g := by
      have h1 : (2 : ℝ) ^ (i - 126) ≤ 2 ^ 66 * 2 ^ g := by
        rw [← zpow_natCast, ← zpow_add₀ two_ne_zero]
        exact zpow_le_zpow_right₀ one_le_two (by simp [hg, apxQ]; omega)
      have h2 : (2 : ℝ) ^ (g - 1) ≤ 2 ^ g := zpow_le_zpow_right₀ one_le_two (by omega)
      have h3 : (0 : ℝ) < 2 ^ g := by positivity
      norm_num at h1 ⊢
      linarith
    have h1 := abs_sub_le (F.num r) (((y : ℤ) : ℝ) * 2 ^ g) (2 ^ x)
    have h2 : |((y : ℤ) : ℝ) * 2 ^ g - 2 ^ x| ≤ 2 ^ (i - 126) + 2 ^ (g - 1) := by
      rw [show ((y : ℤ) : ℝ) * 2 ^ g - 2 ^ x = ((2 * y + 1 : ℕ) : ℝ) * 2 ^ (g - 1) - 2 ^ x - 2 ^ (g - 1) by rw [hsplit]; ring]
      exact (abs_sub _ _).trans (add_le_add hclose (abs_of_pos (by positivity)).le)
    rw [Nat.cast_ofNat] at hd
    linarith
  have hpicked (hno : ∀ b, ¬F.Holds b (signed false (2 ^ x))) := approximates_pick (op := 2) (code := F.code) (a := a)
    (bound := 2 * 2 ^ F.ulpExp i) (Nat.succ_ne_zero (2 * y)) hpos (hlog.trans hbinade.symm) (by linarith) hno
    (fun r hr => by rw [signed_false]; exact hok hr)
    ⟨hfin, by
      rw [signed_false]
      linarith [abs_sub_le (F.num (F.round .rne false (2 * y + 1) (g - 1)).res.bits) (((2 * y + 1 : ℕ) : ℝ) * 2 ^ (g - 1)) (2 ^ x)]⟩
  have hfit' : (2 : ℝ) ^ x ≤ F.largest := by linarith
  rw [hbinade, ← signed_false ((2 : ℝ) ^ x)]
  split
  next hint =>
    refine approximates_exactOr hF one_ne_zero ?_ hfit' (by positivity) hpicked
    have hxi : x = i := by
      have hk : (2 : ℝ) ^ k ≠ 0 := by positivity
      rw [hint] at hv
      push_cast at hv
      exact mul_right_cancel₀ hk hv
    rw [hxi, Real.rpow_intCast, Nat.cast_one, one_mul]
  next hint => exact hpicked fun b hb => hint (eq_ediv_of_holds hv (signed_false _ ▸ hb))

theorem fexp2_approximates (hF : F.Usual) (heb : F.eb ≤ F.fb + 2) (ha : F.IsFinite a) (h0 : F.num a ≠ 0) (hlow : F.expLow ≤ F.num a) :
    F.Approximates (F.fexp2 false a) (2 ^ F.num a) (2 * F.ulp (2 ^ F.num a)) := by
  have hpos : (0 : ℝ) < 2 ^ F.num a := by positivity
  obtain ⟨v, k, hv, hexp⟩ := fexp2_finite ha (not_isZero_of_num_ne_zero h0)
  have hk : (0 : ℝ) < 2 ^ k := by positivity
  have hcmp (n : ℤ) : n * 2 ^ k ≤ v ↔ (n : ℝ) ≤ F.num a := by
    rw [← mul_le_mul_iff_left₀ hk, hv]
    exact_mod_cast Iff.rfl
  rw [hexp, ulp_eq, abs_of_pos hpos]
  split
  next h =>
    rw [hcmp] at h
    rw [← signed_false ((2 : ℝ) ^ F.num a)]
    refine approximates_overflow hpos (F.largest_lt.trans_le ?_) _
    rw [← Real.rpow_intCast]
    exact Real.rpow_le_rpow_of_exponent_le one_le_two h
  next h =>
    rw [hcmp, not_le] at h
    push_cast at h
    rw [if_neg (not_lt.2 ((hcmp _).2 hlow))]
    exact expIn_approximates hF hv h (two_rpow_le_largest hF heb (num_le_of_lt_bias hF h))

end Fmt
end Sys2Proof.Machine
end

section
/-! The fixed-point evaluation of log2 (R124): how far its result is from the exact logarithm. -/

namespace Sys2Proof.Machine

theorem logb_one_add_le {t : ℝ} (ht : 0 ≤ t) : Real.logb 2 (1 + t) ≤ 2 * t := by
  have hlog := Real.log_le_sub_one_of_pos (show 0 < 1 + t by linarith)
  have htwo := Real.log_two_gt_d9
  rw [Real.logb, div_le_iff₀ (by linarith)]
  nlinarith

theorem le_logb_one_add {t : ℝ} (h0 : 0 ≤ t) (h1 : t ≤ 1) : t ≤ Real.logb 2 (1 + t) := by
  rw [Real.le_logb_iff_rpow_le one_lt_two (by linarith)]
  exact two_rpow_le h0 h1

theorem logb_one_sub_le {t : ℝ} (h0 : 0 ≤ t) (h1 : t < 1) : Real.logb 2 (1 - t) ≤ -t := by
  have hlog := Real.log_le_sub_one_of_pos (show 0 < 1 - t by linarith)
  have hgt := Real.log_two_gt_d9
  have hlt := Real.log_two_lt_d9
  rw [Real.logb, div_le_iff₀ (by linarith)]
  nlinarith

/-- The logarithm of a significand in fixed point. -/
noncomputable def fixedLog (w : ℕ) (y : ℝ) : ℝ := Real.logb 2 (y / 2 ^ w)

section

variable {w : ℕ} {y : ℝ}

theorem fixedLog_bounds (hlo : 2 ^ w ≤ y) (hhi : y < 2 * 2 ^ w) : 0 ≤ fixedLog w y ∧ fixedLog w y < 1 := by
  have hW : (0 : ℝ) < 2 ^ w := by positivity
  constructor
  · exact Real.logb_nonneg one_lt_two ((one_le_div hW).2 hlo)
  · rw [fixedLog, Real.logb_lt_iff_lt_rpow one_lt_two (by have := hW.trans_le hlo; positivity), Real.rpow_one, div_lt_iff₀ hW]
    exact hhi

theorem fixedLog_half (hy : 0 < y) : fixedLog w (y / 2) = fixedLog w y - 1 := by
  rw [fixedLog, fixedLog, div_right_comm, Real.logb_div (by positivity) two_ne_zero, Real.logb_self_eq_one one_lt_two]

theorem fixedLog_square (hy : 0 < y) : fixedLog w (y * y / 2 ^ w) = 2 * fixedLog w y := by
  rw [fixedLog, fixedLog, show y * y / 2 ^ w / 2 ^ w = y / 2 ^ w * (y / 2 ^ w) by ring, Real.logb_mul (by positivity) (by positivity)]
  ring

/-- What a cut to an integer takes from the logarithm. -/
theorem fixedLog_cut {z : ℝ} (hlo : 2 ^ w ≤ z) (hz : z ≤ y) (hz' : y ≤ z + 1) :
    fixedLog w z ≤ fixedLog w y ∧ fixedLog w y ≤ fixedLog w z + 2 / 2 ^ w := by
  have hW : (0 : ℝ) < 2 ^ w := by positivity
  have hpos : 0 < z := hW.trans_le hlo
  constructor
  · exact Real.logb_le_logb_of_le one_lt_two (by positivity) (div_le_div_of_nonneg_right hz hW.le)
  · have hstep : Real.logb 2 (y / 2 ^ w) ≤ Real.logb 2 (z / 2 ^ w * (1 + 1 / 2 ^ w)) := by
      refine Real.logb_le_logb_of_le one_lt_two (by have := hpos.trans_le hz; positivity) ?_
      have hone : 1 ≤ z / 2 ^ w := (one_le_div hW).2 hlo
      have : y / 2 ^ w ≤ z / 2 ^ w + 1 / 2 ^ w := by rw [← add_div]; exact div_le_div_of_nonneg_right hz' hW.le
      have hinv : 1 / 2 ^ w ≤ z / 2 ^ w * (1 / 2 ^ w) := le_mul_of_one_le_left (by positivity) hone
      linarith
    rw [Real.logb_mul (by positivity) (by positivity)] at hstep
    have := logb_one_add_le (show (0 : ℝ) ≤ 1 / 2 ^ w by positivity)
    rw [fixedLog, fixedLog]
    linarith [show (2 : ℝ) / 2 ^ w = 2 * (1 / 2 ^ w) by ring]

end

theorem natCast_div_bounds (n d : ℕ) (hd : 0 < d) : ((n / d : ℕ) : ℝ) ≤ n / d ∧ (n : ℝ) / d ≤ (n / d : ℕ) + 1 := by
  have hdR : (0 : ℝ) < d := by exact_mod_cast hd
  refine ⟨Nat.cast_div_le, ?_⟩
  rw [div_le_iff₀ hdR]
  exact_mod_cast (Nat.lt_mul_of_div_lt (Nat.lt_succ_self _) hd).le

/-- The bits of the model: what they stand for is at most the logarithm, and less by at most one unit and the errors of the squares. -/
theorem logBits_spec {w : ℕ} : ∀ {n y acc : ℕ}, 2 ^ w ≤ y → y < 2 * 2 ^ w →
    (logBits n w y acc : ℝ) - acc * 2 ^ n ≤ 2 ^ n * fixedLog w y ∧
      2 ^ n * fixedLog w y < logBits n w y acc - acc * 2 ^ n + 1 + 2 ^ (n + 2) / 2 ^ w
  | 0, y, acc, hlo, hhi => by
    obtain ⟨h0, h1⟩ := fixedLog_bounds (w := w) (y := y) (by exact_mod_cast hlo) (by exact_mod_cast hhi)
    have hpos : (0 : ℝ) < 2 ^ 2 / 2 ^ w := by positivity
    simp only [logBits, pow_zero, mul_one, one_mul, sub_self, zero_add]
    constructor <;> linarith
  | n + 1, y, acc, hlo, hhi => by
    have hW : (0 : ℝ) < 2 ^ w := by positivity
    have hloR : (2 : ℝ) ^ w ≤ y := by exact_mod_cast hlo
    have hypos : (0 : ℝ) < y := hW.trans_le hloR
    have hz : 2 ^ w ≤ y * y / 2 ^ w := (Nat.le_div_iff_mul_le (Nat.two_pow_pos w)).2 (Nat.mul_le_mul hlo hlo)
    have hz4 : y * y / 2 ^ w < 4 * 2 ^ w := by
      rw [Nat.div_lt_iff_lt_mul (Nat.two_pow_pos w)]
      calc y * y < 2 * 2 ^ w * (2 * 2 ^ w) := Nat.mul_lt_mul'' hhi hhi
        _ = 4 * 2 ^ w * 2 ^ w := by ring
    obtain ⟨hcut, hcut'⟩ := natCast_div_bounds (y * y) (2 ^ w) (Nat.two_pow_pos w)
    push_cast at hcut hcut'
    obtain ⟨hsq, hsq'⟩ := fixedLog_cut (z := (y * y / 2 ^ w : ℕ)) (by exact_mod_cast hz) hcut hcut'
    rw [fixedLog_square hypos] at hsq hsq'
    have hP : (0 : ℝ) ≤ 2 ^ n := by positivity
    have herr : (2 : ℝ) ^ (n + 1 + 2) / 2 ^ w = 2 ^ (n + 2) / 2 ^ w + 2 ^ n * (2 / 2 ^ w + 2 / 2 ^ w) := by ring
    have hsq1 := mul_le_mul_of_nonneg_left hsq hP
    have hsq2 := mul_le_mul_of_nonneg_left hsq' hP
    rw [logBits, herr, pow_succ (2 : ℝ) n]
    split
    next hbit =>
      have hhalf : 2 ^ w ≤ y * y / 2 ^ w / 2 := by rw [pow_succ] at hbit; omega
      obtain ⟨hc, hc'⟩ := natCast_div_bounds (y * y / 2 ^ w) 2 two_pos
      push_cast at hc hc'
      obtain ⟨hh, hh'⟩ := fixedLog_cut (z := (y * y / 2 ^ w / 2 : ℕ)) (by exact_mod_cast hhalf) hc hc'
      rw [fixedLog_half (by exact_mod_cast (Nat.two_pow_pos w).trans_le hz)] at hh hh'
      obtain ⟨h1, h2⟩ := logBits_spec (n := n) (acc := 2 * acc + 1) hhalf (by omega)
      have hh1 := mul_le_mul_of_nonneg_left hh hP
      have hh2 := mul_le_mul_of_nonneg_left hh' hP
      push_cast at h1 h2
      constructor <;> linarith
    next hbit =>
      obtain ⟨h1, h2⟩ := logBits_spec (n := n) (acc := 2 * acc) hz (by rw [pow_succ] at hbit; omega)
      have hpos : (0 : ℝ) ≤ 2 ^ n * (2 / 2 ^ w) := by positivity
      push_cast at h1 h2
      constructor <;> linarith

/-- The logarithm of `m × 2^e` in units of 2^-128, as the model evaluates it. -/
def logFixed (m : ℕ) (e : ℤ) : ℤ :=
  (e + m.log2) * 2 ^ apxQ + logBits apxQ (2 * apxQ + 64) (m * 2 ^ (2 * apxQ + 64 - m.log2)) 0

theorem logb_number {m : ℕ} (hm : m ≠ 0) (e : ℤ) {w : ℕ} (hw : m.log2 ≤ w) :
    Real.logb 2 ((m : ℝ) * 2 ^ e) = (e + m.log2 : ℤ) + fixedLog w ((m * 2 ^ (w - m.log2) : ℕ) : ℝ) := by
  have hsplit : (m : ℝ) * 2 ^ e = ((m * 2 ^ (w - m.log2) : ℕ) : ℝ) / 2 ^ w * 2 ^ (e + m.log2) := by
    rw [Nat.cast_mul, Nat.cast_pow, Nat.cast_ofNat, zpow_add₀ two_ne_zero, zpow_natCast, pow_sub₀ _ two_ne_zero hw]
    field_simp
  rw [hsplit, Real.logb_mul (by positivity) (by positivity), fixedLog, add_comm, ← Real.rpow_intCast 2 (e + m.log2),
    Real.logb_rpow two_pos (by norm_num)]

theorem logFixed_spec {m : ℕ} (hm : m ≠ 0) (hlt : m < 2 ^ 64) (e : ℤ) :
    logFixed m e ≤ Real.logb 2 ((m : ℝ) * 2 ^ e) * 2 ^ 128 ∧ Real.logb 2 ((m : ℝ) * 2 ^ e) * 2 ^ 128 < logFixed m e + 2 := by
  have hlog : m.log2 < 64 := (Nat.log2_lt hm).2 hlt
  have hlo : 2 ^ 320 ≤ m * 2 ^ (320 - m.log2) := by
    calc 2 ^ 320 = 2 ^ m.log2 * 2 ^ (320 - m.log2) := by rw [← pow_add]; congr 1; omega
      _ ≤ m * 2 ^ (320 - m.log2) := Nat.mul_le_mul_right _ (Nat.log2_self_le hm)
  have hhi : m * 2 ^ (320 - m.log2) < 2 * 2 ^ 320 := by
    calc m * 2 ^ (320 - m.log2) < 2 ^ (m.log2 + 1) * 2 ^ (320 - m.log2) :=
          Nat.mul_lt_mul_of_pos_right Nat.lt_log2_self (Nat.two_pow_pos _)
      _ = 2 * 2 ^ 320 := by rw [← pow_add, ← pow_succ']; congr 1; omega
  obtain ⟨h1, h2⟩ := logBits_spec (n := 128) (acc := 0) hlo hhi
  have hv : (logFixed m e : ℝ) = (e + m.log2 : ℤ) * 2 ^ 128 + logBits 128 320 (m * 2 ^ (320 - m.log2)) 0 := by
    have : logFixed m e = (e + m.log2) * 2 ^ 128 + (logBits 128 320 (m * 2 ^ (320 - m.log2)) 0 : ℕ) := rfl
    rw [this]
    simp only [Int.cast_add, Int.cast_mul, Int.cast_pow, Int.cast_ofNat, Int.cast_natCast]
  have herr : (2 : ℝ) ^ (128 + 2) / 2 ^ 320 ≤ 1 := (div_le_one (by positivity)).2 (pow_le_pow_right₀ one_le_two (by norm_num))
  rw [hv, logb_number hm e (w := 320) (hlog.le.trans (by norm_num)), add_mul]
  rw [Nat.cast_zero, zero_mul, sub_zero] at h1 h2
  clear hlo hhi
  generalize (2 : ℝ) ^ (128 + 2) / 2 ^ 320 = err at *
  constructor <;> linarith

/-! ### Logarithms keep a distance from integers -/

theorem div_le_one_sub {M D B : ℕ} (hM : M ≠ 0) (hlt : M < 2 ^ B) (h : M < D) (hD : D ≤ 2 ^ B ∨ 2 * 2 ^ B ≤ D) :
    (M : ℝ) / D ≤ 1 - 1 / 2 ^ B := by
  have hB : (0 : ℝ) < 2 ^ B := by positivity
  have hDpos : (0 : ℝ) < D := by exact_mod_cast (Nat.zero_le M).trans_lt h
  have hone : (1 : ℝ) ≤ M := by exact_mod_cast Nat.pos_of_ne_zero hM
  have hltR : (M : ℝ) + 1 ≤ 2 ^ B := by exact_mod_cast hlt
  rw [div_le_iff₀ hDpos, sub_mul, one_mul, one_div_mul_eq_div]
  rcases hD with hD | hD
  · have hDR : (D : ℝ) / 2 ^ B ≤ 1 := by rw [div_le_one hB]; exact_mod_cast hD
    have hMD : (M : ℝ) + 1 ≤ D := by exact_mod_cast h
    linarith
  · have hDR : 2 * (2 : ℝ) ^ B ≤ D := by exact_mod_cast hD
    have hhalf : (D : ℝ) / 2 ^ B ≤ D / 2 := div_le_div_of_nonneg_left hDpos.le two_pos (by linarith)
    linarith

/-- A number of few bits, not one, has a logarithm that is not near zero. -/
theorem le_abs_logb {M B : ℕ} (hM : M ≠ 0) (hlt : M < 2 ^ B) (E : ℤ) (hne : (M : ℝ) * 2 ^ E ≠ 1) :
    1 / 2 ^ B ≤ |Real.logb 2 ((M : ℝ) * 2 ^ E)| := by
  have hs0 : (0 : ℝ) < 1 / 2 ^ B := by positivity
  have hpos : (0 : ℝ) < M * 2 ^ E := by positivity
  have hs1 : (1 : ℝ) / 2 ^ B < 1 := by
    rw [div_lt_one (by positivity)]
    exact_mod_cast (Nat.one_le_iff_ne_zero.2 hM).trans_lt hlt
  have above (h : 1 + 1 / 2 ^ B ≤ (M : ℝ) * 2 ^ E) : 1 / 2 ^ B ≤ |Real.logb 2 ((M : ℝ) * 2 ^ E)| :=
    ((le_logb_one_add hs0.le hs1.le).trans (Real.logb_le_logb_of_le one_lt_two (by positivity) h)).trans (le_abs_self _)
  have below (h : (M : ℝ) * 2 ^ E ≤ 1 - 1 / 2 ^ B) : 1 / 2 ^ B ≤ |Real.logb 2 ((M : ℝ) * 2 ^ E)| := by
    have := (Real.logb_le_logb_of_le one_lt_two hpos h).trans (logb_one_sub_le hs0.le hs1)
    exact (le_neg_of_le_neg this).trans (neg_le_abs _)
  obtain ⟨k, rfl | rfl⟩ := E.eq_nat_or_neg
  · rw [zpow_natCast] at *
    have hint : 2 ≤ M * 2 ^ k := by
      have h1 : M * 2 ^ k ≠ 1 := by exact_mod_cast hne
      have h2 : M * 2 ^ k ≠ 0 := by positivity
      omega
    have hintR : (2 : ℝ) ≤ M * 2 ^ k := by exact_mod_cast hint
    exact above (by linarith)
  · have hdiv : (M : ℝ) * 2 ^ (-(k : ℤ)) = M / (2 ^ k : ℕ) := by
      rw [zpow_neg, zpow_natCast, div_eq_mul_inv]
      push_cast
      rfl
    rw [hdiv] at hne above below ⊢
    have hD : (0 : ℝ) < (2 ^ k : ℕ) := by positivity
    rcases lt_trichotomy M (2 ^ k) with h | h | h
    · refine below (div_le_one_sub hM hlt h ?_)
      rcases le_or_gt k B with hk | hk
      · exact .inl (Nat.pow_le_pow_right two_pos hk)
      · exact .inr (by rw [← pow_succ']; exact Nat.pow_le_pow_right two_pos hk)
    · exact absurd (by rw [h, div_self hD.ne']) hne
    · refine above ?_
      rw [le_div_iff₀ hD, add_mul, one_mul, one_div_mul_eq_div]
      have hDB : ((2 ^ k : ℕ) : ℝ) / 2 ^ B ≤ 1 := by
        rw [div_le_one (by positivity)]
        exact_mod_cast (h.trans hlt).le
      have hMR : ((2 ^ k : ℕ) : ℝ) + 1 ≤ M := by exact_mod_cast h
      linarith

end Sys2Proof.Machine
end

section
/-! FLOG2 (R124, R125). -/

namespace Sys2Proof.Machine

/-- What the two widest formats have in common besides (R103). -/
structure Fmt.Wide (F : Fmt) : Prop extends F.Usual where
  eb_le_fb : F.eb ≤ F.fb + 2
  fb_add_le_bias : (F.fb : ℤ) + 3 ≤ F.bias
  bias_add_fb_lt : F.bias + F.fb < 2 ^ F.fb

theorem Fmt.wide_of_mem {F : Fmt} (h : F ∈ [fp64, fp32]) : F.Wide := by
  have hF : F.Usual := Fmt.usual_of_mem (List.mem_of_mem_take (i := 2) h)
  simp only [List.mem_cons, List.not_mem_nil, or_false] at h
  rcases h with rfl | rfl
  · exact { toUsual := hF, eb_le_fb := by decide, fb_add_le_bias := by decide, bias_add_fb_lt := by decide }
  · exact { toUsual := hF, eb_le_fb := by decide, fb_add_le_bias := by decide, bias_add_fb_lt := by decide }

namespace Fmt

variable {F : Fmt} {z : Bool} {a : ℕ} {x : ℝ}

/-- FLOG2 of `m × 2^e`, which is no power of two. -/
def logIn (F : Fmt) (z : Bool) (a m : ℕ) (e : ℤ) : FRes :=
  let v := logFixed m e
  let l : ℤ := ((v.natAbs + 4).log2 : ℤ) - apxQ
  let u := max (F.ulpExp l) (-(F.fb : ℤ) - 2)
  F.apxFlags z (decide (v < 0)) v.natAbs (-(apxQ : ℤ))
    (F.pick 3 F.code a (fun r => F.near r v (-(apxQ : ℤ)) 2 u 4)
      (F.round .rne (decide (v < 0)) (2 * v + 1).natAbs (-(apxQ : ℤ) - 1)).res.bits)

/-- FLOG2 of a finite operand that is positive. -/
theorem flog2_finite (ha : F.IsFinite a) (h0 : ¬F.IsZero z a) (hneg : F.minus a = false) : F.flog2 z a =
    let m := F.sigOf a
    let e := F.expOf a
    let o := oddPart 64 m e
    if o.1 = 1 then F.deliver .rne z (decide (o.2 < 0)) o.2.natAbs 0 else F.logIn z a m e := by
  obtain ⟨hflush, hval, hm⟩ := ha.value_of_not_isZero h0
  simp only [flog2, hflush, hval, if_neg hm, hneg]
  rfl

/-- The logarithm of a value of the format, as an integer bounds it. -/
theorem abs_logb_num_le (hF : F.Usual) (ha : F.IsFinite a) (h0 : 0 < F.num a) : |Real.logb 2 (F.num a)| ≤ F.bias + F.fb := by
  have hnum : F.num a = F.sigOf a * 2 ^ F.expOf a := by rw [← abs_num, abs_of_pos h0]
  have hone : (1 : ℝ) ≤ F.sigOf a := by exact_mod_cast Nat.pos_of_ne_zero (sigOf_ne_zero_iff.2 h0.ne')
  have hlo : (2 : ℝ) ^ F.qmin ≤ F.num a := by
    rw [hnum]
    exact (zpow_le_zpow_right₀ one_le_two (F.qmin_le_expOf a)).trans (le_mul_of_one_le_left (by positivity) hone)
  have hhi : F.num a ≤ 2 ^ (F.bias + 1) := (le_abs_self _).trans ((abs_num_le_largest hF ha).trans F.largest_lt.le)
  have hfb : (2 : ℝ) ≤ F.fb := by exact_mod_cast hF.fb_pos
  rw [← Real.rpow_intCast] at hlo hhi
  rw [← Real.le_logb_iff_rpow_le one_lt_two h0] at hlo
  rw [← Real.logb_le_iff_le_rpow one_lt_two h0] at hhi
  rw [qmin, emin] at hlo
  push_cast at hlo hhi
  rw [abs_le]
  constructor <;> linarith

theorem bias_add_fb_le_largest (hF : F.Wide) : (F.bias : ℝ) + F.fb + 1 ≤ F.largest := by
  calc (F.bias : ℝ) + F.fb + 1 ≤ 2 ^ (F.fb : ℤ) := by exact_mod_cast Int.add_one_le_of_lt hF.bias_add_fb_lt
    _ ≤ 2 ^ F.bias := zpow_le_zpow_right₀ one_le_two hF.fb_le_bias
    _ ≤ F.largest := F.two_pow_bias_le_largest

/-- A value of the format, not one, has a logarithm that is normal. -/
theorem le_abs_logb_num (h0 : 0 < F.num a) (h1 : F.num a ≠ 1) : 1 / 2 ^ (F.fb + 1) ≤ |Real.logb 2 (F.num a)| := by
  have hnum : F.num a = F.sigOf a * 2 ^ F.expOf a := by rw [← abs_num, abs_of_pos h0]
  rw [hnum] at h1 ⊢
  exact le_abs_logb (sigOf_ne_zero_iff.2 h0.ne') (F.sigOf_lt a) _ h1

theorem logb_square_shift {m : ℕ} (hm : m ≠ 0) (e k : ℤ) :
    Real.logb 2 (((m * m : ℕ) : ℝ) * 2 ^ (2 * e + k)) = 2 * Real.logb 2 ((m : ℝ) * 2 ^ e) + k := by
  have hpos : (0 : ℝ) < m * 2 ^ e := by positivity
  have hsplit : ((m * m : ℕ) : ℝ) * 2 ^ (2 * e + k) = (m : ℝ) * 2 ^ e * ((m : ℝ) * 2 ^ e) * (2 : ℝ) ^ (k : ℝ) := by
    rw [Real.rpow_intCast, zpow_add₀ two_ne_zero, two_mul, zpow_add₀ two_ne_zero]
    push_cast
    ring
  rw [hsplit, Real.logb_mul (by positivity) (by positivity), Real.logb_mul hpos.ne' hpos.ne', Real.logb_rpow two_pos (by norm_num)]
  ring

/-- Twice a logarithm of a value of few bits is no integer, or far from it. -/
theorem abs_logb_apart {m : ℕ} (hm : m ≠ 0) (hlt : m < 2 ^ 53) (e k : ℤ) (hne : 2 * Real.logb 2 ((m : ℝ) * 2 ^ e) + k ≠ 0) :
    1 / 2 ^ 106 ≤ |2 * Real.logb 2 ((m : ℝ) * 2 ^ e) + k| := by
  rw [← logb_square_shift hm] at hne ⊢
  refine le_abs_logb (by positivity) ?_ _ fun h => hne (by rw [h, Real.logb_one])
  calc m * m < 2 ^ 53 * 2 ^ 53 := Nat.mul_lt_mul'' hlt hlt
    _ = 2 ^ 106 := by norm_num

/-- The binade that the model takes for a logarithm is not above the one it has, unless both are small. -/
theorem zpow_le_abs_logb {m : ℕ} (hm : m ≠ 0) (hlt : m < 2 ^ 53) {e v l : ℤ} (hlo : v ≤ Real.logb 2 ((m : ℝ) * 2 ^ e) * 2 ^ 128)
    (hhi : Real.logb 2 ((m : ℝ) * 2 ^ e) * 2 ^ 128 < v + 2) (hl : (2 : ℝ) ^ l * 2 ^ 128 ≤ |(v : ℝ)| + 4) (hl1 : -1 ≤ l) :
    (2 : ℝ) ^ l ≤ |Real.logb 2 ((m : ℝ) * 2 ^ e)| := by
  set t := Real.logb 2 ((m : ℝ) * 2 ^ e) with ht
  by_contra hbelow
  rw [not_le] at hbelow
  obtain ⟨k, hk⟩ := Int.eq_ofNat_of_zero_le (show 0 ≤ l + 1 by omega)
  have hK : ((2 ^ k : ℤ) : ℝ) = 2 * 2 ^ l := by
    rw [mul_comm, ← zpow_add_one₀ two_ne_zero, hk, zpow_natCast]
    push_cast
    rfl
  have hv : |(v : ℝ)| ≤ |t| * 2 ^ 128 + 2 := by
    have hshift : |(v : ℝ) - t * 2 ^ 128| ≤ 2 := abs_le.2 ⟨by linarith, by linarith⟩
    have hsum := abs_add_le ((v : ℝ) - t * 2 ^ 128) (t * 2 ^ 128)
    rw [sub_add_cancel, abs_mul, abs_of_pos (by positivity : (0 : ℝ) < 2 ^ 128)] at hsum
    linarith
  have hgap : 2 * 2 ^ l - 2 * |t| < 1 / 2 ^ 106 := by
    norm_num at hl hv ⊢
    linarith
  rcases le_total 0 t with hs | hs
  · rw [abs_of_nonneg hs] at hbelow hgap
    have h := abs_logb_apart hm hlt e (-(2 ^ k)) (by rw [← ht, Int.cast_neg, hK]; linarith)
    rw [← ht, Int.cast_neg, hK, abs_of_neg (by linarith)] at h
    linarith
  · rw [abs_of_nonpos hs] at hbelow hgap
    have h := abs_logb_apart hm hlt e (2 ^ k) (by rw [← ht, hK]; linarith)
    rw [← ht, hK, abs_of_pos (by linarith)] at h
    linarith

theorem ulpExp_mono {l k : ℤ} (h : l ≤ k) : F.ulpExp l ≤ F.ulpExp k := by
  simp only [ulpExp, qmin]
  split <;> split <;> omega

theorem ulpExp_succ_le (l : ℤ) : F.ulpExp (l + 1) ≤ F.ulpExp l + 1 := by
  simp only [ulpExp, qmin]
  split <;> split <;> omega

theorem zpow_neg_apxQ : (2 : ℝ) ^ (-(apxQ : ℤ)) = 1 / 2 ^ 128 := by
  show (2 : ℝ) ^ (-((128 : ℕ) : ℤ)) = _
  rw [zpow_neg, zpow_natCast, one_div]

theorem signed_natAbs_mul (v : ℤ) (c : ℝ) : signed (decide (v < 0)) (v.natAbs * c) = v * c := by
  rw [natCast_natAbs, signed]
  rcases lt_or_ge v 0 with h | h
  · have hR : (v : ℝ) < 0 := by exact_mod_cast h
    simp [h, abs_of_neg hR]
  · have hR : (0 : ℝ) ≤ v := by exact_mod_cast h
    simp [h.not_gt, abs_of_nonneg hR]

section

variable {t : ℝ} {v : ℤ} (hlo : v ≤ t * 2 ^ 128) (hhi : t * 2 ^ 128 < v + 2)
include hlo hhi

theorem fixed_near : |(v : ℝ) * 2 ^ (-(apxQ : ℤ)) - t| ≤ 2 * 2 ^ (-(apxQ : ℤ)) := by
  rw [zpow_neg_apxQ, abs_le]
  constructor <;> linarith

theorem mid_near : |signed (decide (v < 0)) (((2 * v + 1).natAbs : ℝ) * 2 ^ (-(apxQ : ℤ) - 1)) - t| ≤ 2 * 2 ^ (-(apxQ : ℤ)) := by
  have hsign : decide (v < 0) = decide (2 * v + 1 < 0) := by simp only [decide_eq_decide]; omega
  rw [hsign, signed_natAbs_mul, zpow_sub_one₀ two_ne_zero, zpow_neg_apxQ, abs_le]
  push_cast
  constructor <;> linarith

/-- The unit by which the model judges a logarithm keeps its bound. -/
theorem unit_le_bound (hF : F.Wide) {m : ℕ} (hm : m ≠ 0) (hlt : m < 2 ^ (F.fb + 1)) {e : ℤ} (ht : t = Real.logb 2 ((m : ℝ) * 2 ^ e))
    (ht0 : t ≠ 0) :
    (2 : ℝ) * 2 ^ max (F.ulpExp (((v.natAbs + 4).log2 : ℤ) - apxQ)) (-(F.fb : ℤ) - 2) ≤ max (2 * F.ulp t) (2 ^ (-(F.fb : ℤ) - 1)) := by
  set l : ℤ := ((v.natAbs + 4).log2 : ℤ) - apxQ with hl
  rcases le_or_gt (F.ulpExp l) (-(F.fb : ℤ) - 2) with h | h
  · refine le_trans (le_of_eq ?_) (le_max_right ..)
    rw [max_eq_right h, mul_comm, ← zpow_add_one₀ two_ne_zero]
    congr 1
    ring
  · refine le_trans ?_ (le_max_left ..)
    have hl1 : -1 ≤ l := by
      by_contra hl1
      refine h.not_ge ?_
      have hbias := hF.fb_add_le_bias
      have hfb := hF.fb_pos
      rw [ulpExp, qmin, emin]
      split <;> omega
    have hpow : (2 : ℝ) ^ l * 2 ^ 128 ≤ |(v : ℝ)| + 4 := by
      have hself : 2 ^ (v.natAbs + 4).log2 ≤ v.natAbs + 4 := Nat.log2_self_le (by omega)
      rw [hl, sub_eq_add_neg, zpow_add₀ two_ne_zero, zpow_neg_apxQ, zpow_natCast, mul_assoc, one_div_mul_cancel (by positivity), mul_one,
        ← natCast_natAbs]
      exact_mod_cast hself
    have hbinade := zpow_le_abs_logb hm (hlt.trans_le (Nat.pow_le_pow_right two_pos (by have := hF.fb_le; omega))) (ht ▸ hlo) (ht ▸ hhi) hpow hl1
    rw [← ht] at hbinade
    have hlog : l ≤ Int.log 2 |t| := (Int.zpow_le_iff_le_log one_lt_two (abs_pos.2 ht0)).1 (by exact_mod_cast hbinade)
    rw [max_eq_left h.le, ulp_eq]
    exact mul_le_mul_of_nonneg_left (zpow_le_zpow_right₀ one_le_two (ulpExp_mono hlog)) two_pos.le

/-- The nearest value to the middle of the last unit keeps the bound. -/
theorem nearest_log (hF : F.Wide) (ht : 1 / 2 ^ (F.fb + 1) ≤ |t|) (hle : |t| ≤ F.bias + F.fb) :
    let r := (F.round .rne (decide (v < 0)) (2 * v + 1).natAbs (-(apxQ : ℤ) - 1)).res.bits
    F.IsFinite r ∧ |F.num r - t| ≤ 2 * F.ulp t := by
  intro r
  set N : ℝ := ((2 * v + 1).natAbs : ℝ) * 2 ^ (-(apxQ : ℤ) - 1) with hN
  have hne : (2 * v + 1).natAbs ≠ 0 := by omega
  have hNpos : 0 < N := by positivity
  have htpos : 0 < |t| := lt_of_lt_of_le (by positivity) ht
  have hmid := mid_near hlo hhi
  rw [← hN] at hmid
  set d : ℝ := 2 ^ (-(apxQ : ℤ)) with hd
  have hclose : N ≤ |t| + 2 * d := by
    have := (abs_sub_abs_le_abs_sub (signed (decide (v < 0)) N) t).trans hmid
    rw [abs_signed _ hNpos.le] at this
    linarith
  have hlogt : -(F.fb : ℤ) - 1 ≤ Int.log 2 |t| := by
    refine (Int.zpow_le_iff_le_log one_lt_two htpos).1 ?_
    rw [Nat.cast_ofNat, show -(F.fb : ℤ) - 1 = -((F.fb + 1 : ℕ) : ℤ) by push_cast; ring, zpow_neg, zpow_natCast, ← one_div]
    exact ht
  have hulp : 2 * d ≤ 2 ^ F.ulpExp (Int.log 2 |t|) := by
    rw [hd, mul_comm, ← zpow_add_one₀ two_ne_zero]
    refine zpow_le_zpow_right₀ one_le_two ?_
    have hge := ulpExp_ge hF.toUsual (Int.log 2 |t|)
    have hfb := hF.fb_le
    simp only [apxQ]
    omega
  obtain ⟨hlow, hhigh⟩ := log_bounds htpos
  have hdouble : N < 2 ^ (Int.log 2 |t| + 1 + 1) := by
    have hdt : 2 * d ≤ 2 ^ Int.log 2 |t| := by
      rw [hd, mul_comm, ← zpow_add_one₀ two_ne_zero]
      exact zpow_le_zpow_right₀ one_le_two (by have := hF.fb_le; simp only [apxQ]; omega)
    rw [zpow_add_one₀ two_ne_zero]
    linarith
  have hlogN : Int.log 2 N ≤ Int.log 2 |t| + 1 :=
    Int.lt_add_one_iff.1 ((Int.lt_zpow_iff_log_lt one_lt_two hNpos).1 (by exact_mod_cast hdouble))
  have hfit : N ≤ F.largest := by
    have hd1 : 2 * d ≤ 1 := by
      rw [hd, mul_comm, ← zpow_add_one₀ two_ne_zero]
      exact zpow_le_one_of_nonpos₀ one_le_two (by simp only [apxQ]; omega)
    linarith [bias_add_fb_le_largest hF]
  have hround : F.RoundsTo .rne (decide (v < 0)) N false (F.round .rne (decide (v < 0)) (2 * v + 1).natAbs (-(apxQ : ℤ) - 1)).res :=
    F.round_roundsTo .rne _ hne _ hF.toUsual false
  obtain ⟨hfin, hnear, -⟩ := hround.near hF.toUsual hNpos hfit
  refine ⟨hfin, ?_⟩
  have hhalf : (2 : ℝ) ^ F.ulpExp (Int.log 2 N) ≤ 2 ^ F.ulpExp (Int.log 2 |t|) * 2 := by
    rw [← zpow_add_one₀ two_ne_zero]
    exact zpow_le_zpow_right₀ one_le_two ((ulpExp_mono hlogN).trans (ulpExp_succ_le _))
  have htri := abs_sub_le (F.num r) (signed (decide (v < 0)) N) t
  rw [ulp_eq]
  linarith

/-- A logarithm that the format does not hold is not tiny, and neither is its value in fixed point. -/
theorem tinyVal_fixed (hF : F.Wide) (ht : 1 / 2 ^ (F.fb + 1) ≤ |t|) : F.tinyVal .rne (decide (v < 0)) v.natAbs (-(apxQ : ℤ)) = false := by
  have hnear := fixed_near hlo hhi
  have hpow : (2 : ℝ) ^ (-(F.fb : ℤ) - 2) + 2 * 2 ^ (-(apxQ : ℤ)) ≤ |t| := by
    have h1 : (2 : ℝ) ^ (-(F.fb : ℤ) - 2) * 2 = 1 / 2 ^ (F.fb + 1) := by
      rw [← zpow_add_one₀ two_ne_zero, show -(F.fb : ℤ) - 2 + 1 = -((F.fb + 1 : ℕ) : ℤ) by push_cast; ring, zpow_neg, zpow_natCast, one_div]
    have h2 : 2 * (2 : ℝ) ^ (-(apxQ : ℤ)) ≤ 2 ^ (-(F.fb : ℤ) - 2) := by
      rw [mul_comm, ← zpow_add_one₀ two_ne_zero]
      exact zpow_le_zpow_right₀ one_le_two (by have := hF.fb_le; simp only [apxQ]; omega)
    linarith
  have hbig : (2 : ℝ) ^ F.emin ≤ v.natAbs * 2 ^ (-(apxQ : ℤ)) := by
    have htri := abs_sub_abs_le_abs_sub t ((v : ℝ) * 2 ^ (-(apxQ : ℤ)))
    rw [abs_sub_comm, abs_mul, abs_of_pos (by positivity : (0 : ℝ) < 2 ^ (-(apxQ : ℤ)))] at htri
    have hle : (2 : ℝ) ^ F.emin ≤ 2 ^ (-(F.fb : ℤ) - 2) :=
      zpow_le_zpow_right₀ one_le_two (by have := hF.fb_add_le_bias; rw [emin]; omega)
    rw [natCast_natAbs]
    linarith
  have hv : v.natAbs ≠ 0 := fun h => by
    rw [h, Nat.cast_zero, zero_mul] at hbig
    exact hbig.not_gt (by positivity)
  have hpos : (0 : ℝ) < v.natAbs * 2 ^ (-(apxQ : ℤ)) := by positivity
  exact (tinyVal_of_log hv hpos.ne' (by rw [abs_of_pos hpos])).2 (by rwa [abs_of_pos hpos])

end

theorem logIn_approximates (hF : F.Wide) {m : ℕ} (hm : m ≠ 0) (hlt : m < 2 ^ (F.fb + 1)) {e : ℤ} {t : ℝ}
    (ht : t = Real.logb 2 ((m : ℝ) * 2 ^ e)) (hlow : 1 / 2 ^ (F.fb + 1) ≤ |t|) (hhigh : |t| ≤ F.bias + F.fb) (hno : ∀ b, ¬F.Holds b t) :
    F.Approximates (F.logIn false a m e) t (max (2 * F.ulp t) (2 ^ (-(F.fb : ℤ) - 1))) := by
  have hpos : 0 < |t| := lt_of_lt_of_le (by positivity) hlow
  obtain ⟨hlo, hhi⟩ := logFixed_spec hm (hlt.trans_le (Nat.pow_le_pow_right two_pos (by have := hF.fb_le; omega))) e
  rw [← ht] at hlo hhi
  have hunit := unit_le_bound hlo hhi hF hm hlt ht (abs_pos.1 hpos)
  have htiny := tinyVal_fixed hlo hhi hF hlow
  have hnearest := nearest_log hlo hhi hF hlow hhigh
  have hfixed := fixed_near hlo hhi
  simp only [logIn]
  set v := logFixed m e
  set bound := max (2 * F.ulp t) (2 ^ (-(F.fb : ℤ) - 1))
  have hfit : |t| ≤ F.largest := by linarith [bias_add_fb_le_largest hF]
  have hemin : (2 : ℝ) ^ (F.emin - 1) ≤ |t| := by
    refine le_trans ?_ hlow
    rw [one_div, ← zpow_natCast, ← zpow_neg]
    exact zpow_le_zpow_right₀ one_le_two (by have := hF.fb_add_le_bias; rw [emin]; push_cast; omega)
  obtain ⟨hfin, hdist⟩ := pick_cases (P := fun r => F.IsFinite r ∧ |F.num r - t| ≤ bound) (F := F) (op := 3) (code := F.code) (a := a)
    (ok := fun r => F.near r v (-(apxQ : ℤ)) 2 (max (F.ulpExp (((v.natAbs + 4).log2 : ℤ) - apxQ)) (-(F.fb : ℤ) - 2)) 4)
    (fun r hr => by
      obtain ⟨hr, hd⟩ := near_spec hr
      have := abs_sub_le (F.num r) (v * 2 ^ (-(apxQ : ℤ))) t
      push_cast at hd
      refine ⟨hr, ?_⟩
      linarith [show (0 : ℝ) < 2 ^ (-(apxQ : ℤ)) by positivity])
    ⟨hnearest.1, hnearest.2.trans (le_max_left ..)⟩
  exact approximates_apxFlags hfit hno (fun h => absurd h hemin.not_gt) (fun _ => htiny) hfin hdist

theorem exists_dyadic (F : Fmt) (b : ℕ) : ∃ (p : ℤ) (k : ℕ), F.num b * 2 ^ k = p := by
  obtain ⟨n, h | h⟩ := (F.expOf b).eq_nat_or_neg
  · refine ⟨(if F.minus b then -1 else 1) * F.sigOf b * 2 ^ n, 0, ?_⟩
    rw [num_eq, h, zpow_natCast]
    push_cast
    ring
  · refine ⟨(if F.minus b then -1 else 1) * F.sigOf b, n, ?_⟩
    have hn : (2 : ℝ) ^ n ≠ 0 := by positivity
    rw [num_eq, h, zpow_neg, zpow_natCast]
    push_cast
    field_simp

/-- The format holds a logarithm of its values only where they are powers of two. -/
theorem pow_two_of_holds_logb {m fuel : ℕ} (hm : m ≠ 0) (hlt : m < 2 ^ fuel) (e : ℤ) {b : ℕ}
    (hb : F.Holds b (Real.logb 2 ((m : ℝ) * 2 ^ e))) : (oddPart fuel m e).1 = 1 := by
  have hpos : (0 : ℝ) < m * 2 ^ e := by positivity
  obtain ⟨-, hnum⟩ := holds_iff.1 hb
  obtain ⟨hodd, hval⟩ := oddPart_spec hm hlt e
  obtain ⟨p, k, hdyadic⟩ := F.exists_dyadic b
  rw [← hnum] at hdyadic
  refine (two_rpow_dyadic hdyadic hodd (q := (oddPart fuel m e).2) ?_).1
  rw [Real.rpow_logb two_pos (by norm_num) hpos, hval]

theorem flog2_approximates (hF : F.Wide) (ha : F.IsFinite a) (h0 : 0 < F.num a) (h1 : F.num a ≠ 1) :
    F.Approximates (F.flog2 false a) (Real.logb 2 (F.num a)) (max (2 * F.ulp (Real.logb 2 (F.num a))) (2 ^ (-(F.fb : ℤ) - 1))) := by
  have hm : F.sigOf a ≠ 0 := sigOf_ne_zero_iff.2 h0.ne'
  have hlt := sigOf_lt_two_pow_64 hF.toUsual a
  have hnum : F.num a = F.sigOf a * 2 ^ F.expOf a := by rw [← abs_num, abs_of_pos h0]
  have hlow := le_abs_logb_num h0 h1
  have hhigh := abs_logb_num_le hF.toUsual ha h0
  rw [flog2_finite ha (not_isZero_of_num_ne_zero h0.ne') (minus_of_num_pos h0)]
  simp only
  split
  next h =>
    obtain ⟨-, hval⟩ := oddPart_spec hm hlt (F.expOf a)
    rw [← hnum, h, Nat.cast_one, one_mul] at hval
    set k := (oddPart 64 (F.sigOf a) (F.expOf a)).2
    have hlog : Real.logb 2 (F.num a) = k := by rw [hval, ← Real.rpow_intCast, Real.logb_rpow two_pos (by norm_num)]
    have hk0 : k ≠ 0 := fun hk => h1 (by rw [hval, hk, zpow_zero])
    have habs : (k.natAbs : ℝ) ≤ F.bias + F.fb := by rwa [natCast_natAbs, ← hlog]
    have hklt : k.natAbs < 2 ^ (F.fb + 1) := by
      have hle : ((k.natAbs : ℤ) : ℝ) ≤ ((F.bias + F.fb : ℤ) : ℝ) := by
        rw [Int.cast_natCast]
        exact_mod_cast habs
      have hlt : (k.natAbs : ℤ) < (2 ^ F.fb : ℕ) := (Int.cast_le.1 hle).trans_lt (by exact_mod_cast hF.bias_add_fb_lt)
      rw [pow_succ]
      omega
    have hsigned := signed_natAbs_mul k 1
    rw [mul_one, mul_one] at hsigned
    rw [hlog, ← hsigned]
    refine approximates_deliver hF.toUsual (Int.natAbs_ne_zero.2 hk0) hklt ?_ (by rw [zpow_zero, mul_one]) ?_ ?_
    · have := hF.fb_add_le_bias
      rw [qmin, emin]
      omega
    · linarith [bias_add_fb_le_largest hF]
    · exact le_max_of_le_right (by positivity)
  next h =>
    rw [hnum] at hlow hhigh ⊢
    exact logIn_approximates hF hm (F.sigOf_lt a) rfl hlow hhigh fun b hb => h (pow_two_of_holds_logb hm hlt _ hb)

end Fmt
end Sys2Proof.Machine
end

section
/-! Rounding to the neighbour, and the approximations within their bounds (R107 to R109, R124, R125). -/

namespace Sys2Proof

open Machine

/-- Settles O9: a magnitude is rounded as the real number that it is, and each approximation stays within its bound wherever it is
picked from. -/
theorem roundingIsCorrect : Obligations.RoundingIsCorrect := by
  constructor
  · intro F hF rm neg m e hm r hf
    obtain ⟨sig, q, hval, hnx, hnear⟩ := Fmt.round_neighbour (Fmt.usual_of_mem hF) rm neg hm e hf
    refine ⟨sig, q, hval, hnx, ?_⟩
    cases rm <;> exact hnear
  · intro F hF a x _ hx h0 near
    have hwide := Fmt.wide_of_mem hF
    obtain ⟨hfin, rfl⟩ := Fmt.holds_iff.1 hx
    refine ⟨Fmt.frcp_approximates hwide.toUsual hfin h0, fun hpos => Fmt.frsq_approximates hwide.toUsual hfin hpos, fun hlow => ?_,
      fun hpos h1 => Fmt.flog2_approximates hwide hfin hpos h1⟩
    refine Fmt.fexp2_approximates hwide.toUsual hwide.eb_le_fb hfin h0 (le_trans (le_of_eq ?_) hlow)
    rw [Fmt.expLow]
    split <;> norm_num

end Sys2Proof
end

section
/-! What the approximations give for the special operands, and where they are exact (R125). -/

namespace Sys2Proof.Machine.Fmt

variable {F : Fmt} {z : Bool} {a r : ℕ} {neg : Bool} {x v : ℝ}

/-! ### Exact results -/

theorem minus_of_num_eq_signed (hx : 0 < x) (h : F.num r = signed neg x) : F.minus r = neg := by
  have habs : |F.num r| = x := by rw [h, abs_signed neg hx.le]
  rw [num_eq_signed, habs] at h
  have hiff := (signed_lt_zero_iff (neg := F.minus r) hx).symm.trans (h ▸ signed_lt_zero_iff (neg := neg) hx)
  exact Bool.eq_iff_iff.2 hiff

section

variable {m : ℕ} {e : ℤ} (hF : F.Usual) (hm : m ≠ 0) (hr : r < 2 ^ F.width) (hv : F.Holds r (signed neg (m * 2 ^ e)))
include hF hm hr hv

/-- A value of the format, not subnormal under FTZ, is rounded to its pattern. -/
theorem round_holds (hz : z = true → F.expField r ≠ 0) : (F.flushOut z neg (F.round .rne neg m e)).Is r 0 True := by
  obtain ⟨hfin, hnum⟩ := holds_iff.1 hv
  have hx : (0 : ℝ) < m * 2 ^ e := by positivity
  exact (F.round_roundsTo .rne neg hm e hF z).eq_of_num hF hr hfin (minus_of_num_eq_signed hx hnum.symm)
    (by rw [← hnum, abs_signed neg hx.le]) hx.ne' hz

theorem deliver_holds (hz : z = true → F.expField r ≠ 0) : (F.deliver .rne z neg m e).Is r 0 True := by
  rw [deliver_of_ne_zero hm]
  exact round_holds hF hm hr hv hz

theorem exactOr_holds (hz : z = true → F.expField r ≠ 0) (other : FRes) : (F.exactOr z neg m e other).Is r 0 True := by
  have hexact := round_holds (z := false) hF hm hr hv (by simp)
  rw [flushOut_false] at hexact
  have heq : F.exactOr z neg m e other = F.flushOut z neg (F.round .rne neg m e) := if_pos (hexact.2.1 trivial)
  rw [heq]
  exact round_holds hF hm hr hv hz

end

/-! ### NaNs -/

theorem quiet_of_nan (hF : F.Usual) (ha : F.IsNan a) :
    FRes.Is { bits := F.quiet a, flags := F.snan [.nan a] } (a ||| 2 ^ (F.fb - 1)) 0x10 (F.IsSnan a) := by
  have hs := signalling_value hF false a
  rw [ha.value hF] at hs
  refine FRes.is_nv ?_
  simpa using hs

theorem approximations_nan (hF : F.Usual) (z : Bool) (ha : F.IsNan a) :
    ∀ r ∈ [F.frcp z a, F.frsq z a, F.fexp2 z a, F.flog2 z a], r.Is (a ||| 2 ^ (F.fb - 1)) 0x10 (F.IsSnan a) := by
  have hquiet : ∀ r ∈ [F.frcp z a, F.frsq z a, F.fexp2 z a, F.flog2 z a], r = { bits := F.quiet a, flags := F.snan [.nan a] } := by
    simp [frcp, frsq, fexp2, flog2, ha.value hF]
  intro r hr
  rw [hquiet r hr]
  exact quiet_of_nan hF ha

/-! ### Zeros -/

section

variable (hF : F.Usual) (ha : F.IsZero z a)
include hF ha

theorem frcp_zero : (F.frcp z a).Is (F.inf (F.minus a)) 0x08 True := by
  simp only [frcp, ha.value hF]
  exact FRes.is_true rfl

theorem frsq_zero : (F.frsq z a).Is (F.inf (F.minus a)) 0x08 True := by
  simp only [frsq, ha.value hF]
  exact FRes.is_true rfl

theorem fexp2_zero : (F.fexp2 z a).Is (F.round .rne false 1 0).res.bits 0 True := by
  simp only [fexp2, ha.value hF]
  exact FRes.is_true rfl

theorem flog2_zero : (F.flog2 z a).Is (F.inf true) 0x08 True := by
  simp only [flog2, ha.value hF]
  exact FRes.is_true rfl

end

/-- 2 to the power 0, as a pattern. -/
theorem round_one (hF : F ∈ [fp64, fp32]) : (F.round .rne false 1 0).res.bits = (2 ^ (F.eb - 1) - 1) * 2 ^ F.fb := by
  simp only [List.mem_cons, List.not_mem_nil, or_false] at hF
  rcases hF with rfl | rfl <;> decide

/-! ### Infinities -/

section

variable (hF : F.Usual) (ha : F.IsInf a)
include hF ha

theorem frcp_inf : (F.frcp z a).Is (F.sign (F.minus a)) 0 True := by
  simp only [frcp, ha.value hF]
  exact FRes.is_true rfl

theorem frsq_inf (hs : F.minus a = false) : (F.frsq z a).Is 0 0 True := by
  simp only [frsq, ha.value hF, hs]
  exact FRes.is_true rfl

theorem fexp2_inf : (F.fexp2 z a).Is (if F.minus a then 0 else F.inf false) 0 True := by
  simp only [fexp2, ha.value hF]
  exact FRes.is_true rfl

theorem flog2_inf (hs : F.minus a = false) : (F.flog2 z a).Is (F.inf false) 0 True := by
  simp only [flog2, ha.value hF, hs]
  exact FRes.is_true rfl

end

theorem IsInf.eq_inf (ha : F.IsInf a) (hlt : a < 2 ^ F.width) (hs : F.minus a = false) : a = F.inf false := by
  rw [eq_magOf_add_sign hlt, isInf_iff.1 ha, hs]
  rfl

/-! ### Negative operands -/

section

variable (hF : F.Usual) (hs : F.minus a = true) (hnan : ¬F.IsNan a) (h0 : ¬F.IsZero z a)
include hF hs hnan h0

theorem frsq_minus : F.Invalid (F.frsq z a) := by
  rcases (F.kinds a).resolve_left hnan with ha | ha
  · simp only [frsq, ha.value hF, hs]
    exact F.invalid_spec
  · obtain ⟨hflush, hval, hm⟩ := ha.value_of_not_isZero h0
    simp only [frsq, hflush, hval, if_neg hm, hs]
    exact F.invalid_spec

theorem flog2_minus : F.Invalid (F.flog2 z a) := by
  rcases (F.kinds a).resolve_left hnan with ha | ha
  · simp only [flog2, ha.value hF, hs]
    exact F.invalid_spec
  · obtain ⟨hflush, hval, hm⟩ := ha.value_of_not_isZero h0
    simp only [flog2, hflush, hval, if_neg hm, hs]
    exact F.invalid_spec

end

/-! ### Powers of two -/

section

variable {k : ℤ} (hF : F.Usual) (ha : F.IsFinite a) (h0 : ¬F.IsZero z a) (hr : r < 2 ^ F.width)
  (hz : z = true → F.expField r ≠ 0)
include hF ha h0

theorem oddPart_of_num (hk : |F.num a| = 2 ^ k) : oddPart 64 (F.sigOf a) (F.expOf a) = (1, k) :=
  oddPart_of_two_pow (ha.value_of_not_isZero h0).2.2 (sigOf_lt_two_pow_64 hF a) (by rw [← abs_num, hk])

include hr hz

/-- The reciprocal of a power of two. -/
theorem frcp_two_pow (hk : |F.num a| = 2 ^ k) (hv : F.Holds r (1 / F.num a)) : (F.frcp z a).Is r 0 True := by
  obtain ⟨-, -, hm⟩ := ha.value_of_not_isZero h0
  have hfit : 1 / ((F.sigOf a : ℝ) * 2 ^ F.expOf a) ≤ F.largest := by
    obtain ⟨hfin, hnum⟩ := holds_iff.1 hv
    rw [← abs_signed (F.minus a) (by positivity : (0 : ℝ) ≤ 1 / (F.sigOf a * 2 ^ F.expOf a)), ← one_div_num, hnum]
    exact abs_num_le_largest hF hfin
  obtain ⟨-, -, hround⟩ := round_quotient one_ne_zero hm 0 (F.expOf a) (F.fb + 4) hF .rne (F.minus a) false (by omega)
  rw [Nat.cast_one, zpow_zero, mul_one, flushOut_false] at hround
  have hflags := and_fOF_eq_zero (hround.near hF (by positivity) hfit).2.2
  have hpow : 1 / F.num a = signed (F.minus a) ((1 : ℕ) * 2 ^ (-k)) := by
    rw [one_div_num, ← abs_num, hk, Nat.cast_one, one_mul, zpow_neg, one_div]
  rw [frcp_finite ha h0]
  simp only [oddPart_of_num hF ha h0 hk, ↓reduceIte]
  rw [if_neg (not_not.2 hflags)]
  exact exactOr_holds hF one_ne_zero hr (hpow ▸ hv) hz _

/-- The reciprocal square root of a power of four. -/
theorem frsq_four_pow (hk : F.num a = 2 ^ (2 * k)) (hv : F.Holds r (2 ^ (-k))) : (F.frsq z a).Is r 0 True := by
  have hpos : 0 < F.num a := by rw [hk]; positivity
  have heven : 2 * k % 2 = 0 ∧ 2 * k / 2 = k := by omega
  have hpow : (2 : ℝ) ^ (-k) = signed false ((1 : ℕ) * 2 ^ (-k)) := by rw [signed_false, Nat.cast_one, one_mul]
  rw [frsq_finite ha h0 (minus_of_num_pos hpos)]
  simp only [oddPart_of_num hF ha h0 (by rw [abs_of_pos hpos, hk]), heven, and_self, ↓reduceIte]
  exact deliver_holds hF one_ne_zero hr (hpow ▸ hv) hz

/-- The logarithm of a power of two. -/
theorem flog2_two_pow (hk : F.num a = 2 ^ k) (hk0 : k ≠ 0) (hv : F.Holds r k) : (F.flog2 z a).Is r 0 True := by
  have hpos : 0 < F.num a := by rw [hk]; positivity
  have hpow : (k : ℝ) = signed (decide (k < 0)) (k.natAbs * 2 ^ (0 : ℤ)) := by rw [signed_natAbs_mul, zpow_zero, mul_one]
  rw [flog2_finite ha h0 (minus_of_num_pos hpos)]
  simp only [oddPart_of_num hF ha h0 (by rw [abs_of_pos hpos, hk]), ↓reduceIte]
  exact deliver_holds hF (Int.natAbs_ne_zero.2 hk0) hr (hpow ▸ hv) hz

end

theorem flog2_one (hF : F.Usual) (ha : F.IsFinite a) (h0 : ¬F.IsZero z a) (h1 : F.num a = 1) : (F.flog2 z a).Is 0 0 True := by
  have hpos : 0 < F.num a := by rw [h1]; exact one_pos
  rw [flog2_finite ha h0 (minus_of_num_pos hpos)]
  simp only [oddPart_of_num (k := 0) hF ha h0 (by rw [h1, abs_one, zpow_zero]), ↓reduceIte]
  exact FRes.is_true rfl

/-! ### Powers of two to a given exponent -/

theorem scaled_le_iff {k : ℕ} {p : ℤ} (hv : v * 2 ^ k = p) (n : ℤ) : n * 2 ^ k ≤ p ↔ (n : ℝ) ≤ v := by
  rw [← mul_le_mul_iff_left₀ (by positivity : (0 : ℝ) < 2 ^ k), hv]
  exact_mod_cast Iff.rfl

theorem fexp2_high (ha : F.IsFinite a) (h0 : ¬F.IsZero z a) (h : (F.bias : ℝ) + 1 ≤ F.num a) : (F.fexp2 z a).Is (F.inf false) 0x05 True := by
  obtain ⟨p, j, hp, hexp⟩ := fexp2_finite ha h0
  rw [hexp, if_pos ((scaled_le_iff hp _).2 (by exact_mod_cast h))]
  exact FRes.is_true rfl

theorem fexp2_low (hF : F.Usual) (ha : F.IsFinite a) (h0 : ¬F.IsZero z a) (h : F.num a < F.expLow) : (F.fexp2 z a).Is 0 0x03 True := by
  have hlow : (F.expLow : ℝ) < (F.bias + 1 : ℤ) := by
    have hneg : F.expLow < 0 := by rw [expLow]; split <;> decide
    have := hF.fb_le_bias
    exact_mod_cast (by omega : F.expLow < F.bias + 1)
  obtain ⟨p, j, hp, hexp⟩ := fexp2_finite ha h0
  rw [hexp, if_neg (mt (scaled_le_iff hp _).1 (h.trans hlow).not_ge), if_pos (not_le.1 (mt (scaled_le_iff hp _).1 h.not_ge))]
  exact FRes.is_true rfl

theorem expLow_le_qmin (hF : F ∈ [fp64, fp32]) : F.expLow ≤ F.qmin := by
  simp only [List.mem_cons, List.not_mem_nil, or_false] at hF
  rcases hF with rfl | rfl <;> decide

/-- A power of two of the format has an exponent of the format. -/
theorem two_pow_holds_bounds (hF : F.Usual) {k : ℤ} (hv : F.Holds r (2 ^ k)) : F.qmin ≤ k ∧ k < F.bias + 1 := by
  obtain ⟨hfin, hnum⟩ := holds_iff.1 hv
  have habs : |F.num r| = 2 ^ k := by rw [← hnum, abs_of_pos (by positivity)]
  constructor
  · rw [← zpow_le_zpow_iff_right₀ (one_lt_two (α := ℝ)), ← habs, abs_num]
    have hpos : 0 < |F.num r| := by rw [habs]; positivity
    have hsig : (1 : ℝ) ≤ F.sigOf r := by exact_mod_cast Nat.pos_of_ne_zero (sigOf_ne_zero_iff.2 (abs_pos.1 hpos))
    exact (zpow_le_zpow_right₀ one_le_two (F.qmin_le_expOf r)).trans (le_mul_of_one_le_left (by positivity) hsig)
  · rw [← zpow_lt_zpow_iff_right₀ (one_lt_two (α := ℝ)), ← habs]
    exact (abs_num_le_largest hF hfin).trans_lt F.largest_lt

/-- 2 to the power of an integer. -/
theorem fexp2_integer (hF : F ∈ [fp64, fp32]) (ha : F.IsFinite a) (h0 : ¬F.IsZero z a) (hr : r < 2 ^ F.width)
    (hz : z = true → F.expField r ≠ 0) {k : ℤ} (hk : F.num a = k) (hv : F.Holds r (2 ^ k)) : (F.fexp2 z a).Is r 0 True := by
  have hU := (wide_of_mem hF).toUsual
  obtain ⟨hmin, hmax⟩ := two_pow_holds_bounds hU hv
  obtain ⟨p, j, hp, hexp⟩ := fexp2_finite ha h0
  have hcmp (n : ℤ) : n * 2 ^ j ≤ p ↔ n ≤ k := by rw [scaled_le_iff hp, hk, Int.cast_le]
  have hint : p = k * 2 ^ j := by
    rw [hk] at hp
    exact_mod_cast hp.symm
  have hquot : p / 2 ^ j = k := by rw [hint, Int.mul_ediv_cancel _ (by positivity)]
  have hpow : (2 : ℝ) ^ k = signed false ((1 : ℕ) * 2 ^ k) := by rw [signed_false, Nat.cast_one, one_mul]
  rw [hexp, if_neg (mt (hcmp _).1 hmax.not_ge), if_neg (not_lt.2 ((hcmp _).2 ((expLow_le_qmin hF).trans hmin))), expIn]
  simp only [hquot]
  rw [if_pos hint]
  exact exactOr_holds hU one_ne_zero hr (hpow ▸ hv) hz _

end Sys2Proof.Machine.Fmt

namespace Sys2Proof

open Machine

/-- The element-wise form of the four approximations, 16-bit elements through FP32 (R124). -/
theorem approxElem_eq (ty : Ty) (f : Fmt → Bool → ℕ → FRes) (z : Bool) (x : ℕ) : approxElem ty f z x =
    if ty == .h4 || ty == .b4 then
      let up := cvt (fmtOf ty) fp32 .rne false x
      let r := f fp32 false up.bits
      let down := cvt fp32 (fmtOf ty) .rne false r.bits
      { bits := down.bits, flags := up.flags ||| r.flags ||| down.flags }
    else f (fmtOf ty) z x := by
  rw [← packedTy_eq]
  rfl

/-- Settles O8: special operands by the kind of the pattern, exact results by the odd part of the operand. -/
theorem floatApproximations : Obligations.FloatApproximations := by
  unfold Obligations.FloatApproximations
  refine ⟨fun s h ty d a imm => ?elements, fun F hF z a ha => ?values⟩
  case elements =>
    intro F wide run
    refine ⟨?_, ?_, ?_, ?_⟩
    all_goals exact State.computes_elem rfl fun L k => approxElem_eq ty _ _ _
  case values =>
    have hU := (Fmt.wide_of_mem hF).toUsual
    intro top inf one neg
    refine ⟨Fmt.approximations_nan hU z, fun h0 => ⟨Fmt.frcp_zero hU h0, Fmt.frsq_zero hU h0, ?one, Fmt.flog2_zero hU h0⟩,
      fun hinf => ⟨Fmt.frcp_inf hU hinf, fun hs => ?plus, fun hs => ?minus⟩,
      fun hs hnan h0 => ⟨Fmt.frsq_minus hU hs hnan h0, Fmt.flog2_minus hU hs hnan h0⟩, fun v hv h0 => ?numbers⟩
    case one =>
      have h := Fmt.fexp2_zero hU h0
      rwa [Fmt.round_one hF] at h
    case plus =>
      have hexp := Fmt.fexp2_inf (z := z) hU hinf
      have hlog := Fmt.flog2_inf (z := z) hU hinf hs
      rw [if_neg (Bool.eq_false_iff.1 hs), ← hinf.eq_inf ha hs] at hexp
      rw [← hinf.eq_inf ha hs] at hlog
      exact ⟨Fmt.frsq_inf hU hinf hs, hexp, hlog⟩
    case minus =>
      have hexp := Fmt.fexp2_inf (z := z) hU hinf
      rwa [if_pos hs] at hexp
    case numbers =>
      obtain ⟨hfin, rfl⟩ := Fmt.holds_iff.1 hv
      refine ⟨Fmt.fexp2_high hfin h0, fun hlow => Fmt.fexp2_low hU hfin h0 ?_, fun k r hr hz => ⟨Fmt.frcp_two_pow hU hfin h0 hr hz,
        Fmt.frsq_four_pow hU hfin h0 hr hz, Fmt.fexp2_integer hF hfin h0 hr hz, Fmt.flog2_two_pow hU hfin h0 hr hz,
        Fmt.flog2_one hU hfin h0⟩⟩
      rw [Fmt.expLow]
      exact_mod_cast hlow

end Sys2Proof
end

section
/-! KRD, KWR, TLBINV, TRACE and the trace drain (R271, R272, R274, R436). -/

namespace Sys2Proof.Machine

/-! ### The registers of the table (R272) -/

theorem toNat_append_add {m n : Nat} (x : BitVec m) (y : BitVec n) : (x ++ y).toNat = x.toNat * 2 ^ n + y.toNat := by
  rw [BitVec.toNat_append, ← Nat.shiftLeft_add_eq_or_of_lt y.isLt, Nat.shiftLeft_eq]

theorem toNat_ofBool_eq_b2n (b : Bool) : (BitVec.ofBool b).toNat = b2n b := by cases b <;> rfl

theorem b2n_lt_two (b : Bool) : b2n b < 2 := by cases b <;> decide

theorem Lane.wstat_eq (l : Lane) : l.wstat =
    l.depth ++ 0#19 ++ BitVec.ofBool l.defer ++ BitVec.ofBool (!l.handler) ++ 0#1 ++ l.resf ++ 0#2 ++ l.wb := by
  have hdepth := l.depth.isLt
  have hresf := l.resf.isLt
  have hwb := l.wb.isLt
  have hdefer := b2n_lt_two l.defer
  have huser := b2n_lt_two (!l.handler)
  apply BitVec.eq_of_toNat_eq
  simp only [Lane.wstat, BitVec.toNat_ofNat, toNat_append_add, toNat_ofBool_eq_b2n]
  omega

theorem State.kreg_cfg (s : State) (L : Nat) {n : Nat} (hl : 0x20 ≤ n) (hh : n ≤ 0x27) :
    s.kreg L n = some (s.cbuf s.cw (s.cbNumber L (n - 0x20))).cfg := by
  unfold State.kreg
  repeat rw [if_neg (by omega)]
  rw [if_pos ⟨hl, hh⟩]

theorem State.kreg_stat (s : State) (L : Nat) {n : Nat} (hl : 0x28 ≤ n) (hh : n ≤ 0x2F) :
    s.kreg L n = some (s.cbuf s.cw (s.cbNumber L (n - 0x28))).stat := by
  unfold State.kreg
  repeat rw [if_neg (by omega)]
  rw [if_pos ⟨hl, hh⟩]

/-- A lane reaches a register that holds a value, except DEVIDENT below supervisor level. -/
theorem State.kregFault_eq_none {s : State} {L n : Nat} {x : Word} (hx : s.kreg L n = some x)
    (hsup : n = 1 → (s.cl L).sup = true) : s.kregFault L n = none := by
  simp only [State.kregFault, hx]
  rw [if_neg fun hn => hn.2 (hsup hn.1)]

/-- Where every executing lane passes a check, none fails and all of them run. -/
theorem State.failLanes_none {s : State} {h : Head} {f : Nat → Option Event} (hf : ∀ L ∈ s.runs h, f L = none) :
    failLanes h (s.active h) f = [] ∧ (execFor h (s.active h)).filter (fun L => (f L).isNone) = s.runs h := by
  rw [failLanes, State.execFor_active, List.flatMap_eq_nil_iff, List.filter_eq_self]
  exact ⟨fun L hL => by simp [hf L hL], fun L hL => by simp [hf L hL]⟩

theorem Sent.governedPuts {s t : State} {as : List Ask} {ans : List Answer} (hs : Sent s t as ans) (ls : List Nat) (last : Nat → Bool)
    (d : Spec) (v : Nat → Word) (share : List Nat) :
    Sent s (ls.foldl (fun t L => t.governedPut L (last L) d .raw (v L) share) t) as
      (ans ++ ls.map fun L => { ret := (s.retFor L (s.dstOfLast L (last L) d) .raw).shared s share, vals := [v L] }) := by
  induction ls generalizing t ans with
  | nil => simpa using hs
  | cons L ls ih =>
    have e : (t.retFor L (t.dstOfLast L (last L) d) .raw).shared t share =
        (s.retFor L (s.dstOfLast L (last L) d) .raw).shared s share := by
      have hrest := hs.rest
      rw [hrest]; rfl
    have h1 := hs.answer ((s.retFor L (s.dstOfLast L (last L) d) .raw).shared s share) [v L] 0
    rw [List.foldl_cons, State.governedPut, e]
    simpa using ih h1


/-! ### Lanes of the issue that change, move on or wait -/

/-- Guards read what a change of the lanes leaves: their predicates, their mode and their fragment. -/
theorem Lanewise.guardOf {s t : State} {g : Nat → Lane} (h : Lanewise s t g) {L : Nat} (hp : (g L).preds = (s.cl L).preds)
    (hh : (g L).handler = (s.cl L).handler) (hf : (g L).frag = (s.cl L).frag) (x : Guard) : t.guardOf L x = s.guardOf L x := by
  obtain ⟨hcur, -, hcw⟩ := h.only
  have hl : t.cw.launch = s.cw.launch := by rw [hcw]
  have hfr : t.cw.frags = s.cw.frags := by rw [hcw]
  have ho : t.offsOf t.cw (g L) = s.offsOf s.cw (s.cl L) := State.offsOf_congr s t s.cw t.cw _ _ hh hf hfr hl h.launches
  simp [State.guardOf, State.predOf, hcur, h.lanes, ho, Lane.pred, hp]

/-- Active lanes changed into `f`, then the bystanders and they move on. -/
theorem Lanewise.transfers {s t : State} {h : Head} {f : Nat → Lane} {i : Instr}
    (ht : Lanewise s t fun L => if L ∈ s.active h then f L else s.cl L)
    (hkeep : ∀ L, (f L).preds = (s.cl L).preds ∧ (f L).handler = (s.cl L).handler ∧ (f L).frag = (s.cl L).frag)
    (hi : exec i s = .next ((t.skipIdle h).advance (s.active h))) : s.Transfers i (s.active h) fun L => (f L).moved := by
  have hguard (L : Nat) (g : Guard) : t.guardOf L g = s.guardOf L g := by
    obtain ⟨hp, hh, hf⟩ := hkeep L
    by_cases hL : L ∈ s.active h
    · exact ht.guardOf (by simp [hL, hp]) (by simp [hL, hh]) (by simp [hL, hf]) g
    · exact ht.guardOf (by simp [hL]) (by simp [hL]) (by simp [hL]) g
  have hby : t.bystanders h = s.bystanders h := by
    simp [State.bystanders, State.active, ht.gang, hguard]
  have hmove := Lanewise.advance t (s.bystanders h) (s.bystanders_nodup h)
  rw [← hby, ← State.skipIdle_eq, hby] at hmove
  have hall := (ht.trans hmove).trans (Lanewise.advance (t.skipIdle h) (s.active h) (s.active_nodup h))
  refine ⟨_, hi, hall.rest, hall.only, fun L => ?_⟩
  rw [hall.lanes, hmove.lanes, ht.lanes]
  have hgang := s.mem_gang h L
  rw [List.mem_append] at hgang
  by_cases hL : L ∈ s.active h
  · have hb : L ∉ s.bystanders h := fun hb => by simp [State.bystanders] at hb; exact hb.2 hL
    simp [hL, hb]
  · simp [hL, ← hgang]

/-- The bystanders of an issue move on and its active lanes wait. -/
theorem State.waitsIn_active {s t : State} (hs : s.SameIssue t) (h : Head) (i : Instr) (phase : Phase) (dl : Nat → Word) :
    let u := (t.skipIdle h).waitIn (s.active h) i phase dl
    u = { t with warps := u.warps } ∧ s.WaitsIn u i phase dl (s.active h) (s.bystanders h) := by
  intro u
  have hmove := Lanewise.advance t (s.bystanders h) (s.bystanders_nodup h)
  rw [← hs.bystanders h, ← State.skipIdle_eq] at hmove
  have hwait : Lanewise (t.skipIdle h) u _ := Lanewise.fold (t.skipIdle h) (s.active h) (s.active_nodup h) fun L l =>
    { l with st := .waiting,
             wait := some { instr := i, word := (t.skipIdle h).cur.word, gang := (t.skipIdle h).cur.gang,
                            serial := (t.skipIdle h).cur.serial, phase := phase, dl := dl L, ops := [] } }
  have hboth := hmove.trans hwait
  refine ⟨hboth.rest, hs.lanesOnly hboth.only, fun L => ?_⟩
  rw [hboth.lanes, hmove.lanes, hmove.cur, hs.cur, hs.cl]
  by_cases hL : L ∈ s.active h
  · have hb : L ∉ s.bystanders h := fun hb => by simp [State.bystanders] at hb; exact hb.2 hL
    simp [hL, hb, hs.bystanders]
  · simp [hL, hs.bystanders]

/-- A change of another part of the state before the gang moves on. -/
theorem State.movesOn_of_sameIssue {s t : State} (hs : s.SameIssue t) : s.MovesOn (t.advance s.gang) s.gang :=
  hs.movesOn (t.advance_moves _ s.gang_nodup)

/-! ### KWR (R272) -/

theorem Lane.kwr_keeps (l : Lane) (n : Nat) (v : Word) :
    (l.kwr n v).preds = l.preds ∧ (l.kwr n v).handler = l.handler ∧ (l.kwr n v).frag = l.frag := by
  unfold Lane.kwr
  split
  · exact ⟨rfl, rfl, rfl⟩
  · split
    · exact ⟨rfl, rfl, rfl⟩
    · split <;> exact ⟨rfl, rfl, rfl⟩

theorem Lane.kwr_moved (l : Lane) (n : Nat) (v : Word) : (l.kwr n v).moved =
    if n = 0x10 then { l.moved with fmode := fmodeWrite v }
    else if n = 0x11 then { l.moved with fstat := v.extractLsb' 0 5 }
    else if n = 0x12 then { l.moved with wsp := v }
    else l.moved := by
  simp only [Lane.kwr, apply_ite Lane.moved]
  rfl

/-- A change of the executing lanes and of those that share their fate: every active lane changes by the operand of its
own, or with U by that of the lowest. -/
theorem Lanewise.fates (s : State) (h : Head) (f : Nat → Lane → Lane) :
    Lanewise s ((s.runs h).foldl (fun t L => t.updLanes s.cur.wid (fateOf h (s.active h) L) (f L)) s)
      fun L => if L ∈ s.active h then f (if h.u then (s.active h).headD 0 else L) (s.cl L) else s.cl L := by
  by_cases hu : h.u
  · cases hact : s.active h with
    | nil => simpa [State.runs, execFor, hact] using (Lanewise.refl s)
    | cons K ls =>
      have hn := s.active_nodup h
      rw [hact] at hn
      simpa [State.runs, execFor, fateOf, hu, hact] using Lanewise.lanes' s (K :: ls) hn (f K)
  · have hn := s.active_nodup h
    simpa [State.runs, execFor, fateOf, hu, State.updLanes] using Lanewise.fold s (s.active h) hn f

/-! ### The trace drain (R436) -/

theorem State.domain_updDomain (s : State) (dom : Nat) (f : Domain → Domain) : (s.updDomain dom f).domain dom = f (s.domain dom) := by
  simp [State.updDomain, State.domain, Tab.get_upd]

theorem fld_low_eq (x : BitVec 64) : fld x 4 0 = (x.extractLsb' 0 5).toNat := by simp [fld]

/-- Of fewer entries than the ring has, two stand at different places. -/
theorem Ring.entryAddr_apart {g : Ring} (hsize : fld g.base 4 0 ≤ 16) (x : BitVec 32) {j : Nat} (hpos : 0 < j)
    (hlt : j < 2 ^ fld g.base 4 0) (r : Nat) :
    g.entryAddr r x + entrySize r ≤ g.entryAddr r (x + BitVec.ofNat 32 j) ∨
      g.entryAddr r (x + BitVec.ofNat 32 j) + entrySize r ≤ g.entryAddr r x := by
  have hdvd : 2 ^ fld g.base 4 0 ∣ 2 ^ 32 := Nat.pow_dvd_pow 2 (by omega)
  have hmod : (x + BitVec.ofNat 32 j).toNat % 2 ^ fld g.base 4 0 = (x.toNat + j) % 2 ^ fld g.base 4 0 := by
    rw [BitVec.toNat_add, BitVec.toNat_ofNat, Nat.add_mod_mod, Nat.mod_mod_of_dvd _ hdvd]
  unfold Ring.entryAddr
  rw [hmod]
  generalize 2 ^ fld g.base 4 0 = P at *
  have hne : x.toNat % P ≠ (x.toNat + j) % P := fun heq => by
    have hj : j ≡ 0 [MOD P] := Nat.ModEq.add_left_cancel' x.toNat heq.symm
    exact absurd (Nat.le_of_dvd hpos (Nat.modEq_zero_iff_dvd.1 hj)) (by omega)
  generalize x.toNat % P = a at *
  generalize (x.toNat + j) % P = b at *
  rcases Nat.lt_or_gt_of_ne hne with hab | hab
  · have := Nat.mul_le_mul_right (entrySize r) (show a + 1 ≤ b from hab)
    rw [Nat.succ_mul] at this
    omega
  · have := Nat.mul_le_mul_right (entrySize r) (show b + 1 ≤ a from hab)
    rw [Nat.succ_mul] at this
    omega

theorem State.signal_rest (s : State) (port func vec : Nat) :
    (s.signal port func vec).domains = s.domains ∧ (s.signal port func vec).hostMem = s.hostMem ∧
      (s.signal port func vec).host.drains = s.host.drains := by
  unfold State.signal
  split <;> exact ⟨rfl, rfl, rfl⟩

/-- The entry and the TAIL of `State.ringWrite`, before the signal. -/
def State.ringEntry (s : State) (dom r : Nat) (e : List Byte) : State :=
  let d := s.domain dom
  let g := d.rings.get {} r
  ({ s with hostMem := s.hostMem.setN unwritten (d.bus * 2 ^ 64 + g.entryAddr r g.tail) e } : State).updDomain dom fun d =>
    { d with rings := d.rings.set {} r { g with tail := g.tail + 1 } }

theorem State.ringWrite_eq (s : State) (dom r : Nat) (e : List Byte) :
    s.ringWrite dom r e = s.ringEntry dom r e ∨
      s.ringWrite dom r e =
        (s.ringEntry dom r e).signal (s.domain dom).port (s.domain dom).func (fld (s.domain dom).owner 58 48) := by
  by_cases hempty : ((s.domain dom).rings.get {} r).tail = ((s.domain dom).rings.get {} r).head
  · exact .inr (if_pos hempty)
  · exact .inl (if_neg hempty)

/-- What an entry of a ring changes: the bytes at its place, and the TAIL. -/
theorem State.ringWrite_spec (s : State) (dom r : Nat) (e : List Byte) :
    let d := s.domain dom
    let g := d.rings.get {} r
    let t := s.ringWrite dom r e
    t.domain dom = { d with rings := d.rings.set {} r { g with tail := g.tail + 1 } } ∧
      t.hostMem = s.hostMem.setN unwritten (d.bus * 2 ^ 64 + g.entryAddr r g.tail) e ∧ t.host.drains = s.host.drains := by
  intro d g t
  have hdom : (s.ringEntry dom r e).domain dom = { d with rings := d.rings.set {} r { g with tail := g.tail + 1 } } :=
    State.domain_updDomain ..
  obtain ht | ht := s.ringWrite_eq dom r e
  · simp only [t, ht]
    exact ⟨hdom, rfl, rfl⟩
  · obtain ⟨hd, hm, hh⟩ := (s.ringEntry dom r e).signal_rest (s.domain dom).port (s.domain dom).func
      (fld (s.domain dom).owner 58 48)
    simp only [t, ht, hm, hh]
    exact ⟨by rw [State.domain, hd]; exact hdom, rfl, rfl⟩

/-- The oldest record of a trace moved to TQ. -/
def State.drainOne (s : State) (dom : Nat) (e : List Byte) (es : List (List Byte)) : State :=
  (s.updDomain dom fun d => { d with trace := es }).ringWrite dom 6 e

theorem State.drain_succ {s : State} {dom : Nat} {e : List Byte} {es : List (List Byte)} (h : (s.domain dom).trace = e :: es)
    (hroom : ((s.domain dom).rings.get {} 6).full = false) (n : Nat) : s.drain dom (n + 1) = (s.drainOne dom e es).drain dom n := by
  simp only [State.drain, h, hroom]
  rfl

theorem State.drain_of_empty {s : State} {dom : Nat} (h : (s.domain dom).trace = []) (n : Nat) : s.drain dom n = s := by
  cases n with
  | zero => rfl
  | succ n => simp [State.drain, h]

theorem State.drainOne_spec (s : State) (dom : Nat) (e : List Byte) (es : List (List Byte)) :
    let d := s.domain dom
    let g := d.rings.get {} 6
    let t := s.drainOne dom e es
    (t.domain dom).trace = es ∧ (t.domain dom).bus = d.bus ∧ (t.domain dom).rings.get {} 6 = { g with tail := g.tail + 1 } ∧
      t.hostMem = s.hostMem.setN unwritten (d.bus * 2 ^ 64 + g.entryAddr 6 g.tail) e ∧ t.host.drains = s.host.drains := by
  intro d g t
  obtain ⟨hd, hm, hh⟩ := (s.updDomain dom fun d => { d with trace := es }).ringWrite_spec dom 6 e
  rw [State.domain_updDomain] at hd hm
  have hbus := congrArg Domain.bus hd
  have hring := (congrArg (fun x : Domain => x.rings.get {} 6) hd).trans (Tab.get_set_self ..)
  exact ⟨congrArg Domain.trace hd, hbus, hring, hm, hh⟩

/-- Records moved to a TQ that has room for all of them: where each stands, and what every other byte of the host keeps. -/
theorem State.drain_spec (dom : Nat) : ∀ (es : List (List Byte)) (s : State) (n : Nat), (s.domain dom).trace = es →
    let d := s.domain dom
    let g := d.rings.get {} 6
    let place (i : Nat) : Nat := d.bus * 2 ^ 64 + g.entryAddr 6 (g.tail + BitVec.ofNat 32 i)
    let t := s.drain dom n
    es.length ≤ n → fld g.base 4 0 ≤ 16 → (g.tail - g.head).toNat + es.length ≤ 2 ^ fld g.base 4 0 →
    (t.domain dom).trace = [] ∧ (t.domain dom).rings.get {} 6 = { g with tail := g.tail + BitVec.ofNat 32 es.length } ∧
      t.host.drains = s.host.drains ∧ ((∀ e ∈ es, e.length = 32) →
        (∀ i e, es[i]? = some e → t.hostMem.getN unwritten (place i) 32 = e) ∧
        ∀ a m, (∀ i < es.length, place i + 32 ≤ a ∨ a + m ≤ place i) → t.hostMem.getN unwritten a m = s.hostMem.getN unwritten a m)
  | [], s, n, htrace => by
    intro d g place t _ _ _
    simp [t, State.drain_of_empty htrace, htrace, g, d]
  | e :: es, s, n, htrace => by
    intro d g place t hn hsize hroom
    obtain ⟨n, rfl⟩ : ∃ k, n = k + 1 := ⟨n - 1, by simp at hn; omega⟩
    have hpow : 2 ^ fld g.base 4 0 ≤ 2 ^ 16 := Nat.pow_le_pow_right (by decide) hsize
    rw [List.length_cons] at hroom hn
    have hfull : g.full = false := by
      simp only [Ring.full, decide_eq_false_iff_not]
      omega
    have hsucc (i : Nat) : g.tail + 1 + BitVec.ofNat 32 i = g.tail + BitVec.ofNat 32 (i + 1) := by
      rw [BitVec.add_assoc, Nat.add_comm i, BitVec.ofNat_add]
      rfl
    have hnext : (g.tail + 1 - g.head).toNat = (g.tail - g.head).toNat + 1 := by
      rw [show g.tail + 1 - g.head = g.tail - g.head + 1 by ring, BitVec.toNat_add]
      exact Nat.mod_eq_of_lt (show (g.tail - g.head).toNat + 1 < 2 ^ 32 by omega)
    obtain ⟨htrace', hbus, hg, hmem', hdrains'⟩ := s.drainOne_spec dom e es
    have ih := drain_spec dom es (s.drainOne dom e es) n htrace'
    simp only [hg, hbus] at ih
    obtain ⟨hempty, hring, hdrains, hmem⟩ := ih (by omega) hsize (by simp only [g, d] at hnext hroom; rw [hnext]; omega)
    simp only [t, State.drain_succ htrace hfull]
    refine ⟨hempty, ?_, hdrains.trans hdrains', fun hlen => ?_⟩
    · rw [hring]
      exact congrArg (fun x => { g with tail := x }) (hsucc es.length)
    · obtain ⟨hsee, hkeep⟩ := hmem fun x hx => hlen x (by simp [hx])
      have he : e.length = 32 := hlen e (by simp)
      have hplace (i : Nat) : d.bus * 2 ^ 64 + Ring.entryAddr { g with tail := g.tail + 1 } 6 (g.tail + 1 + BitVec.ofNat 32 i) =
          place (i + 1) := by rw [hsucc]; rfl
      have hzero : d.bus * 2 ^ 64 + g.entryAddr 6 g.tail = place 0 := by simp [place]
      have hapart (i : Nat) (hi : i < es.length) : place (i + 1) + 32 ≤ place 0 ∨ place 0 + 32 ≤ place (i + 1) := by
        have h := Ring.entryAddr_apart hsize g.tail (j := i + 1) (by omega) (by omega) 6
        simp only [entrySize] at h
        rw [← hzero]
        simp only [place]
        omega
      rw [hmem'] at hkeep
      refine ⟨fun i x hx => ?_, fun a m ha => ?_⟩
      · cases i with
        | zero =>
          obtain rfl : e = x := by simpa using hx
          rw [hkeep (place 0) 32 fun i hi => by simpa only [← hplace] using hapart i hi, ← hzero]
          have hwritten := Tab.getN_setN unwritten s.hostMem (d.bus * 2 ^ 64 + g.entryAddr 6 g.tail) e
          rw [he] at hwritten
          exact hwritten
        | succ i => exact hplace i ▸ hsee i x (by simpa using hx)
      · rw [hkeep a m fun i hi => by simpa only [← hplace] using ha (i + 1) (by simpa using hi)]
        refine Tab.getN_setN_apart _ _ _ _ _ _ ?_
        have h0 := ha 0 (by simp)
        rw [← hzero] at h0
        rw [he]
        exact h0.symm

/-! ### TRACE (R274) -/

theorem State.trace_sameIssue (s : State) (dom : Nat) (rec : List Byte) : s.SameIssue (s.trace dom rec) := ⟨rfl, rfl, rfl, rfl⟩

theorem State.domain_trace_ne (s : State) (dom : Nat) (rec : List Byte) {k : Nat} (hk : k ≠ dom) :
    (s.trace dom rec).domain k = s.domain k := by
  simp [State.trace, State.updDomain, State.domain, Tab.get_upd, hk]

/-- The last word of a record holds its fields side by side. -/
theorem traceBytes_eq {launch core part slot : Nat} (hlaunch : launch < 2 ^ 12) (hcore : core < 2 ^ 9) (hpart : part < 2)
    (hslot : slot < 2 ^ 5) (time pc val : Nat) (act : LaneMask) (user : Bool) :
    traceBytes time pc val act launch core part slot user 0 =
      leBytes 8 time ++ leBytes 8 pc ++ leBytes 8 val ++ leBytes 8 (act ++ BitVec.ofNat 12 launch ++ BitVec.ofNat 9 core ++
        BitVec.ofNat 1 part ++ BitVec.ofNat 5 slot ++ BitVec.ofBool user ++ 0#4).toNat := by
  unfold traceBytes
  congr 2
  simp only [toNat_append_add, BitVec.toNat_ofNat, toNat_ofBool_eq_b2n]
  omega

/-! ### The instructions where no lane fails -/

section
variable {s : State} {h : Head} {reg : BitVec 16} {v : Nat → Word}

theorem krd_issues (d : Spec)
    (hreg : ∀ L ∈ s.runs h, s.kreg L reg.toNat = some (v L) ∧ (reg.toNat = 1 → (s.cl L).sup = true)) :
    s.Issues (.krd h d reg) []
      ((s.runs h).map fun L => { ret := (s.resultOf h L d .raw).shared s (sharers h (s.active h)), vals := [v L] }) := by
  obtain ⟨hfails, hrun⟩ := State.failLanes_none (s := s) (h := h) (f := fun L => s.kregFault L reg.toNat) fun L hL =>
    State.kregFault_eq_none (hreg L hL).1 (hreg L hL).2
  have hsent := (Sent.start s).governedPuts (s.runs h) (fun L => (s.runs h).getLast? == some L) d
    (fun L => (s.kreg L reg.toNat).getD 0) (sharers h (s.active h))
  have hissues := hsent.issues (.krd h d reg) h (by
    show execKrd h d reg s = _
    simp only [execKrd, hfails, hrun, State.raise_nil, State.fate_runs])
  convert hissues using 1
  rw [List.nil_append]
  refine List.map_congr_left fun L hL => ?_
  simp [(hreg L hL).1, State.resultOf, State.retFor]

theorem kwr_transfers (a : Spec) (hcb : ¬(0x20 ≤ reg.toNat ∧ reg.toNat ≤ 0x27))
    (hreg : ∀ L ∈ s.runs h, s.kreg L reg.toNat = some (v L) ∧ (reg.toNat = 1 → (s.cl L).sup = true)) :
    s.Transfers (.kwr h a reg) (s.active h) fun L =>
      ((s.cl L).kwr reg.toNat (s.opnd (if h.u then (s.active h).headD 0 else L) a 0)).moved := by
  obtain ⟨hfails, hrun⟩ := State.failLanes_none (s := s) (h := h) (f := fun L => s.kregFault L reg.toNat) fun L hL =>
    State.kregFault_eq_none (hreg L hL).1 (hreg L hL).2
  refine (Lanewise.fates s h fun L l => l.kwr reg.toNat (s.opnd L a 0)).transfers (fun L => Lane.kwr_keeps ..) ?_
  show execKwr h a reg s = _
  simp only [execKwr, hfails, hrun, State.raise_nil, State.fate_runs, if_neg hcb]

theorem kwr_waits (a : Spec) (hlow : 0x20 ≤ reg.toNat) (hhigh : reg.toNat ≤ 0x27)
    (hreg : ∀ L ∈ s.runs h, s.kreg L reg.toNat = some (v L) ∧ (reg.toNat = 1 → (s.cl L).sup = true)) :
    ∃ t, exec (.kwr h a reg) s = .next t ∧ t = { s with warps := t.warps, cbWrites := t.cbWrites } ∧
      s.WaitsIn t (.kwr h a reg) .sent (fun _ => 0) (s.active h) (s.bystanders h) ∧
      t.cbWrites = s.cbWrites ++ (s.runs h).map fun L =>
        ((s.retFor L .none .raw true).shared s (sharers h (s.active h)), s.cbNumber L (reg.toNat - 0x20), s.opnd L a 0) := by
  obtain ⟨hfails, hrun⟩ := State.failLanes_none (s := s) (h := h) (f := fun L => s.kregFault L reg.toNat) fun L hL =>
    State.kregFault_eq_none (hreg L hL).1 (hreg L hL).2
  let s' : State := { s with cbWrites := s.cbWrites ++ (s.runs h).map fun L =>
    ((s.retFor L .none .raw true).shared s (sharers h (s.active h)), s.cbNumber L (reg.toNat - 0x20), s.opnd L a 0) }
  obtain ⟨hrest, hwaits⟩ := State.waitsIn_active (s := s) (t := s') ⟨rfl, rfl, rfl, rfl⟩ h (.kwr h a reg) .sent fun _ => 0
  refine ⟨_, ?_, ?_, hwaits, ?_⟩
  · show execKwr h a reg s = _
    simp only [execKwr, hfails, hrun, State.raise_nil, State.fate_runs, if_pos (And.intro hlow hhigh), s']
  · rw [hrest]
  · rw [hrest]

end

theorem tlbinv_waits {s : State} {h : Head} (sc : Sc) (a : Spec) (whole : Bool) (hact : s.active h ≠ [])
    (hsup : ∀ L ∈ s.active h, (s.cl L).sup = true) :
    ∃ t, exec (.tlbinv h sc a whole) s = .next t ∧ t = { s with warps := t.warps } ∧
      s.WaitsIn t (.tlbinv h sc a whole) .sent (fun L => s.opnd L a 0) (s.active h) (s.bystanders h) := by
  have hall : (s.active h).filter (fun L => (s.cl L).sup) = s.active h := List.filter_eq_self.2 hsup
  have hnone : (s.active h).filter (fun L => !(s.cl L).sup) = [] :=
    List.filter_eq_nil_iff.2 fun L hL => by simp [hsup L hL]
  obtain ⟨hrest, hwaits⟩ := State.waitsIn_active (t := s) ⟨rfl, rfl, rfl, rfl⟩ h (.tlbinv h sc a whole) .sent
    fun L => s.opnd L a 0
  refine ⟨_, ?_, hrest, hwaits⟩
  show execTlbinv h sc a whole s = _
  simp only [execTlbinv, State.supervised, hall, hnone, List.map_nil, State.raise_nil, if_neg hact]

/-- What the trace of a domain is after a record. -/
theorem State.domain_trace (s : State) (dom : Nat) (rec : List Byte) :
    (s.trace dom rec).domain dom =
      if (s.domain dom).trace.length < 4096 then { s.domain dom with trace := (s.domain dom).trace ++ [rec] }
      else { s.domain dom with trlost :=
        if (s.domain dom).trlost = BitVec.allOnes 32 then (s.domain dom).trlost else (s.domain dom).trlost + 1 } :=
  s.domain_updDomain ..

theorem trace_once {s : State} {h : Head} (a : Spec) (imm : BitVec 32) (hact : s.active h ≠ []) :
    let L := (s.active h).headD 0
    let w := s.cw
    let rec' := traceBytes (s.localTime w.core) s.cur.pc.toNat (s.opnd L a imm).toNat (maskOf (s.active h)) w.launch w.core w.part
      w.slot (!(s.cl L).handler) 0
    s.Once (.trace h a imm) fun t => t = { s with warps := t.warps, domains := t.domains } ∧
      ∀ k, t.domain k = (s.trace w.dom rec').domain k := by
  intro L w rec'
  refine ⟨(s.trace w.dom rec').advance s.gang, ?_, State.movesOn_of_sameIssue (s.trace_sameIssue ..), ?_, fun k => ?_⟩
  · show execTrace h a imm s = _
    obtain ⟨K, ls, hK⟩ := List.exists_cons_of_ne_nil hact
    simp only [execTrace, rec', L, hK, List.headD_cons, w]
  · rw [State.advance_eq]
    rfl
  · rw [State.advance_eq]
    rfl

theorem traceDrain_absent {s : State} {dom : Nat} (hact : s.host.activities = true)
    (hdue : s.host.runAt + 100000 * s.host.drains.get 0 dom ≤ s.feTime)
    (habsent : ((s.domain dom).rings.get {} 6).present = false) :
    ∃ t, exec (.traceDrain dom) s = .next t ∧ t.domain dom = { s.domain dom with
      trace := []
      trlost := BitVec.ofNat 32 (min ((s.domain dom).trlost.toNat + (s.domain dom).trace.length) (2 ^ 32 - 1)) } := by
  let s' := s.updHost fun x => { x with drains := x.drains.set 0 dom (s.host.drains.get 0 dom + 1) }
  refine ⟨_, ?_, s'.domain_updDomain dom fun d => { d with
    trace := []
    trlost := BitVec.ofNat 32 (min (d.trlost.toNat + d.trace.length) (2 ^ 32 - 1)) }⟩
  show execTraceDrain dom s = _
  simp only [execTraceDrain, hact, hdue, and_self, if_true]
  rw [if_neg (by rw [show (s.updHost _).domain dom = s.domain dom from rfl, habsent]; decide)]

theorem traceDrain_present {s : State} {dom : Nat} (hact : s.host.activities = true)
    (hdue : s.host.runAt + 100000 * s.host.drains.get 0 dom ≤ s.feTime)
    (hpresent : ((s.domain dom).rings.get {} 6).present = true) :
    exec (.traceDrain dom) s = .next
      ((s.updHost fun x => { x with drains := x.drains.set 0 dom (s.host.drains.get 0 dom + 1) }).drain dom 4096) := by
  show execTraceDrain dom s = _
  simp only [execTraceDrain, hact, hdue, and_self, if_true]
  rw [if_pos (by rw [show (s.updHost _).domain dom = s.domain dom from rfl, hpresent])]

theorem Ring.size_le {g : Ring} (h : g.present = true) : fld g.base 4 0 ≤ 16 := by
  simp only [Ring.present, Bool.and_eq_true, decide_eq_true_eq] at h
  exact h.1.2

end Sys2Proof.Machine

namespace Sys2Proof
open Machine

/-- Settles O32: the registers by their numbers, one step of the drain repeated for its ring. -/
theorem kernelRegistersInvalidationAndTrace : Obligations.KernelRegistersInvalidationAndTrace := by
  refine ⟨fun s h d a reg v => ?_, fun s h sc a whole imm => ?_, fun s dom => ?_⟩
  · intro act ls n buf holds from' hholds
    have hreg : ∀ L ∈ s.runs h, s.kreg L reg.toNat = some (v L) ∧ (reg.toNat = 1 → (s.cl L).sup = true) := fun L hL => by
      obtain ⟨hn, hsup, hx⟩ | ⟨hn, hx⟩ | ⟨hn, hx⟩ | ⟨hn, hx⟩ | ⟨hn, hx⟩ | ⟨hn, hx⟩ | ⟨hn, hx⟩ | ⟨hl, hh, hx⟩ | ⟨hl, hh, hx⟩ |
        ⟨hn, hx⟩ | ⟨hn, hx⟩ | ⟨hn, hx⟩ := hholds L hL
      all_goals rw [show n = reg.toNat from rfl] at *
      · exact ⟨by rw [hx, hn]; rfl, fun _ => hsup⟩
      · exact ⟨by rw [hx, hn]; rfl, by omega⟩
      · exact ⟨by rw [hx, hn]; rfl, by omega⟩
      · exact ⟨by rw [hx, hn]; rfl, by omega⟩
      · exact ⟨by rw [hx, hn]; rfl, by omega⟩
      · exact ⟨by rw [hx, hn, ← Lane.wstat_eq]; rfl, by omega⟩
      · exact ⟨by rw [hx, hn]; rfl, by omega⟩
      · exact ⟨by rw [hx, State.kreg_cfg s L hl hh]; rfl, by omega⟩
      · exact ⟨by rw [hx, State.kreg_stat s L hl hh]; rfl, by omega⟩
      · exact ⟨by rw [hx, hn]; simp [State.kreg, HostRegs.skewWord, b2n], by omega⟩
      · exact ⟨by rw [hx, hn]; rfl, by omega⟩
      · exact ⟨by rw [hx, hn]; rfl, by omega⟩
    refine ⟨krd_issues d hreg, fun hn => ?_, fun hlow hhigh => kwr_waits a hlow hhigh hreg⟩
    obtain ⟨t, ht, hrest, honly, hlanes⟩ := kwr_transfers a hn hreg
    refine ⟨t, ht, hrest, honly, fun L => ?_⟩
    rw [hlanes]
    split
    · exact Lane.kwr_moved ..
    · rfl
  · intro act w L dom last hact
    refine ⟨tlbinv_waits sc a whole hact, fun hlaunch hcore hpart hslot => ?_⟩
    obtain ⟨t, ht, hmoves, hrest, hdom⟩ := trace_once (h := h) a imm hact
    rw [traceBytes_eq hlaunch hcore hpart hslot] at hdom
    exact ⟨t, ht, hmoves, hrest, fun k hk => (hdom k).trans (s.domain_trace_ne _ _ hk), (hdom _).trans (s.domain_trace ..)⟩
  · intro h d g runs hact hdue
    refine ⟨traceDrain_absent hact hdue, fun hpresent hlen hroom => ?_⟩
    rw [← fld_low_eq] at hroom
    obtain ⟨htrace, hring, hdrains, hmem⟩ := State.drain_spec dom d.trace
      (s.updHost fun x => { x with drains := x.drains.set 0 dom (runs + 1) }) 4096 rfl hlen (Ring.size_le hpresent) hroom
    refine ⟨_, traceDrain_present hact hdue hpresent, htrace, hring, ?_, fun hbytes => (hmem hbytes).1⟩
    rw [hdrains]
    exact Tab.get_set_self 0 h.drains dom (runs + 1)

end Sys2Proof
end
